-- ==== Sys2Proof/Word.lean ====
section
/-! DEFINITION. The word types of the machine and their plainest arithmetic (spec 12 R175, 01 R19, 08 R120). -/

namespace Sys2Proof

/-- A 64-bit scalar word (12 R175). -/
abbrev Word := BitVec 64
/-- A byte of memory. -/
abbrev Byte := BitVec 8
/-- A vector register of 512 bytes (01 R11). -/
abbrev Vec := BitVec 4096
/-- A lane mask (01 R19). -/
abbrev Mask := BitVec 1024
/-- A hypervector (08 R136). -/
abbrev Hyper := BitVec 8192
/-- A counter bank of 8192 signed 8-bit counters (01 R19). -/
abbrev Bank := BitVec 65536

/-- The signed number that the low `n` bits of `x` spell (08 R125, sext). -/
def sextNat (n x : Nat) : Int :=
  let y := x % 2 ^ n
  if y < 2 ^ (n - 1) then (y : Int) else (y : Int) - 2 ^ n

/-- The `n`-bit pattern of an integer, wrapping (08 R121). -/
def wrapInt (n : Nat) (x : Int) : Nat := (x % (2 ^ n : Int)).toNat

/-- clamp of 08 R125. -/
def clampInt (x lo hi : Int) : Int := if x < lo then lo else if hi < x then hi else x

/-- clamp on naturals. -/
def clampNat (x lo hi : Nat) : Nat := if x < lo then lo else if hi < x then hi else x

/-- Bits [hi:lo] of a natural number, hi given as a width. -/
def bitsOf (x lo width : Nat) : Nat := x / 2 ^ lo % 2 ^ width

end Sys2Proof
end

