-- ==== Sys2Proof/Types.lean ====
section
/-! DEFINITION. The small operand types that the instructions carry: element types, rounding modes, engines, scopes, token bits, and the data with which operations of the hardware and of the host are called. -/

namespace Sys2Proof

/-- The ty codes 0 to 14 of 11 R169. -/
inductive ElemType where
  | i4 | u4 | i8 | u8 | i16 | u16 | i32 | u32 | i64 | u64 | f16 | bf16 | f32 | e4m3 | e5m2
deriving DecidableEq, Repr

/-- Rounding modes (08 R124), coded 0 to 3 (11 R168). -/
inductive Rm where
  | rne | rz | rd | ru
deriving DecidableEq, Repr

/-- The three engines (04 R70), coded 0 LD, 1 CP, 2 ST (11 R165). -/
inductive Eng where
  | ld | cp | st
deriving DecidableEq, Repr

/-- Scopes of fences (07 R119, 11 R166). -/
inductive Scope where
  | core | cluster | die | module
deriving DecidableEq, Repr

/-- Patch registers (03 R37, 11 R165). -/
inductive PatchReg where
  | pb | pp | ps | pl | pt | pm | pf | pv
deriving DecidableEq, Repr

/-- Token bits of a bundle or command (04 R70). -/
structure Tok where
  pu : Bool
  pd : Bool
  su : Bool
  sd : Bool
deriving DecidableEq, Repr

/-- Conditions of VCMP (13 R212). -/
inductive Cmp where
  | eq | ne | lt | le | gt | ge | un
deriving DecidableEq, Repr

/-- Conditions of BRC (13 R229). -/
inductive BrCond where
  | eq | ne | lt | ge | ltu | geu
deriving DecidableEq, Repr

/-- Combining operation of VREDS (13 R216). -/
inductive RedOp where
  | sum | max | min
deriving DecidableEq, Repr

/-- Accumulator word selected by AWR and ASTAT (14 R248). -/
inductive AccSel where
  | m | g | x | f
deriving DecidableEq, Repr

/-- Where a vector shift takes its count from (13 R211). -/
inductive ShiftBy where
  | vec (b : Nat)
  | imm (n : Nat)
deriving DecidableEq, Repr

/-- The strides of a REP, each -8 to 7, and the slots they step (13 R233). -/
structure Strides where
  sd : BitVec 4
  sa : BitVec 4
  sb : BitVec 4
  sc : BitVec 4
  slots : BitVec 4
deriving DecidableEq, Repr

/-- The special functions of 08 R134. -/
inductive SfOp where
  | exp2 | log2 | rcp | rsq
deriving DecidableEq, Repr

/-- The slots of a bundle (11 R168). -/
inductive Slot where
  | c | v | w | m
deriving DecidableEq, Repr

/-- What an encryption key identifier holds (17 R299): the random key it got at boot, a fresh random key of a later KEYCLR (numbered), or a loaded key. -/
inductive Key where
  | boot (id : Nat)
  | fresh (serial : Nat)
  | loaded (v : BitVec 512)
deriving DecidableEq, Repr

/-- Which access ACCESS_PERFORM performs (06 R104): the i-th outstanding SC access, the next access of a command in flight of an engine, the next access of a die's routing pass or of its replication engine, or the next entry that a walk of a die reads (16 R287). `words` says how many 8-byte words of a transfer the step performs (16 R281). -/
inductive AccessPick where
  | sc (i : Nat)
  | eng (core : Nat) (e : Eng) (cmd words : Nat)
  | routing (die : Nat)
  | replication (die : Nat)
  | walk (die i : Nat)
deriving DecidableEq, Repr

/-- Which reply LOAD_REPLY delivers (12 R176): the i-th reply waiting, or the result of the oldest ordered operation of a context. -/
inductive ReplyPick where
  | access (i : Nat)
  | op (core ctx : Nat)
deriving DecidableEq, Repr

/-- One core's place in a cohort (05 R88, R89): the choices the scheduler makes for it. `regs` names the blocks of 32 vector registers that the allotment takes, in order. -/
structure Placement where
  core : Nat
  regs : List Nat
  area : Nat
  frame : Nat
  wheelP : Nat
deriving DecidableEq, Repr

/-- Where the scheduler takes a record from: a work queue, or a die's pending-launch pool (05 R82). -/
inductive Source where
  | queue (q : Nat)
  | pool (die : Nat)
deriving DecidableEq, Repr

/-- Residue mismatches met while an MMA ran (25 R352): how many blocks were computed again, and the elements whose second partial disagreed too. -/
structure ResidueErrors where
  retries : Nat
  poisoned : List Nat
deriving DecidableEq, Repr

/-- Why a gated core wakes (07 R117). -/
inductive WakeCause where
  | access | arrival | placement | host
deriving DecidableEq, Repr

/-- A link of the fabric (25 R345, R346): the on-package link of a die, or an external port. -/
inductive Link where
  | die (d : Nat)
  | port (p : Nat)
deriving DecidableEq, Repr

/-- What the trust core finds in the host's boot region (17 R298): both signature checks of both items, the versions, what the configuration block assigns (17 R296, R297), and the SHA-384 hashes of both items (17 R299). -/
structure BootImage where
  firmwareOk : Bool
  blockOk : Bool
  version : Nat
  minimum : Nat
  moduleNumber : Nat
  routes : List (Nat × BitVec 18)
  imports : List (Nat × Nat)
  firmware : BitVec 384
  block : BitVec 384
deriving DecidableEq, Repr

/-- Where an SRAM error lies (25 R350, R351). -/
inductive SramPlace where
  | spad (granule : Nat)
  | vreg (granule : Nat)
  | acc (tile elem : Nat)
  | imem (party : Eng) (addr : Nat)
  | imemSc (addr : Nat)
deriving DecidableEq, Repr

/-- What a patrol scrub or an HBM read finds in a 32-byte word (25 R353). -/
inductive EccOutcome where
  | clean | corrected | uncorrectable
deriving DecidableEq, Repr

/-- A host access through an aperture (17 R292), or an 8-byte read of the work-queue window or the module control window (05 R79, 17 R293). -/
inductive HostAccess where
  | hbmWrite (pa : Nat) (bytes : List Byte)
  | hbmRead (pa len : Nat)
  | hallWrite (addr : Nat) (bytes : List Byte)
  | hallRead (addr len : Nat)
  | queueRead (off : Nat)
  | ctlRead (off : Nat)
deriving DecidableEq, Repr

/-- A register write that REGISTER_WRITE performs (11 R167, 17 R293): the oldest ordered operation of an SC context, or a host write to the work-queue window or the module control window. -/
inductive RegWrite where
  | csr (core ctx : Nat)
  | queue (off : Nat) (v : BitVec 64)
  | ctl (off : Nat) (v : BitVec 64)
deriving DecidableEq, Repr

/-- Element width in bits (13 R208). -/
def ElemType.width : ElemType → Nat
  | .i4 | .u4 => 4
  | .i8 | .u8 | .e4m3 | .e5m2 => 8
  | .i16 | .u16 | .f16 | .bf16 => 16
  | .i32 | .u32 | .f32 => 32
  | .i64 | .u64 => 64

/-- Elements of one register (13 R208). -/
def ElemType.count (t : ElemType) : Nat := 4096 / t.width

/-- Signed integer types. -/
def ElemType.signed : ElemType → Bool
  | .i4 | .i8 | .i16 | .i32 | .i64 => true
  | _ => false

/-- Group I of 13 R209: integers of 4 to 32 bits. -/
def ElemType.groupI : ElemType → Bool
  | .i4 | .u4 | .i8 | .u8 | .i16 | .u16 | .i32 | .u32 => true
  | _ => false

/-- Group L of 13 R209: 64-bit integers. -/
def ElemType.groupL : ElemType → Bool
  | .i64 | .u64 => true
  | _ => false

/-- Group H of 13 R209: FP16, BF16, FP32. -/
def ElemType.groupH : ElemType → Bool
  | .f16 | .bf16 | .f32 => true
  | _ => false

/-- Integer types. -/
def ElemType.isInt (t : ElemType) : Bool := t.groupI || t.groupL

/-- The ty code (11 R169). -/
def ElemType.code : ElemType → Nat
  | .i4 => 0 | .u4 => 1 | .i8 => 2 | .u8 => 3 | .i16 => 4 | .u16 => 5 | .i32 => 6 | .u32 => 7
  | .i64 => 8 | .u64 => 9 | .f16 => 10 | .bf16 => 11 | .f32 => 12 | .e4m3 => 13 | .e5m2 => 14

/-- The type of a ty code; 15 is reserved (11 R169). -/
def ElemType.ofCode : Nat → Option ElemType
  | 0 => some .i4 | 1 => some .u4 | 2 => some .i8 | 3 => some .u8 | 4 => some .i16 | 5 => some .u16
  | 6 => some .i32 | 7 => some .u32 | 8 => some .i64 | 9 => some .u64 | 10 => some .f16
  | 11 => some .bf16 | 12 => some .f32 | 13 => some .e4m3 | 14 => some .e5m2
  | _ => none

/-- The rm code (11 R168). -/
def Rm.code : Rm → Nat
  | .rne => 0 | .rz => 1 | .rd => 2 | .ru => 3

/-- The mode of an rm code. -/
def Rm.ofCode : Nat → Rm
  | 0 => .rne | 1 => .rz | 2 => .rd | _ => .ru

/-- The engine code (11 R165). -/
def Eng.code : Eng → Nat
  | .ld => 0 | .cp => 1 | .st => 2

/-- The engine of a code; 3 is reserved (11 R165). -/
def Eng.ofCode : Nat → Option Eng
  | 0 => some .ld | 1 => some .cp | 2 => some .st | _ => none

/-- The scope code (11 R166). -/
def Scope.code : Scope → Nat
  | .core => 0 | .cluster => 1 | .die => 2 | .module => 3

/-- The scope of a code (11 R166). -/
def Scope.ofCode : Nat → Scope
  | 0 => .core | 1 => .cluster | 2 => .die | _ => .module

/-- The patch register index (11 R165). -/
def PatchReg.code : PatchReg → Nat
  | .pb => 0 | .pp => 1 | .ps => 2 | .pl => 3 | .pt => 4 | .pm => 5 | .pf => 6 | .pv => 7

/-- The patch register of an index (11 R165). -/
def PatchReg.ofCode : Nat → PatchReg
  | 0 => .pb | 1 => .pp | 2 => .ps | 3 => .pl | 4 => .pt | 5 => .pm | 6 => .pf | _ => .pv

/-- The VCMP condition code (13 R212). -/
def Cmp.code : Cmp → Nat
  | .eq => 0 | .ne => 1 | .lt => 2 | .le => 3 | .gt => 4 | .ge => 5 | .un => 6

/-- The condition of a VCMP code; 7 is reserved. -/
def Cmp.ofCode : Nat → Option Cmp
  | 0 => some .eq | 1 => some .ne | 2 => some .lt | 3 => some .le | 4 => some .gt | 5 => some .ge
  | 6 => some .un | _ => none

/-- The BRC condition code (13 R229). -/
def BrCond.code : BrCond → Nat
  | .eq => 0 | .ne => 1 | .lt => 2 | .ge => 3 | .ltu => 4 | .geu => 5

/-- The condition of a BRC code; 6 and 7 are reserved. -/
def BrCond.ofCode : Nat → Option BrCond
  | 0 => some .eq | 1 => some .ne | 2 => some .lt | 3 => some .ge | 4 => some .ltu | 5 => some .geu
  | _ => none

/-- The VREDS operation code (13 R216). -/
def RedOp.code : RedOp → Nat
  | .sum => 0 | .max => 1 | .min => 2

/-- The operation of a VREDS code; 3 is reserved. -/
def RedOp.ofCode : Nat → Option RedOp
  | 0 => some .sum | 1 => some .max | 2 => some .min | _ => none

/-- The sel code of AWR and ASTAT (14 R248). -/
def AccSel.code : AccSel → Nat
  | .m => 0 | .g => 1 | .x => 2 | .f => 3

/-- The word of a sel code. -/
def AccSel.ofCode : Nat → AccSel
  | 0 => .m | 1 => .g | 2 => .x | _ => .f

/-- The token bits as the four bits PU, PD, SU, SD (11 R171). -/
def Tok.code (t : Tok) : Nat :=
  8 * t.pu.toNat + 4 * t.pd.toNat + 2 * t.su.toNat + t.sd.toNat

/-- The token bits of a four-bit number. -/
def Tok.ofCode (n : Nat) : Tok :=
  ⟨n / 8 % 2 == 1, n / 4 % 2 == 1, n / 2 % 2 == 1, n % 2 == 1⟩

end Sys2Proof
end

