-- ==== Sys2Proof/Config.lean ====
section
/-! DEFINITION. What the implementation fixes (sizes and limits of spec 01) and the free values: constants with no body, for what the spec leaves open. -/

namespace Sys2Proof.Config

/-- Cores of the module (01 R10). -/
def cores : Nat := 512
/-- Bytes of a scratchpad slice (01 R11). -/
def sliceBytes : Nat := 4194304
/-- Offset of the slice's top 128 KiB, kept by the scheduler (05 R88). -/
def sliceReserved : Nat := sliceBytes - 131072
/-- Physical bytes installed in each HBM stack (06 R102). -/
def stackBytes : Nat := 80000000000
/-- Bytes of the four instruction memories (01 R18). -/
def scImem : Nat := 65536
def engImem : Nat := 16384
def cpImem : Nat := 262144
/-- The watchdog limit of 23 R320, R317 and 24 R331. -/
def watchdog : Nat := 1048576
/-- Blocks of a core's cellar state (26 R354) and how many of them are SRAM. -/
def cellarBlocks : Nat := 33728
def sramBlocks : Nat := 32768

/-- FREE VALUE (08 R134, log 13): which of the admitted results a special function gives, by function, grade and operand. -/
opaque specialPick : SfOp → Bool → BitVec 32 → Nat
/-- FREE VALUE (17 R299, 06 R102, log 14): what a 16-byte block written under one key reads as under another. -/
opaque garbled : Key → Key → Nat → BitVec 128 → BitVec 128
/-- FREE VALUES (17 R300, log 15): a core's power estimate in 1/64 W on the high rail, and what its lower one on the low rail is, by the model's free-value counter and the core. -/
opaque powerEstimate : Nat → Nat → BitVec 16
opaque powerSaving : Nat → Nat → BitVec 16
/-- FREE VALUE (17 R299, log 16): the key that a wrapped key unwraps to. -/
opaque unwrapKey : BitVec 576 → BitVec 512
/-- FREE VALUE (17 R299, log 16): the bytes of an attestation report, by the nonce, the hashes of the firmware and the block, and the module number that it holds. -/
opaque attestReport : BitVec 256 → BitVec 384 → BitVec 384 → Nat → List Byte
/-- FREE VALUE (17 R298, log 5): the refusal code in BOOTST. -/
opaque bootRefusal : Nat → BitVec 8
/-- FREE VALUE (10 R155, log 30): what LDVAL reads when LDSEL names no counter, by the model's free-value counter. -/
opaque freeWord : Nat → BitVec 64
/-- FREE VALUE (25 R347, log 5): the module number that a port finds at its far end, by port and the model's free-value counter. -/
opaque peerModule : Nat → Nat → BitVec 16
/-- FREE VALUE (25 R345, log 92): the flits that cross a link without a mismatch between two mismatches, by the model's free-value counter. -/
opaque flitsBetween : Nat → BitVec 64
/-- FREE VALUE (17 R299, log 16): the status of a trust command, by command and the model's free-value counter. -/
opaque trustStatus : Nat → Nat → BitVec 32
end Sys2Proof.Config
end

