-- ==== Sys2Proof/Machine/Float.lean ====
section
/-! DEFINITION. Number formats and rounding (spec 08 R120-R128, R134-R135): exact dyadic values, one rounding at the end, saturation, comparison, the special functions and the piecewise cubic. -/

namespace Sys2Proof.Machine

/-- A floating-point format (08 R122): exponent bits, fraction bits, bias, the largest finite pattern, whether it has infinities, and its canonical NaN. -/
structure Fmt where
  eb : Nat
  fb : Nat
  bias : Nat
  maxFin : Nat
  hasInf : Bool
  nan : Nat
  satur : Bool
deriving DecidableEq, Repr

def fmtF32 : Fmt := ⟨8, 23, 127, 0x7F7FFFFF, true, 0x7FC00000, false⟩
def fmtF16 : Fmt := ⟨5, 10, 15, 0x7BFF, true, 0x7E00, false⟩
def fmtBf16 : Fmt := ⟨8, 7, 127, 0x7F7F, true, 0x7FC0, false⟩
def fmtE4m3 : Fmt := ⟨4, 3, 7, 0x7E, false, 0x7F, true⟩
def fmtE5m2 : Fmt := ⟨5, 2, 15, 0x7B, true, 0x7E, true⟩

/-- The format of a floating element type. -/
def fmtOf : ElemType → Option Fmt
  | .f32 => some fmtF32
  | .f16 => some fmtF16
  | .bf16 => some fmtBf16
  | .e4m3 => some fmtE4m3
  | .e5m2 => some fmtE5m2
  | _ => none

/-- Width of a format in bits, and its sign bit and infinity. -/
def Fmt.width (f : Fmt) : Nat := 1 + f.eb + f.fb
def Fmt.sign (f : Fmt) (neg : Bool) : Nat := if neg then 2 ^ (f.eb + f.fb) else 0
def Fmt.infBits (f : Fmt) : Nat := (2 ^ f.eb - 1) * 2 ^ f.fb

/-- A value: NaN, an infinity, or the exact (-1)^neg x m x 2^e. -/
inductive FVal where
  | nan
  | inf (neg : Bool)
  | fin (neg : Bool) (m : Nat) (e : Int)
deriving DecidableEq, Repr

/-- The value that a pattern encodes (08 R122). -/
def decodeF (f : Fmt) (bits : Nat) : FVal :=
  let neg := bits / 2 ^ (f.eb + f.fb) % 2 == 1
  let ex := bits / 2 ^ f.fb % 2 ^ f.eb
  let fr := bits % 2 ^ f.fb
  let emin : Int := 1 - (f.bias : Int) - f.fb
  if f.hasInf && ex == 2 ^ f.eb - 1 then (if fr = 0 then .inf neg else .nan)
  else if !f.hasInf && ex == 2 ^ f.eb - 1 && fr == 2 ^ f.fb - 1 then .nan
  else if ex = 0 then .fin neg fr emin
  else .fin neg (fr + 2 ^ f.fb) (emin + (ex : Int) - 1)

/-- Rounds num/den, of sign neg, to a natural number under a mode (08 R124). -/
def roundNat (rm : Rm) (neg : Bool) (num den : Nat) : Nat :=
  let q := num / den
  let r := num % den
  let up := match rm with
    | .rne => decide (den < 2 * r) || (2 * r == den && q % 2 == 1)
    | .rz => false
    | .rd => neg && r != 0
    | .ru => !neg && r != 0
  if up then q + 1 else q

/-- num x 2^k as numerator and denominator. -/
def scale2 (num den : Nat) (k : Int) : Nat × Nat :=
  if 0 ≤ k then (num * 2 ^ k.toNat, den) else (num, den * 2 ^ (-k).toNat)

/-- rnd of 08 R125: a dyadic rounded to an integer. -/
def roundInt (rm : Rm) (neg : Bool) (m : Nat) (e : Int) : Int :=
  let (n, d) := scale2 m 1 e
  let q := roundNat rm neg n d
  if neg then -(q : Int) else q

/-- floor(log2(n/d)) for positive n and d. -/
def floorLog2 (n d : Nat) : Int :=
  let e : Int := (Nat.log2 n : Int) - Nat.log2 d
  let (a, b) := scale2 d 1 e
  if n * b < a then e - 1 else e

/-- What a magnitude beyond the largest finite becomes (08 R126). -/
def overflowF (f : Fmt) (rm : Rm) (neg satur : Bool) : Nat :=
  let toInf := match rm with
    | .rne => true
    | .rz => false
    | .rd => neg
    | .ru => !neg
  f.sign neg + (if toInf && f.hasInf && !satur then f.infBits else f.maxFin)

/-- The pattern of the positive rational num/den, of sign neg, rounded once (08 R124, R126). -/
def roundFrac (f : Fmt) (rm : Rm) (satur neg : Bool) (num den : Nat) : Nat :=
  if num = 0 then f.sign neg
  else
    let emin : Int := 1 - (f.bias : Int)
    let ex := max (floorLog2 num den) emin
    let (a, b) := scale2 num den ((f.fb : Int) - ex)
    let bits := (ex - emin).toNat * 2 ^ f.fb + roundNat rm neg a b
    if f.maxFin < bits then overflowF f rm neg satur else f.sign neg + bits

/-- cvt of 08 R125, and cvts when `satur`; E4M3 and E5M2 always saturate finite values (08 R126). -/
def encodeF (f : Fmt) (rm : Rm) (satur : Bool) : FVal → Nat
  | .nan => f.nan
  | .inf neg => f.sign neg + (if f.hasInf then f.infBits else f.maxFin)
  | .fin neg m e =>
    let (n, d) := scale2 m 1 e
    roundFrac f rm (satur || f.satur) neg n d

/-- The signed integer m x 2^(e - lo), for lo at or below e. -/
def FVal.align (neg : Bool) (m : Nat) (e lo : Int) : Int :=
  let v : Int := (m : Int) * 2 ^ (e - lo).toNat
  if neg then -v else v

/-- The exact sum. A zero sum of unlike signs is exact, so no rounding mode counts (27 R366): it is +0 (log 13). -/
def FVal.add : FVal → FVal → FVal
  | .nan, _ => .nan
  | _, .nan => .nan
  | .inf a, .inf b => if a = b then .inf a else .nan
  | .inf a, _ => .inf a
  | _, .inf b => .inf b
  | .fin sa ma ea, .fin sb mb eb =>
    let lo := min ea eb
    let v := FVal.align sa ma ea lo + FVal.align sb mb eb lo
    if v = 0 then .fin (sa == sb && ma == 0 && mb == 0 && sa) 0 lo
    else .fin (decide (v < 0)) v.natAbs lo

/-- The exact product. -/
def FVal.mul : FVal → FVal → FVal
  | .nan, _ => .nan
  | _, .nan => .nan
  | .inf a, .inf b => .inf (a != b)
  | .inf a, .fin sb mb _ => if mb = 0 then .nan else .inf (a != sb)
  | .fin sa ma _, .inf b => if ma = 0 then .nan else .inf (sa != b)
  | .fin sa ma ea, .fin sb mb eb => .fin (sa != sb) (ma * mb) (ea + eb)

def FVal.neg : FVal → FVal
  | .nan => .nan
  | .inf s => .inf (!s)
  | .fin s m e => .fin (!s) m e

def FVal.abs : FVal → FVal
  | .nan => .nan
  | .inf _ => .inf false
  | .fin _ m e => .fin false m e

def FVal.isNan : FVal → Bool
  | .nan => true
  | _ => false

/-- a < b of two values that are not NaN; -0 equals +0. -/
def FVal.lt : FVal → FVal → Bool
  | .inf a, .inf b => a && !b
  | .inf a, .fin _ _ _ => a
  | .fin _ _ _, .inf b => !b
  | .fin sa ma ea, .fin sb mb eb =>
    let lo := min ea eb
    decide (FVal.align sa ma ea lo < FVal.align sb mb eb lo)
  | _, _ => false

/-- The sign of a value that is not NaN. -/
def FVal.signBit : FVal → Bool
  | .nan => false
  | .inf s => s
  | .fin s _ _ => s

/-- a wins over b as a maximum: it is larger, or +0 against -0 (08 R125). -/
def FVal.over (a b : FVal) : Bool := b.lt a || (!(a.lt b) && !a.signBit && b.signBit)

/-- fmaxn and fminn of 08 R125. -/
def FVal.maxn (a b : FVal) : FVal := if a.isNan then b else if b.isNan then a else if b.over a then b else a
def FVal.minn (a b : FVal) : FVal := if a.isNan then b else if b.isNan then a else if a.over b then b else a

/-- The integer range of a type (08 R121). -/
def intMin (t : ElemType) : Int := if t.signed then -(2 ^ (t.width - 1)) else 0
def intMax (t : ElemType) : Int := if t.signed then 2 ^ (t.width - 1) - 1 else 2 ^ t.width - 1

/-- sat of 08 R125. -/
def satInt (t : ElemType) (x : Int) : Int := clampInt x (intMin t) (intMax t)

/-- The integer that a pattern of an integer type encodes. -/
def readInt (t : ElemType) (bits : Nat) : Int := if t.signed then sextNat t.width bits else (bits % 2 ^ t.width : Nat)

/-- A value converted to an integer type: sat(rnd(x, rm), ty); NaN gives 0 (08 R126). -/
def toIntType (t : ElemType) (rm : Rm) : FVal → Int
  | .nan => 0
  | .inf neg => if neg then intMin t else intMax t
  | .fin neg m e => satInt t (roundInt rm neg m e)

/-- An integer as a value. -/
def FVal.ofInt (x : Int) : FVal := .fin (decide (x < 0)) x.natAbs 0

/-- The exact value of an element of any type. -/
def readVal (t : ElemType) (bits : Nat) : FVal :=
  match fmtOf t with
  | some f => decodeF f bits
  | none => FVal.ofInt (readInt t bits)

/-- A value rounded into a type: cvt, or cvts when `satur` (08 R126). -/
def writeVal (t : ElemType) (rm : Rm) (satur : Bool) (v : FVal) : Nat :=
  match fmtOf t with
  | some f => encodeF f rm satur v
  | none => wrapInt t.width (toIntType t rm v)

/-! FP32 arithmetic with one rounding. -/

def f32 (bits : Nat) : FVal := decodeF fmtF32 bits
def toF32 (rm : Rm) (v : FVal) : Nat := encodeF fmtF32 rm false v
/-- fma of 08 R125, on FP32 patterns. -/
def fma32 (rm : Rm) (a b c : Nat) : Nat := toF32 rm (FVal.add (FVal.mul (f32 a) (f32 b)) (f32 c))
/-- FP32 sum, and quotient of patterns under RNE (10 R151). -/
def add32 (rm : Rm) (a b : Nat) : Nat := toF32 rm (FVal.add (f32 a) (f32 b))
def div32 (a b : Nat) : Nat :=
  match f32 a, f32 b with
  | .nan, _ => fmtF32.nan
  | _, .nan => fmtF32.nan
  | .inf _, .inf _ => fmtF32.nan
  | .inf s, .fin t _ _ => fmtF32.sign (s != t) + fmtF32.infBits
  | .fin s _ _, .inf t => fmtF32.sign (s != t)
  | .fin s m e, .fin t n g =>
    if n = 0 then (if m = 0 then fmtF32.nan else fmtF32.sign (s != t) + fmtF32.infBits)
    else
      let (p, q) := scale2 m n (e - g)
      roundFrac fmtF32 .rne false (s != t) p q

/-! Special functions (08 R134). Where the spec gives an error bound and no value, `Config.specialPick` chooses among the patterns within the bound (log 13). -/

/-- Precision of the reference computations, in bits. -/
def refBits : Nat := 256
/-- ln 2 in units of 2^-256, rounded down. -/
def ln2Ref : Nat := 80260960185991308862233904206310070533990667611589946606122867505419956976171

/-- exp(y) for 0 ≤ y < 1 in units of 2^-256, from below: `n` terms of the series. -/
def expSeries (y : Nat) : Nat → Nat → Nat → Nat → Nat
  | 0, _, _, acc => acc
  | n + 1, k, t, acc => expSeries y n (k + 1) (t * y / 2 ^ refBits / (k + 1)) (acc + t)

/-- `n` binary digits of log2 of v, 1 ≤ v < 2, in units of 2^-256, from below. -/
def log2Digits : Nat → Nat → Nat → Nat
  | 0, _, acc => acc
  | n + 1, v, acc =>
    let w := v * v / 2 ^ refBits
    if 2 ^ (refBits + 1) ≤ w then log2Digits n (w / 2) (2 * acc + 1) else log2Digits n w (2 * acc)

/-- Integer square root, one bit at a time from bit n - 1 down. -/
def isqrt (x : Nat) : Nat → Nat → Nat
  | 0, r => r
  | n + 1, r =>
    let c := r + 2 ^ n
    if c * c ≤ x then isqrt x n c else isqrt x n r

/-- The magnitude that pattern p encodes lies within k ulp of num/den, an ulp being that of 08 R134 at num/den. -/
def withinUlps (k num den p : Nat) : Bool :=
  match f32 p with
  | .fin _ m e =>
    let (n, d) := scale2 m 1 e
    let (u, v) := scale2 k 1 (max (floorLog2 num den) (-126) - 23)
    decide (((n * den : Nat) - (num * d : Nat) : Int).natAbs * v ≤ u * (d * den))
  | _ => false

/-- The patterns of magnitude within k ulp of every value from num/den to num/den x (1 + 2^-60). -/
def nearPatterns (k num den : Nat) : List Nat :=
  let b := roundFrac fmtF32 .rz false false num den
  ((List.range (b + 4 - (b - 6))).map (fun i => b - 6 + i)).filter (fun p =>
    withinUlps k num den p && withinUlps k (num * (2 ^ 60 + 1)) (den * 2 ^ 60) p)

/-- One of the patterns within 1 ulp (accurate) or 3 ulp (fast) of a value whose magnitude lies at or just above num/den, chosen freely (08 R134, log 13). -/
def pickNear (op : SfOp) (acc neg : Bool) (x : BitVec 32) (num den : Nat) : Nat :=
  let l := nearPatterns (if acc then 1 else 3) num den
  fmtF32.sign neg + (l[Config.specialPick op acc x % l.length]?).getD (roundFrac fmtF32 .rz false false num den)

/-- A result of the fast grade: a subnormal becomes zero of its sign (08 R134). Beside 2^-126 it goes by the approximated result, not by the exact one: the model's choice (log 94). -/
def flushF (acc : Bool) (bits : Nat) : Nat :=
  if !acc && bits / 2 ^ 23 % 256 == 0 then bits / 2 ^ 31 * 2 ^ 31 else bits

/-- An operand of the fast grade: a subnormal reads as zero of its sign. -/
def flushIn (acc : Bool) (bits : Nat) : FVal := f32 (flushF acc bits)

/-- VEXP2 (08 R134). -/
def exp2F (acc : Bool) (x : BitVec 32) : Nat :=
  match flushIn acc x.toNat with
  | .nan => fmtF32.nan
  | .inf neg => if neg then 0 else fmtF32.infBits
  | .fin neg m e =>
    let (n, d) := scale2 m 1 e
    let v : Int := if neg then -(((n + d - 1) / d : Nat) : Int) else ((n / d : Nat) : Int)
    if m = 0 then 0x3F800000
    else if 128 ≤ v then fmtF32.infBits
    else if v < -160 then 0
    else if n % d = 0 then
      let (p, q) := scale2 1 1 v
      flushF acc (roundFrac fmtF32 .rz false false p q)
    else
      let fr := if neg then d - n % d else n % d
      let y := fr * ln2Ref / d
      let t := expSeries y 60 0 (2 ^ refBits) 0
      let (p, q) := scale2 t (2 ^ refBits) v
      flushF acc (pickNear .exp2 acc false x p q)

/-- VLOG2 (08 R134). -/
def log2F (acc : Bool) (x : BitVec 32) : Nat :=
  match flushIn acc x.toNat with
  | .nan => fmtF32.nan
  | .inf neg => if neg then fmtF32.nan else fmtF32.infBits
  | .fin neg m e =>
    if m = 0 then fmtF32.sign true + fmtF32.infBits
    else if neg then fmtF32.nan
    else
      let k := Nat.log2 m
      let n : Int := e + k
      if m = 2 ^ k then toF32 .rne (FVal.ofInt n)
      else
        let digits := log2Digits 120 (m * 2 ^ refBits / 2 ^ k) 0
        let total : Int := n * 2 ^ 120 + digits
        if 0 ≤ total then flushF acc (pickNear .log2 acc false x total.toNat (2 ^ 120))
        else flushF acc (pickNear .log2 acc true x (total.natAbs - 1) (2 ^ 120))

/-- VRCP (08 R134): correctly rounded in the accurate grade. -/
def rcpF (acc : Bool) (rm : Rm) (x : BitVec 32) : Nat :=
  match flushIn acc x.toNat with
  | .nan => fmtF32.nan
  | .inf neg => fmtF32.sign neg
  | .fin neg m e =>
    if m = 0 then fmtF32.sign neg + fmtF32.infBits
    else
      let (p, q) := scale2 1 m (-e)
      if acc then roundFrac fmtF32 rm false neg p q
      else if m = 2 ^ Nat.log2 m then flushF acc (roundFrac fmtF32 .rz false neg p q)
      else flushF acc (pickNear .rcp acc neg x p q)

/-- VRSQ (08 R134): correctly rounded in the accurate grade. The root is taken to 200 bits, with a sticky bit below. -/
def rsqF (acc : Bool) (rm : Rm) (x : BitVec 32) : Nat :=
  match flushIn acc x.toNat with
  | .nan => fmtF32.nan
  | .inf neg => if neg then fmtF32.nan else 0
  | .fin neg m e =>
    if m = 0 then fmtF32.sign neg + fmtF32.infBits
    else if neg then fmtF32.nan
    else
      let (m, e) := if e % 2 = 0 then (m, e) else (2 * m, e - 1)
      let big := 2 ^ 400 / m
      let r := isqrt big 201 0
      let exact := r * r * m == 2 ^ 400
      let num := 2 * r + (if exact then 0 else 1)
      let (p, q) := scale2 num (2 ^ 201) (-(e / 2))
      if acc then roundFrac fmtF32 rm false false p q
      else flushF acc (pickNear .rsq acc false x p q)

/-- VPWP (08 R135): one lane over the 1280-byte table. -/
def pwpF (rm : Rm) (table : BitVec 10240) (x : BitVec 32) : Nat :=
  let word (byte : Nat) : Nat := table.toNat / 2 ^ (8 * byte) % 2 ^ 32
  let v := f32 x.toNat
  if v.isNan then fmtF32.nan
  else
    let k := (List.range 64).foldl (fun best k => if !(f32 (word (4 * k))).isNan && !(v.lt (f32 (word (4 * k)))) then k else best) 0
    let t := toF32 rm (FVal.add v (f32 (word (4 * k))).neg)
    let c (j : Nat) : Nat := word (256 + 16 * k + 4 * j)
    fma32 rm (fma32 rm (fma32 rm (c 3) t (c 2)) t (c 1)) t (c 0)

/-! Matrix operands (08 R127, R128). -/

/-- q of an MXFP4 element (08 R127). -/
def mxfp4 (b : Nat) : Int :=
  let q : Int := match b % 8 with
    | 0 => 0 | 1 => 1 | 2 => 2 | 3 => 3 | 4 => 4 | 5 => 6 | 6 => 8 | _ => 12
  if b / 8 % 2 = 1 then -q else q

/-- The operand feeder (08 R128): the scale byte and the integers of a block of 32 elements. -/
def feed (f : Fmt) (xs : List Nat) : Nat × List Int :=
  let vs := xs.map (decodeF f)
  let bad := vs.any (fun v => match v with | .fin _ _ _ => false | _ => true)
  let exps := vs.filterMap (fun v => match v with | .fin _ m e => if m = 0 then none else some (e + Nat.log2 m) | _ => none)
  if bad then (255, xs.map (fun _ => 0))
  else match exps with
    | [] => (0, xs.map (fun _ => 0))
    | e0 :: rest =>
      let s := max (rest.foldl max e0 + 127) 0
      let ex := s - 127
      (s.toNat, vs.map (fun v => match v with
        | .fin neg m e => clampInt (roundInt .rne neg m (e + 6 - ex)) (-128) 127
        | _ => 0))

end Sys2Proof.Machine
end

