-- ==== Sys2Proof/Syntax.lean ====
section
/-! DEFINITION. Syntax: the instructions of the machine, one constructor for each row of spec/opcode_table.json. Register numbers are naturals bounded by WellFormed; immediates are the bits of their field. `q` is a stage predicate, `m` a governing lane mask. Rows with no encoding (operations of the hardware and of the host) carry what selects the operation. -/

namespace Sys2Proof

/-- One constructor per row of the table, in the table's order. -/
inductive Instr where
  /- SC words: the ALU group (12 R177) -/
  | add (d a b : Nat)
  | sub (d a b : Nat)
  | mul (d a b : Nat)
  | mulh (d a b : Nat)
  | mulhu (d a b : Nat)
  | div (d a b : Nat)
  | divu (d a b : Nat)
  | rem (d a b : Nat)
  | remu (d a b : Nat)
  | and (d a b : Nat)
  | or (d a b : Nat)
  | xor (d a b : Nat)
  | shl (d a b : Nat)
  | shr (d a b : Nat)
  | sra (d a b : Nat)
  | min (d a b : Nat)
  | max (d a b : Nat)
  | minu (d a b : Nat)
  | maxu (d a b : Nat)
  | slt (d a b : Nat)
  | sltu (d a b : Nat)
  | clz (d a : Nat)
  | popc (d a : Nat)
  /- immediate forms (12 R178) and jumps (12 R179, R180) -/
  | addi (d a : Nat) (i : BitVec 14)
  | andi (d a : Nat) (i : BitVec 14)
  | ori (d a : Nat) (i : BitVec 14)
  | xori (d a : Nat) (i : BitVec 14)
  | shli (d a s : Nat)
  | shri (d a s : Nat)
  | srai (d a s : Nat)
  | slti (d a : Nat) (i : BitVec 14)
  | lui (d : Nat) (i : BitVec 20)
  | adpc (d : Nat) (i : BitVec 20)
  | jal (d : Nat) (i : BitVec 20)
  | jalr (d a : Nat) (i : BitVec 14)
  | beq (a b : Nat) (i : BitVec 14)
  | bne (a b : Nat) (i : BitVec 14)
  | blt (a b : Nat) (i : BitVec 14)
  | bge (a b : Nat) (i : BitVec 14)
  | bltu (a b : Nat) (i : BitVec 14)
  | bgeu (a b : Nat) (i : BitVec 14)
  /- loads and stores (12 R181): data register, base, class, displacement -/
  | ldb (d a c : Nat) (i : BitVec 10)
  | ldbu (d a c : Nat) (i : BitVec 10)
  | ldh (d a c : Nat) (i : BitVec 10)
  | ldhu (d a c : Nat) (i : BitVec 10)
  | ldw (d a c : Nat) (i : BitVec 10)
  | ldwu (d a c : Nat) (i : BitVec 10)
  | ldd (d a c : Nat) (i : BitVec 10)
  | stb (d a c : Nat) (i : BitVec 10)
  | sth (d a c : Nat) (i : BitVec 10)
  | stw (d a c : Nat) (i : BitVec 10)
  | std (d a c : Nat) (i : BitVec 10)
  /- atomics (12 R183): nr is the no-return form, w the 64-bit width -/
  | aadd (d a b c : Nat) (nr w : Bool)
  | aand (d a b c : Nat) (nr w : Bool)
  | aor (d a b c : Nat) (nr w : Bool)
  | axor (d a b c : Nat) (nr w : Bool)
  | aswp (d a b c : Nat) (nr w : Bool)
  | amax (d a b c : Nat) (nr w : Bool)
  | amin (d a b c : Nat) (nr w : Bool)
  | amaxu (d a b c : Nat) (nr w : Bool)
  | aminu (d a b c : Nat) (nr w : Bool)
  | acas (d a b c : Nat) (nr w : Bool)
  | famax (d a b c : Nat) (nr : Bool)
  | famin (d a b c : Nat) (nr : Bool)
  | faadd (d a b c : Nat) (nr : Bool)
  /- fences, CSRs, patch unit, deques (12 R185-R187, R205, R192, R196) -/
  | fence (d : Nat) (scope : Scope) (mask : BitVec 16)
  | pfence (d : Nat) (scope : Scope)
  | csrr (d n : Nat)
  | csrw (a n : Nat)
  | pwr (d a b : Nat) (p : PatchReg)
  | dqpush (d a b c : Nat)
  | dqtake (d a c : Nat)
  | dqsteal (d a c : Nat)
  /- the system group (12 R188-R204) -/
  | fmtq (a : Nat)
  | lntw (a n : Nat)
  | lngo (n : Nat)
  | lngoTakeEffect (core : Nat)
  | waite (d a : Nat) (e : Eng)
  | engst (d : Nat) (e : Eng)
  | prd (d a : Nat) (p : PatchReg)
  | pclose (d a : Nat)
  | prel (d a : Nat)
  | launch (d a : Nat)
  | trig
  | triggerMark (core : Nat)
  | waitp
  | exit
  | yield
  | bara (a bar : Nat)
  | barrierArrival (core i : Nat)
  | barw (d bar : Nat)
  | route (d a : Nat)
  | layerb (d : Nat)
  | utfcut (d a : Nat)
  | trap (code : Nat)
  | rte
  | hret
  | wfe
  | loadReply (r : ReplyPick)
  /- CP slot C (13 R221, R228-R234) -/
  | nop
  | cpLoop (q lv e count : Nat) (rot : Bool)
  | cpLoopK (q lv e k : Nat) (rot : Bool)
  | rep (q count : Nat) (st : Strides)
  | repK (q k : Nat) (st : Strides)
  | br (q : Nat) (off : BitVec 16)
  | brc (q : Nat) (cond : BrCond) (a b : Nat) (off : BitVec 16)
  | rot (q : Nat)
  | qset (q d : Nat)
  | qclr (q d : Nat)
  | qmovQ (q d a : Nat)
  | qmovK (q d k : Nat)
  | endk (q : Nat)
  | kadd (q d a b : Nat)
  | kaddi (q d a : Nat) (i : BitVec 16)
  | kmov (q d a : Nat)
  | kmovLc (q d l : Nat)
  | kmovRrb (q d : Nat)
  /- vector arithmetic (13 R211) -/
  | vadd (q m : Nat) (ty : ElemType) (rm : Rm) (d a b : Nat)
  | vsub (q m : Nat) (ty : ElemType) (rm : Rm) (d a b : Nat)
  | vmul (q m : Nat) (ty : ElemType) (rm : Rm) (d a b : Nat)
  | vfma (q m : Nat) (ty : ElemType) (rm : Rm) (d a b c : Nat)
  | vfms (q m : Nat) (ty : ElemType) (rm : Rm) (d a b c : Nat)
  | vmin (q m : Nat) (ty : ElemType) (d a b : Nat)
  | vmax (q m : Nat) (ty : ElemType) (d a b : Nat)
  | vabs (q m : Nat) (ty : ElemType) (d a : Nat)
  | vneg (q m : Nat) (ty : ElemType) (d a : Nat)
  | vand (q m : Nat) (ty : ElemType) (d a b : Nat)
  | vor (q m : Nat) (ty : ElemType) (d a b : Nat)
  | vxor (q m : Nat) (ty : ElemType) (d a b : Nat)
  | vnot (q m : Nat) (ty : ElemType) (d a : Nat)
  | vshl (q m : Nat) (ty : ElemType) (d a : Nat) (n : ShiftBy)
  | vshr (q m : Nat) (ty : ElemType) (d a : Nat) (n : ShiftBy)
  | vsra (q m : Nat) (ty : ElemType) (d a : Nat) (n : ShiftBy)
  | vadds (q m : Nat) (ty : ElemType) (d a b : Nat)
  /- comparison, movement, conversion, permutation, reduction (13 R212-R220) -/
  | vcmpMask (q m : Nat) (ty : ElemType) (cond : Cmp) (d a b : Nat)
  | vcmpVec (q m : Nat) (ty : ElemType) (cond : Cmp) (d a b : Nat)
  | vsel (q m : Nat) (ty : ElemType) (d a b mc : Nat)
  | vmov (q m : Nat) (ty : ElemType) (d a : Nat)
  | vmovMaskMask (q d a : Nat)
  | vmovMaskVec (q d a : Nat)
  | vmovVecMask (q d a : Nat)
  | vbcastK (q m : Nat) (ty : ElemType) (d k : Nat)
  | vbcastImm (q m : Nat) (ty : ElemType) (rm : Rm) (d : Nat) (i : BitVec 16)
  | vcvt (q m : Nat) (dty sty : ElemType) (sat : Bool) (rm : Rm) (d a : Nat)
  | vshuf (q m : Nat) (ty : ElemType) (d a b : Nat)
  | vslide (q m : Nat) (ty : ElemType) (d a b k : Nat)
  | vreds (q m : Nat) (ty : ElemType) (op : RedOp) (rm : Rm) (d a : Nat)
  | vmaxi (q m : Nat) (ty : ElemType) (d a : Nat)
  | vmini (q m : Nat) (ty : ElemType) (d a : Nat)
  | vpopc (q m : Nat) (ty : ElemType) (d a : Nat)
  | vpopcMask (q m : Nat) (ty : ElemType) (d : Nat)
  | vrng (q m d ka kb base : Nat)
  | kfromv (q : Nat) (ty : ElemType) (d a idx : Nat)
  /- special functions and memory (13 R222-R226) -/
  | vexp2 (q m : Nat) (acc : Bool) (rm : Rm) (d a : Nat)
  | vlog2 (q m : Nat) (acc : Bool) (rm : Rm) (d a : Nat)
  | vrcp (q m : Nat) (acc : Bool) (rm : Rm) (d a : Nat)
  | vrsq (q m : Nat) (acc : Bool) (rm : Rm) (d a : Nat)
  | vpwp (q m : Nat) (rm : Rm) (d a : Nat)
  | pwld (q k : Nat) (disp : BitVec 9)
  | pwst (q k : Nat) (disp : BitVec 9)
  | vld (q m : Nat) (ty : ElemType) (d k : Nat) (disp : BitVec 9)
  | vst (q m : Nat) (ty : ElemType) (b k : Nat) (disp : BitVec 9)
  | kld (q d k : Nat) (disp : BitVec 9)
  | vldr (q d rg k chunk : Nat) (pop : Bool)
  | vgath (q m : Nat) (ty : ElemType) (d k b : Nat)
  | vscat (q m : Nat) (ty : ElemType) (k b c : Nat)
  /- slot M: matrix and accumulator (14 R242-R249) -/
  | mma (q d ra rb : Nat)
  | aclrPeek (q d : Nat)
  | aclrImm (q d : Nat) (i : BitVec 16)
  | anorm (q d : Nat)
  | ard (q m : Nat) (ty : ElemType) (rm : Rm) (d a row : Nat)
  | awr (q m : Nat) (sel : AccSel) (d a row : Nat)
  | astat (q m : Nat) (sel : AccSel) (d a row : Nat)
  | astatDepth (q d a : Nat)
  | matrixQueueDequeue (core : Nat)
  | matrixEntryRetire (core : Nat) (err : ResidueErrors)
  /- slot M: hypervectors (14 R251-R255), patch unit, grammar -/
  | hld (q d k : Nat) (disp : BitVec 9)
  | hst (q b k : Nat) (disp : BitVec 9)
  | hbind (q d a b : Nat)
  | hpermImm (q d a n : Nat)
  | hpermK (q d a k : Nat)
  | hbun (q d a : Nat)
  | hclrb (q d : Nat)
  | hthr (q d a : Nat)
  | hdist (q d a b : Nat)
  | hnear (q d a : Nat)
  | hhash (q d a n : Nat)
  | hseed (q d k : Nat)
  | hpop (q d a : Nat)
  | hmov (q d a : Nat)
  | hmovToHt (q a : Nat)
  | hmovFromHt (q d : Nat)
  | hcfg (q a b : Nat)
  | pfeed (q m d a : Nat)
  | mldg (q d k : Nat) (disp : BitVec 9)
  /- engine words (15 R260-R279) -/
  | lit (v : BitVec 15)
  | ext (v : BitVec 14)
  | dup
  | drop
  | swap
  | over
  | engAdd
  | engSub
  | engShl
  | engAnd
  | eget (n : Nat)
  | eset (n : Nat)
  | jmp
  | bz
  | engLoop (l : Nat)
  | lend (l : Nat)
  | engEnd
  | tile (t : Tok) (pad : Bool)
  | drain (t : Tok) (keep pad : Bool)
  | accst (t : Tok) (pad : Bool)
  | gath (t : Tok) (pad : Bool)
  | scat (t : Tok) (fadd atom keep pad : Bool)
  | copy (t : Tok)
  | fill (t : Tok)
  | mcast (t : Tok)
  | kvcp (t : Tok) (dec inc cpy : Bool)
  | send (t : Tok) (pad : Bool)
  | pref (t : Tok)
  | evict (t : Tok)
  | waitn (t : Tok) (e : Eng)
  | engineCommandDequeue (core : Nat) (e : Eng)
  | engineCommandStart (core : Nat) (e : Eng)
  | engineCommandFinish (core : Nat) (e : Eng) (cmd : Nat)
  | tokenPush (core : Nat) (e : Eng)
  | ringTailAdvance (core ring : Nat)
  | ringHeadAdvance (core ring : Nat)
  | residencyFillDone (core slot : Nat)
  /- memory and translation (06, 16 R284) -/
  | accessPerform (p : AccessPick)
  | class15Release (i : Nat)
  | slotWheelAdvance
  | pageWalkDone (die i : Nat) (victim : Option Nat)
  | xinvWrite (core ctx : Nat)
  | invalidationDone (i : Nat)
  /- the two-rate machine (03) -/
  | landingPost (core ctx : Nat)
  | boundaryTrapDispatch (core : Nat)
  | stepFormerEnable (core ctx : Nat)
  | stepFormerDisable (core ctx : Nat)
  | stepmaxWrite (core ctx : Nat)
  | stepForm (die : Nat)
  /- scheduling (05, 04) -/
  | wqtailWrite (q : Nat) (v : BitVec 32)
  | wqEnable (q : Nat) (v : BitVec 64)
  | wqDisable (q : Nat) (v : BitVec 64)
  | wqHaltClear (q : Nat)
  | queueRecordRead (q : Nat)
  | nodeEvaluate (q : Nat)
  | recordPlace (src : Source) (cohort : List Placement)
  | overlayLoad (core : Nat)
  | pointStart (core : Nat)
  | pointComplete (core : Nat)
  | preempt (id : Nat)
  | launchResume (id : Nat) (wheel : List (Nat × Nat))
  | deadlockRelief (core : Nat)
  | queueDeadlock (core : Nat)
  | freezeTimeout (core : Nat)
  | barrierIdle (core ctx : Nat)
  | fqUnderflow (core : Nat)
  /- active messages and experts (25 R343-R344, 10) -/
  | sendArrival (n : Nat)
  | dataArrivalDispatch (core : Nat)
  | retryLaterReceive (i : Nat)
  | replayBackoffExpiry (core : Nat)
  | replicationServe
  | replicationCopyDone
  | replicaUpdateApply (die : Nat)
  | rtloadWrite (core ctx : Nat)
  | routePassStart (die : Nat)
  | routePassFinish (die : Nat)
  | ldrstWrite (core ctx : Nat)
  /- hooks (09 R144) and register writes with an effect of their own -/
  | hkstartWrite (core ctx : Nat)
  | hookStart (core : Nat)
  | hookBudgetExpiry (core : Nat)
  | ringConfigWrite (core ctx : Nat)
  | barWrite (core ctx : Nat)
  /- cellar, gates, rails, power (07, 26, 01 R13) -/
  | trickleWrite (core : Nat)
  | coreGate (core ctx : Nat)
  | coreWake (core : Nat) (cause : WakeCause)
  | wakeComplete (core : Nat)
  | railSwitchStart (core ctx : Nat)
  | railSwitchDone (cluster : Nat)
  | powerLoss (die : Nat)
  | holdupExhausted (core block : Nat)
  | powerReturn (die : Nat)
  | wakeWrite (core : Nat)
  | cellarDrop (core : Nat)
  /- trust, power hub, monitor (17) -/
  | powerOnBoot (b : BootImage)
  | attest
  | keyload
  | keyclr
  | trustCommandDone
  | powerHubTick
  | monitorSample (core : Nat)
  /- errors and links (25) -/
  | sramCorrectable (core : Nat)
  | sramFreezeEnd (core : Nat)
  | sramUncorrectable (core : Nat) (p : SramPlace)
  | patrolScrub (pa : Nat) (o : EccOutcome)
  | flitCrcMismatch (l : Link)
  | linkRetrain (l : Link)
  | linkRetrainDone (l : Link) (ok : Bool)
  | linkDead (l : Link)
  | portRetrainWrite (p : Nat)
  | portDisableWrite (p : Nat) (dis : Bool)
  | errcntClear (die : Nat)
  /- host control (24 R333-R337, R326; 17 R292-R293) -/
  | dbgHalt (core : Nat) (qhold : Bool)
  | dbgStep (core party : Nat)
  | dbgResume (core : Nat)
  | dbgKill (core : Nat)
  | fltackWrite (v : BitVec 64)
  | vectorControlWrite (n : Nat) (ctl : BitVec 32)
  | hostApertureAccess (a : HostAccess)
  | registerWrite (w : RegWrite)
deriving DecidableEq, Repr

end Sys2Proof
end

