-- ==== Sys2Proof/WellFormed.lean ====
section
/-! DEFINITION. WellFormed: which instruction terms an encoding (or, for the rows with no encoding, an operation of the hardware) can carry: every operand within its field and every limit that 11 R160-R172, 13 R206-R207, 14 R235 and 27 R362-R367 put on an encoding. -/

namespace Sys2Proof

/-- Scalar register number (11 R161). -/
def okX (n : Nat) : Bool := n < 64
/-- Predicate, mask, k register, vector, tile, hypervector, bank, ring (13 R207, 14 R235). -/
def okQ (n : Nat) : Bool := n < 16
def okM (n : Nat) : Bool := n < 8
def okK (n : Nat) : Bool := n < 32
def okV (n : Nat) : Bool := n < 256
def okA (n : Nat) : Bool := n < 64
def okH (n : Nat) : Bool := n < 16
def okB (n : Nat) : Bool := n < 4
/-- A predicate or mask that is written: never q0 or m0 (13 R207). -/
def okQd (n : Nat) : Bool := 1 ≤ n && n < 16
def okMd (n : Nat) : Bool := 1 ≤ n && n < 8
/-- Core, die, cluster and context numbers (01 R8-R10, R18). -/
def okCore (n : Nat) : Bool := n < 512
def okDie (n : Nat) : Bool := n < 8
def okCtx (n : Nat) : Bool := n < 4

/-- I, L or H of 13 R209. -/
def ElemType.ilh (t : ElemType) : Bool := t.isInt || t.groupH
/-- The base of a group of f registers is a multiple of f (13 R207). -/
def okGroup (f d : Nat) : Bool := okV d && d % f == 0

/-- Registers of the source and of the destination group of a VCVT (13 R214). -/
def cvtSrcRegs (dty sty : ElemType) : Nat := if dty.width < sty.width then sty.width / dty.width else 1
def cvtDstRegs (dty sty : ElemType) : Nat := if sty.width < dty.width then dty.width / sty.width else 1

/-- The ratio, SAT and group rules of VCVT (13 R214). -/
def okCvt (dty sty : ElemType) (sat : Bool) (d a : Nat) : Bool :=
  cvtSrcRegs dty sty ≤ 4 && cvtDstRegs dty sty ≤ 4 && (!sat || (dty.isInt && sty.isInt))
    && okGroup (cvtDstRegs dty sty) d && okGroup (cvtSrcRegs dty sty) a

/-- The index registers of VSHUF (13 R215). -/
def shufRegs (t : ElemType) : Nat := max 1 (t.count / 256)
/-- The index registers of VGATH and VSCAT (13 R226). -/
def gathRegs (t : ElemType) : Nat := if t.width = 16 then 2 else 1
/-- ty 4 to 12 (13 R226). -/
def ElemType.gathers (t : ElemType) : Bool := 4 ≤ t.code && t.code ≤ 12

/-- ARD's row: a multiple of N/64 that stays within the tile; any row for a 64-bit type (14 R247). -/
def okArdRow (t : ElemType) (row : Nat) : Bool := row < 64 && row % (t.count / 64) == 0 && row + t.count / 64 ≤ 64

/-- The CSR numbers that 11 R167 lists. -/
def okCsr (n : Nat) : Bool :=
  n ≤ 0x003 || (0x008 ≤ n && n ≤ 0x00A) || (0x00C ≤ n && n ≤ 0x00E) || (0x010 ≤ n && n ≤ 0x012)
    || n == 0x018 || n == 0x019 || n == 0x020 || n == 0x021 || (0x028 ≤ n && n ≤ 0x02A)
    || (0x030 ≤ n && n ≤ 0x033) || n == 0x038 || n == 0x039 || n == 0x03A || (0x03C ≤ n && n ≤ 0x03E)
    || (0x040 ≤ n && n ≤ 0x05F) || (0x060 ≤ n && n ≤ 0x067) || (0x070 ≤ n && n ≤ 0x07F)
    || n == 0x100 || (0x200 ≤ n && n ≤ 0x205) || (0x210 ≤ n && n ≤ 0x212) || (0x218 ≤ n && n ≤ 0x21E)

/-- A shift count from a vector or from x[7:1] (13 R211). -/
def okShift : ShiftBy → Bool
  | .vec b => okV b
  | .imm n => n < 128

/-- A placement names a core, registers, an area, a frame and a wheel offset within their ranges (05 R88, R89). -/
def okPlacement (p : Placement) : Bool :=
  okCore p.core && p.regs.all (fun b => decide (b < 64)) && p.area < 4194304 && p.frame < 8 && p.wheelP < 4096

/-- A link of the module (25 R345). -/
def okLink : Link → Bool
  | .die d => okDie d
  | .port p => p < 18

/-- A record source (05 R82). -/
def okSource : Source → Bool
  | .queue q => q < 4096
  | .pool d => okDie d

/-- The well-formed instructions. -/
def Instr.wf : Instr → Bool
  | .add d a b | .sub d a b | .mul d a b | .mulh d a b | .mulhu d a b | .div d a b | .divu d a b
  | .rem d a b | .remu d a b | .and d a b | .or d a b | .xor d a b | .shl d a b | .shr d a b
  | .sra d a b | .min d a b | .max d a b | .minu d a b | .maxu d a b | .slt d a b
  | .sltu d a b => okX d && okX a && okX b
  | .clz d a | .popc d a => okX d && okX a
  | .addi d a _ | .andi d a _ | .ori d a _ | .xori d a _ | .slti d a _ | .jalr d a _ => okX d && okX a
  | .shli d a n | .shri d a n | .srai d a n => okX d && okX a && n < 64
  | .lui d _ | .adpc d _ | .jal d _ => okX d
  | .beq a b _ | .bne a b _ | .blt a b _ | .bge a b _ | .bltu a b _ | .bgeu a b _ => okX a && okX b
  | .ldb d a c _ | .ldbu d a c _ | .ldh d a c _ | .ldhu d a c _ | .ldw d a c _ | .ldwu d a c _
  | .ldd d a c _ | .stb d a c _ | .sth d a c _ | .stw d a c _
  | .std d a c _ => okX d && okX a && c < 16
  | .aadd d a b c nr _ | .aand d a b c nr _ | .aor d a b c nr _ | .axor d a b c nr _
  | .aswp d a b c nr _ | .amax d a b c nr _ | .amin d a b c nr _ | .amaxu d a b c nr _
  | .aminu d a b c nr _ | .acas d a b c nr _
  | .famax d a b c nr | .famin d a b c nr | .faadd d a b c nr =>
      okX d && okX a && okX b && c < 16 && (!nr || d == 0)
  | .fence d _ _ | .pfence d _ => okX d
  | .csrr d n => okX d && okCsr n
  | .csrw a n => okX a && okCsr n
  | .pwr d a b _ => okX d && okX a && okX b
  | .dqpush d a b c => okX d && okX a && okX b && c < 16
  | .dqtake d a c | .dqsteal d a c => okX d && okX a && c < 16
  | .fmtq a => okX a
  | .lntw a n => okX a && n < 16
  | .lngo n => n < 16
  | .waite d a _ => okX d && okX a
  | .engst d _ => okX d
  | .prd d a _ => okX d && okX a
  | .pclose d a | .prel d a | .launch d a | .route d a | .utfcut d a => okX d && okX a
  | .layerb d => okX d
  | .bara a bar => okX a && bar < 8
  | .barw d bar => okX d && bar < 8
  | .trap code => code < 256
  | .trig | .waitp | .exit | .yield | .rte | .hret | .wfe | .nop => true
  | .lngoTakeEffect c | .triggerMark c => okCore c
  | .barrierArrival c _ => okCore c
  | .loadReply (.access _) => true
  | .loadReply (.op c k) => okCore c && okCtx k
  | .cpLoop q lv e n _ => okQ q && lv < 4 && 1 ≤ e && e < 256 && n < 65536
  | .cpLoopK q lv e k _ => okQ q && lv < 4 && 1 ≤ e && e < 256 && okK k
  | .rep q n _ => okQ q && n < 65536
  | .repK q k _ => okQ q && okK k
  | .br q _ | .rot q | .endk q => okQ q
  | .brc q _ a b _ => okQ q && okK a && okK b
  | .qset q d | .qclr q d => okQ q && okQd d
  | .qmovQ q d a => okQ q && okQd d && okQ a
  | .qmovK q d k => okQ q && okQd d && okK k
  | .kadd q d a b => okQ q && okK d && okK a && okK b
  | .kaddi q d a _ | .kmov q d a => okQ q && okK d && okK a
  | .kmovLc q d l => okQ q && okK d && l < 4
  | .kmovRrb q d => okQ q && okK d
  | .vadd q m ty _ d a b | .vsub q m ty _ d a b | .vmul q m ty _ d a b =>
      okQ q && okM m && ty.ilh && okV d && okV a && okV b
  | .vfma q m ty _ d a b c | .vfms q m ty _ d a b c =>
      okQ q && okM m && ty.ilh && okV d && okV a && okV b && okV c
  | .vmin q m ty d a b | .vmax q m ty d a b => okQ q && okM m && ty.ilh && okV d && okV a && okV b
  | .vabs q m ty d a | .vneg q m ty d a => okQ q && okM m && ty.ilh && okV d && okV a
  | .vand q m _ d a b | .vor q m _ d a b | .vxor q m _ d a b => okQ q && okM m && okV d && okV a && okV b
  | .vnot q m _ d a => okQ q && okM m && okV d && okV a
  | .vshl q m ty d a n | .vshr q m ty d a n | .vsra q m ty d a n =>
      okQ q && okM m && ty.isInt && okV d && okV a && okShift n
  | .vadds q m ty d a b => okQ q && okM m && ty.isInt && okV d && okV a && okV b
  | .vcmpMask q m ty _ d a b => okQ q && okM m && ty.ilh && okMd d && okV a && okV b
  | .vcmpVec q m ty _ d a b => okQ q && okM m && ty.ilh && okV d && okV a && okV b
  | .vsel q m _ d a b mc => okQ q && okM m && okV d && okV a && okV b && okM mc
  | .vmov q m _ d a => okQ q && okM m && okV d && okV a
  | .vmovMaskMask q d a => okQ q && okMd d && okM a
  | .vmovMaskVec q d a => okQ q && okMd d && okV a
  | .vmovVecMask q d a => okQ q && okV d && okM a
  | .vbcastK q m _ d k => okQ q && okM m && okV d && okK k
  | .vbcastImm q m _ _ d _ => okQ q && okM m && okV d
  | .vcvt q m dty sty sat _ d a => okQ q && okM m && okCvt dty sty sat d a
  | .vshuf q m ty d a b => okQ q && okM m && okV d && okV a && okGroup (shufRegs ty) b
  | .vslide q m _ d a b k => okQ q && okM m && okV d && okV a && okV b && okK k
  | .vreds q m ty op rm d a => okQ q && okM m && ty.ilh && (op == .sum || rm == .rne) && okV d && okV a
  | .vmaxi q m ty d a | .vmini q m ty d a => okQ q && okM m && ty.ilh && okV d && okV a
  | .vpopc q m ty d a => okQ q && okM m && ty.isInt && okV d && okV a
  | .vpopcMask q m ty d => okQ q && okM m && ty.isInt && okV d
  | .vrng q m d ka kb base => okQ q && okM m && okV d && okK ka && okK kb && base < 512
  | .kfromv q ty d a idx => okQ q && okK d && okV a && idx < 512 && idx < ty.count
  | .vexp2 q m _ _ d a | .vlog2 q m _ _ d a | .vrcp q m _ _ d a | .vrsq q m _ _ d a
  | .vpwp q m _ d a => okQ q && okM m && okV d && okV a
  | .pwld q k _ | .pwst q k _ => okQ q && okK k
  | .vld q m _ d k _ => okQ q && okM m && okV d && okK k
  | .vst q m _ b k _ => okQ q && okM m && okV b && okK k
  | .kld q d k _ => okQ q && okK d && okK k
  | .vldr q d rg k ch _ => okQ q && okV d && rg < 16 && okK k && ch < 256
  | .vgath q m ty d k b => okQ q && okM m && ty.gathers && okV d && okK k && okGroup (gathRegs ty) b
  | .vscat q m ty k b c => okQ q && okM m && ty.gathers && okK k && okGroup (gathRegs ty) b && okV c
  | .mma q d ra rb => okQ q && okA d && ra < 16 && rb < 16 && ra != rb
  | .aclrPeek q d | .anorm q d => okQ q && okA d
  | .aclrImm q d _ => okQ q && okA d
  | .ard q m ty _ d a row => okQ q && okM m && okV d && okA a && okArdRow ty row
  | .awr q m _ d a row => okQ q && okM m && okA d && okV a && row < 64
  | .astat q m _ d a row => okQ q && okM m && okV d && okA a && row < 64
  | .astatDepth q d a => okQ q && okV d && okA a
  | .matrixQueueDequeue c => okCore c
  | .matrixEntryRetire c _ => okCore c
  | .hld q d k _ => okQ q && okH d && okK k
  | .hst q b k _ => okQ q && okH b && okK k
  | .hbind q d a b => okQ q && okH d && okH a && okH b
  | .hpermImm q d a n => okQ q && okH d && okH a && n < 8192
  | .hpermK q d a k => okQ q && okH d && okH a && okK k
  | .hbun q d a => okQ q && okB d && okH a
  | .hclrb q d => okQ q && okB d
  | .hthr q d a => okQ q && okH d && okB a
  | .hdist q d a b => okQ q && okK d && okH a && okH b
  | .hnear q d a | .hpop q d a => okQ q && okK d && okH a
  | .hhash q d a n => okQ q && okK d && okH a && 1 ≤ n && n ≤ 24
  | .hseed q d k => okQ q && okH d && okK k
  | .hmov q d a => okQ q && okH d && okH a
  | .hmovToHt q a => okQ q && okH a
  | .hmovFromHt q d => okQ q && okH d
  | .hcfg q a b => okQ q && okK a && okK b
  | .pfeed q m d a => okQ q && okM m && okMd d && okV a
  | .mldg q d k _ => okQ q && okMd d && okK k
  | .lit _ | .ext _ | .dup | .drop | .swap | .over | .engAdd | .engSub | .engShl | .engAnd
  | .jmp | .bz | .engEnd => true
  | .eget n | .eset n => n < 8
  | .engLoop l | .lend l => l < 2
  | .tile _ _ | .drain _ _ _ | .accst _ _ | .gath _ _ | .scat _ _ _ _ _ | .copy _ | .fill _
  | .mcast _ | .send _ _ | .pref _ | .evict _ | .waitn _ _ => true
  | .kvcp _ dec inc cpy => dec || inc || cpy
  | .engineCommandDequeue c _ | .engineCommandStart c _ | .engineCommandFinish c _ _
  | .tokenPush c _ => okCore c
  | .ringTailAdvance c r | .ringHeadAdvance c r => okCore c && r < 16
  | .residencyFillDone c n => okCore c && n < 64
  | .accessPerform (.sc _) => true
  | .accessPerform (.eng c _ _ _) => okCore c
  | .accessPerform (.routing d) | .accessPerform (.replication d) | .accessPerform (.walk d _) => okDie d
  | .class15Release _ | .slotWheelAdvance | .invalidationDone _ => true
  | .pageWalkDone d _ _ => okDie d
  | .xinvWrite c k | .landingPost c k | .stepFormerEnable c k | .stepFormerDisable c k
  | .stepmaxWrite c k | .rtloadWrite c k | .ldrstWrite c k | .hkstartWrite c k
  | .ringConfigWrite c k | .barWrite c k | .coreGate c k | .railSwitchStart c k
  | .barrierIdle c k => okCore c && okCtx k
  | .boundaryTrapDispatch c | .overlayLoad c | .pointStart c | .pointComplete c
  | .deadlockRelief c | .queueDeadlock c | .freezeTimeout c | .fqUnderflow c
  | .dataArrivalDispatch c | .replayBackoffExpiry c | .hookStart c | .hookBudgetExpiry c
  | .trickleWrite c | .coreWake c _ | .wakeComplete c | .wakeWrite c | .cellarDrop c
  | .monitorSample c | .sramCorrectable c | .sramFreezeEnd c | .sramUncorrectable c _
  | .dbgHalt c _ | .dbgResume c | .dbgKill c => okCore c
  | .dbgStep c p => okCore c && p < 7
  | .holdupExhausted c b => okCore c && b ≤ 33728
  | .stepForm d | .replicaUpdateApply d | .routePassStart d | .routePassFinish d | .powerLoss d
  | .powerReturn d | .errcntClear d => okDie d
  | .wqtailWrite q _ | .wqEnable q _ | .wqDisable q _ | .wqHaltClear q | .queueRecordRead q
  | .nodeEvaluate q => q < 4096
  | .recordPlace src l => okSource src && l.all okPlacement
  | .preempt _ | .sendArrival _ | .retryLaterReceive _ | .replicationServe | .replicationCopyDone
  | .powerOnBoot _ | .attest | .keyload | .keyclr | .trustCommandDone | .powerHubTick
  | .fltackWrite _ | .hostApertureAccess _ => true
  | .launchResume _ l => l.all (fun p => okCore p.1 && p.2 < 4096)
  | .railSwitchDone c => c < 64
  | .patrolScrub pa _ => pa < 2199023255552
  | .flitCrcMismatch l | .linkRetrain l | .linkRetrainDone l _ | .linkDead l => okLink l
  | .portRetrainWrite p | .portDisableWrite p _ => p < 18
  | .vectorControlWrite n _ => n < 4160
  | .registerWrite (.csr c k) => okCore c && okCtx k
  | .registerWrite (.queue o _) | .registerWrite (.ctl o _) => o < 131072

end Sys2Proof
end

