-- ==== Sys2Proof/Decode.lean ====
section
/-! DEFINITION. Decode: the SC word, the engine word, the CP slot and the bundle, read by the formats and opcode maps of spec 11, total on every word, rejecting by name; and after it the encoders, written from the same maps. -/

namespace Sys2Proof

/-- Why a word is no instruction (11 R174, 27 R362). -/
inductive Reject where
  /-- a reserved SC major opcode -/
  | reservedMajor (op : Nat)
  /-- a reserved ALU fn8 -/
  | reservedFn8 (fn : Nat)
  /-- a reserved sub6 of the system group -/
  | reservedSub6 (sub : Nat)
  /-- a reserved deque operation -/
  | reservedDeque (fn : Nat)
  /-- an unassigned CSR number -/
  | unassignedCsr (n : Nat)
  /-- a CP op that the map does not assign, or that may not stand in this slot -/
  | reservedCpOp (op : Nat)
  /-- a reserved engine opcode -/
  | reservedEngineOp (op : Nat)
  /-- a field that must be 0 is not, or a field is outside its range -/
  | badField
  /-- a reserved or not accepted ty -/
  | badType
  /-- an opcode of the other engine -/
  | wrongEngine
deriving DecidableEq, Repr

/-- The instruction if every check holds, else the reason. -/
def accept (ok : Bool) (i : Instr) : Except Reject Instr := if ok then .ok i else .error .badField

/-- The fields of an SC word in the SR format (11 R160); the other formats join b and fn, or a, b and fn. -/
structure ScWord where
  op : Nat
  d : Nat
  a : Nat
  b : Nat
  fn : Nat
deriving DecidableEq, Repr

/-- The fields of a 32-bit word. -/
def ScWord.ofNat (w : Nat) : ScWord :=
  ⟨w / 67108864 % 64, w / 1048576 % 64, w / 16384 % 64, w / 256 % 64, w % 256⟩

/-- The word of its fields. -/
def ScWord.toNat (s : ScWord) : Nat :=
  s.op * 67108864 + s.d * 1048576 + s.a * 16384 + s.b * 256 + s.fn

/-- imm14 of SI and SB. -/
def ScWord.i14 (s : ScWord) : BitVec 14 := BitVec.ofNat 14 (s.b * 256 + s.fn)
/-- imm20 of SJ. -/
def ScWord.i20 (s : ScWord) : BitVec 20 := BitVec.ofNat 20 (s.a * 16384 + s.b * 256 + s.fn)
/-- imm10 of SM. -/
def ScWord.i10 (s : ScWord) : BitVec 10 := BitVec.ofNat 10 (s.b % 4 * 256 + s.fn)
/-- class4 of SM. -/
def ScWord.cls (s : ScWord) : Nat := s.b / 4

/-- The ALU group, major 0x00 (11 R163). -/
def decodeAlu (s : ScWord) : Except Reject Instr :=
  match s.fn with
  | 0x00 => .ok (.add s.d s.a s.b)
  | 0x01 => .ok (.sub s.d s.a s.b)
  | 0x02 => .ok (.mul s.d s.a s.b)
  | 0x03 => .ok (.mulh s.d s.a s.b)
  | 0x04 => .ok (.mulhu s.d s.a s.b)
  | 0x05 => .ok (.div s.d s.a s.b)
  | 0x06 => .ok (.divu s.d s.a s.b)
  | 0x07 => .ok (.rem s.d s.a s.b)
  | 0x08 => .ok (.remu s.d s.a s.b)
  | 0x10 => .ok (.and s.d s.a s.b)
  | 0x11 => .ok (.or s.d s.a s.b)
  | 0x12 => .ok (.xor s.d s.a s.b)
  | 0x18 => .ok (.shl s.d s.a s.b)
  | 0x19 => .ok (.shr s.d s.a s.b)
  | 0x1a => .ok (.sra s.d s.a s.b)
  | 0x20 => .ok (.min s.d s.a s.b)
  | 0x21 => .ok (.max s.d s.a s.b)
  | 0x22 => .ok (.minu s.d s.a s.b)
  | 0x23 => .ok (.maxu s.d s.a s.b)
  | 0x28 => .ok (.slt s.d s.a s.b)
  | 0x29 => .ok (.sltu s.d s.a s.b)
  | 0x30 => accept (s.b == 0) (.clz s.d s.a)
  | 0x31 => accept (s.b == 0) (.popc s.d s.a)
  | f => .error (.reservedFn8 f)

/-- An atomic's fn8: class, NR, W (11 R164). -/
def decodeAtomic (s : ScWord) (mk : Nat → Bool → Bool → Instr) : Except Reject Instr :=
  let nr := s.fn / 8 % 2 == 1
  accept (s.fn % 4 == 0 && (!nr || s.d == 0)) (mk (s.fn / 16) nr (s.fn / 4 % 2 == 1))

/-- An FP32 atomic, whose W must be 0 (11 R164). -/
def decodeFpAtomic (s : ScWord) (mk : Nat → Bool → Instr) : Except Reject Instr :=
  let nr := s.fn / 8 % 2 == 1
  accept (s.fn % 8 == 0 && (!nr || s.d == 0)) (mk (s.fn / 16) nr)

/-- An engine code in imm8[1:0]. -/
def decodeEngCode (n : Nat) (ok : Bool) (mk : Eng → Instr) : Except Reject Instr :=
  match Eng.ofCode n with
  | some e => accept ok (mk e)
  | none => .error .badField

/-- The system group, major 0x3C (11 R165): sub6 in [13:8], imm8 in [7:0]. -/
def decodeSystem (s : ScWord) : Except Reject Instr :=
  match s.b with
  | 0x00 => accept (s.d == 0 && s.fn == 0) (.fmtq s.a)
  | 0x01 => accept (s.d == 0 && s.fn < 16) (.lntw s.a s.fn)
  | 0x02 => accept (s.d == 0 && s.a == 0 && s.fn < 16) (.lngo s.fn)
  | 0x03 => decodeEngCode s.fn true (.waite s.d s.a)
  | 0x04 => decodeEngCode s.fn (s.a == 0) (.engst s.d)
  | 0x05 => accept (s.fn < 8) (.prd s.d s.a (PatchReg.ofCode s.fn))
  | 0x06 => accept (s.fn == 0) (.pclose s.d s.a)
  | 0x07 => accept (s.fn == 0) (.prel s.d s.a)
  | 0x08 => accept (s.fn == 0) (.launch s.d s.a)
  | 0x09 => accept (s.d == 0 && s.a == 0 && s.fn == 0) .trig
  | 0x0A => accept (s.d == 0 && s.a == 0 && s.fn == 0) .waitp
  | 0x0B => accept (s.d == 0 && s.a == 0 && s.fn == 0) .exit
  | 0x0C => accept (s.d == 0 && s.a == 0 && s.fn == 0) .yield
  | 0x0D => accept (s.d == 0 && s.fn < 8) (.bara s.a s.fn)
  | 0x0E => accept (s.a == 0 && s.fn < 8) (.barw s.d s.fn)
  | 0x0F => accept (s.fn == 0) (.route s.d s.a)
  | 0x10 => accept (s.a == 0 && s.fn == 0) (.layerb s.d)
  | 0x11 => accept (s.fn == 0) (.utfcut s.d s.a)
  | 0x12 => accept (s.d == 0 && s.a == 0) (.trap s.fn)
  | 0x13 => accept (s.d == 0 && s.a == 0 && s.fn == 0) .rte
  | 0x14 => accept (s.d == 0 && s.a == 0 && s.fn == 0) .hret
  | 0x15 => accept (s.d == 0 && s.a == 0 && s.fn == 0) .wfe
  | n => .error (.reservedSub6 n)

/-- An SC word by its fields (11 R162). -/
def decodeScWord (s : ScWord) : Except Reject Instr :=
  match s.op with
  | 0x00 => decodeAlu s
  | 0x01 => .ok (.addi s.d s.a s.i14)
  | 0x02 => .ok (.andi s.d s.a s.i14)
  | 0x03 => .ok (.ori s.d s.a s.i14)
  | 0x04 => .ok (.xori s.d s.a s.i14)
  | 0x05 => accept (s.b == 0 && s.fn < 64) (.shli s.d s.a s.fn)
  | 0x06 => accept (s.b == 0 && s.fn < 64) (.shri s.d s.a s.fn)
  | 0x07 => accept (s.b == 0 && s.fn < 64) (.srai s.d s.a s.fn)
  | 0x08 => .ok (.slti s.d s.a s.i14)
  | 0x09 => .ok (.lui s.d s.i20)
  | 0x0A => .ok (.adpc s.d s.i20)
  | 0x0B => .ok (.jal s.d s.i20)
  | 0x0C => .ok (.jalr s.d s.a s.i14)
  | 0x10 => .ok (.beq s.d s.a s.i14)
  | 0x11 => .ok (.bne s.d s.a s.i14)
  | 0x12 => .ok (.blt s.d s.a s.i14)
  | 0x13 => .ok (.bge s.d s.a s.i14)
  | 0x14 => .ok (.bltu s.d s.a s.i14)
  | 0x15 => .ok (.bgeu s.d s.a s.i14)
  | 0x18 => .ok (.ldb s.d s.a s.cls s.i10)
  | 0x19 => .ok (.ldbu s.d s.a s.cls s.i10)
  | 0x1a => .ok (.ldh s.d s.a s.cls s.i10)
  | 0x1b => .ok (.ldhu s.d s.a s.cls s.i10)
  | 0x1c => .ok (.ldw s.d s.a s.cls s.i10)
  | 0x1d => .ok (.ldwu s.d s.a s.cls s.i10)
  | 0x1e => .ok (.ldd s.d s.a s.cls s.i10)
  | 0x20 => .ok (.stb s.d s.a s.cls s.i10)
  | 0x21 => .ok (.sth s.d s.a s.cls s.i10)
  | 0x22 => .ok (.stw s.d s.a s.cls s.i10)
  | 0x23 => .ok (.std s.d s.a s.cls s.i10)
  | 0x28 => decodeAtomic s (.aadd s.d s.a s.b)
  | 0x29 => decodeAtomic s (.aand s.d s.a s.b)
  | 0x2a => decodeAtomic s (.aor s.d s.a s.b)
  | 0x2b => decodeAtomic s (.axor s.d s.a s.b)
  | 0x2c => decodeAtomic s (.aswp s.d s.a s.b)
  | 0x2d => decodeAtomic s (.amax s.d s.a s.b)
  | 0x2e => decodeAtomic s (.amin s.d s.a s.b)
  | 0x2f => decodeAtomic s (.amaxu s.d s.a s.b)
  | 0x30 => decodeAtomic s (.aminu s.d s.a s.b)
  | 0x31 => decodeAtomic s (.acas s.d s.a s.b)
  | 0x32 => decodeFpAtomic s (.famax s.d s.a s.b)
  | 0x33 => decodeFpAtomic s (.famin s.d s.a s.b)
  | 0x34 => decodeFpAtomic s (.faadd s.d s.a s.b)
  | 0x36 => accept (s.a < 16) (.fence s.d (Scope.ofCode (s.a / 4 % 4)) (BitVec.ofNat 16 (s.a % 4 * 16384 + s.b * 256 + s.fn)))
  | 0x37 => accept (s.a == 0 && s.b == 0 && s.fn < 4) (.pfence s.d (Scope.ofCode s.fn))
  | 0x38 => if okCsr (s.b * 256 + s.fn) then accept (s.a == 0) (.csrr s.d (s.b * 256 + s.fn)) else .error (.unassignedCsr (s.b * 256 + s.fn))
  | 0x39 => if okCsr (s.b * 256 + s.fn) then accept (s.d == 0) (.csrw s.a (s.b * 256 + s.fn)) else .error (.unassignedCsr (s.b * 256 + s.fn))
  | 0x3A => accept (s.fn < 8) (.pwr s.d s.a s.b (PatchReg.ofCode s.fn))
  | 0x3B => match s.fn % 16 with
    | 0 => .ok (.dqpush s.d s.a s.b (s.fn / 16))
    | 1 => accept (s.b == 0) (.dqtake s.d s.a (s.fn / 16))
    | 2 => accept (s.b == 0) (.dqsteal s.d s.a (s.fn / 16))
    | n => .error (.reservedDeque n)
  | 0x3C => decodeSystem s
  | n => .error (.reservedMajor n)

/-- An SC word (11 R160). -/
def decodeSc (w : Nat) : Except Reject Instr := decodeScWord (ScWord.ofNat w)

/-- The fields of an engine command word (11 R171). -/
structure EngWord where
  tok : Nat
  op : Nat
  md : Nat
deriving DecidableEq, Repr

def EngWord.ofNat (w : Nat) : EngWord := ⟨w / 1024 % 16, w / 16 % 64, w % 16⟩
def EngWord.toNat (e : EngWord) : Nat := e.tok * 1024 + e.op * 16 + e.md

/-- A data command word: its tokens, and a bound on the modifier (11 R172, 15 R261). -/
def decodeCommand (e : EngWord) : Except Reject Instr :=
  let t := Tok.ofCode e.tok
  let b0 := e.md % 2 == 1
  let b1 := e.md / 2 % 2 == 1
  let b2 := e.md / 4 % 2 == 1
  let b3 := e.md / 8 % 2 == 1
  match e.op with
  | 0x01 => accept (e.tok == 0 && e.md == 0) .dup
  | 0x02 => accept (e.tok == 0 && e.md == 0) .drop
  | 0x03 => accept (e.tok == 0 && e.md == 0) .swap
  | 0x04 => accept (e.tok == 0 && e.md == 0) .over
  | 0x05 => accept (e.tok == 0 && e.md == 0) .engAdd
  | 0x06 => accept (e.tok == 0 && e.md == 0) .engSub
  | 0x07 => accept (e.tok == 0 && e.md == 0) .engShl
  | 0x08 => accept (e.tok == 0 && e.md == 0) .engAnd
  | 0x09 => accept (e.tok == 0 && e.md < 8) (.eget e.md)
  | 0x0A => accept (e.tok == 0 && e.md < 8) (.eset e.md)
  | 0x10 => accept (e.tok == 0 && e.md == 0) .jmp
  | 0x11 => accept (e.tok == 0 && e.md == 0) .bz
  | 0x12 => accept (e.tok == 0 && e.md < 2) (.engLoop e.md)
  | 0x13 => accept (e.tok == 0 && e.md < 2) (.lend e.md)
  | 0x14 => accept (e.tok == 0 && e.md == 0) .engEnd
  | 0x20 => accept (e.md < 2) (.tile t b0)
  | 0x21 => accept (e.md < 4) (.drain t b1 b0)
  | 0x22 => accept (e.md < 2) (.accst t b0)
  | 0x23 => accept (e.md < 2) (.gath t b0)
  | 0x24 => .ok (.scat t b3 b2 b1 b0)
  | 0x25 => accept (e.md == 0) (.copy t)
  | 0x26 => accept (e.md == 0) (.fill t)
  | 0x27 => accept (e.md == 0) (.mcast t)
  | 0x28 => accept (e.md < 8 && e.md != 0) (.kvcp t b2 b1 b0)
  | 0x29 => accept (e.md < 2) (.send t b0)
  | 0x2A => accept (e.md == 0) (.pref t)
  | 0x2B => accept (e.md == 0) (.evict t)
  | 0x2C => decodeEngCode e.md true (.waitn t)
  | n => .error (.reservedEngineOp n)

/-- An engine word, as either engine reads it (11 R171). -/
def decodeEng (w : Nat) : Except Reject Instr :=
  if w / 32768 % 2 = 1 then .ok (.lit (BitVec.ofNat 15 (w % 32768)))
  else if w / 16384 % 2 = 1 then .ok (.ext (BitVec.ofNat 14 (w % 16384)))
  else decodeCommand (EngWord.ofNat w)

/-- Words that only LD executes, and only ST (11 R172). -/
def Instr.ldOnly : Instr → Bool
  | .tile _ _ | .gath _ _ | .mcast _ | .pref _ | .evict _ => true
  | _ => false
def Instr.stOnly : Instr → Bool
  | .drain _ _ _ | .accst _ _ | .scat _ _ _ _ _ | .send _ _ => true
  | _ => false

/-- An engine word as engine `e` reads it: an opcode in another engine's column is reserved (11 R172). -/
def decodeEngFor (e : Eng) (w : Nat) : Except Reject Instr :=
  match decodeEng w with
  | .ok i => if (e == .ld && i.stOnly) || (e == .st && i.ldOnly) then .error .wrongEngine else .ok i
  | .error r => .error r

/-- The fields of a CP slot (11 R168). -/
structure SlotWord where
  op : Nat
  q : Nat
  m : Nat
  ty : Nat
  rm : Nat
  d : Nat
  a : Nat
  b : Nat
  c : Nat
  x : Nat
deriving DecidableEq, Repr

def SlotWord.ofNat (w : Nat) : SlotWord :=
  ⟨w / 2 ^ 54 % 1024, w / 2 ^ 50 % 16, w / 2 ^ 47 % 8, w / 2 ^ 43 % 16, w / 2 ^ 41 % 4,
   w / 2 ^ 33 % 256, w / 2 ^ 25 % 256, w / 2 ^ 17 % 256, w / 2 ^ 9 % 256, w % 512⟩

def SlotWord.toNat (s : SlotWord) : Nat :=
  s.op * 2 ^ 54 + s.q * 2 ^ 50 + s.m * 2 ^ 47 + s.ty * 2 ^ 43 + s.rm * 2 ^ 41
    + s.d * 2 ^ 33 + s.a * 2 ^ 25 + s.b * 2 ^ 17 + s.c * 2 ^ 9 + s.x

/-- imm16 = b:c. -/
def SlotWord.bc (s : SlotWord) : BitVec 16 := BitVec.ofNat 16 (s.b * 256 + s.c)
/-- offset16 = d:c (13 R229). -/
def SlotWord.dc (s : SlotWord) : BitVec 16 := BitVec.ofNat 16 (s.d * 256 + s.c)
/-- The 9-bit displacement in x. -/
def SlotWord.disp (s : SlotWord) : BitVec 9 := BitVec.ofNat 9 s.x
/-- No mask, no type, no rounding mode. -/
def SlotWord.plain (s : SlotWord) : Bool := s.m == 0 && s.ty == 0 && s.rm == 0

/-- An instruction with an element type. -/
def typed (ty : Nat) (mk : ElemType → Instr) (ok : ElemType → Bool) : Except Reject Instr :=
  match ElemType.ofCode ty with
  | some t => if ok t then .ok (mk t) else .error .badType
  | none => .error .badType

/-- As `typed`, after a check of the other fields, and keeping the instruction only if it is well formed. -/
def typedWf (ok : Bool) (ty : Nat) (mk : ElemType → Instr) : Except Reject Instr :=
  match ElemType.ofCode ty with
  | some t => if ok && (mk t).wf then .ok (mk t) else .error .badField
  | none => .error .badType

/-- An instruction without an element type: its fields are checked, and its operands by WellFormed. -/
def plainWf (ok : Bool) (i : Instr) : Except Reject Instr := accept (ok && i.wf) i

/-- The strides of a REP (13 R233). -/
def SlotWord.strides (s : SlotWord) : Strides :=
  ⟨BitVec.ofNat 4 (s.b / 16), BitVec.ofNat 4 (s.b % 16), BitVec.ofNat 4 (s.c / 16), BitVec.ofNat 4 (s.c % 16),
   BitVec.ofNat 4 (s.x / 32)⟩

/-- Slot C (11 R170, 13 R221, R228-R234). The token bits x[3:0] have been taken out. -/
def decodeSlotC (s : SlotWord) : Except Reject Instr :=
  let p := s.plain
  match s.op with
  | 0x000 => accept (p && s.q == 0 && s.d == 0 && s.a == 0 && s.b == 0 && s.c == 0 && s.x == 0) .nop
  | 0x040 =>
    let rot := s.x / 32 % 2 == 1
    if s.x / 16 % 2 = 0 then
      plainWf (p && s.d < 4 && s.x % 16 == 0 && s.x < 64) (.cpLoop s.q s.d s.a (s.b * 256 + s.c) rot)
    else
      plainWf (p && s.d < 4 && s.x % 16 == 0 && s.x < 64 && s.c == 0) (.cpLoopK s.q s.d s.a s.b rot)
  | 0x041 =>
    if s.x / 16 % 2 = 0 then plainWf (p && s.x % 16 == 0) (.rep s.q (s.a * 256 + s.d) s.strides)
    else plainWf (p && s.x % 16 == 0 && s.a == 0) (.repK s.q s.d s.strides)
  | 0x042 => plainWf (p && s.a == 0 && s.b == 0 && s.x == 0) (.br s.q s.dc)
  | 0x043 => match BrCond.ofCode (s.x / 16 % 8) with
    | some c => plainWf (p && s.x % 16 == 0 && s.x < 128) (.brc s.q c s.a s.b s.dc)
    | none => .error .badField
  | 0x044 => plainWf (p && s.d == 0 && s.a == 0 && s.b == 0 && s.c == 0 && s.x == 0) (.rot s.q)
  | 0x045 => plainWf (p && s.a == 0 && s.b == 0 && s.c == 0 && s.x == 0) (.qset s.q s.d)
  | 0x046 => plainWf (p && s.a == 0 && s.b == 0 && s.c == 0 && s.x == 0) (.qclr s.q s.d)
  | 0x047 =>
    if s.x = 0 then plainWf (p && s.b == 0 && s.c == 0) (.qmovQ s.q s.d s.a)
    else plainWf (p && s.b == 0 && s.c == 0 && s.x == 16) (.qmovK s.q s.d s.a)
  | 0x048 => plainWf (p && s.d == 0 && s.a == 0 && s.b == 0 && s.c == 0 && s.x == 0) (.endk s.q)
  | 0x050 => plainWf (p && s.c == 0 && s.x == 0) (.kadd s.q s.d s.a s.b)
  | 0x051 => plainWf (p && s.x == 0) (.kaddi s.q s.d s.a s.bc)
  | 0x052 =>
    if s.x = 0 then plainWf (p && s.b == 0 && s.c == 0) (.kmov s.q s.d s.a)
    else if s.x = 16 then plainWf (p && s.b == 0 && s.c == 0) (.kmovLc s.q s.d s.a)
    else plainWf (p && s.a == 0 && s.b == 0 && s.c == 0 && s.x == 32) (.kmovRrb s.q s.d)
  | n => .error (.reservedCpOp n)

/-- The count operand of the vector shifts (13 R211). -/
def SlotWord.shiftBy (s : SlotWord) : ShiftBy := if s.x % 2 = 0 then .vec s.b else .imm (s.x / 2)
/-- Its field rule: x is 0 when the count comes from vb; b and x[8] are 0 when it is immediate. -/
def SlotWord.shiftOk (s : SlotWord) : Bool := if s.x % 2 = 0 then s.x == 0 else s.b == 0 && s.x < 256

/-- What slots V and W share (11 R170, 13 R211-R220). -/
def decodeSlotV (s : SlotWord) : Except Reject Instr :=
  let rm := Rm.ofCode s.rm
  let r0 := s.rm == 0
  match s.op with
  | 0x000 => accept (s.plain && s.q == 0 && s.d == 0 && s.a == 0 && s.b == 0 && s.c == 0 && s.x == 0) .nop
  | 0x080 => typedWf (s.c == 0 && s.x == 0) s.ty (fun t => .vadd s.q s.m t rm s.d s.a s.b)
  | 0x081 => typedWf (s.c == 0 && s.x == 0) s.ty (fun t => .vsub s.q s.m t rm s.d s.a s.b)
  | 0x082 => typedWf (s.c == 0 && s.x == 0) s.ty (fun t => .vmul s.q s.m t rm s.d s.a s.b)
  | 0x083 => typedWf (s.x == 0) s.ty (fun t => .vfma s.q s.m t rm s.d s.a s.b s.c)
  | 0x084 => typedWf (s.x == 0) s.ty (fun t => .vfms s.q s.m t rm s.d s.a s.b s.c)
  | 0x085 => typedWf (r0 && s.c == 0 && s.x == 0) s.ty (fun t => .vmin s.q s.m t s.d s.a s.b)
  | 0x086 => typedWf (r0 && s.c == 0 && s.x == 0) s.ty (fun t => .vmax s.q s.m t s.d s.a s.b)
  | 0x087 => typedWf (r0 && s.b == 0 && s.c == 0 && s.x == 0) s.ty (fun t => .vabs s.q s.m t s.d s.a)
  | 0x088 => typedWf (r0 && s.b == 0 && s.c == 0 && s.x == 0) s.ty (fun t => .vneg s.q s.m t s.d s.a)
  | 0x089 => typedWf (r0 && s.c == 0 && s.x == 0) s.ty (fun t => .vand s.q s.m t s.d s.a s.b)
  | 0x08a => typedWf (r0 && s.c == 0 && s.x == 0) s.ty (fun t => .vor s.q s.m t s.d s.a s.b)
  | 0x08b => typedWf (r0 && s.c == 0 && s.x == 0) s.ty (fun t => .vxor s.q s.m t s.d s.a s.b)
  | 0x08c => typedWf (r0 && s.b == 0 && s.c == 0 && s.x == 0) s.ty (fun t => .vnot s.q s.m t s.d s.a)
  | 0x08d => typedWf (r0 && s.c == 0 && s.shiftOk) s.ty (fun t => .vshl s.q s.m t s.d s.a s.shiftBy)
  | 0x08e => typedWf (r0 && s.c == 0 && s.shiftOk) s.ty (fun t => .vshr s.q s.m t s.d s.a s.shiftBy)
  | 0x08f => typedWf (r0 && s.c == 0 && s.shiftOk) s.ty (fun t => .vsra s.q s.m t s.d s.a s.shiftBy)
  | 0x090 => match Cmp.ofCode (s.x % 8) with
    | some c =>
      if s.x / 8 % 2 = 0 then typedWf (r0 && s.c == 0 && s.x < 8) s.ty (fun t => .vcmpMask s.q s.m t c s.d s.a s.b)
      else typedWf (r0 && s.c == 0 && s.x < 16) s.ty (fun t => .vcmpVec s.q s.m t c s.d s.a s.b)
    | none => .error .badField
  | 0x091 => typedWf (r0 && s.x == 0) s.ty (fun t => .vsel s.q s.m t s.d s.a s.b s.c)
  | 0x092 =>
    if s.x = 0 then typedWf (r0 && s.b == 0 && s.c == 0) s.ty (fun t => .vmov s.q s.m t s.d s.a)
    else if s.x = 1 then plainWf (s.plain && s.b == 0 && s.c == 0) (.vmovMaskMask s.q s.d s.a)
    else if s.x = 2 then plainWf (s.plain && s.b == 0 && s.c == 0) (.vmovMaskVec s.q s.d s.a)
    else plainWf (s.plain && s.b == 0 && s.c == 0 && s.x == 3) (.vmovVecMask s.q s.d s.a)
  | 0x093 =>
    if s.x = 0 then typedWf (r0 && s.b == 0 && s.c == 0) s.ty (fun t => .vbcastK s.q s.m t s.d s.a)
    else typedWf (s.a == 0 && s.x == 1) s.ty (fun t => .vbcastImm s.q s.m t rm s.d s.bc)
  | 0x094 => match ElemType.ofCode (s.x % 16) with
    | some sty => typedWf (s.b == 0 && s.c == 0 && s.x < 32) s.ty (fun t => .vcvt s.q s.m t sty (s.x / 16 % 2 == 1) rm s.d s.a)
    | none => .error .badType
  | 0x095 => typedWf (r0 && s.c == 0 && s.x == 0) s.ty (fun t => .vshuf s.q s.m t s.d s.a s.b)
  | 0x096 => typedWf (r0 && s.x == 0) s.ty (fun t => .vslide s.q s.m t s.d s.a s.b s.c)
  | 0x097 => match RedOp.ofCode s.x with
    | some o => typedWf (s.b == 0 && s.c == 0) s.ty (fun t => .vreds s.q s.m t o rm s.d s.a)
    | none => .error .badField
  | 0x098 => typedWf (r0 && s.b == 0 && s.c == 0 && s.x == 0) s.ty (fun t => .vmaxi s.q s.m t s.d s.a)
  | 0x099 => typedWf (r0 && s.b == 0 && s.c == 0 && s.x == 0) s.ty (fun t => .vmini s.q s.m t s.d s.a)
  | 0x09A =>
    if s.x = 0 then typedWf (r0 && s.b == 0 && s.c == 0) s.ty (fun t => .vpopc s.q s.m t s.d s.a)
    else typedWf (r0 && s.a == 0 && s.b == 0 && s.c == 0 && s.x == 1) s.ty (fun t => .vpopcMask s.q s.m t s.d)
  | 0x09b => typedWf (r0 && s.c == 0 && s.x == 0) s.ty (fun t => .vadds s.q s.m t s.d s.a s.b)
  | 0x09C => plainWf (r0 && s.ty == 7 && s.c == 0) (.vrng s.q s.m s.d s.a s.b s.x)
  | 0x09D => typedWf (r0 && s.m == 0 && s.b == 0 && s.c == 0) s.ty (fun t => .kfromv s.q t s.d s.a s.x)
  | n => .error (.reservedCpOp n)

/-- Slot W: the shared opcodes, and those of 13 R222-R226. -/
def decodeSlotW (s : SlotWord) : Except Reject Instr :=
  let rm := Rm.ofCode s.rm
  let r0 := s.rm == 0
  let sf := s.ty == 12 && s.b == 0 && s.c == 0 && s.x < 2
  match s.op with
  | 0x0C0 => plainWf sf (.vexp2 s.q s.m (s.x == 1) rm s.d s.a)
  | 0x0C1 => plainWf sf (.vlog2 s.q s.m (s.x == 1) rm s.d s.a)
  | 0x0C2 => plainWf sf (.vrcp s.q s.m (s.x == 1) rm s.d s.a)
  | 0x0C3 => plainWf sf (.vrsq s.q s.m (s.x == 1) rm s.d s.a)
  | 0x0C4 => plainWf (s.ty == 12 && s.b == 0 && s.c == 0 && s.x == 0) (.vpwp s.q s.m rm s.d s.a)
  | 0x0C5 => plainWf (s.plain && s.d == 0 && s.b == 0 && s.c == 0) (.pwld s.q s.a s.disp)
  | 0x0C6 => plainWf (s.plain && s.d == 0 && s.b == 0 && s.c == 0) (.pwst s.q s.a s.disp)
  | 0x0C8 => typedWf (r0 && s.b == 0 && s.c == 0) s.ty (fun t => .vld s.q s.m t s.d s.a s.disp)
  | 0x0C9 => typedWf (r0 && s.d == 0 && s.c == 0) s.ty (fun t => .vst s.q s.m t s.b s.a s.disp)
  | 0x0CA => plainWf (s.plain && s.c == 0) (.vldr s.q s.d s.a s.b (s.x % 256) (s.x / 256 == 1))
  | 0x0CB => typedWf (r0 && s.c == 0 && s.x == 0) s.ty (fun t => .vgath s.q s.m t s.d s.a s.b)
  | 0x0CC => typedWf (r0 && s.d == 0 && s.x == 0) s.ty (fun t => .vscat s.q s.m t s.a s.b s.c)
  | 0x0CD => plainWf (s.plain && s.b == 0 && s.c == 0) (.kld s.q s.d s.a s.disp)
  | _ => decodeSlotV s

/-- Slot M (14 R242-R258). -/
def decodeSlotM (s : SlotWord) : Except Reject Instr :=
  let p := s.plain
  let r0 := s.rm == 0
  let rm := Rm.ofCode s.rm
  let bc0 := s.b == 0 && s.c == 0
  match s.op with
  | 0x000 => accept (p && s.q == 0 && s.d == 0 && s.a == 0 && bc0 && s.x == 0) .nop
  | 0x100 => plainWf (p && s.c == 0 && s.x == 0) (.mma s.q s.d s.a s.b)
  | 0x101 =>
    if s.x = 0 then plainWf (p && s.a == 0 && bc0) (.aclrPeek s.q s.d)
    else plainWf (p && s.a == 0 && s.x == 1) (.aclrImm s.q s.d s.bc)
  | 0x102 => plainWf (p && s.a == 0 && bc0 && s.x == 0) (.anorm s.q s.d)
  | 0x103 => typedWf (bc0 && s.x < 64) s.ty (fun t => .ard s.q s.m t rm s.d s.a s.x)
  | 0x104 => plainWf (r0 && s.ty == 9 && bc0 && s.x / 64 % 2 == 0) (.awr s.q s.m (AccSel.ofCode (s.x / 128)) s.d s.a (s.x % 64))
  | 0x105 =>
    if s.x / 64 % 2 = 0 then plainWf (r0 && s.ty == 9 && bc0) (.astat s.q s.m (AccSel.ofCode (s.x / 128)) s.d s.a (s.x % 64))
    else plainWf (r0 && s.ty == 9 && bc0 && s.m == 0 && s.x == 64) (.astatDepth s.q s.d s.a)
  | 0x140 => plainWf (p && bc0) (.hld s.q s.d s.a s.disp)
  | 0x141 => plainWf (p && s.d == 0 && s.c == 0) (.hst s.q s.b s.a s.disp)
  | 0x142 => plainWf (p && s.c == 0 && s.x == 0) (.hbind s.q s.d s.a s.b)
  | 0x143 =>
    if s.x = 0 then plainWf p (.hpermImm s.q s.d s.a (s.b * 256 + s.c))
    else plainWf (p && s.c == 0 && s.x == 1) (.hpermK s.q s.d s.a s.b)
  | 0x144 => plainWf (p && bc0 && s.x == 0) (.hbun s.q s.d s.a)
  | 0x145 => plainWf (p && s.a == 0 && bc0 && s.x == 0) (.hclrb s.q s.d)
  | 0x146 => plainWf (p && bc0 && s.x == 0) (.hthr s.q s.d s.a)
  | 0x147 => plainWf (p && s.c == 0 && s.x == 0) (.hdist s.q s.d s.a s.b)
  | 0x148 => plainWf (p && bc0 && s.x == 0) (.hnear s.q s.d s.a)
  | 0x149 => plainWf (p && bc0) (.hhash s.q s.d s.a s.x)
  | 0x14A => plainWf (p && bc0 && s.x == 0) (.hseed s.q s.d s.a)
  | 0x14B => plainWf (p && bc0 && s.x == 0) (.hpop s.q s.d s.a)
  | 0x14C =>
    if s.x = 0 then plainWf (p && bc0) (.hmov s.q s.d s.a)
    else if s.x = 1 then plainWf (p && bc0 && s.d == 0) (.hmovToHt s.q s.a)
    else plainWf (p && bc0 && s.a == 0 && s.x == 2) (.hmovFromHt s.q s.d)
  | 0x14D => plainWf (p && s.d == 0 && s.c == 0 && s.x == 0) (.hcfg s.q s.a s.b)
  | 0x180 => plainWf (r0 && s.ty == 10 && bc0 && s.x == 0) (.pfeed s.q s.m s.d s.a)
  | 0x181 => plainWf (p && bc0) (.mldg s.q s.d s.a s.disp)
  | n => .error (.reservedCpOp n)

/-- A slot by its fields. In slot C, x[3:0] are the bundle's token bits, not the instruction's (11 R168). -/
def decodeSlotWord (sl : Slot) (s : SlotWord) : Except Reject Instr :=
  match sl with
  | .c => decodeSlotC ⟨s.op, s.q, s.m, s.ty, s.rm, s.d, s.a, s.b, s.c, s.x / 16 * 16⟩
  | .v => decodeSlotV s
  | .w => decodeSlotW s
  | .m => decodeSlotM s

/-- A 64-bit slot word. -/
def decodeSlot (sl : Slot) (w : Nat) : Except Reject Instr := decodeSlotWord sl (SlotWord.ofNat w)

/-- A decoded bundle: its token bits and its four instructions (11 R168). -/
structure Bundle where
  tok : Tok
  c : Instr
  v : Instr
  w : Instr
  m : Instr
deriving DecidableEq, Repr

/-- A bundle of four slot words; the first slot that is illegal is named (24 R325). -/
def decodeBundleWords (wc wv ww wm : SlotWord) : Except (Slot × Reject) Bundle :=
  match decodeSlotWord .c wc with
  | .error r => .error (.c, r)
  | .ok c => match decodeSlotWord .v wv with
    | .error r => .error (.v, r)
    | .ok v => match decodeSlotWord .w ww with
      | .error r => .error (.w, r)
      | .ok w => match decodeSlotWord .m wm with
        | .error r => .error (.m, r)
        | .ok m => .ok ⟨Tok.ofCode (wc.x % 16), c, v, w, m⟩

/-- A 256-bit bundle, slot C in its low bytes (11 R159). -/
def decodeBundle (w : Nat) : Except (Slot × Reject) Bundle :=
  decodeBundleWords (SlotWord.ofNat (w % 2 ^ 64)) (SlotWord.ofNat (w / 2 ^ 64 % 2 ^ 64))
    (SlotWord.ofNat (w / 2 ^ 128 % 2 ^ 64)) (SlotWord.ofNat (w / 2 ^ 192 % 2 ^ 64))

/-- The answer of a decoder as an Option. -/
def okInstr : Except Reject Instr → Option Instr
  | .ok i => some i
  | .error _ => none

/-- The instruction the decoder reads from a word numbered as the opcode table numbers it: 16 bits an engine word, 32 an SC word, 64 a CP slot word (the first slot that takes it). -/
def decodeTableWord (nbits w : Nat) : Option Instr :=
  if nbits ≤ 16 then okInstr (decodeEng (w % 65536))
  else if nbits ≤ 32 then okInstr (decodeSc (w % 4294967296))
  else match decodeSlot .c w with
    | .ok i => some i
    | .error _ => match decodeSlot .w w with
      | .ok i => some i
      | .error _ => okInstr (decodeSlot .m w)

/-! The encoders, from the same maps. -/

/-- SI and SB: op, two registers, imm14. -/
def encI (op d a : Nat) (i : BitVec 14) : ScWord := ⟨op, d, a, i.toNat / 256, i.toNat % 256⟩
/-- SJ: op, a register, imm20. -/
def encJ (op d : Nat) (i : BitVec 20) : ScWord := ⟨op, d, i.toNat / 16384, i.toNat / 256 % 64, i.toNat % 256⟩
/-- SM: op, registers, class, imm10. -/
def encM (op d a c : Nat) (i : BitVec 10) : ScWord := ⟨op, d, a, c * 4 + i.toNat / 256, i.toNat % 256⟩
/-- Atomics (11 R164). -/
def encA (op d a b c : Nat) (nr w : Bool) : ScWord := ⟨op, d, a, b, c * 16 + 8 * nr.toNat + 4 * w.toNat⟩
/-- The system group: sub6 and imm8. -/
def encX (sub d a i : Nat) : ScWord := ⟨0x3C, d, a, sub, i⟩

/-- The fields of an SC instruction (11 R160-R166). -/
def encodeScFields : Instr → Option ScWord
  | .add d a b => some ⟨0, d, a, b, 0x00⟩
  | .sub d a b => some ⟨0, d, a, b, 0x01⟩
  | .mul d a b => some ⟨0, d, a, b, 0x02⟩
  | .mulh d a b => some ⟨0, d, a, b, 0x03⟩
  | .mulhu d a b => some ⟨0, d, a, b, 0x04⟩
  | .div d a b => some ⟨0, d, a, b, 0x05⟩
  | .divu d a b => some ⟨0, d, a, b, 0x06⟩
  | .rem d a b => some ⟨0, d, a, b, 0x07⟩
  | .remu d a b => some ⟨0, d, a, b, 0x08⟩
  | .and d a b => some ⟨0, d, a, b, 0x10⟩
  | .or d a b => some ⟨0, d, a, b, 0x11⟩
  | .xor d a b => some ⟨0, d, a, b, 0x12⟩
  | .shl d a b => some ⟨0, d, a, b, 0x18⟩
  | .shr d a b => some ⟨0, d, a, b, 0x19⟩
  | .sra d a b => some ⟨0, d, a, b, 0x1a⟩
  | .min d a b => some ⟨0, d, a, b, 0x20⟩
  | .max d a b => some ⟨0, d, a, b, 0x21⟩
  | .minu d a b => some ⟨0, d, a, b, 0x22⟩
  | .maxu d a b => some ⟨0, d, a, b, 0x23⟩
  | .slt d a b => some ⟨0, d, a, b, 0x28⟩
  | .sltu d a b => some ⟨0, d, a, b, 0x29⟩
  | .clz d a => some ⟨0, d, a, 0, 0x30⟩
  | .popc d a => some ⟨0, d, a, 0, 0x31⟩
  | .addi d a i => some (encI 0x01 d a i)
  | .andi d a i => some (encI 0x02 d a i)
  | .ori d a i => some (encI 0x03 d a i)
  | .xori d a i => some (encI 0x04 d a i)
  | .shli d a n => some ⟨0x05, d, a, 0, n⟩
  | .shri d a n => some ⟨0x06, d, a, 0, n⟩
  | .srai d a n => some ⟨0x07, d, a, 0, n⟩
  | .slti d a i => some (encI 0x08 d a i)
  | .lui d i => some (encJ 0x09 d i)
  | .adpc d i => some (encJ 0x0a d i)
  | .jal d i => some (encJ 0x0b d i)
  | .jalr d a i => some (encI 0x0C d a i)
  | .beq a b i => some (encI 0x10 a b i)
  | .bne a b i => some (encI 0x11 a b i)
  | .blt a b i => some (encI 0x12 a b i)
  | .bge a b i => some (encI 0x13 a b i)
  | .bltu a b i => some (encI 0x14 a b i)
  | .bgeu a b i => some (encI 0x15 a b i)
  | .ldb d a c i => some (encM 0x18 d a c i)
  | .ldbu d a c i => some (encM 0x19 d a c i)
  | .ldh d a c i => some (encM 0x1a d a c i)
  | .ldhu d a c i => some (encM 0x1b d a c i)
  | .ldw d a c i => some (encM 0x1c d a c i)
  | .ldwu d a c i => some (encM 0x1d d a c i)
  | .ldd d a c i => some (encM 0x1e d a c i)
  | .stb d a c i => some (encM 0x20 d a c i)
  | .sth d a c i => some (encM 0x21 d a c i)
  | .stw d a c i => some (encM 0x22 d a c i)
  | .std d a c i => some (encM 0x23 d a c i)
  | .aadd d a b c nr w => some (encA 0x28 d a b c nr w)
  | .aand d a b c nr w => some (encA 0x29 d a b c nr w)
  | .aor d a b c nr w => some (encA 0x2a d a b c nr w)
  | .axor d a b c nr w => some (encA 0x2b d a b c nr w)
  | .aswp d a b c nr w => some (encA 0x2c d a b c nr w)
  | .amax d a b c nr w => some (encA 0x2d d a b c nr w)
  | .amin d a b c nr w => some (encA 0x2e d a b c nr w)
  | .amaxu d a b c nr w => some (encA 0x2f d a b c nr w)
  | .aminu d a b c nr w => some (encA 0x30 d a b c nr w)
  | .acas d a b c nr w => some (encA 0x31 d a b c nr w)
  | .famax d a b c nr => some (encA 0x32 d a b c nr false)
  | .famin d a b c nr => some (encA 0x33 d a b c nr false)
  | .faadd d a b c nr => some (encA 0x34 d a b c nr false)
  | .fence d s m => some ⟨0x36, d, s.code * 4 + m.toNat / 16384, m.toNat / 256 % 64, m.toNat % 256⟩
  | .pfence d s => some ⟨0x37, d, 0, 0, s.code⟩
  | .csrr d n => some ⟨0x38, d, 0, n / 256, n % 256⟩
  | .csrw a n => some ⟨0x39, 0, a, n / 256, n % 256⟩
  | .pwr d a b p => some ⟨0x3A, d, a, b, p.code⟩
  | .dqpush d a b c => some ⟨0x3B, d, a, b, c * 16⟩
  | .dqtake d a c => some ⟨0x3B, d, a, 0, c * 16 + 1⟩
  | .dqsteal d a c => some ⟨0x3B, d, a, 0, c * 16 + 2⟩
  | .fmtq a => some (encX 0x00 0 a 0)
  | .lntw a n => some (encX 0x01 0 a n)
  | .lngo n => some (encX 0x02 0 0 n)
  | .waite d a e => some (encX 0x03 d a e.code)
  | .engst d e => some (encX 0x04 d 0 e.code)
  | .prd d a p => some (encX 0x05 d a p.code)
  | .pclose d a => some (encX 0x06 d a 0)
  | .prel d a => some (encX 0x07 d a 0)
  | .launch d a => some (encX 0x08 d a 0)
  | .trig => some (encX 0x09 0 0 0)
  | .waitp => some (encX 0x0A 0 0 0)
  | .exit => some (encX 0x0B 0 0 0)
  | .yield => some (encX 0x0C 0 0 0)
  | .bara a b => some (encX 0x0D 0 a b)
  | .barw d b => some (encX 0x0E d 0 b)
  | .route d a => some (encX 0x0F d a 0)
  | .layerb d => some (encX 0x10 d 0 0)
  | .utfcut d a => some (encX 0x11 d a 0)
  | .trap c => some (encX 0x12 0 0 c)
  | .rte => some (encX 0x13 0 0 0)
  | .hret => some (encX 0x14 0 0 0)
  | .wfe => some (encX 0x15 0 0 0)
  | _ => none

/-- The 32-bit word of an SC instruction. -/
def encodeSc (i : Instr) : Option Nat := (encodeScFields i).map ScWord.toNat

/-- A command word with modifier bits 0 to 3. -/
def encE (t : Tok) (op md : Nat) : Nat := (EngWord.mk t.code op md).toNat

/-- The 16-bit word of an engine instruction (15 R261). -/
def encodeEng : Instr → Option Nat
  | .lit v => some (32768 + v.toNat)
  | .ext v => some (16384 + v.toNat)
  | .dup => some 0x0010
  | .drop => some 0x0020
  | .swap => some 0x0030
  | .over => some 0x0040
  | .engAdd => some 0x0050
  | .engSub => some 0x0060
  | .engShl => some 0x0070
  | .engAnd => some 0x0080
  | .eget n => some (0x0090 + n)
  | .eset n => some (0x00A0 + n)
  | .jmp => some 0x0100
  | .bz => some 0x0110
  | .engLoop l => some (0x0120 + l)
  | .lend l => some (0x0130 + l)
  | .engEnd => some 0x0140
  | .tile t p => some (encE t 0x20 p.toNat)
  | .drain t k p => some (encE t 0x21 (2 * k.toNat + p.toNat))
  | .accst t p => some (encE t 0x22 p.toNat)
  | .gath t p => some (encE t 0x23 p.toNat)
  | .scat t f a k p => some (encE t 0x24 (8 * f.toNat + 4 * a.toNat + 2 * k.toNat + p.toNat))
  | .copy t => some (encE t 0x25 0)
  | .fill t => some (encE t 0x26 0)
  | .mcast t => some (encE t 0x27 0)
  | .kvcp t e i c => some (encE t 0x28 (4 * e.toNat + 2 * i.toNat + c.toNat))
  | .send t p => some (encE t 0x29 p.toNat)
  | .pref t => some (encE t 0x2A 0)
  | .evict t => some (encE t 0x2B 0)
  | .waitn t e => some (encE t 0x2C e.code)
  | _ => none

/-- The b, c and x fields of a REP's strides (13 R233). -/
def Strides.b (s : Strides) : Nat := s.sd.toNat * 16 + s.sa.toNat
def Strides.c (s : Strides) : Nat := s.sb.toNat * 16 + s.sc.toNat
def Strides.x (s : Strides) : Nat := s.slots.toNat * 32

/-- b and x of a vector shift's count (13 R211). -/
def ShiftBy.b : ShiftBy → Nat
  | .vec b => b
  | .imm _ => 0
def ShiftBy.x : ShiftBy → Nat
  | .vec _ => 0
  | .imm n => 2 * n + 1

/-- The fields of a CP slot instruction; the token bits of slot C are left 0 (11 R168). -/
def encodeSlotFields : Instr → Option SlotWord
  | .nop => some ⟨0, 0, 0, 0, 0, 0, 0, 0, 0, 0⟩
  | .cpLoop q lv e n r => some ⟨0x040, q, 0, 0, 0, lv, e, n / 256, n % 256, 32 * r.toNat⟩
  | .cpLoopK q lv e k r => some ⟨0x040, q, 0, 0, 0, lv, e, k, 0, 32 * r.toNat + 16⟩
  | .rep q n st => some ⟨0x041, q, 0, 0, 0, n % 256, n / 256, st.b, st.c, st.x⟩
  | .repK q k st => some ⟨0x041, q, 0, 0, 0, k, 0, st.b, st.c, st.x + 16⟩
  | .br q o => some ⟨0x042, q, 0, 0, 0, o.toNat / 256, 0, 0, o.toNat % 256, 0⟩
  | .brc q c a b o => some ⟨0x043, q, 0, 0, 0, o.toNat / 256, a, b, o.toNat % 256, 16 * c.code⟩
  | .rot q => some ⟨0x044, q, 0, 0, 0, 0, 0, 0, 0, 0⟩
  | .qset q d => some ⟨0x045, q, 0, 0, 0, d, 0, 0, 0, 0⟩
  | .qclr q d => some ⟨0x046, q, 0, 0, 0, d, 0, 0, 0, 0⟩
  | .qmovQ q d a => some ⟨0x047, q, 0, 0, 0, d, a, 0, 0, 0⟩
  | .qmovK q d k => some ⟨0x047, q, 0, 0, 0, d, k, 0, 0, 16⟩
  | .endk q => some ⟨0x048, q, 0, 0, 0, 0, 0, 0, 0, 0⟩
  | .kadd q d a b => some ⟨0x050, q, 0, 0, 0, d, a, b, 0, 0⟩
  | .kaddi q d a i => some ⟨0x051, q, 0, 0, 0, d, a, i.toNat / 256, i.toNat % 256, 0⟩
  | .kmov q d a => some ⟨0x052, q, 0, 0, 0, d, a, 0, 0, 0⟩
  | .kmovLc q d l => some ⟨0x052, q, 0, 0, 0, d, l, 0, 0, 16⟩
  | .kmovRrb q d => some ⟨0x052, q, 0, 0, 0, d, 0, 0, 0, 32⟩
  | .vadd q m ty rm d a b => some ⟨0x080, q, m, ty.code, rm.code, d, a, b, 0, 0⟩
  | .vsub q m ty rm d a b => some ⟨0x081, q, m, ty.code, rm.code, d, a, b, 0, 0⟩
  | .vmul q m ty rm d a b => some ⟨0x082, q, m, ty.code, rm.code, d, a, b, 0, 0⟩
  | .vfma q m ty rm d a b c => some ⟨0x083, q, m, ty.code, rm.code, d, a, b, c, 0⟩
  | .vfms q m ty rm d a b c => some ⟨0x084, q, m, ty.code, rm.code, d, a, b, c, 0⟩
  | .vmin q m ty d a b => some ⟨0x085, q, m, ty.code, 0, d, a, b, 0, 0⟩
  | .vmax q m ty d a b => some ⟨0x086, q, m, ty.code, 0, d, a, b, 0, 0⟩
  | .vabs q m ty d a => some ⟨0x087, q, m, ty.code, 0, d, a, 0, 0, 0⟩
  | .vneg q m ty d a => some ⟨0x088, q, m, ty.code, 0, d, a, 0, 0, 0⟩
  | .vand q m ty d a b => some ⟨0x089, q, m, ty.code, 0, d, a, b, 0, 0⟩
  | .vor q m ty d a b => some ⟨0x08a, q, m, ty.code, 0, d, a, b, 0, 0⟩
  | .vxor q m ty d a b => some ⟨0x08b, q, m, ty.code, 0, d, a, b, 0, 0⟩
  | .vnot q m ty d a => some ⟨0x08c, q, m, ty.code, 0, d, a, 0, 0, 0⟩
  | .vshl q m ty d a n => some ⟨0x08d, q, m, ty.code, 0, d, a, n.b, 0, n.x⟩
  | .vshr q m ty d a n => some ⟨0x08e, q, m, ty.code, 0, d, a, n.b, 0, n.x⟩
  | .vsra q m ty d a n => some ⟨0x08f, q, m, ty.code, 0, d, a, n.b, 0, n.x⟩
  | .vadds q m ty d a b => some ⟨0x09b, q, m, ty.code, 0, d, a, b, 0, 0⟩
  | .vcmpMask q m ty c d a b => some ⟨0x090, q, m, ty.code, 0, d, a, b, 0, c.code⟩
  | .vcmpVec q m ty c d a b => some ⟨0x090, q, m, ty.code, 0, d, a, b, 0, c.code + 8⟩
  | .vsel q m ty d a b mc => some ⟨0x091, q, m, ty.code, 0, d, a, b, mc, 0⟩
  | .vmov q m ty d a => some ⟨0x092, q, m, ty.code, 0, d, a, 0, 0, 0⟩
  | .vmovMaskMask q d a => some ⟨0x092, q, 0, 0, 0, d, a, 0, 0, 1⟩
  | .vmovMaskVec q d a => some ⟨0x092, q, 0, 0, 0, d, a, 0, 0, 2⟩
  | .vmovVecMask q d a => some ⟨0x092, q, 0, 0, 0, d, a, 0, 0, 3⟩
  | .vbcastK q m ty d k => some ⟨0x093, q, m, ty.code, 0, d, k, 0, 0, 0⟩
  | .vbcastImm q m ty rm d i => some ⟨0x093, q, m, ty.code, rm.code, d, 0, i.toNat / 256, i.toNat % 256, 1⟩
  | .vcvt q m ty sty sat rm d a => some ⟨0x094, q, m, ty.code, rm.code, d, a, 0, 0, sty.code + 16 * sat.toNat⟩
  | .vshuf q m ty d a b => some ⟨0x095, q, m, ty.code, 0, d, a, b, 0, 0⟩
  | .vslide q m ty d a b k => some ⟨0x096, q, m, ty.code, 0, d, a, b, k, 0⟩
  | .vreds q m ty o rm d a => some ⟨0x097, q, m, ty.code, rm.code, d, a, 0, 0, o.code⟩
  | .vmaxi q m ty d a => some ⟨0x098, q, m, ty.code, 0, d, a, 0, 0, 0⟩
  | .vmini q m ty d a => some ⟨0x099, q, m, ty.code, 0, d, a, 0, 0, 0⟩
  | .vpopc q m ty d a => some ⟨0x09a, q, m, ty.code, 0, d, a, 0, 0, 0⟩
  | .vpopcMask q m ty d => some ⟨0x09a, q, m, ty.code, 0, d, 0, 0, 0, 1⟩
  | .vrng q m d ka kb base => some ⟨0x09c, q, m, 7, 0, d, ka, kb, 0, base⟩
  | .kfromv q ty d a idx => some ⟨0x09d, q, 0, ty.code, 0, d, a, 0, 0, idx⟩
  | .vexp2 q m g rm d a => some ⟨0x0c0, q, m, 12, rm.code, d, a, 0, 0, g.toNat⟩
  | .vlog2 q m g rm d a => some ⟨0x0c1, q, m, 12, rm.code, d, a, 0, 0, g.toNat⟩
  | .vrcp q m g rm d a => some ⟨0x0c2, q, m, 12, rm.code, d, a, 0, 0, g.toNat⟩
  | .vrsq q m g rm d a => some ⟨0x0c3, q, m, 12, rm.code, d, a, 0, 0, g.toNat⟩
  | .vpwp q m rm d a => some ⟨0x0c4, q, m, 12, rm.code, d, a, 0, 0, 0⟩
  | .pwld q k x => some ⟨0x0c5, q, 0, 0, 0, 0, k, 0, 0, x.toNat⟩
  | .pwst q k x => some ⟨0x0c6, q, 0, 0, 0, 0, k, 0, 0, x.toNat⟩
  | .vld q m ty d k x => some ⟨0x0c8, q, m, ty.code, 0, d, k, 0, 0, x.toNat⟩
  | .vst q m ty b k x => some ⟨0x0c9, q, m, ty.code, 0, 0, k, b, 0, x.toNat⟩
  | .kld q d k x => some ⟨0x0cd, q, 0, 0, 0, d, k, 0, 0, x.toNat⟩
  | .vldr q d rg k ch pop => some ⟨0x0ca, q, 0, 0, 0, d, rg, k, 0, ch + 256 * pop.toNat⟩
  | .vgath q m ty d k b => some ⟨0x0cb, q, m, ty.code, 0, d, k, b, 0, 0⟩
  | .vscat q m ty k b c => some ⟨0x0cc, q, m, ty.code, 0, 0, k, b, c, 0⟩
  | .mma q d ra rb => some ⟨0x100, q, 0, 0, 0, d, ra, rb, 0, 0⟩
  | .aclrPeek q d => some ⟨0x101, q, 0, 0, 0, d, 0, 0, 0, 0⟩
  | .aclrImm q d i => some ⟨0x101, q, 0, 0, 0, d, 0, i.toNat / 256, i.toNat % 256, 1⟩
  | .anorm q d => some ⟨0x102, q, 0, 0, 0, d, 0, 0, 0, 0⟩
  | .ard q m ty rm d a r => some ⟨0x103, q, m, ty.code, rm.code, d, a, 0, 0, r⟩
  | .awr q m s d a r => some ⟨0x104, q, m, 9, 0, d, a, 0, 0, s.code * 128 + r⟩
  | .astat q m s d a r => some ⟨0x105, q, m, 9, 0, d, a, 0, 0, s.code * 128 + r⟩
  | .astatDepth q d a => some ⟨0x105, q, 0, 9, 0, d, a, 0, 0, 64⟩
  | .hld q d k x => some ⟨0x140, q, 0, 0, 0, d, k, 0, 0, x.toNat⟩
  | .hst q b k x => some ⟨0x141, q, 0, 0, 0, 0, k, b, 0, x.toNat⟩
  | .hbind q d a b => some ⟨0x142, q, 0, 0, 0, d, a, b, 0, 0⟩
  | .hpermImm q d a n => some ⟨0x143, q, 0, 0, 0, d, a, n / 256, n % 256, 0⟩
  | .hpermK q d a k => some ⟨0x143, q, 0, 0, 0, d, a, k, 0, 1⟩
  | .hbun q d a => some ⟨0x144, q, 0, 0, 0, d, a, 0, 0, 0⟩
  | .hclrb q d => some ⟨0x145, q, 0, 0, 0, d, 0, 0, 0, 0⟩
  | .hthr q d a => some ⟨0x146, q, 0, 0, 0, d, a, 0, 0, 0⟩
  | .hdist q d a b => some ⟨0x147, q, 0, 0, 0, d, a, b, 0, 0⟩
  | .hnear q d a => some ⟨0x148, q, 0, 0, 0, d, a, 0, 0, 0⟩
  | .hhash q d a n => some ⟨0x149, q, 0, 0, 0, d, a, 0, 0, n⟩
  | .hseed q d k => some ⟨0x14a, q, 0, 0, 0, d, k, 0, 0, 0⟩
  | .hpop q d a => some ⟨0x14b, q, 0, 0, 0, d, a, 0, 0, 0⟩
  | .hmov q d a => some ⟨0x14c, q, 0, 0, 0, d, a, 0, 0, 0⟩
  | .hmovToHt q a => some ⟨0x14c, q, 0, 0, 0, 0, a, 0, 0, 1⟩
  | .hmovFromHt q d => some ⟨0x14c, q, 0, 0, 0, d, 0, 0, 0, 2⟩
  | .hcfg q a b => some ⟨0x14d, q, 0, 0, 0, 0, a, b, 0, 0⟩
  | .pfeed q m d a => some ⟨0x180, q, m, 10, 0, d, a, 0, 0, 0⟩
  | .mldg q d k x => some ⟨0x181, q, 0, 0, 0, d, k, 0, 0, x.toNat⟩
  | _ => none

/-- The 64-bit slot word of a CP instruction. -/
def encodeSlot (i : Instr) : Option Nat := (encodeSlotFields i).map SlotWord.toNat

/-- The slots an instruction may stand in (11 R170): the first of C, V, W, M. -/
def Instr.homeSlot : Instr → Option Slot
  | .cpLoop .. | .cpLoopK .. | .rep .. | .repK .. | .br .. | .brc .. | .rot .. | .qset .. | .qclr ..
  | .qmovQ .. | .qmovK .. | .endk .. | .kadd .. | .kaddi .. | .kmov .. | .kmovLc .. | .kmovRrb .. | .nop => some .c
  | .vexp2 .. | .vlog2 .. | .vrcp .. | .vrsq .. | .vpwp .. | .pwld .. | .pwst .. | .vld .. | .vst ..
  | .kld .. | .vldr .. | .vgath .. | .vscat .. => some .w
  | i => match encodeSlotFields i with
    | some s => if s.op < 0x100 then some .v else some .m
    | none => none

/-- The word of a well-formed instruction that has an encoding, and its number of bits. -/
def encode (i : Instr) : Option (Nat × Nat) :=
  match encodeSc i with
  | some w => some (32, w)
  | none => match encodeEng i with
    | some w => some (16, w)
    | none => (encodeSlot i).map (fun w => (64, w))

end Sys2Proof
end

