-- ==== Sys2Proof/Machine/State.lean ====
section
/-! DEFINITION. The state of the machine as plain data: everything the spec gives the module, its dies, clusters and cores, and the model's own agenda; the reasons a step can stop; and the state after reset. Tables indexed by a number are sorted lists that may leave out entries at their reset value. -/

namespace Sys2Proof.Machine

/-- A table by number: an unlisted number holds the table's reset value. -/
abbrev Sparse (α : Type) := List (Nat × α)

/-- The entry of a table, or its reset value `d`. -/
def sget {α : Type} (d : α) : Sparse α → Nat → α
  | [], _ => d
  | (k, v) :: t, n => if k = n then v else sget d t n

/-- Writes an entry, keeping the numbers ascending. -/
def sset {α : Type} : Sparse α → Nat → α → Sparse α
  | [], n, v => [(n, v)]
  | (k, w) :: t, n, v => if k = n then (n, v) :: t else if n < k then (n, v) :: (k, w) :: t else (k, w) :: sset t n v

/-- Memory: bytes by address, ascending, no byte that equals what an unlisted address reads as (0, log 7). -/
abbrev Memory := List Host.Cell

/-- What an address that nothing has written reads as (log 7). -/
def unlisted : Byte := 0

/-- The canonical form of a memory: ascending addresses, no entry equal to `unlisted`. -/
def Memory.wfFrom : Nat → Memory → Bool
  | _, [] => true
  | lo, (a, b) :: t => decide (lo ≤ a) && b != unlisted && Memory.wfFrom (a + 1) t

/-- The canonical form of a memory. -/
def Memory.wf (m : Memory) : Bool := Memory.wfFrom 0 m

/-- A sequencer of a core (01 R18). -/
inductive Sequencer where
  | sc | ld | cp | st
deriving DecidableEq, Repr

/-- The party that acts: an SC context, or an engine (16 R280); the codes of 24 R324. -/
inductive Party where
  | sc (ctx : Nat)
  | ld
  | cp
  | st
deriving DecidableEq, Repr

/-- MODEL. Which party the current instruction belongs to, and the slot of its bundle (log 2). -/
structure Who where
  core : Nat
  party : Party
  slot : Slot
deriving DecidableEq, Repr

/-- What a fault says of itself (24 R324, R325). -/
structure FaultInfo where
  code : Nat
  detail : Nat
  faddr : Nat
deriving DecidableEq, Repr

/-- What modules send each other (17 R297): a KVCP's copy of bytes to an offset of page `page` of the pool `pool`, whose pages have `size` bytes; its count update; the question whether the page is one of the pool, where nothing else is sent; or the answer to one of these, with its fault if it failed. -/
inductive Packet where
  | copy (pool page size off : Nat) (bytes : List Byte)
  | inc (pool page : Nat)
  | check (pool page : Nat)
  | ack (fault : Option FaultInfo)
deriving DecidableEq, Repr

/-- A packet to or from another module, by the port it takes (17 R296, R297); the core, engine and number are those of the command that it belongs to, of the module that runs that. -/
structure Parcel where
  module_ : Nat
  port : Nat
  core : Nat
  e : Eng
  cmd : Nat
  packet : Packet
deriving DecidableEq, Repr

/-- A packet of another module that the hub works on (17 R297): the bytes read of its pool's descriptor so far, and how many of its own are written. -/
structure Inbound where
  parcel : Parcel
  got : List Byte := []
  done : Nat := 0
deriving DecidableEq, Repr

/-- MODEL. One turn of the agenda: a sequencer of a core takes its next instruction, a step of the hardware or of the host happens, a cycle of 1.2 GHz passes (log 1), a packet of another module arrives, an error that the ECC can correct arises in a 32-byte word of HBM (25 R353), the reply that a CP access of a core waits for comes late, or comes (23 R319, log 76), a die or the hub begins a walk (16 R287, log 18), or the hub goes on with a packet of another module that has arrived (17 R297). -/
inductive Turn where
  | issue (core : Nat) (q : Sequencer)
  | event (i : Instr)
  | tick
  | packet (p : Parcel)
  | upset (word : Nat)
  | late (core : Nat)
  | ready (core : Nat)
  | walk (die tctx va : Nat) (write : Bool)
  | inbound (i : Nat)
deriving DecidableEq, Repr

/-- The home of a location (06 R104): an offset of a slice, or a physical address under a key. -/
inductive Loc where
  | slice (core off : Nat)
  | hbm (pa key : Nat)
deriving DecidableEq, Repr

/-- The operations of the home's atomic unit (12 R183). -/
inductive AtomicOp where
  | add | and | or | xor | swp | max | min | maxu | minu | cas | fmax | fmin | fadd
deriving DecidableEq, Repr

/-- What an SC access does at its home (12 R181, R183, R189, R196). -/
inductive AccOp where
  | load (signed : Bool)
  | store (v : Word)
  | atomic (op : AtomicOp) (v e : Word) (ret : Bool)
  | dqpush (v : Word)
  | dqtake
  | dqsteal
  | lntw (n : Nat)
deriving DecidableEq, Repr

/-- An access of an SC context that has issued and is not yet performed (06 R104). -/
structure Access where
  seq : Nat
  core : Nat
  ctx : Nat
  cls : Nat
  pc : Word
  va : Nat
  loc : Loc
  op : AccOp
  size : Nat
  xd : Nat
  hold : Bool
  tctx : Nat
  stamp : Nat
  issued : Nat
  arrived : Bool
deriving DecidableEq, Repr

/-- A reply on its way to its context (12 R176). -/
structure Reply where
  core : Nat
  ctx : Nat
  xd : Nat
  value : Word
  hold : Bool
  pc : Word
  fault : Option FaultInfo
  access : Option Access
deriving DecidableEq, Repr

/-- Status of an SC context (04 R66, R68). -/
inductive CtxStatus where
  | dormant | running | exited
deriving DecidableEq, Repr

/-- The wait in which an SC context stands (04 R68, R78); of FMTQ with the number of its issue (04 R72). -/
inductive Wait where
  | none
  | waite (e : Eng) (n : Word)
  | waitp
  | fence (scope : Scope) (mask : BitVec 16)
  | stores
  | commits
  | barw (bar : Nat)
  | quiet
  | wfe
  | fmtq (n : Nat)
  | pclose
  | gate (cls : Nat) (home : Nat)
  | wheel
  | walk (page : Nat)
  | lntw (n : Nat)
  | reply
deriving DecidableEq, Repr

/-- An operation of a context that acts once its earlier stores are performed, or in order behind one that does (12 R205, R193, R200; 10 R150). -/
inductive CtxOpKind where
  | csrw (n : Nat) (v : Word)
  | csrr (n xd : Nat)
  | launch (xd : Nat) (xa : Word)
  | route (xd : Nat) (xa : Word)
deriving DecidableEq, Repr

structure CtxOp where
  seq : Nat
  kind : CtxOpKind
deriving DecidableEq, Repr

/-- A recorded failure of a store (12 R186): its class, its home, and LINK or REF. -/
structure FailRec where
  cls : Nat
  home : Nat
  link : Bool
deriving DecidableEq, Repr

/-- An SC context (12 R175, 04 R68). `barIdle` notes that the barrier of its BARW has had TARGET 0 during the wait (23 R320). `hook` marks a hook: the cycles of its budget left, and whether it has issued (23 R314). -/
structure Ctx where
  regs : Sparse Word := []
  pc : Word := 0
  status : CtxStatus := .dormant
  wait : Wait := .none
  waitFrom : Nat := 0
  busy : List Nat := []
  holds : Nat := 0
  fails : List FailRec := []
  ops : List CtxOp := []
  lngos : List (Nat × Nat) := []
  barrivals : List (Nat × Nat × Nat) := []
  invals : List Nat := []
  phases : Sparse Bool := []
  flag : Bool := false
  barIdle : Bool := false
  slot : Option Nat := none
  hook : Option (Nat × Bool) := none
  lres : Word := 0
  ldsel : Word := 0
  written : List (Nat × Nat) := []
  reissue : List Access := []
deriving DecidableEq, Repr

/-- A ring (06 R106, R107). The pointers count tiles since the ring was set: HEAD is (head mod places) times the tile size and HW the parity of head divided by the places, and so for TAIL. `arrived` holds the pushes that wait for a place, in their order of arrival, by core and command. -/
structure Ring where
  v : Bool := false
  tileu : BitVec 12 := 0
  bytes : BitVec 21 := 0
  basek : BitVec 12 := 0
  head : Nat := 0
  tail : Nat := 0
  res : Nat := 0
  filled : List Nat := []
  signals : List (Nat × Nat × Nat) := []
  popped : List Nat := []
  arrived : List (Nat × Nat) := []
deriving DecidableEq, Repr

/-- A cluster barrier (06 R108). `queue` holds the senders of arrivals of multicast tiles that it has not applied. -/
structure Barrier where
  target : BitVec 16 := 0
  phase : Bool := false
  count : BitVec 16 := 0
  queue : List Nat := []
deriving DecidableEq, Repr

/-- The patch registers of a slot (03 R37, R38). -/
structure PatchSlot where
  pb : BitVec 32 := 0
  pp : BitVec 32 := 0
  ps : BitVec 32 := 0
  pl : BitVec 8 := 0
  pt : BitVec 16 := 0x7C00
  pm : BitVec 8 := 0xFF
  endc : BitVec 4 := 0
  lcause : BitVec 2 := 0
  gen : Bool := false
  state : BitVec 2 := 0
  pv : BitVec 64 := 0
deriving DecidableEq, Repr

/-- A boundary-trap queue entry (03 R47, R48): slot, cause, the map entry and its hall address, and the cycle of the close. -/
structure BTrap where
  slot : Nat
  cause : Nat
  entry : BitVec 128
  addr : Nat
  at_ : Nat
deriving DecidableEq, Repr

/-- A data arrival waiting for a context (04 R69, 15 R277). -/
structure Arrival where
  launch : Nat
  handler : Nat
  x1 : Word
  dst : Word
  bytes : Word
  x4 : Word
  at_ : Nat
deriving DecidableEq, Repr

/-- A loop-nest table (04 R73). -/
structure Lnt where
  shadow : BitVec 512 := 0
  live : BitVec 512 := 0
  go : Bool := false
deriving DecidableEq, Repr

/-- A token queue (04 R70, 05 R95). -/
structure TokQ where
  count : Nat := 0
  cap : Nat := 16
  enl : Nat := 0
deriving DecidableEq, Repr

/-- A data command of LD or ST, in its queue or in flight (15 R266). `pos` counts the halves of units done, `sub` the bytes done of the current one, `buf` holds bytes read and not yet written, `locs` where the page of a KVCP lies once translated (28 R375), `acks` the ports of the packets that another module has not acknowledged (17 R297), `faultedAt` the cycle of its fault. -/
structure Cmd where
  num : Nat
  op : Instr
  args : List Word
  pc : Nat
  jidx : Nat := 0
  dequeuedAt : Nat := 0
  started : Bool := false
  pos : Nat := 0
  sub : Nat := 0
  buf : List Byte := []
  locs : List Loc := []
  acks : List Nat := []
  aux : List Word := []
  lnt : BitVec 512 := 0
  place : Nat := 0
  targets : List (Nat × Nat) := []
  prog : Nat := 0
  accessed : Bool := false
  finished : Bool := false
  faulted : Option FaultInfo := none
  faultedAt : Nat := 0
  sent : Bool := false
  replay : Bool := false
deriving DecidableEq, Repr

/-- Status of an engine (12 R191). -/
inductive EngStatus where
  | idle | running | ended
deriving DecidableEq, Repr

/-- What an engine's sequencer waits on (12 R191, 05 R95). -/
inductive EngWait where
  | none | token (q : Nat) | push (q : Nat) | queue | ring | number | other
deriving DecidableEq, Repr

/-- A SEND on its way (15 R277, 25 R343); `done` counts the payload bytes written at its slice. -/
structure Message where
  core : Nat
  cmd : Nat
  dst : Nat
  bytes : List Byte
  tag : Nat
  handler : Nat
  tctx : Nat
  mark : Bool
  done : Nat := 0
deriving DecidableEq, Repr

/-- A message in the replay queue of ST (25 R344): when it is due, its backoff, and whether it is out again. -/
structure Replay where
  msg : Message
  due : Nat
  backoff : Nat
  out : Bool
deriving DecidableEq, Repr

/-- An LD or ST engine (15 R259, R266). -/
structure Engine where
  stack : List Word := []
  e : Sparse Word := []
  lc0 : BitVec 32 := 0
  lc1 : BitVec 32 := 0
  ls0 : BitVec 13 := 0
  ls1 : BitVec 13 := 0
  pc : Nat := 0
  status : EngStatus := .idle
  skip : Option Nat := none
  wait : EngWait := .none
  queue : List Cmd := []
  cap : Nat := 8
  enl : Nat := 0
  flight : List Cmd := []
  lastNum : Nat := 0
  cn : Nat := 0
  ahead : List Nat := []
  lastDequeue : Option Nat := none
  paced : Bool := false
  pushes : List (Nat × Nat) := []
  halted : Bool := false
  replays : List Replay := []
deriving DecidableEq, Repr

/-- A result of the CP on its way to its register (04 R76, R77). Vector results carry the bits they change. -/
inductive CpWrite where
  | vec (phys : Nat) (bits value : Vec)
  | k (n : Nat) (v : Word)
  | m (n : Nat) (v : Mask)
  | h (n : Nat) (v : Hyper)
  | ht (v : Hyper)
  | q (phys : Nat) (v : Bool)
  | bank (n : Nat) (v : Bank)
  | hcfg (hrb : Word) (hrn : Word)
  | table (v : BitVec 10240)
deriving DecidableEq, Repr

/-- A result and the bundle number at which it becomes visible (04 R77); `load` marks one that an access to the own slice brings (23 R319). -/
structure InFlight where
  due : Nat
  write : CpWrite
  load : Bool := false
deriving DecidableEq, Repr

/-- A live CP loop level (13 R230). -/
structure CpLoop where
  level : Nat
  start : Nat
  close : Nat
  rot : Bool
deriving DecidableEq, Repr

/-- A REP in force (13 R233): its count and strides. The iteration is n - REPCNT. -/
structure RepRun where
  n : Nat
  st : Strides
deriving DecidableEq, Repr

/-- What follows the bundle that issues (13 R229-R234): the next bundle with the end processing of loops, a branch taken or a loop of count 0, a REP begun, a REP of count 0, the end of the stream. -/
inductive CpNext where
  | seq
  | jump (pc : Nat)
  | begin_
  | skip
  | stop
deriving DecidableEq, Repr

/-- A bundle that has issued and not finished: the tokens it pushes, and the cycle of the CP's pipelines by which its results are written; its matrix entry may still have to retire (04 R71). -/
structure OpenBundle where
  bundle : Nat
  su : Bool
  sd : Bool
  ready : Nat
deriving DecidableEq, Repr

/-- A matrix-queue entry (14 R236). -/
structure MqEntry where
  op : Instr
  num : Nat
  bundle : Nat
  pc : Nat
  source : Vec
  mask : Mask
  entered : Nat
  readyAt : Option Nat := none
deriving DecidableEq, Repr

/-- A dequeued matrix-queue entry (14 R237, R243). -/
structure MqRun where
  entry : MqEntry
  start : Nat
  occ : Nat
  word : BitVec 64
  placeA : Nat
  placeB : Nat
  jidx : Nat
deriving DecidableEq, Repr

/-- A fault of the matrix queue that is held while the core is halted (24 R337), with its cycle. -/
structure MqFault where
  fault : FaultInfo
  num : Nat
  pc : Nat
  at_ : Nat
deriving DecidableEq, Repr

/-- The CP (01 R19, 13, 14). `clock` counts the cycles of its pipelines, which a stall holds (04 R76); `ready` is the cycle by which the results of the bundle that issues are written. -/
structure Cp where
  pc : Nat := 0
  ctl : CpNext := .seq
  ending : Bool := false
  status : EngStatus := .idle
  wait : EngWait := .none
  waitFrom : Nat := 0
  k : Sparse Word := []
  lc : Sparse (BitVec 32) := []
  m : Sparse Mask := []
  q : Sparse Bool := []
  rrb : BitVec 6 := 0
  rotate : Bool := false
  loops : List CpLoop := []
  repcnt : BitVec 16 := 0
  rep : Option RepRun := none
  issued : Nat := 0
  clock : Nat := 0
  ready : Nat := 0
  pend : List InFlight := []
  opens : List OpenBundle := []
  pushes : List (Nat × Nat) := []
  mq : List MqEntry := []
  mqCap : Nat := 8
  mqEnl : Nat := 0
  mflight : List MqRun := []
  mqLast : Option (Nat × Nat) := none
  lastDequeue : Option Nat := none
  paced : Bool := false
  halted : Bool := false
  fault : Option MqFault := none
  lastNum : Nat := 0
  cn : Nat := 0
  ahead : List Nat := []
  table : BitVec 10240 := 0
  h : Sparse Hyper := []
  b : Sparse Bank := []
  ht : Hyper := 0
  hrb : Word := 0
  hrn : Word := 0
deriving DecidableEq, Repr

/-- The core CSRs of 11 R167 that are plain registers; `hkreq` is a hook that waits for a context: its block address and its HKZ (09 R144). -/
structure Csrs where
  img : Word := 0
  arg : Word := 0
  recAddr : Word := 0
  pos : Word := 0
  paceLd : BitVec 16 := 0
  paceCp : BitVec 16 := 0
  paceSt : BitVec 16 := 0
  pmbase : Word := 0
  pmcnt : BitVec 32 := 0
  bhaddr : Word := 0
  rtbase : Word := 0
  rssize : Word := 0
  dirtycap : BitVec 12 := 2048
  inlim : BitVec 21 := 0
  hkst : Word := 0
  hkz : Word := 0
  hkreq : Option (Word × Word) := none
  rplive : Word := 0
  evc : Sparse Word := []
  evsel : Sparse (BitVec 9) := []
deriving DecidableEq, Repr

/-- A launch record, read (04 R60). -/
structure Record where
  image : Word
  args : Word
  loop : List (BitVec 32)
  prio : Nat
  node : Nat
  tag : BitVec 32
  prod0 : BitVec 32
  prod1 : BitVec 32
  cond : Word
deriving DecidableEq, Repr

/-- What the scheduler keeps of an image header (02 R33). -/
structure Header where
  magic : Nat
  version : Nat
  flags : Nat
  allot : Nat
  spneed : Nat
  lat : BitVec 128
  ovl : List (Nat × Nat)
  wheel : Nat
deriving DecidableEq, Repr

/-- A record that has been read and checked and waits to be placed (05 R82-R84); `index` is its record index in its queue. -/
structure HeldRec where
  id : Nat
  body : Record
  hdr : Header
  producers : List Nat
  eligible : Option Nat
  addr : Word
  tctx : Nat
  inlim : Nat
  rows : BitVec 1024
  step : Option Nat
  index : BitVec 32
deriving DecidableEq, Repr

/-- The launch that a core runs (04 R60-R66, 05 R88-R89), with its record, which the save frame keeps (26 R357), and the rings of overlay 7. -/
structure Running where
  launch : Nat
  held : HeldRec
  src : Source
  frame : Nat
  area : Nat
  spneed : Nat
  regs : List Nat
  allot : Nat
  wheelP : Nat
  wheelN : Nat
  tctx : Nat
  padmask : BitVec 64
  lat : BitVec 128
  c : Nat
  d : Nat
  t : Nat
  loaded : Bool
  ready : Bool
  started : Bool
  complete : Bool
  trigPending : List (Nat × Nat)
  trigSent : Bool
  stampUsed : Option Nat
  jcount : Nat
  ring0 : Sparse Ring
deriving DecidableEq, Repr

/-- The part of a core's state that belongs to the running launch's sequencers and is saved with it (05 R93). -/
structure Seqs where
  ctxs : Sparse Ctx := []
  ld : Engine := {}
  st : Engine := {}
  cp : Cp := {}
  fq : List Word := []
  fqCap : Nat := 32
  fqEnl : Nat := 0
  toks : Sparse TokQ := []
  lnts : Sparse Lnt := []
  rings : Sparse Ring := []
  bars : Sparse Barrier := []
  arrivals : List Arrival := []
  waitSince : Option Nat := none
deriving DecidableEq, Repr

/-- An accumulator element (08 R129): A as M and G, X and F. -/
structure AccElem where
  m : BitVec 48 := 0
  g : BitVec 16 := 0
  x : BitVec 16 := 0
  f : BitVec 16 := 0
deriving DecidableEq, Repr

/-- An accumulator tile: 4096 elements, row-major, and its depth counter. -/
structure Tile where
  elems : Sparse AccElem := []
  depth : BitVec 16 := 0
deriving DecidableEq, Repr

/-- A pre-empted launch resident on a core (05 R93): what was saved in its frame; `saved` lists the parts of its units that lie in the global save area, none while no later launch has been loaded. -/
structure Parked where
  run : Running
  seqs : Seqs
  csrs : Csrs
  saved : Option (List Nat)
deriving DecidableEq, Repr

/-- Why a core is frozen (23 R319). A rail switch freezes through its cluster's BUSY. -/
inductive FreezeCause where
  | late | sram | dirtyCap
deriving DecidableEq, Repr

structure Freeze where
  cause : FreezeCause
  since : Nat
  until_ : Nat
deriving DecidableEq, Repr

/-- A stop in force (24 R323, R333): the code of its record, and the save frame that holds it. -/
structure Stop where
  code : Nat
  frame : Nat
deriving DecidableEq, Repr

/-- A stop whose record is not written yet, since commands that have made an access still finish (24 R323): what the record will say, and the cycle of the fault. -/
structure Stopping where
  eng : Nat
  isw : Nat
  faddr : Nat
  num : Nat
  flags : Nat
  pc : Nat
  cycle : Nat
deriving DecidableEq, Repr

/-- Debug control of a core (24 R333-R337). `accepting` names the operation of the word that a step has issued, while that waits to be accepted; `injFrom` is the number of the first access that an injected sequence may make. -/
structure Debug where
  halt : Bool := false
  qhold : Bool := false
  party : BitVec 3 := 0
  injV : Bool := false
  injOff : BitVec 22 := 0
  stepping : Bool := false
  accepting : Option Nat := none
  injecting : Bool := false
  injCount : Nat := 0
  injFrom : Nat := 0
  savedPc : Word := 0
  pend : Bool := false
deriving DecidableEq, Repr

/-- A core's state beside its SRAM (01 R12, 07 R112). `yielded` holds the contexts that give up their next issue turn (12 R194). -/
structure Arch where
  seqs : Seqs := {}
  csrs : Csrs := {}
  run : Option Running := none
  parked : List Parked := []
  slots : Sparse PatchSlot := []
  btraps : List BTrap := []
  locks : List Nat := []
  lastSc : Nat := 3
  yielded : List Nat := []
  freeze : Option Freeze := none
  time : Nat := 0
deriving DecidableEq, Repr

/-- One cellar copy of an SRAM block (07 R112, 26 R354): its generation, its data, the poison marks of its four granules (25 R350), and the stored CRC-32 xor the one that its bytes have. -/
structure CellarCopy where
  gen : Nat := 0
  data : BitVec 2048 := 0
  poison : BitVec 4 := 0
  crc : BitVec 32 := 0
deriving DecidableEq, Repr

/-- The other state of a core that the cellar shadows in blocks 32768 to 33727 (07 R112): its small state, the depth counters, and the stop in force. -/
structure Other where
  arch : Arch := {}
  depths : Sparse (BitVec 16) := []
  stop : Option Stop := none
deriving DecidableEq, Repr

/-- What a block of other state holds: nothing, as formatted; 256 bytes of registers, queued sources or results; or fields of `Other`, the reset values beside them (log 20). -/
inductive OtherData where
  | blank
  | bits (v : Nat)
  | part (o : Other)
deriving DecidableEq, Repr

/-- One cellar copy of a block of other state. -/
structure OtherCopy where
  gen : Nat := 0
  data : OtherData := .blank
  crc : BitVec 32 := 0
deriving DecidableEq, Repr

/-- A commit record (26 R354), with the stored CRC-32 xor the one that its bytes have. -/
structure CommitRec where
  gen : Nat := 0
  core : Nat := 0
  cause : Nat := 3
  blocks : Nat := 0
  cycle : Nat := 0
  crc : BitVec 32 := 0
deriving DecidableEq, Repr

/-- The cellar of a core (07, 26). `dirty` lists the dirty blocks; `seen` is the other state as of the last note of its writes (log 24). `copies` and `others` are by block number, two for each block k: numbers 2k and 2k + 1. -/
structure Cellar where
  cg : Nat := 0
  res : BitVec 2 := 0
  cap : Nat := 2048
  dirty : List Nat := []
  seen : Other := {}
  drained : Nat := 0
  copies : Sparse CellarCopy := []
  others : Sparse OtherCopy := []
  rec0 : CommitRec := {}
  rec1 : CommitRec := {}
  gen : BitVec 32 := 0
  bad : BitVec 16 := 0
  exh : Bool := false
  torn : Bool := false
  state : BitVec 2 := 0
deriving DecidableEq, Repr

/-- Power state of a core: on, gated, waking, in the hold-up sequence of its die, off with cellar state (07 R117, 26 R355, R357). -/
inductive Gate where
  | on | off | waking (readyAt : Nat) | holdup | held
deriving DecidableEq, Repr

/-- A core (01 R10-R19). `second` is set while a party's fault is taken in whose cycle another party faults too (24 R323). `cutting` is set while a cut waits for the core's commands, `leaving` while a pre-emption does (05 R93), `killing` while a KILL does (24 R334); nothing issues then (07 R114). `mended` holds the bytes of the poisoned granules of the scratchpad that have been rewritten since (25 R350). -/
structure Core where
  arch : Arch := {}
  spad : Memory := []
  vrf : Sparse Vec := []
  acc : Sparse Tile := []
  imSc : Memory := []
  imLd : Memory := []
  imCp : Memory := []
  imSt : Memory := []
  poisonSpad : List Nat := []
  mended : Sparse (BitVec 64) := []
  poisonVrf : List Nat := []
  poisonIm : List (Nat × Nat) := []
  cellar : Cellar := {}
  gate : Gate := .on
  stop : Option Stop := none
  stopping : Option Stopping := none
  second : Bool := false
  cutting : Bool := false
  leaving : Bool := false
  killing : Bool := false
  dbg : Debug := {}
deriving DecidableEq, Repr

/-- A cluster (07 R118, 01 R13, 05 R95). -/
structure Cluster where
  sel : Bool := false
  busy : Bool := false
  switchAt : Nat := 0
  waiting : Option Bool := none
  pantry : Nat := 64
deriving DecidableEq, Repr

/-- A live launch (05 R83). `leaving` is set while its pre-emption waits for its cores (05 R93). -/
structure Launch where
  id : Nat
  held : HeldRec
  src : Source
  cohort : List Placement
  startedAt : Nat
  started : List Nat
  triggered : List Nat
  completed : List Nat
  loadedAll : Bool
  leaving : Bool
  parked : Bool
deriving DecidableEq, Repr

/-- A work queue (05 R79). `take` says which of the records ahead are skipped and where a loop node stands (05 R86). -/
structure WorkQueue where
  base : BitVec 52 := 0
  inlimit : BitVec 21 := 0x100000
  ctx : BitVec 12 := 0
  log2 : BitVec 4 := 4
  en : Bool := false
  head : BitVec 32 := 0
  tail : BitVec 32 := 0
  badidx : BitVec 32 := 0
  err : BitVec 8 := 0
  held : Option HeldRec := none
  placing : Bool := false
  skips : List (Nat × Nat) := []
  loops : List (Nat × Nat × List Nat) := []
deriving DecidableEq, Repr

/-- An entry of the landing (03 R50), with the cycle of its append. -/
structure LandEntry where
  map : BitVec 128
  vec : Word
  seq : BitVec 32
  lsn : BitVec 32
  at_ : Nat
deriving DecidableEq, Repr

/-- A translation held by a die's unit (06 R101, R103). `big` marks a 2 MiB page. -/
structure TlbEntry where
  ctx : Nat
  page : Nat
  big : Bool
  pa : Nat
  key : Nat
  w : Bool
  d : Bool
deriving DecidableEq, Repr

/-- Who waits for a walk (25 R340). -/
inductive Walker where
  | sc (core ctx : Nat)
  | eng (core : Nat) (e : Eng) (cmd : Nat)
  | routing
  | replication
deriving DecidableEq, Repr

/-- A walk, running or waiting for a place (06 R103). `node` is the level and the node it has come to, none before the root is read (16 R287). -/
structure Walk where
  ctx : Nat
  page : Nat
  va : Nat
  write : Bool
  waiters : List (Walker × Nat × Bool)
  node : Option (Nat × Nat) := none
deriving DecidableEq, Repr

/-- A routing pass (10 R148, R150). -/
structure RoutePass where
  ticket : BitVec 32
  entry : BitVec 512
  tctx : Nat
deriving DecidableEq, Repr

/-- The pass that runs (10 R151): the next row, its valid bit and scores read so far, the writes still to perform, the places of the histogram's counts found so far, the counts, how many of them are written, and a fault. -/
structure RouteRun where
  pass : RoutePass
  row : Nat
  valid : Option Bool
  scores : List (BitVec 32)
  outs : List (Nat × List Byte)
  hlocs : List Loc
  hist : Sparse Nat
  counts : Nat
  histDone : Bool
  fault : Option (Nat × Nat)
deriving DecidableEq, Repr

/-- A copy by the replication engine (10 R156). -/
structure ReplCopy where
  expert : Nat
  dst : Nat
  src : Nat
  pos : Nat
  buf : List Byte
deriving DecidableEq, Repr

/-- A compute die (01 R20). -/
structure Die where
  en : Bool := false
  inv : Bool := false
  sctx : BitVec 12 := 0
  sinlim : BitVec 21 := 0
  serr : BitVec 8 := 0
  stepmin : BitVec 16 := 64
  stepwait : BitVec 32 := 1200
  stepmax : BitVec 16 := 1024
  steprec : Word := 0
  steptab : Word := 0
  template : BitVec 512 := 0
  stepNo : BitVec 32 := 0
  outstanding : List Nat := []
  landing : List LandEntry := []
  lsn : BitVec 32 := 0
  pool : List HeldRec := []
  tlb : List TlbEntry := []
  walks : List Walk := []
  rtab : Sparse (BitVec 512) := []
  rqueue : List RoutePass := []
  rrun : Option RouteRun := none
  ticket : BitVec 32 := 0
  rtdone : BitVec 32 := 0xFFFFFFFF
  rterr : Word := 0
  repen : Bool := false
  repctx : BitVec 12 := 0
  repthr : BitVec 32 := 0
  rptab : Word := 0
  xbase : Word := 0
  xsz : Word := 0
  loadc : Sparse Nat := []
  live : Bool := false
  applied : Bool := false
  updates : List (Nat × Nat) := []
  captures : List (Nat × Bool) := []
  oldCaptures : List Nat := []
  rcopy : Option ReplCopy := none
  rcopyFault : Bool := false
  sramc : BitVec 16 := 0
  resid : BitVec 16 := 0
  hbmc : BitVec 16 := 0
  flitr : BitVec 16 := 0
  power : Bool := true
  holdup : Option Nat := none
deriving DecidableEq, Repr

/-- State of a link (25 R345-R347): of an external port as STATE codes it; of an on-package link 1 up, 2 retraining, 3 dead; with the flits up to its last mismatch and the places of the last 16 mismatches among them, the newest first. -/
structure LinkState where
  state : BitVec 2 := 0
  retrains : BitVec 16 := 0
  peer : BitVec 16 := 0xFFFF
  disable : Bool := false
  failures : Nat := 0
  since : Nat := 0
  flit : Nat := 0
  mismatches : List Nat := []
deriving DecidableEq, Repr

/-- A trust command in progress (17 R299). -/
inductive TrustCmd where
  | attest (nonce : BitVec 256)
  | keyload (id : Nat) (wrapped : BitVec 576)
  | keyclr (id : Nat)
deriving DecidableEq, Repr

/-- A vector table entry (17 R293). -/
structure VecEntry where
  addr : BitVec 64 := 0
  data : BitVec 32 := 0
  mask : Bool := false
  pend : Bool := false
deriving DecidableEq, Repr

/-- A translation invalidation in progress (06 R103): whose it is, the context, the page or all, and the accesses, commands and routing passes that it waits for. -/
structure Inval where
  id : Nat
  core : Nat
  ctx : Nat
  tctx : Nat
  page : Option Nat
  accesses : List Nat
  cmds : List (Nat × Eng × Nat)
  passes : List (Nat × BitVec 32)
deriving DecidableEq, Repr

/-- Where the page lies that a KVCP of another module copies to (17 R297, 28 R375): whose command it is, its context, its address and size, and the places of its 64 KiB pages found so far. -/
structure ImportPage where
  module_ : Nat
  core : Nat
  e : Eng
  cmd : Nat
  tctx : Nat
  base : Nat
  size : Nat
  locs : List Loc
deriving DecidableEq, Repr

/-- The hub (05, 17, 24 R326). -/
structure Hub where
  queues : Sparse WorkQueue := []
  last : Sparse Nat := []
  chosen : List Nat := []
  launches : List Launch := []
  nextId : Nat := 0
  holders : List (Nat × Nat) := []
  owners : Sparse Nat := []
  bootst : BitVec 2 := 0
  bootcode : BitVec 8 := 0
  apkey : BitVec 13 := 0
  plimit : BitVec 32 := 230400
  sampEn : Bool := false
  sampPeriod : BitVec 24 := 0
  sampbuf : BitVec 64 := 0
  samphead : Word := 0
  sampSeq : Sparse Nat := []
  sampAt : Sparse Nat := []
  tmbox : Sparse Byte := []
  trust : Option TrustCmd := none
  ctxbase : BitVec 64 := 0
  savebase : BitVec 64 := 0
  agelimit : BitVec 32 := 1200000
  vectors : Sparse VecEntry := []
  posted : List (BitVec 64 × BitVec 32) := []
  fltbase : BitVec 64 := 0
  flthead : Nat := 0
  fltovf : Bool := false
  fltack : Word := 0
  moduleNumber : Nat := 0
  routes : Sparse (BitVec 18) := []
  imports : Sparse Nat := []
  links : Sparse LinkState := []
  keys : Sparse Key := []
  keySerial : Nat := 0
  level : BitVec 3 := 0
  powerAt : Nat := 0
  repReqs : List (Nat × Nat × Nat) := []
  serving : Option (Nat × Nat) := none
  wheel : BitVec 12 := 0
  round : BitVec 32 := 0
  wheelAt : Nat := 0
  hostReads : List (List Byte) := []
  walks : List Walk := []
  outbound : List Parcel := []
  inbound : List Inbound := []
  importing : List ImportPage := []
  firmware : BitVec 384 := 0
  block : BitVec 384 := 0
deriving DecidableEq, Repr

/-- MODEL. What a turn claims of the current cycle, where the spec orders what happens in one cycle (log 77): an access at a slice, with its deque and whether it steals; or a resource of a kind, by its number, with a rank. -/
inductive Claim where
  | access (home core rank : Nat) (deque : Option (Nat × Bool))
  | rank (kind index n : Nat)
deriving DecidableEq, Repr

/-- MODEL. Who arrives at a slice that performs nothing now (07 R117): an access of a context by its number, a command, a message, a unit of a die, or anything else. -/
inductive Arriver where
  | access (seq : Nat)
  | command (core : Nat) (e : Eng) (num : Nat)
  | message (core cmd : Nat)
  | unit (die : Nat)
  | other
deriving DecidableEq, Repr

/-- The state of the machine. `hbmBad` holds the uncorrectable words of HBM, `hbmSoft` those with an error that the ECC corrects, `hbmMended` the bytes of either that have been rewritten since (25 R353). `arrived` holds what has arrived at slices that are off, in order (07 R117); `blocked` is set within a turn that an access on the spot has to give up, by its slice, or 512 where a link retrains (log 18). -/
structure State where
  agenda : List Turn := []
  today : List Claim := []
  who : Who := ⟨0, .sc 0, .c⟩
  now : Nat := 0
  seq : Nat := 0
  free : Nat := 0
  cores : Sparse Core := []
  clusters : Sparse Cluster := []
  dies : Sparse Die := []
  hub : Hub := {}
  hbm : Memory := []
  hbmKeys : Sparse Key := []
  hbmBad : List Nat := []
  hbmSoft : List Nat := []
  hbmMended : Sparse (BitVec 32) := []
  accesses : List Access := []
  replies : List Reply := []
  invals : List Inval := []
  messages : List Message := []
  retries : List Message := []
  arrived : List (Nat × Arriver) := []
  blocked : Option Nat := none
deriving DecidableEq, Repr

/-- Why the machine cannot take a turn. -/
inductive Fault where
  /-- Raised by step for a turn `event i` whose `i` is an instruction of a sequencer, not an operation of the hardware or of the host: the agenda is ill-formed. Safe: no run of the hardware holds such a turn. -/
  | notAnEvent
deriving DecidableEq, Repr

/-- Why an instruction has no meaning. -/
inductive Refusal where
  /-- Raised by an arm of exec that has no meaning yet. Safe: the run stops. -/
  | notModelled (mnemonic : String)
deriving DecidableEq, Repr

/-- What a step answers. -/
abbrev Result := Host.Outcome State Fault Refusal

/-- The machine after power-on reset: every field at the value the spec gives, or at the value that a log entry names. -/
def State.reset : State := {}

end Sys2Proof.Machine
end

