-- ==== Sys2Proof/Machine/Flags.lean ====
section
/-! DEFINITION. The accumulator element and its sticky flags (spec 08 R129-R131, 25 R351-R352): accumulating a block partial, normalising, converting, and clearing. -/

namespace Sys2Proof.Machine

/-- Bits of F (08 R129). -/
def fOvf : BitVec 16 := 1
def fInx : BitVec 16 := 2
def fXr : BitVec 16 := 4
def fNan : BitVec 16 := 8
def fPsn : BitVec 16 := 16

/-- A = sext(G:M, 64) (08 R129). -/
def AccElem.a (e : AccElem) : Int := sextNat 64 (e.g.toNat * 2 ^ 48 + e.m.toNat)
/-- X as a signed number. -/
def AccElem.xs (e : AccElem) : Int := sextNat 16 e.x.toNat

/-- The element with A and X written. -/
def AccElem.setAX (e : AccElem) (a x : Int) : AccElem :=
  let w := wrapInt 64 a
  { e with m := BitVec.ofNat 48 w, g := BitVec.ofNat 16 (w / 2 ^ 48), x := BitVec.ofNat 16 (wrapInt 16 x) }

def AccElem.setF (e : AccElem) (bits : BitVec 16) : AccElem := { e with f := e.f ||| bits }

/-- One K-block partial P of exponent f added to an element (08 R130). -/
def accumulate (e : AccElem) (p f : Int) : AccElem :=
  if p = 0 then e
  else
    let k := f - e.xs
    let lim : Int := 2 ^ 63
    let (t, bits) : Int × BitVec 16 :=
      if 40 < k then ((if 0 < p then lim - 1 else -lim), fOvf)
      else if 0 ≤ k then (e.a + p * 2 ^ k.toNat, 0)
      else
        let r := roundInt .rne (decide (p < 0)) p.natAbs k
        (e.a + r, if p.natAbs % 2 ^ (-k).toNat = 0 then 0 else fInx)
    let ovf : BitVec 16 := if lim - 1 < t ∨ t < -lim then fOvf else 0
    (e.setAX (clampInt t (-lim) (lim - 1)) e.xs).setF (bits ||| ovf)

/-- The smallest s for which rne(A x 2^-s) lies in -2^47 to 2^47 - 1 (08 R131), searched from s upward. -/
def normShift (a : Int) : Nat → Nat → Nat
  | 0, s => s
  | n + 1, s =>
    let r := roundInt .rne (decide (a < 0)) a.natAbs (-(s : Int))
    if -(2 ^ 47) ≤ r ∧ r ≤ 2 ^ 47 - 1 then s else normShift a n (s + 1)

/-- ANORM on one element (08 R131). -/
def normalise (e : AccElem) : AccElem :=
  let s := normShift e.a 18 0
  if 32767 < e.xs + s then e.setF fXr
  else
    let r := roundInt .rne (decide (e.a < 0)) e.a.natAbs (-(s : Int))
    (e.setAX r (e.xs + s)).setF (if e.a.natAbs % 2 ^ s = 0 then 0 else fInx)

/-- The conversion of ARD and ACCST (08 R131, 14 R247, 15 R272). -/
def AccElem.convert (e : AccElem) (t : ElemType) (rm : Rm) : Nat :=
  if e.f &&& fNan ≠ 0 then writeVal t rm true .nan
  else writeVal t rm true (.fin (decide (e.a < 0)) e.a.natAbs e.xs)

/-- PSN is set (25 R351). -/
def AccElem.poisoned (e : AccElem) : Bool := e.f &&& fPsn != 0

/-- ACLR on one element (14 R245). -/
def clearElem (x : BitVec 16) : AccElem := ⟨0, 0, x, 0⟩

/-- AWR on one element (14 R248). -/
def awrElem (sel : AccSel) (w : Nat) (e : AccElem) : AccElem :=
  match sel with
  | .m => { e with m := BitVec.ofNat 48 w }
  | .g => { e with g := BitVec.ofNat 16 w }
  | .x => { e with x := BitVec.ofNat 16 w }
  | .f => { e with f := (e.f &&& 0xFFF0) ||| BitVec.ofNat 16 (w % 16) }

/-- ASTAT on one element (14 R249). -/
def astatElem (sel : AccSel) (e : AccElem) : Nat :=
  match sel with
  | .m => e.m.toNat
  | .g => wrapInt 64 (sextNat 16 e.g.toNat)
  | .x => wrapInt 64 (sextNat 16 e.x.toNat)
  | .f => e.f.toNat

/-- The depth counter after n more K-blocks (08 R129). -/
def depthAfter (d : BitVec 16) (n : Nat) : BitVec 16 := BitVec.ofNat 16 (min (d.toNat + n) 65535)

end Sys2Proof.Machine
end

