-- ==== Sys2Proof/Machine/Mem.lean ====
section
/-! DEFINITION. Named parts of the state (cores, contexts, dies, rings) and memory: bytes, scratchpad slices, HBM under its keys, poison, dirty blocks, and the page walk (spec 06, 07 R112-R115, 25 R350, R353). -/

namespace Sys2Proof.Machine

/-! Bytes. -/

/-- The byte at an address. -/
def memByte (m : Memory) (a : Nat) : Byte := sget unlisted m a

/-- Writes a byte, keeping the canonical form. -/
def memPut : Memory → Nat → Byte → Memory
  | [], a, b => if b = unlisted then [] else [(a, b)]
  | (k, v) :: t, a, b =>
    if k = a then (if b = unlisted then t else (a, b) :: t)
    else if a < k then (if b = unlisted then (k, v) :: t else (a, b) :: (k, v) :: t)
    else (k, v) :: memPut t a b

/-- The n bytes from an address. -/
def memBytes (m : Memory) (a n : Nat) : List Byte := (List.range n).map (fun i => memByte m (a + i))

/-- Writes bytes from an address on. -/
def memPutBytes : Memory → Nat → List Byte → Memory
  | m, _, [] => m
  | m, a, b :: t => memPutBytes (memPut m a b) (a + 1) t

/-- The little-endian number of bytes (02 R33, 12 R181). -/
def bytesNat : List Byte → Nat
  | [] => 0
  | b :: t => b.toNat + 256 * bytesNat t

/-- The n little-endian bytes of a number. -/
def natBytes : Nat → Nat → List Byte
  | 0, _ => []
  | n + 1, v => BitVec.ofNat 8 v :: natBytes n (v / 256)

/-- Part of a list: the n entries from index i. -/
def slice {α : Type} (l : List α) (i n : Nat) : List α := (l.drop i).take n

/-- The little-endian number in n bytes of a list from offset i. -/
def fieldAt (l : List Byte) (i n : Nat) : Nat := bytesNat (slice l i n)

/-- Inserts a number in an ascending list without repeats. -/
def insertNat : List Nat → Nat → List Nat
  | [], n => [n]
  | k :: t, n => if n < k then n :: k :: t else if n = k then k :: t else k :: insertNat t n

/-- The entries from `lo` up to, not including, `hi`, that are not in the list, added. -/
def insertRange (l : List Nat) (lo hi : Nat) : List Nat :=
  if hi ≤ lo then l
  else l.filter (fun k => decide (k < lo)) ++ (List.range (hi - lo)).map (fun i => lo + i) ++ l.filter (fun k => decide (hi ≤ k))

/-! Named parts of the state. -/

/-- Core c (01 R10). -/
def State.core (s : State) (c : Nat) : Core := sget {} s.cores c
def State.setCore (s : State) (c : Nat) (k : Core) : State := { s with cores := sset s.cores c k }
def State.modCore (s : State) (c : Nat) (f : Core → Core) : State := s.setCore c (f (s.core c))
/-- Die d. -/
def State.die (s : State) (d : Nat) : Die := sget {} s.dies d
def State.modDie (s : State) (d : Nat) (f : Die → Die) : State := { s with dies := sset s.dies d (f (s.die d)) }
/-- Cluster g, 0 to 63 (01 R10). -/
def State.cluster (s : State) (g : Nat) : Cluster := sget {} s.clusters g
def State.modCluster (s : State) (g : Nat) (f : Cluster → Cluster) : State :=
  { s with clusters := sset s.clusters g (f (s.cluster g)) }
def State.modHub (s : State) (f : Hub → Hub) : State := { s with hub := f s.hub }
/-- The architected small state of core c. -/
def State.arch (s : State) (c : Nat) : Arch := (s.core c).arch
def State.modArch (s : State) (c : Nat) (f : Arch → Arch) : State := s.modCore c (fun k => { k with arch := f k.arch })
def State.seqs (s : State) (c : Nat) : Seqs := (s.core c).arch.seqs
def State.modSeqs (s : State) (c : Nat) (f : Seqs → Seqs) : State := s.modArch c (fun a => { a with seqs := f a.seqs })
def State.modCsrs (s : State) (c : Nat) (f : Csrs → Csrs) : State := s.modArch c (fun a => { a with csrs := f a.csrs })
/-- Context k of core c. -/
def State.ctx (s : State) (c k : Nat) : Ctx := sget {} (s.seqs c).ctxs k
def State.modCtx (s : State) (c k : Nat) (f : Ctx → Ctx) : State :=
  s.modSeqs c (fun q => { q with ctxs := sset q.ctxs k (f (sget {} q.ctxs k)) })
/-- The CP of core c. -/
def State.cp (s : State) (c : Nat) : Cp := (s.seqs c).cp
def State.modCp (s : State) (c : Nat) (f : Cp → Cp) : State := s.modSeqs c (fun q => { q with cp := f q.cp })
/-- LD or ST of core c. -/
def State.eng (s : State) (c : Nat) (e : Eng) : Engine :=
  match e with
  | .st => (s.seqs c).st
  | _ => (s.seqs c).ld
def State.modEng (s : State) (c : Nat) (e : Eng) (f : Engine → Engine) : State :=
  s.modSeqs c (fun q => match e with
    | .st => { q with st := f q.st }
    | _ => { q with ld := f q.ld })
/-- Ring n of core c (06 R106). -/
def State.ring (s : State) (c n : Nat) : Ring := sget {} (s.seqs c).rings n
def State.modRing (s : State) (c n : Nat) (f : Ring → Ring) : State :=
  s.modSeqs c (fun q => { q with rings := sset q.rings n (f (sget {} q.rings n)) })
/-- Barrier n of core c (06 R108). -/
def State.bar (s : State) (c n : Nat) : Barrier := sget {} (s.seqs c).bars n
def State.modBar (s : State) (c n : Nat) (f : Barrier → Barrier) : State :=
  s.modSeqs c (fun q => { q with bars := sset q.bars n (f (sget {} q.bars n)) })
/-- Work queue q (05 R79). -/
def State.wq (s : State) (q : Nat) : WorkQueue := sget {} s.hub.queues q
def State.modWq (s : State) (q : Nat) (f : WorkQueue → WorkQueue) : State :=
  s.modHub (fun h => { h with queues := sset h.queues q (f (s.wq q)) })
/-- A patch slot (03 R37). -/
def State.slot (s : State) (c n : Nat) : PatchSlot := sget {} (s.arch c).slots n
def State.modSlot (s : State) (c n : Nat) (f : PatchSlot → PatchSlot) : State :=
  s.modArch c (fun a => { a with slots := sset a.slots n (f (sget {} a.slots n)) })
/-- The die and the cluster of a core (01 R10). -/
def dieOf (c : Nat) : Nat := c / 64
def clusterOf (c : Nat) : Nat := c / 8
/-- The clock of a core, in cycles of its own that no freeze held (01 R14, 23 R319). -/
def State.coreTime (s : State) (c : Nat) : Nat := (s.arch c).time
/-- The launch core c runs. -/
def State.run (s : State) (c : Nat) : Option Running := (s.arch c).run
def State.modRun (s : State) (c : Nat) (f : Running → Running) : State :=
  s.modArch c (fun a => { a with run := a.run.map f })
/-- The translation context of core c's launch (06 R99); 0 with no launch. -/
def State.tctx (s : State) (c : Nat) : Nat := match s.run c with | some r => r.tctx | none => 0
/-- Hall address of an offset of a core's slice (06 R97). -/
def hallAddr (c off : Nat) : Nat := c * Config.sliceBytes + off
/-- A launch by its number. -/
def State.launch (s : State) (id : Nat) : Option Launch := s.hub.launches.find? (fun l => l.id == id)
def State.modLaunch (s : State) (id : Nat) (f : Launch → Launch) : State :=
  s.modHub (fun h => { h with launches := h.launches.map (fun l => if l.id = id then f l else l) })

/-! Dirty blocks (07 R113, R115; 26 R354: blocks 0 to 32767 are SRAM; 32768 to 33727 the other state, log 20). -/

/-- First block of the vector registers, and of the accumulator store. -/
def vrfBlock : Nat := 16384
def accBlock : Nat := 20480
/-- First block of the other state. -/
def archBlock : Nat := 32768

/-- Marks blocks lo to hi - 1 dirty. -/
def Core.mark (k : Core) (lo hi : Nat) : Core :=
  { k with cellar := { k.cellar with dirty := insertRange k.cellar.dirty lo hi } }

/-! Poison (25 R350): granules of 64 bytes. -/

/-- Some granule of the n bytes from a is poisoned. -/
def touches (marks : List Nat) (unit a n : Nat) : Bool := marks.any (fun g => decide (g * unit < a + n) && decide (a < g * unit + unit))

/-- Which bytes of granule g the n bytes from a cover. -/
def grainBits (unit g a n : Nat) : Nat :=
  if a + n ≤ g * unit ∨ g * unit + unit ≤ a then 0
  else (2 ^ (min (a + n) (g * unit + unit) - max a (g * unit)) - 1) * 2 ^ (max a (g * unit) - g * unit)

/-- The bytes of a marked granule that are rewritten once n bytes from a are, of those `done` before. -/
def rewrittenAt {w : Nat} (done : Sparse (BitVec w)) (unit a n g : Nat) : BitVec w := sget 0 done g ||| BitVec.ofNat w (grainBits unit g a n)

/-- The marks left after a write of n bytes from a: a granule whose bytes are all rewritten loses its mark. -/
def unmark {w : Nat} (marks : List Nat) (done : Sparse (BitVec w)) (unit a n : Nat) : List Nat := marks.filter (fun g => rewrittenAt done unit a n g != -1)

/-- The bytes rewritten of the granules that stay marked. -/
def mend {w : Nat} (marks : List Nat) (done : Sparse (BitVec w)) (unit a n : Nat) : Sparse (BitVec w) :=
  (marks.map (fun g => (g, rewrittenAt done unit a n g))).filter (fun p => p.2 != 0 && p.2 != -1)

/-! Scratchpad slices. -/

/-- Bytes of core c's slice. -/
def State.spadRead (s : State) (c off n : Nat) : List Byte := memBytes (s.core c).spad off n

/-- A read of the slice meets a poisoned granule. -/
def State.spadPoison (s : State) (c off n : Nat) : Bool := touches (s.core c).poisonSpad 64 off n

/-- A write of core c's slice (07 R113, 25 R350). -/
def Core.spadWrite (k : Core) (off : Nat) (bs : List Byte) : Core :=
  ({ k with
    spad := memPutBytes k.spad off bs
    poisonSpad := unmark k.poisonSpad k.mended 64 off bs.length
    mended := mend k.poisonSpad k.mended 64 off bs.length }).mark (off / 256) ((off + bs.length + 255) / 256)

def State.spadWrite (s : State) (c off : Nat) (bs : List Byte) : State := s.modCore c (fun k => k.spadWrite off bs)

/-! HBM under its keys (06 R102, 17 R299). -/

/-- The key installed for an identifier. -/
def State.key (s : State) (id : Nat) : Key := sget (.boot id) s.hub.keys id

/-- The 16 bytes of block b as the cells hold them. -/
def State.hbmBlock (s : State) (b : Nat) : BitVec 128 := BitVec.ofNat 128 (bytesNat (memBytes s.hbm (16 * b) 16))

/-- Block b was written under another key. -/
def State.hbmForeign (s : State) (id b : Nat) : Bool :=
  match s.hbmKeys.find? (fun p => p.1 == b) with
  | some (_, k) => k != s.key id
  | none => false

/-- One byte of HBM read under key identifier id. A block written under another key reads as a free value (log 14). -/
def State.hbmByte (s : State) (id a : Nat) : Byte :=
  match s.hbmKeys.find? (fun p => p.1 == a / 16) with
  | some (_, k) =>
    if k = s.key id then memByte s.hbm a
    else BitVec.ofNat 8 ((Config.garbled k (s.key id) (a / 16) (s.hbmBlock (a / 16))).toNat / 256 ^ (a % 16))
  | none => memByte s.hbm a

def State.hbmRead (s : State) (id a n : Nat) : List Byte := (List.range n).map (fun i => s.hbmByte id (a + i))

/-- An uncorrectable word of 32 bytes lies in the range (25 R353). -/
def State.hbmPoison (s : State) (a n : Nat) : Bool := touches s.hbmBad 32 a n

/-- Block b re-read under key identifier id and kept so, before a write of part of it. -/
def State.hbmRekey (s : State) (id b : Nat) : State :=
  if s.hbmForeign id b then
    { s with hbm := memPutBytes s.hbm (16 * b) (s.hbmRead id (16 * b) 16), hbmKeys := sset s.hbmKeys b (s.key id) }
  else { s with hbmKeys := sset s.hbmKeys b (s.key id) }

/-- A write of HBM under key identifier id. -/
def State.hbmWrite (s : State) (id a : Nat) (bs : List Byte) : State :=
  let b0 := a / 16
  let s := (List.range ((a + bs.length + 15) / 16 - b0)).foldl (fun s i => s.hbmRekey id (b0 + i)) s
  { s with
    hbm := memPutBytes s.hbm a bs
    hbmBad := unmark s.hbmBad s.hbmMended 32 a bs.length
    hbmSoft := unmark s.hbmSoft s.hbmMended 32 a bs.length
    hbmMended := mend (s.hbmSoft.foldl insertNat s.hbmBad) s.hbmMended 32 a bs.length }

/-- The bytes at a home. -/
def State.locRead (s : State) (l : Loc) (n : Nat) : List Byte :=
  match l with
  | .slice c off => s.spadRead c off n
  | .hbm pa key => s.hbmRead key pa n

def State.locPoison (s : State) (l : Loc) (n : Nat) : Bool :=
  match l with
  | .slice c off => s.spadPoison c off n
  | .hbm pa _ => s.hbmPoison pa n

def State.locWrite (s : State) (l : Loc) (bs : List Byte) : State :=
  match l with
  | .slice c off => s.spadWrite c off bs
  | .hbm pa key => s.hbmWrite key pa bs

/-- A place n bytes on. -/
def Loc.plus (l : Loc) (n : Nat) : Loc :=
  match l with
  | .slice c off => .slice c (off + n)
  | .hbm pa key => .hbm (pa + n) key

/-! Links (25 R345-R347). -/

/-- The link of die d to the hub starts up; an external port starts down. -/
def linkKey : Link → Nat
  | .die d => d
  | .port p => 8 + p
def linkReset : Link → LinkState
  | .die _ => { state := 1 }
  | .port _ => {}
def State.link (s : State) (l : Link) : LinkState := sget (linkReset l) s.hub.links (linkKey l)
def State.modLink (s : State) (l : Link) (f : LinkState → LinkState) : State :=
  s.modHub (fun h => { h with links := sset h.links (linkKey l) (f (s.link l)) })
/-- The die of a home. -/
def Loc.die : Loc → Nat
  | .slice c _ => dieOf c
  | .hbm pa _ => pa / 2 ^ 37 / 2
/-- The number that stands for the hub where a path begins at its switch. -/
def hubEnd : Nat := 8
/-- The path between two dies, or between the hub and a die, crosses a link in a state. -/
def pathIn (s : State) (d1 d2 : Nat) (st : BitVec 2) : Bool :=
  d1 != d2 && ((decide (d1 < 8) && (s.link (.die d1)).state == st) || (decide (d2 < 8) && (s.link (.die d2)).state == st))

/-- The number of a home, one for each slice and each stack (16 R282). -/
def Loc.home : Loc → Nat
  | .slice c _ => c
  | .hbm pa _ => 512 + pa / 2 ^ 37

/-! Addresses, faults and the page walk (06 R96-R103). -/

/-- A fault of 24 R325. -/
def faultOf (code detail faddr : Nat) : FaultInfo := ⟨code, detail, faddr⟩

/-- A home that a dead link or a lost supply cuts off from a die, or from the hub: a memory fault LINK (25 R346, 26 R355). -/
def reachFault (s : State) (d : Nat) (l : Loc) (va : Nat) : Option FaultInfo :=
  if pathIn s d l.die 3 || !(s.die l.die).power then some (faultOf 0x08 6 va) else none

/-- R98: why a slice refuses n bytes at an offset to a launch of a translation context: DETAIL 1 or 2 (25 R339). -/
def hallRefuse (s : State) (tctx c off n : Nat) : Option Nat :=
  let a := s.arch c
  let inArea (r : Running) : Bool := r.tctx == tctx && decide (r.area ≤ off) && decide (off + n ≤ r.area + r.spneed)
  if Config.sliceReserved < off + n then some 1
  else if (match a.run with | some r => inArea r | none => false) || a.parked.any (fun p => inArea p.run) then none
  else some 2

/-- The n bytes lie in installed HBM (06 R102). -/
def installed (pa n : Nat) : Bool := decide (pa < 2 ^ 41) && decide (pa % 2 ^ 37 + n ≤ Config.stackBytes)

/-- A 16-bit counter that saturates (25 R348). -/
def satInc (v : BitVec 16) : BitVec 16 := if v = 0xFFFF then v else v + 1

/-- A read of n bytes at a home corrects what the ECC can there: HBMC counts each word, which is written back (25 R353). -/
def corrected (s : State) (l : Loc) (n : Nat) : State :=
  match l with
  | .slice _ _ => s
  | .hbm pa _ => (s.hbmSoft.filter (fun g => decide (g * 32 < pa + n) && decide (pa < g * 32 + 32))).foldl
      (fun s g => { (s.modDie (g / 2 ^ 33) (fun d => { d with hbmc := satInc d.hbmc })) with hbmSoft := s.hbmSoft.erase g }) s

/-- A table entry, read in plain (log 17). -/
def State.tableWord (s : State) (pa : Nat) : Nat := bytesNat (memBytes s.hbm pa 8)

/-- The index of level l of a virtual address (06 R100). -/
def levelIndex (va : Nat) : Nat → Nat
  | 4 => va / 2 ^ 48 % 512
  | 3 => va / 2 ^ 39 % 512
  | 2 => va / 2 ^ 30 % 512
  | 1 => va / 2 ^ 21 % 512
  | _ => va / 2 ^ 16 % 32

/-- The page size of a leaf at level 1, and at level 0. -/
def leafSize (l : Nat) : Nat := if l = 1 then 2 ^ 21 else 2 ^ 16

/-- The ISW detail of a translation fault (24 R325). -/
def walkDetail (level reason : Nat) : Nat := level + 8 * reason

/-- The checks of a table entry at a level, in the order of R101: the reason, if it faults. A page that straddles the end of the installed bytes of its stack counts as outside them (log 90). -/
def entryFault (e level : Nat) (write : Bool) : Option Nat :=
  let leaf := e / 4 % 2 = 1
  let pa := e / 2 ^ 8 % 2 ^ 33 * 2 ^ 8
  if e % 2 = 0 then some 1
  else if e / 2 ^ 41 % 1024 ≠ 0 ∨ e / 64 % 4 ≠ 0 ∨ e / 8 % 2 ≠ 0 then some 2
  else if leaf ∧ 2 ≤ level then some 3
  else if ¬ leaf ∧ level = 0 then some 3
  else if leaf ∧ pa % leafSize level ≠ 0 then some 4
  else if leaf ∧ write ∧ e / 2 % 2 = 0 then some 5
  else if leaf ∧ installed pa (leafSize level) = false then some 6
  else none

/-- A table entry as the unit of a die, or the hub, reads it at its home (16 R287): a cut-off home and a poisoned entry fault. -/
def walkEntry (s : State) (d a va : Nat) : Except FaultInfo Nat :=
  match reachFault s d (.hbm a 0) va with
  | some f => .error f
  | none => if s.hbmPoison a 8 then .error (faultOf 0x08 8 va) else .ok (s.tableWord a)

/-- The walk from a node of a level down (06 R100, R101): sets A, and D for a write, at the leaf. -/
def walkFrom (s : State) (d tctx va : Nat) (write : Bool) : Nat → Nat → State × Except FaultInfo TlbEntry
  | level, node =>
    let a := node + 8 * levelIndex va level
    match walkEntry s d a va with
    | .error f => (s, .error f)
    | .ok e =>
      let s := corrected s (.hbm a 0) 8
      match entryFault e level write with
      | some r => (s, .error (faultOf 0x09 (walkDetail level r) va))
      | none =>
        if e / 4 % 2 = 1 then
          let low := e % 256 ||| 16 ||| (if write then 32 else 0)
          let s' := { s with hbm := memPut s.hbm a (BitVec.ofNat 8 low) }
          (s', .ok ⟨tctx, va / 2 ^ 16, level == 1, e / 2 ^ 8 % 2 ^ 33 * 2 ^ 8, e / 2 ^ 51, e / 2 % 2 == 1, write || e / 32 % 2 == 1⟩)
        else match level with
          | 0 => (s, .error (faultOf 0x09 (walkDetail 0 3) va))
          | l + 1 => walkFrom s d tctx va write l (e / 2 ^ 8 % 2 ^ 33 * 2 ^ 8)

/-- The physical address of a context's root (06 R99). -/
def rootAddr (s : State) (tctx : Nat) : Nat := s.hub.ctxbase.toNat + 8 * tctx

/-- A page walk: from the root of the context (06 R99); a root of 0 faults with reason 7 at level 4. -/
def walkNow (s : State) (d tctx va : Nat) (write : Bool) : State × Except FaultInfo TlbEntry :=
  match walkEntry s d (rootAddr s tctx) va with
  | .error f => (s, .error f)
  | .ok root =>
    let s := corrected s (.hbm (rootAddr s tctx) 0) 8
    if root = 0 then (s, .error (faultOf 0x09 (walkDetail 4 7) va))
    else walkFrom s d tctx va write 4 (root % 2 ^ 41)

/-- The rest of a walk of a die's unit, from the node it has come to. -/
def walkRest (s : State) (d : Nat) (w : Walk) : State × Except FaultInfo TlbEntry :=
  match w.node with
  | none => walkNow s d w.ctx w.va w.write
  | some (l, n) => walkFrom s d w.ctx w.va w.write l n

/-- Where the entry lies that a walk reads next. -/
def walkPlace (s : State) (w : Walk) : Nat :=
  match w.node with
  | none => rootAddr s w.ctx
  | some (l, n) => n + 8 * levelIndex w.va l

/-- Where a walk stands after one more read, if that read gives a next node (16 R287: each entry is a load of its own). -/
def walkMove (s : State) (d : Nat) (w : Walk) : Option (Nat × Nat) :=
  match w.node with
  | none => (match walkEntry s d (walkPlace s w) w.va with
    | .ok root => if root = 0 then none else some (4, root % 2 ^ 41)
    | .error _ => none)
  | some (0, _) => none
  | some (l + 1, _) => (match walkEntry s d (walkPlace s w) w.va with
    | .ok e => if (entryFault e (l + 1) w.write).isNone && e / 4 % 2 == 0 then some (l, e / 2 ^ 8 % 2 ^ 33 * 2 ^ 8) else none
    | .error _ => none)

/-- The physical address that an entry gives a virtual address. -/
def TlbEntry.addr (e : TlbEntry) (va : Nat) : Nat := e.pa + va % (if e.big then 2 ^ 21 else 2 ^ 16)

/-- The entry covers the virtual address in the context. -/
def TlbEntry.covers (e : TlbEntry) (tctx va : Nat) : Bool :=
  e.ctx == tctx && (if e.big then e.page / 32 == va / 2 ^ 21 else e.page == va / 2 ^ 16)

/-- What a translation unit answers. -/
inductive Lookup where
  | loc (l : Loc)
  | miss
  | fault (f : FaultInfo)
deriving DecidableEq, Repr

/-- An access of a die's party to a virtual address: address fault, hall space, a hit, or a miss. A first write through an entry whose D is not known set is a miss, so that the walker sets D; a write through an entry that is not writable is one too, so that the walker reads the leaf as it is now (06 R101, 25 R330). -/
def lookup (s : State) (die tctx va : Nat) (write : Bool) : Lookup :=
  if 2 ^ 57 ≤ va then .fault (faultOf 0x0A 0 va)
  else if va < 2 ^ 31 then .loc (.slice (va / Config.sliceBytes) (va % Config.sliceBytes))
  else match (s.die die).tlb.find? (fun e => e.covers tctx va) with
    | none => .miss
    | some e =>
      if write && !(e.w && e.d) then .miss
      else .loc (.hbm (e.addr va) e.key)

/-! Slices that are off (07 R117). -/

/-- The slice of a core performs what arrives: it is on, or in the hold-up's window (07 R117, 26 R355). -/
def sliceUp (s : State) (h : Nat) : Bool := (s.core h).gate == .on || (s.core h).gate == .holdup

/-- Something arrives at a slice that is off. -/
def arriveAt (s : State) (h : Nat) (p : Arriver) : State :=
  if s.arrived.contains (h, p) then s else { s with arrived := s.arrived ++ [(h, p)] }

/-- A turn is given up at the home that blocks it: at a slice that is off it has arrived (07 R117); nothing arrives behind a link that retrains. -/
def awaitHome (s : State) (h : Nat) : State := if h < Config.cores then arriveAt s h .other else s

/-- It has been performed at the slice. -/
def leaveSlice (s : State) (h : Nat) (p : Arriver) : State := if s.arrived.isEmpty then s else { s with arrived := s.arrived.erase (h, p) }

/-- What an access on the spot answers where it has to wait: the turn is given up for now, at a slice that is off (07 R117) or behind a link that retrains (25 R345). -/
def blockedBy (s : State) (d : Nat) (l : Loc) : Option Nat :=
  if pathIn s d l.die 2 then some Config.cores
  else match l with
    | .slice h _ => if sliceUp s h then none else some h
    | .hbm _ _ => none

/-- A home that a die, or the hub, reaches; a memory fault LINK otherwise. Where the access has to wait, the turn is marked as blocked, and `step` keeps nothing of it. -/
def reached (s : State) (d va : Nat) (l : Loc) : State × Except FaultInfo Loc :=
  match reachFault s d l va with
  | some f => (s, .error f)
  | none => match blockedBy s d l with
    | some h => ({ s with blocked := some h }, .error (faultOf 0x08 6 va))
    | none => (s, .ok l)

/-- The walks of a die's unit, or of the hub. -/
def State.walksOf (s : State) (d : Nat) : List Walk := if d = hubEnd then s.hub.walks else (s.die d).walks
def State.modWalks (s : State) (d : Nat) (f : List Walk → List Walk) : State :=
  if d = hubEnd then s.modHub (fun h => { h with walks := f h.walks }) else s.modDie d (fun x => { x with walks := f x.walks })

/-- A walk that nobody waits for, begun ahead of a translation on the spot (16 R287, log 18). -/
def beginWalk (s : State) (d tctx va : Nat) (write : Bool) : State :=
  if hubEnd < d || (s.walksOf d).any (fun w => w.ctx == tctx && w.page == va / 2 ^ 16) then s
  else s.modWalks d (fun l => l ++ [⟨tctx, va / 2 ^ 16, va, write, [], none⟩])

/-- A walk to its end, from where one of its page has come to: entries that it has read may have changed since (16 R287). -/
def walkOn (s : State) (d tctx va : Nat) (write : Bool) : State × Except FaultInfo TlbEntry :=
  match (s.walksOf d).find? (fun w => w.ctx == tctx && w.page == va / 2 ^ 16) with
  | some w =>
    walkRest (if w.waiters.isEmpty then s.modWalks d (fun l => l.filter (fun x => !(x.ctx == tctx && x.page == va / 2 ^ 16))) else s) d { w with va := va, write := write }
  | none => walkNow s d tctx va write

/-- A translation made on the spot, for the units whose waits the spec does not tell apart (log 18), of a die or of the hub. -/
def locateNow (s : State) (d tctx va : Nat) (write : Bool) : State × Except FaultInfo Loc :=
  if 2 ^ 57 ≤ va then (s, .error (faultOf 0x0A 0 va))
  else if va < 2 ^ 31 then reached s d va (.slice (va / Config.sliceBytes) (va % Config.sliceBytes))
  else match walkOn s d tctx va write with
    | (s', .ok e) => reached s' d va (.hbm (e.addr va) e.key)
    | (s', .error f) => (s', .error f)

/-- R98 at the home of an access of n bytes, as a memory fault naming va. -/
def homeRefuse (s : State) (tctx : Nat) (l : Loc) (n va : Nat) : Option FaultInfo :=
  match l with
  | .slice c off => (hallRefuse s tctx c off n).map (fun d => faultOf 0x08 d va)
  | .hbm _ _ => none

/-- A read of n bytes on the spot, which do not cross a 64 KiB page. -/
def readNow (s : State) (d tctx va n : Nat) : State × Except FaultInfo (List Byte) :=
  match locateNow s d tctx va false with
  | (s', .error f) => (s', .error f)
  | (s', .ok l) =>
    match homeRefuse s' tctx l n va with
    | some f => (s', .error f)
    | none => if s'.locPoison l n then (s', .error (faultOf 0x08 8 va)) else (corrected s' l n, .ok (s'.locRead l n))

/-- A write of bytes on the spot, which do not cross a 64 KiB page. -/
def writeNow (s : State) (d tctx va : Nat) (bs : List Byte) : State × Option FaultInfo :=
  match locateNow s d tctx va true with
  | (s', .error f) => (s', some f)
  | (s', .ok l) =>
    match homeRefuse s' tctx l bs.length va with
    | some f => (s', some f)
    | none => (s'.locWrite l bs, none)

/-- A read of n bytes in pieces of at most 64 that do not cross a 64-byte line, and so never a page; the first fault ends it. -/
def readLong (s : State) (d tctx : Nat) : Nat → Nat → Nat → State × Except FaultInfo (List Byte)
  | 0, _, _ => (s, .ok [])
  | _, _, 0 => (s, .ok [])
  | fuel + 1, va, n =>
    let p := min n (64 - va % 64)
    match readNow s d tctx va p with
    | (s', .error f) => (s', .error f)
    | (s', .ok b) =>
      match readLong s' d tctx fuel (va + p) (n - p) with
      | (s'', .error f) => (s'', .error f)
      | (s'', .ok bs) => (s'', .ok (b ++ bs))

/-- Enough pieces for n bytes. -/
def pieces (n : Nat) : Nat := n / 64 + 2

/-- A read of n bytes on the spot. -/
def readBytes (s : State) (d tctx va n : Nat) : State × Except FaultInfo (List Byte) := readLong s d tctx (pieces n) va n

/-- A write of bytes on the spot, in the pieces of a read; the pieces before a fault stand. -/
def writeLong (s : State) (d tctx : Nat) : Nat → Nat → List Byte → State × Option FaultInfo
  | 0, _, _ => (s, none)
  | _, _, [] => (s, none)
  | fuel + 1, va, bs =>
    let p := min bs.length (64 - va % 64)
    match writeNow s d tctx va (bs.take p) with
    | (s', some f) => (s', some f)
    | (s', none) => writeLong s' d tctx fuel (va + p) (bs.drop p)

def writeBytes (s : State) (d tctx va : Nat) (bs : List Byte) : State × Option FaultInfo := writeLong s d tctx (pieces bs.length) va bs

end Sys2Proof.Machine
end

