-- ==== Sys2Proof/Machine/Units.lean ====
section
/-! DEFINITION. Shared units of a core and of the module: tokens, completion numbers, event flags and counters, vectors, rings, links, page walks, slot-wheel positions, patch closes (spec 03, 04 R70, 05 R90, 06 R103-R107, 12 R204, 16 R284, 17 R293, R302, 25 R345-R346). -/

namespace Sys2Proof.Machine

/-! What a core can do. -/

/-- The core's clocks run: no freeze, no rail switch of its cluster (23 R319, 01 R13). -/
def clocked (s : State) (c : Nat) : Bool := (s.arch c).freeze.isNone && !(s.cluster (clusterOf c)).busy

/-- No stop, cut, pre-emption or KILL of the core waits for its commands: its sequencers may go on (24 R323, R334, 05 R93, 07 R114). -/
def Core.free (k : Core) : Bool := k.stopping.isNone && !k.cutting && !k.leaving && !k.killing

/-- The core is powered, not stopped nor on the way to a stop, and its clocks run (23 R319, 24 R323, 07 R117). -/
def coreLive (s : State) (c : Nat) : Bool := (s.core c).gate == .on && (s.core c).stop.isNone && (s.core c).free && clocked s c

/-- The message of a SEND waits in the replay queue (25 R344). -/
def replayWaits (s : State) (c : Nat) (e : Eng) (k : Cmd) : Bool := k.sent && (s.eng c e).replays.any (fun r => r.msg.cmd == k.num && !r.out)

/-- A command that is held incomplete by what its core waits for (24 R323, R334, R338): by a stop or a KILL one that has made no access; by a cut one that waits in the replay queue (25 R344). -/
def heldBack (s : State) (c : Nat) (e : Eng) (k : Cmd) : Bool :=
  if (s.core c).stopping.isSome || (s.core c).killing then !k.accessed
  else !(s.core c).free && replayWaits s c e k

/-- A dequeued command goes on: its core is powered and clocked and not stopped, and nothing holds it (05 R93, 24 R323). -/
def cmdGoes (s : State) (c : Nat) (e : Eng) (k : Cmd) : Bool :=
  (s.core c).gate == .on && (s.core c).stop.isNone && clocked s c && !heldBack s c e k

/-! Event flags, counters and vectors. -/

/-- Sets the event flag of every context of a core but one (12 R204). -/
def setFlags (s : State) (c : Nat) (except : Option Nat) : State :=
  [0, 1, 2, 3].foldl (fun s k => if except = some k then s else s.modCtx c k (fun x => { x with flag := true })) s

/-- Counts n events of a code in the event counters that select it (17 R302). -/
def countEvent (s : State) (c code n : Nat) : State :=
  if (s.arch c).csrs.evsel.any (fun p => p.2 == BitVec.ofNat 9 (256 + code)) then
    s.modCsrs c (fun r => { r with evc := r.evsel.foldl (fun e p =>
      if p.2 = BitVec.ofNat 9 (256 + code) then sset e p.1 (sget 0 e p.1 + BitVec.ofNat 64 n) else e) r.evc })
  else s

/-- Raises vector n: a posted write, or PEND when masked (17 R293). -/
def raiseVector (s : State) (n : Nat) : State :=
  s.modHub (fun h =>
    let v := sget {} h.vectors n
    if v.mask then { h with vectors := sset h.vectors n { v with pend := true } }
    else { h with posted := h.posted ++ [(v.addr, v.data)] })

/-! Tokens (04 R70). Queues in the order of 05 R95: 0 LD to CP, 1 CP to ST, 2 ST to LD, 3 CP to LD, 4 ST to CP, 5 LD to ST. -/

/-- The queues that PU, PD, SU and SD of an engine act on. -/
def puQueue : Eng → Nat
  | .ld => 2 | .cp => 0 | .st => 1
def pdQueue : Eng → Nat
  | .ld => 3 | .cp => 4 | .st => 5
def suQueue : Eng → Nat
  | .ld => 5 | .cp => 3 | .st => 4
def sdQueue : Eng → Nat
  | .ld => 0 | .cp => 1 | .st => 2

/-- Token queue q of core c. -/
def State.tok (s : State) (c q : Nat) : TokQ := sget {} (s.seqs c).toks q
def State.modTok (s : State) (c q : Nat) (f : TokQ → TokQ) : State :=
  s.modSeqs c (fun x => { x with toks := sset x.toks q (f (sget {} x.toks q)) })

/-- The first token queue that PU or PD finds empty. -/
def tokenLack (s : State) (c : Nat) (e : Eng) (t : Tok) : Option Nat :=
  if t.pu && (s.tok c (puQueue e)).count == 0 then some (puQueue e)
  else if t.pd && (s.tok c (pdQueue e)).count == 0 then some (pdQueue e)
  else none

/-- Takes the tokens of PU and PD. -/
def takeTokens (s : State) (c : Nat) (e : Eng) (t : Tok) : State :=
  let s := if t.pu then s.modTok c (puQueue e) (fun q => { q with count := q.count - 1 }) else s
  if t.pd then s.modTok c (pdQueue e) (fun q => { q with count := q.count - 1 }) else s

/-- Increments of an engine that wait on a full queue, in order: the queue, and what finishes with them: a command's number, 0 for a WAITN, a bundle's number and 1 for the CP. -/
def pushesOf (s : State) (c : Nat) (e : Eng) : List (Nat × Nat) :=
  match e with
  | .cp => (s.cp c).pushes
  | e => (s.eng c e).pushes

def setPushes (s : State) (c : Nat) (e : Eng) (l : List (Nat × Nat)) : State :=
  match e with
  | .cp => s.modCp c (fun p => { p with pushes := l })
  | e => s.modEng c e (fun g => { g with pushes := l })

/-- A token queue has room. -/
def tokRoom (s : State) (c q : Nat) : Bool := decide ((s.tok c q).count < (s.tok c q).cap)

/-- One increment: it waits behind those of what finished earlier, and while its queue is full (04 R70). -/
def pushToken (s : State) (c : Nat) (e : Eng) (num q : Nat) : State :=
  if (pushesOf s c e).all (fun p => p.2 == num) && tokRoom s c q then s.modTok c q (fun t => { t with count := t.count + 1 })
  else setPushes s c e (pushesOf s c e ++ [(q, num)])

/-- The increments of SU and SD. -/
def pushTokens (s : State) (c : Nat) (e : Eng) (num : Nat) (su sd : Bool) : State :=
  let s := if su then pushToken s c e num (suQueue e) else s
  if sd then pushToken s c e num (sdQueue e) else s

/-- The waiting increment that can act: of what finished first, into a queue with room. -/
def nextPush (s : State) (c : Nat) (e : Eng) : Option (Nat × Nat) :=
  match pushesOf s c e with
  | [] => none
  | h :: t => (h :: t).find? (fun p => p.2 == h.2 && tokRoom s c p.1)

/-- An increment of the command waits. -/
def pushWaits (s : State) (c : Nat) (e : Eng) (num : Nat) : Bool := (pushesOf s c e).any (fun p => p.2 == num)

/-! Completion numbers (05 R90). -/

/-- CN of an engine, and the highest number given. -/
def cnOf (s : State) (c : Nat) (e : Eng) : Nat :=
  match e with
  | .cp => (s.cp c).cn
  | e => (s.eng c e).cn

/-- The highest n with every command up to n finished, given those finished beyond cn. -/
def advanceCn (ahead : List Nat) : Nat → Nat → Nat
  | 0, cn => cn
  | n + 1, cn => if ahead.contains (cn + 1) then advanceCn ahead n (cn + 1) else cn

/-- Command n of an engine has finished: CN advances as it can; a change sets every event flag of the core (12 R204). -/
def finishNumber (s : State) (c : Nat) (e : Eng) (n : Nat) : State :=
  let old := cnOf s c e
  let s := match e with
    | .cp => s.modCp c (fun p =>
        let a := insertNat p.ahead n
        let cn := advanceCn a a.length p.cn
        { p with cn := cn, ahead := a.filter (fun k => decide (cn < k)) })
    | e => s.modEng c e (fun g =>
        let a := insertNat g.ahead n
        let cn := advanceCn a a.length g.cn
        { g with cn := cn, ahead := a.filter (fun k => decide (cn < k)) })
  if cnOf s c e = old then s else setFlags s c none

/-- The status as the SC sees it: LD and ST count as ended once every command they enqueued has finished (15 R265); the CP ends in the same way (13 R234). -/
def engStatus (s : State) (c : Nat) (e : Eng) : EngStatus :=
  match e with
  | .cp => (s.cp c).status
  | e =>
    let g := s.eng c e
    if g.status == .ended && !(g.queue.isEmpty && g.flight.isEmpty && g.pushes.isEmpty) then .running else g.status

/-- The engine is running: started and not ended (12 R190). -/
def engRunning (s : State) (c : Nat) (e : Eng) : Bool := engStatus s c e == .running

/-! Rings (06 R106, R107). -/

def Ring.tile (r : Ring) : Nat := r.tileu.toNat * 512
def Ring.places (r : Ring) : Nat := r.bytes.toNat / r.tile
/-- Slice offset of a place, numbered since the ring was set. -/
def Ring.placeOff (r : Ring) (i : Nat) : Nat := r.basek.toNat * 1024 + i % r.places * r.tile
/-- Some place is neither reserved nor full. -/
def Ring.hasRoom (r : Ring) : Bool := decide (r.res < r.head + r.places)
/-- RGCFG and RGPTR as read (06 R106). -/
def Ring.cfg (r : Ring) : Word :=
  BitVec.ofNat 64 (r.v.toNat * 2 ^ 63 + r.tileu.toNat * 2 ^ 48 + r.bytes.toNat * 2 ^ 22 + r.basek.toNat * 2 ^ 10)
def Ring.ptr (r : Ring) : Word :=
  if r.places = 0 then 0
  else BitVec.ofNat 64 (r.tail / r.places % 2 * 2 ^ 52 + r.tail % r.places * r.tile * 2 ^ 32
    + r.head / r.places % 2 * 2 ^ 20 + r.head % r.places * r.tile)
/-- The oldest place from i on that is visible, not popped and not in `taken` (06 R107). -/
def Ring.claim (r : Ring) (taken : List Nat) : Option Nat :=
  ((List.range (r.tail - r.head)).map (fun i => r.head + i)).find? (fun i => !(r.popped.contains i) && !(taken.contains i))
/-- The visible tail moves over filled places in place order (06 R107). -/
def Ring.settleTail : Nat → Ring → Ring
  | 0, r => r
  | n + 1, r => if r.filled.contains r.tail then Ring.settleTail n { r with tail := r.tail + 1, filled := r.filled.erase r.tail } else r
/-- HEAD moves over popped places in place order (06 R107). -/
def Ring.settleHead : Nat → Ring → Ring
  | 0, r => r
  | n + 1, r => if r.popped.contains r.head then Ring.settleHead n { r with head := r.head + 1, popped := r.popped.erase r.head } else r
/-- A pop of a place: HEAD moves over it once every earlier place is popped (06 R107). -/
def Ring.pop (r : Ring) (place : Nat) : Ring := Ring.settleHead (r.popped.length + 1) { r with popped := insertNat r.popped place }
/-- The ring fault of 25 R339, DETAIL 3. -/
def ringFault (s : State) (c n : Nat) : FaultInfo := faultOf 0x08 3 (hallAddr c ((s.ring c n).basek.toNat * 1024))

/-! Walks (06 R103, 25 R340). -/

/-- Begins a walk, or joins one in progress for the page, with one more waiter. -/
def startWalk (s : State) (d tctx va : Nat) (write : Bool) (w : Walker) : State :=
  s.modDie d (fun x =>
    if x.walks.any (fun k => k.ctx == tctx && k.page == va / 2 ^ 16) then
      { x with walks := x.walks.map (fun k => if k.ctx = tctx ∧ k.page = va / 2 ^ 16 then
          (if k.waiters.contains (w, va, write) then k else { k with waiters := k.waiters ++ [(w, va, write)] }) else k) }
    else { x with walks := x.walks ++ [⟨tctx, va / 2 ^ 16, va, write, [(w, va, write)], none⟩] })

/-- The waiters of walks that name a core leave them: its launch goes off the core (25 R340). -/
def leaveWalks (s : State) (c : Nat) : State :=
  s.modDie (dieOf c) (fun x => { x with walks := x.walks.map (fun k => { k with waiters := k.waiters.filter (fun w => match w.1 with
    | .sc h _ => h != c
    | .eng h _ _ => h != c
    | _ => true) }) })

/-- The core's pushes that wait for a place leave the rings of its cluster (06 R107). -/
def leaveRings (s : State) (c : Nat) : State :=
  (List.range 8).foldl (fun s i => let o := clusterOf c * 8 + i
    s.modSeqs o (fun q => { q with rings := q.rings.map (fun p => (p.1, { p.2 with arrived := p.2.arrived.filter (fun a => a.1 != c) })) })) s

/-- A push that faults at its start leaves the rings where it waits (06 R107). -/
def leaveQueue (s : State) (c num : Nat) : State :=
  (List.range 8).foldl (fun s i => let o := clusterOf c * 8 + i
    if (s.seqs o).rings.any (fun p => p.2.arrived.contains (c, num)) then
      s.modSeqs o (fun q => { q with rings := q.rings.map (fun p => (p.1, { p.2 with arrived := p.2.arrived.erase (c, num) })) })
    else s) s

/-- A walk for the page is running or waiting. -/
def walking (s : State) (d tctx page : Nat) : Bool := (s.die d).walks.any (fun k => k.ctx == tctx && k.page == page)

/-! The slot wheel (16 R284). Positions are counted since boot: round x 4096 + position. -/

def State.wheelCount (s : State) : Nat := s.hub.round.toNat * 4096 + s.hub.wheel.toNat

/-- A launch owns the position (05 R89). -/
def ownsPosition (r : Running) (p : Nat) : Bool := r.wheelN != 0 && p % (4096 / r.wheelN) == r.wheelP % (4096 / r.wheelN)

/-! Arithmetic right at a home (12 R183). -/

/-- The new value of an atomic on an old value of `bits` bits. -/
def atomicNew (op : AtomicOp) (bits old v e : Nat) : Nat :=
  let so := sextNat bits old
  let sv := sextNat bits v
  match op with
  | .add => (old + v) % 2 ^ bits
  | .and => old &&& v
  | .or => old ||| v
  | .xor => old ^^^ v
  | .swp => v
  | .max => if so < sv then v else old
  | .min => if sv < so then v else old
  | .maxu => max old v
  | .minu => min old v
  | .cas => if old = e then v else old
  | .fmax => toF32 .rne (FVal.maxn (f32 old) (f32 v))
  | .fmin => toF32 .rne (FVal.minn (f32 old) (f32 v))
  | .fadd => add32 .rne old v

/-! The patch unit's closes (03 R42-R47). -/

/-- The patch-map entry of a close (03 R45). -/
def mapEntry (core slot cause len start ppos : Nat) : BitVec 128 :=
  BitVec.ofNat 128 (core * 2 ^ 110 + slot * 2 ^ 104 + cause * 2 ^ 102 + len * 2 ^ 88 + start * 2 ^ 32 + ppos)

/-- Slice offset of the map entry of close n (03 R46). -/
def mapOff (s : State) (c n : Nat) : Nat := (s.arch c).csrs.pmbase.toNat + 16 * (n % 256)

/-- The fault of a close whose entry R98 refuses (03 R46). -/
def mapRefuse (s : State) (c n : Nat) : Option FaultInfo :=
  (hallRefuse s (s.tctx c) c (mapOff s c n) 16).map (fun d => faultOf 0x08 d (hallAddr c (mapOff s c n)))

/-- A close: the map entry is written, PMCNT counts it and a boundary trap is queued (03 R45-R47). -/
def closePatch (s : State) (c l cause : Nat) : State :=
  let p := s.slot c l
  let n := (s.arch c).csrs.pmcnt.toNat
  let e := mapEntry c l cause p.pl.toNat p.ps.toNat p.pp.toNat
  let off := mapOff s c n
  let s := s.spadWrite c off (natBytes 16 e.toNat)
  let s := s.modCsrs c (fun r => { r with pmcnt := r.pmcnt + 1 })
  s.modArch c (fun a => { a with btraps := a.btraps ++ [⟨l, cause, e, hallAddr c off, s.now⟩] })

/-- PF as read (03 R38). -/
def PatchSlot.pf (p : PatchSlot) : BitVec 16 :=
  BitVec.ofNat 16 (p.endc.toNat * 64 + p.lcause.toNat * 16 + p.gen.toNat * 4 + p.state.toNat)

/-- A patch register as PRD reads it (12 R192). -/
def PatchSlot.read (p : PatchSlot) : PatchReg → Word
  | .pb => p.pb.setWidth 64
  | .pp => p.pp.setWidth 64
  | .ps => p.ps.setWidth 64
  | .pl => p.pl.setWidth 64
  | .pt => p.pt.setWidth 64
  | .pm => p.pm.setWidth 64
  | .pf => p.pf.setWidth 64
  | .pv => p.pv

/-- Width of a patch register (03 R37). -/
def patchWidth : PatchReg → Nat
  | .pb | .pp | .ps => 32
  | .pl | .pm => 8
  | .pt | .pf => 16
  | .pv => 64

/-- The state rule of PWR of PF that moves the slot (03 R40): from, to. -/
def pwrMove (fr to_ : BitVec 2) : Bool := (fr == 0 && to_ == 1) || (fr == 3 && to_ == 0) || ((fr == 1 || fr == 2) && to_ == 3)

/-- PWR (03 R38-R40): the slot after, and the status. -/
def PatchSlot.write (p : PatchSlot) (reg : PatchReg) (w : Word) : PatchSlot × Word :=
  let wide := decide (2 ^ (patchWidth reg) ≤ w.toNat)
  let closed := p.state == 0 || p.state == 3
  match reg with
  | .pt => if wide then (p, 2) else ({ p with pt := w.setWidth 16 }, 0)
  | .pv => ({ p with pv := w }, 0)
  | .pm => if wide || w == 0 || decide (w.toNat < p.pl.toNat) then (p, 2) else ({ p with pm := w.setWidth 8 }, 0)
  | .pb => if !closed then (p, 1) else if wide then (p, 2) else ({ p with pb := w.setWidth 32 }, 0)
  | .pp => if !closed then (p, 1) else if wide then (p, 2) else ({ p with pp := w.setWidth 32 }, 0)
  | .ps => if !closed then (p, 1) else if wide then (p, 2) else ({ p with ps := w.setWidth 32 }, 0)
  | .pl => if !closed then (p, 1) else if wide || decide (p.pm.toNat < w.toNat) then (p, 2) else ({ p with pl := w.setWidth 8 }, 0)
  | .pf =>
    let to_ : BitVec 2 := w.setWidth 2
    let gen := w.getLsbD 2
    let endc := w.toNat / 64 % 16
    if to_ = p.state then (if wide then (p, 2) else ({ p with gen := gen }, 0))
    else if !pwrMove p.state to_ then (p, 1)
    else if wide then (p, 2)
    else if to_ = 1 then ({ p with state := 1, gen := gen, pl := 0, ps := p.pb, endc := 0 }, 0)
    else if to_ = 3 then
      (if 2 ≤ endc ∧ endc ≤ 6 then ({ p with state := 3, gen := gen, endc := BitVec.ofNat 4 endc }, 0) else (p, 2))
    else ({ p with state := to_, gen := gen }, 0)

end Sys2Proof.Machine
end

