-- ==== Sys2Proof/Machine/Transfer.lean ====
section
/-! DEFINITION. The accesses of LD and ST data commands (spec 15 R266-R278, 06 R109-R111): a command is a list of units, each a read and then a write; one access at a time. -/

namespace Sys2Proof.Machine

/-! Fields of a command. -/

def Cmd.arg (k : Cmd) (i : Nat) : Nat := ((k.args[i]?).getD 0).toNat
/-- g = 2^G, G in [11:8] of the control word (15 R269). -/
def granule (ctl : Nat) : Nat := 2 ^ (ctl / 256 % 16)

/-- The once-only commands (05 R90). -/
def onceOnly : Instr → Bool
  | .send _ _ => true
  | .scat _ _ atom _ _ => atom
  | .kvcp _ dec inc _ => dec || inc
  | _ => false

/-- Count and signed stride of level j of a loop-nest record (02 R32). -/
def lntCount (w : BitVec 512) (j : Nat) : Nat := w.toNat / 2 ^ (64 * j) % 2 ^ 32
def lntStride (w : BitVec 512) (j : Nat) : Int := sextNat 32 (w.toNat / 2 ^ (64 * j + 32))
/-- Granules of a walk (15 R270). -/
def walkCount (w : BitVec 512) : Nat := [0, 1, 2, 3, 4, 5].foldl (fun n j => n * lntCount w j) 1
/-- The i-th granule's displacement, level 0 varying fastest (15 R270). -/
def walkOff (w : BitVec 512) (i : Nat) : Int :=
  ([0, 1, 2, 3, 4, 5].foldl (fun (p : Nat × Int) j =>
    (p.1 / lntCount w j, p.2 + ((p.1 % lntCount w j : Nat) : Int) * lntStride w j)) (i, 0)).2
/-- Its address, modulo 2^64. -/
def walkAddr (base : Nat) (w : BitVec 512) (i : Nat) : Nat := wrapInt 64 ((base : Int) + walkOff w i)
/-- i_1, the row of a walk with PADROW. -/
def walkRow (w : BitVec 512) (i : Nat) : Nat := i / lntCount w 0 % lntCount w 1
/-- The pad-mask bit of a row is 0 (03 R57). -/
def padded (s : State) (c row : Nat) : Bool :=
  match s.run c with
  | some r => !r.padmask.getLsbD (row % 64)
  | none => false

/-- Chunks of a byte range, on the 8-byte grid of its first address (15 R274). -/
def chunkCount (a n : Nat) : Nat := (a + n + 7) / 8 - a / 8
/-- Displacement and length of chunk i. -/
def chunkAt (a n i : Nat) : Nat × Nat :=
  let lo := max a (8 * (a / 8 + i))
  let hi := min (a + n) (8 * (a / 8 + i) + 8)
  (lo - a, hi - lo)

/-! Pool descriptors of KVCP (06 R110), held in aux as four words each. -/
def descPool (k : Cmd) (d : Nat) : Nat := ((k.aux[4 * d]?).getD 0).toNat
def descSize (k : Cmd) (d : Nat) : Nat := ((k.aux[4 * d + 1]?).getD 0).toNat % 2 ^ 32
def descCount (k : Cmd) (d : Nat) : Nat := ((k.aux[4 * d + 1]?).getD 0).toNat / 2 ^ 32
def descRc (k : Cmd) (d : Nat) : Nat := ((k.aux[4 * d + 2]?).getD 0).toNat
/-- KVCP names another module (15 R276, 17 R297). -/
def Cmd.remote (k : Cmd) : Bool := k.arg 3 != 0xFFFF
/-- Bytes of one copy unit of KVCP and PREF. -/
def copyUnit : Nat := 512

/-- The core's residency table entry and slot data, as slice offsets (06 R111). -/
def residencyEntry (s : State) (c n : Nat) : Nat := (s.arch c).csrs.rtbase.toNat + 16 * n
def residencyData (s : State) (c n : Nat) : Nat := (s.arch c).csrs.rtbase.toNat + 1024 + n * (s.arch c).csrs.rssize.toNat

/-- What a unit reads. -/
inductive Src where
  | none
  | zeros (n : Nat)
  | own (off n : Nat)
  | virt (va n : Nat)
  | row (tile r : Nat) (t : ElemType) (rm : Rm)
deriving DecidableEq, Repr

/-- What a KVCP asks of another module (17 R297): bytes of a page, a count update, or the checks of its descriptor alone. -/
inductive FarKind where
  | copy | inc | check
deriving DecidableEq, Repr

/-- What a unit writes; `page` is a piece at va of a page of n bytes at base that is translated once (28 R375). -/
inductive Dst where
  | none
  | own (core off : Nat)
  | places (off : List (Nat × Nat))
  | virt (va : Nat)
  | add (va : Nat) (fadd : Bool)
  | aux
  | page (va n base : Nat)
  | remote (module_ : Nat) (kind : FarKind) (off : Nat)
  | message (dst : Nat)
deriving DecidableEq, Repr

/-- COPY (15 R274, 16 R281) reads whole words of its source and writes whole words of its destination: where the source is the further along in its word, a word is written one unit after the read that completes it. -/
def copyLag (k : Cmd) : Nat := if k.arg 0 % 8 < k.arg 1 % 8 then 1 else 0
/-- Displacement and length of what unit i of a COPY writes. -/
def copyWrite (k : Cmd) (i : Nat) : Nat × Nat :=
  if copyLag k ≤ i ∧ i - copyLag k < chunkCount (k.arg 0) (k.arg 2) then chunkAt (k.arg 0) (k.arg 2) (i - copyLag k) else (0, 0)

/-- The last word read into aux. -/
def Cmd.lastAux (k : Cmd) : Nat := ((k.aux.getLast?).getD 0).toNat

/-- A KVCP that sends the other module nothing but what its descriptor there is checked for (15 R276, 17 R297). -/
def onlyChecks (k : Cmd) : Bool := k.remote && (match k.op with | .kvcp _ _ inc cpy => !inc && !cpy | _ => false)

/-- Units of a command. -/
def unitCount (s : State) (c : Nat) (k : Cmd) : Nat :=
  match k.op with
  | .tile _ _ | .drain _ _ _ | .mcast _ => walkCount k.lnt
  | .accst _ _ => k.arg 2 / 2 ^ 24 % 128
  | .gath _ _ | .scat _ _ _ _ _ => 2 * (k.arg 2 / 2 ^ 16 % 8192)
  | .copy _ => max (chunkCount (k.arg 1) (k.arg 2)) (chunkCount (k.arg 0) (k.arg 2) + copyLag k)
  | .fill _ => chunkCount (k.arg 0) (k.arg 1)
  | .kvcp _ dec inc cpy => 2 + (if cpy then (descSize k 0 + copyUnit - 1) / copyUnit else 0) + inc.toNat + dec.toNat + (onlyChecks k).toNat
  | .pref _ => 1 + (s.arch c).csrs.rssize.toNat / copyUnit
  | _ => 1

/-- The ring of a command. -/
def Cmd.ringNo (k : Cmd) : Nat :=
  match k.op with
  | .gath _ _ | .scat _ _ _ _ _ => k.arg 2 % 16
  | _ => k.arg 1 % 16

/-- The read and the write of unit i (15 R271-R278). -/
def unitOf (s : State) (c : Nat) (k : Cmd) (i : Nat) : Src × Dst :=
  let ring := s.ring c k.ringNo
  let g1 := granule (k.arg 1)
  match k.op with
  | .tile _ pad =>
    (if pad && padded s c (walkRow k.lnt i) then .zeros g1 else .virt (walkAddr (k.arg 0) k.lnt i) g1, .own c (ring.placeOff k.place + i * g1))
  | .drain _ _ pad =>
    if pad && padded s c (walkRow k.lnt i) then (.none, .none)
    else (.own (ring.placeOff k.place + i * g1) g1, .virt (walkAddr (k.arg 0) k.lnt i))
  | .mcast _ =>
    (.virt (walkAddr (k.arg 0) k.lnt i) g1,
     .places (k.targets.map (fun t => (t.1, (s.ring t.1 k.ringNo).placeOff t.2 + i * g1))))
  | .accst _ pad =>
    let ctl := k.arg 2
    let r := ctl / 2 ^ 16 % 64 + i
    let t := (ElemType.ofCode (ctl / 256 % 16)).getD .i8
    if pad && padded s c r then (.none, .none)
    else (.row (ctl % 64) r t (Rm.ofCode (ctl / 2 ^ 12 % 4)), .virt (wrapInt 64 ((k.arg 0 : Int) + (i : Int) * sextNat 64 (k.arg 1))))
  | .gath _ pad =>
    let n := k.arg 2 / 2 ^ 16 % 8192
    let g := granule (k.arg 2)
    let row := i % n
    if i < n then (if pad && padded s c row then (.zeros 4, .aux) else (.virt (k.arg 1 + 4 * row) 4, .aux))
    else
      (if pad && padded s c row then .zeros g
       else .virt ((k.arg 0 + ((k.aux[row]?).getD 0).toNat * g) % 2 ^ 64) g, .own c (ring.placeOff k.place + row * g))
  | .scat _ fadd atom _ pad =>
    let g := granule (k.arg 2)
    let row := i / 2
    if pad && padded s c row then (.none, .none)
    else if i % 2 = 0 then (.virt (k.arg 1 + 4 * row) 4, .aux)
    else
      let va := (k.arg 0 + k.lastAux * g) % 2 ^ 64
      (.own (ring.placeOff k.place + row * g) g, if atom then .add va fadd else .virt va)
  | .copy _ =>
    let (o, n) := chunkAt (k.arg 1) (k.arg 2) i
    (if i < chunkCount (k.arg 1) (k.arg 2) then .virt (k.arg 1 + o) n else .none,
     if (copyWrite k i).2 = 0 then .none else .virt (k.arg 0 + (copyWrite k i).1))
  | .fill _ => (.none, .virt (k.arg 0 + (chunkAt (k.arg 0) (k.arg 1) i).1))
  | .kvcp _ dec inc cpy =>
    let m := if cpy then (descSize k 0 + copyUnit - 1) / copyUnit else 0
    let sp := k.arg 2 % 2 ^ 32
    let dp := k.arg 2 / 2 ^ 32
    if i = 0 then (.virt (k.arg 0) 32, .aux)
    else if i = 1 then (if k.remote then .zeros 32 else .virt (k.arg 1) 32, .aux)
    else if i < 2 + m && k.prog % 2 == 1 then (.none, .none)
    else if i < 2 + m then
      let o := (i - 2) * copyUnit
      (.virt (descPool k 0 + sp * descSize k 0 + o) (min copyUnit (descSize k 0 - o)),
       if k.remote then .remote (k.arg 3) .copy o else .page (descPool k 1 + dp * descSize k 1 + o) (descSize k 1) (descPool k 1 + dp * descSize k 1))
    else if inc && i == 2 + m then (.none, if k.prog % 2 = 1 then .none else if k.remote then .remote (k.arg 3) .inc 0 else .add (descRc k 1 + 4 * dp) false)
    else if onlyChecks k && i == 2 then (.none, .remote (k.arg 3) .check 0)
    else (.none, if dec && k.prog / 2 % 2 == 0 then .add (descRc k 0 + 4 * sp) false else .none)
  | .send _ pad =>
    if pad && padded s c (k.arg 2 / 2 ^ 48 % 64) then (.none, .none) else (.virt (k.arg 0) (k.arg 2 % 65536), .message (k.arg 1))
  | .pref _ =>
    if i = 0 then (.none, .virt (hallAddr c (residencyEntry s c (k.arg 1))))
    else
      let o := (i - 1) * copyUnit
      (.virt (k.arg 0 + o) copyUnit, .virt (hallAddr c (residencyData s c (k.arg 1) + o)))
  | .evict _ => (.none, .virt (hallAddr c (residencyEntry s c (k.arg 0) + 8)))
  | _ => (.none, .none)

/-- The bytes that a unit without a read writes. -/
def unitBytes (k : Cmd) (i : Nat) : List Byte :=
  match k.op with
  | .fill _ =>
    let (o, n) := chunkAt (k.arg 0) (k.arg 1) i
    (List.range n).map (fun j => BitVec.ofNat 8 (k.arg 2 / 2 ^ (8 * ((k.arg 0 + o + j) % 8))))
  | .kvcp _ dec inc cpy =>
    let m := if cpy then (descSize k 0 + copyUnit - 1) / copyUnit else 0
    if inc && i == 2 + m then natBytes 4 1 else if dec then natBytes 4 (2 ^ 32 - 1) else []
  | .pref _ => natBytes 8 (k.arg 0) ++ natBytes 8 1
  | .evict _ => natBytes 8 0
  | _ => []

/-- What a micro-step of a command answers: the access made, a wait, or a fault. -/
inductive Micro where
  | ok (s : State) (k : Cmd)
  | wait (s : State)
  | fault (s : State) (f : FaultInfo)

/-- What an engine's virtual access answers. -/
inductive VAns where
  | ok (s : State) (l : Loc)
  | wait (s : State)
  | fault (s : State) (f : FaultInfo)

/-- What has arrived at a slice that was off still waits to be performed there. -/
def partyWaits (s : State) : Arriver → Bool
  | .access n => s.accesses.any (fun a => a.seq == n)
  | .command c e n => (s.eng c e).flight.any (fun k => k.num == n && !k.finished && k.faulted.isNone && cmdGoes s c e k)
  | .message c n => s.messages.any (fun m => m.core == c && m.cmd == n)
  | .unit d => (s.die d).rrun.isSome || (s.die d).rcopy.isSome
  | .other => false

/-- Nothing that arrived earlier waits at the slice (07 R117). -/
def mayReach (s : State) (h : Nat) (p : Arriver) : Bool :=
  match s.arrived.find? (fun x => x.1 == h && partyWaits s x.2) with
  | none => true
  | some x => x.2 == p

/-- An access from a die in a context reaches its home with n bytes: R98, the path and the gate. -/
def arriveHome (s : State) (d tctx : Nat) (p : Arriver) (va n : Nat) (l : Loc) : VAns :=
  match homeRefuse s tctx l n va with
  | some f => .fault s f
  | none => match reachFault s d l va with
    | some f => .fault s f
    | none =>
      if pathIn s d l.die 2 then .wait s
      else match l with
        | .slice h _ => if !sliceUp s h then .wait (arriveAt s h p) else if mayReach s h p then .ok (leaveSlice s h p) l else .wait s
        | .hbm _ _ => .ok s l

/-- An access of a command. -/
def reachHome (s : State) (c : Nat) (e : Eng) (num va n : Nat) (l : Loc) : VAns := arriveHome s (dieOf c) (s.tctx c) (.command c e num) va n l

/-- Finds the home of n bytes that do not cross a page: walk, R98, link and gate. -/
def vlocate (s : State) (c : Nat) (e : Eng) (num va n : Nat) (write : Bool) : VAns :=
  match lookup s (dieOf c) (s.tctx c) va write with
  | .fault f => .fault s f
  | .miss => .wait (startWalk s (dieOf c) (s.tctx c) va write (.eng c e num))
  | .loc l => reachHome s c e num va n l

/-- The bytes up to the next 64 KiB boundary, at most n. -/
def pagePiece (va n : Nat) : Nat := min n (2 ^ 16 - va % 2 ^ 16)

/-- What a read of virtual bytes answers. -/
inductive RAns where
  | ok (s : State) (bs : List Byte)
  | wait (s : State)
  | fault (s : State) (f : FaultInfo)

/-- Reads n bytes, page by page. -/
def vread (s : State) (c : Nat) (e : Eng) (num : Nat) : Nat → Nat → Nat → RAns
  | 0, _, _ => .ok s []
  | _, _, 0 => .ok s []
  | fuel + 1, va, n =>
    let p := pagePiece va n
    match vlocate s c e num va p false with
    | .fault s f => .fault s f
    | .wait s => .wait s
    | .ok s l =>
      if s.locPoison l p then .fault s (faultOf 0x08 8 va)
      else match vread s c e num fuel (va + p) (n - p) with
        | .ok s bs => .ok (corrected s l p) (s.locRead l p ++ bs)
        | .wait s => .wait s
        | .fault s f => .fault s f

/-- Writes bytes, page by page; the pieces before a fault stand. -/
def vwrite (s : State) (c : Nat) (e : Eng) (num : Nat) : Nat → Nat → List Byte → RAns
  | 0, _, _ => .ok s []
  | _, _, [] => .ok s []
  | fuel + 1, va, bs =>
    let p := pagePiece va bs.length
    match vlocate s c e num va p true with
    | .fault s f => .fault s f
    | .wait s => .wait s
    | .ok s l => vwrite (s.locWrite l (bs.take p)) c e num fuel (va + p) (bs.drop p)

/-- 32-bit adds at a home, word by word (15 R273, R276). -/
def addWords (s : State) (l : Loc) (fadd : Bool) : List Byte → State
  | b0 :: b1 :: b2 :: b3 :: t =>
    let old := bytesNat (s.locRead l 4)
    let v := bytesNat [b0, b1, b2, b3]
    addWords (s.locWrite l (natBytes 4 (atomicNew (if fadd then .fadd else .add) 32 old v 0))) (l.plus 4) fadd t
  | _ => s

/-- The 64 converted elements of an accumulator row, packed (15 R272). -/
def rowBytes (s : State) (c tile r : Nat) (t : ElemType) (rm : Rm) : List Byte :=
  let es := (sget {} (s.core c).acc tile).elems
  let v := (List.range 64).foldl (fun acc j => acc + (sget {} es (64 * r + j)).convert t rm * 2 ^ (t.width * j)) 0
  natBytes (8 * t.width) v

/-- Some element of an accumulator row is poisoned (25 R351). -/
def rowPoison (s : State) (c tile r : Nat) : Bool :=
  (List.range 64).any (fun j => (sget {} (sget {} (s.core c).acc tile).elems (64 * r + j)).poisoned)

/-- The checks of KVCP's descriptors, once both are read (15 R276): a parameter fault. -/
def kvcpFault (k : Cmd) : Option FaultInfo :=
  match k.op with
  | .kvcp _ _ _ cpy =>
    let sp := k.arg 2 % 2 ^ 32
    let dp := k.arg 2 / 2 ^ 32
    if descCount k 0 ≤ sp ∨ (k.remote = false ∧ (descCount k 1 ≤ dp ∨ (cpy ∧ descSize k 0 ≠ descSize k 1))) then some (faultOf 0x04 3 0) else none
  | _ => none

/-- PROG after the write of unit i (24 R328); the count of another module is performed once it is acknowledged. -/
def progAfter (k : Cmd) (i : Nat) : Nat :=
  match k.op with
  | .scat _ _ atom _ _ => if atom && i % 2 == 1 then i / 2 + 1 else k.prog
  | .kvcp _ dec inc cpy =>
    let m := if cpy then (descSize k 0 + copyUnit - 1) / copyUnit else 0
    if inc && i == 2 + m then (if k.remote then k.prog else k.prog ||| 1) else if dec && decide (2 + m + (onlyChecks k).toNat ≤ i) then k.prog ||| 2 else k.prog
  | _ => k.prog

/-- How many of n bytes from va a step of w words makes: up to the next word boundary but w - 1 (16 R281). -/
def stepLen (va n w : Nat) : Nat := min n (8 * max 1 w - va % 8)

/-- The half is done, or m bytes more of its n. -/
def Cmd.advance (k : Cmd) (m n : Nat) : Cmd :=
  if n ≤ k.sub + m then { k with pos := k.pos + 1, sub := 0 } else { k with sub := k.sub + m }

/-- The reading half of unit i, or w words of it. -/
def readHalf (s : State) (c : Nat) (e : Eng) (k : Cmd) (i w : Nat) : Micro :=
  let go (s : State) (bs : List Byte) (m n : Nat) (acc : Bool) : Micro := .ok s { (k.advance m n) with buf := k.buf ++ bs, accessed := k.accessed || acc }
  match (unitOf s c k i).1 with
  | .none => go s (unitBytes k i) 0 0 false
  | .zeros n => go s (List.replicate n 0) 0 0 false
  | .own off n =>
    let m := stepLen (off + k.sub) (n - k.sub) w
    if s.spadPoison c (off + k.sub) m then .fault s (faultOf 0x08 8 (hallAddr c (off + k.sub))) else go s (s.spadRead c (off + k.sub) m) m n true
  | .virt va n =>
    let m := stepLen (va + k.sub) (n - k.sub) w
    match vread s c e k.num 4 (va + k.sub) m with
    | .ok s bs => go s bs m n true
    | .wait s => .wait s
    | .fault s f => .fault s f
  | .row tile r t rm => if rowPoison s c tile r then .fault s (faultOf 0x08 8 0) else go s (rowBytes s c tile r t rm) 0 0 true

/-- The words of bytes, 8 at a time. -/
def bytesWords : Nat → List Byte → List Word
  | 0, _ => []
  | n + 1, bs => if bs.isEmpty then [] else BitVec.ofNat 64 (bytesNat (bs.take 8)) :: bytesWords n (bs.drop 8)

/-- Ports of a module's route that are neither dead nor disabled (17 R296, 25 R346). -/
def livePorts (s : State) (module_ : Nat) : List Nat :=
  let mask : BitVec 18 := sget 0 s.hub.routes module_
  (List.range 18).filter (fun p => mask.getLsbD p && (s.link (.port p)).state != 3 && !(s.link (.port p)).disable)
/-- The port that core c sends by: its number modulo the number of live ports of the mask. -/
def portOf (s : State) (c module_ : Nat) : Option Nat := (livePorts s module_)[c % (livePorts s module_).length]?

/-- The 64 KiB pages that n bytes from a base touch, and the first of the bytes in page j of them. -/
def pageCount (base n : Nat) : Nat := (base + n + 65535) / 65536 - base / 65536
def pageStart (base j : Nat) : Nat := if j = 0 then base else (base / 65536 + j) * 65536

/-- Where va of a page at base lies, by its pages' places. -/
def placeIn (locs : List Loc) (base va : Nat) : Loc :=
  let j := va / 2 ^ 16 - base / 2 ^ 16
  ((locs[j]?).getD (.slice 0 0)).plus (if j = 0 then va - base else va % 2 ^ 16)

/-- The writing half of unit i, or w words of it. -/
def writeHalf (s : State) (c : Nat) (e : Eng) (k : Cmd) (i w : Nat) : Micro :=
  let n := match k.op with | .copy _ => (copyWrite k i).2 | _ => k.buf.length
  let last (k' : Cmd) : Cmd := if k'.pos = k.pos then k' else { k' with prog := progAfter k i, buf := k.buf.drop n }
  let go (s : State) (m : Nat) : Micro := .ok s { (last (k.advance m n)) with accessed := true }
  let rest : List Byte := (k.buf.take n).drop k.sub
  match (unitOf s c k i).2 with
  | .none => .ok s (last (k.advance n n))
  | .own h off =>
    let m := stepLen (off + k.sub) (n - k.sub) w
    if sliceUp s h then go (s.spadWrite h (off + k.sub) (rest.take m)) m else .wait s
  | .places l =>
    let m := stepLen k.sub (n - k.sub) w
    let p : Arriver := .command c e k.num
    match l.find? (fun t => !sliceUp s t.1) with
    | some t => .wait (arriveAt s t.1 p)
    | none => if l.all (fun t => mayReach s t.1 p) then go (l.foldl (fun s t => (leaveSlice s t.1 p).spadWrite t.1 (t.2 + k.sub) (rest.take m)) s) m else .wait s
  | .virt va =>
    let m := stepLen (va + k.sub) (n - k.sub) w
    match vwrite s c e k.num 4 (va + k.sub) (rest.take m) with
    | .ok s _ => go s m
    | .wait s => .wait s
    | .fault s f => .fault s f
  | .page va total base =>
    if k.locs.length < pageCount base total then
      match lookup s (dieOf c) (s.tctx c) (pageStart base k.locs.length) true with
      | .loc x => .ok s { k with locs := k.locs ++ [x] }
      | .miss => .wait (startWalk s (dieOf c) (s.tctx c) (pageStart base k.locs.length) true (.eng c e k.num))
      | .fault f => .fault s f
    else
      let m := min (stepLen (va + k.sub) (n - k.sub) w) (pagePiece (va + k.sub) n)
      match reachHome s c e k.num (va + k.sub) m (placeIn k.locs base (va + k.sub)) with
      | .ok s l => go (s.locWrite l (rest.take m)) m
      | .wait s => .wait s
      | .fault s f => .fault s f
  | .add va fadd =>
    let m := min (n - k.sub) (4 * max 1 w)
    if !k.acks.isEmpty then .wait s
    else if va % 4 ≠ 0 then .fault s (faultOf 0x06 2 va)
    else match vlocate s c e k.num (va + k.sub) m true with
      | .ok s l => if s.locPoison l m then .fault s (faultOf 0x08 8 (va + k.sub)) else go (addWords (corrected s l m) l fadd (rest.take m)) m
      | .wait s => .wait s
      | .fault s f => .fault s f
  | .aux =>
    let k' := { (last (k.advance n n)) with aux := k.aux ++ bytesWords 8 k.buf }
    if i = 1 then (match kvcpFault k' with
      | some f => .fault s f
      | none => .ok s k')
    else .ok s k'
  | .remote dest kind off =>
    if kind == .inc && !k.acks.isEmpty then .wait s
    else match portOf s c dest with
      | none => .fault s (faultOf 0x08 7 (k.arg 1))
      | some p =>
        if (s.link (.port p)).state ≠ 1 then .wait s
        else
          let dp := k.arg 2 / 2 ^ 32
          let packet : Packet := match kind with | .inc => .inc (k.arg 1) dp | .check => .check (k.arg 1) dp | .copy => .copy (k.arg 1) dp (descSize k 0) off k.buf
          .ok (s.modHub (fun h => { h with outbound := h.outbound ++ [⟨dest, p, c, e, k.num, packet⟩] }))
            { (last (k.advance n n)) with accessed := true, acks := k.acks ++ [p] }
  | .message dst =>
    if 2 ^ 57 ≤ dst then .fault s (faultOf 0x0A 0 dst)
    else if 2 ^ 31 ≤ dst then .fault s (faultOf 0x08 2 dst)
    else
      let msg : Message := ⟨c, k.num, dst, k.buf, k.arg 2 / 2 ^ 16 % 65536, k.arg 2 / 2 ^ 32 % 65536, s.tctx c, false, 0⟩
      let h := dst / Config.sliceBytes
      let queued := (s.eng c e).replays.any (fun r => r.msg.dst / Config.sliceBytes == h)
      let s := if queued then
          (s.modEng c e (fun g => { g with replays := g.replays ++ [⟨msg, 0, 0, false⟩] }))
        else { s with messages := s.messages ++ [msg] }
      .ok s { k with pos := k.pos + 1, sent := true, accessed := k.accessed && !queued }

/-! The order of an engine's accesses (15 R267). -/

/-- The home of a virtual address of the core's launch, if it has one now. -/
def vaHome (s : State) (c va : Nat) : Option Nat :=
  match lookup s (dieOf c) (s.tctx c) va false with
  | .loc l => some l.home
  | .miss => (match walkNow s (dieOf c) (s.tctx c) va false with
    | (_, .ok t) => some (Loc.hbm (t.addr va) t.key).home
    | _ => none)
  | .fault _ => none

/-- The number that stands for the homes of another module, which packets of one engine reach in order (17 R297). -/
def farHome (module_ : Nat) : Nat := 1024 + module_

/-- The home that a read goes to, and those of a write. -/
def srcHome (s : State) (c : Nat) : Src → Option Nat
  | .virt va _ => vaHome s c va
  | .own _ _ => some c
  | _ => none
def dstHomes (s : State) (c : Nat) : Dst → List Nat
  | .own h _ => [h]
  | .places l => l.map (fun t => t.1)
  | .virt va | .add va _ | .page va _ _ => (vaHome s c va).toList
  | .message dst => [dst / Config.sliceBytes]
  | .remote m _ _ => [farHome m]
  | _ => []

/-- The addresses of unit i are known: they depend on no word that the command has yet to read. -/
def unitKnown (k : Cmd) (i : Nat) : Bool :=
  match k.op with
  | .gath _ _ => let n := k.arg 2 / 2 ^ 16 % 8192; decide (i < n) || decide (i - n < k.aux.length)
  | .scat _ _ _ _ _ => i % 2 == 0 || i == k.pos / 2
  | .kvcp _ _ _ _ => decide (i < 2) || decide (8 ≤ k.aux.length)
  | _ => true

/-- An earlier command whose accesses are not all made; a SEND's are once it is accepted. -/
def stillRuns (k : Cmd) : Bool := !k.finished && k.faulted.isNone && !(k.sent && k.prog == 1)

/-- The slice that the message of a SEND on its way goes to (15 R277). -/
def sendHome (k : Cmd) (h : Nat) : Bool := k.sent && k.arg 1 / Config.sliceBytes == h

/-- The units from lo on. -/
def unitsFrom (s : State) (c : Nat) (k : Cmd) (lo : Nat) : List Nat := (List.range (unitCount s c k - lo)).map (fun i => lo + i)
/-- The command may still read at a home, or write there; a SEND on its way writes at its slice. -/
def willRead (s : State) (c : Nat) (k : Cmd) (h : Nat) : Bool :=
  (unitsFrom s c k ((k.pos + 1) / 2)).any (fun i => !unitKnown k i || srcHome s c (unitOf s c k i).1 == some h)
def willWrite (s : State) (c : Nat) (k : Cmd) (h : Nat) : Bool :=
  sendHome k h || (unitsFrom s c k (k.pos / 2)).any (fun i => !unitKnown k i || (dstHomes s c (unitOf s c k i).2).contains h)

/-- The hall addresses where n bytes of a write begin, where it goes to slices. -/
def writeStarts : Dst → List Nat
  | .own h off => [hallAddr h off]
  | .places l => l.map (fun t => hallAddr t.1 t.2)
  | .virt va | .add va _ | .page va _ _ | .message va => [va]
  | _ => []

/-- The payload of an earlier SEND overlaps a write of n bytes. -/
def sendOver (j : Cmd) (u : Dst) (n : Nat) : Bool := (writeStarts u).any (fun a => decide (a < j.arg 1 + j.arg 2 % 65536) && decide (j.arg 1 < a + n))

/-- The next access of the command must wait for an earlier command's at its home (15 R267): a read for its reads, a write for its reads and writes. A read is not ordered behind earlier writes: it holds the old value or the new. A SEND that waits to be sent again has made no access, and holds up only what overlaps it; what is held incomplete holds up nothing. -/
def cmdHeld (s : State) (c : Nat) (e : Eng) (k : Cmd) (earlier : List Cmd) : Bool :=
  let live := earlier.filter (fun j => stillRuns j && !heldBack s c e j)
  let u := unitOf s c k (k.pos / 2)
  !live.isEmpty && (if k.pos % 2 = 0 then (match srcHome s c u.1 with
      | some h => live.any (fun j => willRead s c j h)
      | none => false)
    else live.any (fun j => if replayWaits s c e j then sendOver j u.2 k.buf.length else (dstHomes s c u.2).any (fun h => willRead s c j h || willWrite s c j h)))

/-- Every access of the command has been made. -/
def accessesDone (s : State) (c : Nat) (k : Cmd) : Bool := k.started && decide (2 * unitCount s c k ≤ k.pos)

/-- The places a command has filled are marked, for the tail to move over them, with the arrivals of an MCAST (06 R107, R109). -/
def markFilled (s : State) (c : Nat) (k : Cmd) : State :=
  match k.op with
  | .tile _ _ | .gath _ _ => s.modRing c k.ringNo (fun r => { r with filled := insertNat r.filled k.place })
  | .mcast _ => k.targets.foldl (fun s t => s.modRing t.1 k.ringNo (fun r =>
      { r with filled := insertNat r.filled t.2, signals := r.signals ++ [(t.2, k.arg 1 / 2 ^ 12 % 8, c)] })) s
  | _ => s

/-- One access of a command (15 R267): w words of its next half unit; after its last the filled places are marked. -/
def cmdStep (s : State) (c : Nat) (e : Eng) (k : Cmd) (w : Nat) : Micro :=
  let m := if k.pos % 2 = 0 then readHalf s c e k (k.pos / 2) w else writeHalf s c e k (k.pos / 2) w
  match m with
  | .ok s k' => if 2 * unitCount s c k' ≤ k'.pos then .ok (markFilled s c k') k' else .ok s k'
  | m => m

/-! The journal (05 R90, 24 R327). -/

/-- Slice offset of save frame f (05 R88). -/
def frameOff (f : Nat) : Nat := Config.sliceReserved + 16384 * f

/-- Writes a journal entry: number, engine code, flags, pc, PROG. -/
def journalWrite (s : State) (c idx num eng flags pc prog : Nat) : State :=
  match s.run c with
  | some r => s.spadWrite c (frameOff r.frame + 16 * (idx % 256))
      (natBytes 4 num ++ natBytes 1 eng ++ natBytes 1 flags ++ natBytes 2 pc ++ natBytes 4 prog ++ natBytes 4 0)
  | none => s

/-- The engine codes of the trap record and the journal (24 R324, R327). -/
def Eng.recCode : Eng → Nat
  | .ld => 4 | .cp => 5 | .st => 6

/-- A command's entry as it stands. -/
def journalCmd (s : State) (c : Nat) (e : Eng) (k : Cmd) : State :=
  journalWrite s c k.jidx k.num (Eng.recCode e) (k.finished.toNat + 2 * (onceOnly k.op).toNat + 4 * k.faulted.isSome.toNat) (k.pc % 8192)
    (if onceOnly k.op then k.prog else 0)

/-- Replaces a command in flight. -/
def setFlight (s : State) (c : Nat) (e : Eng) (k : Cmd) : State :=
  s.modEng c e (fun g => { g with flight := g.flight.map (fun j => if j.num = k.num then k else j) })

/-- A command in flight by its number. -/
def findFlight (s : State) (c : Nat) (e : Eng) (num : Nat) : Option Cmd := (s.eng c e).flight.find? (fun k => k.num == num)

/-- The token bits of a command word. -/
def tokOf : Instr → Tok
  | .tile t _ | .drain t _ _ | .accst t _ | .gath t _ | .scat t _ _ _ _ | .copy t | .fill t | .mcast t | .kvcp t _ _ _
  | .send t _ | .pref t | .evict t | .waitn t _ => t
  | _ => ⟨false, false, false, false⟩

/-- The entry state of a residency slot: 0 EMPTY, 1 FILLING, 2 VALID (06 R111). A PREF's `prog` is 1 once its fill is installed. -/
def slotState (s : State) (c n : Nat) : Nat := bytesNat (s.spadRead c (residencyEntry s c n + 8) 1)

/-- The command has done all that R71 asks of it before it finishes. -/
def mayFinish (s : State) (c : Nat) (k : Cmd) : Bool :=
  accessesDone s c k && k.faulted.isNone && !k.finished && k.acks.isEmpty && (match k.op with
    | .send _ _ => !k.sent || k.prog == 1
    | .pref _ => k.prog == 1
    | .mcast _ => k.targets.all (fun t => decide (t.2 < (s.ring t.1 k.ringNo).tail))
    | _ => true)

/-- A command whose tokens are pushed is done: marked in the journal, out of flight, and CN advances (05 R90, 04 R71). -/
def doneCmd (s : State) (c : Nat) (e : Eng) (k : Cmd) : State :=
  let s := journalCmd s c e k
  let s := s.modEng c e (fun g => { g with flight := g.flight.filter (fun j => j.num != k.num) })
  let s := finishNumber s c e k.num
  countEvent s c (match e with | .ld => 4 | _ => 5) 1

/-- A command finishes: pops its tile and pushes its tokens; while one of these waits, it is not done (15 R266, 04 R71, the example of 23 R321). -/
def finishCmd (s : State) (c : Nat) (e : Eng) (k : Cmd) : State :=
  let pop (s : State) : State := s.modRing c k.ringNo (fun r => r.pop k.place)
  let s := match k.op with
    | .drain _ keep _ => if keep then s else pop s
    | .scat _ _ _ keep _ => if keep then s else pop s
    | _ => s
  let k := { k with finished := true }
  let s := pushTokens (setFlight s c e k) c e k.num (tokOf k.op).su (tokOf k.op).sd
  if pushWaits s c e k.num then s else doneCmd s c e k

/-- The commands in flight before a command. -/
def earlierCmds (s : State) (c : Nat) (e : Eng) (num : Nat) : List Cmd := (s.eng c e).flight.takeWhile (fun j => j.num != num)

/-- The engine has a command that has made an access and has neither finished nor faulted (24 R323). -/
def accessedOpen (s : State) (c : Nat) (e : Eng) : Bool := (s.eng c e).flight.any (fun k => k.accessed && k.faulted.isNone && !k.finished)

/-! The start of a command (15 R266 stage 3). -/

/-- Places of ring n claimed by earlier unfinished commands of the engine (06 R107). -/
def ringClaims (g : Engine) (num n : Nat) : List Nat :=
  (g.flight.filter (fun j => decide (j.num < num) && j.started && !j.finished && j.ringNo == n)).flatMap (fun j => match j.op with
    | .drain _ keep _ => if keep then [] else [j.place]
    | .scat _ _ _ keep _ => if keep then [] else [j.place]
    | _ => [])

/-- The cores of an MCAST, in ascending order (15 R275). -/
def mcastCores (c : Nat) (k : Cmd) : List Nat :=
  ((List.range 8).filter (fun i => k.arg 1 / 2 ^ (16 + i) % 2 = 1)).map (fun i => clusterOf c * 8 + i)

/-- The table captured by a command that walks, if it walks (15 R270). -/
def walkTable (k : Cmd) : Option Nat :=
  match k.op with
  | .tile _ _ | .drain _ _ _ | .mcast _ => some (k.arg 1 / 16 % 16)
  | _ => none

/-- A level count of 0, or a stride that is not a multiple of g (15 R270, 27 R361). -/
def walkBad (w : BitVec 512) (g : Nat) : Bool :=
  [0, 1, 2, 3, 4, 5].any (fun j => lntCount w j == 0 || lntStride w j % (g : Int) != 0)

/-- What the start of a command answers: a fault, a wait, or the command with its places. -/
inductive Starts where
  | fault (f : FaultInfo)
  | ring
  | wait
  | go (s : State) (k : Cmd)

/-- The fault of a command whose tile is larger than the ring's: of a walk a parameter fault (15 R271, 27 R361), of an index list, whose limit was checked at its enqueue, a memory fault (25 R339). -/
def tileFault (s : State) (c : Nat) (k : Cmd) : FaultInfo := if (walkTable k).isSome then faultOf 0x04 3 0 else ringFault s c k.ringNo

/-- Pushes reserve places in their order of arrival at the ring (06 R107): nothing that arrived earlier waits there. -/
def Ring.first (r : Ring) (who : Nat × Nat) : Bool := match r.arrived with | [] => true | h :: _ => h == who
/-- A push takes its place. -/
def Ring.reserve (r : Ring) (who : Nat × Nat) : Ring := { r with res := r.res + 1, arrived := r.arrived.filter (fun a => a != who) }
/-- A push has arrived at the ring of a core and waits. -/
def joinRing (s : State) (t n : Nat) (who : Nat × Nat) : State :=
  s.modRing t n (fun r => if r.arrived.contains who then r else { r with arrived := r.arrived ++ [who] })

/-- Reserves a place of the core's ring for a push of n bytes. -/
def startPush (s : State) (c : Nat) (k : Cmd) (n : Nat) : Starts :=
  let r := s.ring c k.ringNo
  if !r.v then .fault (ringFault s c k.ringNo)
  else if r.tile < n then .fault (tileFault s c k)
  else if !(r.hasRoom && r.first (c, k.num)) then .ring
  else .go (s.modRing c k.ringNo (fun r => r.reserve (c, k.num))) { k with place := r.res }

/-- Claims, or with KEEP only reads, the oldest tile that no earlier command has claimed. -/
def startPop (s : State) (c : Nat) (e : Eng) (k : Cmd) (n : Nat) : Starts :=
  let r := s.ring c k.ringNo
  if !r.v then .fault (ringFault s c k.ringNo)
  else if r.tile < n then .fault (tileFault s c k)
  else match r.claim (ringClaims (s.eng c e) k.num k.ringNo) with
    | none => .ring
    | some p => .go s { k with place := p }

/-- MCAST reserves a place at every target at once (06 R109, 15 R275). -/
def startMcast (s : State) (c : Nat) (k : Cmd) (n : Nat) : Starts :=
  let cs := mcastCores c k
  match cs.find? (fun t => !(s.ring t k.ringNo).v || decide ((s.ring t k.ringNo).tile < n)) with
  | some t => .fault (faultOf 0x08 4 (hallAddr t 0))
  | none =>
    if cs.any (fun t => !sliceUp s t) then .wait
    else if cs.any (fun t => !((s.ring t k.ringNo).hasRoom && (s.ring t k.ringNo).first (c, k.num))) then .ring
    else .go (cs.foldl (fun s t => s.modRing t k.ringNo (fun r => r.reserve (c, k.num))) s)
      { k with targets := cs.map (fun t => (t, (s.ring t k.ringNo).res)) }

/-- A push that finds no place arrives at its rings (06 R107); any other command only waits. -/
def awaitRing (s : State) (c : Nat) (k : Cmd) : State :=
  match k.op with
  | .tile _ _ | .gath _ _ => joinRing s c k.ringNo (c, k.num)
  | .mcast _ => (mcastCores c k).foldl (fun s t => joinRing s t k.ringNo (c, k.num)) s
  | _ => s

/-- The route of a KVCP that names another module (17 R296): no mask, or every port of it dead or disabled. -/
def routeDead (s : State) (k : Cmd) : Bool := (livePorts s (k.arg 3)).isEmpty

/-- The start of a command: its table, its checks at start, its ring places (15 R266 stage 3, R270-R278). -/
def startOf (s : State) (c : Nat) (e : Eng) (k : Cmd) : Starts :=
  let g := granule (k.arg 1)
  let table := walkTable k
  let lnt : Lnt := match table with
    | some n => sget {} (s.seqs c).lnts n
    | none => {}
  if table.isSome && !lnt.go then .wait
  else
    let k := { k with lnt := if table.isSome then lnt.live else k.lnt }
    let n := g * walkCount k.lnt
    if table.isSome && walkBad k.lnt g then .fault (faultOf 0x04 3 0)
    else match k.op with
      | .tile _ _ => startPush s c k n
      | .drain _ _ _ => startPop s c e k n
      | .mcast _ => startMcast s c k n
      | .gath _ _ => startPush s c k (k.arg 2 / 2 ^ 16 % 8192 * granule (k.arg 2))
      | .scat _ _ _ _ _ => startPop s c e k (k.arg 2 / 2 ^ 16 % 8192 * granule (k.arg 2))
      | .kvcp _ _ _ _ => if k.remote && routeDead s k then .fault (faultOf 0x08 7 (k.arg 1)) else .go s k
      | .pref _ =>
        if slotState s c (k.arg 1) = 1 || (s.eng c e).flight.any (fun j => decide (j.num < k.num) && !j.finished && (match j.op with
            | .pref _ => j.arg 1 == k.arg 1
            | _ => false)) then .wait
        else .go s k
      | _ => .go s k

/-- The first command in flight that has not started. -/
def nextStart (s : State) (c : Nat) (e : Eng) : Option Cmd := (s.eng c e).flight.find? (fun k => !k.started && k.faulted.isNone)

/-- The command waits before its first access for a ring, a GO bit or a residency slot (24 R338). -/
def startWaits (s : State) (c : Nat) (e : Eng) (k : Cmd) : Bool :=
  !k.started && (match startOf s c e k with
    | .ring => true
    | .wait => true
    | _ => false)

/-- A dequeued command of an engine has still to finish before a cut (07 R114 step 1): one that has started and is not held, or one that can start; what waits before its first access is held incomplete, and so is what was dequeued behind it (24 R338, 15 R266). -/
def cutOpen (s : State) (c : Nat) (e : Eng) : Bool :=
  let g := s.eng c e
  g.flight.any (fun k => k.started && k.faulted.isNone && !k.finished && !replayWaits s c e k)
    || (match nextStart s c e with
      | some k => !g.flight.any (fun j => j.faulted.isSome) && !startWaits s c e k
      | none => false)

end Sys2Proof.Machine
end

