-- ==== Sys2Proof/Machine/Matrix.lean ====
section
/-! DEFINITION. The matrix queue and array (spec 14 R236-R248, 08 R127-R131, 25 R352): the operands, one entry's dequeue conditions, and its retirement. -/

namespace Sys2Proof.Machine

/-- Bits per element in memory (14 R240). -/
def opBits : Nat → Nat
  | 0 | 1 | 4 | 7 => 4
  | 5 => 6
  | 10 => 16
  | _ => 8
/-- Lane width (14 R240). -/
def laneWidth : Nat → Nat
  | 0 | 1 | 4 => 4
  | 5 | 7 => 6
  | _ => 8
/-- The type has a scale section (14 R240). -/
def hasScale (c : Nat) : Bool := 4 ≤ c && c ≤ 7
/-- E, the bytes of the element section, and the least tile size (14 R241). -/
def elemBytes (c : Nat) : Nat := 1024 * opBits c
def operandBytes (c : Nat) : Nat := elemBytes c + (if hasScale c then 256 else 0)

/-- Block b of row i of an operand tile, as the scale, the block exponent and the 32 integers (14 R240, R241). The tile is a number, byte 0 lowest. -/
def operandBlock (c tile i b : Nat) : Nat × Int × List Int :=
  let m := opBits c
  let raw := (List.range 32).map (fun k => tile / 2 ^ (m * (128 * i + 32 * b + k)) % 2 ^ m)
  let sc := tile / 2 ^ (8 * (elemBytes c + 4 * i + b)) % 256
  match c with
  | 0 => (0, 0, raw.map (sextNat 4))
  | 1 => (0, 0, raw.map Int.ofNat)
  | 2 => (0, 0, raw.map (sextNat 8))
  | 3 => (0, 0, raw.map Int.ofNat)
  | 4 => (sc, (sc : Int) - 129, raw.map (sextNat 4))
  | 5 => (sc, (sc : Int) - 131, raw.map (sextNat 6))
  | 6 => (sc, (sc : Int) - 133, raw.map (sextNat 8))
  | 7 => (sc, (sc : Int) - 128, raw.map mxfp4)
  | 8 => let (s, q) := feed fmtE4m3 raw; (s, (s : Int) - 133, q)
  | 9 => let (s, q) := feed fmtE5m2 raw; (s, (s : Int) - 133, q)
  | _ => let (s, q) := feed fmtBf16 raw; (s, (s : Int) - 133, q)

/-- An element after one K-block (08 R130): a NaN block only sets NAN. -/
def blockStep (a b : Nat × Int × List Int) (e : AccElem) : AccElem :=
  if a.1 = 255 ∨ b.1 = 255 then e.setF fNan
  else accumulate e ((List.zipWith (· * ·) a.2.2 b.2.2).foldl (· + ·) 0) (a.2.1 + b.2.1)

/-- A function over the n elements from index i of a tile, entries at reset left out. -/
def mapElems (f : Nat → AccElem → AccElem) : Nat → Nat → Sparse AccElem → Sparse AccElem
  | 0, _, _ => []
  | n + 1, i, l =>
    let (e, rest) : AccElem × Sparse AccElem := match l with
      | (k, v) :: t => if k = i then (v, t) else ({}, l)
      | [] => ({}, [])
    let e' := f i e
    let tl := mapElems f n (i + 1) rest
    if e' = {} then tl else (i, e') :: tl

def Tile.map (f : Nat → AccElem → AccElem) (t : Tile) : Tile := { t with elems := mapElems f 4096 0 t.elems }

/-- The pad mask of the core's launch; all ones without one (03 R57). -/
def padMask (s : State) (c : Nat) : BitVec 64 := match s.run c with | some r => r.padmask | none => -1

/-- An MMA over two operand tiles (14 R243), PSN set on the elements that a residue mismatch spoiled (25 R352). -/
def mmaTile (ta tb : Nat) (a b : Nat) (pad : BitVec 64) (bad : List Nat) (t : Tile) : Tile :=
  let blocks (c tile : Nat) : List (List (Nat × Int × List Int)) :=
    (List.range 64).map (fun i => (List.range 4).map (fun k => operandBlock c tile i k))
  let as := blocks ta a
  let bs := blocks tb b
  let t := t.map (fun n e =>
    let i := n / 64
    if !pad.getLsbD i then e
    else
      let e := (List.zip ((as[i]?).getD []) ((bs[n % 64]?).getD [])).foldl (fun e p => blockStep p.1 p.2 e) e
      if bad.contains n then e.setF fPsn else e)
  { t with depth := depthAfter t.depth 4 }

/-- The occupancy of an entry in cycles (14 R237). -/
def occupancy (op : Instr) (word : BitVec 64) : Nat :=
  let half (x : Nat) : Nat := (x + 1) / 2
  match op with
  | .mma _ _ _ _ => 4 * half (laneWidth (word.toNat / 2 ^ 44 % 16)) * half (laneWidth (word.toNat / 2 ^ 40 % 16))
  | .anorm _ _ => 16
  | .awr _ _ _ _ _ _ => 2
  | _ => 4

/-- The tile that an entry names. -/
def mqTile : Instr → Nat
  | .mma _ d _ _ | .aclrPeek _ d | .aclrImm _ d _ | .anorm _ d | .awr _ _ _ d _ _ => d
  | _ => 0

/-- The entry is an MMA. -/
def isMma : Instr → Bool
  | .mma _ _ _ _ => true
  | _ => false

/-- KEEPA and KEEPB of a format word (14 R239). -/
def keepA (w : BitVec 64) : Bool := w.getLsbD 39
def keepB (w : BitVec 64) : Bool := w.getLsbD 38

/-- Places of ring n that MMAs in the array have claimed (06 R107). -/
def mqClaims (p : Cp) (n : Nat) : List Nat :=
  p.mflight.flatMap (fun r => match r.entry.op with
    | .mma _ _ ra rb => (if ra = n && !keepA r.word then [r.placeA] else []) ++ (if rb = n && !keepB r.word then [r.placeB] else [])
    | _ => [])

/-- The effective gap of a queue: max(GAP, floor) (05 R91, 17 R300). -/
def gapOf (s : State) (c : Nat) (e : Eng) : Nat :=
  let r := (s.arch c).csrs
  match e with
  | .ld => max r.paceLd.toNat (4 * s.hub.level.toNat)
  | .st => max r.paceSt.toNat (4 * s.hub.level.toNat)
  | .cp => max r.paceCp.toNat (16 * s.hub.level.toNat)

/-- A queue may dequeue again: GAP cycles, and at least one, since the last (05 R91). -/
def gapPassed (s : State) (c : Nat) (e : Eng) (last : Option Nat) : Bool :=
  match last with
  | none => true
  | some t => decide (t + max 1 (gapOf s c e) ≤ s.coreTime c)

/-- The timing conditions of the head entry (14 R237). -/
def mqTiming (s : State) (c : Nat) (h : MqEntry) : Bool :=
  let p := s.cp c
  let t := s.coreTime c
  decide (h.entered + 1 ≤ t) && gapPassed s c .cp p.lastDequeue && (match p.mqLast with
    | some (st, occ) => decide (st + occ ≤ t + 2)
    | none => true)

/-- The fault of an MMA at the head (14 R244), in the order of its checks. -/
def mmaFault (s : State) (c ra rb : Nat) : Option FaultInfo :=
  if !(s.ring c ra).v then some (ringFault s c ra)
  else if !(s.ring c rb).v then some (ringFault s c rb)
  else match (s.seqs c).fq with
    | [] => none
    | w :: _ =>
      let ta := w.toNat / 2 ^ 44 % 16
      let tb := w.toNat / 2 ^ 40 % 16
      if 11 ≤ ta ∨ 11 ≤ tb ∨ w.toNat % 2 ^ 38 ≠ 0 then some (faultOf 0x01 3 0)
      else if (s.ring c ra).tile < operandBytes ta then some (ringFault s c ra)
      else if (s.ring c rb).tile < operandBytes tb then some (ringFault s c rb)
      else none

/-- An entry starts: it leaves the queue, pops its format word, is journalled, and enters the array (14 R237, 05 R90). -/
def mqStart (s : State) (c : Nat) (h : MqEntry) (word : Word) (pa pb : Nat) : State :=
  let t := s.coreTime c
  let occ := occupancy h.op word
  let idx := match s.run c with | some r => r.jcount | none => 0
  let s := if isMma h.op then
      (let s := s.modSeqs c (fun q => { q with fq := q.fq.tail })
       let s := journalWrite s c idx h.num 5 0 (h.pc % 8192) 0
       s.modRun c (fun r => { r with jcount := r.jcount + 1 }))
    else s
  s.modCp c (fun p => { p with mq := p.mq.tail, lastDequeue := some t, mqLast := some (t + 2, occ), mflight := p.mflight ++ [⟨h, t + 2, occ, word, pa, pb, idx⟩] })

/-- The bytes of an operand tile that an MMA reads, as offsets and lengths: of B the whole, of A the elements and scales of the rows that the pad mask keeps (03 R57, 14 R241). -/
def spansB (code : Nat) : List (Nat × Nat) := [(0, operandBytes code)]
def spansA (code : Nat) (pad : BitVec 64) : List (Nat × Nat) :=
  ((List.range 64).filter (fun i => pad.getLsbD i)).flatMap (fun i =>
    (16 * opBits code * i, 16 * opBits code) :: (if hasScale code then [(elemBytes code + 4 * i, 4)] else []))
/-- Some byte that an MMA reads of a place of ring n is poisoned (25 R350). -/
def operandPoison (s : State) (c n place : Nat) (spans : List (Nat × Nat)) : Bool :=
  !(s.core c).poisonSpad.isEmpty && spans.any (fun p => s.spadPoison c ((s.ring c n).placeOff place + p.1) p.2)

/-- What the head of the matrix queue does when looked at (14 R237, R243, R244); a poisoned operand tile faults (25 R350). -/
inductive MqAns where
  | idle
  | waitFq (s : State)
  | start (s : State)
  | fault (f : FaultInfo)

def mqHead (s : State) (c : Nat) : MqAns :=
  let p := s.cp c
  match p.mq with
  | [] => .idle
  | h :: _ =>
    if !mqTiming s c h then .idle
    else match h.op with
      | .mma _ _ ra rb =>
        (match mmaFault s c ra rb with
        | some f => .fault f
        | none => match (s.seqs c).fq with
          | [] => .waitFq (s.modCp c (fun p => { p with mq := { h with readyAt := some (h.readyAt.getD (s.coreTime c)) } :: p.mq.tail }))
          | w :: _ => match (s.ring c ra).claim (mqClaims p ra), (s.ring c rb).claim (mqClaims p rb) with
            | some a, some b =>
              let bad (n place : Nat) (spans : List (Nat × Nat)) : Option FaultInfo :=
                if operandPoison s c n place spans then some (faultOf 0x08 8 (hallAddr c ((s.ring c n).placeOff place))) else none
              (match bad ra a (spansA (w.toNat / 2 ^ 44 % 16) (padMask s c)), bad rb b (spansB (w.toNat / 2 ^ 40 % 16)) with
              | some f, _ => .fault f
              | none, some f => .fault f
              | none, none => .start (mqStart s c h w a b))
            | _, _ => .idle)
      | .aclrPeek _ _ => (match (s.seqs c).fq with
        | [] => .waitFq s
        | w :: _ => .start (mqStart s c h w 0 0))
      | _ => .start (mqStart s c h 0 0 0)

/-- The tile after an entry's effect (14 R243, R245, R246, R248). -/
def mqEffect (s : State) (c : Nat) (r : MqRun) (bad : List Nat) (t : Tile) : Tile :=
  let tileOf (n place : Nat) : Nat :=
    let g := s.ring c n
    bytesNat (s.spadRead c (g.placeOff place) g.tile)
  match r.entry.op with
  | .mma _ _ ra rb => mmaTile (r.word.toNat / 2 ^ 44 % 16) (r.word.toNat / 2 ^ 40 % 16) (tileOf ra r.placeA) (tileOf rb r.placeB) (padMask s c) bad t
  | .aclrPeek _ _ => { t.map (fun _ _ => clearElem (BitVec.ofNat 16 (r.word.toNat / 2 ^ 48))) with depth := 0 }
  | .aclrImm _ _ i => { t.map (fun _ _ => clearElem i) with depth := 0 }
  | .anorm _ _ => { t.map (fun _ e => normalise e) with depth := 0 }
  | .awr _ _ sel _ _ row => t.map (fun n e =>
      if n / 64 = row ∧ r.entry.mask.getLsbD (n % 64) then awrElem sel (r.entry.source.toNat / 2 ^ (64 * (n % 64)) % 2 ^ 64) e else e)
  | _ => t

/-- Marks the blocks of a tile dirty (07 R113). -/
def markTile (s : State) (c n : Nat) : State := s.modCore c (fun k => k.mark (accBlock + 192 * n) (accBlock + 192 * n + 192))

/-- An open bundle has finished: its results are written, and its matrix entries have retired (04 R71). -/
def bundleDone (p : Cp) (b : OpenBundle) : Bool :=
  decide (b.ready ≤ p.clock) && !p.mq.any (fun e => e.bundle == b.bundle) && !p.mflight.any (fun r => r.entry.bundle == b.bundle)

/-- The bundles that have finished leave the open ones, and their tokens act, in order of issue (04 R70, R71). -/
def settleBundles (s : State) (c : Nat) : State :=
  let p := s.cp c
  (p.opens.filter (bundleDone p)).foldl (fun s b => pushTokens s c .cp (b.bundle + 1) b.su b.sd)
    (s.modCp c (fun q => { q with opens := p.opens.filter (fun b => !bundleDone p b) }))

/-- The first entry in the array retires (14 R243): its tile updates, pops, number and tokens. -/
def mqRetire (s : State) (c : Nat) (err : ResidueErrors) : State :=
  match (s.cp c).mflight with
  | [] => s
  | r :: rest =>
    let n := mqTile r.entry.op
    let bad := if isMma r.entry.op then err.poisoned else []
    let s := s.modCore c (fun k => { k with acc := sset k.acc n (mqEffect s c r bad (sget {} k.acc n)) })
    let s := markTile s c n
    let s := s.modCp c (fun p => { p with mflight := rest })
    match r.entry.op with
    | .mma _ _ ra rb =>
      let pop (s : State) (n place : Nat) : State := s.modRing c n (fun g => g.pop place)
      let s := if keepA r.word then s else pop s ra r.placeA
      let s := if keepB r.word then s else pop s rb r.placeB
      let s := s.modDie (dieOf c) (fun d => { d with resid := BitVec.ofNat 16 (min 65535 (d.resid.toNat + err.retries)) })
      let s := journalWrite s c r.jidx r.entry.num 5 1 (r.entry.pc % 8192) 0
      let s := finishNumber s c .cp r.entry.num
      let s := settleBundles s c
      countEvent s c 3 1
    | _ => settleBundles s c

/-- The cycle at which the first entry in the array may retire: a residue retry lengthens it by a quarter (25 R352). -/
def retireAt (r : MqRun) (err : ResidueErrors) : Nat :=
  r.start + r.occ + (if isMma r.entry.op then err.retries * (r.occ / 4) else 0)

/-- The mismatches are ones that the first entry in the array can have met: an element is spoiled only where a block was computed again, and the next entry has not started before the lengthened one lets it (25 R352). -/
def errorsFit (p : Cp) (err : ResidueErrors) : Bool :=
  match p.mflight with
  | [] => false
  | r :: rest =>
    (isMma r.entry.op || decide (err.retries = 0)) && (err.poisoned.isEmpty || decide (0 < err.retries))
      && (match rest with | n :: _ => decide (retireAt r err ≤ n.start) || decide (err.retries = 0) | [] => true)

/-- The matrix array finishes its dequeued entries (24 R323). -/
def drainMatrix (s : State) (c : Nat) : Nat → State
  | 0 => s
  | n + 1 => if (s.cp c).mflight.isEmpty then s else drainMatrix (mqRetire s c ⟨0, []⟩) c n

end Sys2Proof.Machine
end

