-- ==== Sys2Proof/Machine/Ops.lean ====
section
/-! DEFINITION. Named operations of the sequencers: registers and the pc of an SC context, waits, outstanding accesses, taking an exception (the stop of a core, 24 R322-R326, and the stop of a hook, 23 R314) and the return from one (24 R329, R334), and starting and ending handlers (03 R48, 04 R69, 12 R203). -/

namespace Sys2Proof.Machine

/-! The acting context. -/

/-- The context that acts; 0 for another party. -/
def State.k (s : State) : Nat := match s.who.party with | .sc k => k | _ => 0
def State.c (s : State) : Nat := s.who.core
/-- The acting context's own state. -/
def State.me (s : State) : Ctx := s.ctx s.who.core s.k
def State.modMe (s : State) (f : Ctx → Ctx) : State := s.modCtx s.who.core s.k f

/-- x0 reads 0 (12 R175). -/
def Ctx.x (t : Ctx) (n : Nat) : Word := if n = 0 then 0 else sget 0 t.regs n
/-- A write of x0 is discarded (12 R175). -/
def Ctx.setX (t : Ctx) (n : Nat) (v : Word) : Ctx := if n = 0 then t else { t with regs := sset t.regs n v }
/-- Register xn of the acting context. -/
def State.x (s : State) (n : Nat) : Word := s.me.x n

/-- The acting context goes on behind its instruction: pc + 4, no wait (12 R175). -/
def State.pass (s : State) : State := s.modMe (fun t => { t with pc := t.pc + 4, wait := .none })
/-- It goes on at another address. -/
def State.goto (s : State) (pc : Word) : State := s.modMe (fun t => { t with pc := pc, wait := .none })
/-- xd is written and the context goes on. -/
def State.put (s : State) (d : Nat) (v : Word) : State := (s.modMe (fun t => t.setX d v)).pass
/-- The context waits in its instruction, which issues again when the wait is over (04 R68). -/
def State.block (s : State) (w : Wait) : State :=
  s.modMe (fun t => { t with wait := w, waitFrom := if t.wait = w then t.waitFrom else s.coreTime s.who.core })

/-! Outstanding accesses (16 R282, R283). -/

/-- A store or no-return atomic (12 R184). -/
def AccOp.isStore : AccOp → Bool
  | .store _ => true
  | .atomic _ _ _ ret => !ret
  | _ => false

/-- The accesses of a context on their way to a home. -/
def sentAccesses (s : State) (c k : Nat) : List Access := s.accesses.filter (fun a => a.core == c && a.ctx == k)
/-- Those that faulted at a home, whose reply has not come yet: they are made again (24 R329). -/
def faultedAccesses (s : State) (c k : Nat) : List Access :=
  (s.replies.filter (fun r => r.core == c && r.ctx == k && r.fault.isSome)).filterMap (fun r => r.access)
/-- Accesses in program order (16 R282). -/
def insertAccess (a : Access) : List Access → List Access
  | [] => [a]
  | b :: t => if a.seq < b.seq then a :: b :: t else b :: insertAccess a t
def programOrder (l : List Access) : List Access := l.foldr insertAccess []
/-- The accesses of a context not yet performed: those, and what is to be made again (16 R283). -/
def ownAccesses (s : State) (c k : Nat) : List Access := sentAccesses s c k ++ faultedAccesses s c k ++ (s.ctx c k).reissue
/-- Every store of the context issued before `at_` is performed. -/
def storesDone (s : State) (c k at_ : Nat) : Bool := (ownAccesses s c k).all (fun a => !a.op.isStore || decide (at_ ≤ a.seq))
/-- Every access of the context issued before `at_` is performed. -/
def accessesPast (s : State) (c k at_ : Nat) : Bool := (ownAccesses s c k).all (fun a => decide (at_ ≤ a.seq))

/-- A home lies within a scope of a core (12 R185): homes numbered as `Loc.home`. -/
def inScope (sc : Scope) (c home : Nat) : Bool :=
  match sc with
  | .core => home == c
  | .cluster => decide (home < 512) && clusterOf home == clusterOf c
  | .die => if home < 512 then dieOf home == dieOf c else (home - 512) / 2 == dieOf c
  | .module => true

/-- The accesses a fence waits for (12 R185). -/
def fenceCovers (sc : Scope) (mask : BitVec 16) (c cls home : Nat) : Bool := mask.getLsbD cls && inScope sc c home

/-- A launch's bound producers are all triggered (05 R83, R85); one no longer live counts as triggered. -/
def producersTriggered (s : State) (c : Nat) : Bool :=
  match s.run c with
  | none => true
  | some r => match s.launch r.launch with
    | none => true
    | some l => l.held.producers.all (fun p => match s.launch p with
      | none => true
      | some q => q.cohort.all (fun pl => q.triggered.contains pl.core || q.completed.contains pl.core))

/-- The core owns the wheel's position now, which lies behind the last that it has used (16 R284). -/
def wheelTurn (s : State) (c : Nat) : Bool :=
  match s.run c with
  | none => false
  | some r => ownsPosition r s.hub.wheel.toNat && (match r.stampUsed with | some u => decide (u < s.wheelCount) | none => true)

/-- The format queue takes the word of the FMTQ with issue number n: it has room, and no FMTQ of the core that issued earlier waits (04 R72). -/
def fqOpen (s : State) (c n : Nat) : Bool :=
  decide ((s.seqs c).fq.length < (s.seqs c).fqCap) && [0, 1, 2, 3].all (fun k => match (s.ctx c k).wait with | .fmtq m => decide (n ≤ m) | _ => true)

/-- The wait is over (04 R78). -/
def waitOver (s : State) (c k : Nat) : Wait → Bool
  | .none => true
  | .waite e n => decide (n.toNat ≤ cnOf s c e) || !engRunning s c e
  | .waitp => producersTriggered s c
  | .fence sc mask => (ownAccesses s c k).all (fun a => !fenceCovers sc mask c a.cls a.loc.home)
  | .stores => storesDone s c k s.seq
  | .commits => true
  | .quiet => storesDone s c k s.seq && (s.ctx c k).busy.isEmpty && (s.ctx c k).holds == 0 && (s.ctx c k).ops.isEmpty
  | .barw bar => (s.bar c bar).phase != sget false (s.ctx c k).phases bar
  | .wfe => (s.ctx c k).flag
  | .fmtq n => fqOpen s c n
  | .pclose => decide ((s.arch c).btraps.length < 256)
  | .gate cls home => (ownAccesses s c k).all (fun a => a.cls != cls || a.loc.home == home)
  | .wheel => wheelTurn s c
  | .walk page => !walking s (dieOf c) (s.tctx c) page
  | .lntw n => (ownAccesses s c k).all (fun a => a.cls != 0 || !a.op.isStore) && (s.ctx c k).lngos.all (fun p => p.1 != n)
  | .reply => (s.ctx c k).holds == 0

/-! Taking an exception: the stop of a core. -/

/-- The 64 bytes of a trap record (24 R324); `cycle` is that of the detection. -/
def trapRecord (s : State) (c isw faddr num eng flags pc cycle : Nat) : List Byte :=
  let r := s.run c
  natBytes 8 isw ++ natBytes 8 faddr ++ natBytes 4 num ++ natBytes 1 eng ++ natBytes 1 flags ++ natBytes 2 c ++ natBytes 4 pc
    ++ natBytes 4 (s.cp c).repcnt.toNat ++ natBytes 4 (cnOf s c .ld) ++ natBytes 4 (cnOf s c .cp) ++ natBytes 4 (cnOf s c .st)
    ++ natBytes 4 (match r with | some r => r.t | none => 0)
    ++ natBytes 4 (match r.bind (fun r => s.launch r.launch) with | some l => l.held.body.tag.toNat | none => 0xFFFFFFFF)
    ++ natBytes 2 (s.tctx c) ++ natBytes 1 (match r with | some r => r.frame | none => 0) ++ natBytes 1 0 ++ natBytes 8 cycle

/-- log2 of the fault log's size in records (24 R326). -/
def fltLog (s : State) : Nat := s.hub.fltbase.toNat % 256
/-- Appends a copy of a record to the fault log, or sets its overflow bit (24 R326). -/
def fltAppend (s : State) (bs : List Byte) : State :=
  let n := fltLog s
  if n = 0 then s
  else if s.hub.flthead - s.hub.fltack.toNat = 2 ^ n then s.modHub (fun h => { h with fltovf := true })
  else
    let pa := s.hub.fltbase.toNat / 4096 % 2 ^ 29 * 4096 + 64 * (s.hub.flthead % 2 ^ n)
    if (reachFault s hubEnd (.hbm pa 0) 0).isSome then s
    else (s.hbmWrite s.hub.apkey.toNat pa bs).modHub (fun h => { h with flthead := h.flthead + 1 })

/-- The record is written to the save frame and to the fault log, and vector 4098 is raised (24 R324). -/
def writeRecord (s : State) (c isw faddr num eng flags pc cycle : Nat) : State :=
  let bs := trapRecord s c isw faddr num eng flags pc cycle
  let s := match s.run c with
    | some r => s.spadWrite c (frameOff r.frame + 4096) bs
    | none => s
  raiseVector (fltAppend s bs) 4098

/-- Some other command of the core has faulted (24 R323). -/
def secondFault (s : State) (c eng num : Nat) : Bool :=
  let other (e : Eng) : Bool := (s.eng c e).flight.any (fun k => k.faulted.isSome && !(Eng.recCode e == eng && k.num == num))
  other .ld || other .st

/-- An injected sequence ends: the context goes on where it was (24 R336). -/
def endInjection (s : State) (c : Nat) : State :=
  let d := (s.core c).dbg
  if d.injecting then
    (s.modCtx c d.party.toNat (fun t => { t with pc := d.savedPc, wait := .none })).modCore c (fun k => { k with dbg := { k.dbg with injecting := false } })
  else s

/-- The record of a stop is written, and the core is stopped. -/
def finishStop (s : State) (c : Nat) (p : Stopping) : State :=
  (writeRecord s c p.isw p.faddr p.num p.eng (p.flags + 8 * ((s.core c).second || secondFault s c p.eng p.num).toNat) p.pc p.cycle).modCore c (fun k => { k with
    second := false
    stop := some ⟨p.isw % 256, (match k.arch.run with | some r => r.frame | none => 0)⟩, stopping := none })

/-- A command that has made an access, or an entry of the matrix array, has still to finish (24 R323). -/
def finishing (s : State) (c : Nat) : Bool := accessedOpen s c .ld || accessedOpen s c .st || !(s.cp c).mflight.isEmpty

/-- A stop goes on (24 R323): once the dequeued commands that have made an access have finished, and the entries of the matrix array, the record is written and the core is stopped. -/
def settleStop (s : State) (c : Nat) : State :=
  match (s.core c).stopping with
  | none => s
  | some p => if finishing s c then s else finishStop s c p

/-- TAKING AN EXCEPTION (24 R323): every sequencer stops, with what the record will say of a fault detected in a cycle. A core that is on the way to a stop keeps its first fault, but for one of the same cycle whose party comes first; the other is told of by SECOND. -/
def takeStopAt (s : State) (c eng isw faddr num flags pc cycle : Nat) : State :=
  let step := (s.core c).dbg.stepping || (s.core c).dbg.injecting
  let new : Stopping := ⟨eng, isw, faddr, num, flags + 4 * step.toNat, pc, cycle⟩
  match (s.core c).stopping with
  | some p => s.modCore c (fun k => { k with second := true, stopping := some (if p.cycle = cycle ∧ eng < p.eng then { new with flags := new.flags ||| (p.flags &&& 4) } else p) })
  | none => settleStop ((endInjection s c).modCore c (fun k => { k with stopping := some new, dbg := { k.dbg with stepping := false } })) c

/-- The same for a fault detected now. -/
def takeStop (s : State) (c eng isw faddr num flags pc : Nat) : State := takeStopAt s c eng isw faddr num flags pc s.now

/-- The low bits of an ISW from a fault (24 R325). -/
def FaultInfo.isw (f : FaultInfo) : Nat := f.code + 256 * f.detail

/-- A queued operation that still acts and writes no register. -/
def CtxOpKind.mute : CtxOpKind → CtxOpKind
  | .csrr n _ => .csrr n 0
  | .launch _ a => .launch 0 a
  | .route _ a => .route 0 a
  | .csrw n v => .csrw n v

/-- What the context waited for is abandoned: no load and no queued operation writes a register of it any more; the operations themselves stand (23 R314). -/
def Ctx.abandon (t : Ctx) : Ctx :=
  { t with wait := .none, busy := [], holds := 0, reissue := [], ops := t.ops.map (fun o => { o with kind := o.kind.mute }) }

/-- The accesses of a context that only bring it a value, and its replies, are dropped. -/
def dropLoads (s : State) (c k : Nat) : State :=
  { s with
    accesses := s.accesses.filter (fun a => !(a.core == c && a.ctx == k) || a.op.isStore)
    replies := s.replies.filter (fun r => !(r.core == c && r.ctx == k)) }

/-- A hook context stops with HKST 2 or 3 (23 R314): its pending loads are abandoned, its stores stand, no record is written, and every event flag is set. -/
def hookStop (s : State) (c k : Nat) (code : Word) : State :=
  let s := (dropLoads s c k).modCtx c k (fun t => { t.abandon with status := .dormant, hook := none })
  setFlags (s.modCsrs c (fun r => { r with hkst := code })) c none

/-- The PC that a record of SC context k gives: its own, or the offset of an injected word (24 R324, R336). -/
def recordPc (s : State) (c k pc : Nat) : Nat :=
  if (s.core c).dbg.injecting && (s.core c).dbg.party.toNat == k then pc - (s.core c).dbg.injOff.toNat else pc

/-- A fault of an SC context, with the PC of its record (24 R322; in a hook, 23 R314). -/
def ctxTrapAt (s : State) (c k : Nat) (f : FaultInfo) (pc : Nat) : State :=
  if (s.ctx c k).hook.isSome then hookStop s c k 2
  else takeStop s c k f.isw f.faddr 0 0 pc

/-- A fault of an SC context at a pc. -/
def ctxTrap (s : State) (c k : Nat) (f : FaultInfo) (pc : Nat) : State := ctxTrapAt s c k f (recordPc s c k pc)

/-- A fault of the acting context at its instruction, before any effect. -/
def State.trap (s : State) (f : FaultInfo) : State := ctxTrap s s.c s.k f s.me.pc.toNat

/-- A fault of the CP's bundle (24 R332). -/
def cpTrap (s : State) (c : Nat) (f : FaultInfo) : State := takeStop s c 5 f.isw f.faddr 0 0 (s.cp c).pc

/-- A fault of an LD or ST sequencer's word. -/
def wordTrap (s : State) (c : Nat) (e : Eng) (f : FaultInfo) : State :=
  takeStop s c (Eng.recCode e) f.isw f.faddr 0 0 (s.eng c e).pc

/-- The flags of a command in a record (24 R324): ONCE and PARTIAL. -/
def cmdFlags (k : Cmd) : Nat := (onceOnly k.op).toNat + 2 * k.accessed.toNat

/-- A fault of a data command (15 R268): the command keeps it, the engine dequeues no more; the core stops, or while it is halted the report is held (24 R337). -/
def cmdTrap (s : State) (c : Nat) (e : Eng) (k : Cmd) (f : FaultInfo) : State :=
  let k := { k with faulted := some f, faultedAt := s.now }
  let s := journalCmd (setFlight s c e k) c e k
  let s := s.modEng c e (fun g => { g with halted := true })
  if (s.core c).dbg.halt then s.modCore c (fun x => { x with dbg := { x.dbg with pend := true } })
  else if (s.core c).stop.isSome then s
  else takeStop s c (Eng.recCode e) f.isw f.faddr k.num (cmdFlags k) k.pc

/-- A fault of the matrix queue: it dequeues no more, and the core stops, or while it is halted the report is held (24 R337). -/
def mqTrap (s : State) (c num pc : Nat) (f : FaultInfo) : State :=
  let s := s.modCp c (fun p => { p with halted := true })
  if (s.core c).dbg.halt then
    (s.modCp c (fun p => { p with fault := some ⟨f, num, pc, s.now⟩ })).modCore c (fun x => { x with dbg := { x.dbg with pend := true } })
  else takeStop s c 5 f.isw f.faddr num 0 pc

/-- A held engine fault: its cycle, and the record it asks for. -/
structure Held where
  at_ : Nat
  eng : Nat
  fault : FaultInfo
  num : Nat
  flags : Nat
  pc : Nat
deriving DecidableEq, Repr

/-- The held faults of a core, in the order LD, CP, ST (24 R323). -/
def heldFaults (s : State) (c : Nat) : List Held :=
  let of (e : Eng) : List Held := (s.eng c e).flight.filterMap (fun k => k.faulted.map (fun f => ⟨k.faultedAt, Eng.recCode e, f, k.num, cmdFlags k, k.pc⟩))
  of .ld ++ ((s.cp c).fault.map (fun m => (⟨m.at_, 5, m.fault, m.num, 0, m.pc⟩ : Held))).toList ++ of .st

/-- The earliest of them, and of one cycle the first. -/
def firstHeld : List Held → Option Held
  | [] => none
  | h :: t => match firstHeld t with
    | some g => if g.at_ < h.at_ then some g else some h
    | none => some h

/-- The report of a held engine fault (24 R337): the record describes the first, with the cycle of its detection (24 R324). -/
def reportPend (s : State) (c : Nat) : State :=
  if !(s.core c).dbg.pend then s
  else
    let s := s.modCore c (fun x => { x with dbg := { x.dbg with pend := false } })
    match firstHeld (heldFaults s c) with
    | some h => takeStopAt (s.modCp c (fun p => { p with fault := none })) c h.eng h.fault.isw h.fault.faddr h.num h.flags h.pc h.at_
    | none => s

/-! The return from an exception: RESUME (24 R329, R334). -/

/-- A message of the command is on its way. -/
def onWay (s : State) (c num : Nat) : Bool := s.messages.any (fun m => m.core == c && m.cmd == num) || s.retries.any (fun m => m.core == c && m.cmd == num)
/-- It is, or waits to be sent again. -/
def messageOut (s : State) (c num : Nat) : Bool := onWay s c num || (s.eng c .st).replays.any (fun r => r.msg.cmd == num)

/-- A command in flight made ready to be replayed (24 R328, R329). -/
def replayCmd (s : State) (c : Nat) (k : Cmd) : Cmd :=
  if k.finished then k
  else if k.faulted.isNone && accessesDone s c k && (k.prog == 1 || !k.sent || messageOut s c k.num) then { k with replay := true }
  else
    let pos := match k.op with
      | .scat _ _ true _ _ => 4 * k.prog
      | _ => 0
    { k with replay := true, faulted := none, pos := pos, sub := 0, buf := [], aux := [], locs := [], acks := [], sent := false, prog := if onceOnly k.op then k.prog else 0 }

/-- The engines' side of a resume: every unfinished command is replayed in order, and a message that is lost waits to be sent again. -/
def replayEngine (s : State) (c : Nat) (e : Eng) : State :=
  s.modEng c e (fun g => { g with
    halted := false, flight := g.flight.map (replayCmd s c)
    replays := g.replays.map (fun r => { r with out := r.out && onWay s c r.msg.cmd }) })

/-- The first position from n on that a launch owns. -/
def nextOwned (r : Running) : Nat → Nat → Nat
  | 0, n => n
  | fuel + 1, n => if ownsPosition r (n % 4096) then n else nextOwned r fuel (n + 1)

/-- The first stamp from n on that core c may give: at a position its launch owns, after those that its accesses already carry (16 R284). -/
def freshStamp (s : State) (c : Nat) (r : Running) : Nat :=
  let after := (s.accesses.filter (fun a => a.core == c && a.cls == 15)).foldl (fun n a => max n (a.stamp + 1)) (s.wheelCount + 1)
  nextOwned r 4096 (match r.stampUsed with | some u => max after (u + 1) | none => after)

/-- An access is translated anew (16 R285): its unit's entry, or on a miss a walk. -/
def retranslate (s : State) (a : Access) (write : Bool) : State × Except FaultInfo Loc :=
  let d := dieOf a.core
  match lookup s d (s.tctx a.core) a.va write with
  | .loc l => (s, .ok l)
  | .fault f => (s, .error f)
  | .miss => match walkOn s d (s.tctx a.core) a.va write with
    | (s, .ok e) => (s, .ok (.hbm (e.addr a.va) e.key))
    | (s, .error f) => (s, .error f)

/-- A store or atomic needs a writable page. -/
def AccOp.writes : AccOp → Bool
  | .store _ => true
  | .atomic _ _ _ _ => true
  | .dqpush _ => true
  | .dqtake => true
  | .dqsteal => true
  | _ => false

/-- An access on its way again to a home, in class 15 with a stamp of its own (16 R284). -/
def sendAgain (s : State) (c : Nat) (a : Access) (l : Loc) : State :=
  match (if a.cls = 15 then s.run c else none) with
  | some r =>
    let p := freshStamp s c r
    { (s.modRun c (fun r => { r with stampUsed := some p })) with
      accesses := s.accesses ++ [{ a with loc := l, stamp := p, arrived := false, issued := s.now + 4 * (p - s.wheelCount) }] }
  | none => { s with accesses := s.accesses ++ [{ a with loc := l, issued := s.now }] }

/-- An access of a context that is made again: a held one by issuing its word again, any other with a translation of its own, or its fault. -/
def reissueOne (s : State) (c k : Nat) (a : Access) : State × Option FaultInfo :=
  if a.hold then (s.modCtx c k (fun t => { t with pc := a.pc, holds := t.holds - 1, busy := t.busy.erase a.xd }), none)
  else match retranslate s a a.op.writes with
    | (s, .error f) => (s, some f)
    | (s, .ok l) => (sendAgain s c a l, none)

/-- Accesses of a context are made again in program order (16 R282). One that faults stops its context, and it and those behind it are kept for the next resume; of a hook only the stores behind it are still made (23 R314). -/
def reissueList (s : State) (c k : Nat) : List Access → State
  | [] => s
  | a :: t => if (s.core c).stop.isNone && (s.core c).stopping.isNone && !((s.ctx c k).status == .dormant && !a.op.isStore) then
      (match reissueOne s c k a with
      | (s, none) => reissueList s c k t
      | (s, some f) => reissueList (ctxTrap (s.modCtx c k (fun x => { x with reissue := [a] })) c k f a.pc.toNat) c k t)
    else reissueList (if (s.ctx c k).status == .dormant then s else s.modCtx c k (fun x => { x with reissue := x.reissue ++ [a] })) c k t

/-- A context's side of a resume (24 R329). -/
def reissueCtx (s : State) (c k : Nat) : State := reissueList (s.modCtx c k (fun t => { t with reissue := [] })) c k (s.ctx c k).reissue

/-- What a resume makes again: accesses, and engine commands (24 R329). -/
def remake (s : State) (c : Nat) : State :=
  replayEngine (replayEngine ([0, 1, 2, 3].foldl (fun s k => reissueCtx s c k) s) c .ld) c .st

/-- RETURN FROM A STOP (24 R334): every party goes on; a context that a software trap stopped stands behind its word since then (12 R202). -/
def resumeCore (s : State) (c : Nat) : State :=
  match (s.core c).stop with
  | none => s
  | some _ =>
    let s := s.modCore c (fun k => { k with stop := none, dbg := { k.dbg with halt := false } })
    (remake s c).modCp c (fun p => { p with halted := false })

/-! Handlers. -/

/-- The lowest dormant handler context (03 R47). -/
def dormantHandler (s : State) (c : Nat) : Option Nat := [1, 2, 3].find? (fun k => (s.ctx c k).status == .dormant)

/-- A handler context starts at an address with x1 to x4; x5 to x63 keep what they held (03 R48, 15 R277). -/
def startHandler (s : State) (c k : Nat) (pc x1 x2 x3 x4 : Word) (slot : Option Nat) (hook : Option (Nat × Bool)) : State :=
  (s.modArch c (fun a => { a with yielded := a.yielded.erase k })).modCtx c k (fun t => { ((((t.setX 1 x1).setX 2 x2).setX 3 x3).setX 4 x4) with
    pc := pc, status := .running, wait := .none, slot := slot, hook := hook })

/-- A handler context ends (12 R203): dormant; the end of a hook sets HKST to 1; the other contexts' flags are set. -/
def endHandler (s : State) (c k : Nat) : State :=
  let hook := (s.ctx c k).hook.isSome
  let s := s.modCtx c k (fun t => { t with status := .dormant, slot := none, hook := none, wait := .none })
  if hook then setFlags (s.modCsrs c (fun r => { r with hkst := 1 })) c none else setFlags s c (some k)

/-! Barriers (06 R108). -/

/-- One arrival at a barrier; a phase change sets the core's event flags (12 R204). -/
def arrive (s : State) (c n : Nat) : State :=
  let b := s.bar c n
  if b.target = 0 then s.modBar c n (fun b => { b with count := if b.count = 65535 then b.count else b.count + 1 })
  else if b.count + 1 = b.target then setFlags (s.modBar c n (fun b => { b with count := 0, phase := !b.phase })) c none
  else s.modBar c n (fun b => { b with count := b.count + 1 })

end Sys2Proof.Machine
end

