-- ==== Sys2Proof/Machine/Operands.lean ====
section
/-! DEFINITION. Operand forms of the CP (spec 13 R206-R208, R224, 14 R235, 04 R74-R77): predicates, masks, k and vector registers under rotation, lanes, area addresses, results on their way to their registers, and the checks of 27 R360 that every slot passes before its bundle executes. -/

namespace Sys2Proof.Machine

/-! Registers (04 R74, R75). -/

/-- ALLOT of the running launch. -/
def allotOf (s : State) (c : Nat) : Nat := match s.run c with | some r => r.allot | none => 0
/-- The allotment register that a vector name means under RRB. -/
def rotV (allot rrb n : Nat) : Nat := if allot = 256 ∧ 192 ≤ n then 192 + (n - 192 + 64 - rrb % 64) % 64 else n
/-- The predicate that a name means under RRB. -/
def rotQ (allot rrb n : Nat) : Nat := if allot = 256 ∧ 8 ≤ n then 8 + (n - 8 + 64 - rrb % 64) % 8 else n

/-- The physical register of an allotment register: its place in the launch's blocks of 32 (05 R88). -/
def physOf (regs : List Nat) (n : Nat) : Nat := 32 * (regs[n / 32]?).getD 0 + n % 32
/-- The physical register of a vector name. -/
def State.vphys (s : State) (n : Nat) : Nat :=
  let r := rotV (allotOf s s.c) (s.cp s.c).rrb.toNat n
  match s.run s.c with | some x => physOf x.regs r | none => r
/-- A vector register, read. -/
def State.vreg (s : State) (n : Nat) : Vec := sget 0 (s.core s.c).vrf (s.vphys n)
/-- A predicate; q0 is true (11 R168). -/
def State.pred (s : State) (n : Nat) : Bool := n == 0 || sget false (s.cp s.c).q (rotQ (allotOf s s.c) (s.cp s.c).rrb.toNat n)
/-- A lane mask; m0 is all ones (01 R19). -/
def State.mask (s : State) (n : Nat) : Mask := if n = 0 then -1 else sget 0 (s.cp s.c).m n
/-- A k register. -/
def State.kreg (s : State) (n : Nat) : Word := sget 0 (s.cp s.c).k n
/-- A hypervector and a counter bank (14 R250). -/
def State.hreg (s : State) (n : Nat) : Hyper := sget 0 (s.cp s.c).h n
def State.bank (s : State) (n : Nat) : Bank := sget 0 (s.cp s.c).b n

/-! Lanes (13 R208). -/

/-- Element i of width w. -/
def lane (w : Nat) (v : Vec) (i : Nat) : Nat := v.toNat / 2 ^ (w * i) % 2 ^ w

/-- The number whose w-bit digits, lowest first, are a list. -/
def packLanes (w : Nat) : List Nat → Nat
  | [] => 0
  | x :: t => x % 2 ^ w + 2 ^ w * packLanes w t

/-- The bits of the active elements among the first n of width w. -/
def laneBits (w n : Nat) (act : Nat → Bool) : Vec :=
  BitVec.ofNat 4096 (packLanes w ((List.range n).map (fun i => if act i then 2 ^ w - 1 else 0)))

/-- The register whose first n elements of width w come from a function, 0 where it is not asked. -/
def laneVec (w n : Nat) (act : Nat → Bool) (f : Nat → Nat) : Vec :=
  BitVec.ofNat 4096 (packLanes w ((List.range n).map (fun i => if act i then f i else 0)))

/-! Results (04 R77, 11 R173). -/

/-- The latency that the header assumes for a class; a byte of 0 is read as 1 (27 R367). -/
def latOf (s : State) (c cls : Nat) : Nat := max 1 (match s.run c with | some r => r.lat.toNat / 2 ^ (8 * cls) % 256 | none => 1)

/-- Results ordered by the bundle that sees them, and among those by issue. -/
def insertDue : List InFlight → InFlight → List InFlight
  | [], x => [x]
  | y :: t, x => if x.due < y.due then x :: y :: t else y :: insertDue t x

/-- The real latency of a class, in cycles of the CP's pipelines (11 R173); HNEAR's depends on its N. -/
def realLat (cls : Nat) : Nat := ([1, 2, 2, 3, 4, 5, 12, 6, 4, 12, 10, 6, 16, 4, 8, 3][cls]?).getD 1

/-- A result that `lat` bundles later is visible, and is written by `real` cycles of the pipelines. `load` marks what an access to the own slice brings (23 R319). -/
def State.result (s : State) (lat real : Nat) (load : Bool) (w : CpWrite) : State :=
  s.modCp s.c (fun p => { p with pend := insertDue p.pend ⟨p.issued + lat, w, load⟩, ready := max p.ready (p.clock + real) })
/-- A result of a latency class, computed, or loaded from the own slice. -/
def State.give (s : State) (cls : Nat) (w : CpWrite) : State := s.result (latOf s s.c cls) (realLat cls) false w
def State.giveLoad (s : State) (cls : Nat) (w : CpWrite) : State := s.result (latOf s s.c cls) (realLat cls) true w
/-- Elements of a vector register, of a latency class. -/
def State.giveLanes (s : State) (cls w d : Nat) (act : Nat → Bool) (f : Nat → Nat) : State :=
  s.give cls (.vec (s.vphys d) (laneBits w (4096 / w) act) (laneVec w (4096 / w) act f))
/-- The element is active under mask m. -/
def State.active (s : State) (m : Nat) : Nat → Bool := fun i => (s.mask m).getLsbD i

/-- A vector register receives some of its bits; a granule of 64 bytes written whole loses its poison (25 R350). -/
def Core.vecWrite (k : Core) (phys : Nat) (bits value : Vec) : Core :=
  let clear (g : Nat) : Bool := g / 8 == phys && decide (bits.toNat / 2 ^ (512 * (g % 8)) % 2 ^ 512 = 2 ^ 512 - 1)
  ({ k with
    vrf := sset k.vrf phys ((sget 0 k.vrf phys &&& ~~~bits) ||| (value &&& bits))
    poisonVrf := k.poisonVrf.filter (fun g => !clear g) }).mark (vrfBlock + 2 * phys) (vrfBlock + 2 * phys + 2)

/-- A result reaches its register. -/
def landWrite (s : State) (c : Nat) : CpWrite → State
  | .vec phys bits value => s.modCore c (fun k => k.vecWrite phys bits value)
  | .k n v => s.modCp c (fun p => { p with k := sset p.k n v })
  | .m n v => s.modCp c (fun p => { p with m := sset p.m n v })
  | .q n v => s.modCp c (fun p => { p with q := sset p.q n v })
  | .h n v => s.modCp c (fun p => { p with h := sset p.h n v })
  | .ht v => s.modCp c (fun p => { p with ht := v })
  | .bank n v => s.modCp c (fun p => { p with b := sset p.b n v })
  | .hcfg a b => s.modCp c (fun p => { p with hrb := a, hrn := b })
  | .table v => s.modCp c (fun p => { p with table := v })

/-- The results visible to the bundle about to issue reach their registers. -/
def landDue (s : State) (c : Nat) : State :=
  let p := s.cp c
  let due := p.pend.filter (fun x => decide (x.due ≤ p.issued))
  let s := s.modCp c (fun p => { p with pend := p.pend.filter (fun x => !decide (x.due ≤ p.issued)) })
  due.foldl (fun s x => landWrite s c x.write) s

/-- Every result in flight reaches its register: the stream has ended (13 R234). -/
def landAll (s : State) (c : Nat) : State :=
  let due := (s.cp c).pend
  let s := s.modCp c (fun p => { p with pend := [] })
  due.foldl (fun s x => landWrite s c x.write) s

/-- The CP has ended once its ENDK has issued, every bundle has finished and the matrix queue has drained (13 R234). -/
def cpEnds (s : State) (c : Nat) : State :=
  let p := s.cp c
  if p.status == .running && p.ending && p.mq.isEmpty && p.mflight.isEmpty && p.opens.isEmpty && p.pushes.isEmpty then
    (landAll s c).modCp c (fun p => { p with status := .ended, loops := [], rep := none, wait := .none })
  else s

/-! Area addresses (13 R224). -/

/-- Area, SPNEED of the running launch. -/
def areaOf (s : State) (c : Nat) : Nat := match s.run c with | some r => r.area | none => 0
def spneedOf (s : State) (c : Nat) : Nat := match s.run c with | some r => r.spneed | none => 0

/-- The signed area offset k + displacement x unit. -/
def State.areaOff (s : State) (k : Nat) (disp : BitVec 9) (unit : Nat) : Int :=
  (s.kreg k + disp.signExtend 64 * BitVec.ofNat 64 unit).toInt

/-- Hall address of an area offset, as a record names it. -/
def areaAddr (s : State) (c : Nat) (off : Int) : Nat := wrapInt 64 ((hallAddr c (areaOf s c) : Nat) + off)

/-- The checks of an access of n bytes at an area offset that must be a multiple of 2^al: alignment, the area, poison if it reads (27 R360). -/
def areaFault (s : State) (c : Nat) (off : Int) (n al : Nat) (reads : Bool) : Option FaultInfo :=
  let a := areaAddr s c off
  if off % (2 ^ al : Int) ≠ 0 then some (faultOf 0x06 al a)
  else if off < 0 ∨ (spneedOf s c : Int) < off + n then some (faultOf 0x08 9 a)
  else if reads && s.spadPoison c (areaOf s c + off.toNat) n then some (faultOf 0x08 8 a)
  else none

/-- Bytes of the area, as a little-endian number, and a write of n bytes of one. -/
def State.areaRead (s : State) (off n : Nat) : Nat := bytesNat (s.spadRead s.c (areaOf s s.c + off) n)
def State.areaWrite (s : State) (off n v : Nat) : State := s.spadWrite s.c (areaOf s s.c + off) (natBytes n v)

/-! What an instruction of the CP names. -/

/-- Its stage predicate (13 R208). -/
def predOf : Instr → Nat
  | .cpLoop q _ _ _ _ | .cpLoopK q _ _ _ _ | .rep q _ _ | .repK q _ _ | .br q _ | .brc q _ _ _ _ | .rot q | .qset q _ | .qclr q _
  | .qmovQ q _ _ | .qmovK q _ _ | .endk q | .kadd q _ _ _ | .kaddi q _ _ _ | .kmov q _ _ | .kmovLc q _ _ | .kmovRrb q _
  | .vadd q _ _ _ _ _ _ | .vsub q _ _ _ _ _ _ | .vmul q _ _ _ _ _ _ | .vfma q _ _ _ _ _ _ _ | .vfms q _ _ _ _ _ _ _
  | .vmin q _ _ _ _ _ | .vmax q _ _ _ _ _ | .vabs q _ _ _ _ | .vneg q _ _ _ _ | .vand q _ _ _ _ _ | .vor q _ _ _ _ _
  | .vxor q _ _ _ _ _ | .vnot q _ _ _ _ | .vshl q _ _ _ _ _ | .vshr q _ _ _ _ _ | .vsra q _ _ _ _ _ | .vadds q _ _ _ _ _
  | .vcmpMask q _ _ _ _ _ _ | .vcmpVec q _ _ _ _ _ _ | .vsel q _ _ _ _ _ _ | .vmov q _ _ _ _ | .vmovMaskMask q _ _
  | .vmovMaskVec q _ _ | .vmovVecMask q _ _ | .vbcastK q _ _ _ _ | .vbcastImm q _ _ _ _ _ | .vcvt q _ _ _ _ _ _ _
  | .vshuf q _ _ _ _ _ | .vslide q _ _ _ _ _ _ | .vreds q _ _ _ _ _ _ | .vmaxi q _ _ _ _ | .vmini q _ _ _ _ | .vpopc q _ _ _ _
  | .vpopcMask q _ _ _ | .vrng q _ _ _ _ _ | .kfromv q _ _ _ _ | .vexp2 q _ _ _ _ _ | .vlog2 q _ _ _ _ _ | .vrcp q _ _ _ _ _
  | .vrsq q _ _ _ _ _ | .vpwp q _ _ _ _ | .pwld q _ _ | .pwst q _ _ | .vld q _ _ _ _ _ | .vst q _ _ _ _ _ | .kld q _ _ _
  | .vldr q _ _ _ _ _ | .vgath q _ _ _ _ _ | .vscat q _ _ _ _ _ | .mma q _ _ _ | .aclrPeek q _ | .aclrImm q _ _ | .anorm q _
  | .ard q _ _ _ _ _ _ | .awr q _ _ _ _ _ | .astat q _ _ _ _ _ | .astatDepth q _ _ | .hld q _ _ _ | .hst q _ _ _
  | .hbind q _ _ _ | .hpermImm q _ _ _ | .hpermK q _ _ _ | .hbun q _ _ | .hclrb q _ | .hthr q _ _ | .hdist q _ _ _ | .hnear q _ _
  | .hhash q _ _ _ | .hseed q _ _ | .hpop q _ _ | .hmov q _ _ | .hmovToHt q _ | .hmovFromHt q _ | .hcfg q _ _ | .pfeed q _ _ _
  | .mldg q _ _ _ => q
  | _ => 0

/-- A vector source: its first register and how many, the width and mask that say which lanes are read; `whole` when every lane is (25 R350). -/
structure VSrc where
  base : Nat
  regs : Nat
  w : Nat
  m : Nat
  whole : Bool
deriving DecidableEq, Repr

/-- The vector sources of an instruction. -/
def vsrcs : Instr → List VSrc
  | .vadd _ m t _ _ a b | .vsub _ m t _ _ a b | .vmul _ m t _ _ a b => [⟨a, 1, t.width, m, false⟩, ⟨b, 1, t.width, m, false⟩]
  | .vfma _ m t _ _ a b c | .vfms _ m t _ _ a b c => [⟨a, 1, t.width, m, false⟩, ⟨b, 1, t.width, m, false⟩, ⟨c, 1, t.width, m, false⟩]
  | .vmin _ m t _ a b | .vmax _ m t _ a b | .vand _ m t _ a b | .vor _ m t _ a b | .vxor _ m t _ a b | .vadds _ m t _ a b =>
    [⟨a, 1, t.width, m, false⟩, ⟨b, 1, t.width, m, false⟩]
  | .vabs _ m t _ a | .vneg _ m t _ a | .vnot _ m t _ a | .vmov _ m t _ a | .vmaxi _ m t _ a | .vmini _ m t _ a | .vpopc _ m t _ a =>
    [⟨a, 1, t.width, m, false⟩]
  | .vshl _ m t _ a n | .vshr _ m t _ a n | .vsra _ m t _ a n => ⟨a, 1, t.width, m, false⟩ :: (match n with
    | .vec b => [⟨b, 1, t.width, m, false⟩]
    | .imm _ => [])
  | .vcmpMask _ m t _ _ a b | .vcmpVec _ m t _ _ a b => [⟨a, 1, t.width, m, false⟩, ⟨b, 1, t.width, m, false⟩]
  | .vsel _ m t _ a b _ => [⟨a, 1, t.width, m, false⟩, ⟨b, 1, t.width, m, false⟩]
  | .vmovMaskVec _ _ a => [⟨a, 1, 1024, 0, true⟩]
  | .vcvt _ m dty sty _ _ _ a => [⟨a, cvtSrcRegs dty sty, sty.width, m, false⟩]
  | .vshuf _ m t _ a b => [⟨a, 1, t.width, m, true⟩, ⟨b, shufRegs t, 16, m, false⟩]
  | .vslide _ m t _ a b _ => [⟨a, 1, t.width, m, true⟩, ⟨b, 1, t.width, m, true⟩]
  | .vreds _ m t _ _ _ a => [⟨a, 1, t.width, m, false⟩]
  | .kfromv _ t _ a _ => [⟨a, 1, t.width, 0, true⟩]
  | .vexp2 _ m _ _ _ a | .vlog2 _ m _ _ _ a | .vrcp _ m _ _ _ a | .vrsq _ m _ _ _ a | .vpwp _ m _ _ a => [⟨a, 1, 32, m, false⟩]
  | .vst _ m t b _ _ => [⟨b, 1, t.width, m, false⟩]
  | .vgath _ m t _ _ b => [⟨b, gathRegs t, 32, m, false⟩]
  | .vscat _ m t _ b c => [⟨b, gathRegs t, 32, m, false⟩, ⟨c, 1, t.width, m, false⟩]
  | .awr _ m _ _ a _ => [⟨a, 1, 64, m, false⟩]
  | .pfeed _ m _ a => [⟨a, 1, 16, m, false⟩]
  | _ => []

/-- The vector registers it writes: first and how many. -/
def vdst : Instr → List (Nat × Nat)
  | .vadd _ _ _ _ d _ _ | .vsub _ _ _ _ d _ _ | .vmul _ _ _ _ d _ _ | .vfma _ _ _ _ d _ _ _ | .vfms _ _ _ _ d _ _ _
  | .vmin _ _ _ d _ _ | .vmax _ _ _ d _ _ | .vabs _ _ _ d _ | .vneg _ _ _ d _ | .vand _ _ _ d _ _ | .vor _ _ _ d _ _
  | .vxor _ _ _ d _ _ | .vnot _ _ _ d _ | .vshl _ _ _ d _ _ | .vshr _ _ _ d _ _ | .vsra _ _ _ d _ _ | .vadds _ _ _ d _ _
  | .vcmpVec _ _ _ _ d _ _ | .vsel _ _ _ d _ _ _ | .vmov _ _ _ d _ | .vmovVecMask _ d _ | .vbcastK _ _ _ d _
  | .vbcastImm _ _ _ _ d _ | .vshuf _ _ _ d _ _ | .vslide _ _ _ d _ _ _ | .vreds _ _ _ _ _ d _ | .vmaxi _ _ _ d _
  | .vmini _ _ _ d _ | .vpopc _ _ _ d _ | .vpopcMask _ _ _ d | .vrng _ _ d _ _ _ | .vexp2 _ _ _ _ d _ | .vlog2 _ _ _ _ d _
  | .vrcp _ _ _ _ d _ | .vrsq _ _ _ _ d _ | .vpwp _ _ _ d _ | .vld _ _ _ d _ _ | .vldr _ d _ _ _ _ | .vgath _ _ _ d _ _
  | .ard _ _ _ _ d _ _ | .astat _ _ _ d _ _ | .astatDepth _ d _ => [(d, 1)]
  | .vcvt _ _ dty sty _ _ d _ => [(d, cvtDstRegs dty sty)]
  | _ => []

/-- It names no vector register at or above ALLOT (13 R207). -/
def allotOk (allot : Nat) (i : Instr) : Bool :=
  (vsrcs i).all (fun v => decide (v.base + v.regs ≤ allot)) && (vdst i).all (fun p => decide (p.1 + p.2 ≤ allot))

/-- A granule of the source is poisoned and read: some active lane lies in it. Lane l of register r of a group stands for element l x regs + r. -/
def srcPoison (s : State) (v : VSrc) : Bool :=
  (List.range v.regs).any (fun r => (s.core s.c).poisonVrf.any (fun g =>
    g / 8 == s.vphys (v.base + r) && (v.whole || (List.range (512 / v.w)).any (fun l =>
      (s.mask v.m).getLsbD (((g % 8) * (512 / v.w) + l) * v.regs + r)))))

/-- Some vector source is poisoned (25 R350). -/
def vecPoison (s : State) (i : Instr) : Bool := !(s.core s.c).poisonVrf.isEmpty && (vsrcs i).any (srcPoison s)

/-- A slot's number in a record (24 R325). -/
def slotCode : Slot → Nat
  | .c => 0 | .v => 1 | .w => 2 | .m => 3

/-- An illegal instruction in the acting slot. -/
def State.badSlot (s : State) : FaultInfo := faultOf 0x01 (slotCode s.who.slot) 0

/-- The first fault of a list that is one. -/
def firstOf : List (Option FaultInfo) → Option FaultInfo
  | [] => none
  | some f :: _ => some f
  | none :: t => firstOf t

/-- The element addresses of VGATH and VSCAT: area offsets of the active elements, by index (13 R226). -/
def gatherOffs (s : State) (m : Nat) (t : ElemType) (k b : Nat) : List (Nat × Int) :=
  let f := gathRegs t
  let base := s.kreg k
  ((List.range t.count).filter (s.active m)).map (fun i =>
    (i, (base + BitVec.ofNat 64 (lane 32 (s.vreg (b + i % f)) (i / f) * (t.width / 8))).toInt))

/-- The fault of a gather or scatter: its base's alignment, then the first active element outside the area, or poisoned when it reads. -/
def gatherFault (s : State) (m : Nat) (t : ElemType) (k b : Nat) (reads : Bool) : Option FaultInfo :=
  let al := Nat.log2 (t.width / 8)
  let base := (s.kreg k).toInt
  if base % (2 ^ al : Int) ≠ 0 then some (faultOf 0x06 al (areaAddr s s.c base))
  else firstOf ((gatherOffs s m t k b).map (fun p => areaFault s s.c p.2 (t.width / 8) 0 reads))

/-- Where the bytes end that the elements touch which a mask leaves active; 0 where none is (13 R208). -/
def activeEnd (s : State) (t : ElemType) (m : Nat) : Nat :=
  ((List.range t.count).filter (s.active m)).foldl (fun n i => max n (((i + 1) * t.width + 7) / 8)) 0

/-- The checks of VLD and VST: alignment, and the area for what the active elements touch (13 R208, R224, log 95). -/
def laneFault (s : State) (off : Int) (t : ElemType) (m : Nat) : Option FaultInfo :=
  let n := activeEnd s t m
  if off % 64 ≠ 0 then some (faultOf 0x06 6 (areaAddr s s.c off))
  else if 0 < n ∧ (off < 0 ∨ (spneedOf s s.c : Int) < off + n) then some (faultOf 0x08 9 (areaAddr s s.c off))
  else none

/-- The granules of an access that a mask leaves active are free of poison. -/
def maskedPoison (s : State) (off : Int) (t : ElemType) (m : Nat) : Bool :=
  !(s.core s.c).poisonSpad.isEmpty && ((List.range t.count).filter (s.active m)).any (fun i =>
    s.spadPoison s.c (areaOf s s.c + off.toNat + i * t.width / 8) 1)

/-- How many closes a PFEED makes (03 R42). -/
def feedCloses (s : State) (m a : Nat) : List (Nat × Nat) :=
  (List.range 64).filterMap (fun l =>
    let p := s.slot s.c l
    let v := decodeF fmtF16 (lane 16 (s.vreg a) l)
    if !(s.mask m).getLsbD l || p.state != 1 || p.pb == 0xFFFFFFFF || p.pl == 0 then none
    else if decide (p.pm.toNat ≤ p.pl.toNat) then some (l, 1)
    else if v == .inf false || (!v.isNan && (decodeF fmtF16 p.pt.toNat).lt v) then some (l, 0)
    else none)

/-- The CP waits here: an empty ring, a full matrix queue, a tile in use, too few places for boundary traps (04 R76, 14 R236, R238, 03 R43). -/
def cpHold (s : State) : Instr → Option EngWait
  | .vldr _ _ rg _ _ _ =>
    let g := s.ring s.c rg
    if decide (g.tail ≤ g.head) || g.popped.contains g.head then some .ring else none
  | .mma _ _ _ _ | .aclrPeek _ _ | .aclrImm _ _ _ | .anorm _ _ | .awr _ _ _ _ _ _ =>
    if decide ((s.cp s.c).mqCap ≤ (s.cp s.c).mq.length) then some .queue else none
  | .ard _ _ _ _ _ n _ | .astat _ _ _ _ n _ | .astatDepth _ _ n =>
    if (s.cp s.c).mq.any (fun e => mqTile e.op == n) || (s.cp s.c).mflight.any (fun r => mqTile r.entry.op == n) then some .other else none
  | .pfeed _ _ _ _ => if decide (192 < (s.arch s.c).btraps.length) then some .other else none
  | _ => none

/-- A body that reaches past the end of a live loop that holds the bundle, or a second rotating level (13 R230). -/
def loopBad (s : State) (lv e : Nat) (rot : Bool) : Bool :=
  let p := s.cp s.c
  p.loops.any (fun l =>
    (decide (l.start ≤ p.pc) && decide (p.pc ≤ l.close) && decide (l.close < p.pc + e)) || (rot && l.rot && l.level != lv))

/-- The fault of a PFEED of n closes of which R98 refuses an entry: it names the first entry that it would have written (03 R46). -/
def feedRefuse (s : State) (c n : Nat) : Option FaultInfo :=
  let first := (s.arch c).csrs.pmcnt.toNat
  (firstOf ((List.range n).map (fun j => mapRefuse s c (first + j)))).map (fun f => { f with faddr := hallAddr c (mapOff s c first) })

/-- A live loop ends at the bundle (13 R233). -/
def repBad (s : State) : Bool := (s.cp s.c).loops.any (fun l => l.close == (s.cp s.c).pc)

/-- The value checks of a slot whose predicate is true (27 R360), in the order of their codes. -/
def cpValue (s : State) (i : Instr) : Option FaultInfo :=
  let own : Option FaultInfo := match i with
    | .cpLoop _ lv e _ rot => if loopBad s lv e rot then some s.badSlot else none
    | .cpLoopK _ lv e _ rot => if loopBad s lv e rot then some s.badSlot else none
    | .rep _ _ _ | .repK _ _ _ => if repBad s then some s.badSlot else none
    | .pwld _ k x => areaFault s s.c (s.areaOff k x 64) 1280 6 true
    | .pwst _ k x => areaFault s s.c (s.areaOff k x 64) 1280 6 false
    | .vld _ m t _ k x =>
      let off := s.areaOff k x 64
      (match laneFault s off t m with
      | some f => some f
      | none => if maskedPoison s off t m then some (faultOf 0x08 8 (areaAddr s s.c off)) else none)
    | .vst _ m t _ k x => laneFault s (s.areaOff k x 64) t m
    | .kld _ _ k x => areaFault s s.c (s.areaOff k x 8) 8 3 true
    | .mldg _ _ k x => areaFault s s.c (s.areaOff k x 32) 32 5 true
    | .vldr _ _ rg k ch _ =>
      let g := s.ring s.c rg
      let n := ch + (s.kreg k).toNat
      if g.tileu.toNat ≤ n then some s.badSlot
      else if !g.v then some (ringFault s s.c rg)
      else if g.tail ≤ g.head then none
      else if s.spadPoison s.c (g.placeOff g.head + 512 * n) 512 then some (faultOf 0x08 8 (hallAddr s.c (g.placeOff g.head + 512 * n)))
      else none
    | .vgath _ m t _ k b => gatherFault s m t k b true
    | .vscat _ m t k b _ => gatherFault s m t k b false
    | .hld _ _ k x => areaFault s s.c (s.areaOff k x 1024) 1024 10 true
    | .hst _ _ k x => areaFault s s.c (s.areaOff k x 1024) 1024 10 false
    | .hcfg _ a b =>
      if (s.kreg a).toInt < 0 ∨ (s.kreg a).toInt % 1024 ≠ 0 ∨ (s.kreg b).toInt < 0 ∨ 4096 < (s.kreg b).toInt then some s.badSlot else none
    | .hnear _ _ _ =>
      let p := s.cp s.c
      areaFault s s.c p.hrb.toNat (1024 * p.hrn.toNat) 0 true
    | .ard _ m t _ _ n row =>
      if (cpHold s i).isSome then none
      else if ((List.range t.count).filter (s.active m)).any (fun i => (sget {} (sget {} (s.core s.c).acc n).elems (64 * row + i)).poisoned)
      then some (faultOf 0x08 8 0) else none
    | .pfeed _ m _ a =>
      if (cpHold s i).isSome then none
      else feedRefuse s s.c (feedCloses s m a).length
    | _ => none
  match own with
  | some f => some f
  | none => if vecPoison s i then some (faultOf 0x08 8 0) else none

/-- The CP waits, from now if it did not wait so before; a ring wait is counted as it begins (17 R302). -/
def cpWaits (s : State) (c : Nat) (w : EngWait) : State :=
  if (s.cp c).wait = w then s
  else
    let s := s.modCp c (fun p => { p with wait := w, waitFrom := s.coreTime c })
    if w = .ring then countEvent s c 6 1 else s

/-- The count of a REP. -/
def repCount (s : State) : Instr → Nat
  | .rep _ n _ => n
  | .repK _ k _ => (s.kreg k).toNat % 65536
  | _ => 0

/-- A REP in a loop's end bundle faults with REPCNT at its count (13 R233). -/
def repPrep (s : State) (i : Instr) : State :=
  match i with
  | .rep _ _ _ | .repK _ _ _ => s.modCp s.c (fun p => { p with repcnt := BitVec.ofNat 16 (repCount s i) })
  | _ => s

/-- A slot of the CP: the allotment check, its predicate, its value checks, its waits, and then its effect. -/
def cpSlot (i : Instr) (act : State → State) (s : State) : Result :=
  if !allotOk (allotOf s s.c) i then .next (cpTrap s s.c (faultOf 0x03 (slotCode s.who.slot) 0))
  else if !s.pred (predOf i) then .next s
  else match cpValue s i with
    | some f => .next (cpTrap (repPrep s i) s.c f)
    | none => match cpHold s i with
      | some w => .next (cpWaits s s.c w)
      | none => .next (act s)

end Sys2Proof.Machine
end

