-- ==== Sys2Proof/Machine/CpControl.lean ====
section
/-! DEFINITION. Family: the CP's slot C (spec 13 R221, R228-R234): loops, repeats, branches, predicates and k registers; and what surrounds a bundle: stepping by a REP, the checks of 27 R360, tokens, and the end of the bundle (13 R231-R233, 04 R71). -/

namespace Sys2Proof.Machine

/-- The acting CP, changed. -/
def State.modMyCp (s : State) (f : Cp → Cp) : State := s.modCp s.c f

/-- NOP (11 R168). -/
def execNop (s : State) : Result := cpSlot .nop (fun s => s) s

/-! Loops and repeats (13 R230, R233). -/

/-- LOOP with its count: 0 goes on behind the body, else the level becomes live. -/
def beginLoop (lv e n : Nat) (rot : Bool) (s : State) : State :=
  s.modMyCp (fun p =>
    if n = 0 then { p with ctl := .jump (p.pc + e + 1) }
    else { p with
      lc := sset p.lc lv (BitVec.ofNat 32 n)
      loops := ⟨lv, p.pc + 1, p.pc + e, rot⟩ :: p.loops.filter (fun l => l.level != lv) })

/-- LOOP with an immediate count (13 R230). -/
def execCpLoop (q lv e n : Nat) (rot : Bool) (s : State) : Result := cpSlot (.cpLoop q lv e n rot) (beginLoop lv e n rot) s
/-- LOOP with its count in a k register (13 R230). -/
def execCpLoopK (q lv e k : Nat) (rot : Bool) (s : State) : Result :=
  cpSlot (.cpLoopK q lv e k rot) (fun s => beginLoop lv e ((s.kreg k).toNat % 2 ^ 32) rot s) s

/-- REP with its count (13 R233). -/
def beginRep (n : Nat) (st : Strides) (s : State) : State :=
  s.modMyCp (fun p =>
    if n = 0 then { p with ctl := .skip }
    else { p with rep := some ⟨n, st⟩, repcnt := BitVec.ofNat 16 n, ctl := .begin_ })

/-- REP with an immediate count (13 R233). -/
def execRep (q n : Nat) (st : Strides) (s : State) : Result := cpSlot (.rep q n st) (beginRep n st) s
/-- REP with its count in a k register (13 R233). -/
def execRepK (q k : Nat) (st : Strides) (s : State) : Result :=
  cpSlot (.repK q k st) (fun s => beginRep ((s.kreg k).toNat % 65536) st s) s

/-! Branches (13 R229). -/

/-- A taken branch: its target, and the loops whose body does not hold it end. A target outside the memory faults when it is fetched. -/
def takeBranch (off : BitVec 16) (s : State) : State :=
  s.modMyCp (fun p =>
    let t := wrapInt 32 ((p.pc : Int) + off.toInt)
    { p with ctl := .jump t, loops := p.loops.filter (fun l => decide (l.start ≤ t) && decide (t ≤ l.close)) })

/-- The condition of a BRC. -/
def brHolds (cond : BrCond) (a b : Word) : Bool :=
  match cond with
  | .eq => a == b
  | .ne => a != b
  | .lt => BitVec.slt a b
  | .ge => !BitVec.slt a b
  | .ltu => BitVec.ult a b
  | .geu => !BitVec.ult a b

/-- BR (13 R229). -/
def execBr (q : Nat) (off : BitVec 16) (s : State) : Result := cpSlot (.br q off) (takeBranch off) s
/-- BRC (13 R229). -/
def execBrc (q : Nat) (cond : BrCond) (a b : Nat) (off : BitVec 16) (s : State) : Result :=
  cpSlot (.brc q cond a b off) (fun s => if brHolds cond (s.kreg a) (s.kreg b) then takeBranch off s else s) s

/-- ROT: RRB counts on after the bundle (13 R232). -/
def execRot (q : Nat) (s : State) : Result := cpSlot (.rot q) (fun s => s.modMyCp (fun p => { p with rotate := true })) s
/-- ENDK: no later bundle issues (13 R234). -/
def execEndk (q : Nat) (s : State) : Result := cpSlot (.endk q) (fun s => s.modMyCp (fun p => { p with ctl := .stop })) s

/-! Predicates (13 R228), class 1; the name is mapped as the bundle issues. -/

/-- A predicate receives a value. -/
def givePred (d : Nat) (v : Bool) (s : State) : State := s.give 1 (.q (rotQ (allotOf s s.c) (s.cp s.c).rrb.toNat d) v)

/-- QSET (13 R228). -/
def execQset (q d : Nat) (s : State) : Result := cpSlot (.qset q d) (givePred d true) s
/-- QCLR (13 R228). -/
def execQclr (q d : Nat) (s : State) : Result := cpSlot (.qclr q d) (givePred d false) s
/-- QMOV from a predicate (13 R228). -/
def execQmovQ (q d a : Nat) (s : State) : Result := cpSlot (.qmovQ q d a) (fun s => givePred d (s.pred a) s) s
/-- QMOV from a k register (13 R228). -/
def execQmovK (q d k : Nat) (s : State) : Result := cpSlot (.qmovK q d k) (fun s => givePred d (s.kreg k != 0) s) s

/-! k registers (13 R221), class 0. -/

/-- KADD (13 R221). -/
def execKadd (q d a b : Nat) (s : State) : Result := cpSlot (.kadd q d a b) (fun s => s.give 0 (.k d (s.kreg a + s.kreg b))) s
/-- KADDI (13 R221). -/
def execKaddi (q d a : Nat) (i : BitVec 16) (s : State) : Result :=
  cpSlot (.kaddi q d a i) (fun s => s.give 0 (.k d (s.kreg a + i.signExtend 64))) s
/-- KMOV (13 R221). -/
def execKmov (q d a : Nat) (s : State) : Result := cpSlot (.kmov q d a) (fun s => s.give 0 (.k d (s.kreg a))) s
/-- KMOV from a loop counter (13 R221). -/
def execKmovLc (q d l : Nat) (s : State) : Result :=
  cpSlot (.kmovLc q d l) (fun s => s.give 0 (.k d ((sget 0 (s.cp s.c).lc l).setWidth 64))) s
/-- KMOV from RRB (13 R221). -/
def execKmovRrb (q d : Nat) (s : State) : Result := cpSlot (.kmovRrb q d) (fun s => s.give 0 (.k d ((s.cp s.c).rrb.setWidth 64))) s

/-! The end of a bundle (13 R231-R234). -/

/-- The end processing of an end bundle at e over its loops, most recently started first. -/
def loopEnd (e : Nat) : List CpLoop → Cp → Cp
  | [], p => { p with pc := e + 1 }
  | l :: t, p =>
    if l.close ≠ e then loopEnd e t p
    else
      let n := sget 0 p.lc l.level - 1
      let p := { p with lc := sset p.lc l.level n, rrb := if l.rot then p.rrb + 1 else p.rrb }
      if n ≠ 0 then { p with pc := l.start }
      else loopEnd e t { p with loops := p.loops.filter (fun x => x.level != l.level) }

/-- The pc and the loops after a bundle. -/
def bundleNext (p : Cp) : Cp :=
  match p.ctl with
  | .seq => match p.rep with
    | some _ =>
      if 1 < p.repcnt then { p with repcnt := p.repcnt - 1 }
      else loopEnd p.pc p.loops { p with repcnt := 0, rep := none }
    | none => loopEnd p.pc p.loops p
  | .jump t => { p with pc := t }
  | .begin_ => { p with pc := p.pc + 1 }
  | .skip => loopEnd (p.pc + 1) p.loops p
  | .stop => { p with ending := true }

/-- A bundle has issued: its number counts, its ROT applies, and the CP goes on. It stays open, its tokens held, until its results are written and its matrix entry has retired (13 R229-R234, 04 R70, R71). -/
def closeBundle (s : State) (c : Nat) (t : Tok) : State :=
  let s := s.modCp c (fun p =>
    let q := if p.rotate then { p with rrb := p.rrb + 1, rotate := false } else p
    { (bundleNext q) with issued := p.issued + 1, ctl := .seq, wait := .none, ready := 0, opens := p.opens ++ [⟨p.issued, t.su, t.sd, p.ready⟩] })
  cpEnds (settleBundles (countEvent s c 2 1) c) c

/-! Stepping by a REP (13 R233). -/

/-- Which of the fields d, a, b, c of its slot name a register. -/
def regFields : Instr → Bool × Bool × Bool × Bool
  | .qset _ _ | .qclr _ _ | .kmovRrb _ _ | .vbcastImm _ _ _ _ _ _ | .vpopcMask _ _ _ _ | .aclrPeek _ _ | .aclrImm _ _ _ | .anorm _ _
  | .hclrb _ _ | .hmovFromHt _ _ => (true, false, false, false)
  | .qmovQ _ _ _ | .qmovK _ _ _ | .kaddi _ _ _ _ | .kmov _ _ _ | .kmovLc _ _ _ | .vabs _ _ _ _ _ | .vneg _ _ _ _ _ | .vnot _ _ _ _ _
  | .vmov _ _ _ _ _ | .vmovMaskMask _ _ _ | .vmovMaskVec _ _ _ | .vmovVecMask _ _ _ | .vbcastK _ _ _ _ _ | .vcvt _ _ _ _ _ _ _ _
  | .vreds _ _ _ _ _ _ _ | .vmaxi _ _ _ _ _ | .vmini _ _ _ _ _ | .vpopc _ _ _ _ _ | .kfromv _ _ _ _ _ | .vexp2 _ _ _ _ _ _
  | .vlog2 _ _ _ _ _ _ | .vrcp _ _ _ _ _ _ | .vrsq _ _ _ _ _ _ | .vpwp _ _ _ _ _ | .vld _ _ _ _ _ _ | .kld _ _ _ _
  | .ard _ _ _ _ _ _ _ | .awr _ _ _ _ _ _ | .astat _ _ _ _ _ _ | .astatDepth _ _ _ | .hld _ _ _ _ | .hpermImm _ _ _ _
  | .hbun _ _ _ | .hthr _ _ _ | .hnear _ _ _ | .hhash _ _ _ _ | .hseed _ _ _ | .hpop _ _ _ | .hmov _ _ _ | .pfeed _ _ _ _
  | .mldg _ _ _ _ => (true, true, false, false)
  | .pwld _ _ _ | .pwst _ _ _ | .hmovToHt _ _ => (false, true, false, false)
  | .kadd _ _ _ _ | .vadd _ _ _ _ _ _ _ | .vsub _ _ _ _ _ _ _ | .vmul _ _ _ _ _ _ _ | .vmin _ _ _ _ _ _ | .vmax _ _ _ _ _ _
  | .vand _ _ _ _ _ _ | .vor _ _ _ _ _ _ | .vxor _ _ _ _ _ _ | .vadds _ _ _ _ _ _ | .vcmpMask _ _ _ _ _ _ _ | .vcmpVec _ _ _ _ _ _ _
  | .vshuf _ _ _ _ _ _ | .vrng _ _ _ _ _ _ | .vldr _ _ _ _ _ _ | .vgath _ _ _ _ _ _ | .mma _ _ _ _ | .hbind _ _ _ _
  | .hpermK _ _ _ _ | .hdist _ _ _ _ => (true, true, true, false)
  | .vshl _ _ _ _ _ n | .vshr _ _ _ _ _ n | .vsra _ _ _ _ _ n => (true, true, (match n with | .vec _ => true | .imm _ => false), false)
  | .vfma _ _ _ _ _ _ _ _ | .vfms _ _ _ _ _ _ _ _ | .vsel _ _ _ _ _ _ _ | .vslide _ _ _ _ _ _ _ => (true, true, true, true)
  | .vst _ _ _ _ _ _ | .hst _ _ _ _ | .hcfg _ _ _ => (false, true, true, false)
  | .vscat _ _ _ _ _ _ => (false, true, true, true)
  | _ => (false, false, false, false)

/-- One field stepped: none where it leaves 0 to 255, or where it names no register and the iteration is not the first. -/
def stepField (v j : Nat) (stride : BitVec 4) (reg : Bool) : Option Nat :=
  if stride = 0 ∨ j = 0 then some v
  else if !reg then none
  else
    let r := (v : Int) + j * stride.toInt
    if 0 ≤ r ∧ r ≤ 255 then some r.toNat else none

/-- A slot word at iteration j. -/
def stepSlot (sl : Slot) (st : Strides) (j : Nat) (w : SlotWord) : Option SlotWord :=
  if !st.slots.getLsbD (slotCode sl) then some w
  else
    let f := match okInstr (decodeSlotWord sl w) with
      | some i => regFields i
      | none => (true, true, true, true)
    match stepField w.d j st.sd f.1, stepField w.a j st.sa f.2.1, stepField w.b j st.sb f.2.2.1, stepField w.c j st.sc f.2.2.2 with
    | some d, some a, some b, some c => some { w with d := d, a := a, b := b, c := c }
    | _, _, _, _ => none

/-! The issue of a bundle (27 R360). -/

/-- May not stand in a repeated bundle (13 R233). -/
def noRepeat : Instr → Bool
  | .cpLoop _ _ _ _ _ | .cpLoopK _ _ _ _ _ | .rep _ _ _ | .repK _ _ _ | .br _ _ | .brc _ _ _ _ _ | .endk _ => true
  | _ => false

/-- The four slots in order. -/
def slotOrder : List Slot := [.c, .v, .w, .m]

/-- The word of a slot in a fetched bundle. -/
def slotField (bundle : Nat) (sl : Slot) : SlotWord := SlotWord.ofNat (bundle / 2 ^ (64 * slotCode sl) % 2 ^ 64)

/-- The encoding checks of a slot: its instruction, or an illegal-instruction fault (27 R360). -/
def slotStatic (s : State) (c bundle : Nat) (sl : Slot) : Except FaultInfo Instr :=
  let p := s.cp c
  let bad := faultOf 0x01 (slotCode sl) 0
  let word := match p.rep with
    | some r => stepSlot sl r.st (r.n - p.repcnt.toNat) (slotField bundle sl)
    | none => some (slotField bundle sl)
  match word with
  | none => .error bad
  | some w => match decodeSlotWord sl w with
    | .error _ => .error bad
    | .ok i =>
      if p.rep.isSome && noRepeat i then .error bad else .ok i

/-- The fault that a bundle's record names: the lowest code, and within it the first slot. -/
def leastFault : List FaultInfo → Option FaultInfo
  | [] => none
  | f :: t => match leastFault t with
    | some g => if g.code < f.code then some g else some f
    | none => some f

/-- What becomes of the CP's next bundle. -/
inductive CpTurn where
  | stay (s : State)
  | go (s : State) (t : Tok) (slots : List (Slot × Instr))

/-- The slots whose predicate is true. -/
def liveSlots (s : State) (l : List (Slot × Instr)) : List (Slot × Instr) := l.filter (fun p => s.pred (predOf p.2))

/-- A slot acts. -/
def State.atSlot (s : State) (c : Nat) (sl : Slot) : State := { s with who := ⟨c, .cp, sl⟩ }

/-- A slot fails its static checks: of its encoding, or of the allotment (27 R360). -/
def staticBad (s : State) (c : Nat) (answers : List (Slot × Except FaultInfo Instr)) : Bool :=
  answers.any (fun a => match a.2 with | .error _ => true | .ok i => !allotOk (allotOf s c) i)

/-- The faults of a bundle, in the order of its slots: the static faults of every slot, and the value fault of a slot whose predicate is true (27 R360). -/
def bundleFaults (s : State) (c : Nat) (answers : List (Slot × Except FaultInfo Instr)) : List FaultInfo :=
  answers.flatMap (fun a => match a.2 with
    | .error f => [f]
    | .ok i => (if allotOk (allotOf s c) i then [] else [faultOf 0x03 (slotCode a.1) 0]) ++ (if s.pred (predOf i) then (cpValue (s.atSlot c a.1) i).toList else []))

/-- The bundle at the pc is fetched and checked, and its tokens are taken (13, 27 R360, 04 R70, 24 R332, 25 R350). -/
def cpFetch (s : State) (c : Nat) : CpTurn :=
  let s := landDue (s.atSlot c .c) c
  let p := s.cp c
  if 8192 ≤ p.pc then .stay (cpTrap s c (faultOf 0x02 0 0))
  else if (s.core c).poisonIm.any (fun g => g.1 == 1 && g.2 / 32 == p.pc) then .stay (cpTrap s c (faultOf 0x08 8 0))
  else
    let b := bytesNat (memBytes (s.core c).imCp (32 * p.pc) 32)
    let answers := slotOrder.map (fun sl => (sl, slotStatic s c b sl))
    let slots := answers.filterMap (fun a => match a.2 with | .ok i => some (a.1, i) | .error _ => none)
    let tok := Tok.ofCode ((slotField b .c).x % 16)
    let live := liveSlots s slots
    let trap (f : FaultInfo) : CpTurn := .stay (cpTrap (live.foldl (fun s a => if noRepeat a.2 && repBad s then repPrep s a.2 else s) s) c f)
    match (if staticBad s c answers then leastFault (bundleFaults s c answers) else none) with
    | some f => trap f
    | none =>
      let feed := live.findSome? (fun a => match a.2 with | .pfeed _ _ _ _ => cpHold s a.2 | _ => none)
      match tokenLack s c .cp tok, feed with
      | some q, _ => .stay (cpWaits s c (.token q))
      | none, some w => .stay (cpWaits s c w)
      | none, none =>
        match leastFault (bundleFaults s c answers) with
        | some f => trap f
        | none => match live.findSome? (fun a => cpHold s a.2) with
          | some w => .stay (cpWaits s c w)
          | none => .go (takeTokens s c .cp tok) tok slots

end Sys2Proof.Machine
end

