-- ==== Sys2Proof/Machine/Shadow.lean ====
section
/-! DEFINITION. The cellar (spec 07 R112-R116, 26 R354): the blocks of a core's state, their two copies, the trickle, the commit, and what a resume selects. -/

namespace Sys2Proof.Machine

/-! Blocks (26 R354): 0 to 16383 scratchpad, to 20479 vector registers, to 32767 accumulator store. -/

/-- An accumulator element as 96 bits, and back. -/
def AccElem.word (e : AccElem) : Nat := e.m.toNat + e.g.toNat * 2 ^ 48 + e.x.toNat * 2 ^ 64 + e.f.toNat * 2 ^ 80
def AccElem.ofWord (w : Nat) : AccElem :=
  ⟨BitVec.ofNat 48 w, BitVec.ofNat 16 (w / 2 ^ 48), BitVec.ofNat 16 (w / 2 ^ 64), BitVec.ofNat 16 (w / 2 ^ 80)⟩

/-- The elements of a tile that block j of it touches. -/
def blockElems (j : Nat) : List Nat :=
  let lo := 2048 * j / 96
  (List.range ((2048 * j + 2047) / 96 + 1 - lo)).map (fun i => lo + i)

/-- The data of block b. -/
def Core.block (k : Core) (b : Nat) : BitVec 2048 :=
  if b < vrfBlock then BitVec.ofNat 2048 (bytesNat (memBytes k.spad (256 * b) 256))
  else if b < accBlock then BitVec.ofNat 2048 ((sget 0 k.vrf ((b - vrfBlock) / 2)).toNat / 2 ^ (2048 * ((b - vrfBlock) % 2)))
  else
    let t := (b - accBlock) / 192
    let j := (b - accBlock) % 192
    let es := (sget {} k.acc t).elems
    let lo := 2048 * j / 96
    BitVec.ofNat 2048 ((blockElems j).foldl (fun acc e => acc + (sget {} es e).word * 2 ^ (96 * (e - lo))) 0 / 2 ^ (2048 * j - 96 * lo))

/-- A 96-bit word with the part that block j holds replaced. -/
def mergeElem (old : Nat) (j e : Nat) (v : BitVec 2048) : Nat :=
  let lo := max (96 * e) (2048 * j)
  let hi := min (96 * e + 96) (2048 * j + 2048)
  let w := 2 ^ (hi - lo)
  let s := 2 ^ (lo - 96 * e)
  old % s + v.toNat / 2 ^ (lo - 2048 * j) % w * s + old / (s * w) * (s * w)

/-- Block b given data. -/
def Core.putBlock (k : Core) (b : Nat) (v : BitVec 2048) : Core :=
  if b < vrfBlock then { k with spad := memPutBytes k.spad (256 * b) (natBytes 256 v.toNat) }
  else if b < accBlock then
    let r := (b - vrfBlock) / 2
    let old : Vec := sget 0 k.vrf r
    let low := old.toNat % 2 ^ 2048
    let new := if (b - vrfBlock) % 2 = 0 then v.toNat + old.toNat / 2 ^ 2048 * 2 ^ 2048 else low + v.toNat * 2 ^ 2048
    { k with vrf := sset k.vrf r (BitVec.ofNat 4096 new) }
  else
    let t := (b - accBlock) / 192
    let j := (b - accBlock) % 192
    let tile := sget {} k.acc t
    let es := (blockElems j).foldl (fun es e => sset es e (AccElem.ofWord (mergeElem (sget {} es e).word j e v))) tile.elems
    { k with acc := sset k.acc t { tile with elems := es } }

/-- The granules that block b of the scratchpad or the vector registers consists of, from the first. -/
def blockGranule (b : Nat) : Nat := if b < vrfBlock then 4 * b else 4 * (b - vrfBlock)
/-- The poison marks that a block has, and their list with those of a block replaced. -/
def blockMarks (marks : List Nat) (g : Nat) : BitVec 4 :=
  BitVec.ofNat 4 ([0, 1, 2, 3].foldl (fun n i => if marks.contains (g + i) then n + 2 ^ i else n) 0)
def putMarks (marks : List Nat) (g : Nat) (v : BitVec 4) : List Nat :=
  [0, 1, 2, 3].foldl (fun l i => if v.getLsbD i then insertNat l (g + i) else l) (marks.filter (fun m => !(decide (g ≤ m) && decide (m < g + 4))))

/-- The marks of block b, and block b given marks; those of the accumulator store lie in its elements. -/
def Core.blockPoison (k : Core) (b : Nat) : BitVec 4 :=
  if b < vrfBlock then blockMarks k.poisonSpad (blockGranule b) else if b < accBlock then blockMarks k.poisonVrf (blockGranule b) else 0
def Core.putPoison (k : Core) (b : Nat) (v : BitVec 4) : Core :=
  if b < vrfBlock then { k with poisonSpad := putMarks k.poisonSpad (blockGranule b) v }
  else if b < accBlock then { k with poisonVrf := putMarks k.poisonVrf (blockGranule b) v }
  else k

/-- Block b poisoned: zero, its granules marked, or PSN set on its elements (26 R354). -/
def Core.poisonBlock (k : Core) (b : Nat) : Core :=
  let k := (k.putBlock b 0).putPoison b 15
  if b < accBlock then k
  else
    let t := (b - accBlock) / 192
    let tile := sget {} k.acc t
    { k with acc := sset k.acc t { tile with elems := (blockElems ((b - accBlock) % 192)).foldl (fun es e => sset es e ((sget {} es e).setF fPsn)) tile.elems } }

/-! The 960 blocks of other state (07 R112, 26 R354), by their number from 32768 on. Which part stands in which block is the model's choice (log 20). What the spec gives a size stands in its own 256 bytes: 32 words of x or k, two masks, a quarter of an h register or ht, 1/32 of a bank, the cubic table in five, two loop-nest tables, eight patch slots, eight rings, 32 words of FQ; so do the sources of matrix entries and the CP's results in flight, one after the other. A queue stands in blocks of so many entries, and the last block of a list holds what is left. -/

/-- Blocks of fields, and of plain bits behind them. -/
def fieldBlocks : Nat := 201
def otherBlocks : Nat := 960

/-- The j-th n entries of a list, the last of them with what is left; and a list with them behind its first n * j. -/
def chunk {α : Type} (n j : Nat) (last : Bool) (l : List α) : List α := if last then l.drop (n * j) else (l.drop (n * j)).take n
def putChunk {α : Type} (n j : Nat) (src dst : List α) : List α := dst.take (n * j) ++ src ++ dst.drop (n * j + n)

/-- The entries of a table at n numbers from lo on. -/
def entriesAt {α : Type} (lo n : Nat) (l : Sparse α) : Sparse α := l.filter (fun p => decide (lo ≤ p.1) && decide (p.1 < lo + n))

/-- The j-th 2048 bits of a number, and a number with them added. -/
def bitsAt (v j : Nat) : Nat := v / 2 ^ (2048 * j) % 2 ^ 2048
def bitsTo (v j : Nat) : Nat := v * 2 ^ (2048 * j)

/-- 32 words of a table, from word lo on, and a table with them. -/
def wordBits (l : Sparse Word) (lo : Nat) : Nat := (List.range 32).foldl (fun n i => n + (sget 0 l (lo + i)).toNat * 2 ^ (64 * i)) 0
def putWords (l : Sparse Word) (lo v : Nat) : Sparse Word :=
  (List.range 32).foldl (fun l i => let w := BitVec.ofNat 64 (v / 2 ^ (64 * i)); if w = 0 then l else sset l (lo + i) w) l

/-- Two entries of 1024 bits, and a table with them. -/
def pairBits (f : Nat → Nat) (n : Nat) : Nat := f n + f (n + 1) * 2 ^ 1024
def putTo {w : Nat} (l : Sparse (BitVec w)) (n v : Nat) : Sparse (BitVec w) := if v % 2 ^ w = 0 then l else sset l n (sget 0 l n + BitVec.ofNat w v)

/-- The value of a result in flight, its width, and the result with another value: of a vector its bits and its value. -/
def CpWrite.value : CpWrite → Nat × Nat
  | .vec _ b v => (8192, b.toNat + v.toNat * 2 ^ 4096)
  | .k _ v => (64, v.toNat)
  | .m _ v => (1024, v.toNat)
  | .h _ v => (8192, v.toNat)
  | .ht v => (8192, v.toNat)
  | .q _ v => (1, v.toNat)
  | .bank _ v => (65536, v.toNat)
  | .hcfg a b => (128, a.toNat + b.toNat * 2 ^ 64)
  | .table v => (10240, v.toNat)
def CpWrite.withValue (n : Nat) : CpWrite → CpWrite
  | .vec r _ _ => .vec r (BitVec.ofNat 4096 n) (BitVec.ofNat 4096 (n / 2 ^ 4096))
  | .k r _ => .k r (BitVec.ofNat 64 n)
  | .m r _ => .m r (BitVec.ofNat 1024 n)
  | .h r _ => .h r (BitVec.ofNat 8192 n)
  | .ht _ => .ht (BitVec.ofNat 8192 n)
  | .q r _ => .q r (n % 2 == 1)
  | .bank r _ => .bank r (BitVec.ofNat 65536 n)
  | .hcfg _ _ => .hcfg (BitVec.ofNat 64 n) (BitVec.ofNat 64 (n / 2 ^ 64))
  | .table _ => .table (BitVec.ofNat 10240 n)

/-- The values of the results in flight, one behind the other, and the results with these values added. -/
def flightBits : List InFlight → Nat
  | [] => 0
  | x :: t => x.write.value.2 + flightBits t * 2 ^ x.write.value.1
def addFlight : List InFlight → Nat → List InFlight
  | [], _ => []
  | x :: t, v => { x with write := x.write.withValue (x.write.value.2 + v % 2 ^ x.write.value.1) } :: addFlight t (v / 2 ^ x.write.value.1)

/-- The sources and masks of matrix entries, one behind the other, and the entries with these added. -/
def MqEntry.bits (e : MqEntry) : Nat := e.source.toNat + e.mask.toNat * 2 ^ 4096
def MqEntry.add (e : MqEntry) (v : Nat) : MqEntry := { e with source := e.source + BitVec.ofNat 4096 v, mask := e.mask + BitVec.ofNat 1024 (v / 2 ^ 4096) }
def sourceBits (l : List MqEntry) : Nat := l.foldr (fun e n => e.bits + n * 2 ^ 5120) 0
def addSources : List MqEntry → Nat → List MqEntry
  | [], _ => []
  | e :: t, v => e.add v :: addSources t (v / 2 ^ 5120)
def addRuns (l : List MqRun) (v : Nat) : List MqRun := (l.zip (addSources (l.map (fun r => r.entry)) v)).map (fun p => { p.1 with entry := p.2 })
/-- An entry without them. -/
def MqEntry.plain (e : MqEntry) : MqEntry := { e with source := 0, mask := 0 }

/-- An engine but for its queues; a part of an engine; and an engine with a part. -/
def Engine.part (j : Nat) (g : Engine) : Engine :=
  if j = 0 then { g with queue := [], flight := [], replays := [] }
  else if j < 19 then { queue := chunk 4 (j - 1) (j == 18) g.queue }
  else { flight := chunk 1 (j - 19) (j == 22) g.flight }
def Engine.putPart (j : Nat) (p g : Engine) : Engine :=
  if j = 0 then { p with queue := g.queue, flight := g.flight, replays := g.replays }
  else if j < 19 then { g with queue := putChunk 4 (j - 1) p.queue g.queue }
  else { g with flight := putChunk 1 (j - 19) p.flight g.flight }

/-- A part of a context beside its registers, and a context with a part. -/
def Ctx.part (j : Nat) (t : Ctx) : Ctx :=
  if j = 0 then { t with regs := [], fails := [], written := [], ops := [], lngos := [], barrivals := [], invals := [], reissue := [] }
  else if j = 1 then { fails := t.fails, written := t.written }
  else if j = 2 then { ops := t.ops, lngos := t.lngos, barrivals := t.barrivals, invals := t.invals }
  else { reissue := t.reissue }
def Ctx.putPart (j : Nat) (p t : Ctx) : Ctx :=
  if j = 0 then { p with regs := t.regs, fails := t.fails, written := t.written, ops := t.ops, lngos := t.lngos, barrivals := t.barrivals, invals := t.invals, reissue := t.reissue }
  else if j = 1 then { t with fails := p.fails, written := p.written }
  else if j = 2 then { t with ops := p.ops, lngos := p.lngos, barrivals := p.barrivals, invals := p.invals }
  else { t with reissue := p.reissue }

/-- The CP without its large registers. -/
def Cp.core (p : Cp) : Cp := { p with h := [], b := [], ht := 0, table := 0 }
/-- A part of the CP, and the CP with a part. -/
def Cp.part (j : Nat) (p : Cp) : Cp :=
  if j = 0 then { p.core with k := [], m := [], pend := [], opens := [], pushes := [], mq := [], mflight := [] }
  else if j = 1 then { opens := p.opens, pushes := p.pushes }
  else if j < 20 then { mq := (chunk 4 (j - 2) (j == 19) p.mq).map MqEntry.plain }
  else if j < 24 then { mflight := (chunk 4 (j - 20) (j == 23) p.mflight).map (fun r => { r with entry := r.entry.plain }) }
  else { pend := (chunk 16 (j - 24) (j == 31) p.pend).map (fun x => { x with write := x.write.withValue 0 }) }
def Cp.putPart (j : Nat) (x p : Cp) : Cp :=
  if j = 0 then { x with k := p.k, m := p.m, h := p.h, b := p.b, ht := p.ht, table := p.table, pend := p.pend, opens := p.opens, pushes := p.pushes, mq := p.mq, mflight := p.mflight }
  else if j = 1 then { p with opens := x.opens, pushes := x.pushes }
  else if j < 20 then { p with mq := putChunk 4 (j - 2) x.mq p.mq }
  else if j < 24 then { p with mflight := putChunk 4 (j - 20) x.mflight p.mflight }
  else { p with pend := putChunk 16 (j - 24) x.pend p.pend }

/-- The fields of other state that stand in block i. -/
def Other.only (i : Nat) (o : Other) : Other :=
  let a := o.arch
  let q := a.seqs
  let seqs (q : Seqs) : Other := { arch := { seqs := q } }
  if i < 8 then { arch := { slots := entriesAt (8 * i) 8 a.slots } }
  else if i < 10 then seqs { rings := entriesAt (8 * (i - 8)) 8 q.rings }
  else if i = 10 then seqs { bars := q.bars }
  else if i = 11 then { arch := { csrs := a.csrs } }
  else if i = 12 then { arch := { run := a.run.map (fun r => { r with ring0 := [] }) } }
  else if i = 13 then seqs { rings := match a.run with | some r => r.ring0 | none => [] }
  else if i = 14 then { depths := o.depths }
  else if i = 15 then { arch := { locks := a.locks, lastSc := a.lastSc, yielded := a.yielded }, stop := o.stop }
  else if i < 19 then seqs { fq := chunk 32 (i - 16) (i == 18) q.fq }
  else if i = 19 then seqs { toks := q.toks, fqCap := q.fqCap, fqEnl := q.fqEnl, waitSince := q.waitSince, lnts := q.lnts.map (fun p => (p.1, { go := p.2.go })) }
  else if i < 36 then seqs { ctxs := (entriesAt ((i - 20) / 4) 1 q.ctxs).map (fun p => (p.1, p.2.part ((i - 20) % 4))) }
  else if i < 59 then seqs { ld := q.ld.part (i - 36) }
  else if i < 82 then seqs { st := q.st.part (i - 59) }
  else if i < 90 then seqs { st := { replays := chunk 4 (i - 82) (i == 89) q.st.replays } }
  else if i < 114 then seqs { cp := q.cp.part (i - 90) }
  else if i < 178 then { arch := { btraps := chunk 4 (i - 114) (i == 177) a.btraps } }
  else if i < 186 then seqs { arrivals := chunk 4 (i - 178) (i == 185) q.arrivals }
  else if i < 193 then { arch := { parked := chunk 1 (i - 186) (i == 192) a.parked } }
  else seqs { cp := q.cp.part (i - 193 + 24) }

/-- Other state with the fields of block i from a copy; the blocks are taken in ascending order. -/
def Other.put (i : Nat) (p o : Other) : Other :=
  let a := p.arch
  let q := a.seqs
  let arch (f : Arch → Arch) : Other := { o with arch := f o.arch }
  let seqs (f : Seqs → Seqs) : Other := arch (fun a => { a with seqs := f a.seqs })
  if i < 8 then arch (fun x => { x with slots := x.slots ++ a.slots })
  else if i < 10 then seqs (fun x => { x with rings := x.rings ++ q.rings })
  else if i = 10 then seqs (fun x => { x with bars := q.bars })
  else if i = 11 then arch (fun x => { x with csrs := a.csrs })
  else if i = 12 then arch (fun x => { x with run := a.run })
  else if i = 13 then arch (fun x => { x with run := x.run.map (fun r => { r with ring0 := q.rings }) })
  else if i = 14 then { o with depths := p.depths }
  else if i = 15 then { (arch (fun x => { x with locks := a.locks, lastSc := a.lastSc, yielded := a.yielded })) with stop := p.stop }
  else if i < 19 then seqs (fun x => { x with fq := putChunk 32 (i - 16) q.fq x.fq })
  else if i = 19 then seqs (fun x => { x with toks := q.toks, fqCap := q.fqCap, fqEnl := q.fqEnl, waitSince := q.waitSince, lnts := q.lnts })
  else if i < 36 then seqs (fun x => q.ctxs.foldl (fun x t => { x with ctxs := sset x.ctxs t.1 ((sget {} x.ctxs t.1).putPart ((i - 20) % 4) t.2) }) x)
  else if i < 59 then seqs (fun x => { x with ld := x.ld.putPart (i - 36) q.ld })
  else if i < 82 then seqs (fun x => { x with st := x.st.putPart (i - 59) q.st })
  else if i < 90 then seqs (fun x => { x with st := { x.st with replays := putChunk 4 (i - 82) q.st.replays x.st.replays } })
  else if i < 114 then seqs (fun x => { x with cp := x.cp.putPart (i - 90) q.cp })
  else if i < 178 then arch (fun x => { x with btraps := putChunk 4 (i - 114) a.btraps x.btraps })
  else if i < 186 then seqs (fun x => { x with arrivals := putChunk 4 (i - 178) q.arrivals x.arrivals })
  else if i < 193 then arch (fun x => { x with parked := putChunk 1 (i - 186) a.parked x.parked })
  else seqs (fun x => { x with cp := x.cp.putPart (i - 193 + 24) q.cp })

/-- Where the registers stand among the blocks of bits. -/
def xBits : Nat := 0
def kBits : Nat := 8
def mBits : Nat := 9
def hBits : Nat := 13
def htBits : Nat := 77
def bankBits : Nat := 81
def tableBits : Nat := 209
def lntBits : Nat := 214
def mqBits : Nat := 222
def runBits : Nat := 402
def pendBits : Nat := 442

/-- What is left of a number from its j-th 2048 bits on, in the last block of a part. -/
def restAt (v j : Nat) (last : Bool) : Nat := if last then v / 2 ^ (2048 * j) else bitsAt v j

/-- The bits of other state that stand in block j of bits. -/
def Other.bits (o : Other) (j : Nat) : Nat :=
  let q := o.arch.seqs
  let p := q.cp
  if j < kBits then wordBits (sget {} q.ctxs (j / 2)).regs (32 * (j % 2))
  else if j < mBits then wordBits p.k 0
  else if j < hBits then pairBits (fun n => (sget 0 p.m n).toNat) (2 * (j - mBits))
  else if j < htBits then bitsAt (sget 0 p.h ((j - hBits) / 4)).toNat ((j - hBits) % 4)
  else if j < bankBits then bitsAt p.ht.toNat (j - htBits)
  else if j < tableBits then bitsAt (sget 0 p.b ((j - bankBits) / 32)).toNat ((j - bankBits) % 32)
  else if j < lntBits then bitsAt p.table.toNat (j - tableBits)
  else if j < mqBits then pairBits (fun n => let l : Lnt := sget {} q.lnts n; l.shadow.toNat + l.live.toNat * 2 ^ 512) (2 * (j - lntBits))
  else if j < runBits then restAt (sourceBits p.mq) (j - mqBits) (j + 1 == runBits)
  else if j < pendBits then restAt (sourceBits (p.mflight.map (fun r => r.entry))) (j - runBits) (j + 1 == pendBits)
  else restAt (flightBits p.pend) (j - pendBits) (j + 1 == otherBlocks - fieldBlocks)

/-- A loop-nest table given the bits of its copies. -/
def putLnt (l : Sparse Lnt) (n v : Nat) : Sparse Lnt :=
  if v % 2 ^ 1024 = 0 then l else sset l n { (sget {} l n) with shadow := BitVec.ofNat 512 v, live := BitVec.ofNat 512 (v / 2 ^ 512) }

/-- Other state with the bits of block j of bits from a copy, behind the fields. -/
def Other.putBits (o : Other) (j v : Nat) : Other :=
  let seqs (f : Seqs → Seqs) : Other := { o with arch := { o.arch with seqs := f o.arch.seqs } }
  let cp (f : Cp → Cp) : Other := seqs (fun q => { q with cp := f q.cp })
  if j < kBits then (if v = 0 then o else seqs (fun q => let t := sget {} q.ctxs (j / 2); { q with ctxs := sset q.ctxs (j / 2) { t with regs := putWords t.regs (32 * (j % 2)) v } }))
  else if j < mBits then cp (fun p => { p with k := putWords p.k 0 v })
  else if j < hBits then cp (fun p => { p with m := putTo (putTo p.m (2 * (j - mBits)) v) (2 * (j - mBits) + 1) (v / 2 ^ 1024) })
  else if j < htBits then cp (fun p => { p with h := putTo p.h ((j - hBits) / 4) (bitsTo v ((j - hBits) % 4)) })
  else if j < bankBits then cp (fun p => { p with ht := p.ht + BitVec.ofNat 8192 (bitsTo v (j - htBits)) })
  else if j < tableBits then cp (fun p => { p with b := putTo p.b ((j - bankBits) / 32) (bitsTo v ((j - bankBits) % 32)) })
  else if j < lntBits then cp (fun p => { p with table := p.table + BitVec.ofNat 10240 (bitsTo v (j - tableBits)) })
  else if j < mqBits then seqs (fun q => { q with lnts := putLnt (putLnt q.lnts (2 * (j - lntBits)) v) (2 * (j - lntBits) + 1) (v / 2 ^ 1024) })
  else if j < runBits then cp (fun p => { p with mq := addSources p.mq (bitsTo v (j - mqBits)) })
  else if j < pendBits then cp (fun p => { p with mflight := addRuns p.mflight (bitsTo v (j - runBits)) })
  else cp (fun p => { p with pend := addFlight p.pend (bitsTo v (j - pendBits)) })

/-- What block i of other state holds, and other state with it. -/
def Other.data (o : Other) (i : Nat) : OtherData := if i < fieldBlocks then .part (o.only i) else .bits (o.bits (i - fieldBlocks))
def Other.putData (o : Other) (i : Nat) : OtherData → Other
  | .blank => o
  | .part p => Other.put i p o
  | .bits v => o.putBits (i - fieldBlocks) v

/-- Other state without what only counts time: the clock of the CP's pipelines and the beginnings of waits, which no write to a block is (log 20). -/
def Other.still (o : Other) : Other :=
  { o with arch := { o.arch with seqs := { o.arch.seqs with
      waitSince := none, ctxs := o.arch.seqs.ctxs.map (fun p => (p.1, { p.2 with waitFrom := 0 }))
      cp := { o.arch.seqs.cp with clock := 0, waitFrom := 0, mq := o.arch.seqs.cp.mq.map (fun e => { e with readyAt := none }) } } } }

/-- The blocks of other state in which two states differ. -/
def Other.changed (a b : Other) : List Nat :=
  if a.still = b.still then [] else ((List.range otherBlocks).filter (fun i => a.still.data i != b.still.data i)).map (fun i => archBlock + i)

/-- The other state of a core as it stands. -/
def Core.other (k : Core) : Other := ⟨{ k.arch with freeze := none, time := 0 }, k.acc.map (fun p => (p.1, p.2.depth)), k.stop⟩

/-- What has been written of the other state since the last note is dirty (07 R113). -/
def Core.noteOther (k : Core) (o : Other) : Core :=
  if k.cellar.seen = o then k
  else { k with cellar := { k.cellar with dirty := (k.cellar.seen.changed o).foldl insertNat k.cellar.dirty, seen := o } }

/-! CRCs (26 R354). -/

/-- One bit of the reflected CRC-32 with polynomial 0x04C11DB7, and a byte of it. -/
def crcBit (r : BitVec 32) : BitVec 32 := if r.getLsbD 0 then (r >>> 1) ^^^ 0xEDB88320 else r >>> 1
def crcByte (r : BitVec 32) (b : Byte) : BitVec 32 := [0, 1, 2, 3, 4, 5, 6, 7].foldl (fun r _ => crcBit r) (r ^^^ b.setWidth 32)
/-- The CRC-32 of bytes. -/
def crc32 (l : List Byte) : BitVec 32 := l.foldl crcByte 0xFFFFFFFF ^^^ 0xFFFFFFFF

/-- What the CRC of a copy of SRAM block b covers: data, generation, block index; and the CRC in its tag. -/
def CellarCopy.bytes (x : CellarCopy) (b : Nat) : List Byte := natBytes 256 x.data.toNat ++ natBytes 8 x.gen ++ natBytes 4 b
def CellarCopy.tag (x : CellarCopy) (b : Nat) : BitVec 32 := crc32 (x.bytes b) ^^^ x.crc
/-- The tag's CRC agrees. -/
def CellarCopy.crcOk (x : CellarCopy) : Bool := x.crc == 0
def OtherCopy.crcOk (x : OtherCopy) : Bool := x.crc == 0

/-- The 64 bytes of a commit record, its CRC over the first 60. -/
def CommitRec.head (r : CommitRec) : List Byte :=
  natBytes 8 r.gen ++ natBytes 2 r.core ++ natBytes 1 r.cause ++ natBytes 1 0 ++ natBytes 4 r.blocks ++ natBytes 8 r.cycle ++ natBytes 36 0
def CommitRec.bytes (r : CommitRec) : List Byte := r.head ++ natBytes 4 (crc32 r.head ^^^ r.crc).toNat
def CommitRec.crcOk (r : CommitRec) : Bool := r.crc == 0

/-- The xor of the CRC that a torn write leaves: never 0. -/
def tornCrc : BitVec 32 := 1

/-! Copies. -/

/-- Copy i of SRAM block b, and of block b of other state. -/
def Cellar.copy (m : Cellar) (b i : Nat) : CellarCopy := sget {} m.copies (2 * b + i)
def Cellar.otherCopy (m : Cellar) (b i : Nat) : OtherCopy := sget {} m.others (2 * b + i)

/-- The copy of a block that a resume at generation g takes: the larger generation not beyond g with a valid CRC; copy 0 where both are equal (26 R354). -/
def chooseCopy (g : Nat) (a0 : Bool) (g0 : Nat) (a1 : Bool) (g1 : Nat) : Option Nat :=
  let v0 := a0 && decide (g0 ≤ g)
  let v1 := a1 && decide (g1 ≤ g)
  if v0 && v1 then (if g0 < g1 then some 1 else some 0) else if v0 then some 0 else if v1 then some 1 else none

def Cellar.chosen (m : Cellar) (g b : Nat) : Option Nat :=
  if b < archBlock then chooseCopy g (m.copy b 0).crcOk (m.copy b 0).gen (m.copy b 1).crcOk (m.copy b 1).gen
  else chooseCopy g (m.otherCopy b 0).crcOk (m.otherCopy b 0).gen (m.otherCopy b 1).crcOk (m.otherCopy b 1).gen

/-- The copy that a write of generation CG + 1 goes to: the one that does not hold the block's state at CG (07 R113). -/
def Cellar.target (m : Cellar) (b : Nat) : Nat := if m.chosen m.cg b = some 0 then 1 else 0

/-- What block b of other state holds at generation g; blank where there is no copy. -/
def Cellar.dataAt (m : Cellar) (g b : Nat) : OtherData := match m.chosen g b with | some i => (m.otherCopy b i).data | none => .blank

/-- The dirty blocks of a core, ascending, and their number (07 R113, R115). -/
def Core.dirtyBlocks (k : Core) : List Nat := (k.noteOther k.other).cellar.dirty
def Core.dirtyCount (k : Core) : Nat := k.dirtyBlocks.length

/-- Block b of generation CG + 1 written with a CRC, of other state from o. -/
def Core.writeCopy (k : Core) (o : Other) (crc : BitVec 32) (b : Nat) : Core :=
  let m := k.cellar
  if b < archBlock then { k with cellar := { m with copies := sset m.copies (2 * b + m.target b) ⟨m.cg + 1, k.block b, k.blockPoison b, crc⟩ } }
  else { k with cellar := { m with others := sset m.others (2 * b + m.target b) ⟨m.cg + 1, o.data (b - archBlock), crc⟩ } }

/-- One block trickled, of other state from o (07 R113). -/
def Core.trickle (o : Other) (k : Core) (b : Nat) : Core :=
  let k := k.writeCopy o 0 b
  { k with cellar := { k.cellar with dirty := k.cellar.dirty.erase b, drained := k.cellar.drained + 1 } }

/-- Every dirty block trickled, with the other state as o gives it. -/
def Core.drain (k : Core) (o : Other) : Core := (k.noteOther o).cellar.dirty.foldl (Core.trickle o) (k.noteOther o)

/-- DIRTYCAP takes effect once the count is not above it (07 R115). -/
def Core.capSettle (k : Core) : Core :=
  let want := k.arch.csrs.dirtycap.toNat
  if k.cellar.cap = want then k
  else { k with cellar := { k.cellar with cap := if k.dirtyCount ≤ want then want else k.cellar.cap } }

/-! The commit (07 R114). -/

/-- A context as a cut saves it: replies that have come are taken, and accesses whose reply is outstanding are made again on resume, in program order (16 R282). -/
def cutCtx (s : State) (c k : Nat) (t : Ctx) : Ctx :=
  let mine := s.replies.filter (fun r => r.core == c && r.ctx == k && r.fault.isNone)
  let t := mine.foldl (fun t r =>
    let t := if r.xd = 0 then t else { t with regs := sset t.regs r.xd r.value }
    { t with busy := t.busy.erase r.xd, holds := if r.hold then t.holds - 1 else t.holds }) t
  { t with reissue := programOrder (t.reissue ++ (sentAccesses s c k).filter (fun a => !a.op.isStore) ++ faultedAccesses s c k) }

/-- The small state as a cut saves it. -/
def cutArch (s : State) (c : Nat) : Arch :=
  let a := s.arch c
  { a with freeze := none, time := 0, seqs := { a.seqs with ctxs := a.seqs.ctxs.map (fun p => (p.1, cutCtx s c p.1 p.2)) } }

/-- The other state as a cut saves it. -/
def cutOther (s : State) (c : Nat) : Other := { (s.core c).other with arch := cutArch s c }

/-- A commit record written to copy g mod 2. -/
def Cellar.putRec (m : Cellar) (r : CommitRec) : Cellar := if r.gen % 2 = 0 then { m with rec0 := r } else { m with rec1 := r }

/-- Some dequeued command of the core, or an entry of its matrix array, has still to finish before its cut (05 R93, 07 R114 step 1); a stopped core's stand still. -/
def cutHeld (s : State) (c : Nat) : Bool :=
  (s.core c).gate == .on && (s.core c).stop.isNone && ((s.core c).stopping.isSome || cutOpen s c .ld || cutOpen s c .st || !(s.cp c).mflight.isEmpty)

/-- What is left of a freeze when its cause ends: the 24 cycles of an SRAM error that was found meanwhile (25 R349). -/
def Freeze.over (f : Freeze) : Option Freeze := if f.until_ = 0 then none else some { f with cause := .sram }

/-- A dirty-cap freeze ends as blocks become clean (07 R115). -/
def Arch.thaw (a : Arch) : Arch := { a with freeze := match a.freeze with
  | some f => if f.cause = .dirtyCap then f.over else some f
  | none => none }

/-- The drain, the record and CG (07 R114 steps 3 to 5); cause as 26 R354. Issue resumes with it. -/
def commitCore (s : State) (c cause : Nat) : State :=
  let o := cutOther s c
  let now := s.now
  s.modCore c (fun k =>
    let k := k.drain o
    let m := k.cellar
    let g := m.cg + 1
    let m := m.putRec ⟨g, c, cause, m.drained, now, 0⟩
    ({ k with cutting := false, arch := k.arch.thaw, cellar := { m with cg := g, drained := 0 } }).capSettle)

/-- The core is neither stopped nor on the way to a stop. -/
def State.stopFree (s : State) (c : Nat) : Bool := (s.core c).stop.isNone && (s.core c).stopping.isNone

/-! Resume (26 R354). -/

/-- The generation that a resume selects: the newest valid record, 0 if none. -/
def Cellar.selectGen (m : Cellar) : Nat :=
  max (if m.rec0.crcOk then m.rec0.gen else 0) (if m.rec1.crcOk then m.rec1.gen else 0)

/-- The blocks that have a copy beyond the format. -/
def Cellar.listed (m : Cellar) : List Nat :=
  m.others.foldl (fun l p => insertNat l (p.1 / 2)) (m.copies.foldl (fun l p => insertNat l (p.1 / 2)) [])

/-- A copy freed by a resume at g (26 R354). -/
def freeCopy (g : Nat) (x : CellarCopy) : CellarCopy := if x.crcOk && decide (x.gen ≤ g) then x else {}
def freeOther (g : Nat) (x : OtherCopy) : OtherCopy := if x.crcOk && decide (x.gen ≤ g) then x else {}

/-- TORN (26 R354). -/
def Cellar.isTorn (m : Cellar) (g : Nat) : Bool :=
  !(if (g + 1) % 2 = 0 then m.rec0 else m.rec1).crcOk || m.copies.any (fun p => decide (g < p.2.gen)) || m.others.any (fun p => decide (g < p.2.gen))

/-- Blocks with no valid copy at g. -/
def Cellar.lost (m : Cellar) (g : Nat) : List Nat := m.listed.filter (fun b => (m.chosen g b).isNone)

/-- A block of other state is lost at g: the core cannot be woken (26 R354). -/
def Cellar.archLost (m : Cellar) (g : Nat) : Bool := (m.lost g).any (fun b => decide (archBlock ≤ b))

/-- The other state at generation g: each block's part from its chosen copy. -/
def Cellar.otherGen (m : Cellar) (g : Nat) : Other :=
  (m.listed.filter (fun b => decide (archBlock ≤ b))).foldl (fun o b => o.putData (b - archBlock) (m.dataAt g b)) {}

/-- A core's SRAM and other state rebuilt from the copies at generation g (26 R354). The instruction memories are kept as they are, and the core's clock goes on. -/
def Core.select (k : Core) (g : Nat) : Core :=
  let m := k.cellar
  let o := m.otherGen g
  let blank : Core := { k with
    spad := [], vrf := [], acc := [], poisonSpad := [], mended := [], poisonVrf := [], arch := { o.arch with time := k.arch.time }, stop := o.stop, stopping := none, cutting := false, leaving := false, killing := false }
  let k' := (m.listed.filter (fun b => decide (b < archBlock))).foldl (fun x b => match m.chosen g b with
    | some i => (x.putBlock b (m.copy b i).data).putPoison b (m.copy b i).poison
    | none => x.poisonBlock b) blank
  let k' := o.depths.foldl (fun x p => { x with acc := sset x.acc p.1 { (sget {} x.acc p.1) with depth := p.2 } }) k'
  let torn := m.isTorn g
  { k' with cellar := { m with
      seen := k'.other, cg := g, res := if torn then 2 else 1, dirty := [], drained := 0
      copies := m.copies.map (fun p => (p.1, freeCopy g p.2))
      others := m.others.map (fun p => (p.1, freeOther g p.2))
      gen := BitVec.ofNat 32 g, bad := BitVec.ofNat 16 (min 65535 (m.lost g).length), torn := torn, state := 2 } }

/-- DROP formats the cellar (26 R354, R357). -/
def Cellar.format (m : Cellar) : Cellar := { m with copies := [], others := [], rec0 := {}, rec1 := {}, cg := 0, res := 0, dirty := [], seen := {}, drained := 0, state := 0 }

/-! PFENCE's covered cores (07 R119). -/

/-- The cores within the scope whose state the context has written since their last commit, and its own. -/
def coveredCores (s : State) (c k : Nat) (sc : Scope) : List Nat :=
  ((s.ctx c k).written.filter (fun p => inScope sc c p.1 && decide ((s.core p.1).cellar.cg < p.2))).foldl (fun l p => insertNat l p.1) [c]

/-- What a context notes of an owner that has lost its store: the store is in no commit to come (07 R119, 16 R288). -/
def lostGen : Nat := 2 ^ 64

/-- An owner resumes at generation g, or with nothing: what contexts of other cores have written there since is lost. -/
def loseStores (s : State) (owner g : Nat) : State :=
  let lose (q : Seqs) : Seqs := { q with ctxs := q.ctxs.map (fun p => (p.1, { p.2 with written := p.2.written.map (fun w => if w.1 = owner ∧ g < w.2 then (owner, lostGen) else w) })) }
  { s with cores := s.cores.map (fun p => if p.1 = owner then p else (p.1, { p.2 with
      arch := { p.2.arch with seqs := lose p.2.arch.seqs, parked := p.2.arch.parked.map (fun k => { k with seqs := lose k.seqs }) } })) }

/-- An owner that a context covers cannot be reached: it has lost a store of the context, a link is dead, its die has no supply, or it lost its supply and is not woken (16 R288). -/
def unreachable (s : State) (c k owner : Nat) : Bool :=
  (s.ctx c k).written.contains (owner, lostGen) || owner != c && (pathIn s (dieOf c) (dieOf owner) 3 || !(s.die (dieOf owner)).power || (s.core owner).gate == .holdup || (s.core owner).gate == .held)

end Sys2Proof.Machine
end

