-- ==== Sys2Proof/Machine/EngineIsa.lean ====
section
/-! DEFINITION. Family: the words of LD and ST (spec 15 R259-R279, 27 R361, R372): stack and control words, and the enqueue of the data commands. The engine that acts is the party of `who`; the stack's head is its top. -/

namespace Sys2Proof.Machine

/-- The acting engine. -/
def State.e (s : State) : Eng := match s.who.party with | .st => .st | _ => .ld
def State.g (s : State) : Engine := s.eng s.c s.e
def State.modG (s : State) (f : Engine → Engine) : State := s.modEng s.c s.e f
/-- The sequencer goes on at a word address. -/
def State.engTo (s : State) (pc : Nat) : State := s.modG (fun g => { g with pc := pc, wait := .none })
/-- The sequencer waits at its word. -/
def State.engWait (s : State) (w : EngWait) : State := s.modG (fun g => { g with wait := w })
/-- A parameter fault of the word (24 R325). -/
def State.engParam (s : State) (detail : Nat) : State := wordTrap s s.c s.e (faultOf 0x04 detail 0)

/-- Entries of the parameter stack (15 R259). -/
def stackSize : Nat := 8

/-- A word that takes `need` entries and leaves `f` of the stack: parameter faults for an empty or a full stack come first (15 R260). -/
def stackWord (need : Nat) (f : List Word → List Word) (s : State) : Result :=
  let st := s.g.stack
  if st.length < need then .next (s.engParam 2)
  else if stackSize < (f st).length then .next (s.engParam 1)
  else .next ((s.modG (fun g => { g with stack := f st })).engTo (s.g.pc + 1))

/-- A two-operand word: the entry below the top, and the top. -/
def binary (f : Word → Word → Word) : List Word → List Word
  | b :: a :: t => f a b :: t
  | l => l

/-! Stack words (15 R260, R262). -/

/-- LIT (11 R171). -/
def execLit (v : BitVec 15) (s : State) : Result := stackWord 0 (fun st => v.signExtend 64 :: st) s
/-- EXT (11 R171). -/
def execExt (v : BitVec 14) (s : State) : Result :=
  stackWord 1 (fun st => match st with | t :: r => (t <<< 14 ||| v.setWidth 64) :: r | [] => []) s
/-- DUP (15 R262). -/
def execDup (s : State) : Result := stackWord 1 (fun st => match st with | t :: r => t :: t :: r | [] => []) s
/-- DROP (15 R262). -/
def execDrop (s : State) : Result := stackWord 1 (fun st => st.tail) s
/-- SWAP (15 R262). -/
def execSwap (s : State) : Result := stackWord 2 (fun st => match st with | b :: a :: t => a :: b :: t | l => l) s
/-- OVER (15 R262). -/
def execOver (s : State) : Result := stackWord 2 (fun st => match st with | b :: a :: t => a :: b :: a :: t | l => l) s
/-- ENG_ADD (15 R262). -/
def execEngAdd (s : State) : Result := stackWord 2 (binary (fun a b => a + b)) s
/-- ENG_SUB (15 R262). -/
def execEngSub (s : State) : Result := stackWord 2 (binary (fun a b => a - b)) s
/-- ENG_SHL (15 R262). -/
def execEngShl (s : State) : Result := stackWord 2 (binary (fun a b => a <<< (b.toNat % 64))) s
/-- ENG_AND (15 R262). -/
def execEngAnd (s : State) : Result := stackWord 2 (binary (fun a b => a &&& b)) s
/-- EGET (15 R262). -/
def execEget (n : Nat) (s : State) : Result := stackWord 0 (fun st => sget 0 s.g.e n :: st) s
/-- ESET (15 R262). -/
def execEset (n : Nat) (s : State) : Result :=
  match s.g.stack with
  | [] => .next (s.engParam 2)
  | a :: r => .next ((s.modG (fun g => { g with stack := r, e := sset g.e n a })).engTo (s.g.pc + 1))

/-! Control words (15 R263-R265). -/

/-- Words of an engine's instruction memory. -/
def engWords : Nat := 8192

/-- JMP (15 R263). -/
def execJmp (s : State) : Result :=
  match s.g.stack with
  | [] => .next (s.engParam 2)
  | t :: r =>
    if engWords ≤ t.toNat then .next (s.engParam 5)
    else .next ((s.modG (fun g => { g with stack := r })).engTo t.toNat)

/-- BZ (15 R263). -/
def execBz (s : State) : Result :=
  match s.g.stack with
  | t :: c :: r =>
    if engWords ≤ t.toNat then .next (s.engParam 5)
    else .next ((s.modG (fun g => { g with stack := r })).engTo (if c = 0 then t.toNat else s.g.pc + 1))
  | _ => .next (s.engParam 2)

/-- ENG_LOOP: sets the counter and the start, or skips to the first LEND of the level (15 R264). -/
def execEngLoop (l : Nat) (s : State) : Result :=
  match s.g.stack with
  | [] => .next (s.engParam 2)
  | n :: r =>
    if 2 ^ 32 ≤ n.toNat then .next (s.engParam 3)
    else if n = 0 then .next ((s.modG (fun g => { g with stack := r, skip := some l })).engTo (s.g.pc + 1))
    else
      let at_ := BitVec.ofNat 13 (s.g.pc + 1)
      let cnt : BitVec 32 := n.setWidth 32
      .next ((s.modG (fun g =>
        if l = 0 then { g with stack := r, lc0 := cnt, ls0 := at_ } else { g with stack := r, lc1 := cnt, ls1 := at_ })).engTo (s.g.pc + 1))

/-- LEND (15 R264). -/
def execLend (l : Nat) (s : State) : Result :=
  let cnt := if l = 0 then s.g.lc0 else s.g.lc1
  let at_ := if l = 0 then s.g.ls0 else s.g.ls1
  if cnt = 0 then .next (s.engParam 4)
  else .next ((s.modG (fun g => if l = 0 then { g with lc0 := cnt - 1 } else { g with lc1 := cnt - 1 })).engTo
    (if cnt - 1 ≠ 0 then at_.toNat else s.g.pc + 1))

/-- END: the sequencer stops; what is left on the stack is discarded (15 R265). -/
def execEngEnd (s : State) : Result := .next (s.modG (fun g => { g with status := .ended, stack := [], wait := .none }))

/-- One word skipped on the way to the LEND of level l (15 R264). -/
def engSkip (s : State) (l : Nat) (i : Option Instr) : State :=
  if i = some (.lend l) then (s.modG (fun g => { g with skip := none })).engTo (s.g.pc + 1) else s.engTo (s.g.pc + 1)

/-! Enqueue (15 R266 stage 1, 27 R361). -/

/-- Limits and alignment checks of a command: the first that fails. -/
def firstFault : List (Bool × FaultInfo) → Option FaultInfo
  | [] => none
  | (bad, f) :: t => if bad then some f else firstFault t

/-- A parameter fault if `bad`. -/
def limit (bad : Bool) : Bool × FaultInfo := (bad, faultOf 0x04 3 0)
/-- Control bits outside `mask` must be 0 (15 R269). -/
def ctlBits (w : Word) (mask : Word) : Bool × FaultInfo := (w &&& ~~~mask != 0, faultOf 0x04 7 0)
/-- An address must be a multiple of the access unit (27 R361). -/
def aligned (a unit : Nat) : Bool × FaultInfo := (a % unit != 0, faultOf 0x06 (Nat.log2 unit) a)

/-- A data command: its n arguments are checked and popped, and it joins the queue under the next number, or its sequencer waits for room. -/
def enqueue (i : Instr) (n : Nat) (checks : List Word → List (Bool × FaultInfo)) (s : State) : Result :=
  let g := s.g
  if g.stack.length < n then .next (s.engParam 2)
  else
    let args := (g.stack.take n).reverse
    match firstFault (checks args) with
    | some f => .next (wordTrap s s.c s.e f)
    | none =>
      if g.cap ≤ g.queue.length then .next (s.engWait .queue)
      else
        let k : Cmd := { num := g.lastNum + 1, op := i, args := args, pc := g.pc }
        .next ((s.modG (fun g => { g with stack := g.stack.drop n, queue := g.queue ++ [k], lastNum := g.lastNum + 1 })).engTo (g.pc + 1))

/-- Argument j. -/
def argAt (l : List Word) (j : Nat) : Word := (l[j]?).getD 0

/-- The checks of a walk's argument address and control word (15 R271, R275). -/
def walkChecks (mask : Word) (more : Word → List (Bool × FaultInfo)) (l : List Word) : List (Bool × FaultInfo) :=
  let ctl := argAt l 1
  [ctlBits ctl mask, limit (decide (12 < ctl.toNat / 256 % 16))] ++ more ctl ++ [aligned (argAt l 0).toNat (granule ctl.toNat)]

/-- TILE (15 R271). -/
def execTile (t : Tok) (pad : Bool) (s : State) : Result := enqueue (.tile t pad) 2 (walkChecks 0xFFF (fun _ => [])) s
/-- DRAIN (15 R271). -/
def execDrain (t : Tok) (keep pad : Bool) (s : State) : Result := enqueue (.drain t keep pad) 2 (walkChecks 0xFFF (fun _ => [])) s

/-- ACCST (15 R272). -/
def execAccst (t : Tok) (pad : Bool) (s : State) : Result :=
  enqueue (.accst t pad) 3 (fun l =>
    let ctl := (argAt l 2).toNat
    let w := ((ElemType.ofCode (ctl / 256 % 16)).getD .i8).width
    let rows := ctl / 2 ^ 24 % 128
    [ctlBits (argAt l 2) 0x7F3F3F3F, limit (decide (ctl / 256 % 16 = 15)),
     limit (decide (rows = 0) || decide (64 < ctl / 2 ^ 16 % 64 + rows)), limit ((argAt l 1).toNat % (8 * w) != 0),
     aligned (argAt l 0).toNat (max 1 (w / 8))]) s

/-- What GATH and SCAT check alike (15 R273). -/
def indexChecks (more : Nat → List (Bool × FaultInfo)) (l : List Word) : List (Bool × FaultInfo) :=
  let ctl := (argAt l 2).toNat
  let n := ctl / 2 ^ 16 % 8192
  [ctlBits (argAt l 2) 0x1FFF0F0F, limit (decide (12 < ctl / 256 % 16)), limit (decide (n = 0) || decide (4096 < n))]
    ++ more (granule ctl) ++ [aligned (argAt l 0).toNat (granule ctl), aligned (argAt l 1).toNat 4]

/-- The rows of GATH and SCAT fit a tile of their ring, where it is set (15 R273, log 78). -/
def tileLimit (s : State) (l : List Word) : Bool × FaultInfo :=
  let ctl := (argAt l 2).toNat
  let r := s.ring s.c (ctl % 16)
  limit (r.v && decide (r.tile < ctl / 2 ^ 16 % 8192 * granule ctl))

/-- GATH (15 R273). -/
def execGath (t : Tok) (pad : Bool) (s : State) : Result :=
  enqueue (.gath t pad) 3 (fun l => indexChecks (fun _ => [tileLimit s l]) l) s
/-- SCAT (15 R273). -/
def execScat (t : Tok) (fadd atom keep pad : Bool) (s : State) : Result :=
  enqueue (.scat t fadd atom keep pad) 3 (fun l => indexChecks (fun g => [limit (fadd && !atom), limit (atom && decide (g < 4)), tileLimit s l]) l) s

/-- bytes lies in 1 to 2^32 (15 R274). -/
def bytesOk (w : Word) : Bool × FaultInfo := limit (w == 0 || decide (2 ^ 32 < w.toNat))
/-- COPY (15 R274). -/
def execCopy (t : Tok) (s : State) : Result := enqueue (.copy t) 3 (fun l => [bytesOk (argAt l 2)]) s
/-- FILL (15 R274). -/
def execFill (t : Tok) (s : State) : Result := enqueue (.fill t) 3 (fun l => [bytesOk (argAt l 1)]) s

/-- MCAST (15 R275). -/
def execMcast (t : Tok) (s : State) : Result :=
  enqueue (.mcast t) 2 (walkChecks 0xFF7FFF (fun ctl => [limit (decide (ctl.toNat / 2 ^ 16 % 256 = 0))])) s

/-- KVCP (15 R276). -/
def execKvcp (t : Tok) (dec inc cpy : Bool) (s : State) : Result :=
  enqueue (.kvcp t dec inc cpy) 4 (fun l => [ctlBits (argAt l 3) 0xFFFF, aligned (argAt l 0).toNat 32, aligned (argAt l 1).toNat 32]) s

/-- SEND (15 R277). -/
def execSend (t : Tok) (pad : Bool) (s : State) : Result :=
  enqueue (.send t pad) 3 (fun l =>
    let ctl := (argAt l 2).toNat
    let n := ctl % 65536
    let h := ctl / 2 ^ 32 % 65536
    [ctlBits (argAt l 2) 0x3FFFFFFFFFFFFF, limit (decide (n < 8) || decide (4096 < n) || n % 8 != 0), limit (h != 0xFFFF && h % 4 != 0), limit (decide (2 ^ 31 ≤ (argAt l 1).toNat)),
     aligned (argAt l 0).toNat 8, aligned (argAt l 1).toNat 8]) s

/-- PREF (15 R278). -/
def execPref (t : Tok) (s : State) : Result :=
  enqueue (.pref t) 2 (fun l =>
    let unit := max 1 (s.arch s.c).csrs.rssize.toNat
    [limit (decide (63 < (argAt l 1).toNat)), limit (decide ((argAt l 0).toNat < 2 ^ 31)), aligned (argAt l 0).toNat unit]) s
/-- EVICT (15 R278). -/
def execEvict (t : Tok) (s : State) : Result := enqueue (.evict t) 1 (fun l => [limit (decide (63 < (argAt l 0).toNat))]) s

/-- WAITN (15 R279): waits for the number or for the engine's end, then for its tokens, and acts on all its tokens at once. -/
def execWaitn (t : Tok) (e : Eng) (s : State) : Result :=
  match s.g.stack with
  | [] => .next (s.engParam 2)
  | n :: r =>
    if e = s.e ∧ s.g.lastNum < n.toNat then .next (s.engParam 6)
    else if cnOf s s.c e < n.toNat && engRunning s s.c e then .next (s.engWait .number)
    else match tokenLack s s.c s.e t with
      | some q => .next (s.engWait (.token q))
      | none =>
        let s := takeTokens s s.c s.e t
        let s := (s.modG (fun g => { g with stack := r })).engTo (s.g.pc + 1)
        .next (pushTokens s s.c s.e 0 t.su t.sd)

end Sys2Proof.Machine
end

