-- ==== Sys2Proof/Machine/EngineRun.lean ====
section
/-! DEFINITION. Family: the life of a data command after its enqueue (spec 15 R266-R268, 05 R90-R91, 06 R107-R111, 04 R70): dequeue, start, one access, finish, tokens, ring pointers, residency slots. An event that is not enabled leaves the state as it is. -/

namespace Sys2Proof.Machine

/-! Dequeue. -/

/-- The replay queue of ST is full, which holds SENDs only (25 R344). -/
def replayFull (g : Engine) (i : Instr) : Bool := match i with | .send _ _ => decide (32 ≤ g.replays.length) | _ => false

/-- The head of a command queue may dequeue, pacing and tokens apart (15 R266). -/
def dequeueReady (s : State) (c : Nat) (e : Eng) (k : Cmd) : Bool :=
  let g := s.eng c e
  e != .cp && coreLive s c && !((s.core c).dbg.halt && (s.core c).dbg.qhold) && !g.halted
    && decide (g.flight.length < 4) && g.pushes.isEmpty && !replayFull g k.op

/-- The command leaves the queue: takes its tokens, joins those in flight, and is journalled (15 R266 stage 2, 05 R90). -/
def dequeueCmd (s : State) (c : Nat) (e : Eng) (k : Cmd) : State :=
  let t := s.coreTime c
  let s := if (s.eng c e).paced then countEvent s c 10 1 else s
  let s := takeTokens s c e (tokOf k.op)
  let idx := match s.run c with | some r => r.jcount | none => 0
  let k := { k with dequeuedAt := t, jidx := idx }
  let s := s.modEng c e (fun g => { g with queue := g.queue.tail, flight := g.flight ++ [k], lastDequeue := some t, paced := false })
  journalCmd (s.modRun c (fun r => { r with jcount := r.jcount + 1 })) c e k

/-- ENGINE_COMMAND_DEQUEUE (15 R266). -/
def execEngineCommandDequeue (c : Nat) (e : Eng) (s : State) : Result :=
  match (s.eng c e).queue with
  | [] => .next s
  | k :: _ =>
    if dequeueReady s c e k && gapPassed s c e (s.eng c e).lastDequeue && (tokenLack s c e (tokOf k.op)).isNone
    then .next (dequeueCmd s c e k)
    else .next s

/-! Start. -/

/-- ENGINE_COMMAND_START (15 R266): one cycle after the dequeue at the earliest, in dequeue order. -/
def execEngineCommandStart (c : Nat) (e : Eng) (s : State) : Result :=
  match nextStart s c e with
  | none => .next s
  | some k =>
    if e = .cp ∨ cmdGoes s c e k = false ∨ ¬ k.dequeuedAt < s.coreTime c ∨ (s.eng c e).flight.any (fun j => j.faulted.isSome) = true then .next s
    else match startOf s c e k with
      | .fault f => .next (cmdTrap (leaveQueue s c k.num) c e k f)
      | .ring => .next (awaitRing s c k)
      | .wait => .next s
      | .go s k => .next (setFlight s c e { k with started := true })

/-- A command waits for its ring (12 R191). -/
def ringHeld (s : State) (c : Nat) (e : Eng) : Bool :=
  match nextStart s c e with
  | some k => (match startOf s c e k with | .ring => true | _ => false)
  | none => false

/-! Accesses and finish. -/

/-- The next access of a command in flight, or w words of it (15 R267, 16 R281). -/
def engAccess (s : State) (c : Nat) (e : Eng) (num w : Nat) : State :=
  match findFlight s c e num with
  | none => s
  | some k =>
    if !cmdGoes s c e k || !k.started || k.faulted.isSome || accessesDone s c k
        || cmdHeld s c e k (earlierCmds s c e num) then s
    else match cmdStep s c e k w with
      | .ok s k' =>
        let s := setFlight s c e k'
        if k'.prog = k.prog then s else journalCmd s c e k'
      | .wait s => s
      | .fault s f => cmdTrap s c e k f

/-- ENGINE_COMMAND_FINISH (15 R266 stage 4, 04 R71). -/
def execEngineCommandFinish (c : Nat) (e : Eng) (num : Nat) (s : State) : Result :=
  match findFlight s c e num with
  | some k => .next (if e != .cp && cmdGoes s c e k && mayFinish s c k then finishCmd s c e k else s)
  | none => .next s

/-- TOKEN_PUSH: an increment of what finished first acts once its queue has room, and the command it was the last of is done (04 R70, 23 R321). -/
def execTokenPush (c : Nat) (e : Eng) (s : State) : Result :=
  match nextPush s c e with
  | none => .next s
  | some p =>
    if !coreLive s c then .next s
    else
      let s := setPushes (s.modTok c p.1 (fun t => { t with count := t.count + 1 })) c e ((pushesOf s c e).erase p)
      match findFlight s c e p.2 with
      | some k => .next (if e != .cp && k.finished && !pushWaits s c e p.2 then doneCmd s c e k else s)
      | none => .next s

/-! Ring pointers (06 R107, R109). -/

/-- RING_TAIL_ADVANCE: the visible tail moves over the next place if it is filled; the arrivals of a multicast reach their barrier (06 R108, R109). -/
def execRingTailAdvance (c n : Nat) (s : State) : Result :=
  let r := s.ring c n
  if r.filled.contains r.tail then
    let bars := r.signals.filter (fun p => p.1 == r.tail)
    let s := s.modRing c n (fun g => { g with tail := g.tail + 1, filled := g.filled.erase g.tail, signals := g.signals.filter (fun p => p.1 != g.tail) })
    .next (bars.foldl (fun s p => s.modBar c p.2.1 (fun b => { b with queue := b.queue ++ [p.2.2] })) s)
  else .next s

/-- RING_HEAD_ADVANCE: HEAD moves over the next place if it is popped. -/
def execRingHeadAdvance (c n : Nat) (s : State) : Result :=
  let r := s.ring c n
  if r.popped.contains r.head then .next (s.modRing c n (fun g => { g with head := g.head + 1, popped := g.popped.erase g.head }))
  else .next s

/-- The PREF whose fill of slot n is to be installed. -/
def fillingCmd (s : State) (c n : Nat) : Option Cmd :=
  (s.eng c .ld).flight.find? (fun k => (match k.op with | .pref _ => k.arg 1 == n | _ => false) && k.prog == 0 && k.faulted.isNone && accessesDone s c k)

/-- RESIDENCY_FILL_DONE: the fill of a slot installs its address and VALID (06 R111, 15 R278); a write that R98 refuses faults the command. -/
def execResidencyFillDone (c n : Nat) (s : State) : Result :=
  match fillingCmd s c n with
  | none => .next s
  | some k =>
    if !cmdGoes s c .ld k then .next s else
    let va := hallAddr c (residencyEntry s c n)
    match vwrite s c .ld k.num 4 va (natBytes 8 (k.arg 0) ++ natBytes 8 2) with
    | .ok s _ => .next (setFlight s c .ld { k with prog := 1 })
    | .wait s => .next s
    | .fault s f => .next (cmdTrap s c .ld k f)

end Sys2Proof.Machine
end

