-- ==== Sys2Proof/Machine/Records.lean ====
section
/-! DEFINITION. Launch records: their fields and checks (spec 04 R60-R61, 05 R81, 02 R33), tags and producers (05 R83-R84), and what LAUNCH answers (05 R87, 12 R193). -/

namespace Sys2Proof.Machine

/-- A record from its 64 bytes (04 R60). -/
def parseRecord (b : List Byte) : Record :=
  { image := BitVec.ofNat 64 (fieldAt b 0 8), args := BitVec.ofNat 64 (fieldAt b 8 8)
    loop := (List.range 6).map (fun i => BitVec.ofNat 32 (fieldAt b (16 + 4 * i) 4))
    prio := fieldAt b 0x28 1, node := fieldAt b 0x29 1, tag := BitVec.ofNat 32 (fieldAt b 0x2C 4)
    prod0 := BitVec.ofNat 32 (fieldAt b 0x30 4), prod1 := BitVec.ofNat 32 (fieldAt b 0x34 4), cond := BitVec.ofNat 64 (fieldAt b 0x38 8) }

/-- KIND and COUNT of a level word (04 R61). -/
def levelKind (w : BitVec 32) : Nat := w.toNat / 2 ^ 30
def levelCount (w : BitVec 32) : Nat := w.toNat % 2 ^ 30
/-- The product of the counts of the levels of a kind. -/
def kindProduct (l : List (BitVec 32)) (kind : Nat) : Nat := (l.filter (fun w => levelKind w == kind)).foldl (fun n w => n * levelCount w) 1
/-- C, D and T of a record (04 R61). -/
def Record.c (r : Record) : Nat := kindProduct r.loop 1
def Record.d (r : Record) : Nat := kindProduct r.loop 2
def Record.t (r : Record) : Nat := kindProduct r.loop 0
/-- The limits of 04 R61 on the level words. -/
def loopOk (l : List (BitVec 32)) : Bool :=
  l.all (fun w => levelKind w != 3 && levelCount w != 0) && decide (kindProduct l 1 ≤ 64) && decide (kindProduct l 2 ≤ 8) && decide (kindProduct l 0 ≤ 2 ^ 32)

/-- An image header from its 256 bytes (02 R33). -/
def parseHeader (b : List Byte) : Header :=
  { magic := fieldAt b 0 4, version := fieldAt b 4 2, flags := fieldAt b 6 2, allot := fieldAt b 8 2, spneed := fieldAt b 0x0C 4
    lat := BitVec.ofNat 128 (fieldAt b 0x10 16), ovl := (List.range 8).map (fun i => (fieldAt b (0x20 + 8 * i) 4, fieldAt b (0x24 + 8 * i) 4))
    wheel := fieldAt b 0x80 2 }

/-- Overlay i: offset and size. -/
def Header.overlay (h : Header) (i : Nat) : Nat × Nat := (h.ovl[i]?).getD (0, 0)

/-- The header that stands for no image. -/
def noHeader : Header := ⟨0, 0, 0, 32, 0, 0, [], 0⟩

/-- Bytes of a slice that launches share (05 R88). -/
def grantable : Nat := Config.sliceReserved

/-- 0, or a power of two up to 64 (05 R89). -/
def wheelOk (n : Nat) : Bool := [0, 1, 2, 4, 8, 16, 32, 64].contains n

/-- The IMAGE and SIZE checks of a header (05 R81): the code of the first that fails. R81 has no check of the unit of 1 KiB that R33 gives SPNEED: a header that breaks it is accepted (log 58). -/
def headerFault (h : Header) : Option Nat :=
  if h.magic ≠ 0x344D4B5A ∨ h.version ≠ 1 then some 4
  else if h.allot % 32 ≠ 0 ∨ h.allot < 32 ∨ 256 < h.allot ∨ grantable < h.spneed ∨ (h.overlay 4).2 + (h.overlay 5).2 ≠ h.spneed
    ∨ wheelOk h.wheel = false then some 5
  else none

/-- Reads the header of an image (02 R33), for a die or the hub; the fault is kept for its report. -/
def readHeader (s : State) (d tctx : Nat) (image : Word) : State × Except FaultInfo Header :=
  match readBytes s d tctx image.toNat 256 with
  | (s, .ok b) => (s, .ok (parseHeader b))
  | (s, .error f) => (s, .error f)

/-- A tag that the step former keeps for itself (05 R81). -/
def tagReserved (t : BitVec 32) : Bool := decide (0xFE000000 ≤ t.toNat) && t.toNat != 0xFFFFFFFF

/-- The checks of 05 R81: of several that fail, the first in the order PRIO, NODE, LOOP, the alignment of IMAGE, the read of the header (8), the header's own checks (4, 5), TAG is the one reported; the spec gives no order (log 79). NODE must lie below `nodes`: 4, or 1 for LAUNCH (05 R87). `step` leaves out the TAG check (03 R56). -/
def checkRecord (s : State) (d tctx : Nat) (r : Record) (nodes : Nat) (step : Bool) : State × Except Nat Header :=
  if 11 < r.prio % 16 ∨ r.prio / 16 ≠ 0 then (s, .error 1)
  else if nodes ≤ r.node then (s, .error 2)
  else if loopOk r.loop = false then (s, .error 3)
  else if r.node ≠ 0 then (if tagReserved r.tag then (s, .error 6) else (s, .ok noHeader))
  else if r.image.toNat % 64 ≠ 0 ∨ r.image.toNat < 2 ^ 31 then (s, .error 4)
  else match readHeader s d tctx r.image with
    | (s, .error _) => (s, .error 8)
    | (s, .ok h) => match headerFault h with
      | some n => (s, .error n)
      | none => if !step && tagReserved r.tag then (s, .error 6) else (s, .ok h)

/-! Tags and producers (05 R83). -/

/-- A record of that number waits to be placed or evaluated, in a halted queue too (05 R83). -/
def isPending (s : State) (id : Nat) : Bool :=
  s.hub.queues.any (fun p => match p.2.held with | some h => h.id == id | none => false) || s.dies.any (fun p => p.2.pool.any (fun h => h.id == id))

/-- The launch of that number has completed, or was never one; a record read that a write of EN = 0 drops counts as started and completed for those already bound to it: the model's choice (log 94). -/
def isComplete (s : State) (id : Nat) : Bool := (s.launch id).isNone && !isPending s id

/-- Every core of the launch's cohort has issued its first instruction (05 R83). -/
def isStarted (s : State) (id : Nat) : Bool :=
  match s.launch id with
  | some l => l.cohort.all (fun p => l.started.contains p.core || l.completed.contains p.core)
  | none => isComplete s id

/-- The number of the live holder of a tag. -/
def holderOf (s : State) (tag : BitVec 32) : Option Nat :=
  if tag = 0xFFFFFFFF then none else (s.hub.holders.find? (fun p => p.1 == tag.toNat)).map (fun p => p.2)

/-- A record read: numbered, its producers bound, itself the holder of its tag (05 R83). The module has one space of tags: steps of equal number on two dies carry one TAG, and the later displaces the earlier (log 80). -/
def bindRecord (s : State) (body : Record) (hdr : Header) (addr : Word) (tctx inlim : Nat) (rows : BitVec 1024) (step : Option Nat) (index : BitVec 32) : State × HeldRec :=
  let id := s.hub.nextId
  let prods := ([body.prod0, body.prod1].filterMap (holderOf s)).filter (fun p => !isComplete s p)
  let held : HeldRec := ⟨id, body, hdr, prods, none, addr, tctx, inlim, rows, step, index⟩
  let s := s.modHub (fun h => { h with
    nextId := id + 1
    holders := if body.tag = 0xFFFFFFFF then h.holders else (body.tag.toNat, id) :: h.holders.filter (fun p => p.1 != body.tag.toNat) })
  (s, held)

/-- A record no longer holds its tag (05 R83). -/
def releaseTag (s : State) (id : Nat) : State := s.modHub (fun h => { h with holders := h.holders.filter (fun p => p.2 != id) })

/-- The record is eligible (05 R84): a kernel once its producers have started, a node once they have completed. -/
def recEligible (s : State) (h : HeldRec) : Bool :=
  if h.body.node = 0 then h.producers.all (isStarted s) else h.producers.all (isComplete s)

/-- Notes from when a record is the head of its queue and eligible (05 R82). -/
def noteEligible (s : State) (h : HeldRec) : HeldRec := if h.eligible.isNone && recEligible s h then { h with eligible := some s.now } else h

/-- A pool's heads: of each priority the first accepted record that is eligible, from when it is that; a record that is not eligible holds back none behind it (05 R82, R87, log 82). -/
def poolHeads (s : State) : List Nat → List HeldRec → List HeldRec
  | _, [] => []
  | seen, h :: t =>
    if !recEligible s h || seen.contains h.body.prio then { h with eligible := none } :: poolHeads s seen t
    else noteEligible s h :: poolHeads s (h.body.prio :: seen) t

/-! LAUNCH (05 R87, 12 R193). -/

/-- Records of a pending-launch pool. -/
def poolSize : Nat := 1024

/-- A record joins a die's pool. -/
def poolAdd (s : State) (d : Nat) (h : HeldRec) : State :=
  s.modDie d (fun x => { x with pool := poolHeads s [] (x.pool ++ [h]) })

/-- LAUNCH's effect and status, in the order of its checks. -/
def launchNow (s : State) (c : Nat) (xa : Word) : State × Word :=
  let rejected (code : Nat) : Word := BitVec.ofNat 64 (2 + 256 * code)
  if xa.toNat % 64 ≠ 0 then (s, rejected 4)
  else match readBytes s (dieOf c) (s.tctx c) xa.toNat 64 with
    | (s, .error _) => (s, rejected 8)
    | (s, .ok b) =>
      let r := parseRecord b
      match checkRecord s (dieOf c) (s.tctx c) r 1 false with
      | (s, .error n) => (s, rejected n)
      | (s, .ok h) =>
        if poolSize ≤ (s.die (dieOf c)).pool.length then (s, 1)
        else
          let (s, held) := bindRecord s r h xa (s.tctx c) (s.arch c).csrs.inlim.toNat 0 none 0
          (poolAdd s (dieOf c) held, 0)

end Sys2Proof.Machine
end

