-- ==== Sys2Proof/Machine/Csr.lean ====
section
/-! DEFINITION. The control registers that CSRR and CSRW reach (spec 11 R167, 12 R205, 04 R377, and the chapters of each register): the value read, the plain writes, and the queue of a context's ordered operations. -/

namespace Sys2Proof.Machine

/-! Values as read. -/

/-- WHLPOS (05 R89). -/
def whlpos (s : State) (c : Nat) : Word :=
  match s.run c with
  | some r => if r.wheelN = 0 then 0 else BitVec.ofNat 64 (r.wheelP % (4096 / r.wheelN) + r.wheelN * 65536)
  | none => 0

/-- CELSTAT (07 R116). -/
def celstat (k : Core) : Word := BitVec.ofNat 64 (k.cellar.cg % 2 ^ 32 * 2 ^ 32 + k.cellar.res.toNat * 2 ^ 30 + k.dirtyCount % 4096)

/-- CLRAIL (07 R118). -/
def clrail (g : Cluster) : Word := BitVec.ofNat 64 (2 * g.busy.toNat + g.sel.toNat)

/-- BARn (06 R108). -/
def Barrier.word (b : Barrier) : Word := BitVec.ofNat 64 (b.target.toNat * 2 ^ 32 + b.phase.toNat * 65536 + b.count.toNat)

/-- STEPCTL (03 R53). -/
def Die.stepctl (d : Die) : Word :=
  BitVec.ofNat 64 (d.serr.toNat * 2 ^ 56 + d.sinlim.toNat * 2 ^ 32 + d.sctx.toNat * 65536 + 2 * d.inv.toNat + d.en.toNat)

/-- REPCTL (10 R158). -/
def Die.repctl (d : Die) : Word := BitVec.ofNat 64 (d.repctx.toNat * 65536 + d.repen.toNat)

/-- DLOAD, the sum of LOADC (10 R155). -/
def Die.dload (d : Die) : Nat := d.loadc.foldl (fun n p => n + p.2) 0

/-- The address of a replica table copy (10 R153). -/
def Die.tableAt (d : Die) (copy : Bool) : Nat := d.rptab.toNat + (if copy then 16384 else 0)

/-- A CSR as context k of core c reads it (11 R167). A write-only register reads 0. -/
def readCsr (s : State) (c k n : Nat) : Word :=
  let r := (s.arch c).csrs
  let d := s.die (dieOf c)
  let t := s.ctx c k
  match n with
  | 0x000 => r.img
  | 0x001 => r.arg
  | 0x002 => r.recAddr
  | 0x003 => r.pos
  | 0x008 => r.paceLd.setWidth 64
  | 0x009 => r.paceCp.setWidth 64
  | 0x00A => r.paceSt.setWidth 64
  | 0x00C => BitVec.ofNat 64 (cnOf s c .ld)
  | 0x00D => BitVec.ofNat 64 (cnOf s c .cp)
  | 0x00E => BitVec.ofNat 64 (cnOf s c .st)
  | 0x010 => r.pmbase
  | 0x011 => r.pmcnt.setWidth 64
  | 0x012 => r.bhaddr
  | 0x019 => t.lres
  | 0x020 => r.rtbase
  | 0x021 => r.rssize
  | 0x028 => r.dirtycap.setWidth 64
  | 0x029 => celstat (s.core c)
  | 0x02A => if (s.core c).gate = .on then 0 else 1
  | 0x030 => r.inlim.setWidth 64
  | 0x032 => r.hkst
  | 0x033 => r.hkz
  | 0x039 => if t.invals.isEmpty then 1 else 0
  | 0x03A => whlpos s c
  | 0x03C => r.rplive
  | 0x03D => t.ldsel
  | 0x03E => if t.ldsel.toNat < 1024 then BitVec.ofNat 64 (sget 0 d.loadc t.ldsel.toNat) else Config.freeWord s.free
  | 0x100 => clrail (s.cluster (clusterOf c))
  | 0x200 => d.stepctl
  | 0x201 => d.stepmin.setWidth 64
  | 0x202 => d.stepwait.setWidth 64
  | 0x203 => d.stepmax.setWidth 64
  | 0x204 => d.steprec
  | 0x205 => d.steptab
  | 0x211 => d.rtdone.setWidth 64
  | 0x212 => d.rterr
  | 0x218 => d.repctl
  | 0x219 => d.repthr.setWidth 64
  | 0x21A => d.rptab
  | 0x21B => d.xbase
  | 0x21C => d.xsz
  | 0x21D => BitVec.ofNat 64 d.dload
  | n =>
    if 0x040 ≤ n ∧ n < 0x050 then (s.ring c (n - 0x040)).cfg
    else if 0x050 ≤ n ∧ n < 0x060 then (s.ring c (n - 0x050)).ptr
    else if 0x060 ≤ n ∧ n < 0x068 then (s.bar c (n - 0x060)).word
    else if 0x070 ≤ n ∧ n < 0x078 then sget 0 r.evc (n - 0x070)
    else if 0x078 ≤ n ∧ n < 0x080 then (sget 0 r.evsel (n - 0x078)).setWidth 64
    else 0

/-- What a read of a CSR does beside giving its value: BARn records its PHASE for the context (12 R198), and a read of a free value consumes it. -/
def csrReadEffect (s : State) (c k n : Nat) : State :=
  if 0x060 ≤ n ∧ n < 0x068 then s.modCtx c k (fun t => { t with phases := sset t.phases (n - 0x060) (s.bar c (n - 0x060)).phase })
  else if n = 0x03E ∧ 1024 ≤ (s.ctx c k).ldsel.toNat then { s with free := s.free + 1 }
  else s

/-! Plain writes. -/

/-- A clamp of a written word into lo to hi. -/
def clampWord (v : Word) (lo hi : Nat) : Nat := clampNat v.toNat lo hi

/-- PMBASE keeps bits [21:13] (03 R46). -/
def pmbaseMask : Word := 0x3FE000

/-- INLIM of STEPCTL and INLIMIT: 0 and values above 2^20 act as 2^20 (03 R53, 05 R79). -/
def inlimit (n : Nat) : BitVec 21 := if n = 0 ∨ 2 ^ 20 < n then BitVec.ofNat 21 (2 ^ 20) else BitVec.ofNat 21 n

/-- A write of STEPCTL that leaves EN as it is (03 R53): while EN = 1 it changes nothing. -/
def Die.putStepctl (d : Die) (v : Word) : Die :=
  if d.en then d
  else { d with inv := v.getLsbD 1, sctx := BitVec.ofNat 12 (v.toNat / 65536), sinlim := inlimit (v.toNat / 2 ^ 32 % 2 ^ 21) }

/-- A step-former register other than STEPCTL and STEPMAX; ignored while EN = 1 (03 R53). -/
def Die.putStep (d : Die) (n : Nat) (v : Word) : Die :=
  if d.en then d
  else match n with
    | 0x201 => { d with stepmin := BitVec.ofNat 16 (clampWord v 1 d.stepmax.toNat) }
    | 0x202 => { d with stepwait := BitVec.ofNat 32 (clampWord v 1 (2 ^ 32 - 1)) }
    | 0x204 => { d with steprec := v &&& ~~~0x3F }
    | 0x205 => { d with steptab := v &&& ~~~0xFFFF }
    | _ => d

/-- REPCTL and the registers that EN guards (10 R158). -/
def Die.putRep (d : Die) (n : Nat) (v : Word) : Die :=
  match n with
  | 0x218 => { d with repen := v.getLsbD 0, repctx := if d.repen then d.repctx else BitVec.ofNat 12 (v.toNat / 65536) }
  | 0x219 => { d with repthr := v.setWidth 32 }
  | 0x21A => if d.repen then d else { d with rptab := v }
  | 0x21B => if d.repen then d else { d with xbase := v }
  | 0x21C => if d.repen then d else { d with xsz := v }
  | _ => d

/-- A hook of the core is running (09 R144). -/
def hookRuns (s : State) (c : Nat) : Bool := [1, 2, 3].any (fun k => (s.ctx c k).hook.isSome && (s.ctx c k).status == .running)
/-- A hook of the core is waiting or running. -/
def hookActive (s : State) (c : Nat) : Bool := (s.arch c).csrs.hkreq.isSome || hookRuns s c

/-- A CSR whose write has no step of its own: REGISTER_WRITE. A read-only register ignores it (11 R167). RTBASE and RSSIZE keep the value written, multiple of their unit or not: the model's choice (log 94). -/
def writeCsr (s : State) (c k n : Nat) (v : Word) : State :=
  let die (f : Die → Die) : State := s.modDie (dieOf c) f
  match n with
  | 0x008 => s.modCsrs c (fun r => { r with paceLd := v.setWidth 16 })
  | 0x009 => s.modCsrs c (fun r => { r with paceCp := v.setWidth 16 })
  | 0x00A => s.modCsrs c (fun r => { r with paceSt := v.setWidth 16 })
  | 0x010 => s.modCsrs c (fun r => { r with pmbase := v &&& pmbaseMask })
  | 0x012 => s.modCsrs c (fun r => { r with bhaddr := v })
  | 0x020 => s.modCsrs c (fun r => { r with rtbase := v })
  | 0x021 => s.modCsrs c (fun r => { r with rssize := v })
  | 0x028 => (s.modCsrs c (fun r => { r with dirtycap := BitVec.ofNat 12 (clampNat (v.toNat % 4096) 16 2048) })).modCore c Core.capSettle
  | 0x033 => if hookRuns s c then s else s.modCsrs c (fun r => { r with hkz := v })
  | 0x03D => s.modCtx c k (fun t => { t with ldsel := v })
  | 0x200 => die (fun d => d.putStepctl v)
  | 0x201 => die (fun d => d.putStep n v)
  | 0x202 => die (fun d => d.putStep n v)
  | 0x204 => die (fun d => d.putStep n v)
  | 0x205 => die (fun d => d.putStep n v)
  | 0x218 => die (fun d => d.putRep n v)
  | 0x219 => die (fun d => d.putRep n v)
  | 0x21A => die (fun d => d.putRep n v)
  | 0x21B => die (fun d => d.putRep n v)
  | 0x21C => die (fun d => d.putRep n v)
  | n =>
    if 0x070 ≤ n ∧ n < 0x078 then s.modCsrs c (fun r => { r with evc := sset r.evc (n - 0x070) v })
    else if 0x078 ≤ n ∧ n < 0x080 then s.modCsrs c (fun r => { r with evsel := sset r.evsel (n - 0x078) (v.setWidth 9) })
    else s

/-- The CSRW of number n and value v has a step of its own (the operations of 95): LPOST, CGATE with bit 0, HKSTART, XINV, RGCFG, BAR, CLRAIL, STEPCTL where EN changes, STEPMAX, RTLOAD, LDRST. -/
def ownStep (s : State) (c n : Nat) (v : Word) : Bool :=
  n == 0x018 || (n == 0x02A && v.getLsbD 0) || n == 0x031 || n == 0x038 || (decide (0x040 ≤ n) && decide (n < 0x050))
    || (decide (0x060 ≤ n) && decide (n < 0x068)) || n == 0x100
    || (n == 0x200 && v.getLsbD 0 != (s.die (dieOf c)).en) || n == 0x203 || n == 0x210 || n == 0x21E

/-! Ordered operations (12 R205, R193; 10 R150). -/

/-- The oldest ordered operation of a context. -/
def headOp (s : State) (c k : Nat) : Option CtxOp := (s.ctx c k).ops.head?

/-- The oldest operation is a CSRW whose earlier stores are performed: its number and value. -/
def readyCsrw (s : State) (c k : Nat) : Option (Nat × Word) :=
  match headOp s c k with
  | some o => (match o.kind with
    | .csrw n v => if storesDone s c k o.seq then some (n, v) else none
    | _ => none)
  | none => none

/-- Removes the oldest operation. -/
def popOp (s : State) (c k : Nat) : State := s.modCtx c k (fun t => { t with ops := t.ops.tail })

/-- The effect of a CSRW's own step, when the oldest operation is a ready CSRW of a number and value that `sel` accepts. -/
def csrwStep (sel : Nat → Word → Bool) (f : Nat → Word → State → State) (c k : Nat) (s : State) : State :=
  match readyCsrw s c k with
  | some (n, v) => if sel n v then f n v (popOp s c k) else s
  | none => s

/-- Queues an ordered operation of the acting context; a result register waits for it. -/
def State.queueOp (s : State) (kind : CtxOpKind) (xd : Option Nat) : State :=
  ({ (s.modMe (fun t => { t with
      ops := t.ops ++ [CtxOp.mk s.seq kind]
      busy := match xd with | some d => if d = 0 then t.busy else insertNat t.busy d | none => t.busy })) with seq := s.seq + 1 }).pass

end Sys2Proof.Machine
end

