-- ==== Sys2Proof/Machine/Experts.lean ====
section
/-! DEFINITION. Family: expert routing, load counters and replication (spec 10 R148-R158, 25 R342). -/

namespace Sys2Proof.Machine

/-! The routing table and ROUTE (10 R148-R150). -/

/-- Fields of a routing entry (10 R148). -/
def rtField (e : BitVec 512) (off n : Nat) : Nat := e.toNat / 2 ^ (8 * off) % 2 ^ (8 * n)
def rtScores (e : BitVec 512) : Nat := rtField e 0 8
def rtRows (e : BitVec 512) : Nat := rtField e 8 4
def rtNexp (e : BitVec 512) : Nat := rtField e 0x0C 2
def rtK (e : BitVec 512) : Nat := rtField e 0x0E 1
def rtStype (e : BitVec 512) : Nat := rtField e 0x0F 1
def rtRstride (e : BitVec 512) : Int := sextNat 32 (rtField e 0x10 4)
def rtEstride (e : BitVec 512) : Int := sextNat 32 (rtField e 0x14 4)
def rtOidx (e : BitVec 512) : Nat := rtField e 0x18 8
def rtOwt (e : BitVec 512) : Nat := rtField e 0x20 8
def rtOhist (e : BitVec 512) : Nat := rtField e 0x28 8
def rtValid (e : BitVec 512) : Nat := rtField e 0x30 8
/-- Bytes of a score. -/
def rtSize (e : BitVec 512) : Nat := if rtStype e = 0 then 4 else 2

/-- Every field lies in its range and every address is aligned (10 R148, R150). The 8 bytes at offset 0x38, which the table gives as 0 under no field's name, are not checked: the model's choice (log 94). -/
def rtOk (e : BitVec 512) : Bool :=
  decide (1 ≤ rtRows e) && decide (rtRows e ≤ 65536) && decide (1 ≤ rtNexp e) && decide (rtNexp e ≤ 1024) && decide (1 ≤ rtK e)
    && decide (rtK e ≤ 8) && decide (rtStype e ≤ 2) && rtScores e % rtSize e == 0 && rtOidx e % 16 == 0 && rtOwt e % 32 == 0 && rtOhist e % 4 == 0

/-- ROUTE's effect and result, once its earlier stores are performed (10 R150). -/
def routeNow (s : State) (c : Nat) (xa : Word) : State × Word :=
  let d := s.die (dieOf c)
  let e := sget 0 d.rtab (xa.toNat % 64)
  if 64 ≤ xa.toNat ∨ rtOk e = false then (s, 0xFFFFFFFFFFFFFFFE)
  else if 16 ≤ d.rqueue.length then (s, -1)
  else (s.modDie (dieOf c) (fun x => { x with rqueue := x.rqueue ++ [⟨x.ticket, e, s.tctx c⟩], ticket := x.ticket + 1 }), d.ticket.setWidth 64)

/-- RTLOAD's effect (10 R148): the die copies the record; a value or an address it does not take changes nothing. -/
def rtload (c : Nat) (v : Word) (s : State) : State :=
  let a := v.toNat % 2 ^ 31
  if v.toNat / 2 ^ 31 % 2 ^ 27 ≠ 0 ∨ a % 64 ≠ 0 then s
  else match readNow s (dieOf c) (s.tctx c) a 64 with
    | (_, .error _) => s
    | (_, .ok b) => s.modDie (dieOf c) (fun d => { d with rtab := sset d.rtab (v.toNat / 2 ^ 58) (BitVec.ofNat 512 (bytesNat b)) })

/-- RTLOAD_WRITE (10 R148, R149). -/
def execRtloadWrite (c k : Nat) (s : State) : Result := .next (csrwStep (fun n _ => n == 0x210) (fun _ v => rtload c v) c k s)

/-! A routing pass (10 R151). -/

/-- A score widened to an FP32 pattern. -/
def widenScore (stype bits : Nat) : BitVec 32 :=
  BitVec.ofNat 32 (if stype = 0 then bits else if stype = 1 then toF32 .rne (decodeF fmtF16 bits) else toF32 .rne (decodeF fmtBf16 bits))

/-- The better of two experts: the higher score, then the lower index; NaN scores take no part. -/
def betterOf (sc : List (BitVec 32)) (out : List Nat) (best : Option Nat) (i : Nat) : Option Nat :=
  let v (j : Nat) : FVal := f32 ((sc[j]?).getD 0).toNat
  if out.contains i || (v i).isNan then best
  else match best with
    | none => some i
    | some b => if (v b).lt (v i) then some i else best

/-- The k best, best first. -/
def bestK (sc : List (BitVec 32)) : Nat → List Nat → List Nat
  | 0, out => out
  | n + 1, out => match (List.range sc.length).foldl (betterOf sc out) none with
    | none => out
    | some i => bestK sc n (out ++ [i])

/-- L2E (09 R141). -/
def l2e : Nat := 0x3FB8AA3B

/-- x[j] of 10 R151 against the best score m. -/
def routeX (m s : BitVec 32) : Nat :=
  match f32 m.toNat with
  | .inf true => 0x3F800000
  | .inf false => if f32 s.toNat = .inf false then 0x3F800000 else 0
  | _ =>
    let diff := toF32 .rne (FVal.add (f32 s.toNat) (f32 m.toNat).neg)
    exp2F true (BitVec.ofNat 32 (toF32 .rne (FVal.mul (f32 diff) (f32 l2e))))

/-- Indices and weights of a row, K slots each (10 R151). -/
def routeRow (sc : List (BitVec 32)) (k : Nat) : List (Nat × Nat) :=
  let sel := bestK sc k []
  let at_ (j : Nat) : BitVec 32 := (sc[j]?).getD 0
  let x (j : Nat) : Nat := routeX (at_ (sel.head?.getD 0)) (at_ j)
  let sum := ((List.range sc.length).filter (fun j => sel.contains j)).foldl (fun acc j => add32 .rne acc (x j)) 0
  (List.range k).map (fun i => match sel[i]? with
    | some e => (e, div32 (x e) sum)
    | none => (0xFFFF, 0))

/-- Bytes at an address that is a multiple of 8, word by word (16 R281). -/
def wordPieces : Nat → Nat → List Byte → List (Nat × List Byte)
  | 0, _, _ => []
  | n + 1, va, bs => if bs.isEmpty then [] else (va, bs.take 8) :: wordPieces n (va + 8) (bs.drop 8)

/-- The writes of a row. -/
def routeOuts (e : BitVec 512) (r : Nat) (row : List (Nat × Nat)) : List (Nat × List Byte) :=
  wordPieces 2 ((rtOidx e + 16 * r) % 2 ^ 64) (row.flatMap (fun p => natBytes 2 p.1))
    ++ wordPieces 4 ((rtOwt e + 32 * r) % 2 ^ 64) (row.flatMap (fun p => natBytes 4 p.2))

/-- The address of a score (10 R148). -/
def scoreAt (e : BitVec 512) (r x : Nat) : Nat := wrapInt 64 ((rtScores e : Int) + (r : Int) * rtRstride e + (x : Int) * rtEstride e)

/-- A die unit's translation of n bytes: as an engine's, on the die's own unit. -/
def dieLocate (s : State) (d tctx : Nat) (w : Walker) (va n : Nat) (write : Bool) : VAns :=
  match lookup s d tctx va write with
  | .fault f => .fault s f
  | .miss => .wait (startWalk s d tctx va write w)
  | .loc l => arriveHome s d tctx (.unit d) va n l

/-- The pass stops at a fault. -/
def setRun (s : State) (d : Nat) (r : RouteRun) : State := s.modDie d (fun x => { x with rrun := some r })

/-- A read of the pass, given to `f`. -/
def routeRead (s : State) (d : Nat) (r : RouteRun) (va n : Nat) (f : Nat → RouteRun) : State :=
  match dieLocate s d r.pass.tctx .routing va n false with
  | .wait s => s
  | .fault s x => setRun s d { r with fault := some (r.row, x.code) }
  | .ok s l => if s.locPoison l n then setRun s d { r with fault := some (r.row, 0x08) } else setRun (corrected s l n) d (f (bytesNat (s.locRead l n)))

/-- The counts of a pass are written only once every one of them can be: after a fault no count is (10 R152). This is the next step: one more place found, or with all found the counts of one more word written (16 R281). -/
def histNext (s : State) (d : Nat) (r : RouteRun) : State :=
  let e := r.pass.entry
  let i := r.hlocs.length
  if i < rtNexp e then
    match dieLocate s d r.pass.tctx .routing ((rtOhist e + 4 * i) % 2 ^ 64) 4 true with
    | .wait s => s
    | .fault s x => setRun s d { r with fault := some (r.row - 1, x.code) }
    | .ok s l => setRun s d { r with hlocs := r.hlocs ++ [l] }
  else
    let n := if (rtOhist e + 4 * r.counts) % 8 = 0 then 2 else 1
    let now := (((List.range (rtNexp e)).zip r.hlocs).drop r.counts).take n
    setRun (now.foldl (fun s p => s.locWrite p.2 (natBytes 4 (sget 0 r.hist p.1))) s) d
      { r with counts := r.counts + n, histDone := decide (rtNexp e ≤ r.counts + n) }

/-- One row is ready: its writes and counts. -/
def rowDone (r : RouteRun) (scores : List (BitVec 32)) : RouteRun :=
  let e := r.pass.entry
  let row := routeRow scores (rtK e)
  { r with row := r.row + 1, valid := none, scores := [], outs := routeOuts e r.row row
           hist := row.foldl (fun h p => if p.1 = 0xFFFF then h else sset h p.1 (sget 0 h p.1 + 1)) r.hist }

/-- The next access of the pass that a die runs (10 R151). A score at an address that is no multiple of its size is read in one access, from its first byte's page: the model's choice (log 94). -/
def routeAccessNext (s : State) (d : Nat) : State :=
  match (s.die d).rrun with
  | none => s
  | some r =>
    let e := r.pass.entry
    if r.fault.isSome then s
    else match r.outs with
      | (va, bs) :: rest =>
        (match dieLocate s d r.pass.tctx .routing va bs.length true with
        | .wait s => s
        | .fault s x => setRun s d { r with fault := some (r.row - 1, x.code) }
        | .ok s l => setRun (s.locWrite l bs) d { r with outs := rest })
      | [] =>
        if rtRows e ≤ r.row then
          (if r.histDone then s else histNext s d r)
        else match r.valid with
          | none =>
            if rtValid e = 0 then setRun s d { r with valid := some true }
            else routeRead s d r ((rtValid e + r.row / 8) % 2 ^ 64) 1 (fun b => { r with valid := some (b / 2 ^ (r.row % 8) % 2 == 1) })
          | some false => setRun s d { r with row := r.row + 1, valid := none }
          | some true =>
            routeRead s d r (scoreAt e r.row r.scores.length) (rtSize e) (fun b =>
              let sc := r.scores ++ [widenScore (rtStype e) b]
              if sc.length = rtNexp e then rowDone r sc else { r with scores := sc })

/-- The row at which a fault of its next access stops a pass: the one whose writes are not made, or the one that it reads, or the last in the histogram (10 R152, log 71). -/
def faultRow (r : RouteRun) : Nat := if r.outs.isEmpty && decide (r.row < rtRows r.pass.entry) then r.row else r.row - 1

/-- ROUTE_PASS_START: the oldest queued pass runs, and leaves its place of the queue (10 R150, log 94). -/
def execRoutePassStart (d : Nat) (s : State) : Result :=
  match (s.die d).rrun, (s.die d).rqueue with
  | none, p :: _ => .next (s.modDie d (fun x => { x with rqueue := x.rqueue.tail, rrun := some ⟨p, 0, none, [], [], [], [], 0, false, none⟩ }))
  | _, _ => .next s

/-- RTDONE changes: every context of the die's cores has its event flag set (12 R204). -/
def passFinished (s : State) (d : Nat) (t : BitVec 32) : State :=
  let s := s.modDie d (fun x => { x with rtdone := t, rrun := none })
  (List.range 64).foldl (fun s i => setFlags s (64 * d + i) none) s

/-- ROUTE_PASS_FINISH (10 R150, R152, 25 R342). -/
def execRoutePassFinish (d : Nat) (s : State) : Result :=
  match (s.die d).rrun with
  | none => .next s
  | some r =>
    match r.fault with
    | some (row, code) =>
      let s := s.modDie d (fun x => { x with rterr := BitVec.ofNat 64 (r.pass.ticket.toNat * 2 ^ 32 + row * 256 + code) })
      .next (passFinished (raiseVector s 4098) d r.pass.ticket)
    | none => .next (if r.outs.isEmpty && r.histDone then passFinished s d r.pass.ticket else s)

/-! Load counters (10 R155, R156). -/

/-- LDRST_WRITE (10 R155). -/
def execLdrstWrite (c k : Nat) (s : State) : Result :=
  .next (csrwStep (fun n _ => n == 0x21E) (fun _ _ s => s.modDie (dieOf c) (fun d => { d with loadc := [] })) c k s)

/-- A request joins the others: by cycle, and within one cycle in ascending die number (10 R156). -/
def insertReq : List (Nat × Nat × Nat) → Nat × Nat × Nat → List (Nat × Nat × Nat)
  | [], r => [r]
  | h :: t, r => if h.2.2 = r.2.2 ∧ r.1 < h.1 then r :: h :: t else h :: insertReq t r

/-- A payload with an expert tag has arrived on a die: its counter, and the request of a counter beyond the threshold (10 R155, R156). -/
def countLoad (s : State) (d tag : Nat) : State :=
  if 1024 ≤ tag then s
  else
    let x := s.die d
    let n := min (2 ^ 32 - 1) (sget 0 x.loadc tag + 1)
    if x.repen && x.repthr != 0 && decide (x.repthr.toNat < n) then
      (s.modDie d (fun x => { x with loadc := sset x.loadc tag 0 })).modHub (fun h => { h with repReqs := insertReq h.repReqs (d, tag, s.now) })
    else s.modDie d (fun x => { x with loadc := sset x.loadc tag n })

/-! Replication (10 R156, R157). -/

/-- An entry of a replica table: its dies, the primary first (10 R153). -/
def replicaDies (b : List Byte) : List Nat := (List.range (min 8 (fieldAt b 0 1))).map (fun j => fieldAt b (2 + j) 1)

/-- The dies of an expert with every published and pending update of a die (10 R156 step 1). -/
def newestDies (s : State) (d e : Nat) : Option (List Nat) :=
  let x := s.die d
  match readNow s d x.repctx.toNat (x.tableAt (x.live != x.applied) + 16 * e) 16 with
  | (_, .ok b) => some (replicaDies b ++ (x.updates.filter (fun u => u.1 == e)).map (fun u => u.2))
  | (_, .error _) => none

/-- The die with the lowest DLOAD, and then number, of those that do not hold the expert. -/
def replicaTarget (s : State) (holds : List Nat) : Option Nat :=
  ((List.range 8).filter (fun d => !holds.contains d)).foldl (fun best d => match best with
    | none => some d
    | some b => if (s.die d).dload < (s.die b).dload then some d else best) none

/-- REPLICATION_SERVE (10 R156): takes the oldest request, once the cycle that made it is over; it ends, or a copy starts. One whose replica table cannot be read ends without a copy: the model's choice (log 94). -/
def execReplicationServe (s : State) : Result :=
  match s.hub.serving, s.hub.repReqs with
  | none, (d, e, t) :: rest =>
    if decide (s.now ≤ t) || (List.range 8).any (fun i => decide (64 ≤ (s.die i).updates.length)) then .next s
    else
      let s1 := s.modHub (fun h => { h with repReqs := rest })
      (match newestDies s d e with
      | none => .next s1
      | some holds => match holds.head?, replicaTarget s holds with
        | some p, some t =>
          if 8 ≤ holds.length then .next s1
          else .next ((s1.modHub (fun h => { h with serving := some (e, t) })).modDie t (fun x => { x with rcopy := some ⟨e, t, p, 0, []⟩, rcopyFault := false }))
        | _, _ => .next s1)
  | _, _ => .next s

/-- The address of an expert's weights on a die (10 R153). -/
def replicaAt (x : Die) (die e : Nat) : Nat := (x.xbase.toNat + (die * 1024 + e) * x.xsz.toNat) % 2 ^ 64

/-- The next access of a die's replication engine: a word read, or written (10 R156 step 4, 16 R281). -/
def replicaAccessNext (s : State) (d : Nat) : State :=
  let x := s.die d
  match x.rcopy with
  | none => s
  | some r =>
    let fail (s : State) : State := s.modDie d (fun x => { x with rcopyFault := true })
    if x.rcopyFault || decide (x.xsz.toNat ≤ r.pos) then s
    else if r.buf.isEmpty then
      (match dieLocate s d x.repctx.toNat .replication (replicaAt x r.src r.expert + r.pos) 8 false with
      | .wait s => s
      | .fault s _ => fail s
      | .ok s l => if s.locPoison l 8 then fail s else (corrected s l 8).modDie d (fun x => { x with rcopy := some { r with buf := s.locRead l 8 } }))
    else
      (match dieLocate s d x.repctx.toNat .replication (replicaAt x r.dst r.expert + r.pos) 8 true with
      | .wait s => s
      | .fault s _ => fail s
      | .ok s l => (s.locWrite l r.buf).modDie d (fun x => { x with rcopy := some { r with buf := [], pos := r.pos + 8 } }))

/-- REPLICATION_COPY_DONE (10 R156 step 5): every die gets the update, or none after a fault of the copy (log 31). -/
def execReplicationCopyDone (s : State) : Result :=
  match s.hub.serving with
  | none => .next s
  | some (e, t) =>
    let x := s.die t
    match x.rcopy with
    | none => .next s
    | some r =>
      let clear (s : State) : State := (s.modHub (fun h => { h with serving := none })).modDie t (fun x => { x with rcopy := none, rcopyFault := false })
      if x.rcopyFault then .next (clear s)
      else if r.pos < x.xsz.toNat then .next s
      else .next ((List.range 8).foldl (fun s d => s.modDie d (fun x => { x with updates := x.updates ++ [(e, t)] })) (clear s))

/-- REPLICA_UPDATE_APPLY (10 R157): the oldest update joins the shadow copy, once no launch uses that copy; the first after a swap copies the live table. -/
def execReplicaUpdateApply (d : Nat) (s : State) : Result :=
  let x := s.die d
  match x.updates with
  | [] => .next s
  | (e, t) :: rest =>
    if !(x.oldCaptures.all (isComplete s)) then .next s
    else
      let ctx := x.repctx.toNat
      let shadow := x.tableAt (!x.live)
      let prepared : Option State :=
        if x.applied then some s
        else match readBytes s d ctx (x.tableAt x.live) 16384 with
          | (s, .ok b) => (match writeBytes s d ctx shadow b with
            | (s, none) => some s
            | (_, some _) => none)
          | (_, .error _) => none
      match prepared with
      | none => .next s
      | some s => match readNow s d ctx (shadow + 16 * e) 16 with
        | (s, .error _) => .next s
        | (s, .ok b) =>
          let n := fieldAt b 0 1
          match writeNow s d ctx (shadow + 16 * e) (BitVec.ofNat 8 (n + 1) :: ((b.set (2 + n) (BitVec.ofNat 8 t)).drop 1)) with
          | (s, some _) => .next s
          | (s, none) => .next (s.modDie d (fun x => { x with updates := rest, applied := true }))

/-- LAYERB's effect and result (10 R157). -/
def layerbNow (s : State) (d : Nat) : State × Word :=
  let x := s.die d
  if x.applied then
    (s.modDie d (fun x => { x with live := !x.live, applied := false, oldCaptures := (x.captures.filter (fun p => p.2 == x.live && !isComplete s p.1)).map (fun p => p.1) }), 0)
  else (s, 1)

end Sys2Proof.Machine
end

