-- ==== Sys2Proof/Machine/Scalar.lean ====
section
/-! DEFINITION. Family: scalar arithmetic, immediates, jumps and branches (spec 12 R177-R180) and UTFCUT (12 R201). -/

namespace Sys2Proof.Machine

/-! Values (12 R177). -/

def aluMulh (a b : Word) : Word := BitVec.ofInt 64 (a.toInt * b.toInt / 2 ^ 64)
def aluMulhu (a b : Word) : Word := BitVec.ofNat 64 (a.toNat * b.toNat / 2 ^ 64)
/-- DIV: toward zero; by 0 it gives -1. -/
def aluDiv (a b : Word) : Word := if b = 0 then -1 else BitVec.sdiv a b
def aluDivu (a b : Word) : Word := if b = 0 then -1 else a / b
/-- REM = a - b x DIV(a, b); by 0 it gives a. -/
def aluRem (a b : Word) : Word := if b = 0 then a else BitVec.srem a b
def aluRemu (a b : Word) : Word := if b = 0 then a else a % b
/-- A shift count is b[5:0]. -/
def shiftCount (b : Word) : Nat := b.toNat % 64
def aluClz (a : Word) : Word := if a = 0 then 64 else BitVec.ofNat 64 (63 - Nat.log2 a.toNat)
/-- Set bits of the low n bits of a number. -/
def countBits : Nat → Nat → Nat
  | 0, _ => 0
  | n + 1, x => x % 2 + countBits n (x / 2)
def aluPopc (a : Word) : Word := BitVec.ofNat 64 (countBits 64 a.toNat)
def flagWord (b : Bool) : Word := if b then 1 else 0

/-- xd receives a function of xa and xb, and the context goes on (12 R175, R177). -/
def aluOp (f : Word → Word → Word) (d a b : Nat) (s : State) : Result := .next (s.put d (f (s.x a) (s.x b)))

/-- ADD (12 R177). -/
def execAdd (d a b : Nat) (s : State) : Result := aluOp (fun a b => a + b) d a b s
/-- SUB (12 R177). -/
def execSub (d a b : Nat) (s : State) : Result := aluOp (fun a b => a - b) d a b s
/-- MUL (12 R177). -/
def execMul (d a b : Nat) (s : State) : Result := aluOp (fun a b => a * b) d a b s
/-- MULH (12 R177). -/
def execMulh (d a b : Nat) (s : State) : Result := aluOp (fun a b => aluMulh a b) d a b s
/-- MULHU (12 R177). -/
def execMulhu (d a b : Nat) (s : State) : Result := aluOp (fun a b => aluMulhu a b) d a b s
/-- DIV (12 R177). -/
def execDiv (d a b : Nat) (s : State) : Result := aluOp (fun a b => aluDiv a b) d a b s
/-- DIVU (12 R177). -/
def execDivu (d a b : Nat) (s : State) : Result := aluOp (fun a b => aluDivu a b) d a b s
/-- REM (12 R177). -/
def execRem (d a b : Nat) (s : State) : Result := aluOp (fun a b => aluRem a b) d a b s
/-- REMU (12 R177). -/
def execRemu (d a b : Nat) (s : State) : Result := aluOp (fun a b => aluRemu a b) d a b s
/-- AND (12 R177). -/
def execAnd (d a b : Nat) (s : State) : Result := aluOp (fun a b => a &&& b) d a b s
/-- OR (12 R177). -/
def execOr (d a b : Nat) (s : State) : Result := aluOp (fun a b => a ||| b) d a b s
/-- XOR (12 R177). -/
def execXor (d a b : Nat) (s : State) : Result := aluOp (fun a b => a ^^^ b) d a b s
/-- SHL (12 R177). -/
def execShl (d a b : Nat) (s : State) : Result := aluOp (fun a b => a <<< shiftCount b) d a b s
/-- SHR (12 R177). -/
def execShr (d a b : Nat) (s : State) : Result := aluOp (fun a b => a >>> shiftCount b) d a b s
/-- SRA (12 R177). -/
def execSra (d a b : Nat) (s : State) : Result := aluOp (fun a b => BitVec.sshiftRight a (shiftCount b)) d a b s
/-- MIN (12 R177). -/
def execMin (d a b : Nat) (s : State) : Result := aluOp (fun a b => if BitVec.slt a b then a else b) d a b s
/-- MAX (12 R177). -/
def execMax (d a b : Nat) (s : State) : Result := aluOp (fun a b => if BitVec.slt a b then b else a) d a b s
/-- MINU (12 R177). -/
def execMinu (d a b : Nat) (s : State) : Result := aluOp (fun a b => if BitVec.ult a b then a else b) d a b s
/-- MAXU (12 R177). -/
def execMaxu (d a b : Nat) (s : State) : Result := aluOp (fun a b => if BitVec.ult a b then b else a) d a b s
/-- SLT (12 R177). -/
def execSlt (d a b : Nat) (s : State) : Result := aluOp (fun a b => flagWord (BitVec.slt a b)) d a b s
/-- SLTU (12 R177). -/
def execSltu (d a b : Nat) (s : State) : Result := aluOp (fun a b => flagWord (BitVec.ult a b)) d a b s
/-- CLZ (12 R177). -/
def execClz (d a : Nat) (s : State) : Result := .next (s.put d (aluClz (s.x a)))
/-- POPC (12 R177). -/
def execPopc (d a : Nat) (s : State) : Result := .next (s.put d (aluPopc (s.x a)))

/-! Immediate forms (12 R178): i = sext(imm14, 14). -/

/-- ADDI (12 R178). -/
def execAddi (d a : Nat) (i : BitVec 14) (s : State) : Result := .next (s.put d (s.x a + i.signExtend 64))
/-- ANDI (12 R178). -/
def execAndi (d a : Nat) (i : BitVec 14) (s : State) : Result := .next (s.put d (s.x a &&& i.signExtend 64))
/-- ORI (12 R178). -/
def execOri (d a : Nat) (i : BitVec 14) (s : State) : Result := .next (s.put d (s.x a ||| i.signExtend 64))
/-- XORI (12 R178). -/
def execXori (d a : Nat) (i : BitVec 14) (s : State) : Result := .next (s.put d (s.x a ^^^ i.signExtend 64))
/-- SLTI (12 R178). -/
def execSlti (d a : Nat) (i : BitVec 14) (s : State) : Result := .next (s.put d (flagWord (BitVec.slt (s.x a) (i.signExtend 64))))
/-- SHLI (12 R178). -/
def execShli (d a n : Nat) (s : State) : Result := .next (s.put d (s.x a <<< n))
/-- SHRI (12 R178). -/
def execShri (d a n : Nat) (s : State) : Result := .next (s.put d (s.x a >>> n))
/-- SRAI (12 R178). -/
def execSrai (d a n : Nat) (s : State) : Result := .next (s.put d (BitVec.sshiftRight (s.x a) n))

/-! Long immediates and jumps (12 R179). -/

/-- sext(imm20, 20) x 2^14. -/
def upper (i : BitVec 20) : Word := i.signExtend 64 <<< 14
/-- LUI (12 R179). -/
def execLui (d : Nat) (i : BitVec 20) (s : State) : Result := .next (s.put d (upper i))
/-- ADPC (12 R179). -/
def execAdpc (d : Nat) (i : BitVec 20) (s : State) : Result := .next (s.put d (s.me.pc + upper i))
/-- xd receives pc + 4 and the context goes on at t. -/
def State.jump (s : State) (d : Nat) (t : Word) : State := (s.modMe (fun m => m.setX d (m.pc + 4))).goto t
/-- JAL (12 R179). -/
def execJal (d : Nat) (i : BitVec 20) (s : State) : Result := .next (s.jump d (s.me.pc + i.signExtend 64 <<< 2))
/-- JALR (12 R179): xa is read before xd is written. -/
def execJalr (d a : Nat) (i : BitVec 14) (s : State) : Result := .next (s.jump d ((s.x a + i.signExtend 64) &&& ~~~3))

/-! Branches (12 R180). -/

/-- To pc + 4 x sext(imm14, 14) if the condition holds, else to pc + 4. -/
def branch (cond : Word → Word → Bool) (a b : Nat) (i : BitVec 14) (s : State) : Result :=
  .next (if cond (s.x a) (s.x b) then s.goto (s.me.pc + i.signExtend 64 <<< 2) else s.pass)

/-- BEQ (12 R180). -/
def execBeq (a b : Nat) (i : BitVec 14) (s : State) : Result := branch (fun a b => a == b) a b i s
/-- BNE (12 R180). -/
def execBne (a b : Nat) (i : BitVec 14) (s : State) : Result := branch (fun a b => a != b) a b i s
/-- BLT (12 R180). -/
def execBlt (a b : Nat) (i : BitVec 14) (s : State) : Result := branch (fun a b => BitVec.slt a b) a b i s
/-- BGE (12 R180). -/
def execBge (a b : Nat) (i : BitVec 14) (s : State) : Result := branch (fun a b => !BitVec.slt a b) a b i s
/-- BLTU (12 R180). -/
def execBltu (a b : Nat) (i : BitVec 14) (s : State) : Result := branch (fun a b => BitVec.ult a b) a b i s
/-- BGEU (12 R180). -/
def execBgeu (a b : Nat) (i : BitVec 14) (s : State) : Result := branch (fun a b => !BitVec.ult a b) a b i s

/-! UTFCUT (12 R201) over the rows of well-formed UTF-8 (09 R146). -/

/-- Row length for a lead byte, 0 if it starts no row (09 R146). -/
def utfLen (b : Nat) : Nat :=
  if b ≤ 0x7F then 1 else if 0xC2 ≤ b ∧ b ≤ 0xDF then 2 else if 0xE0 ≤ b ∧ b ≤ 0xEF then 3 else if 0xF0 ≤ b ∧ b ≤ 0xF4 then 4 else 0

/-- The byte may stand at position k ≥ 1 behind the lead byte (09 R146). -/
def utfCont (lead k b : Nat) : Bool :=
  let lo := if k = 1 then (if lead = 0xE0 then 0xA0 else if lead = 0xF0 then 0x90 else 0x80) else 0x80
  let hi := if k = 1 then (if lead = 0xED then 0x9F else if lead = 0xF4 then 0x8F else 0xBF) else 0xBF
  decide (lo ≤ b) && decide (b ≤ hi)

/-- How far the row of a lead byte matches the bytes behind it: k, from k on, at most to its length and to the end. -/
def utfRun (lead len : Nat) : Nat → Nat → List Nat → Nat
  | 0, k, _ => k
  | n + 1, k, b :: t => if k < len && utfCont lead k b then utfRun lead len n (k + 1) t else k
  | _, k, [] => k

/-- The loop of 12 R201: bytes left, index i, STARTS and BAD so far. -/
def utfLoop : Nat → List Nat → Nat → Nat → Nat → Nat × Nat × Nat
  | 0, _, i, st, bad => (i, st, bad)
  | _, [], i, st, bad => (i, st, bad)
  | n + 1, b :: t, i, st, bad =>
    let len := utfLen b
    if len = 0 then utfLoop n t (i + 1) (st + 2 ^ i) (bad + 2 ^ i)
    else
      let k := utfRun b len 3 1 t
      if k = len then utfLoop n ((b :: t).drop k) (i + len) (st + 2 ^ i) bad
      else if k = (b :: t).length then (i, st, bad)
      else utfLoop n ((b :: t).drop k) (i + k) (st + 2 ^ i) (bad + 2 ^ i)

/-- The value of UTFCUT (12 R201). -/
def utfcut (a : Word) : Word :=
  let n := a.toNat / 2 ^ 56
  if 7 < n then -1
  else
    let (i, st, bad) := utfLoop 8 ((List.range n).map (fun j => a.toNat / 2 ^ (8 * j) % 256)) 0 0 0
    BitVec.ofNat 64 (bad * 65536 + st * 256 + i)

/-- UTFCUT (12 R201). -/
def execUtfcut (d a : Nat) (s : State) : Result := .next (s.put d (utfcut (s.x a)))

end Sys2Proof.Machine
end

