-- ==== Sys2Proof/Machine/ScalarMem.lean ====
section
/-! DEFINITION. Family: scalar loads, stores, atomics, deques, LNTW and the fences (spec 12 R181-R189, R195-R197, 16 R282-R284, 27 R359, R364-R365). An access issues here; ACCESS_PERFORM performs it at its home. -/

namespace Sys2Proof.Machine

/-- An illegal-instruction fault of the acting context (24 R325). -/
def State.illegal (s : State) : State := s.trap (faultOf 0x01 0 0)

/-- ea = xa + sext(imm10, 10) x size (12 R181). -/
def scAddr (s : State) (a : Nat) (i : BitVec 10) (size : Nat) : Nat := (s.x a + i.signExtend 64 * BitVec.ofNat 64 size).toNat

/-- log2 of an access size (24 R325). -/
def sizeLog (n : Nat) : Nat := Nat.log2 n

/-- The core's launch owns slot-wheel positions (05 R89, 27 R365). -/
def ownsWheel (s : State) (c : Nat) : Bool := match s.run c with | some r => r.wheelN != 0 | none => false

/-- An older access of the class to another home is outstanding (16 R282). -/
def gateShut (s : State) (c k cls home : Nat) : Bool := (ownAccesses s c k).any (fun a => a.cls == cls && a.loc.home != home)

/-- Whether the reply holds every later instruction of the context (12 R176, R189, R196). -/
def AccOp.holdsIssue (op : AccOp) (xd : Nat) : Bool :=
  match op with
  | .load _ => xd == 0
  | .atomic _ _ _ ret => ret && xd == 0
  | .store _ => false
  | _ => true

/-- The access joins the outstanding ones; its register or the whole context waits for the reply. -/
def sendAccess (s : State) (va size cls xd : Nat) (loc : Loc) (op : AccOp) : State :=
  let hold := op.holdsIssue xd
  let waits := !op.isStore && !hold
  let r := s.run s.c
  let acc : Access := ⟨s.seq, s.c, s.k, cls, s.me.pc, va, loc, op, size, xd, hold, s.tctx s.c, s.wheelCount, s.now, false⟩
  let s := { s with accesses := s.accesses ++ [acc], seq := s.seq + 1 }
  let s := if cls = 15 ∧ r.isSome then s.modRun s.c (fun r => { r with stampUsed := some s.wheelCount }) else s
  (s.modMe (fun t => { t with
    busy := if waits || (hold && xd != 0) then insertNat t.busy xd else t.busy
    holds := if hold then t.holds + 1 else t.holds })).pass

/-- An SC access after its encoding, address and alignment checks: translation, gate, wheel, issue (27 R359 step 4, 16 R282, R284). -/
def routeAccess (s : State) (va size cls xd : Nat) (op : AccOp) : State :=
  match lookup s (dieOf s.c) (s.tctx s.c) va op.writes with
  | .fault f => s.trap f
  | .miss => (startWalk s (dieOf s.c) (s.tctx s.c) va op.writes (.sc s.c s.k)).block (.walk (va / 2 ^ 16))
  | .loc l =>
    if gateShut s s.c s.k cls l.home then s.block (.gate cls l.home)
    else if cls = 15 ∧ wheelTurn s s.c = false then s.block .wheel
    else sendAccess s va size cls xd l op

/-- An SC load, store or atomic, its checks in the order of 27 R359. -/
def scAccess (s : State) (va size cls xd : Nat) (op : AccOp) : Result :=
  .next (if cls = 15 ∧ ownsWheel s s.c = false then s.illegal
    else if 2 ^ 57 ≤ va then s.trap (faultOf 0x0A 0 va)
    else if va % size ≠ 0 then s.trap (faultOf 0x06 (sizeLog size) va)
    else routeAccess s va size cls xd op)

/-! Loads and stores (12 R181). -/

/-- LDB (12 R181). -/
def execLdb (d a c : Nat) (i : BitVec 10) (s : State) : Result := scAccess s (scAddr s a i 1) 1 c d (.load true)
/-- LDBU (12 R181). -/
def execLdbu (d a c : Nat) (i : BitVec 10) (s : State) : Result := scAccess s (scAddr s a i 1) 1 c d (.load false)
/-- LDH (12 R181). -/
def execLdh (d a c : Nat) (i : BitVec 10) (s : State) : Result := scAccess s (scAddr s a i 2) 2 c d (.load true)
/-- LDHU (12 R181). -/
def execLdhu (d a c : Nat) (i : BitVec 10) (s : State) : Result := scAccess s (scAddr s a i 2) 2 c d (.load false)
/-- LDW (12 R181). -/
def execLdw (d a c : Nat) (i : BitVec 10) (s : State) : Result := scAccess s (scAddr s a i 4) 4 c d (.load true)
/-- LDWU (12 R181). -/
def execLdwu (d a c : Nat) (i : BitVec 10) (s : State) : Result := scAccess s (scAddr s a i 4) 4 c d (.load false)
/-- LDD (12 R181). -/
def execLdd (d a c : Nat) (i : BitVec 10) (s : State) : Result := scAccess s (scAddr s a i 8) 8 c d (.load false)
/-- STB (12 R181). -/
def execStb (d a c : Nat) (i : BitVec 10) (s : State) : Result := scAccess s (scAddr s a i 1) 1 c d (.store (s.x d))
/-- STH (12 R181). -/
def execSth (d a c : Nat) (i : BitVec 10) (s : State) : Result := scAccess s (scAddr s a i 2) 2 c d (.store (s.x d))
/-- STW (12 R181). -/
def execStw (d a c : Nat) (i : BitVec 10) (s : State) : Result := scAccess s (scAddr s a i 4) 4 c d (.store (s.x d))
/-- STD (12 R181). -/
def execStd (d a c : Nat) (i : BitVec 10) (s : State) : Result := scAccess s (scAddr s a i 8) 8 c d (.store (s.x d))

/-! Atomics (12 R183, R184). -/

/-- An atomic of a width: the operand v = xb, the expected value e = xd. -/
def scAtomic (op : AtomicOp) (d a b c : Nat) (nr : Bool) (size : Nat) (s : State) : Result :=
  scAccess s (s.x a).toNat size c d (.atomic op (s.x b) (s.x d) (!nr))
/-- Bytes of W. -/
def atomicSize (w : Bool) : Nat := if w then 8 else 4

/-- AADD (12 R183). -/
def execAadd (d a b c : Nat) (nr w : Bool) (s : State) : Result := scAtomic .add d a b c nr (atomicSize w) s
/-- AAND (12 R183). -/
def execAand (d a b c : Nat) (nr w : Bool) (s : State) : Result := scAtomic .and d a b c nr (atomicSize w) s
/-- AOR (12 R183). -/
def execAor (d a b c : Nat) (nr w : Bool) (s : State) : Result := scAtomic .or d a b c nr (atomicSize w) s
/-- AXOR (12 R183). -/
def execAxor (d a b c : Nat) (nr w : Bool) (s : State) : Result := scAtomic .xor d a b c nr (atomicSize w) s
/-- ASWP (12 R183). -/
def execAswp (d a b c : Nat) (nr w : Bool) (s : State) : Result := scAtomic .swp d a b c nr (atomicSize w) s
/-- AMAX (12 R183). -/
def execAmax (d a b c : Nat) (nr w : Bool) (s : State) : Result := scAtomic .max d a b c nr (atomicSize w) s
/-- AMIN (12 R183). -/
def execAmin (d a b c : Nat) (nr w : Bool) (s : State) : Result := scAtomic .min d a b c nr (atomicSize w) s
/-- AMAXU (12 R183). -/
def execAmaxu (d a b c : Nat) (nr w : Bool) (s : State) : Result := scAtomic .maxu d a b c nr (atomicSize w) s
/-- AMINU (12 R183). -/
def execAminu (d a b c : Nat) (nr w : Bool) (s : State) : Result := scAtomic .minu d a b c nr (atomicSize w) s
/-- ACAS (12 R183). -/
def execAcas (d a b c : Nat) (nr w : Bool) (s : State) : Result := scAtomic .cas d a b c nr (atomicSize w) s
/-- FAMAX (12 R183). -/
def execFamax (d a b c : Nat) (nr : Bool) (s : State) : Result := scAtomic .fmax d a b c nr 4 s
/-- FAMIN (12 R183). -/
def execFamin (d a b c : Nat) (nr : Bool) (s : State) : Result := scAtomic .fmin d a b c nr 4 s
/-- FAADD (12 R183). -/
def execFaadd (d a b c : Nat) (nr : Bool) (s : State) : Result := scAtomic .fadd d a b c nr 4 s

/-! Deques (12 R195-R196). -/

/-- The BAD status (12 R196). -/
def dequeBad : Word := 0x8000000000000004

/-- A deque operation. A descriptor outside hall space or misaligned gives BAD with no access; the rest is checked at the home. -/
def scDeque (op : AccOp) (d a c : Nat) (s : State) : Result :=
  let va := (s.x a).toNat
  .next (if c = 15 ∧ ownsWheel s s.c = false then s.illegal
    else if 2 ^ 57 ≤ va then s.trap (faultOf 0x0A 0 va)
    else if 2 ^ 31 ≤ va ∨ va % 32 ≠ 0 then s.put d dequeBad
    else routeAccess s va 32 c d op)

/-- DQPUSH (12 R196). -/
def execDqpush (d a b c : Nat) (s : State) : Result := scDeque (.dqpush (s.x b)) d a c s
/-- DQTAKE (12 R196). -/
def execDqtake (d a c : Nat) (s : State) : Result := scDeque .dqtake d a c s
/-- DQSTEAL (12 R196). -/
def execDqsteal (d a c : Nat) (s : State) : Result := scDeque .dqsteal d a c s

/-! LNTW (12 R189, 16 R291, 27 R364). -/

/-- LNTW: waits for earlier LNGOs of the table, then reads 64 bytes as a class-0 load that the context waits for. -/
def execLntw (a n : Nat) (s : State) : Result :=
  let va := (s.x a).toNat
  .next (if 2 ^ 57 ≤ va then s.trap (faultOf 0x0A 0 va)
    else if va % 64 ≠ 0 then s.trap (faultOf 0x06 6 va)
    else if 2 ^ 31 ≤ va then s.trap (faultOf 0x08 2 va)
    else if s.me.lngos.any (fun p => p.1 == n) then s.block (.lntw n)
    else routeAccess s va 64 0 0 (.lntw n))

/-! Fences (12 R185-R187). -/

/-- The status word of failures (12 R186). -/
def fenceStatus (l : List FailRec) : Word :=
  let cls := l.foldl (fun m f => m ||| 2 ^ f.cls) 0
  let link := l.any (fun f => f.link)
  let ref := l.any (fun f => !f.link)
  BitVec.ofNat 64 (cls * 65536 + min 255 l.length * 256 + 4 * ref.toNat + 2 * link.toNat + (!l.isEmpty).toNat)

/-- FENCE (12 R185): waits for what it covers, reports the covered failures and clears them. -/
def execFence (d : Nat) (sc : Scope) (mask : BitVec 16) (s : State) : Result :=
  let w : Wait := .fence sc mask
  if waitOver s s.c s.k w then
    let covered (f : FailRec) : Bool := fenceCovers sc mask s.c f.cls f.home
    .next ((s.modMe (fun t => { t with fails := t.fails.filter (fun f => !covered f) })).put d (fenceStatus (s.me.fails.filter covered)))
  else .next (s.block w)

/-- PFENCE's status word (12 R187): how many covered owners could not be reached. -/
def pfenceStatus (n : Nat) : Word := if n = 0 then 0 else BitVec.ofNat 64 (min 255 n * 256 + 3)

/-- A cut is asked for at a core: nothing issues there until its commands have finished (07 R114 step 1). -/
def askCut (s : State) (c : Nat) : State := s.modCore c (fun k => { k with cutting := true })

/-- PFENCE (07 R119, 12 R187): waits for the context's stores, asks for a cut at the cores it covers, and commits them once every cut can be taken; the issuing core commits with the instruction done. -/
def execPfence (d : Nat) (sc : Scope) (s : State) : Result :=
  if storesDone s s.c s.k s.seq then
    let all := coveredCores s s.c s.k sc
    let go := all.filter (fun o => !unreachable s s.c s.k o)
    if go.any (fun o => cutHeld s o) then .next ((go.foldl askCut s).block .commits)
    else
      let s2 := (s.modMe (fun t => { t with written := t.written.filter (fun p => !go.contains p.1 && !(p.2 == lostGen && all.contains p.1)) })).put d (pfenceStatus (all.length - go.length))
      .next (go.foldl (fun s o => commitCore s o 1) s2)
  else .next (s.block .stores)

end Sys2Proof.Machine
end

