-- ==== Sys2Proof/Machine/ScalarSys.lean ====
section
/-! DEFINITION. Family: the system group of the SC (spec 12 R188-R194, R198-R205, 03 R38-R44, 16 R291), and the steps that end what those words began: LNGO_TAKE_EFFECT, TRIGGER_MARK, BARRIER_ARRIVAL, LOAD_REPLY, REGISTER_WRITE of a CSR. -/

namespace Sys2Proof.Machine

/-! CSRs (12 R205). -/

/-- CSRR: at once when no operation of the context waits before it, else in order behind those. -/
def execCsrr (d n : Nat) (s : State) : Result :=
  if s.me.ops.isEmpty then
    let v := readCsr s s.c s.k n
    .next ((csrReadEffect s s.c s.k n).put d v)
  else .next (s.queueOp (.csrr n d) (some d))

/-- CSRW: performed in order, once the context's earlier stores are; the context does not wait. -/
def execCsrw (a n : Nat) (s : State) : Result := .next (s.queueOp (.csrw n (s.x a)) none)

/-- The part of REGISTER_WRITE that performs a CSRW with no step of its own. -/
def csrwPlain (s : State) (c k : Nat) : State := csrwStep (fun n v => !ownStep s c n v) (fun n v s => writeCsr s c k n v) c k s

/-! Patch unit (12 R192, 03 R38-R46). -/

/-- A patch register a slot number above 63 does not name (27 R364). -/
def slotOk (w : Word) : Bool := decide (w.toNat < 64)

/-- PRD (12 R192). -/
def execPrd (d a : Nat) (p : PatchReg) (s : State) : Result :=
  if slotOk (s.x a) then .next (s.put d ((s.slot s.c (s.x a).toNat).read p)) else .next s.illegal

/-- PWR (12 R192, 03 R39). -/
def execPwr (d a b : Nat) (p : PatchReg) (s : State) : Result :=
  if slotOk (s.x a) then
    let l := (s.x a).toNat
    let (q, st) := (s.slot s.c l).write p (s.x b)
    .next ((s.modSlot s.c l (fun _ => q)).put d st)
  else .next s.illegal

/-- PCLOSE closes a patch, which writes an entry and queues a trap (03 R44). -/
def pcloseCloses (q : PatchSlot) : Bool := (q.state == 1 || q.state == 2) && q.pl != 0

/-- The slot after PCLOSE (03 R44). -/
def pcloseSlot (q : PatchSlot) : PatchSlot :=
  if pcloseCloses q then { q with pp := q.pp + 1, ps := q.pb, pl := 0, lcause := 2, endc := 1, state := 3 } else { q with endc := 1, state := 3 }

/-- PCLOSE (03 R44, R46): waits while the boundary-trap queue is full and it would close a patch. -/
def execPclose (d a : Nat) (s : State) : Result :=
  if slotOk (s.x a) then
    let l := (s.x a).toNat
    let q := s.slot s.c l
    if q.state = 0 ∨ q.state = 3 then .next (s.put d 1)
    else if pcloseCloses q then
      match mapRefuse s s.c (s.arch s.c).csrs.pmcnt.toNat with
      | some f => .next (s.trap f)
      | none =>
        if 256 ≤ (s.arch s.c).btraps.length then .next (s.block .pclose)
        else .next (((closePatch s s.c l 2).modSlot s.c l pcloseSlot).put d 0)
    else .next ((s.modSlot s.c l pcloseSlot).put d 0)
  else .next s.illegal

/-- PREL (03 R44). -/
def execPrel (d a : Nat) (s : State) : Result :=
  if slotOk (s.x a) then
    let l := (s.x a).toNat
    if (s.slot s.c l).state = 2 then .next ((s.modSlot s.c l (fun q => { q with state := 1 })).put d 0) else .next (s.put d 1)
  else .next s.illegal

/-! Engine control (12 R188-R191, 16 R291). -/

/-- The number of an FMTQ's issue: the one that it waits with, or the next (04 R72). -/
def fmtqNumber (s : State) : Nat := match s.me.wait with | .fmtq n => n | _ => s.seq

/-- FMTQ: words enter the format queue in the order of their issues (12 R188, 04 R72). -/
def execFmtq (a : Nat) (s : State) : Result :=
  let n := fmtqNumber s
  if fqOpen s s.c n then .next (s.modSeqs s.c (fun q => { q with fq := q.fq ++ [s.x a] })).pass
  else .next { s.block (.fmtq n) with seq := max s.seq (n + 1) }

/-- LNGO never waits: it takes effect once the context's earlier stores are performed (16 R291). -/
def execLngo (n : Nat) (s : State) : Result :=
  .next { (s.modMe (fun t => { t with lngos := t.lngos ++ [(n, s.seq)] })).pass with seq := s.seq + 1 }

/-- The exchange of LNGO (04 R73). -/
def Lnt.exchange (l : Lnt) : Lnt := { shadow := l.live, live := l.shadow, go := true }

/-- The oldest LNGO of a context, if its stores are performed. -/
def lngoReady (s : State) (c k : Nat) : Option Nat :=
  match (s.ctx c k).lngos with
  | (n, q) :: _ => if storesDone s c k q then some n else none
  | [] => none

/-- LNGO_TAKE_EFFECT: the first context with an LNGO that may act (16 R291). -/
def execLngoTakeEffect (c : Nat) (s : State) : Result :=
  match [0, 1, 2, 3].find? (fun k => (lngoReady s c k).isSome) with
  | none => .next s
  | some k =>
    let n := (lngoReady s c k).getD 0
    .next ((s.modCtx c k (fun t => { t with lngos := t.lngos.tail })).modSeqs c (fun q => { q with lnts := sset q.lnts n (sget {} q.lnts n).exchange }))

/-- WAITE (12 R190). -/
def execWaite (d a : Nat) (e : Eng) (s : State) : Result :=
  let cn := BitVec.ofNat 64 (cnOf s s.c e)
  if (s.x a).toNat ≤ cnOf s s.c e then .next (s.put d cn)
  else if engRunning s s.c e then .next (s.block (.waite e (s.x a)))
  else .next (s.put d (cn ||| 0x8000000000000000))

/-- The engine waits on a token queue, or on a ring (12 R191). -/
def tokWaits (s : State) (c : Nat) (e : Eng) : Bool :=
  !(pushesOf s c e).isEmpty || (match e with
    | .cp => (match (s.cp c).wait with | .token _ => true | .push _ => true | _ => false)
    | e => (match (s.eng c e).wait with | .token _ => true | .push _ => true | _ => false)
        || (match (s.eng c e).queue with | k :: _ => (tokenLack s c e (tokOf k.op)).isSome | [] => false))
def ringWaits (s : State) (c : Nat) (e : Eng) : Bool :=
  match e with
  | .cp => (s.cp c).wait == .ring || (match (s.cp c).mq with
      | h :: _ => (match h.op with
        | .mma _ _ ra rb => ((s.ring c ra).claim (mqClaims (s.cp c) ra)).isNone || ((s.ring c rb).claim (mqClaims (s.cp c) rb)).isNone
        | _ => false)
      | [] => false)
  | e => ringHeld s c e

/-- STATE of ENGST: 3 once a fault is held unreported. -/
def engState (s : State) (c : Nat) (e : Eng) : Nat :=
  let code (st : EngStatus) : Nat := match st with | .idle => 0 | .running => 1 | .ended => 2
  let held : Bool := match e with | .cp => (s.cp c).fault.isSome | e => (s.eng c e).halted
  if (s.core c).dbg.pend && held then 3 else code (engStatus s c e)

/-- ENGST's word (12 R191). -/
def engstWord (s : State) (c : Nat) (e : Eng) : Word :=
  let (q, f) : Nat × Nat := match e with
    | .cp => ((s.cp c).mq.length, (s.cp c).mflight.length)
    | e => ((s.eng c e).queue.length, (s.eng c e).flight.length)
  BitVec.ofNat 64 (cnOf s c e % 2 ^ 32 * 2 ^ 32 + q % 256 * 2 ^ 24 + f % 256 * 65536 + 8 * (tokWaits s c e).toNat + 4 * (ringWaits s c e).toNat + engState s c e)

/-- ENGST (12 R191). -/
def execEngst (d : Nat) (e : Eng) (s : State) : Result := .next (s.put d (engstWord s s.c e))

/-! Scheduling words (12 R193, R194; 05 R85). -/

/-- No earlier store of the context is outstanding, and no operation of it waits. -/
def actsAtOnce (s : State) (c k : Nat) : Bool := (s.ctx c k).ops.isEmpty && storesDone s c k s.seq

/-- An operation that acts at once when no earlier store is outstanding and nothing waits before it, else in its order. -/
def orderedOp (kind : CtxOpKind) (d : Nat) (now : State → State × Word) (s : State) : Result :=
  if actsAtOnce s s.c s.k then
    let (s1, v) := now s
    .next (s1.put d v)
  else .next (s.queueOp kind (some d))

/-- LAUNCH (12 R193). -/
def execLaunch (d a : Nat) (s : State) : Result := orderedOp (.launch d (s.x a)) d (fun t => launchNow t t.c (s.x a)) s
/-- ROUTE (10 R150). -/
def execRoute (d a : Nat) (s : State) : Result := orderedOp (.route d (s.x a)) d (fun t => routeNow t t.c (s.x a)) s
/-- LAYERB (10 R157). -/
def execLayerb (d : Nat) (s : State) : Result :=
  let (s1, v) := layerbNow s (dieOf s.c)
  .next (s1.put d v)

/-- TRIG: the marking follows the stores of every context of the core (12 R194). -/
def execTrig (s : State) : Result :=
  .next { (s.modRun s.c (fun r => if r.trigSent then r else { r with trigPending := r.trigPending ++ [(s.k, s.seq)] })).pass with seq := s.seq + 1 }

/-- TRIGGER_MARK: the oldest TRIG of the core whose earlier stores are performed marks it (05 R85). -/
def execTriggerMark (c : Nat) (s : State) : Result :=
  match s.run c with
  | none => .next s
  | some r => match r.trigPending with
    | [] => .next s
    | (_, q) :: _ =>
      if [0, 1, 2, 3].all (fun k => storesDone s c k q) then
        let s := s.modRun c (fun r => { r with trigPending := [], trigSent := true })
        .next (s.modLaunch r.launch (fun l => { l with triggered := insertNat l.triggered c }))
      else .next s

/-- WAITP (05 R85). -/
def execWaitp (s : State) : Result := if producersTriggered s s.c then .next s.pass else .next (s.block .waitp)

/-- EXIT ends context 0's part of the point; in a handler it is illegal (12 R194). -/
def execExit (s : State) : Result :=
  if s.k = 0 then .next (s.modMe (fun t => { t with status := .exited, pc := t.pc + 4, wait := .none })) else .next s.illegal

/-- YIELD: the context gives up its next turn to the next runnable context (12 R194, 04 R68). -/
def execYield (s : State) : Result := .next ((s.modArch s.c (fun a => { a with yielded := insertNat a.yielded s.k })).pass)

/-! Barriers (12 R198, R199). -/

/-- BARA: records PHASE, and sends its arrivals once every earlier access is performed. -/
def execBara (a bar : Nat) (s : State) : Result :=
  let targets := ((List.range 8).filter (fun i => (s.x a).getLsbD i)).map (fun i => clusterOf s.c * 8 + i)
  .next { (s.modMe (fun t => { t with
      phases := sset t.phases bar (s.bar s.c bar).phase
      barrivals := t.barrivals ++ targets.map (fun c => (s.seq, c, bar)) })).pass with seq := s.seq + 1 }

/-- An arrival that has reached a barrier of a core: its sender, the barrier, and the BARA of a context that it comes from; of a multicast tile none. -/
structure BarArrival where
  sender : Nat
  bar : Nat
  source : Option (Nat × (Nat × Nat × Nat))
deriving DecidableEq, Repr

/-- The arrivals that may be applied at a core, in ascending sender number for each barrier (06 R108, 12 R198); a gated core sends and takes none (07 R117). -/
def readyArrivals (s : State) (c : Nat) : List BarArrival :=
  (List.range 8).flatMap (fun i =>
    let o := clusterOf c * 8 + i
    [0, 1, 2, 3].flatMap (fun k => ((s.ctx o k).barrivals.filter (fun a => a.2.1 == c && sliceUp s o && sliceUp s c && accessesPast s o k a.1)).map (fun a => ⟨o, a.2.2, some (k, a)⟩))
      ++ (List.range 8).flatMap (fun b => ((s.bar c b).queue.filter (fun x => x == o)).map (fun x => ⟨x, b, none⟩)))

/-- An arrival is taken from where it waits. -/
def takeArrival (s : State) (c : Nat) (a : BarArrival) : State :=
  match a.source with
  | some (k, e) => s.modCtx a.sender k (fun t => { t with barrivals := t.barrivals.erase e })
  | none => s.modBar c a.bar (fun b => { b with queue := b.queue.erase a.sender })

/-- The i-th arrival of a core, if no lower sender's waits at its barrier. -/
def pickArrival (s : State) (c i : Nat) : Option BarArrival :=
  match (readyArrivals s c)[i]? with
  | some a => if ((readyArrivals s c).take i).any (fun b => b.bar == a.bar && decide (b.sender < a.sender)) then none else some a
  | none => none

/-- BARRIER_ARRIVAL: the i-th arrival that may be applied at the core; of those at one barrier, the lowest sender goes first (06 R108). -/
def execBarrierArrival (c i : Nat) (s : State) : Result :=
  match pickArrival s c i with
  | none => .next s
  | some a => .next (arrive (takeArrival s c a) c a.bar)

/-- BARW (12 R199). -/
def execBarw (d bar : Nat) (s : State) : Result :=
  let ph := (s.bar s.c bar).phase
  if ph != sget false s.me.phases bar then .next ((s.modMe (fun t => { t with phases := sset t.phases bar ph })).put d (flagWord ph))
  else
    let zero := (s.bar s.c bar).target == 0
    let before := s.me.wait == .barw bar && s.me.barIdle
    .next ((s.modMe (fun t => { t with barIdle := zero || before })).block (.barw bar))

/-! Traps, handlers, events (12 R202-R204). -/

/-- TRAP: the core stops, and the context goes on behind the word when it resumes (12 R202); in a hook the hook stops (24 R322, 23 R314). The word of an injected sequence has no word behind it to go on at. -/
def execTrap (code : Nat) (s : State) : Result :=
  .next (ctxTrap (if (s.core s.c).dbg.injecting then s else s.pass) s.c s.k (faultOf 0x10 code 0) s.me.pc.toNat)

/-- RTE ends an injected sequence, once the replies of its loads and its queued operations have come, whose faults its record tells of (log 81); anywhere else it is illegal (24 R336). -/
def execRte (s : State) : Result :=
  let d := (s.core s.c).dbg
  if d.injecting then
    if !waitOver s s.c s.k .quiet then .next (s.block .quiet) else
    .next ((s.modMe (fun t => { t with pc := d.savedPc, wait := .none })).modCore s.c (fun k => { k with dbg := { k.dbg with injV := false, injecting := false, stepping := false } }))
  else .next s.illegal

/-- HRET: waits for the context's stores, and, since x5 to x63 stay as they are from here on (03 R48), for what its loads and its queued operations still write; then it ends the handler. In context 0 it is illegal (12 R203, log 81). -/
def execHret (s : State) : Result :=
  if s.k = 0 then .next s.illegal
  else if waitOver s s.c s.k .quiet then .next (endHandler s s.c s.k)
  else .next (s.block .quiet)

/-- WFE (12 R204). -/
def execWfe (s : State) : Result :=
  if s.me.flag then .next (s.modMe (fun t => { t with flag := false })).pass else .next (s.block .wfe)

/-! Replies (12 R176). -/

/-- The PC that a record gives for the access of a reply: the offset of its word, if a sequence that is still injected made it (24 R324). -/
def replyPc (s : State) (r : Reply) : Nat :=
  match r.access with
  | some a => if (s.core r.core).dbg.injFrom ≤ a.seq then recordPc s r.core r.ctx r.pc.toNat else r.pc.toNat
  | none => r.pc.toNat

/-- A reply reaches its context: the register is written, or the fault is taken at the access's instruction. -/
def deliver (s : State) (r : Reply) : State :=
  match r.fault with
  | some f =>
    let s := s.modCtx r.core r.ctx (fun t => { t with reissue := t.reissue ++ r.access.toList })
    ctxTrapAt s r.core r.ctx f (replyPc s r)
  | none => s.modCtx r.core r.ctx (fun t => { t.setX r.xd r.value with busy := t.busy.erase r.xd, holds := if r.hold then t.holds - 1 else t.holds })

/-- The result of the oldest ordered operation of a context. -/
def opResult (s : State) (c k : Nat) : State :=
  let give (s : State) (xd : Nat) (v : Word) : State := (popOp s c k).modCtx c k (fun t => { t.setX xd v with busy := t.busy.erase xd })
  match headOp s c k with
  | none => s
  | some o =>
    match o.kind with
    | .csrw _ _ => s
    | .csrr n xd => give (csrReadEffect s c k n) xd (readCsr s c k n)
    | .launch xd xa => if storesDone s c k o.seq then (let (s, v) := launchNow s c xa; give s xd v) else s
    | .route xd xa => if storesDone s c k o.seq then (let (s, v) := routeNow s c xa; give s xd v) else s

/-- LOAD_REPLY (12 R176). -/
def execLoadReply (r : ReplyPick) (s : State) : Result :=
  match r with
  | .op c k => .next (opResult s c k)
  | .access i => match s.replies[i]? with
    | none => .next s
    | some p => if ((s.core p.core).stop.isSome || (s.core p.core).stopping.isSome) && !(s.core p.core).dbg.stepping then .next s else .next (deliver { s with replies := s.replies.eraseIdx i } p)

end Sys2Proof.Machine
end

