-- ==== Sys2Proof/Machine/EvMemory.lean ====
section
/-! DEFINITION. Family: steps of memory and translation: ACCESS_PERFORM, CLASS15_RELEASE, SLOT_WHEEL_ADVANCE, PAGE_WALK_DONE, XINV_WRITE, INVALIDATION_DONE (spec 06 R98, R101, R103, R104, 12 R183-R189, R196, 16 R282-R284, 25 R339, R340). -/

namespace Sys2Proof.Machine

/-! Deques at their home (12 R195, R196). -/

/-- A deque's descriptor. -/
structure Deque where
  buf : Nat
  log : Nat
  top : Nat
  bot : Nat
deriving DecidableEq, Repr

/-- The descriptor in 32 bytes. -/
def dequeOf (b : List Byte) : Deque := ⟨fieldAt b 0 8, fieldAt b 8 4, fieldAt b 16 8, fieldAt b 24 8⟩
/-- BOT - TOP, and the capacity. -/
def Deque.size (d : Deque) : Nat := wrapInt 64 ((d.bot : Int) - d.top)
def Deque.cap (d : Deque) : Nat := 2 ^ d.log
/-- Slice offset of entry i. -/
def Deque.entry (d : Deque) (c i : Nat) : Nat := d.buf + 8 * (i % d.cap) - hallAddr c 0
/-- The descriptor breaks R196. -/
def Deque.bad (d : Deque) (c : Nat) : Bool :=
  decide (d.log < 1) || decide (16 < d.log) || d.buf % 8 != 0 || decide (d.buf < hallAddr c 0) || decide (hallAddr (c + 1) 0 < d.buf + 8 * d.cap)
    || decide (d.cap < d.size)

/-- Result words of R196. -/
def dequeEmpty : Word := 0x8000000000000001
def dequeFull : Word := 0x8000000000000002
def dequeRefused : Word := 0x8000000000000003

/-- The operation changes the deque: it is no BAD, FULL, refused or EMPTY (12 R196). -/
def dequeActs (d : Deque) (c : Nat) (op : AccOp) : Bool :=
  !d.bad c && (match op with
    | .dqpush v => !v.getLsbD 63 && d.size != d.cap
    | _ => d.size != 0)

/-- One deque operation on the descriptor at an offset of core c's slice: the state after and the result, or a fault. -/
def dequeAt (s : State) (tctx c off va : Nat) (op : AccOp) : State × Except FaultInfo Word :=
  let d := dequeOf (s.spadRead c off 32)
  let refuse (i : Nat) : Option FaultInfo :=
    match hallRefuse s tctx c (d.entry c i) 8 with
    | some n => some (faultOf 0x08 n (hallAddr c (d.entry c i)))
    | none => if s.spadPoison c (d.entry c i) 8 then some (faultOf 0x08 8 (hallAddr c (d.entry c i))) else none
  let last := wrapInt 64 ((d.bot : Int) - 1)
  let value (i : Nat) : Word := BitVec.ofNat 64 (bytesNat (s.spadRead c (d.entry c i) 8))
  if s.spadPoison c off 32 then (s, .error (faultOf 0x08 8 va))
  else if d.bad c then (s, .ok dequeBad)
  else match op with
    | .dqpush v =>
      if v.getLsbD 63 then (s, .ok dequeRefused)
      else if d.size = d.cap then (s, .ok dequeFull)
      else (match hallRefuse s tctx c (d.entry c d.bot) 8 with
        | some n => (s, .error (faultOf 0x08 n (hallAddr c (d.entry c d.bot))))
        | none => ((s.spadWrite c (d.entry c d.bot) (natBytes 8 v.toNat)).spadWrite c (off + 24) (natBytes 8 (d.bot + 1)), .ok 0))
    | .dqtake =>
      if d.size = 0 then (s, .ok dequeEmpty)
      else (match refuse last with
        | some f => (s, .error f)
        | none => (s.spadWrite c (off + 24) (natBytes 8 last), .ok (value last)))
    | .dqsteal =>
      if d.size = 0 then (s, .ok dequeEmpty)
      else (match refuse d.top with
        | some f => (s, .error f)
        | none => (s.spadWrite c (off + 16) (natBytes 8 (d.top + 1)), .ok (value d.top)))
    | _ => (s, .ok 0)

/-- Walks that run at once (06 R103), and the entries of a unit. -/
def walkPlaces : Nat := 64
def tlbSize : Nat := 16384

/-! An SC access at its home. -/

/-- The access leaves the outstanding ones. -/
def retireAccess (s : State) (a : Access) : State := { s with accesses := s.accesses.filter (fun x => x.seq != a.seq) }

/-- A reply is on its way to the context. -/
def reply (s : State) (a : Access) (v : Word) (f : Option FaultInfo) : State :=
  { s with replies := s.replies ++ [⟨a.core, a.ctx, a.xd, v, a.hold, a.pc, f, some a⟩] }

/-- A failed store or no-return atomic is recorded (12 R186); any other access gets a fault for its reply (25 R339). -/
def failAccess (s : State) (a : Access) (detail : Nat) : State :=
  let s := retireAccess s a
  if a.op.isStore then (if a.ctx < 4 then s.modCtx a.core a.ctx (fun t => { t with fails := t.fails ++ [⟨a.cls, a.loc.home, detail == 5 || detail == 6⟩] }) else s)
  else reply s a 0 (some (faultOf 0x08 detail a.va))

/-- The home changed by a write of the context is noted for PFENCE (07 R119). -/
def noteWrite (s : State) (a : Access) : State :=
  match a.loc with
  | .slice h _ => if a.ctx < 4 then s.modCtx a.core a.ctx (fun t => { t with written := sset t.written h ((s.core h).cellar.cg + 1) }) else s
  | .hbm _ _ => s

/-- The access is performed: one indivisible step at its home (06 R104, 12 R181, R183, R189, R196). -/
def performAt (s : State) (a : Access) : State :=
  let done := retireAccess s a
  let old := bytesNat (s.locRead a.loc a.size)
  let bits := 8 * a.size
  match homeRefuse s a.tctx a.loc a.size a.va with
  | some f => failAccess s a f.detail
  | none => match a.op with
    | .load sg =>
      if s.locPoison a.loc a.size then failAccess s a 8
      else reply (corrected done a.loc a.size) a (if sg then BitVec.ofInt 64 (sextNat bits old) else BitVec.ofNat 64 old) none
    | .store v => noteWrite (done.locWrite a.loc (natBytes a.size v.toNat)) a
    | .atomic op v e ret =>
      if ret && s.locPoison a.loc a.size then failAccess s a 8
      else
        let new := atomicNew op bits old (v.toNat % 2 ^ bits) (e.toNat % 2 ^ bits)
        let t := noteWrite ((corrected done a.loc a.size).locWrite a.loc (natBytes a.size new)) a
        if ret then reply t a (BitVec.ofNat 64 old) none else t
    | .lntw n =>
      if s.locPoison a.loc a.size then failAccess s a 8
      else
        let t := done.modSeqs a.core (fun q =>
          let l : Lnt := sget {} q.lnts n
          { q with lnts := sset q.lnts n { l with shadow := BitVec.ofNat 512 old } })
        reply t a 0 none
    | op => match a.loc with
      | .slice c off => (match dequeAt done a.tctx c off a.va op with
        | (t, .ok v) => reply (if dequeActs (dequeOf (s.spadRead c off 32)) c op then noteWrite t a else t) a v none
        | (t, .error f) => reply t a 0 (some f))
      | .hbm _ _ => reply done a dequeBad none

/-- The home carries out accesses: a slice whose core is gated does not (07 R117). -/
def homeUp (s : State) (l : Loc) : Bool :=
  match l with
  | .slice h _ => sliceUp s h
  | .hbm _ _ => true

/-- No earlier access of the context and class is outstanding (12 R182). -/
def classFirst (s : State) (a : Access) : Bool :=
  !(s.accesses.takeWhile (fun x => x.seq != a.seq)).any (fun x => x.core == a.core && x.ctx == a.ctx && x.cls == a.cls && !(a.cls == 15 && x.arrived))

/-- The i-th outstanding SC access reaches its home: it is performed there, or of class 15 it waits there for the wheel, unless it comes late (16 R284). A dead link or a lost supply fails it, a retraining link holds it up, and so does a gated slice, where what arrives during the wake is performed in the order of its arrival (07 R117, 25 R345-R347, 26 R355). -/
def scPerform (s : State) (i : Nat) : State :=
  match s.accesses[i]? with
  | none => s
  | some a =>
    if a.arrived || !classFirst s a then s
    else if (reachFault s (dieOf a.core) a.loc a.va).isSome then failAccess s a 6
    else if pathIn s (dieOf a.core) a.loc.die 2 then s
    else if a.cls = 15 then
      (if a.issued + 1024 < s.now then failAccess s a 5
       else { s with accesses := s.accesses.map (fun x => if x.seq = a.seq then { x with arrived := true } else x) })
    else if !homeUp s a.loc then arriveAt s a.loc.home (.access a.seq)
    else if mayReach s a.loc.home (.access a.seq) then performAt (leaveSlice s a.loc.home (.access a.seq)) a
    else s

/-- One more entry is read by the i-th walk of a die or of the hub, of those that run (16 R287). -/
def walkStep (s : State) (d i : Nat) : State :=
  match (s.walksOf d)[i]? with
  | none => s
  | some w =>
    if walkPlaces ≤ i ∨ (s.die d).power = false then s
    else match walkMove s d w with
      | some n => (corrected s (.hbm (walkPlace s w) 0) 8).modWalks d (fun l => l.set i { w with node := some n })
      | none => s

/-- ACCESS_PERFORM (06 R104). -/
def execAccessPerform (p : AccessPick) (s : State) : Result :=
  match p with
  | .sc i => .next (scPerform s i)
  | .eng c e n w => .next (engAccess s c e n w)
  | .routing d => .next (routeAccessNext s d)
  | .replication d => .next (replicaAccessNext s d)
  | .walk d i => .next (walkStep s d i)

/-- CLASS15_RELEASE: the i-th access, held at its home, is performed once the wheel is 256 positions past its stamp and no smaller stamp waits there (16 R284); at a gated slice it waits for the wake (07 R117). -/
def execClass15Release (i : Nat) (s : State) : Result :=
  match s.accesses[i]? with
  | none => .next s
  | some a =>
    if a.arrived && homeUp s a.loc && decide (a.stamp + 256 ≤ s.wheelCount)
        && !s.accesses.any (fun x => x.arrived && x.loc.home == a.loc.home && decide (x.stamp < a.stamp)) then .next (performAt s a)
    else .next s

/-- The wheel goes on by a position every 4 cycles of 1.2 GHz, whatever the rails (16 R284). -/
def advanceWheel (s : State) : State :=
  if s.hub.wheelAt + 4 ≤ s.now then
    s.modHub (fun h => { h with
      wheel := h.wheel + 1
      round := if h.wheel = 4095 then h.round + 1 else h.round
      wheelAt := h.wheelAt + 4 })
  else s

/-- SLOT_WHEEL_ADVANCE (16 R284). -/
def execSlotWheelAdvance (s : State) : Result := .next (advanceWheel s)

/-- Class-15 accesses arrive within 1024 cycles of their issue, unless a link on their path fails (16 R284). -/
def wheelArrivals (s : State) : State :=
  { s with accesses := s.accesses.map (fun a =>
      if a.cls = 15 ∧ a.arrived = false ∧ a.issued + 1024 ≤ s.now ∧ reachFault s (dieOf a.core) a.loc a.va = none ∧ pathIn s (dieOf a.core) a.loc.die 2 = false
      then { a with arrived := true } else a) }

/-! Page walks (06 R101, R103, 25 R340). -/

/-- The entry joins the unit: it replaces what covers an address of its page, and in a full unit one entry of the event's choice. -/
def tlbInsert (e : TlbEntry) (victim : Option Nat) (l : List TlbEntry) : List TlbEntry :=
  let l := l.filter (fun x => !(x.ctx == e.ctx && (x.page == e.page || ((x.big || e.big) && x.page / 32 == e.page / 32))))
  (if tlbSize ≤ l.length then l.eraseIdx (victim.getD 0 % l.length) else l) ++ [e]

/-- A waiter of a walk that faulted takes the fault on its own (25 R340). A read does not fault on a page that is only not writable. -/
def walkFault (f : FaultInfo) (s : State) (d : Nat) (w : Walker × Nat × Bool) : State :=
  let g := { f with faddr := w.2.1 }
  if f.code = 0x09 ∧ f.detail / 8 = 5 ∧ w.2.2 = false then s
  else match w.1 with
    | .sc c k =>
      if (s.core c).stop.isSome || (s.core c).stopping.isSome || (s.ctx c k).wait != .walk (w.2.1 / 2 ^ 16) then s
      else ctxTrap (s.modCtx c k (fun t => { t with wait := .none })) c k g (s.ctx c k).pc.toNat
    | .eng c e n => (match findFlight s c e n with
      | some k => if k.faulted.isSome then s else cmdTrap s c e k g
      | none => s)
    | .routing => (match (s.die d).rrun with
      | some r => setRun s d { r with fault := some (faultRow r, f.code) }
      | none => s)
    | .replication => s.modDie d (fun x => { x with rcopyFault := true })

/-- The waiters of a walk in the order of faults of one cycle: the contexts, LD, ST, and others (24 R323). -/
def walkParty : Walker → Nat
  | .sc _ k => k
  | .eng _ .st _ => 5
  | .eng _ _ _ => 4
  | _ => 6
def partyOrder (l : List (Walker × Nat × Bool)) : List (Walker × Nat × Bool) := (List.range 7).flatMap (fun n => l.filter (fun w => walkParty w.1 == n))

/-- The core and party that a waiter's fault would stop. -/
def faultsParty (f : FaultInfo) (s : State) (w : Walker × Nat × Bool) : Option (Nat × Nat) :=
  if f.code = 0x09 ∧ f.detail / 8 = 5 ∧ w.2.2 = false then none
  else match w.1 with
    | .sc c k => if s.stopFree c && (s.ctx c k).wait == .walk (w.2.1 / 2 ^ 16) && (s.ctx c k).hook.isNone then some (c, k) else none
    | .eng c e n => if s.stopFree c && !(s.core c).dbg.halt && (findFlight s c e n).any (fun k => k.faulted.isNone) then some (c, walkParty w.1) else none
    | _ => none

/-- Where a walk's fault takes more than one party of a core, its record says so (24 R323). -/
def noteSecond (f : FaultInfo) (s : State) (l : List (Walker × Nat × Bool)) : State :=
  let hits := l.filterMap (faultsParty f s)
  hits.foldl (fun s p => if hits.any (fun q => q.1 == p.1 && q.2 != p.2) then s.modCore p.1 (fun k => { k with second := true }) else s) s

/-- PAGE_WALK_DONE: the i-th walk of a die, among those that run, ends (06 R101, R103). After a fault the unit holds no entry of the page (25 R330). -/
def execPageWalkDone (d i : Nat) (victim : Option Nat) (s : State) : Result :=
  if walkPlaces ≤ i ∨ (s.die d).power = false then .next s
  else match (s.die d).walks[i]? with
    | none => .next s
    | some w =>
      match walkRest s d w with
      | (t, .ok e) => .next (t.modDie d (fun x => { x with walks := x.walks.eraseIdx i, tlb := tlbInsert e victim x.tlb }))
      | (t, .error f) =>
        let t := t.modDie d (fun x => { x with walks := x.walks.eraseIdx i, tlb := x.tlb.filter (fun e => !e.covers w.ctx w.va) })
        .next ((partyOrder w.waiters).foldl (fun t p => walkFault f t d p) (noteSecond f t w.waiters))

/-! Invalidation (06 R103). -/

/-- The LD and ST commands of a core's launches of a context that have started and not finished. -/
def startedCmds (s : State) (tctx c : Nat) : List (Nat × Eng × Nat) :=
  let of (q : Seqs) : List (Nat × Eng × Nat) :=
    (q.ld.flight.filter (fun k => k.started)).map (fun k => (c, Eng.ld, k.num)) ++ (q.st.flight.filter (fun k => k.started)).map (fun k => (c, Eng.st, k.num))
  (if s.tctx c = tctx ∧ (s.run c).isSome then of (s.seqs c) else [])
    ++ (s.arch c).parked.flatMap (fun p => if p.run.tctx = tctx then of p.seqs else [])

/-- Entries that an invalidation drops. -/
def dropped (tctx : Nat) (page : Option Nat) (e : TlbEntry) : Bool :=
  e.ctx == tctx && (match page with
    | none => true
    | some p => if e.big then e.page / 32 == p / 32 else e.page == p)

/-- The routing passes of a context that hold translations (10 R152). -/
def heldPasses (s : State) (tctx : Nat) : List (Nat × BitVec 32) :=
  s.dies.filterMap (fun p => match p.2.rrun with
    | some r => if r.pass.tctx = tctx ∧ r.hlocs.isEmpty = false then some (p.1, r.pass.ticket) else none
    | none => none)

/-- A walk of the context starts anew: what it has read may have changed (06 R103). -/
def Walk.anew (tctx : Nat) (w : Walk) : Walk := if w.ctx = tctx then { w with node := none } else w

/-- XINV_WRITE: the entries drop in every unit, walks start anew, copies of other modules translate their page again (log 18), and what else was translated before is noted (06 R103). -/
def execXinvWrite (c k : Nat) (s : State) : Result :=
  .next (csrwStep (fun n _ => n == 0x038) (fun _ v s =>
    let tctx := v.toNat % 4096
    let page : Option Nat := if v.getLsbD 63 then none else some (v.toNat / 65536 % 2 ^ 41)
    let s := (List.range 8).foldl (fun s d => s.modDie d (fun x => { x with
      tlb := x.tlb.filter (fun e => !dropped tctx page e), walks := x.walks.map (Walk.anew tctx) })) s
    let s := s.modHub (fun h => { h with walks := h.walks.map (Walk.anew tctx), importing := h.importing.filter (fun y => y.tctx != tctx) })
    let inv : Inval := ⟨s.seq, c, k, tctx, page, (s.accesses.filter (fun a => a.tctx == tctx)).map (fun a => a.seq),
      s.cores.flatMap (fun p => startedCmds s tctx p.1), heldPasses s tctx⟩
    { (s.modCtx c k (fun t => { t with invals := t.invals ++ [s.seq] })) with invals := s.invals ++ [inv], seq := s.seq + 1 }) c k s)

/-- The command is still unfinished. -/
def cmdLive (s : State) (p : Nat × Eng × Nat) : Bool :=
  let has (q : Seqs) : Bool := (match p.2.1 with | .st => q.st.flight | _ => q.ld.flight).any (fun k => k.num == p.2.2)
  has (s.seqs p.1) || (s.arch p.1).parked.any (fun x => has x.seqs)

/-- The routing pass still runs. -/
def passRuns (s : State) (p : Nat × BitVec 32) : Bool := match (s.die p.1).rrun with | some r => r.pass.ticket == p.2 | none => false

/-- The accesses, commands and passes of an invalidation are past. -/
def invalPast (s : State) (v : Inval) : Bool :=
  v.accesses.all (fun n => !s.accesses.any (fun a => a.seq == n)) && v.cmds.all (fun p => !cmdLive s p) && v.passes.all (fun p => !passRuns s p)

/-- INVALIDATION_DONE (06 R103). -/
def execInvalidationDone (i : Nat) (s : State) : Result :=
  match s.invals[i]? with
  | none => .next s
  | some v =>
    if invalPast s v then
      .next { (s.modCtx v.core v.ctx (fun t => { t with invals := t.invals.erase v.id })) with invals := s.invals.eraseIdx i }
    else .next s

/-- The commands of a core's launch that has ended hold no invalidation. -/
def dropInvalCmds (s : State) (c : Nat) : State :=
  { s with invals := s.invals.map (fun v => { v with cmds := v.cmds.filter (fun p => p.1 != c || cmdLive s p) }) }

end Sys2Proof.Machine
end

