-- ==== Sys2Proof/Machine/EvTwoRate.lean ====
section
/-! DEFINITION. Family: steps of the two-rate machine: LANDING_POST, BOUNDARY_TRAP_DISPATCH, STEP_FORMER_ENABLE and _DISABLE, STEPMAX_WRITE, STEP_FORM (spec 03 R47-R57, 23 R311, R312). -/

namespace Sys2Proof.Machine

/-! The landing (03 R50-R52). -/

/-- Entries of a landing. -/
def landingSize : Nat := 1024
/-- LRES of a post refused for its address, and for want of room (03 R51). -/
def lresBad : Word := 0xFFFFFFFFFFFFFFFE
def lresFull : Word := 0xFFFFFFFFFFFFFFFF

/-- A post's descriptor, read at its home: none when the address is refused (03 R51). -/
def landingDesc (s : State) (c : Nat) (v : Word) : Option (List Byte) :=
  let a := v.toNat
  if 2 ^ 31 ≤ a ∨ a % 8 ≠ 0 then none
  else
    let h := a / Config.sliceBytes
    let off := a % Config.sliceBytes
    if (hallRefuse s (s.tctx c) h off 28).isSome || (reachFault s (dieOf c) (.slice h off) a).isSome || s.spadPoison h off 28 then none else some (s.spadRead h off 28)

/-- The landing takes a descriptor, and LRES tells of it. -/
def landPost (c k : Nat) (v : Word) (s : State) : State :=
  let d := s.die (dieOf c)
  let lres (w : Word) (s : State) : State := s.modCtx c k (fun t => { t with lres := w })
  match landingDesc s c v with
  | none => lres lresBad s
  | some b =>
    if landingSize ≤ d.landing.length then lres lresFull s
    else
      let e : LandEntry := ⟨BitVec.ofNat 128 (fieldAt b 0 16), BitVec.ofNat 64 (fieldAt b 16 8), BitVec.ofNat 32 (fieldAt b 24 4), d.lsn, s.now⟩
      lres (d.lsn.setWidth 64) (s.modDie (dieOf c) (fun d => { d with landing := d.landing ++ [e], lsn := d.lsn + 1 }))

/-- LANDING_POST (03 R51). -/
def execLandingPost (c k : Nat) (s : State) : Result := .next (csrwStep (fun n _ => n == 0x018) (fun _ v => landPost c k v) c k s)

/-! Boundary traps (03 R47, R48). -/

/-- The trap word of a boundary handler. -/
def boundaryWord (t : BTrap) : Word := BitVec.ofNat 64 (1 + t.slot * 256 + t.cause * 16384)

/-- The head of the boundary-trap queue may start its handler: the context it takes. -/
def boundaryReady (s : State) (c : Nat) : Option (Nat × BTrap) :=
  match (s.arch c).btraps, dormantHandler s c with
  | t :: _, some k => if [1, 2, 3].any (fun j => (s.ctx c j).status == .running && (s.ctx c j).slot == some t.slot) then none else some (k, t)
  | _, _ => none

/-- BOUNDARY_TRAP_DISPATCH: unless an older data arrival takes the context (04 R69). -/
def execBoundaryTrapDispatch (c : Nat) (s : State) : Result :=
  match boundaryReady s c with
  | none => .next s
  | some (k, t) =>
    let older := match (s.seqs c).arrivals with | a :: _ => decide (a.at_ < t.at_) | [] => false
    if !coreLive s c || older then .next s
    else
      let s := s.modArch c (fun a => { a with btraps := a.btraps.tail })
      .next (startHandler s c k (s.arch c).csrs.bhaddr (boundaryWord t) (BitVec.ofNat 64 t.entry.toNat) (BitVec.ofNat 64 (t.entry.toNat / 2 ^ 64))
        (BitVec.ofNat 64 t.addr) (some t.slot) none)

/-! The step former (03 R53-R57). -/

/-- A die's step former is off with a failure code. -/
def stepOff (s : State) (d code : Nat) : State := s.modDie d (fun x => { x with en := false, serr := BitVec.ofNat 8 code })

/-- EN set from 0 to 1: the template and its image's header are read (03 R53). -/
def stepEnable (d : Nat) (v : Word) (s : State) : State :=
  let s := s.modDie d (fun x => { (x.putStepctl v) with serr := 0 })
  let x := s.die d
  match readBytes s d x.sctx.toNat x.steprec.toNat 64 with
  | (s, .error _) => stepOff s d 8
  | (s, .ok b) => match readHeader s d x.sctx.toNat (parseRecord b).image with
    | (s, .error _) => stepOff s d 8
    | (s, .ok h) =>
      if x.inv && h.flags % 2 == 0 then stepOff s d 0
      else s.modDie d (fun x => { x with en := true, template := BitVec.ofNat 512 (bytesNat b) })

/-- STEP_FORMER_ENABLE (03 R53). -/
def execStepFormerEnable (c k : Nat) (s : State) : Result :=
  .next (csrwStep (fun n v => n == 0x200 && v.getLsbD 0 && !(s.die (dieOf c)).en) (fun _ v => stepEnable (dieOf c) v) c k s)

/-- STEP_FORMER_DISABLE: only EN changes, and the copy of the template goes (03 R53). -/
def execStepFormerDisable (c k : Nat) (s : State) : Result :=
  .next (csrwStep (fun n v => n == 0x200 && !v.getLsbD 0 && (s.die (dieOf c)).en)
    (fun _ _ s => s.modDie (dieOf c) (fun x => { x with en := false, template := 0 })) c k s)

/-- STEPMAX_WRITE: clamped, and STEPMIN lowered with it; ignored while EN = 1 (03 R53). -/
def execStepmaxWrite (c k : Nat) (s : State) : Result :=
  .next (csrwStep (fun n _ => n == 0x203) (fun _ v s => s.modDie (dieOf c) (fun x =>
    if x.en then x
    else
      let m := clampWord v 1 1024
      { x with stepmax := BitVec.ofNat 16 m, stepmin := BitVec.ofNat 16 (min x.stepmin.toNat m) })) c k s)

/-- The rows of a step: entries from the head, up to `room`, until one repeats a sequence (03 R55). -/
def stepRows : Nat → List (BitVec 32) → List LandEntry → List LandEntry
  | 0, _, _ => []
  | _, _, [] => []
  | n + 1, seen, e :: t => if seen.contains e.seq then [] else e :: stepRows n (e.seq :: seen) t

/-- The 32 bytes of a landing entry (03 R50). -/
def LandEntry.bytes (e : LandEntry) : List Byte :=
  natBytes 16 e.map.toNat ++ natBytes 8 e.vec.toNat ++ natBytes 4 e.seq.toNat ++ natBytes 4 e.lsn.toNat

/-- The group level: the highest spatial level of the template (03 R56). -/
def groupLevel (r : Record) : Option Nat :=
  (List.range 6).foldl (fun g i => if levelKind ((r.loop[i]?).getD 0) = 1 ∨ levelKind ((r.loop[i]?).getD 0) = 2 then some i else g) none

/-- TAG of step j (03 R56). -/
def stepTag (j : Nat) : BitVec 32 := BitVec.ofNat 32 (0xFE000000 + j % 0x01FFFFFF)

/-- The row-valid map of n rows. -/
def rowMap (n : Nat) : BitVec 1024 := BitVec.ofNat 1024 (2 ^ n - 1)

/-- The table of a step (03 R56). -/
def stepTable (j : Nat) (rows : List LandEntry) : List Byte :=
  let n := rows.length
  natBytes 8 j ++ natBytes 4 n ++ natBytes 4 ((n + 63) / 64) ++ natBytes 4 (match rows with | e :: _ => e.lsn.toNat | [] => 0) ++ natBytes 44 0
    ++ natBytes 128 (rowMap n).toNat ++ rows.flatMap LandEntry.bytes

/-- The record of step j: the template with its changes (03 R56). -/
def stepRecord (r : Record) (j table groups : Nat) : Record :=
  let loop := match groupLevel r with
    | some g => r.loop.set g (BitVec.ofNat 32 (levelKind ((r.loop[g]?).getD 0) * 2 ^ 30 + groups))
    | none => r.loop
  { r with args := BitVec.ofNat 64 table, loop := loop, tag := stepTag j, prod0 := if j = 0 then 0xFFFFFFFF else stepTag (j - 1) }

/-- A failed submission or table write (23 R312). -/
def stepFailed (s : State) (d code : Nat) : State := raiseVector (stepOff s d code) 4098

/-- Steps of the die that have not exited. -/
def stepsOut (s : State) (d : Nat) : List Nat := (s.die d).outstanding.filter (fun id => !isComplete s id)

/-- The step former may form a step now (03 R54, R56). -/
def stepReady (s : State) (d : Nat) : Bool :=
  let x := s.die d
  x.power && x.en && decide ((stepsOut s d).length < 4) && decide (x.pool.length < poolSize) && (match x.landing with
    | [] => false
    | e :: _ => decide (x.stepmin.toNat ≤ x.landing.length) || decide (e.at_ + x.stepwait.toNat ≤ s.now) || decide (x.stepmax.toNat ≤ x.landing.length))

/-- The table address of step j. -/
def tableAddr (x : Die) (j : Nat) : Nat := (x.steptab.toNat + 65536 * (j % 4)) % 2 ^ 64

/-- The step former of a die forms a step, if it may (03 R54-R57, 23 R312). -/
def formStep (d : Nat) (s : State) : State :=
  if !stepReady s d then s
  else
    let x := s.die d
    let r := parseRecord (natBytes 64 x.template.toNat)
    let room := if (groupLevel r).isSome then x.stepmax.toNat else min 64 x.stepmax.toNat
    let rows := stepRows room [] x.landing
    let j := x.stepNo.toNat
    let ta := tableAddr x j
    let s := s.modDie d (fun x => { x with landing := x.landing.drop rows.length, stepNo := x.stepNo + 1 })
    match writeBytes s d x.sctx.toNat ta (stepTable j rows) with
    | (s, some _) => stepFailed s d 8
    | (s, none) =>
      let rec1 := stepRecord r j ta ((rows.length + 63) / 64)
      match checkRecord s d x.sctx.toNat rec1 1 true with
      | (s, .error n) =>
        let (s, _) := writeNow s d x.sctx.toNat (ta + 20) (natBytes 1 n)
        stepFailed s d n
      | (s, .ok h) =>
        let (s, held) := bindRecord s rec1 h x.steprec x.sctx.toNat x.sinlim.toNat (rowMap rows.length) (some j) 0
        let s := poolAdd s d held
        s.modDie d (fun x => { x with outstanding := stepsOut s d ++ [held.id] })

/-- STEP_FORM. -/
def execStepForm (d : Nat) (s : State) : Result := .next (formStep d s)

end Sys2Proof.Machine
end

