-- ==== Sys2Proof/Machine/Sched.lean ====
section
/-! DEFINITION. The scheduler's shared operations (spec 05, 04 R62-R67, 24 R334): the choice of a record, the places a core offers, the end of a launch on a core, KILL, and the waits of queue-deadlock relief. -/

namespace Sys2Proof.Machine

/-! Queues (05 R79-R81). -/

/-- Slots of a queue's ring. -/
def WorkQueue.slots (w : WorkQueue) : Nat := 2 ^ w.log2.toNat
/-- Records between head and tail. -/
def WorkQueue.count (w : WorkQueue) : Nat := (w.tail - w.head).toNat
/-- The address of record i. -/
def WorkQueue.addrOf (w : WorkQueue) (i : BitVec 32) : Nat := w.base.toNat * 4096 + 64 * (i.toNat % w.slots)

/-- A queue halts with a code, and its vector is raised (05 R81). -/
def haltQueue (s : State) (q code : Nat) (idx : BitVec 32) : State :=
  raiseVector (s.modWq q (fun w => { w with err := BitVec.ofNat 8 code, badidx := idx })) q

/-- A queue halts for a record that has been read: it leaves its tag, and is read again later (05 R81, R378). -/
def haltRecord (s : State) (q code : Nat) (h : HeldRec) : State :=
  let s := (releaseTag s h.id).modWq q (fun w => if w.held.any (fun x => x.id == h.id) then { w with held := none, placing := false } else w)
  haltQueue s q code h.index

/-- An overfull queue halts, unless it has halted; a record read before stays read, and goes on if its placement has begun (05 R80, R83). -/
def overfill (s : State) (q : Nat) : State :=
  let w := s.wq q
  if w.slots < w.count ∧ w.err = 0 then haltQueue s q 7 (w.head + BitVec.ofNat 32 w.slots) else s

/-- WQHEAD moves over skipped records that have been written (05 R86). -/
def settleSkips : Nat → WorkQueue → WorkQueue
  | 0, w => w
  | n + 1, w => match w.skips with
    | (fr, to_) :: rest =>
      if fr ≠ w.head.toNat then w
      else
        let want := (BitVec.ofNat 32 to_ - w.head).toNat
        if want ≤ w.count then settleSkips n { w with head := BitVec.ofNat 32 to_, skips := rest }
        else { w with head := w.tail, skips := (w.tail.toNat, to_) :: rest }
    | [] => w

/-- The head of a queue that is enabled moves on, over skips unless a loop ends there. -/
def WorkQueue.settle (w : WorkQueue) : WorkQueue :=
  if !w.en then w
  else match w.loops with
  | (_, last, _) :: _ => if last = w.head.toNat then w else settleSkips w.skips.length w
  | [] => settleSkips w.skips.length w

/-- The scheduler has finished with the head record (05 R80). -/
def passHead (s : State) (q : Nat) : State :=
  s.modWq q (fun w => ({ w with head := w.head + 1, held := none, placing := false } : WorkQueue).settle)

/-- A loop whose body has been read and has completed returns the head to its node (05 R86). -/
def returnLoop (s : State) (w : WorkQueue) : WorkQueue :=
  match w.loops with
  | (node, last, ids) :: rest => if last = w.head.toNat ∧ ids.all (isComplete s) then { w with head := BitVec.ofNat 32 node, loops := rest } else w
  | [] => w

/-- A loop waits at the head for its body. -/
def WorkQueue.atLoopEnd (w : WorkQueue) : Bool := match w.loops with | (_, last, _) :: _ => last == w.head.toNat | [] => false

/-! The choice (05 R82, R84). -/

/-- Positions of the search: queues, then the pools. -/
def posOf : Source → Nat
  | .queue q => q
  | .pool d => 4096 + d

/-- The effective level of an eligible record. -/
def levelOf (s : State) (h : HeldRec) : Nat :=
  if h.body.prio = 11 then 11 else min 10 (h.body.prio + (match h.eligible with | some t => (s.now - t) / max 1 s.hub.agelimit.toNat | none => 0))

/-- Every record that has become eligible is noted. -/
def updateEligible (s : State) : State :=
  { s with
    dies := s.dies.map (fun p => (p.1, { p.2 with pool := poolHeads s [] p.2.pool }))
    hub := { s.hub with queues := s.hub.queues.map (fun p => (p.1, { p.2 with held := p.2.held.map (noteEligible s) })) } }

/-- The eligible heads, with their positions and levels: of queues that run, kernels and nodes alike, and of the pools (05 R82, R84). -/
def candidates (s : State) : List (Nat × Nat × HeldRec) :=
  s.hub.queues.filterMap (fun p => match p.2.held with
    | some h => if p.2.en && p.2.err == 0 && !p.2.placing && recEligible s h then some (p.1, levelOf s h, h) else none
    | none => none)
  ++ s.dies.flatMap (fun p => if p.2.power then ((poolHeads s [] p.2.pool).filter (fun h => h.eligible.isSome)).map (fun h => (4096 + p.1, levelOf s h, h)) else [])

/-- Distance of a position in the search that starts behind the last one taken at a level. -/
def searchDist (s : State) (level pos : Nat) : Nat := (pos + 4104 - 1 - sget 4103 s.hub.last level) % 4104

/-- The record the scheduler chooses: of the highest level, one that was chosen and not placed before any other, then by the search. Of two such whose levels have become equal, the one chosen earlier goes first (log 83). -/
def chosenOf (s : State) : Option (Nat × Nat × HeldRec) :=
  let cs := candidates s
  let top := cs.foldl (fun m x => max m x.2.1) 0
  let tops := cs.filter (fun x => x.2.1 == top)
  match s.hub.chosen.findSome? (fun id => tops.find? (fun x => x.2.2.id == id)) with
  | some x => some x
  | none => tops.foldl (fun b x => match b with
    | none => some x
    | some y => if searchDist s top x.1 < searchDist s top y.1 then some x else b) none

/-- The record chosen in this cycle stays chosen until it is placed or no longer a candidate. -/
def noteChosen (s : State) : State :=
  let ids := (candidates s).map (fun x => x.2.2.id)
  let kept := s.hub.chosen.filter (fun i => ids.contains i)
  match chosenOf s with
  | some x => s.modHub (fun h => { h with chosen := if kept.contains x.2.2.id then kept else kept ++ [x.2.2.id] })
  | none => s.modHub (fun h => { h with chosen := kept })

/-! Places (05 R88, R89, 04 R62). -/

/-- Two ranges do not meet. -/
def apart (a n b m : Nat) : Bool := decide (a + n ≤ b) || decide (b + m ≤ a) || n == 0 || m == 0

/-- The launches resident on a core, those of `gone` among them as if pre-empted. -/
def residents (s : State) (c : Nat) : List Running := (s.arch c).parked.map (fun p => p.run) ++ (s.run c).toList

/-- Registers, by blocks of 32, and an area lie clear of the residents. -/
def clearOf (rs : List Running) (h : HeldRec) (regs : List Nat) (area : Nat) : Bool :=
  rs.all (fun r => regs.all (fun b => !r.regs.contains b) && apart area h.hdr.spneed r.area r.spneed)

/-- Blocks of 32 registers that the residents hold. -/
def heldBlocks (rs : List Running) : Nat := rs.foldl (fun n r => n + r.regs.length) 0

/-- The core takes a placement of a record. -/
def placeOk (s : State) (h : HeldRec) (p : Placement) : Bool :=
  let rs := residents s p.core
  (s.run p.core).isNone && (s.core p.core).gate == .on && (s.core p.core).stop.isNone && decide (p.core < Config.cores) && (s.die (dieOf p.core)).power
    && decide (rs.length < 8) && decide (p.frame < 8) && rs.all (fun r => r.frame != p.frame)
    && 32 * p.regs.length == h.hdr.allot && p.regs.all (fun b => decide (b < 64)) && decide p.regs.Nodup
    && p.area % 1024 == 0 && decide (p.area + h.hdr.spneed ≤ grantable) && clearOf rs h p.regs p.area

/-- The distance of a core's positions. -/
def wheelStep (n : Nat) : Nat := 4096 / max 1 n
/-- The positions of a core. -/
def wheelPositions (n p : Nat) : List Nat := if n = 0 then [] else (List.range n).map (fun k => p + k * wheelStep n)
/-- No launch of the module holds them. -/
def wheelFree (s : State) (n p : Nat) : Bool := (wheelPositions n p).all (fun x => !s.hub.owners.any (fun o => o.1 == x))

/-- The cohort of a record: C cores on each of D dies, core index c within die index d, and its positions free and distinct. -/
def cohortOk (s : State) (h : HeldRec) (l : List Placement) : Bool :=
  let c := h.body.c
  let d := h.body.d
  let die (j : Nat) : Nat := match l[j * c]? with | some p => dieOf p.core | none => 8
  l.length == c * d && decide ((l.map (fun p => p.core)).Nodup) && l.all (placeOk s h)
    && (List.range d).all (fun j => ((l.drop (j * c)).take c).all (fun p => dieOf p.core == die j))
    && decide (((List.range d).map die).Nodup)
    && (h.hdr.wheel == 0 || (decide ((l.map (fun p => p.wheelP)).Nodup) && l.all (fun p => decide (p.wheelP < wheelStep h.hdr.wheel) && wheelFree s h.hdr.wheel p.wheelP)))

/-- A core could take a record once the launches of `gone` are pre-empted there: registers, an area and a frame are free. -/
def canHost (s : State) (gone : List Nat) (h : HeldRec) (c : Nat) : Bool :=
  let rs := residents s c
  (match s.run c with | some r => gone.contains r.launch | none => true) && (s.core c).gate == .on && (s.core c).stop.isNone && (s.die (dieOf c)).power
    && decide (rs.length < 8)
    && decide (32 * heldBlocks rs + h.hdr.allot ≤ 2048)
    && (0 :: rs.map (fun r => (r.area + r.spneed + 1023) / 1024 * 1024)).any (fun a => decide (a + h.hdr.spneed ≤ grantable) && rs.all (fun r => apart a h.hdr.spneed r.area r.spneed))

/-- Positions that a pre-emption of `gone` would leave free are enough for n cores. -/
def wheelRoom (s : State) (gone : List Nat) (wheel n : Nat) : Bool :=
  wheel == 0 || decide (n ≤ ((List.range (wheelStep wheel)).filter (fun p =>
    (wheelPositions wheel p).all (fun x => !s.hub.owners.any (fun o => o.1 == x && !gone.contains o.2)))).length)

/-- Some cohort could take the record (05 R88, R92). -/
def canPlace (s : State) (gone : List Nat) (h : HeldRec) : Bool :=
  decide (h.body.d ≤ ((List.range 8).filter (fun d => decide (h.body.c ≤ ((List.range 64).filter (fun i => canHost s gone h (64 * d + i))).length))).length)
    && wheelRoom s gone h.hdr.wheel (h.body.c * h.body.d)

/-! Pantry (05 R95, 23 R318). -/

/-- Blocks that a core's queues hold. -/
def blocksOf (q : Seqs) : Nat := q.toks.foldl (fun n p => n + p.2.enl) 0 + q.fqEnl + q.ld.enl + q.st.enl + q.cp.mqEnl

/-- Blocks return to the cluster's pantry. -/
def giveBlocks (s : State) (c n : Nat) : State := s.modCluster (clusterOf c) (fun g => { g with pantry := g.pantry + n })

/-! The end of a launch (04 R63, 05 R83, 24 R334). -/

/-- The record of a launch whose placement is over leaves the head of its queue (05 R80). -/
def passRecord (s : State) (l : Launch) : State :=
  match l.src with
  | .queue q => (match (s.wq q).held with
    | some h => if h.id = l.id ∧ (s.wq q).placing then passHead s q else s
    | none => s)
  | .pool _ => s

/-- The launch leaves the module: its tag and its positions are free. Killed before it was loaded, it counts as started and completed, and its record is passed (05 R83, log 94). -/
def dropLaunch (s : State) (id : Nat) : State :=
  (releaseTag (match s.launch id with | some l => passRecord s l | none => s) id).modHub (fun h => { h with launches := h.launches.filter (fun l => l.id != id), owners := h.owners.filter (fun o => o.2 != id) })

/-- The launch is complete once every core of its cohort is (04 R63). -/
def launchOver (s : State) (id : Nat) : State :=
  match s.launch id with
  | some l => if l.cohort.all (fun p => l.completed.contains p.core) then dropLaunch s id else s
  | none => s

/-- A core is free of its launch: its queues' blocks return, its sequencers are as at reset, and it waits at no walk and no ring. -/
def freeCore (s : State) (c : Nat) : State :=
  let s := giveBlocks (leaveRings (leaveWalks s c) c) c (blocksOf (s.seqs c))
  dropInvalCmds (s.modArch c (fun a => { a with run := none, yielded := [], seqs := {} })) c

/-- The accesses of a core whose launch is killed: loads are given up, stores go on without a context. -/
def detachAccesses (s : State) (c : Nat) : State :=
  { s with
    accesses := (s.accesses.filter (fun a => a.core != c || a.op.isStore)).map (fun a => if a.core = c then { a with ctx := 4 } else a)
    replies := s.replies.filter (fun r => r.core != c)
    retries := s.retries.filter (fun m => m.core != c) }

/-- A core as after power-on, its cellar formatted (26 R354). -/
def Core.fresh (k : Core) : Core := { cellar := k.cellar.format, dbg := k.dbg }

/-- The core's part of a launch has ended. -/
def partOver (s : State) (id c : Nat) : State := s.modLaunch id (fun l => { l with completed := insertNat l.completed c })

/-- What KILL leaves of a core: everything of its launch is dropped. A gated core's committed state follows; a held core's is dropped. -/
def wipeCore (s : State) (c : Nat) : State :=
  let gate := (s.core c).gate
  let s := freeCore (detachAccesses s c) c
  let s := s.modCore c (fun k => { k with
    stop := none, stopping := none, cutting := false, leaving := false, killing := false
    dbg := { k.dbg with stepping := false, injecting := false, pend := false }
    arch := { k.arch with slots := [], btraps := [], csrs := { k.arch.csrs with hkreq := none } } })
  match gate with
  | .off | .waking _ => commitCore s c 0
  | .held => s.modCore c Core.fresh
  | _ => s

/-- A KILL goes on at a core (24 R334): once the commands that have made an access have finished, and the entries of the matrix array, the core is free; a core without power, or stopped, has none that goes on. -/
def settleKill (s : State) (c : Nat) : State :=
  if !(s.core c).killing then s
  else
    if (s.core c).gate == .on && (s.core c).stop.isNone && finishing s c then s
    else match s.run c with
      | some r => launchOver (partOver (wipeCore s c) r.launch c) r.launch
      | none => s.modCore c (fun k => { k with killing := false })

/-- KILL on one core of the cohort. A core without supply is not reached; its part is over all the same. -/
def killCore (s : State) (id c : Nat) : State :=
  if !(s.die (dieOf c)).power then partOver s id c
  else if (match s.run c with | some r => r.launch == id | none => false) then settleKill (s.modCore c (fun k => { k with killing := true })) c
  else partOver (s.modArch c (fun a => { a with parked := a.parked.filter (fun p => p.run.launch != id) })) id c

/-- KILL: the launch ends on every core of its cohort and counts as completed. One killed before its overlays are loaded on every core has its record passed as it leaves the module: the model's choice (log 94). -/
def killLaunch (s : State) (id : Nat) : State :=
  match s.launch id with
  | none => s
  | some l => launchOver (l.cohort.foldl (fun s p => killCore s id p.core) s) id

/-! Queue waits (05 R95, 23 R316, R317): queues numbered as the tie order, 0 to 5 tokens, 6 FQ, 7 LD, 8 matrix, 9 ST. -/

/-- A queue is full. -/
def queueFull (s : State) (c n : Nat) : Bool :=
  let q := s.seqs c
  if n < 6 then decide ((s.tok c n).cap ≤ (s.tok c n).count)
  else if n = 6 then decide (q.fqCap ≤ q.fq.length)
  else if n = 7 then decide (q.ld.cap ≤ q.ld.queue.length)
  else if n = 8 then decide (q.cp.mqCap ≤ q.cp.mq.length)
  else decide (q.st.cap ≤ q.st.queue.length)
/-- Its capacity, and how often it has been enlarged. -/
def queueCap (s : State) (c n : Nat) : Nat :=
  let q := s.seqs c
  if n < 6 then (s.tok c n).cap else if n = 6 then q.fqCap else if n = 7 then q.ld.cap else if n = 8 then q.cp.mqCap else q.st.cap
def queueEnl (s : State) (c n : Nat) : Nat :=
  let q := s.seqs c
  if n < 6 then (s.tok c n).enl else if n = 6 then q.fqEnl else if n = 7 then q.ld.enl else if n = 8 then q.cp.mqEnl else q.st.enl
/-- 16 entries more. -/
def enlarge (s : State) (c n : Nat) : State :=
  if n < 6 then s.modTok c n (fun t => { t with cap := t.cap + 16, enl := t.enl + 1 })
  else s.modSeqs c (fun q =>
    if n = 6 then { q with fqCap := q.fqCap + 16, fqEnl := q.fqEnl + 1 }
    else if n = 7 then { q with ld := { q.ld with cap := q.ld.cap + 16, enl := q.ld.enl + 1 } }
    else if n = 8 then { q with cp := { q.cp with mqCap := q.cp.mqCap + 16, mqEnl := q.cp.mqEnl + 1 } }
    else { q with st := { q.st with cap := q.st.cap + 16, enl := q.st.enl + 1 } })

/-- The full queues on which the increments of what finished first wait. -/
def pushHeld (s : State) (c : Nat) (e : Eng) : List Nat :=
  match pushesOf s c e with
  | (q, n) :: t => (((q, n) :: t).filter (fun p => p.2 == n && queueFull s c p.1)).map (fun p => p.1)
  | [] => []

/-- What an undequeued command or a word waits on: the empty token queue. -/
def tokenHeld (s : State) (c : Nat) (e : Eng) (t : Tok) : List Nat := (tokenLack s c e t).toList

/-- The queues on which LD or ST waits, or none when it does not count as waiting. -/
def engQueueWait (s : State) (c : Nat) (e : Eng) : Option (List Nat) :=
  let g := s.eng c e
  let own := match e with | .st => 9 | _ => 7
  let push := pushHeld s c e
  let head : List Nat := match g.queue with | k :: _ => tokenHeld s c e (tokOf k.op) | [] => []
  match g.status with
  | .idle => some []
  | .running =>
    if !push.isEmpty then some push
    else match g.wait with
      | .token q => if (s.tok c q).count = 0 then some [q] else none
      | .queue => if queueFull s c own then some (own :: head) else none
      | _ => none
  | .ended =>
    if !g.flight.all (fun k => k.finished) || (!g.flight.isEmpty && push.isEmpty) then none
    else if g.queue.isEmpty && g.pushes.isEmpty then some []
    else if push.isEmpty && head.isEmpty then none
    else some (push ++ head)

/-- The matrix queue's head is an MMA that waits on an empty FQ (24 R331). -/
def fqHeld (s : State) (c : Nat) : Option MqEntry :=
  match (s.cp c).mq, mqHead s c with
  | h :: _, .waitFq _ => if isMma h.op then some h else none
  | _, _ => none

/-- The queues on which the CP waits. -/
def cpQueueWait (s : State) (c : Nat) : Option (List Nat) :=
  let p := s.cp c
  let push := pushHeld s c .cp
  let fq : List Nat := match mqHead s c with | .waitFq _ => [6] | _ => []
  match p.status with
  | .idle | .ended => some []
  | .running =>
    if p.ending then
      (if !p.mflight.isEmpty then none
       else if p.mq.isEmpty then (if push.isEmpty then none else some push)
       else if fq.isEmpty then none else some (push ++ fq))
    else if !push.isEmpty then some push
    else match p.wait with
      | .token q => if (s.tok c q).count = 0 then some [q] else none
      | .queue => if queueFull s c 8 then some (8 :: fq) else none
      | _ => none

/-- The queues on which the SC waits (23 R316). -/
def scQueueWait (s : State) (c : Nat) : Option (List Nat) :=
  if [0, 1, 2, 3].all (fun k =>
      let t := s.ctx c k
      t.status != .running || ((match t.wait with | .fmtq _ => true | _ => false) && queueFull s c 6)) then
    some (if [0, 1, 2, 3].any (fun k => (s.ctx c k).status == .running) then [6] else [])
  else none

/-- The queues waited on, when all four sequencers of a core wait on queue conditions. -/
def allWait (s : State) (c : Nat) : Option (List Nat) :=
  match scQueueWait s c, engQueueWait s c .ld, cpQueueWait s c, engQueueWait s c .st with
  | some a, some b, some d, some e => some (a ++ b ++ d ++ e)
  | _, _, _, _ => none

/-- The full queues waited on. -/
def fullWaited (s : State) (c : Nat) : List Nat :=
  match allWait s c with
  | some l => (List.range 10).filter (fun n => l.contains n && queueFull s c n)
  | none => []

/-- The queue of smallest capacity, ties in order. -/
def smallestQueue (s : State) (c : Nat) (l : List Nat) : Option Nat :=
  l.foldl (fun b n => match b with
    | none => some n
    | some m => if queueCap s c n < queueCap s c m then some n else b) none

/-- Since when all four wait, noted once a cycle. -/
def noteWaits (s : State) (c : Nat) : State :=
  s.modSeqs c (fun q => { q with waitSince := if (s.run c).isSome && (allWait s c).isSome then some (q.waitSince.getD (s.coreTime c)) else none })

/-- All four have waited for n cycles; a halted core's watchdog does not run (24 R335). -/
def waitedFor (s : State) (c n : Nat) : Bool :=
  coreLive s c && !(s.core c).dbg.halt && (allWait s c).isSome && (match (s.seqs c).waitSince with
    | some t => decide (t + n ≤ s.coreTime c)
    | none => false)

end Sys2Proof.Machine
end

