-- ==== Sys2Proof/Machine/EvSched.lean ====
section
/-! DEFINITION. Family: steps of the scheduler and the loader (spec 05 R79-R95, R378, 04 R60-R67, R377, 02 R33-R34, 23 R316-R321, 24 R331, R338). An event that is not enabled leaves the state as it is. -/

namespace Sys2Proof.Machine

/-! Work-queue registers (05 R79-R81). -/

/-- WQTAIL_WRITE: the tail is compared with WQHEAD as it stands, and only then may the head of a queue that has not halted move over skipped records (05 R80, R86). -/
def execWqtailWrite (q : Nat) (v : BitVec 32) (s : State) : Result :=
  .next ((overfill (s.modWq q (fun w => { w with tail := v })) q).modWq q (fun w => if w.err = 0 then w.settle else w))

/-- The fields of the word at 0x08. -/
def WorkQueue.fields (w : WorkQueue) (v : BitVec 64) : WorkQueue :=
  { w with
    inlimit := Sys2Proof.Machine.inlimit (v.toNat / 2 ^ 24 % 2 ^ 21)
    ctx := if w.en then w.ctx else BitVec.ofNat 12 (v.toNat / 2 ^ 12)
    log2 := if w.en then w.log2 else BitVec.ofNat 4 (clampNat (v.toNat / 256 % 16) 4 15) }

/-- WQ_ENABLE: EN from 0 to 1; the head becomes the tail (05 R79). -/
def execWqEnable (q : Nat) (v : BitVec 64) (s : State) : Result :=
  if (s.wq q).en || !v.getLsbD 0 then .next s
  else .next (s.modWq q (fun w => { (w.fields v) with en := true, head := w.tail, held := none, placing := false, skips := [], loops := [] }))

/-- WQ_DISABLE: EN from 1 to 0; a record whose placement has not begun is dropped (05 R79). -/
def execWqDisable (q : Nat) (v : BitVec 64) (s : State) : Result :=
  if !(s.wq q).en || v.getLsbD 0 then .next s
  else
    let w := s.wq q
    let s := match w.held with
      | some h => if w.placing then s else releaseTag s h.id
      | none => s
    .next (s.modWq q (fun w => { (w.fields v) with en := false, held := if w.placing then w.held else none }))

/-- WQ_HALT_CLEAR: a write of 0 to ERR (05 R80, R81). -/
def execWqHaltClear (q : Nat) (s : State) : Result :=
  if (s.wq q).err = 0 then .next s else .next (overfill (s.modWq q (fun w => { w with err := 0 })) q)

/-! Reading records (05 R79-R83). -/

/-- A queue whose next record may be read. A loop's return that leaves more records than slots stops the reads with no halt: the spec gives none (log 84). -/
def WorkQueue.readable (w : WorkQueue) : Bool :=
  w.en && w.err == 0 && w.held.isNone && !w.atLoopEnd && decide (0 < w.count) && decide (w.count ≤ w.slots)

/-- QUEUE_RECORD_READ: the record at the head is read, checked and bound to its producers, or the queue halts (05 R81, R83). -/
def execQueueRecordRead (q : Nat) (s : State) : Result :=
  if s.hub.bootst ≠ 1 then .next s
  else
    let s := s.modWq q (fun w => if w.en && w.err == 0 && w.held.isNone then (returnLoop s w).settle else w)
    let w := s.wq q
    if !w.readable then .next s
    else match readNow s hubEnd w.ctx.toNat (w.addrOf w.head) 64 with
      | (s, .error _) => .next (haltQueue s q 8 w.head)
      | (s, .ok b) =>
        let r := parseRecord b
        match checkRecord s hubEnd w.ctx.toNat r 4 false with
        | (s, .error n) => .next (haltQueue s q n w.head)
        | (s, .ok h) =>
          let (s, held) := bindRecord s r h (BitVec.ofNat 64 (w.addrOf w.head)) w.ctx.toNat w.inlimit.toNat 0 none w.head
          .next (s.modWq q (fun w => { w with held := some (noteEligible s held) }))

/-! Nodes (05 R86). -/

/-- B and L of a node. -/
def nodeB (r : Record) : Nat := r.args.toNat % 65536
def nodeL (r : Record) : Nat := r.args.toNat / 65536 % 65536

/-- Records from index a up to b are skipped once the head comes to a. -/
def WorkQueue.skip (w : WorkQueue) (a b : BitVec 32) : WorkQueue := if a = b then w else { w with skips := (a.toNat, b.toNat) :: w.skips }

/-- The queue after its node has read a word. -/
def nodeEffect (w : WorkQueue) (r : Record) (word : Nat) : WorkQueue :=
  let i := w.head
  let b := nodeB r
  let l := nodeL r
  let first := i + 1
  let after : BitVec 32 := first + BitVec.ofNat 32 b
  let w := { w with head := first, held := none }
  if r.node = 1 then (if word = 0 then w.skip first after else w)
  else if r.node = 2 then
    (if word = 0 then w.skip first after else { w with loops := (i.toNat, after.toNat, []) :: w.loops })
  else if b = 0 then w
  else
    let k := min word (b - 1)
    let stop : BitVec 32 := first + BitVec.ofNat 32 (b * l)
    let from_ : BitVec 32 := first + BitVec.ofNat 32 (k * l)
    let to_ : BitVec 32 := first + BitVec.ofNat 32 ((k + 1) * l)
    (w.skip to_ stop).skip first from_

/-- The scheduler has taken a record at a level: the search goes on behind its position (05 R82). -/
def takenAt (s : State) (pos level id : Nat) : State :=
  s.modHub (fun x => { x with last := sset x.last level pos, chosen := x.chosen.filter (fun i => i != id) })

/-- NODE_EVALUATE (05 R82, R84, R86): the chosen record, if it is the node at the head of the queue. Of a COND that is not 8-byte aligned the word that holds its address is read (log 71). -/
def execNodeEvaluate (q : Nat) (s : State) : Result :=
  match chosenOf s with
  | none => .next s
  | some (pos, level, h) =>
    if h.body.node == 0 || pos != q || s.hub.bootst != 1 then .next s
    else match readNow s hubEnd h.tctx (h.body.cond.toNat / 8 * 8) 8 with
      | (s, .error _) => .next (haltRecord s q 8 h)
      | (s, .ok b) => .next (takenAt ((releaseTag s h.id).modWq q (fun w => (nodeEffect w h.body (bytesNat b)).settle)) q level h.id)

/-! Placement (05 R82, R87-R89, 04 R64). -/

/-- PORCH.POS (04 R64). -/
def porchPos (t d c : Nat) : Word := BitVec.ofNat 64 (t * 2 ^ 32 + d * 256 + c)

/-- The index of a core along the group level (03 R57). -/
def groupIndex (r : Record) (c d : Nat) : Nat :=
  match groupLevel r with
  | none => 0
  | some g =>
    let w := (r.loop[g]?).getD 0
    let below := kindProduct (r.loop.take g) (levelKind w)
    (if levelKind w = 1 then c else d) / below % levelCount w

/-- The pad mask of a core: its 64 bits of a step's row-valid map (03 R57); all rows are real in another launch. -/
def padMaskOf (h : HeldRec) (c d : Nat) : BitVec 64 :=
  match h.step with
  | none => -1
  | some _ => BitVec.ofNat 64 (h.rows.toNat / 2 ^ (64 * groupIndex h.body c d))

/-- What a core gets with a placement: its porch, its allotment and area, its positions. -/
def placeCore (s : State) (src : Source) (h : HeldRec) (i : Nat) (p : Placement) : State :=
  let c := i % h.body.c
  let d := i / h.body.c
  let r : Running :=
    { launch := h.id, held := h, src := src, frame := p.frame, area := p.area, spneed := h.hdr.spneed, regs := p.regs, allot := h.hdr.allot
      wheelP := p.wheelP, wheelN := h.hdr.wheel, tctx := h.tctx, padmask := padMaskOf h c d, lat := h.hdr.lat, c := c, d := d, t := 0
      loaded := false, ready := false, started := false, complete := false, trigPending := [], trigSent := false, stampUsed := none
      jcount := 0, ring0 := [] }
  let s := s.modArch p.core (fun a => { a with
    run := some r
    csrs := { a.csrs with img := h.body.image, arg := h.body.args, recAddr := h.addr, pos := porchPos 0 d c, inlim := BitVec.ofNat 21 h.inlim } })
  s.modHub (fun x => { x with owners := x.owners ++ (wheelPositions h.hdr.wheel p.wheelP).map (fun w => (w, h.id)) })

/-- Applies f to each entry of a list with its index. -/
def foldIdx {α : Type} (f : State → Nat → α → State) : Nat → List α → State → State
  | _, [], s => s
  | i, a :: t, s => foldIdx f (i + 1) t (f s i a)

/-- The record leaves its source: a queue keeps it at its head until it is loaded; a pool entry is free. -/
def takeRecord (s : State) (src : Source) (h : HeldRec) : State :=
  match src with
  | .queue q => s.modWq q (fun w => { w with placing := true, loops := w.loops.map (fun l => (l.1, l.2.1, h.id :: l.2.2)) })
  | .pool d => s.modDie d (fun x => { x with pool := x.pool.filter (fun y => y.id != h.id) })

/-- A record is placed on a cohort. -/
def placeRecord (s : State) (src : Source) (level : Nat) (h : HeldRec) (cohort : List Placement) : State :=
  let s := foldIdx (fun s i p => placeCore s src h i p) 0 cohort s
  let s := takenAt (takeRecord s src h) (posOf src) level h.id
  s.modHub (fun x => { x with launches := x.launches ++ [⟨h.id, h, src, cohort, s.now, [], [], [], false, false, false⟩] })

/-- The parked launches of a core by number. -/
def parkedOf (s : State) (c id : Nat) : Option Parked := (s.arch c).parked.find? (fun p => p.run.launch == id)

/-- Blocks that a launch's cores in a cluster take on resume (23 R318). -/
def resumeBlocks (s : State) (l : Launch) (g : Nat) : Nat :=
  (l.cohort.filter (fun p => clusterOf p.core == g)).foldl (fun n p => n + (match parkedOf s p.core l.id with | some k => blocksOf k.seqs | none => 0)) 0

/-- The cores of a launch that have not completed it. -/
def coresLeft (l : Launch) : List Nat := (l.cohort.filter (fun p => !l.completed.contains p.core)).map (fun p => p.core)

/-- Every core of a parked launch that has not completed it is free for it, and so are blocks and positions (05 R89, R93, 23 R318). -/
def canResume (s : State) (l : Launch) : Bool :=
  l.parked && (coresLeft l).all (fun c => (s.run c).isNone && (s.core c).gate == .on && (s.core c).stop.isNone && (s.die (dieOf c)).power
    && decide (resumeBlocks s l (clusterOf c) ≤ (s.cluster (clusterOf c)).pantry))
  && wheelRoom s [] l.held.hdr.wheel (coresLeft l).length

/-- A pre-empted launch goes first: it could resume, and a new record of its own level waits for it (05 R93). -/
def resumeFirst (s : State) (level : Nat) : Bool := s.hub.launches.any (fun l => canResume s l && decide (level ≤ l.held.body.prio))

/-- RECORD_PLACE: the chosen record, on a cohort that can host it (05 R82, R88, 04 R62). -/
def execRecordPlace (src : Source) (cohort : List Placement) (s : State) : Result :=
  match chosenOf s with
  | none => .next s
  | some (pos, level, h) =>
    if s.hub.bootst = 1 ∧ h.body.node = 0 ∧ posOf src = pos ∧ cohortOk s h cohort = true ∧ resumeFirst s level = false then .next (placeRecord s src level h cohort)
    else .next s

/-! Loading (04 R65, R377, R378, 02 R33). -/

/-- A memory with a range cleared. -/
def memClear (m : Memory) (lo hi : Nat) : Memory := m.filter (fun p => !(decide (lo ≤ p.1) && decide (p.1 < hi)))

/-- Step 5 of R65: the registers of the allotment and the accumulator tiles are cleared; every block of them is written (07 R113). -/
def Core.clearUnits (k : Core) (regs : List Nat) : Core :=
  let k := (regs.foldl (fun k b => k.mark (vrfBlock + 64 * b) (vrfBlock + 64 * b + 64)) k).mark accBlock archBlock
  { k with
    vrf := k.vrf.filter (fun p => !regs.contains (p.1 / 32))
    poisonVrf := k.poisonVrf.filter (fun g => !regs.contains (g / 256))
    acc := [] }

/-- Steps 2 and 3 of R65: the instruction memories, the rest of each cleared (27 R363), and the area. -/
def Core.loadStreams (k : Core) (sc ld cp st : List Byte) : Core :=
  { k with imSc := memPutBytes [] 0 sc, imLd := memPutBytes [] 0 ld, imCp := memPutBytes [] 0 cp, imSt := memPutBytes [] 0 st, poisonIm := [] }
def Core.loadArea (k : Core) (area spneed : Nat) (data : List Byte) : Core :=
  let k := { k with spad := memClear k.spad area (area + spneed), poisonSpad := unmark k.poisonSpad k.mended 64 area spneed, mended := mend k.poisonSpad k.mended 64 area spneed }
  ({ k with spad := memPutBytes k.spad area data } : Core).mark (area / 256) ((area + spneed + 255) / 256)

/-- Launch-scope registers at their reset values (04 R377). -/
def Csrs.atLaunch (r : Csrs) : Csrs :=
  { r with paceLd := 0, paceCp := 0, paceSt := 0, pmbase := 0, pmcnt := 0, bhaddr := 0, rtbase := 0, rssize := 0, hkst := 0, hkz := 0, hkreq := none, rplive := 0 }

/-- The ring of a valid ring-table record, or none where R370 would ignore its CSRW (02 R33, 27 R370). A tile size or a base that R33's units do not divide is rounded down to them (log 85). -/
def ringOf (area spneed base bytes tile : Nat) (v : Bool) : Option Ring :=
  let basek := (base + area) / 1024
  if v ∧ tile / 512 ≠ 0 ∧ tile / 512 < 4096 ∧ bytes ≠ 0 ∧ bytes % (512 * (tile / 512)) = 0 ∧ bytes ≤ 2 ^ 20 ∧ area ≤ basek * 1024 ∧ basek * 1024 + bytes ≤ area + spneed
  then some { v := true, tileu := BitVec.ofNat 12 (tile / 512), bytes := BitVec.ofNat 21 bytes, basek := BitVec.ofNat 12 basek }
  else none

/-- The rings of overlay 7; an empty overlay sets none (02 R33). Of a table of another size than 256 bytes, the first 256 count, and missing ones are 0 (log 85). -/
def ringTable (area spneed : Nat) (b : List Byte) : Sparse Ring :=
  if b.isEmpty then []
  else (List.range 16).filterMap (fun n =>
    (ringOf area spneed (fieldAt b (16 * n) 4) (fieldAt b (16 * n + 4) 4) (fieldAt b (16 * n + 8) 4) (fieldAt b (16 * n + 12) 4 % 2 == 1)).map (fun r => (n, r)))

/-- An overlay's bytes, at most `most`: of a stream larger than its instruction memory, which no assembler makes (02 R33), the first bytes are loaded (log 85). -/
def readOverlay (s : State) (h : HeldRec) (i most : Nat) : State × Except FaultInfo (List Byte) :=
  let (off, n) := h.hdr.overlay i
  readBytes s hubEnd h.tctx ((h.body.image.toNat + off) % 2 ^ 64) (min n most)

/-- Overlays 0 to 4 and 7, in order; the first fault ends the reads. -/
def readOverlays (s : State) (h : HeldRec) : List (Nat × Nat) → List (List Byte) → State × Except FaultInfo (List (List Byte))
  | [], acc => (s, .ok acc)
  | (i, most) :: t, acc => match readOverlay s h i most with
    | (s, .error f) => (s, .error f)
    | (s, .ok b) => readOverlays s h t (acc ++ [b])

/-- The overlays that are read, and the room of each. -/
def overlayRoom (spneed : Nat) : List (Nat × Nat) :=
  [(0, Config.scImem), (1, Config.engImem), (2, Config.cpImem), (3, Config.engImem), (4, spneed), (7, 256)]

/-- The lowest core of a cohort. -/
def lowestCore (l : Launch) : Nat := l.cohort.foldl (fun m p => min m p.core) (match l.cohort.head? with | some p => p.core | none => 0)

/-- A failed load: the launch ends on every core, and is reported by its kind (05 R378). -/
def loadFailed (s : State) (l : Launch) (f : FaultInfo) : State :=
  match l.src, l.held.step with
  | .queue q, _ => killLaunch (haltRecord s q 8 l.held) l.id
  | .pool d, some _ =>
    let s := killLaunch s l.id
    let (s, _) := writeNow s d l.held.tctx (l.held.body.args.toNat + 20) (natBytes 1 8)
    stepFailed s d 8
  | .pool _, none => killLaunch (writeRecord s (lowestCore l) f.isw f.faddr 0 7 0 0 s.now) l.id

/-! The units that are saved lazily (05 R93): 12,288 blocks of the accumulator store, the depth counters, h0 to h15 and ht, b0 to b3. Where each lies in its frame of the global save area is the model's choice; a part that is 0 is not written (log 86). -/

/-- Parts of the units. -/
def unitParts : Nat := 12310
/-- Offset of a part in its frame, and its bytes. -/
def partOff (j : Nat) : Nat :=
  if j < 12288 then 256 * j else if j = 12288 then 3145728 else if j < 12306 then 3146752 + 1024 * (j - 12289) else 3178496 + 8192 * (j - 12306)
def partLen (j : Nat) : Nat := if j < 12288 then 256 else if j = 12288 then 128 else if j < 12306 then 1024 else 8192
/-- The value of a part. -/
def partVal (k : Core) (p : Cp) (j : Nat) : Nat :=
  if j < 12288 then (k.block (accBlock + j)).toNat
  else if j = 12288 then (List.range 64).foldl (fun n i => n + (sget {} k.acc i).depth.toNat * 2 ^ (16 * i)) 0
  else if j < 12305 then (sget 0 p.h (j - 12289)).toNat
  else if j = 12305 then p.ht.toNat
  else (sget 0 p.b (j - 12306)).toNat
/-- A part given a value. -/
def putPart (k : Core) (j v : Nat) : Core :=
  let cp (f : Cp → Cp) : Core := { k with arch := { k.arch with seqs := { k.arch.seqs with cp := f k.arch.seqs.cp } } }
  if j < 12288 then k.putBlock (accBlock + j) (BitVec.ofNat 2048 v)
  else if j = 12288 then { k with acc := (List.range 64).foldl (fun a i =>
      let d := BitVec.ofNat 16 (v / 2 ^ (16 * i))
      if d = 0 then a else sset a i { (sget {} a i) with depth := d }) k.acc }
  else if j < 12305 then cp (fun p => { p with h := sset p.h (j - 12289) (BitVec.ofNat 8192 v) })
  else if j = 12305 then cp (fun p => { p with ht := BitVec.ofNat 8192 v })
  else cp (fun p => { p with b := sset p.b (j - 12306) (BitVec.ofNat 65536 v) })

/-- The parts that may hold something: those of tiles in use, and all others. -/
def partsUsed (k : Core) : List Nat :=
  k.acc.flatMap (fun p => (List.range 192).map (fun j => 192 * p.1 + j)) ++ (List.range (unitParts - 12288)).map (fun i => 12288 + i)

/-- The frame of a core's launch in the global save area, and the key of its accesses (17 R293). -/
def saveFrame (s : State) (c f : Nat) : Nat := s.hub.savebase.toNat / 2 ^ 25 % 2 ^ 16 * 2 ^ 25 + 2 ^ 25 * c + 2 ^ 22 * f
def saveKey (s : State) : Nat := s.hub.savebase.toNat % 8192

/-- A part's place in the save area cannot be reached from the core: a dead link or a lost supply (25 R346, 26 R355). -/
def frameCut (s : State) (c f j : Nat) : Option FaultInfo := reachFault s (dieOf c) (.hbm (saveFrame s c f + partOff j) (saveKey s)) 0

/-- The units of a pre-empted launch are copied to its frame; a copy that is cut off is lost, which `unitParts` among the parts notes (log 88). -/
def saveUnits (s : State) (c : Nat) (p : Parked) : State :=
  let used := (partsUsed (s.core c)).filter (fun j => partVal (s.core c) p.seqs.cp j != 0)
  let lost := used.any (fun j => (frameCut s c p.run.frame j).isSome)
  let parts := if lost then [unitParts] else used
  let s := (if lost then [] else parts).foldl (fun s j => s.hbmWrite (saveKey s) (saveFrame s c p.run.frame + partOff j) (natBytes (partLen j) (partVal (s.core c) p.seqs.cp j))) s
  s.modArch c (fun a => { a with parked := a.parked.map (fun x => if x.run.launch = p.run.launch then { x with saved := some parts } else x) })

/-- The units of the launches pre-empted here, but one, are copied before another launch's are written (05 R93). -/
def lazySave (s : State) (c : Nat) (keep : Option Nat) : State :=
  ((s.arch c).parked.filter (fun p => p.saved.isNone && keep != some p.run.launch)).foldl (fun s p => saveUnits s c p) s

/-- The fault of units that cannot be read back: lost, cut off, or poisoned (25 R339, log 88). -/
def unitsFault (s : State) (c : Nat) (r : Running) (parts : List Nat) : Option FaultInfo :=
  if parts.contains unitParts then some (faultOf 0x08 6 0)
  else parts.findSome? (fun j => match frameCut s c r.frame j with
    | some f => some f
    | none => if s.hbmPoison (saveFrame s c r.frame + partOff j) (partLen j) then some (faultOf 0x08 8 0) else none)

/-- The units of a launch that were copied come back; every block of the accumulator store is written (07 R113). -/
def restoreUnits (s : State) (c : Nat) (r : Running) (parts : List Nat) : State :=
  let bytes (j : Nat) : Nat := bytesNat (s.hbmRead (saveKey s) (saveFrame s c r.frame + partOff j) (partLen j))
  let s := parts.foldl (fun s j => corrected s (.hbm (saveFrame s c r.frame + partOff j) (saveKey s)) (partLen j)) s
  s.modCore c (fun k =>
    let k := ({ k with acc := [], arch := { k.arch with seqs := { k.arch.seqs with cp := k.arch.seqs.cp.core } } } : Core)
    let table := (s.cp c).table
    let k := ({ k with arch := { k.arch with seqs := { k.arch.seqs with cp := { k.arch.seqs.cp with table := table } } } } : Core)
    ((parts.foldl (fun k j => putPart k j (bytes j)) k).mark accBlock archBlock).mark (archBlock + fieldBlocks + hBits) (archBlock + fieldBlocks + tableBits))

/-- Point 0 is loaded on a core. -/
def loadCore (s : State) (c : Nat) (r : Running) (bs : List (List Byte)) : State :=
  let b (i : Nat) : List Byte := (bs[i]?).getD []
  let s := lazySave s c none
  s.modCore c (fun k =>
    let k := (((k.loadStreams (b 0) (b 1) (b 2) (b 3)).loadArea r.area r.spneed (b 4)).clearUnits r.regs)
    let rings := ringTable r.area r.spneed (b 5)
    ({ k with arch := { k.arch with csrs := k.arch.csrs.atLaunch, seqs := { rings := rings, arrivals := k.arch.seqs.arrivals }, run := some { r with loaded := true, ring0 := rings } } }))

/-- Every core of the launch is loaded: the head of its queue passes (05 R80). -/
def loadedAll (s : State) (id : Nat) : State :=
  match s.launch id with
  | none => s
  | some l =>
    if l.loadedAll || !l.cohort.all (fun p => match s.run p.core with | some r => r.launch == id && r.loaded | none => false) then s
    else
      passRecord (s.modLaunch id (fun l => { l with loadedAll := true })) l

/-- OVERLAY_LOAD: the loader's steps for point 0 on a core (04 R65, R377). -/
def execOverlayLoad (c : Nat) (s : State) : Result :=
  match s.run c with
  | none => .next s
  | some r =>
    match s.launch r.launch with
    | none => .next s
    | some l =>
      if r.loaded || !coreLive s c then .next s
      else match readOverlays s l.held (overlayRoom r.spneed) [] with
        | (s, .error f) => .next (loadFailed s l f)
        | (s, .ok bs) => .next (loadedAll (loadCore s c r bs) r.launch)

/-! Points (04 R63, R66, R67, R377). -/

/-- The core is loaded for point t of the launch, or past it. -/
def loadedFor (s : State) (id c t : Nat) : Bool :=
  (match s.run c with | some r => r.launch == id && r.loaded && decide (t ≤ r.t) | none => false)
    || (match s.launch id with | some l => l.completed.contains c | none => true)

/-- Gang start: every core of the cohort in the cluster is loaded for the point (04 R67), and point 0 is loaded on every core of the cohort, since a load that fails ends the launch before any core issues (05 R378). -/
def gangReady (s : State) (c : Nat) (r : Running) : Bool :=
  match s.launch r.launch with
  | none => false
  | some l => l.loadedAll && (l.cohort.filter (fun p => clusterOf p.core == clusterOf c)).all (fun p => loadedFor s r.launch p.core r.t)

/-- Every core of the cohort in the cluster has been set up for the point, or is past it: the first of them may issue (04 R67). -/
def gangSet (s : State) (c : Nat) (r : Running) : Bool :=
  match s.launch r.launch with
  | none => true
  | some l => (l.cohort.filter (fun p => clusterOf p.core == clusterOf c)).all (fun p =>
      l.completed.contains p.core || (match s.run p.core with
        | some x => x.launch == r.launch && x.loaded && (decide (r.t < x.t) || (x.t == r.t && x.ready))
        | none => false))

/-- x1 to x3: the argument base, the global data, the area (02 R34). -/
def launchRegs (l : Launch) (c : Nat) (r : Running) : Word × Word × Word :=
  let (off, n) := l.held.hdr.overlay 6
  (l.held.body.args, if n = 0 then l.held.body.image else l.held.body.image + BitVec.ofNat 64 off, BitVec.ofNat 64 (hallAddr c r.area))

/-- An engine at the start of a point (15 R259); the gap to the last dequeue goes on (05 R91). -/
def Engine.atPoint (g : Engine) (x1 x2 x3 pos : Word) : Engine :=
  { cap := g.cap, enl := g.enl, lastDequeue := g.lastDequeue, e := [(0, x1), (1, x2), (2, x3), (3, pos)] }

/-- The CP at the start of a point: what R65 and R66 leave is kept. -/
def Cp.atPoint (p : Cp) : Cp :=
  { p with pc := 0, ctl := .seq, ending := false, status := .idle, wait := .none, rrb := 0, rotate := false, loops := [], repcnt := 0, rep := none
           pend := [], opens := [], pushes := [], mq := [], mflight := [], mqLast := none, paced := false, halted := false, fault := none, lastNum := 0, cn := 0, ahead := [], ready := 0 }

/-- Context 0 at the start of a point: it runs, if the SC has a stream (02 R33). -/
def Ctx.atPoint (t : Ctx) (runs : Bool) (x1 x2 x3 x4 x5 : Word) : Ctx :=
  { t with regs := [(1, x1), (2, x2), (3, x3), (4, x4), (5, x5)], pc := 0, status := if runs then .running else .dormant, wait := .none, busy := [], holds := 0, flag := false }

/-- The PHASE of each barrier: what every context has recorded at the start of a point (12 R198). -/
def Seqs.phasesNow (q : Seqs) : Sparse Bool := q.bars.map (fun p => (p.1, p.2.phase))

/-- The sequencers at the start of a point (04 R66, 12 R198, R204). -/
def Seqs.atPoint (q : Seqs) (runs : Bool) (x : Word × Word × Word) (pos rec_ : Word) (rings : Sparse Ring) : Seqs :=
  { q with
    ctxs := [0, 1, 2, 3].foldl (fun l k => sset l k { (sget {} l k) with phases := q.phasesNow })
      (sset (q.ctxs.map (fun p => (p.1, { p.2 with flag := false }))) 0 ((sget {} q.ctxs 0).atPoint runs x.1 x.2.1 x.2.2 pos rec_))
    ld := q.ld.atPoint x.1 x.2.1 x.2.2 pos, st := q.st.atPoint x.1 x.2.1 x.2.2 pos, cp := q.cp.atPoint
    fq := [], toks := q.toks.map (fun p => (p.1, { p.2 with count := 0 })), lnts := [], rings := rings, waitSince := none }

/-- POINT_START (04 R66, R67). -/
def execPointStart (c : Nat) (s : State) : Result :=
  match s.run c with
  | none => .next s
  | some r =>
    match s.launch r.launch with
    | none => .next s
    | some l =>
      if !r.loaded || r.ready || !coreLive s c || !gangReady s c r then .next s
      else
        let pos := porchPos r.t r.d r.c
        .next (s.modArch c (fun a => { a with
          seqs := a.seqs.atPoint ((r.held.hdr.overlay 0).2 != 0) (launchRegs l c r) pos a.csrs.recAddr r.ring0
          csrs := { a.csrs with pos := pos, hkz := 0 }
          run := some { r with ready := true, started := false, jcount := 0 } }))

/-- Nothing of the point is left to do on the core (04 R63, 16 R285): context 0 has executed EXIT, started engines have ended, handlers are dormant, no trap, arrival or hook is pending, and every access is performed. -/
def pointOver (s : State) (c : Nat) : Bool :=
  let q := s.seqs c
  (s.ctx c 0).status == .exited && [1, 2, 3].all (fun k => (s.ctx c k).status == .dormant)
    && [Eng.ld, Eng.cp, Eng.st].all (fun e => engStatus s c e != .running)
    && (s.arch c).btraps.isEmpty && q.arrivals.isEmpty && (s.arch c).csrs.hkreq.isNone
    && [0, 1, 2, 3].all (fun k => (ownAccesses s c k).isEmpty && (s.ctx c k).ops.isEmpty && (s.ctx c k).lngos.isEmpty && (s.ctx c k).barrivals.isEmpty)
    && !s.replies.any (fun r => r.core == c)

/-- The enlarged queues of a core are as at reset, their blocks back in the pantry (05 R95). -/
def Seqs.shrink (q : Seqs) : Seqs :=
  { q with toks := [], fqCap := 32, fqEnl := 0, ld := { q.ld with cap := 8, enl := 0 }, st := { q.st with cap := 8, enl := 0 }
           cp := { q.cp with mqCap := 8, mqEnl := 0 } }

/-- POINT_COMPLETE (04 R63): the next point's turn comes, or the core is free. -/
def execPointComplete (c : Nat) (s : State) : Result :=
  match s.run c with
  | none => .next s
  | some r =>
    if !r.ready || !coreLive s c || !pointOver s c then .next s
    else if r.t + 1 < r.held.body.t then
      .next ((giveBlocks s c (blocksOf (s.seqs c))).modArch c (fun a => { a with
        seqs := a.seqs.shrink, run := some { r with t := r.t + 1, ready := false, started := false } }))
    else
      let s := s.modLaunch r.launch (fun l => { l with completed := insertNat l.completed c })
      .next (launchOver (freeCore s c) r.launch)

/-! Pre-emption (05 R92, R93, 23 R318, 24 R338). -/

/-- The core runs the launch, and is not gated, stopped, halted or killed (07 R117, 24 R335, R338). -/
def runsFreely (s : State) (c id : Nat) : Bool :=
  (match s.run c with | some r => r.launch == id && r.loaded | none => false) && (s.core c).gate == .on && s.stopFree c
    && !(s.core c).killing && !(s.core c).dbg.halt && !(s.core c).dbg.stepping

/-- The core may be pre-empted: no slot of it is open or waits, and no boundary trap (05 R92). -/
def coreCandidate (s : State) (c id : Nat) : Bool :=
  runsFreely s c id && (s.arch c).slots.all (fun p => p.2.state == 0 || p.2.state == 3) && (s.arch c).btraps.isEmpty

/-- The launch may be pre-empted for a record: it runs, all its cores may be, and its priority is lower. -/
def victimOk (s : State) (h : HeldRec) (l : Launch) : Bool :=
  !l.parked && !l.leaving && l.loadedAll && decide (l.held.body.prio < h.body.prio) && l.cohort.all (fun p => l.completed.contains p.core || coreCandidate s p.core l.id)

/-- The launch that is pre-empted next: the lowest priority, then the latest start (05 R92, R83); one not yet started counts by its placement (log 87), and of two of one cycle the later of the list goes (log 94). -/
def victimOf (s : State) (h : HeldRec) : Option Launch :=
  (s.hub.launches.filter (victimOk s h)).foldl (fun b l => match b with
    | none => some l
    | some m => if l.held.body.prio < m.held.body.prio ∨ (l.held.body.prio = m.held.body.prio ∧ m.startedAt ≤ l.startedAt) then some l else some m) none

/-- The small state of a core goes into the launch's frame, and the core is free (05 R93). Accesses not yet performed are made again on resume, in program order, and an MMA waits at the head anew (24 R331). -/
def parkCore (s : State) (c : Nat) : State :=
  match s.run c with
  | none => s
  | some r =>
    let stores := s.accesses.filter (fun a => a.core == c && a.op.isStore)
    let seqs := (cutArch s c).seqs
    let seqs := { seqs with
      waitSince := none
      cp := { seqs.cp with mq := seqs.cp.mq.map (fun e => { e with readyAt := none }) }
      ctxs := seqs.ctxs.map (fun p => (p.1, { p.2 with wait := .none, waitFrom := 0, reissue := programOrder (p.2.reissue ++ stores.filter (fun a => a.ctx == p.1)) })) }
    let s := giveBlocks (leaveRings (leaveWalks s c) c) c (blocksOf seqs)
    let s := { s with accesses := s.accesses.filter (fun a => a.core != c), replies := s.replies.filter (fun x => x.core != c) }
    s.modArch c (fun a => { a with
      run := none, seqs := {}
      parked := a.parked ++ [⟨{ r with wheelP := 0 }, seqs, a.csrs, none⟩] })

/-- What step 2 of a pre-emption waits for at a core (05 R93): dequeued commands and matrix entries, a commit in progress (24 R338), and the core's stores of classes other than 15 (log 43). -/
def leaveHeld (s : State) (c : Nat) : Bool :=
  cutHeld s c || (s.core c).cutting || [0, 1, 2, 3].any (fun k => (s.ctx c k).wait == .commits) || !clocked s c
    || s.accesses.any (fun a => a.core == c && a.op.isStore && a.cls != 15)

/-- The cores of a launch leave it, or do so no more. -/
def setLeaving (v : Bool) (s : State) (c : Nat) : State := s.modCore c (fun k => { k with leaving := v })

/-- A core is left by a pre-empted launch: saved, and it may take another. -/
def leaveCore (s : State) (c : Nat) : State := setLeaving false (parkCore s c) c

/-- Step 3 of a pre-emption, once step 2 is done at every core of the launch (05 R93); a core that stops or is halted meanwhile is no candidate, and the launch goes on (24 R338). -/
def settleLeaving (s : State) (id : Nat) : State :=
  match s.launch id with
  | none => s
  | some l =>
    let cores := coresLeft l
    if !l.leaving then s
    else if !cores.all (fun c => runsFreely s c id) then (cores.foldl (setLeaving false) s).modLaunch id (fun l => { l with leaving := false })
    else if cores.any (leaveHeld s) then s
    else (((cores.foldl leaveCore s).modHub (fun x => { x with owners := x.owners.filter (fun o => o.2 != id) }))).modLaunch id
      (fun l => { l with leaving := false, parked := true })

/-- The pre-emptions under way go on. -/
def settlePreempts (s : State) : State := ((s.hub.launches.filter (fun l => l.leaving)).map (fun l => l.id)).foldl settleLeaving s

/-- The launches whose pre-emption is under way. -/
def leavingIds (s : State) : List Nat := (s.hub.launches.filter (fun l => l.leaving)).map (fun l => l.id)

/-- PREEMPT: the chosen record cannot be placed, not even once the launches that already leave are gone, pre-empting every candidate of lower priority would make room, and the launch is the first of them (05 R92). Its sequencers stop, and it is saved once its commands have finished (05 R93). -/
def execPreempt (id : Nat) (s : State) : Result :=
  match chosenOf s with
  | none => .next s
  | some (_, _, h) =>
    let gone := leavingIds s ++ (s.hub.launches.filter (victimOk s h)).map (fun l => l.id)
    match victimOf s h with
    | none => .next s
    | some l =>
      if l.id ≠ id ∨ h.body.node ≠ 0 ∨ canPlace s (leavingIds s) h = true ∨ canPlace s gone h = false then .next s
      else .next (settleLeaving (((coresLeft l).foldl (setLeaving true) s).modLaunch id (fun l => { l with leaving := true })) id)

/-- Overlays 0 to 3 of a launch, read again from the image at PORCH.IMG (26 R356). -/
def reloadStreams (s : State) (r : Running) (img : Word) : State × Except FaultInfo (List (List Byte)) :=
  readOverlays s { r.held with body := { r.held.body with image := img } } (List.take 4 (overlayRoom 0)) []

/-- The streams of a launch in a core's instruction memories. -/
def Core.streams (k : Core) (bs : List (List Byte)) : Core :=
  let b (i : Nat) : List Byte := (bs[i]?).getD []
  k.loadStreams (b 0) (b 1) (b 2) (b 3)

/-- A core takes its parked launch back (05 R93): its units and its instruction memories too, if another launch has been loaded since. -/
def unparkCore (s : State) (id c : Nat) (wheelP : Nat) : State × Option FaultInfo :=
  match parkedOf s c id with
  | none => (s, none)
  | some k =>
    let r := { k.run with wheelP := wheelP }
    match (match k.saved with | some _ => reloadStreams s r k.csrs.img | none => (s, .ok [])) with
    | (s, .error f) => (s, some f)
    | (s, .ok bs) => match unitsFault s c r (k.saved.getD []) with
    | some f => (s, some f)
    | none =>
      let s := if k.saved.isSome then lazySave s c (some id) else s
      let s := s.modCluster (clusterOf c) (fun g => { g with pantry := g.pantry - blocksOf k.seqs })
      let s := s.modCore c (fun x => { x with
        arch := { x.arch with
          parked := x.arch.parked.filter (fun p => p.run.launch != id), run := some r, seqs := k.seqs
          csrs := { k.csrs with dirtycap := x.arch.csrs.dirtycap, evc := x.arch.csrs.evc, evsel := x.arch.csrs.evsel } } })
      let s := match k.saved with
        | some parts => (restoreUnits s c r parts).modCore c (fun x => x.streams bs)
        | none => s
      let s := remake s c
      (s.modHub (fun x => { x with owners := x.owners ++ (wheelPositions r.wheelN wheelP).map (fun w => (w, id)) }), none)

/-- Cores take their parked launch back one after the other, up to a fault of a reload. -/
def unparkCores (s : State) (id : Nat) (pOf : Nat → Nat) : List Nat → State × Option FaultInfo
  | [] => (s, none)
  | c :: t => match unparkCore s id c (pOf c) with
    | (s, some f) => (s, some f)
    | (s, none) => unparkCores s id pOf t

/-- LAUNCH_RESUME: a parked launch takes its cores again, ahead of new records of its level, with new positions (05 R89, R93, 23 R318). A fault of a reload ends it as a pool launch's load does (log 88). -/
def execLaunchResume (id : Nat) (wheel : List (Nat × Nat)) (s : State) : Result :=
  match s.launch id with
  | none => .next s
  | some l =>
    let cores := coresLeft l
    let n := l.held.hdr.wheel
    let pOf (c : Nat) : Nat := sget 0 wheel c
    let wheelFits := n == 0 || (decide ((cores.map pOf).Nodup) && cores.all (fun c => decide (pOf c < wheelStep n) && wheelFree s n (pOf c)))
    let higher := match chosenOf s with
      | some (_, level, h) => decide (l.held.body.prio < level) && (h.body.node != 0 || canPlace s [] h)
      | none => false
    if !canResume s l || !wheelFits || higher then .next s
    else match unparkCores s id pOf cores with
      | (s, none) => .next (s.modLaunch id (fun l => { l with parked := false }))
      | (s, some f) => .next (killLaunch (writeRecord s (lowestCore l) f.isw f.faddr 0 7 0 0 s.now) id)

/-! Queue waits and the watchdog (05 R95, 23 R316-R321, 24 R331). -/

/-- The format-queue underflow of a core: its entry and DETAIL (24 R331). -/
def underflow (s : State) (c : Nat) : Option (MqEntry × Nat) :=
  match fqHeld s c with
  | none => none
  | some h =>
    if (s.ctx c 0).status != .running && [1, 2, 3].all (fun k => (s.ctx c k).status == .dormant) then some (h, 0)
    else match h.readyAt with
      | some t => if t + Config.watchdog ≤ s.coreTime c then some (h, 1) else none
      | none => none

/-- FQ_UNDERFLOW (24 R331). -/
def execFqUnderflow (c : Nat) (s : State) : Result :=
  match underflow s c with
  | some (h, d) => if coreLive s c then .next (mqTrap s c h.num h.pc (faultOf 5 d 0)) else .next s
  | none => .next s

/-- The queue that relief enlarges (23 R317). -/
def reliefQueue (s : State) (c : Nat) : Option Nat := smallestQueue s c ((fullWaited s c).filter (fun n => decide (queueEnl s c n < 4)))

/-- DEADLOCK_RELIEF (05 R95). -/
def execDeadlockRelief (c : Nat) (s : State) : Result :=
  match reliefQueue s c with
  | none => .next s
  | some n =>
    if waitedFor s c 256 && decide (0 < (s.cluster (clusterOf c)).pantry) && (underflow s c).isNone then
      .next (((enlarge s c n).modCluster (clusterOf c) (fun g => { g with pantry := g.pantry - 1 })).modSeqs c (fun q => { q with waitSince := none }))
    else .next s

/-- A stop of the core as a whole (23 R321). -/
def wholeStop (s : State) (c code detail queue : Nat) : State := takeStop s c 7 (code + 256 * detail + 2 ^ 20 * queue) 0 0 0 0

/-- QUEUE_DEADLOCK (23 R317, R321). -/
def execQueueDeadlock (c : Nat) (s : State) : Result :=
  if (underflow s c).isSome then .next s
  else match smallestQueue s c (fullWaited s c) with
    | none => .next (if waitedFor s c Config.watchdog then wholeStop s c 0x40 0 0 else s)
    | some q =>
      if !waitedFor s c 256 then .next s
      else if (reliefQueue s c).isNone then .next (wholeStop s c 0x40 2 q)
      else if (s.cluster (clusterOf c)).pantry = 0 then .next (wholeStop s c 0x40 1 q)
      else .next s

/-- A late reply that is given up: the first load on its way brings nothing (23 R320). -/
def dropLate (p : Cp) : Cp :=
  match p.pend.find? (fun x => x.load) with
  | some x => { p with pend := p.pend.erase x }
  | none => p

/-- FREEZE_TIMEOUT: a freeze that lasts 2^20 cycles, by a late reply or by the cap on dirty blocks, ends in a stop (23 R320, R321). Cycles are those of 1.2 GHz, whatever the rail of the cluster (log 89). An SRAM freeze lasts 24 cycles. -/
def execFreezeTimeout (c : Nat) (s : State) : Result :=
  match (s.arch c).freeze with
  | some f =>
    if f.cause ≠ .sram ∧ f.since + Config.watchdog ≤ s.now then
      let t := s.modArch c (fun a => { a with freeze := f.over })
      (match f.cause with
      | .dirtyCap => .next (wholeStop t c 0x41 1 0)
      | _ => .next (wholeStop (t.modCp c dropLate) c 0x41 0 0))
    else .next s
  | none => .next s

/-- BARRIER_IDLE: a BARW has waited 2^20 cycles, and its barrier's TARGET was 0 at its issue or at some time since (23 R320, R321). A halted core's watchdog does not run (24 R335). -/
def execBarrierIdle (c k : Nat) (s : State) : Result :=
  match (s.ctx c k).wait with
  | .barw n =>
    if coreLive s c && !(s.core c).dbg.halt && (s.ctx c k).status == .running && (s.ctx c k).barIdle && decide ((s.ctx c k).waitFrom + Config.watchdog ≤ s.coreTime c) then
      .next (wholeStop s c 0x42 n 0)
    else .next s
  | _ => .next s

end Sys2Proof.Machine
end

