-- ==== Sys2Proof/Machine/EvMessages.lean ====
section
/-! DEFINITION. Family: active messages (spec 25 R343-R344, 15 R277, 04 R69, 24 R338), hooks (09 R144, 23 R314), and the register writes RING_CONFIG_WRITE and BAR_WRITE (06 R106, R108, 27 R370). -/

namespace Sys2Proof.Machine

/-! SEND (25 R343). -/

/-- Arrivals that a running launch, and a pre-empted one, hold. -/
def arrivalRoom : Nat := 32
def parkedRoom : Nat := 16

/-- The launch of a context whose area holds n bytes at an offset of core c. -/
def areaOwner (s : State) (tctx c off n : Nat) : Option Nat :=
  let inArea (r : Running) : Bool := r.tctx == tctx && decide (r.area ≤ off) && decide (off + n ≤ r.area + r.spneed)
  match s.run c with
  | some r => if inArea r then some r.launch else ((s.arch c).parked.find? (fun p => inArea p.run)).map (fun p => p.run.launch)
  | none => ((s.arch c).parked.find? (fun p => inArea p.run)).map (fun p => p.run.launch)

/-- The launch runs on the core now. -/
def runsOn (s : State) (c id : Nat) : Bool := match s.run c with | some r => r.launch == id | none => false

/-- Arrivals that wait for a context of the launch, and messages to the core that are being written. -/
def arrivalsOf (s : State) (c id : Nat) : Nat :=
  (if runsOn s c id then (s.seqs c).arrivals.length else (match parkedOf s c id with | some p => p.seqs.arrivals.length | none => 0))
    + (s.messages.filter (fun m => decide (0 < m.done) && m.dst / Config.sliceBytes == c && m.handler != 0xFFFF)).length

/-- The slice answers retry-later (25 R343). -/
def retryLater (s : State) (m : Message) (c id : Nat) : Bool :=
  m.handler != 0xFFFF
    && (decide ((if runsOn s c id then arrivalRoom else parkedRoom) ≤ arrivalsOf s c id) || (!m.mark && (s.arch c).locks.contains m.core))

/-- An arrival joins its launch's. -/
def pushArrival (s : State) (c id : Nat) (a : Arrival) : State :=
  if runsOn s c id then s.modSeqs c (fun q => { q with arrivals := q.arrivals ++ [a] })
  else s.modArch c (fun x => { x with parked := x.parked.map (fun p => if p.run.launch = id then { p with seqs := { p.seqs with arrivals := p.seqs.arrivals ++ [a] } } else p) })

/-- x1 of a data arrival's handler. -/
def arrivalWord (m : Message) : Word := BitVec.ofNat 64 (2 + m.tag * 2 ^ 16 + m.core * 2 ^ 32)

/-- The sender's command once its message is accepted: PROG 1, and out of the replay queue (24 R328). -/
def sendAccepted (s : State) (m : Message) : State :=
  let s := s.modEng m.core .st (fun g => { g with replays := g.replays.filter (fun r => r.msg.cmd != m.cmd) })
  match findFlight s m.core .st m.cmd with
  | some k =>
    let k := { k with prog := 1, accessed := true }
    journalCmd (setFlight s m.core .st k) m.core .st k
  | none => s

/-- The sender's command faults (25 R339). -/
def sendFaulted (s : State) (m : Message) (f : FaultInfo) : State :=
  let s := s.modEng m.core .st (fun g => { g with replays := g.replays.filter (fun r => r.msg.cmd != m.cmd) })
  match findFlight s m.core .st m.cmd with
  | some k => cmdTrap s m.core .st k f
  | none => s

/-- An accepted message whose payload is written: its expert counts, its handler waits for a context, and its sender knows (15 R277). -/
def sendDone (s : State) (m : Message) (c id : Nat) : State :=
  let s := if m.mark then s.modArch c (fun a => { a with locks := a.locks.erase m.core }) else s
  let s := countLoad s (dieOf c) m.tag
  let s := if m.handler = 0xFFFF then s
    else pushArrival s c id ⟨id, m.handler, arrivalWord m, BitVec.ofNat 64 m.dst, BitVec.ofNat 64 m.bytes.length, 0xFFFF, s.now⟩
  sendAccepted s m

/-- SEND_ARRIVAL: the i-th message on its way reaches its slice: accepted, told to come later, or refused; an accepted one is written there, word by word (16 R281). Messages between two cores keep their order (25 R343, R344). -/
def execSendArrival (i : Nat) (s : State) : Result :=
  match s.messages[i]? with
  | none => .next s
  | some m =>
    let c := m.dst / Config.sliceBytes
    let off := m.dst % Config.sliceBytes
    let gone := { (leaveSlice s c (.message m.core m.cmd)) with messages := s.messages.eraseIdx i }
    if (s.messages.take i).any (fun x => x.core == m.core && x.dst / Config.sliceBytes == c) then .next s
    else match reachFault s (dieOf m.core) (.slice c off) m.dst with
    | some f => .next (sendFaulted gone m f)
    | none =>
      if pathIn s (dieOf m.core) (dieOf c) 2 then .next s
      else if !sliceUp s c then .next (arriveAt s c (.message m.core m.cmd))
      else if !mayReach s c (.message m.core m.cmd) then .next s
      else match hallRefuse s m.tctx c off m.bytes.length, areaOwner s m.tctx c off m.bytes.length with
        | none, some id =>
          if m.done = 0 && retryLater s m c id then
            .next { (gone.modArch c (fun a => { a with locks := insertNat a.locks m.core })) with retries := s.retries ++ [m] }
          else
            let n := stepLen (m.dst + m.done) (m.bytes.length - m.done) 1
            let t := (if m.done + n < m.bytes.length then { s with messages := s.messages.set i { m with done := m.done + n } } else gone).spadWrite c (off + m.done) (slice m.bytes m.done n)
            .next (if m.done + n < m.bytes.length then t else sendDone t m c id)
        | some d, _ => .next (sendFaulted gone m (faultOf 0x08 d m.dst))
        | none, none => .next (sendFaulted gone m (faultOf 0x08 2 m.dst))

/-- DATA_ARRIVAL_DISPATCH: the oldest arrival takes the lowest dormant context, unless a boundary trap at least as old is ready (04 R69). -/
def execDataArrivalDispatch (c : Nat) (s : State) : Result :=
  match (s.seqs c).arrivals, dormantHandler s c, s.run c with
  | a :: rest, some k, some r =>
    let older := match boundaryReady s c with | some (_, t) => decide (t.at_ ≤ a.at_) | none => false
    if !coreLive s c || !r.ready || older then .next s
    else
      .next (startHandler (s.modSeqs c (fun q => { q with arrivals := rest })) c k (BitVec.ofNat 64 a.handler) a.x1 a.dst a.bytes a.x4 none none)
  | _, _, _ => .next s

/-- Entries of ST's replay queue, and the first and the last backoff (25 R344). -/
def firstBackoff : Nat := 256
def lastBackoff : Nat := 16384

/-- The replay queue after a retry-later reply: a new message joins at its end, and one refused again goes back to its head, behind those to the same core that were sent before it (25 R344, log 91). -/
def retryEntry (t : Nat) (m : Message) (l : List Replay) : List Replay :=
  match l.find? (fun r => r.msg.cmd == m.cmd) with
  | some r =>
    let b := if r.backoff = 0 then firstBackoff else min lastBackoff (2 * r.backoff)
    let rest := l.filter (fun x => x.msg.cmd != m.cmd)
    let before (x : Replay) : Bool := x.msg.dst / Config.sliceBytes == m.dst / Config.sliceBytes && decide (x.msg.cmd < m.cmd)
    rest.takeWhile before ++ { r with due := t + b, backoff := b, out := false } :: rest.dropWhile before
  | none => l ++ [⟨{ m with mark := true }, t + firstBackoff, firstBackoff, false⟩]

/-- RETRY_LATER_RECEIVE: the i-th reply reaches its ST, behind those that the same core sent it before; the command counts as waiting before its first access (25 R344). -/
def execRetryLaterReceive (i : Nat) (s : State) : Result :=
  match s.retries[i]? with
  | none => .next s
  | some m =>
    if (s.retries.take i).any (fun x => x.core == m.core && x.dst / Config.sliceBytes == m.dst / Config.sliceBytes) then .next s
    else
    let s := { s with retries := s.retries.eraseIdx i }
    match findFlight s m.core .st m.cmd with
    | none => .next s
    | some k =>
      let s := setFlight s m.core .st { k with accessed := false }
      .next (s.modEng m.core .st (fun g => { g with replays := retryEntry (s.coreTime m.core) m g.replays }))

/-- REPLAY_BACKOFF_EXPIRY: the head of ST's replay queue is sent again with the replay mark, and behind it the messages to the same core (25 R344). -/
def execReplayBackoffExpiry (c : Nat) (s : State) : Result :=
  match (s.eng c .st).replays with
  | [] => .next s
  | h :: _ =>
    if h.out || !coreLive s c || (s.eng c .st).halted || decide (s.coreTime c < h.due) then .next s
    else
      let same (r : Replay) : Bool := !r.out && r.msg.dst / Config.sliceBytes == h.msg.dst / Config.sliceBytes
      let sent := ((s.eng c .st).replays.filter same).map (fun r => { r.msg with mark := true })
      let s := s.modEng c .st (fun g => { g with
        replays := g.replays.map (fun r => if same r then { r with out := true } else r)
        flight := g.flight.map (fun k => if sent.any (fun m => m.cmd == k.num) then { k with accessed := true } else k) })
      .next { s with messages := s.messages ++ sent }

/-! Packets of other modules (17 R297). -/

/-- An answer leaves by the port that the packet came by. -/
def answerParcel (s : State) (p : Parcel) (f : Option FaultInfo) : State :=
  s.modHub (fun h => { h with outbound := h.outbound ++ [{ p with packet := .ack f }] })

/-- A pool's descriptor (06 R110): its pages, their size and number, and its counts. -/
structure Pool where
  base : Nat
  size : Nat
  count : Nat
  rc : Nat
deriving DecidableEq, Repr

/-- The descriptor in 32 bytes. -/
def poolOf (b : List Byte) : Pool := ⟨fieldAt b 0 8, fieldAt b 8 4, fieldAt b 12 4, fieldAt b 16 8⟩

/-- The import context of a module (17 R297). -/
def importOf (s : State) (m : Nat) : Nat := sget 0 s.hub.imports m

/-- The page copy that a packet belongs to. -/
def ImportPage.of (y : ImportPage) (p : Parcel) : Bool := y.module_ == p.module_ && y.core == p.core && y.e == p.e && y.cmd == p.cmd

/-- The packet is done: its answer leaves, and after a fault, or the last of its copy, what was found of the page is dropped. -/
def endInbound (s : State) (i : Nat) (p : Parcel) (last : Bool) (f : Option FaultInfo) : State :=
  answerParcel (s.modHub (fun h => { h with
    inbound := h.inbound.eraseIdx i
    importing := if last || f.isSome then h.importing.filter (fun y => !y.of p) else h.importing })) p f

/-- The i-th packet as it stands now. -/
def setInbound (s : State) (i : Nat) (x : Inbound) : State := s.modHub (fun h => { h with inbound := h.inbound.set i x })

/-- The next word of the pool's descriptor (16 R281). -/
def importPool (s : State) (i : Nat) (x : Inbound) (pool : Nat) : State :=
  match readNow s hubEnd (importOf s x.parcel.module_) (pool + x.got.length) 8 with
  | (s, .error f) => endInbound s i x.parcel false (some f)
  | (s, .ok b) => setInbound s i { x with got := x.got ++ b }

/-- The next step of a copy from another module (15 R276, 17 R297, 28 R375): its descriptor and the checks, the place of each 64 KiB page of page D, all of them before the first write, and then its bytes, word by word. -/
def importCopy (s : State) (i : Nat) (x : Inbound) (pool page size off : Nat) (bytes : List Byte) : State :=
  let tctx := importOf s x.parcel.module_
  match s.hub.importing.find? (fun y => y.of x.parcel) with
  | none =>
    let d := poolOf x.got
    if x.got.length < 32 then importPool s i x pool
    else if d.count ≤ page ∨ d.size ≠ size then endInbound s i x.parcel true (some (faultOf 0x04 3 0))
    else s.modHub (fun h => { h with importing := h.importing ++ [⟨x.parcel.module_, x.parcel.core, x.parcel.e, x.parcel.cmd, tctx, d.base + page * size, size, []⟩] })
  | some y =>
    let va := y.base + off + x.done
    let n := min (stepLen va (bytes.length - x.done) 1) (pagePiece va 8)
    if y.locs.length < pageCount y.base y.size then
      (match locateNow s hubEnd y.tctx (pageStart y.base y.locs.length) true with
      | (s, .error f) => endInbound s i x.parcel true (some f)
      | (s, .ok l) => s.modHub (fun h => { h with importing := h.importing.map (fun z => if z.of x.parcel then { z with locs := z.locs ++ [l] } else z) }))
    else match reached s hubEnd va (placeIn y.locs y.base va) with
      | (s, .error f) => endInbound s i x.parcel true (some f)
      | (s, .ok l) => match homeRefuse s y.tctx l n va with
        | some f => endInbound s i x.parcel true (some f)
        | none =>
          let s := s.locWrite l (slice bytes x.done n)
          if x.done + n < bytes.length then setInbound s i { x with done := x.done + n }
          else endInbound s i x.parcel (decide (size ≤ off + bytes.length)) none

/-- The next step of a count update, or of a check, that another module sends: the descriptor, and 1 is added to the page's count at its home. -/
def importInc (s : State) (i : Nat) (x : Inbound) (pool page : Nat) (inc : Bool) : State :=
  let tctx := importOf s x.parcel.module_
  let d := poolOf x.got
  let va := d.rc + 4 * page
  if x.got.length < 32 then importPool s i x pool
  else if d.count ≤ page then endInbound s i x.parcel false (some (faultOf 0x04 3 0))
  else if !inc then endInbound s i x.parcel false none
  else if va % 4 ≠ 0 then endInbound s i x.parcel false (some (faultOf 0x06 2 va))
  else match locateNow s hubEnd tctx va true with
    | (s, .error f) => endInbound s i x.parcel false (some f)
    | (s, .ok l) => match homeRefuse s tctx l 4 va with
      | some f => endInbound s i x.parcel false (some f)
      | none =>
        if s.locPoison l 4 then endInbound s i x.parcel false (some (faultOf 0x08 8 va))
        else endInbound (addWords (corrected s l 4) l false (natBytes 4 1)) i x.parcel false none

/-- The unit of a KVCP that updates the count of its destination (15 R276). -/
def incUnit (k : Cmd) : Option Nat :=
  match k.op with
  | .kvcp _ _ true cpy => some (2 + (if cpy then (descSize k 0 + copyUnit - 1) / copyUnit else 0))
  | _ => none

/-- An answer to what a command has sent: it waits for one less; a fault of the far module is the command's; and a count update that is acknowledged is performed (24 R328). -/
def takeAck (s : State) (p : Parcel) (f : Option FaultInfo) : State :=
  match findFlight s p.core p.e p.cmd with
  | none => s
  | some k =>
    if !k.acks.contains p.port || k.faulted.isSome then s
    else
      let k := { k with acks := k.acks.erase p.port }
      match f with
      | some f => cmdTrap s p.core p.e k f
      | none =>
        let done := match incUnit k with | some u => k.acks.isEmpty && decide (u < k.pos / 2) | none => false
        if done then
          let k := { k with prog := k.prog ||| 1 }
          journalCmd (setFlight s p.core p.e k) p.core p.e k
        else setFlight s p.core p.e k

/-- A packet of another module arrives over a port that is up (17 R297): an answer is taken, and anything else is worked on from now; the first of a copy begins it anew. -/
def takeParcel (s : State) (p : Parcel) : State :=
  if (s.link (.port p.port)).state ≠ 1 then s
  else match p.packet with
    | .ack f => takeAck s p f
    | .copy _ _ _ off _ => s.modHub (fun h => { h with
        inbound := h.inbound ++ [⟨p, [], 0⟩]
        importing := if off = 0 then h.importing.filter (fun y => !y.of p) else h.importing })
    | _ => s.modHub (fun h => { h with inbound := h.inbound ++ [⟨p, [], 0⟩] })

/-- The hub goes on with the i-th packet that has arrived; the packets of one engine are taken in their order. -/
def inboundNext (s : State) (i : Nat) : State :=
  match s.hub.inbound[i]? with
  | none => s
  | some x =>
    if (s.hub.inbound.take i).any (fun y => y.parcel.module_ == x.parcel.module_ && y.parcel.core == x.parcel.core && y.parcel.e == x.parcel.e) then s
    else match x.parcel.packet with
      | .copy pool page size off bytes => importCopy s i x pool page size off bytes
      | .inc pool page => importInc s i x pool page true
      | .check pool page => importInc s i x pool page false
      | .ack _ => s

/-! Hooks (09 R144, 23 R314). -/

/-- HKST takes a value; a change sets every event flag of the core (12 R204). -/
def putHkst (s : State) (c : Nat) (v : Word) : State :=
  if (s.arch c).csrs.hkst = v then s else setFlags (s.modCsrs c (fun r => { r with hkst := v })) c none

/-- HKSTART_WRITE: a hook is asked for, with HKZ as it is now; ignored while one waits or runs (09 R144). -/
def execHkstartWrite (c k : Nat) (s : State) : Result :=
  .next (csrwStep (fun n _ => n == 0x031) (fun _ v s =>
    if hookActive s c then s else putHkst (s.modCsrs c (fun r => { r with hkreq := some (v, r.hkz) })) c 0) c k s)

/-- HBUDGET and HOOK of a request state block (09 R137). -/
def hookEntry (s : State) (d tctx : Nat) (block : Word) : State × Except FaultInfo (Nat × Nat) :=
  match readNow s d tctx ((block.toNat + 0x2C) % 2 ^ 64) 4 with
  | (s, .error f) => (s, .error f)
  | (s, .ok b) => match readNow s d tctx ((block.toNat + 0x30) % 2 ^ 64) 8 with
    | (s, .error f) => (s, .error f)
    | (s, .ok h) => (s, .ok (bytesNat b, bytesNat h))

/-- HOOK_START: the lowest dormant handler context starts at HOOK with x1 to x3 (09 R144); a block that cannot be read traps the hook. Its x4 keeps what it held: the model's choice (log 94). -/
def execHookStart (c : Nat) (s : State) : Result :=
  match (s.arch c).csrs.hkreq, dormantHandler s c with
  | some (v, z), some k =>
    if !coreLive s c then .next s
    else
      let s := s.modCsrs c (fun r => { r with hkreq := none })
      match hookEntry s (dieOf c) (s.tctx c) v with
      | (s, .error _) => .next (putHkst s c 2)
      | (s, .ok (budget, pc)) =>
        .next (startHandler s c k (BitVec.ofNat 64 pc) 3 z v ((s.ctx c k).x 4) none (some (budget, false)))
  | _, _ => .next s

/-- The running hook of a core whose budget is used up. -/
def hookSpent (s : State) (c : Nat) : Option Nat :=
  [1, 2, 3].find? (fun k => (s.ctx c k).status == .running && (s.ctx c k).hook == some (0, true))

/-- HOOK_BUDGET_EXPIRY (23 R314). -/
def execHookBudgetExpiry (c : Nat) (s : State) : Result :=
  match hookSpent s c with
  | some k => .next (if coreLive s c && !(s.core c).dbg.halt then hookStop s c k 3 else s)
  | none => .next s

/-! Rings and barriers (06 R106, R108, 27 R370). -/

/-- The command names ring n of core c: its own ring, or as a target of MCAST. -/
def namesRing (c n owner : Nat) (k : Cmd) : Bool :=
  k.started && !k.finished && (match k.op with
    | .tile _ _ | .drain _ _ _ | .gath _ _ | .scat _ _ _ _ _ => owner == c && k.ringNo == n
    | .mcast _ => k.ringNo == n && k.targets.any (fun t => t.1 == c)
    | _ => false)

/-- A started command names the ring. -/
def ringNamed (s : State) (c n : Nat) : Bool :=
  (List.range 8).any (fun i =>
    let o := clusterOf c * 8 + i
    (s.eng o .ld).flight.any (namesRing c n o) || (s.eng o .st).flight.any (namesRing c n o))
  || (s.cp c).mflight.any (fun r => match r.entry.op with | .mma _ _ a b => a == n || b == n | _ => false)

/-- The ring that a written word describes, with its pointers clear. -/
def ringWord (v : Word) : Ring :=
  { v := v.getLsbD 63, tileu := BitVec.ofNat 12 (v.toNat / 2 ^ 48), bytes := BitVec.ofNat 21 (v.toNat / 2 ^ 22), basek := BitVec.ofNat 12 (v.toNat / 2 ^ 10) }

/-- R370: a write with V = 1 that is ignored. -/
def ringRefused (s : State) (c : Nat) (r : Ring) : Bool :=
  r.v && (r.tileu == 0 || r.bytes == 0 || r.bytes.toNat % (512 * r.tileu.toNat) != 0 || decide (2 ^ 20 < r.bytes.toNat)
    || decide (r.basek.toNat * 1024 < areaOf s c) || decide (areaOf s c + spneedOf s c < r.basek.toNat * 1024 + r.bytes.toNat))

/-- RING_CONFIG_WRITE (06 R106, 27 R370). -/
def execRingConfigWrite (c k : Nat) (s : State) : Result :=
  .next (csrwStep (fun n _ => decide (0x040 ≤ n) && decide (n < 0x050)) (fun n v s =>
    let r := s.ring c (n - 0x040)
    if decide (r.head < r.tail) || ringNamed s c (n - 0x040) || ringRefused s c (ringWord v) then s
    else s.modRing c (n - 0x040) (fun _ => ringWord v)) c k s)

/-- A TARGET of 0 is noted by the contexts that wait on the barrier (23 R320). -/
def noteIdle (s : State) (c n : Nat) (target : BitVec 16) : State :=
  [0, 1, 2, 3].foldl (fun s k => if target == 0 && (s.ctx c k).wait == .barw n then s.modCtx c k (fun t => { t with barIdle := true }) else s) s

/-- BAR_WRITE (06 R108). -/
def execBarWrite (c k : Nat) (s : State) : Result :=
  .next (csrwStep (fun n _ => decide (0x060 ≤ n) && decide (n < 0x068)) (fun n v s =>
    let target : BitVec 16 := BitVec.ofNat 16 (v.toNat / 2 ^ 32)
    noteIdle (s.modBar c (n - 0x060) (fun b => { b with target := target, count := 0 })) c (n - 0x060) target) c k s)

end Sys2Proof.Machine
end

