-- ==== Sys2Proof/Machine/EvPower.lean ====
section
/-! DEFINITION. Family: the cellar's trickle, gates, rails, power loss and return (spec 07 R113-R118, 01 R13, 26 R354-R358). An event that is not enabled leaves the state as it is. -/

namespace Sys2Proof.Machine

/-! The trickle (07 R113, R115). -/

/-- TRICKLE_WRITE: the lowest dirty block is written to its copy; a dirty-cap freeze ends once no more are dirty than the cap allows. The trickle stands still with the cluster's clock (07 R118). -/
def execTrickleWrite (c : Nat) (s : State) : Result :=
  match (s.core c).dirtyBlocks with
  | [] => .next s
  | b :: _ =>
    if (s.core c).gate != .on || (s.cluster (clusterOf c)).busy then .next s
    else .next (s.modCore c (fun k =>
      let k := ((k.noteOther k.other).trickle k.other b).capSettle
      if k.cellar.cap < k.dirtyCount then k else { k with arch := k.arch.thaw }))

/-! Gates (07 R117). -/

/-- Cycles of a wake: power, and the read-back of 33,728 blocks. -/
def wakeCycles : Nat := 240 + 33728

/-- The accesses that a gated or lost core has outstanding are given up: what must be made again is saved in its contexts. -/
def dropAccesses (s : State) (c : Nat) : State :=
  { s with accesses := s.accesses.filter (fun a => a.core != c), replies := s.replies.filter (fun r => r.core != c) }

/-- The gate: the commit of R114, then the core is off. -/
def gateCore (s : State) (c : Nat) : State := (dropAccesses (commitCore s c 0) c).modCore c (fun k => { k with gate := .off })

/-- Something of the core has still to be done before its gate: a command, or a store on its way. -/
def gateHeld (s : State) (c : Nat) : Bool := cutHeld s c || s.accesses.any (fun a => a.core == c && a.op.isStore)

/-- CORE_GATE: a CSRW of 1 to CGATE (07 R117). Until the cut can be taken, nothing issues (07 R114 step 1). -/
def execCoreGate (c k : Nat) (s : State) : Result :=
  match readyCsrw s c k with
  | some (n, v) =>
    if n = 0x02A ∧ v.getLsbD 0 = true ∧ (s.core c).gate = .on ∧ s.stopFree c = true ∧ (s.core c).killing = false ∧ clocked s c = true then
      if gateHeld s c then .next (askCut s c) else .next (gateCore (popOp s c k) c)
    else .next s
  | none => .next s

/-- A command of an engine of core o goes to the slice of core c next, or a multicast of it is to start there. -/
def cmdHeads (s : State) (o c : Nat) (k : Cmd) : Bool :=
  !k.finished && k.faulted.isNone && (if k.started then
      !accessesDone s o k && (let u := unitOf s o k (k.pos / 2)
        if k.pos % 2 = 0 then srcHome s o u.1 == some c else (dstHomes s o u.2).contains c)
    else (match k.op with | .mcast _ => (mcastCores o k).contains c | _ => false))

/-- An arrival at a barrier of core c is on its way (12 R198). -/
def barrierHeads (s : State) (o c : Nat) : Bool :=
  sliceUp s o && [0, 1, 2, 3].any (fun k => (s.ctx o k).barrivals.any (fun a => a.2.1 == c && accessesPast s o k a.1))

/-- A hall-space access has arrived at the slice of a core that is off, or is on its way to it: of a context, of an engine, of a barrier; or of a unit of a die, the hub or the host, which has arrived (07 R117). -/
def accessWaits (s : State) (c : Nat) : Bool :=
  s.arrived.any (fun p => p.1 == c && (p.2 == .other || partyWaits s p.2))
  || s.accesses.any (fun a => a.core != c && a.loc.home == c)
  || s.cores.any (fun p => p.1 != c && ((s.eng p.1 .ld).flight.any (cmdHeads s p.1 c) || (s.eng p.1 .st).flight.any (cmdHeads s p.1 c) || barrierHeads s p.1 c))

/-- The scheduler has a point to place on the core: the next one of its launch, or a record that no core that is on may take (07 R117). -/
def placementWaits (s : State) (c : Nat) : Bool :=
  match s.run c with
  | some r => !r.ready
  | none => match chosenOf s with
    | some (_, _, h) => h.body.node == 0 && !canPlace s [] h
    | none => false

/-- The cause of a wake is there (07 R117). The host's cause is its write of the wake register, which this turn then stands for. -/
def wakeCause (s : State) (c : Nat) : WakeCause → Bool
  | .access => accessWaits s c
  | .arrival => s.messages.any (fun m => m.dst / Config.sliceBytes == c)
  | .placement => placementWaits s c
  | .host => true

/-- A core may leave its reset: its die has power, and the boot has been accepted (17 R298, 26 R357). -/
def mayWake (s : State) (c : Nat) : Bool := (s.die (dieOf c)).power && s.hub.bootst == 1

/-- A gated core begins to wake. -/
def wakeCore (s : State) (c : Nat) : State := s.modCore c (fun k => { k with gate := .waking (s.now + wakeCycles) })

/-- CORE_WAKE (07 R117). -/
def execCoreWake (c : Nat) (cause : WakeCause) (s : State) : Result :=
  if (s.core c).gate = .off ∧ mayWake s c = true ∧ wakeCause s c cause = true then .next (wakeCore s c) else .next s

/-- A core goes on from the state it selected: invalidations that have ended meanwhile are done, and what was cut short is made again (24 R329), of a stopped core by its RESUME (24 R334). -/
def goOn (s : State) (c : Nat) : State :=
  let ids := s.invals.map (fun v => v.id)
  let s := s.modSeqs c (fun q => { q with ctxs := q.ctxs.map (fun p => (p.1, { p.2 with invals := p.2.invals.filter (fun i => ids.contains i) })) })
  if (s.core c).stop.isSome then s else remake s c

/-- WAKE_COMPLETE: the newest complete commit is read back, and the core resumes (07 R117). -/
def execWakeComplete (c : Nat) (s : State) : Result :=
  match (s.core c).gate with
  | .waking t =>
    if t ≤ s.now then
      let t := goOn (s.modCore c (fun k =>
        let k' := k.select k.cellar.selectGen
        { k' with gate := .on, cellar := { k'.cellar with state := k.cellar.state } })) c
      .next { t with arrived := t.arrived.filter (fun p => p != (c, .other)) }
    else .next s
  | _ => .next s

/-! Rails (01 R13, 07 R118). -/

/-- A switch to a rail: the cluster's clocks are held. -/
def startSwitch (s : State) (g : Nat) (sel : Bool) : State := s.modCluster g (fun x => { x with sel := sel, busy := true, switchAt := s.now, waiting := none })

/-- RAIL_SWITCH_START: a write of CLRAIL that changes SEL; during a switch it waits (07 R118, 01 R13). Of several that arrive during one switch the last is the one that takes effect after it: the model's choice (log 94). -/
def execRailSwitchStart (c k : Nat) (s : State) : Result :=
  .next (csrwStep (fun n _ => n == 0x100) (fun _ v s =>
    let g := clusterOf c
    if (s.cluster g).busy then s.modCluster g (fun x => { x with waiting := some (v.getLsbD 0) })
    else if (s.cluster g).sel = v.getLsbD 0 then s
    else startSwitch s g (v.getLsbD 0)) c k s)

/-- A cluster's rail switch completes; a request that waits takes effect then (01 R13). -/
def endSwitch (s : State) (g : Nat) : State :=
  let x := s.cluster g
  if !x.busy then s
  else match x.waiting with
    | some v => if v = x.sel then s.modCluster g (fun x => { x with busy := false, waiting := none }) else startSwitch s g v
    | none => s.modCluster g (fun x => { x with busy := false })

/-- RAIL_SWITCH_DONE (01 R13). -/
def execRailSwitchDone (g : Nat) (s : State) : Result := .next (endSwitch s g)

/-- A switch completes within 24 cycles of 1.2 GHz (01 R13). -/
def boundSwitches (s : State) : State :=
  (s.clusters.map (fun p => p.1)).foldl (fun s g => if (s.cluster g).busy && decide ((s.cluster g).switchAt + 24 ≤ s.now) then endSwitch s g else s) s

/-! Power loss (26 R355). -/

/-- The effect of the window on an access of a core that is not performed within it, or whose reply misses it (26 R355): a store is lost, a returning atomic too with all ones for its result, a load is made again. -/
def missWindow (s : State) (a : Access) : State :=
  let rec_ (t : Ctx) : Ctx := { t with fails := t.fails ++ [⟨a.cls, a.loc.home, true⟩] }
  let lost (t : Ctx) : Ctx := { ((rec_ t).setX a.xd 0xFFFFFFFFFFFFFFFF) with busy := t.busy.erase a.xd, holds := if a.hold then t.holds - 1 else t.holds }
  if a.ctx < 4 then
    match a.op with
    | .store _ => s.modCtx a.core a.ctx rec_
    | .atomic _ _ _ ret => s.modCtx a.core a.ctx (if ret then lost else rec_)
    | .dqpush _ | .dqtake | .dqsteal => s.modCtx a.core a.ctx lost
    | .load _ | .lntw _ => s.modCtx a.core a.ctx (fun t => { t with reissue := t.reissue ++ [a] })
  else s

/-- Steps 1 and 2 of the hold-up for a core (26 R355): its sequencers stop, its queues dequeue no more, started matrix entries finish, a running command is held as it stands. A stop under way takes effect, and a KILL. EXH tells of this loss; a core that is still held keeps that of the loss before, and a gated core keeps its commit. -/
def holdupStart (s : State) (c : Nat) : State :=
  match (s.core c).gate with
  | .held | .holdup => s
  | .off | .waking _ => s.modCore c (fun k => { k with gate := .off, cellar := { k.cellar with exh := false } })
  | .on =>
    let s := drainMatrix s c 16
    let s := match (s.core c).stopping with | some p => finishStop s c p | none => s
    settleKill (s.modCore c (fun k => { k with gate := .holdup, cutting := false, leaving := false, cellar := { k.cellar with exh := false }, arch := { k.arch with freeze := none } })) c

/-- The cores of a die. -/
def coresOf (d : Nat) : List Nat := (List.range 64).map (fun i => 64 * d + i)

/-- POWER_LOSS: the supply of a die fails (26 R355): its clusters switch to the high rail, its cores begin the hold-up sequence, and the window for accesses in flight opens. -/
def execPowerLoss (d : Nat) (s : State) : Result :=
  if !(s.die d).power || (s.die d).holdup.isSome then .next s
  else
    let s := { s with clusters := s.clusters.map (fun p => if p.1 / 8 = d then (p.1, { p.2 with sel := false, busy := false, waiting := none }) else p) }
    .next (((coresOf d).foldl holdupStart s).modDie d (fun x => { x with holdup := some s.now }))

/-- What a die loses with its supply beside its cores: its registers and queues, its stacks' contents, its clusters' rails and pantries. -/
def loseDie (s : State) (d : Nat) : State :=
  let inStack (a : Nat) : Bool := a / 2 ^ 38 == d
  let ids := (s.die d).pool.map (fun h => h.id)
  let s := ids.foldl releaseTag s
  { s with
    dies := sset s.dies d { power := false, holdup := some s.now }
    clusters := s.clusters.filter (fun p => p.1 / 8 != d)
    hbm := s.hbm.filter (fun p => !inStack p.1)
    hbmKeys := s.hbmKeys.filter (fun p => !inStack (16 * p.1))
    hbmBad := s.hbmBad.filter (fun b => !inStack (32 * b))
    hbmSoft := s.hbmSoft.filter (fun b => !inStack (32 * b))
    hbmMended := s.hbmMended.filter (fun p => !inStack (32 * p.1))
    hub := { s.hub with
      repReqs := s.hub.repReqs.filter (fun p => p.1 != d)
      serving := match s.hub.serving with | some (e, t) => if t = d then none else some (e, t) | none => none } }

/-- A core of the hold-up at the end of the window: what it waited for is missed, and its waits start anew on resume (26 R355, 24 R338). -/
def closeCore (s : State) (c : Nat) : State :=
  if (s.core c).gate = .holdup then
    let missed := s.accesses.filter (fun a => a.core == c) ++ (s.replies.filter (fun r => r.core == c)).filterMap (fun r => r.access)
    let s := dropAccesses (missed.foldl missWindow s) c
    s.modSeqs c (fun q => { q with ctxs := q.ctxs.map (fun p => (p.1, { p.2 with wait := .none })) })
  else dropAccesses s c

/-- Step 3 of the hold-up ends (26 R355): the die loses its supply but for what drains its cores. -/
def closeWindow (s : State) (d : Nat) : State :=
  let s := (coresOf d).foldl closeCore s
  loseDie { s with messages := s.messages.filter (fun m => dieOf m.core != d), retries := s.retries.filter (fun m => dieOf m.core != d) } d

/-- Steps 4 and 5 of the hold-up: the drain and the record with CAUSE 2. -/
def holdupCommit (s : State) (c : Nat) : State :=
  if (s.core c).gate = .holdup then (commitCore s c 2).modCore c (fun k => { k with gate := .off }) else s

/-- Cycles of the window, and of a commit record. -/
def windowCycles : Nat := 2048
def recordCycles : Nat := 32

/-- Something of the die's cores is in flight: an access, its reply, a message or its reply, or a packet to another module that is not answered. -/
def dieInFlight (s : State) (d : Nat) : Bool :=
  let mine (c : Nat) : Bool := dieOf c == d
  s.accesses.any (fun a => mine a.core) || s.replies.any (fun r => mine r.core) || s.messages.any (fun m => mine m.core) || s.retries.any (fun m => mine m.core)
    || s.cores.any (fun p => mine p.1 && ((s.eng p.1 .ld).flight.any (fun k => !k.acks.isEmpty) || (s.eng p.1 .st).flight.any (fun k => !k.acks.isEmpty)))

/-- A cycle of a die's hold-up: the window closes after 2048 cycles, or once nothing of its cores is in flight; then a core is committed after four cycles for each of its dirty blocks and the record (26 R355). -/
def holdupCycle (s : State) (d : Nat) : State :=
  match (s.die d).holdup with
  | none => s
  | some t =>
    if (s.die d).power then
      (if t + windowCycles ≤ s.now ∨ dieInFlight s d = false then closeWindow s d else s)
    else (coresOf d).foldl (fun s c => if (s.core c).gate = .holdup ∧ t + 4 * (s.core c).dirtyCount + recordCycles ≤ s.now then holdupCommit s c else s) s

/-- The dirty blocks below b drain, and the first from b on is torn, or the record where every block was drained (26 R354, R355). -/
def Core.tear (k : Core) (o : Other) (b c now : Nat) : Core :=
  let k := k.noteOther o
  let dirty := k.cellar.dirty
  let k := (dirty.filter (fun x => decide (x < b))).foldl (Core.trickle o) k
  let next := dirty.find? (fun x => decide (b ≤ x))
  let k := match next with | some x => k.writeCopy o tornCrc x | none => k
  let m := k.cellar
  let m := if next.isNone then m.putRec ⟨m.cg + 1, c, 2, m.drained, now, tornCrc⟩ else m
  { k with gate := .off, cellar := { m with dirty := [], drained := 0, exh := true } }

/-- HOLDUP_EXHAUSTED: the hold-up of a core runs out at a block, after the window (26 R355). -/
def execHoldupExhausted (c b : Nat) (s : State) : Result :=
  if (s.core c).gate = .holdup ∧ (s.die (dieOf c)).power = false then
    let o := cutOther s c
    .next (s.modCore c (fun k => k.tear o b c s.now))
  else .next s

/-! Power return (26 R354, R357). -/

/-- The core's part of launches that it no longer runs counts as killed. -/
def lostParts (s : State) (c : Nat) (keep : List Nat) : State :=
  let gone := (s.hub.launches.filter (fun l => l.cohort.any (fun p => p.core == c) && !keep.contains l.id)).map (fun l => l.id)
  gone.foldl (fun s id => launchOver (partOver s id c) id) s

/-- The scheduler takes back a core's launch from its save frame, with what the frames of its other cores give (26 R357). -/
def rebuildLaunch (s : State) (c : Nat) (r : Running) (parked : Bool) : State :=
  let p : Placement := ⟨c, r.regs, r.area, r.frame, r.wheelP⟩
  let owned : List (Nat × Nat) := if parked then [] else (wheelPositions r.wheelN r.wheelP).map (fun w => (w, r.launch))
  match s.launch r.launch with
  | some l =>
    if l.cohort.any (fun q => q.core == c) then s
    else (s.modHub (fun h => { h with owners := h.owners ++ owned })).modLaunch r.launch (fun l => { l with
      cohort := l.cohort ++ [p]
      started := if r.started then insertNat l.started c else l.started
      triggered := if r.trigSent then insertNat l.triggered c else l.triggered })
  | none =>
    s.modHub (fun h => { h with
      nextId := max h.nextId (r.launch + 1)
      holders := if r.held.body.tag = 0xFFFFFFFF then h.holders else (r.held.body.tag.toNat, r.launch) :: h.holders.filter (fun x => x.1 != r.held.body.tag.toNat)
      owners := h.owners ++ owned
      launches := h.launches ++ [⟨r.launch, r.held, r.src, [p], s.now, if r.started then [c] else [], if r.trigSent then [c] else [], [], true, false, parked⟩] })

/-- A core at the return of its supply: held with what its cellar selects, or fresh. -/
def returnCore (s : State) (c : Nat) : State :=
  let s := holdupCommit s c
  let m := (s.core c).cellar
  let g := m.selectGen
  if (s.core c).gate = .on then s
  else if g = 0 then lostParts (loseStores (s.modCore c Core.fresh) c 0) c []
  else
    let s := s.modCore c (fun k => { k with
      gate := .held, arch := { (m.otherGen g).arch with time := k.arch.time }
      cellar := { m with gen := BitVec.ofNat 32 g, bad := BitVec.ofNat 16 (min 65535 (m.lost g).length), torn := m.isTorn g, state := 1 } })
    let parked := (s.arch c).parked.map (fun p => p.run)
    let s := lostParts s c ((match s.run c with | some r => [r.launch] | none => []) ++ parked.map (fun r => r.launch))
    let s := match s.run c with | some r => rebuildLaunch s c r false | none => s
    parked.foldl (fun s r => rebuildLaunch s c r true) s

/-- Every die is without supply: the module has lost its own (26 R355). -/
def moduleOff (s : State) : Bool := (List.range 8).all (fun d => !(s.die d).power)

/-- The supplies of dies are back: their cores with cellar state are held, and the host is told once (26 R357). -/
def returnDies (s : State) (l : List Nat) : State :=
  let s := l.foldl (fun s d => s.modDie d (fun x => { x with power := true, holdup := none })) s
  let s := l.foldl (fun s d => (coresOf d).foldl returnCore s) s
  if l.any (fun d => (coresOf d).any (fun c => (s.core c).gate == .held)) then raiseVector s 4098 else s

/-- POWER_RETURN: the supply of a die is back (26 R357). After a loss of the module's supply all dies return with the boot. -/
def execPowerReturn (d : Nat) (s : State) : Result :=
  if (s.die d).power || moduleOff s then .next s else .next (returnDies s [d])

/-- No access of the core is on its way: its launches' stamps begin anew (16 R284). -/
def Arch.restamp (a : Arch) : Arch :=
  { a with run := a.run.map (fun r => { r with stampUsed := none }), parked := a.parked.map (fun p => { p with run := { p.run with stampUsed := none } }) }

/-- A held core resumes at its selected commit (26 R354, R356, R357), or stays held when its other state is lost or its reload faults. -/
def wakeHeld (s : State) (c : Nat) : State :=
  let g := (s.core c).cellar.selectGen
  let go (s : State) (bs : List (List Byte)) : State :=
    let s := (loseStores s c g).modCore c (fun k => { ((k.select g).streams bs) with gate := .on })
    let s := s.modArch c Arch.restamp
    let s := s.modCluster (clusterOf c) (fun x => { x with pantry := x.pantry - blocksOf (s.seqs c) })
    raiseVector (goOn s c) 4099
  if (s.core c).cellar.archLost g then s
  else match s.run c with
    | none => go s []
    | some r => match reloadStreams s r (s.arch c).csrs.img with
      | (s, .error f) => writeRecord s c f.isw f.faddr 0 7 0 0 s.now
      | (s, .ok bs) => go s bs

/-- WAKE_WRITE: a write of the core's WAKE register (07 R117, 26 R357); a core in reset stays there (17 R298). -/
def execWakeWrite (c : Nat) (s : State) : Result :=
  if !mayWake s c then .next s
  else match (s.core c).gate with
    | .off => .next (wakeCore s c)
    | .held => .next (wakeHeld s c)
    | _ => .next s

/-- CELLAR_DROP: a held core's cellar is formatted, and its part of its launches counts as killed (26 R357). -/
def execCellarDrop (c : Nat) (s : State) : Result :=
  if (s.core c).gate = .held ∧ (s.core c).cellar.state = 1 ∧ (s.die (dieOf c)).power = true then .next (lostParts (loseStores (s.modCore c Core.fresh) c 0) c []) else .next s

end Sys2Proof.Machine
end

