-- ==== Sys2Proof/Machine/EvTrust.lean ====
section
/-! DEFINITION. Family: boot, the trust mailbox, the power hub and the monitor (spec 17 R292-R301). -/

namespace Sys2Proof.Machine

/-! Physical addresses (06 R102, 17 R292). -/

/-- The stack of a physical address has its supply, and the n bytes are installed. -/
def physOk (s : State) (pa n : Nat) : Bool := installed pa n && (reachFault s hubEnd (.hbm pa 0) 0).isNone
/-- A device write to a physical address, under the key of APKEY (log 19). -/
def physWrite (s : State) (pa : Nat) (bs : List Byte) : State := if physOk s pa bs.length then s.hbmWrite s.hub.apkey.toNat pa bs else s

/-! Boot (17 R296-R298). -/

/-- The module's own state at power-on: cycles count from 0. A hold-up that has not ended commits before. -/
def powerOn (s : State) : State :=
  let s := (List.range 512).foldl holdupCommit s
  { s with now := 0, hub := {}, invals := [], messages := [], retries := [], arrived := [], cores := s.cores.map (fun p => (p.1, { p.2 with dbg := {} })) }

/-- The blocks and the firmware verify and the version is allowed (17 R298). -/
def bootAccepted (b : BootImage) : Bool := b.firmwareOk && b.blockOk && decide (b.minimum ≤ b.version)

/-- POWER_ON_BOOT: after power-on, or after a loss of the module's supply, which brings every die back (17 R298, 26 R357). -/
def execPowerOnBoot (b : BootImage) (s : State) : Result :=
  let off := moduleOff s
  if s.hub.bootst ≠ 0 ∧ off = false then .next s
  else
    let s := if off then powerOn s else s
    let back (s : State) : State := if off then returnDies s (List.range 8) else s
    if bootAccepted b then
      .next (back (s.modHub (fun h => { h with
        bootst := 1, moduleNumber := b.moduleNumber, firmware := b.firmware, block := b.block
        routes := b.routes.foldl (fun r p => sset r p.1 p.2) [], imports := b.imports.foldl (fun r p => sset r p.1 p.2) [] })))
    else .next (back { (s.modHub (fun h => { h with bootst := 2, bootcode := Config.bootRefusal s.free })) with free := s.free + 1 })

/-! The trust mailbox (17 R299). -/

/-- A byte of TMBOX, and a number in n bytes of it. -/
def mboxByte (h : Hub) (i : Nat) : Byte := sget 0 h.tmbox i
def mboxNat (h : Hub) (i n : Nat) : Nat := bytesNat ((List.range n).map (fun j => mboxByte h (i + j)))
/-- Bytes written to TMBOX, those beyond it left out. -/
def mboxPut (h : Hub) (i : Nat) (bs : List Byte) : Hub :=
  { h with tmbox := (bs.foldl (fun (a : Nat × Sparse Byte) b => (a.1 + 1, if a.1 < 256 then sset a.2 a.1 b else a.2)) (i, h.tmbox)).2 }

/-- Where the arguments stand (log 16): an identifier in the first eight bytes, a wrapped key behind it. -/
def mboxArgs : Nat := 8
def mboxKey : Nat := 16

/-- The command that TMBOX holds. -/
def mboxCommand (h : Hub) : Option TrustCmd :=
  match mboxNat h 0 4 with
  | 1 => some (.attest (BitVec.ofNat 256 (mboxNat h mboxArgs 32)))
  | 2 => some (.keyload (mboxNat h mboxArgs 8 % 8192) (BitVec.ofNat 576 (mboxNat h mboxKey 72)))
  | 3 => some (.keyclr (mboxNat h mboxArgs 8 % 8192))
  | _ => none

/-- The number of a command. -/
def TrustCmd.number : TrustCmd → Nat
  | .attest _ => 1
  | .keyload _ _ => 2
  | .keyclr _ => 3

/-- Byte 255 is written with 1: the command that stands in TMBOX starts, unless one runs. -/
def mboxStart (s : State) : State :=
  s.modHub (fun h =>
    let h := mboxPut h 255 [1]
    if h.trust.isSome then h else { h with trust := mboxCommand h })

/-- The start of command n. -/
def mboxRun (n : Nat) (s : State) : State := if mboxNat s.hub 0 4 = n then mboxStart s else s

/-- ATTEST, KEYLOAD and KEYCLR: the host starts the command that stands in TMBOX (17 R299). -/
def execAttest (s : State) : Result := .next (mboxRun 1 s)
def execKeyload (s : State) : Result := .next (mboxRun 2 s)
def execKeyclr (s : State) : Result := .next (mboxRun 3 s)

/-- What a command does when it completes. -/
def trustEffect (h : Hub) : TrustCmd → Hub
  | .attest nonce => mboxPut h mboxArgs ((Config.attestReport nonce h.firmware h.block h.moduleNumber).take 247)
  | .keyload id w => { h with keys := sset h.keys id (.loaded (Config.unwrapKey w)) }
  | .keyclr id => { h with keys := sset h.keys id (.fresh h.keySerial), keySerial := h.keySerial + 1 }

/-- TRUST_COMMAND_DONE: the effect, a status, vector 4096 (17 R299). -/
def execTrustCommandDone (s : State) : Result :=
  match s.hub.trust with
  | none => .next s
  | some t =>
    let status := Config.trustStatus t.number s.free
    let s := s.modHub (fun h => { (mboxPut (trustEffect h t) 4 (natBytes 4 status.toNat)) with trust := none })
    .next (raiseVector { s with free := s.free + 1 } 4096)

/-! The power hub (17 R300). -/

/-- A core's estimate: on the low rail a cluster's cores report a lower one than on the high rail. -/
def coreEstimate (s : State) (c : Nat) : Nat :=
  let high := max 1 (Config.powerEstimate s.free c).toNat
  if (s.cluster (clusterOf c)).sel then (Config.powerSaving s.free c).toNat % high else high
/-- The sum of the cores' estimates. -/
def powerSum (s : State) : Nat := (List.range Config.cores).foldl (fun t c => t + coreEstimate s c) 0

/-- The floor level after a sum: up above PLIMIT, down below 90 % of it. -/
def nextLevel (level : BitVec 3) (sum limit : Nat) : BitVec 3 :=
  if limit < sum then (if level.toNat < 4 then level + 1 else level)
  else if 10 * sum < 9 * limit then (if level = 0 then 0 else level - 1)
  else level

/-- POWER_HUB_TICK: every 1200 cycles (17 R300). -/
def execPowerHubTick (s : State) : Result :=
  if s.now < s.hub.powerAt + 1200 then .next s
  else .next { (s.modHub (fun h => { h with level := nextLevel h.level (powerSum s) h.plimit.toNat, powerAt := h.powerAt + 1200 })) with free := s.free + 1 }

/-! The monitor (17 R301). -/

/-- The sample period. -/
def samplePeriod (h : Hub) : Nat := max 256 h.sampPeriod.toNat
/-- The pc of a sequencer by code. -/
def samplePc (s : State) (c q : Nat) : Nat :=
  if q < 4 then (s.ctx c q).pc.toNat else if q = 4 then (s.eng c .ld).pc else if q = 5 then (s.cp c).pc else (s.eng c .st).pc
/-- The 32 bytes of a sample. -/
def sampleBytes (s : State) (c q : Nat) : List Byte :=
  natBytes 8 s.now ++ natBytes 2 c ++ natBytes 1 q ++ natBytes 1 0 ++ natBytes 4 (samplePc s c q) ++ natBytes 2 (coreEstimate s c) ++ natBytes 14 0
/-- The place of the next record. -/
def samplePlace (h : Hub) : Nat := h.sampbuf.toNat / 4096 % 2 ^ 29 * 4096 + 32 * (h.samphead.toNat % 2 ^ (h.sampbuf.toNat % 256))

/-- MONITOR_SAMPLE: a core writes a sample once per period (17 R301). -/
def execMonitorSample (c : Nat) (s : State) : Result :=
  if !s.hub.sampEn || s.hub.bootst != 1 || !(s.die (dieOf c)).power || decide (s.now < sget 0 s.hub.sampAt c) then .next s
  else
    let q := sget 0 s.hub.sampSeq c
    let s := physWrite s (samplePlace s.hub) (sampleBytes s c q)
    .next { (s.modHub (fun h => { h with
      samphead := h.samphead + 1, sampSeq := sset h.sampSeq c ((q + 1) % 7), sampAt := sset h.sampAt c (s.now + samplePeriod h) })) with free := s.free + 1 }

end Sys2Proof.Machine
end

