-- ==== Sys2Proof/Machine/EvErrors.lean ====
section
/-! DEFINITION. Family: errors of SRAM, HBM and links (spec 25 R345-R353, 17 R293). An event that is not enabled leaves the state as it is. -/

namespace Sys2Proof.Machine

/-! SRAM (25 R349-R351). -/

/-- SRAM_CORRECTABLE: the core freezes for 24 cycles from the detection, or a freeze lasts until then at least (25 R349, 23 R319). On the low rail too these are cycles of 1.2 GHz (log 89). -/
def execSramCorrectable (c : Nat) (s : State) : Result :=
  if (s.core c).gate ≠ .on then .next s
  else
    let f := match (s.arch c).freeze with | some f => { f with until_ := s.now + 24 } | none => ⟨.sram, s.now, s.now + 24⟩
    .next ((s.modArch c (fun a => { a with freeze := some f })).modDie (dieOf c) (fun d => { d with sramc := satInc d.sramc }))

/-- The freeze of an SRAM error ends 24 cycles after the last detection: so does every cycle of the clock ask (23 R319). -/
def endSramFreeze (s : State) (c : Nat) : State :=
  match (s.arch c).freeze with
  | some f => if f.cause = .sram ∧ f.until_ ≤ s.now then s.modArch c (fun a => { a with freeze := none }) else s
  | none => s

/-- SRAM_FREEZE_END. -/
def execSramFreezeEnd (c : Nat) (s : State) : Result := .next (endSramFreeze s c)

/-- The poison that an uncorrectable error leaves (25 R350, R351): a mark is shadowed with its granule, so its block is dirty. -/
def Core.errorAt (k : Core) : SramPlace → Core
  | .spad g => ({ k with poisonSpad := insertNat k.poisonSpad (g % 65536), mended := k.mended.filter (fun p => p.1 != g % 65536) } : Core).mark (g % 65536 / 4) (g % 65536 / 4 + 1)
  | .vreg g => ({ k with poisonVrf := insertNat k.poisonVrf (g % 16384) } : Core).mark (vrfBlock + g % 16384 / 4) (vrfBlock + g % 16384 / 4 + 1)
  | .acc t e =>
    let tile := sget {} k.acc (t % 64)
    ({ k with acc := sset k.acc (t % 64) { tile with elems := sset tile.elems (e % 4096) ((sget {} tile.elems (e % 4096)).setF fPsn) } } : Core).mark
      (accBlock + 192 * (t % 64) + e % 4096 * 96 / 2048) (accBlock + 192 * (t % 64) + (e % 4096 * 96 + 95) / 2048 + 1)
  | .imem p a => { k with poisonIm := if k.poisonIm.contains (p.code, a / 8 * 8) then k.poisonIm else k.poisonIm ++ [(p.code, a / 8 * 8)] }
  | .imemSc a => { k with poisonIm := if k.poisonIm.contains (3, a / 8 * 8) then k.poisonIm else k.poisonIm ++ [(3, a / 8 * 8)] }

/-- SRAM_UNCORRECTABLE (25 R350, R351). -/
def execSramUncorrectable (c : Nat) (p : SramPlace) (s : State) : Result :=
  if (s.core c).gate ≠ .on then .next s else .next (s.modCore c (fun k => k.errorAt p))

/-! HBM (25 R353). -/

/-- PATROL_SCRUB: a read of a 32-byte word that the ECC corrects counts, and an error that waits there is corrected; one that it cannot correct leaves the word bad, and a bad word stays as it is. -/
def execPatrolScrub (pa : Nat) (o : EccOutcome) (s : State) : Result :=
  if !physOk s pa 1 || s.hbmBad.contains (pa / 32) then .next s
  else
    let soft := s.hbmSoft.contains (pa / 32)
    let t := { s with hbmSoft := s.hbmSoft.filter (fun w => w != pa / 32) }
    match o with
    | .uncorrectable => .next { t with hbmBad := insertNat s.hbmBad (pa / 32), hbmMended := s.hbmMended.filter (fun p => p.1 != pa / 32) }
    | .corrected => .next (t.modDie (pa / 2 ^ 38) (fun d => { d with hbmc := satInc d.hbmc }))
    | .clean => .next (if soft then t.modDie (pa / 2 ^ 38) (fun d => { d with hbmc := satInc d.hbmc }) else s)

/-! Links (25 R345-R347). -/

/-- A link takes a state; a port's change raises vector 4097. -/
def setLink (s : State) (l : Link) (f : LinkState → LinkState) : State :=
  let t := s.modLink l f
  match l with
  | .port _ => if (s.link l).state = (t.link l).state then t else raiseVector t 4097
  | .die _ => t

/-- 16 mismatches lie within 1024 flits of the link (25 R345). -/
def manyMismatches (x : LinkState) : Bool := match x.mismatches[15]? with | some a => decide (x.flit < a + 1024) | none => false

/-- A mismatch at the flit that follows `gap` good ones; what makes the link retrain stays until it does (25 R345, log 92). -/
def addMismatch (gap : Nat) (x : LinkState) : LinkState :=
  if manyMismatches x then x else { x with flit := x.flit + gap + 1, mismatches := ((x.flit + gap + 1) :: x.mismatches).take 16 }

/-- FLIT_CRC_MISMATCH: a mismatch on the link; a resend on a die's link is counted in FLITR; the flits come in order (25 R345). How many flits came before it is a free value (log 92). -/
def execFlitCrcMismatch (l : Link) (s : State) : Result :=
  let s := { (s.modLink l (addMismatch (Config.flitsBetween s.free).toNat)) with free := s.free + 1 }
  match l with
  | .die d => .next (s.modDie d (fun x => { x with flitr := satInc x.flitr }))
  | .port _ => .next s

/-- Cycles that a flit of a link may stay unacknowledged (25 R345). -/
def ackCycles : Nat := 4096

/-- A command that waits for what its engine has sent through a port (17 R297). -/
def portWaits (s : State) (c p : Nat) (k : Cmd) : Bool := k.acks.contains p && decide (k.dequeuedAt + ackCycles ≤ s.coreTime c)

/-- The die of a home by its number (16 R282). -/
def homeDie (h : Nat) : Nat := if h < 512 then dieOf h else (h - 512) / 2

/-- A command has waited for 4096 cycles on the link of die d: for an access to a home beyond it, or with its message (25 R345). -/
def linkWaits (s : State) (c d : Nat) (e : Eng) (k : Cmd) : Bool :=
  let across (h : Nat) : Bool := decide (h < farHome 0) && (dieOf c == d) != (homeDie h == d) && !s.arrived.contains (h, .command c e k.num)
  decide (k.dequeuedAt + ackCycles ≤ s.coreTime c) && k.started && !k.finished && k.faulted.isNone
    && ((!accessesDone s c k && (let u := unitOf s c k (k.pos / 2)
          if k.pos % 2 = 0 then (srcHome s c u.1).any across else (dstHomes s c u.2).any across))
      || s.messages.any (fun m => m.core == c && m.cmd == k.num && across (m.dst / Config.sliceBytes) && !s.arrived.contains (m.dst / Config.sliceBytes, .message c k.num)))

/-- Something has waited on the link for 4096 cycles: an access of a context that has not come to its home, a command, or for a port a command (25 R345, log 92). -/
def linkStale (s : State) : Link → Bool
  | .die d => s.accesses.any (fun a => (dieOf a.core == d) != (a.loc.die == d) && !a.arrived && !s.arrived.contains (a.loc.home, .access a.seq) && decide (a.issued + ackCycles ≤ s.now))
      || s.cores.any (fun x => (s.eng x.1 .ld).flight.any (linkWaits s x.1 d .ld) || (s.eng x.1 .st).flight.any (linkWaits s x.1 d .st))
  | .port p => s.cores.any (fun x => (s.eng x.1 .ld).flight.any (portWaits s x.1 p) || (s.eng x.1 .st).flight.any (portWaits s x.1 p))

/-- LINK_RETRAIN: a link that is up retrains, after 16 mismatches within 1024 flits or 4096 cycles without an acknowledgement (25 R345, log 92). -/
def execLinkRetrain (l : Link) (s : State) : Result :=
  let x := s.link l
  if x.state = 1 ∧ (manyMismatches x = true ∨ linkStale s l = true) then
    .next (setLink s l (fun x => { x with state := 2, retrains := satInc x.retrains, failures := 0, mismatches := [], since := s.now }))
  else .next s

/-- LINK_RETRAIN_DONE: up again, or another try (25 R345, R346). A port learns the number of its far end. -/
def execLinkRetrainDone (l : Link) (ok : Bool) (s : State) : Result :=
  if (s.link l).state ≠ 2 ∨ 3 ≤ (s.link l).failures then .next s
  else if ok then
    let peer : BitVec 16 := match l with | .port p => Config.peerModule p s.free | .die _ => 0xFFFF
    .next { (setLink s l (fun x => { x with state := 1, failures := 0, peer := peer })) with free := s.free + 1 }
  else if (s.link l).failures < 2 then
    .next (setLink s l (fun x => { x with failures := x.failures + 1, retrains := satInc x.retrains, since := s.now }))
  else .next (setLink s l (fun x => { x with failures := x.failures + 1 }))

/-- Replies on their way over a dead link are lost: each access faults with DETAIL LINK (25 R346). -/
def loseReplies (s : State) : State :=
  { s with replies := s.replies.map (fun r => match r.access with
      | some a => if r.fault.isNone && pathIn s (dieOf a.core) a.loc.die 3 then { r with value := 0, fault := some (faultOf 0x08 6 a.va) } else r
      | none => r) }

/-- What has left through a port that is dead or disabled and is not acknowledged is lost: each command that waits for it faults with DETAIL LINK (25 R346, R347). -/
def losePort (s : State) (p : Nat) : State :=
  let waits (e : Eng) (c : Nat) : List (Nat × Eng × Nat) := ((s.eng c e).flight.filter (fun k => k.acks.contains p && k.faulted.isNone)).map (fun k => (c, e, k.num))
  let lost := s.cores.flatMap (fun x => waits .ld x.1 ++ waits .st x.1)
  let s := s.modHub (fun h => { h with outbound := h.outbound.filter (fun o => o.port != p) })
  lost.foldl (fun s w => match findFlight s w.1 w.2.1 w.2.2 with
    | some k => cmdTrap s w.1 w.2.1 { k with acks := [] } (faultOf 0x08 6 (k.arg 1))
    | none => s) s

/-- LINK_DEAD: after three failures in succession, or 12,000 cycles of retraining (25 R346). What has yet to cross it is lost as it comes to be performed, and so are the replies on their way, and the packets of a port. -/
def execLinkDead (l : Link) (s : State) : Result :=
  let x := s.link l
  if x.state = 2 ∧ (3 ≤ x.failures ∨ x.since + 12000 ≤ s.now) then
    let t := setLink s l (fun x => { x with state := 3 })
    .next (match l with | .port p => losePort t p | .die _ => loseReplies t)
  else .next s

/-- PORT_RETRAIN_WRITE: training starts in STATE 0 or 3 with DISABLE = 0 (25 R347). -/
def execPortRetrainWrite (p : Nat) (s : State) : Result :=
  let x := s.link (.port p)
  if (x.state = 0 ∨ x.state = 3) ∧ x.disable = false then
    .next (setLink s (.port p) (fun x => { x with state := 2, retrains := satInc x.retrains, failures := 0, since := s.now }))
  else .next s

/-- PORT_DISABLE_WRITE: 1 takes the port down and keeps it down; its traffic is handled as for a dead port (25 R347). -/
def execPortDisableWrite (p : Nat) (dis : Bool) (s : State) : Result :=
  let t := setLink s (.port p) (fun x => if dis then { x with disable := true, state := 0 } else { x with disable := false })
  .next (if dis then losePort t p else t)

/-- ERRCNT_CLEAR: all four fields (25 R348). -/
def execErrcntClear (d : Nat) (s : State) : Result :=
  .next (s.modDie d (fun x => { x with sramc := 0, resid := 0, hbmc := 0, flitr := 0 }))

end Sys2Proof.Machine
end

