-- ==== Sys2Proof/Machine/EvHost.lean ====
section
/-! DEFINITION. Family: what the host does to the module (spec 24 R326, R333-R337, 17 R292-R293, 05 R79, 11 R167): debug control, vectors, the fault log, the apertures, and the register windows. -/

namespace Sys2Proof.Machine

/-! Debug control (24 R333-R337). -/

/-- A change of a core's debug state. -/
def modDbg (s : State) (c : Nat) (f : Debug → Debug) : State := s.modCore c (fun k => { k with dbg := f k.dbg })

/-- A step that waits is given up: the instruction stays unissued (24 R336). -/
def abandonStep (s : State) (c : Nat) : State := modDbg (endInjection s c) c (fun d => { d with stepping := false, accepting := none })

/-- DBG_HALT: HALT = 1 with QHOLD as written (24 R335). -/
def execDbgHalt (c : Nat) (qhold : Bool) (s : State) : Result :=
  let s := if (s.core c).dbg.stepping then abandonStep s c else s
  .next (modDbg s c (fun d => { d with halt := true, qhold := qhold }))

/-- DBG_STEP: the party is let issue one instruction, or with an armed injection its words (24 R336). -/
def execDbgStep (c party : Nat) (s : State) : Result :=
  let k := s.core c
  if (!k.dbg.halt && k.stop.isNone) || k.dbg.stepping || decide (6 < party) then .next s
  else
    let s := modDbg s c (fun d => { d with party := BitVec.ofNat 3 party, stepping := true, accepting := none })
    if k.dbg.injV ∧ party < 4 ∧ k.dbg.injecting = false then
      let s := modDbg s c (fun d => { d with injecting := true, injCount := 0, injFrom := s.seq, savedPc := (s.ctx c party).pc })
      .next (s.modCtx c party (fun t => { t with pc := k.dbg.injOff.setWidth 64, wait := .none }))
    else .next s

/-- HALT becomes 0: an engine fault held meanwhile is reported (24 R337). -/
def releaseHalt (s : State) (c : Nat) : State := reportPend (modDbg s c (fun d => { d with halt := false })) c

/-- RESUME does not end a stop of CODE 0x40 to 0x42 (24 R334). -/
def resumeIgnored (st : Stop) : Bool := decide (0x40 ≤ st.code) && decide (st.code ≤ 0x42)

/-- DBG_RESUME (24 R334). -/
def execDbgResume (c : Nat) (s : State) : Result :=
  match (s.core c).stop with
  | some st => .next (if resumeIgnored st then s else reportPend (resumeCore s c) c)
  | none => .next s

/-- DBG_KILL: the launch of the core ends on every core of its cohort (24 R334). -/
def execDbgKill (c : Nat) (s : State) : Result :=
  match s.run c with
  | some r => .next (killLaunch s r.launch)
  | none => .next s

/-- A write of DBGCTL: its register fields, then what its bits do. KILL goes before RESUME, and both before STEP. A step that HALT gives up is the one of the PARTY before the write. -/
def writeDbgctl (s : State) (c : Nat) (v : BitVec 64) : State :=
  let next (r : Result) (s : State) : State := match r with | .next t => t | _ => s
  let was := (s.core c).dbg.halt
  let s := if v.getLsbD 0 && (s.core c).dbg.stepping then abandonStep s c else s
  let s := modDbg s c (fun d => { d with party := v.extractLsb' 4 3, qhold := v.getLsbD 3 })
  let s := if v.getLsbD 7 then next (execDbgKill c s) s else s
  let s := if v.getLsbD 1 then next (execDbgResume c s) s else s
  let s := if v.getLsbD 0 then next (execDbgHalt c (v.getLsbD 3) s) s else if was then releaseHalt s c else s
  if v.getLsbD 2 then next (execDbgStep c (v.extractLsb' 4 3).toNat s) s else s

/-- A write of DBGINJ (24 R333). -/
def writeDbginj (s : State) (c : Nat) (v : BitVec 64) : State :=
  modDbg s c (fun d => { d with injV := v.getLsbD 63, injOff := BitVec.ofNat 22 (v.toNat / 4 * 4) })

/-! The fault log and vectors (24 R326, 17 R293). -/

/-- FLTACK_WRITE. -/
def execFltackWrite (v : BitVec 64) (s : State) : Result := .next (s.modHub (fun h => { h with fltack := v, fltovf := false }))

/-- VECTOR_CONTROL_WRITE: MASK is set, or cleared, which sends a pending write. -/
def execVectorControlWrite (n : Nat) (ctl : BitVec 32) (s : State) : Result :=
  .next (s.modHub (fun h =>
    let v := sget {} h.vectors n
    if ctl.getLsbD 0 then { h with vectors := sset h.vectors n { v with mask := true } }
    else if v.pend then { h with vectors := sset h.vectors n { v with mask := false, pend := false }, posted := h.posted ++ [(v.addr, v.data)] }
    else { h with vectors := sset h.vectors n { v with mask := false } }))

/-! What the register windows read as (05 R79, 17 R293, 24 R326, R333, 25 R347, R348, 26 R357). -/

/-- A field of n bits at a place of a word. -/
def atBit {n : Nat} (v : BitVec n) (lo : Nat) : Nat := v.toNat * 2 ^ lo

/-- The word at an offset of the work-queue window (05 R79). -/
def queueWord (s : State) (off : Nat) : BitVec 64 :=
  let w := s.wq (off / 32)
  BitVec.ofNat 64 (match off % 32 with
    | 0x00 => atBit w.base 12
    | 0x08 => atBit w.inlimit 24 + atBit w.ctx 12 + atBit w.log2 8 + w.en.toNat
    | 0x10 => atBit w.tail 32 + w.head.toNat
    | 0x18 => atBit w.badidx 32 + atBit w.err 8
    | _ => 0)

/-- DBGCTL, DBGST and DBGINJ as read (24 R333): a core that steps reads STATE 3, one stopped by a record 2, a halted one 1. -/
def dbgctlWord (s : State) (c : Nat) : Nat := let d := (s.core c).dbg; atBit d.party 4 + 8 * d.qhold.toNat + d.halt.toNat
def dbgState (s : State) (c : Nat) : Nat :=
  let k := s.core c
  if k.dbg.stepping then 3 else if k.stop.isSome then 2 else if k.dbg.halt then 1 else 0
def dbgstWord (s : State) (c : Nat) : Nat :=
  (match (s.core c).stop with | some st => if dbgState s c = 2 then st.frame % 8 * 512 else 0 | none => 0) + 256 * (s.core c).dbg.pend.toNat + dbgState s c
def dbginjWord (s : State) (c : Nat) : Nat := let d := (s.core c).dbg; 2 ^ 63 * d.injV.toNat + d.injOff.toNat

/-- A port's register (25 R347), a die's error counters (25 R348), and CELHST of a core (26 R357). -/
def portWord (s : State) (p : Nat) : Nat := let x := s.link (.port p); atBit x.retrains 48 + atBit x.peer 32 + atBit x.state 2 + 2 * x.disable.toNat
def errcntWord (s : State) (d : Nat) : Nat := let x := s.die d; atBit x.sramc 48 + atBit x.resid 32 + atBit x.hbmc 16 + x.flitr.toNat
def celhstWord (s : State) (c : Nat) : Nat :=
  let m := (s.core c).cellar
  atBit m.gen 32 + atBit m.bad 16 + 32 * m.exh.toNat + 16 * m.torn.toNat + m.state.toNat

/-- The word of a vector entry at an offset of it (17 R293): its address; its data with its control word above; or at +12 the control word, MASK and PEND. -/
def vectorWord (v : VecEntry) (off : Nat) : Nat :=
  let control := v.mask.toNat + 2 * v.pend.toNat
  if off < 8 then v.addr.toNat else if off < 12 then v.data.toNat + 2 ^ 32 * control else control

/-- The registers of R293 and R326 by offset. -/
def hubWord (h : Hub) (off : Nat) : Nat :=
  match off with
  | 0x0000 => h.bootst.toNat + atBit h.bootcode 8
  | 0x0008 => h.apkey.toNat
  | 0x0010 => h.plimit.toNat
  | 0x0018 => h.sampEn.toNat + atBit h.sampPeriod 8
  | 0x0020 => h.sampbuf.toNat
  | 0x0028 => h.samphead.toNat
  | 0x0140 => h.ctxbase.toNat
  | 0x0148 => h.savebase.toNat
  | 0x0150 => h.agelimit.toNat
  | 0x0180 => h.fltbase.toNat
  | 0x0188 => h.flthead % 2 ^ 63 + 2 ^ 63 * h.fltovf.toNat
  | 0x0190 => h.fltack.toNat
  | _ => 0

/-- The word at an offset of the module control window; what no register holds, and a write-only one, reads 0. -/
def controlWord (s : State) (off : Nat) : BitVec 64 :=
  BitVec.ofNat 64 (
    if 0x0040 ≤ off ∧ off < 0x0140 then mboxNat s.hub (off - 0x0040) 8
    else if 0x0200 ≤ off ∧ off < 0x0240 then errcntWord s ((off - 0x0200) / 8)
    else if 0x0240 ≤ off ∧ off < 0x0240 + 8 * 18 then portWord s ((off - 0x0240) / 8)
    else if 0x2000 ≤ off ∧ off < 0x2000 + 16 * 4160 then vectorWord (sget {} s.hub.vectors ((off - 0x2000) / 16)) ((off - 0x2000) % 16)
    else if 0x13000 ≤ off ∧ off < 0x13000 + 32 * 512 then
      let c := (off - 0x13000) / 32
      match (off - 0x13000) % 32 with
      | 0 => dbgctlWord s c
      | 8 => dbgstWord s c
      | 16 => dbginjWord s c
      | _ => 0
    else if 0x18000 ≤ off ∧ off < 0x18000 + 8 * 512 then celhstWord s ((off - 0x18000) / 8)
    else hubWord s.hub off)

/-! The apertures (17 R292). -/

/-- What a read returned is kept for the host. -/
def hostGets (s : State) (bs : List Byte) : State := s.modHub (fun h => { h with hostReads := h.hostReads ++ [bs] })

/-- Bytes of the hall at an address, and a write of them, slice by slice and byte by byte. -/
def hallBytes (s : State) (a n : Nat) : List Byte :=
  (List.range n).map (fun i => memByte (s.core ((a + i) / Config.sliceBytes)).spad ((a + i) % Config.sliceBytes))
def hallPut (s : State) : Nat → List Byte → State
  | _, [] => s
  | a, b :: t => hallPut (s.spadWrite (a / Config.sliceBytes) (a % Config.sliceBytes) [b]) (a + 1) t

/-- The slices that a hall range touches. -/
def hallCores (a n : Nat) : List Nat :=
  (List.range ((a + n + Config.sliceBytes - 1) / Config.sliceBytes - a / Config.sliceBytes)).map (fun i => a / Config.sliceBytes + i)

/-- The host reaches the slices of a hall range: no dead link or lost supply is on the way (25 R346, 26 R355). -/
def hallOpen (s : State) (a n : Nat) : Bool :=
  decide (a + n ≤ 2 ^ 31) && (hallCores a n).all (fun c => (reachFault s hubEnd (.slice c 0) 0).isNone)

/-- What the host does in a hall range, once its slices are on and no link retrains; until then it has arrived there (07 R117, 25 R345). -/
def hallAct (s : State) (a n : Nat) (act : State → State) : State :=
  if !hallOpen s a n then s
  else match (hallCores a n).find? (fun c => (blockedBy s hubEnd (.slice c 0)).isSome) with
    | some c => if sliceUp s c then s else arriveAt s c .other
    | none => act s

/-- HOST_APERTURE_ACCESS: performed at its home, without R98, or a read of a register window (17 R292). -/
def execHostApertureAccess (a : HostAccess) (s : State) : Result :=
  match a with
  | .hbmWrite pa bs => .next (physWrite s pa bs)
  | .hbmRead pa n => .next (if physOk s pa n then hostGets (corrected s (.hbm pa s.hub.apkey.toNat) n) (s.hbmRead s.hub.apkey.toNat pa n) else s)
  | .hallWrite x bs => .next (hallAct s x bs.length (fun s => hallPut s x bs))
  | .hallRead x n => .next (hallAct s x n (fun s => hostGets s (hallBytes s x n)))
  | .queueRead off => .next (hostGets s (natBytes 8 (queueWord s off).toNat))
  | .ctlRead off => .next (hostGets s (natBytes 8 (controlWord s off).toNat))

/-! Register windows (05 R79, 17 R293, 24 R326, R333, 25 R347-R348, 26 R357). -/

/-- The state an event answers. -/
def after (r : Result) (s : State) : State := match r with | .next t => t | _ => s

/-- A 64-bit write at an offset of the work-queue window; at 0x14 a 32-bit one. -/
def queueWrite (s : State) (off : Nat) (v : BitVec 64) : State :=
  let q := off / 32
  match off % 32 with
  | 0x00 => s.modWq q (fun w => if w.en then w else { w with base := BitVec.ofNat 52 (v.toNat / 4096) })
  | 0x08 =>
    if v.getLsbD 0 && !(s.wq q).en then after (execWqEnable q v s) s
    else if !v.getLsbD 0 && (s.wq q).en then after (execWqDisable q v s) s
    else s.modWq q (fun w => w.fields v)
  | 0x10 => after (execWqtailWrite q (v.extractLsb' 32 32) s) s
  | 0x14 => after (execWqtailWrite q (v.extractLsb' 0 32) s) s
  | 0x18 => if v.extractLsb' 8 8 = 0 then after (execWqHaltClear q s) s else s
  | _ => s

/-- Bits lo to hi of a word, the others 0. -/
def bitRange (v : BitVec 64) (lo hi : Nat) : Nat := v.toNat / 2 ^ lo % 2 ^ (hi + 1 - lo) * 2 ^ lo

/-- The registers of R293 and R326 by offset. -/
def writeControl (h : Hub) (off : Nat) (v : BitVec 64) : Hub :=
  match off with
  | 0x0008 => { h with apkey := BitVec.ofNat 13 v.toNat }
  | 0x0010 => { h with plimit := BitVec.ofNat 32 (clampNat (v.toNat % 2 ^ 32) 1 230400) }
  | 0x0018 => { h with sampEn := v.getLsbD 0, sampPeriod := BitVec.ofNat 24 (v.toNat / 256) }
  | 0x0020 => { h with sampbuf := BitVec.ofNat 64 (bitRange v 12 40 + bitRange v 0 7) }
  | 0x0140 => { h with ctxbase := BitVec.ofNat 64 (bitRange v 12 40) }
  | 0x0148 => { h with savebase := BitVec.ofNat 64 (bitRange v 25 40 + bitRange v 0 12) }
  | 0x0150 => { h with agelimit := BitVec.ofNat 32 (max 1 (v.toNat % 2 ^ 32)) }
  | 0x0180 => { h with fltbase := BitVec.ofNat 64 (bitRange v 12 40 + bitRange v 0 7) }
  | _ => h

/-- A write to TMBOX: eight bytes; a 1 in byte 255 starts the command. -/
def mboxWrite (s : State) (i : Nat) (v : BitVec 64) : State :=
  let s := s.modHub (fun h => mboxPut h i (natBytes 8 v.toNat))
  if i + 7 = 255 ∧ v.toNat / 2 ^ 56 = 1 then mboxStart s else s

/-- A write at an offset of the module control window, of 64 bits, or at +12 of a vector of its control word's 32; what an operation of its own performs is performed as there. -/
def controlWrite (s : State) (off : Nat) (v : BitVec 64) : State :=
  if 0x0040 ≤ off ∧ off < 0x0140 then mboxWrite s (off - 0x0040) v
  else if off = 0x0190 then after (execFltackWrite v s) s
  else if 0x0200 ≤ off ∧ off < 0x0240 then after (execErrcntClear ((off - 0x0200) / 8) s) s
  else if 0x0240 ≤ off ∧ off < 0x0240 + 8 * 18 then
    let p := (off - 0x0240) / 8
    let s := if v.getLsbD 1 = (s.link (.port p)).disable then s else after (execPortDisableWrite p (v.getLsbD 1) s) s
    if v.getLsbD 0 then after (execPortRetrainWrite p s) s else s
  else if 0x1000 ≤ off ∧ off < 0x2000 then after (execWakeWrite ((off - 0x1000) / 8) s) s
  else if 0x2000 ≤ off ∧ off < 0x2000 + 16 * 4160 then
    let n := (off - 0x2000) / 16
    if 12 ≤ (off - 0x2000) % 16 then after (execVectorControlWrite n (v.extractLsb' 0 32) s) s
    else if (off - 0x2000) % 16 < 8 then s.modHub (fun h => { h with vectors := sset h.vectors n { (sget {} h.vectors n) with addr := v } })
    else
      let s := s.modHub (fun h => { h with vectors := sset h.vectors n { (sget {} h.vectors n) with data := v.extractLsb' 0 32 } })
      after (execVectorControlWrite n (v.extractLsb' 32 32) s) s
  else if 0x13000 ≤ off ∧ off < 0x13000 + 32 * 512 then
    let c := (off - 0x13000) / 32
    if (off - 0x13000) % 32 = 0 then writeDbgctl s c v else if (off - 0x13000) % 32 = 16 then writeDbginj s c v else s
  else if 0x18000 ≤ off ∧ off < 0x18000 + 8 * 512 then (if v.getLsbD 3 then after (execCellarDrop ((off - 0x18000) / 8) s) s else s)
  else s.modHub (fun h => writeControl h off v)

/-- REGISTER_WRITE: a CSRW whose turn has come, or a host write to a register window (11 R167, 17 R292, R293). -/
def execRegisterWrite (w : RegWrite) (s : State) : Result :=
  match w with
  | .csr c k => .next (csrwPlain s c k)
  | .queue off v => .next (queueWrite s off v)
  | .ctl off v => .next (controlWrite s off v)

end Sys2Proof.Machine
end

