-- ==== Sys2Proof/Machine/Vector.lean ====
section
/-! DEFINITION. Family: vector arithmetic, comparison, movement, conversion, permutation, reduction and random numbers (spec 13 R210-R220, 08 R120-R126, R132, R133). -/

namespace Sys2Proof.Machine

/-! Lane-wise forms. -/

/-- d receives, in its active elements, a function of the index (13 R208). -/
def lanesOp (cls : Nat) (t : ElemType) (m d : Nat) (f : State → Nat → Nat) (s : State) : State :=
  s.giveLanes cls t.width d (s.active m) (f s)

/-- Element i of register n. -/
def elemOf (s : State) (t : ElemType) (n i : Nat) : Nat := lane t.width (s.vreg n) i

/-- An arithmetic result: integers wrap, floating values are rounded once (13 R210). -/
def arith (t : ElemType) (rm : Rm) (fi : Int → Int → Int → Int) (ff : FVal → FVal → FVal → FVal) (a b c : Nat) : Nat :=
  if t.isInt then wrapInt t.width (fi (readInt t a) (readInt t b) (readInt t c))
  else writeVal t rm false (ff (readVal t a) (readVal t b) (readVal t c))

/-- A two-source or three-source arithmetic instruction. -/
def arithOp (cls : Nat) (t : ElemType) (rm : Rm) (m d a b c : Nat) (fi : Int → Int → Int → Int) (ff : FVal → FVal → FVal → FVal) (s : State) : State :=
  lanesOp cls t m d (fun s i => arith t rm fi ff (elemOf s t a i) (elemOf s t b i) (elemOf s t c i)) s

/-- VADD (13 R211). -/
def execVadd (q m : Nat) (t : ElemType) (rm : Rm) (d a b : Nat) (s : State) : Result :=
  cpSlot (.vadd q m t rm d a b) (arithOp 3 t rm m d a b b (fun x y _ => x + y) (fun x y _ => FVal.add x y)) s
/-- VSUB (13 R211). -/
def execVsub (q m : Nat) (t : ElemType) (rm : Rm) (d a b : Nat) (s : State) : Result :=
  cpSlot (.vsub q m t rm d a b) (arithOp 3 t rm m d a b b (fun x y _ => x - y) (fun x y _ => FVal.add x y.neg)) s
/-- VMUL (13 R211). -/
def execVmul (q m : Nat) (t : ElemType) (rm : Rm) (d a b : Nat) (s : State) : Result :=
  cpSlot (.vmul q m t rm d a b) (arithOp 4 t rm m d a b b (fun x y _ => x * y) (fun x y _ => FVal.mul x y)) s
/-- VFMA (13 R211). -/
def execVfma (q m : Nat) (t : ElemType) (rm : Rm) (d a b c : Nat) (s : State) : Result :=
  cpSlot (.vfma q m t rm d a b c) (arithOp 4 t rm m d a b c (fun x y z => x * y + z) (fun x y z => FVal.add (FVal.mul x y) z)) s
/-- VFMS (13 R211). -/
def execVfms (q m : Nat) (t : ElemType) (rm : Rm) (d a b c : Nat) (s : State) : Result :=
  cpSlot (.vfms q m t rm d a b c) (arithOp 4 t rm m d a b c (fun x y z => x * y - z) (fun x y z => FVal.add (FVal.mul x y) z.neg)) s
/-- VMIN (13 R211). -/
def execVmin (q m : Nat) (t : ElemType) (d a b : Nat) (s : State) : Result :=
  cpSlot (.vmin q m t d a b) (arithOp 3 t .rne m d a b b (fun x y _ => min x y) (fun x y _ => FVal.minn x y)) s
/-- VMAX (13 R211). -/
def execVmax (q m : Nat) (t : ElemType) (d a b : Nat) (s : State) : Result :=
  cpSlot (.vmax q m t d a b) (arithOp 3 t .rne m d a b b (fun x y _ => max x y) (fun x y _ => FVal.maxn x y)) s
/-- VABS (13 R211): of the most negative number it is that number. -/
def execVabs (q m : Nat) (t : ElemType) (d a : Nat) (s : State) : Result :=
  cpSlot (.vabs q m t d a) (arithOp 3 t .rne m d a a a (fun x _ _ => (x.natAbs : Int)) (fun x _ _ => x.abs)) s
/-- VNEG (13 R211). -/
def execVneg (q m : Nat) (t : ElemType) (d a : Nat) (s : State) : Result :=
  cpSlot (.vneg q m t d a) (arithOp 3 t .rne m d a a a (fun x _ _ => -x) (fun x _ _ => x.neg)) s
/-- VADDS (13 R211). -/
def execVadds (q m : Nat) (t : ElemType) (d a b : Nat) (s : State) : Result :=
  cpSlot (.vadds q m t d a b) (arithOp 3 t .rne m d a b b (fun x y _ => satInt t (x + y)) (fun x _ _ => x)) s

/-- VAND (13 R211). -/
def execVand (q m : Nat) (t : ElemType) (d a b : Nat) (s : State) : Result :=
  cpSlot (.vand q m t d a b) (lanesOp 2 t m d (fun s i => elemOf s t a i &&& elemOf s t b i)) s
/-- VOR (13 R211). -/
def execVor (q m : Nat) (t : ElemType) (d a b : Nat) (s : State) : Result :=
  cpSlot (.vor q m t d a b) (lanesOp 2 t m d (fun s i => elemOf s t a i ||| elemOf s t b i)) s
/-- VXOR (13 R211). -/
def execVxor (q m : Nat) (t : ElemType) (d a b : Nat) (s : State) : Result :=
  cpSlot (.vxor q m t d a b) (lanesOp 2 t m d (fun s i => elemOf s t a i ^^^ elemOf s t b i)) s
/-- VNOT (13 R211). -/
def execVnot (q m : Nat) (t : ElemType) (d a : Nat) (s : State) : Result :=
  cpSlot (.vnot q m t d a) (lanesOp 2 t m d (fun s i => 2 ^ t.width - 1 - elemOf s t a i)) s

/-- The count of a shift in element i, modulo w. -/
def shiftOf (s : State) (t : ElemType) (n : ShiftBy) (i : Nat) : Nat :=
  (match n with
  | .vec b => elemOf s t b i
  | .imm k => k) % t.width

/-- VSHL (13 R211). -/
def execVshl (q m : Nat) (t : ElemType) (d a : Nat) (n : ShiftBy) (s : State) : Result :=
  cpSlot (.vshl q m t d a n) (lanesOp 2 t m d (fun s i => elemOf s t a i * 2 ^ shiftOf s t n i)) s
/-- VSHR (13 R211). -/
def execVshr (q m : Nat) (t : ElemType) (d a : Nat) (n : ShiftBy) (s : State) : Result :=
  cpSlot (.vshr q m t d a n) (lanesOp 2 t m d (fun s i => elemOf s t a i / 2 ^ shiftOf s t n i)) s
/-- VSRA (13 R211): the sign bit fills, whatever the type. -/
def execVsra (q m : Nat) (t : ElemType) (d a : Nat) (n : ShiftBy) (s : State) : Result :=
  cpSlot (.vsra q m t d a n) (lanesOp 2 t m d (fun s i => wrapInt t.width (sextNat t.width (elemOf s t a i) / 2 ^ shiftOf s t n i))) s

/-! Comparison (13 R212). -/

/-- A condition on integers, and on floating values. -/
def cmpInt (c : Cmp) (a b : Int) : Bool :=
  match c with
  | .eq => a == b | .ne => a != b | .lt => decide (a < b) | .le => decide (a ≤ b) | .gt => decide (b < a) | .ge => decide (b ≤ a) | .un => false
def cmpF (c : Cmp) (a b : FVal) : Bool :=
  if a.isNan || b.isNan then (match c with | .ne => true | .un => true | _ => false)
  else match c with
    | .eq => !a.lt b && !b.lt a | .ne => a.lt b || b.lt a | .lt => a.lt b | .le => !b.lt a | .gt => b.lt a | .ge => !a.lt b | .un => false
def cmpElem (t : ElemType) (c : Cmp) (a b : Nat) : Bool :=
  if t.isInt then cmpInt c (readInt t a) (readInt t b) else cmpF c (readVal t a) (readVal t b)

/-- The mask whose bits below n come from a function. -/
def maskOf (n : Nat) (f : Nat → Bool) : Mask := BitVec.ofNat 1024 (packLanes 1 ((List.range n).map (fun i => (f i).toNat)))

/-- VCMP to a mask (13 R212). -/
def execVcmpMask (q m : Nat) (t : ElemType) (cond : Cmp) (d a b : Nat) (s : State) : Result :=
  cpSlot (.vcmpMask q m t cond d a b) (fun s =>
    s.give 1 (.m d (maskOf t.count (fun i => s.active m i && cmpElem t cond (elemOf s t a i) (elemOf s t b i))))) s
/-- VCMP to a vector (13 R212). -/
def execVcmpVec (q m : Nat) (t : ElemType) (cond : Cmp) (d a b : Nat) (s : State) : Result :=
  cpSlot (.vcmpVec q m t cond d a b) (lanesOp 3 t m d (fun s i =>
    if cmpElem t cond (elemOf s t a i) (elemOf s t b i) then 2 ^ t.width - 1 else 0)) s

/-! Selection and movement (13 R213). -/

/-- VSEL (13 R213). -/
def execVsel (q m : Nat) (t : ElemType) (d a b mc : Nat) (s : State) : Result :=
  cpSlot (.vsel q m t d a b mc) (lanesOp 2 t m d (fun s i => if s.active mc i then elemOf s t a i else elemOf s t b i)) s
/-- VMOV (13 R213). -/
def execVmov (q m : Nat) (t : ElemType) (d a : Nat) (s : State) : Result :=
  cpSlot (.vmov q m t d a) (lanesOp 2 t m d (fun s i => elemOf s t a i)) s
/-- VMOV of a mask to a mask (13 R213). -/
def execVmovMaskMask (q d a : Nat) (s : State) : Result := cpSlot (.vmovMaskMask q d a) (fun s => s.give 2 (.m d (s.mask a))) s
/-- VMOV of a vector to a mask (13 R213). -/
def execVmovMaskVec (q d a : Nat) (s : State) : Result := cpSlot (.vmovMaskVec q d a) (fun s => s.give 2 (.m d ((s.vreg a).setWidth 1024))) s
/-- VMOV of a mask to a vector (13 R213). -/
def execVmovVecMask (q d a : Nat) (s : State) : Result :=
  cpSlot (.vmovVecMask q d a) (fun s => s.give 2 (.vec (s.vphys d) (BitVec.ofNat 4096 (2 ^ 1024 - 1)) ((s.mask a).setWidth 4096))) s
/-- VBCAST of a k register (13 R213). -/
def execVbcastK (q m : Nat) (t : ElemType) (d k : Nat) (s : State) : Result :=
  cpSlot (.vbcastK q m t d k) (lanesOp 2 t m d (fun s _ => (s.kreg k).toNat)) s
/-- VBCAST of an immediate (13 R213). -/
def execVbcastImm (q m : Nat) (t : ElemType) (rm : Rm) (d : Nat) (i : BitVec 16) (s : State) : Result :=
  cpSlot (.vbcastImm q m t rm d i) (lanesOp 2 t m d (fun _ _ =>
    if t.isInt then wrapInt t.width i.toInt else writeVal t rm true (decodeF fmtF16 i.toNat))) s

/-! Conversion (13 R214). -/

/-- The conversion of one element; SAT acts on a narrowing of an integer only. -/
def convertElem (dty sty : ElemType) (sat : Bool) (rm : Rm) (x : Nat) : Nat :=
  if dty.isInt && sty.isInt then
    (if sat && decide (dty.width ≤ sty.width) then wrapInt dty.width (satInt dty (readInt sty x)) else wrapInt dty.width (readInt sty x))
  else writeVal dty rm false (readVal sty x)

/-- VCVT (13 R214): the logical elements interleave across the group of the wider side. -/
def execVcvt (q m : Nat) (dty sty : ElemType) (sat : Bool) (rm : Rm) (d a : Nat) (s : State) : Result :=
  cpSlot (.vcvt q m dty sty sat rm d a) (fun s =>
    let rs := cvtSrcRegs dty sty
    let rd := cvtDstRegs dty sty
    (List.range rd).foldl (fun t r =>
      t.give 5 (.vec (s.vphys (d + r))
        (laneBits dty.width dty.count (fun l => s.active m (l * rd + r)))
        (laneVec dty.width dty.count (fun l => s.active m (l * rd + r)) (fun l =>
          let i := l * rd + r
          convertElem dty sty sat rm (lane sty.width (s.vreg (a + i % rs)) (i / rs)))))) s) s

/-! Permutation (13 R215). -/

/-- VSHUF (13 R215). -/
def execVshuf (q m : Nat) (t : ElemType) (d a b : Nat) (s : State) : Result :=
  cpSlot (.vshuf q m t d a b) (lanesOp 5 t m d (fun s i =>
    let f := shufRegs t
    elemOf s t a (lane 16 (s.vreg (b + i % f)) (i / f) % t.count))) s
/-- VSLIDE (13 R215). -/
def execVslide (q m : Nat) (t : ElemType) (d a b k : Nat) (s : State) : Result :=
  cpSlot (.vslide q m t d a b k) (lanesOp 5 t m d (fun s i =>
    let n := (s.kreg k).toNat % t.count
    if i + n < t.count then elemOf s t a (i + n) else elemOf s t b (i + n - t.count))) s

/-! Reductions (13 R216, R217; 08 R132, R133). -/

/-- The pairs of one level of the tree. -/
def treeLevel {α : Type} (f : α → α → α) : List α → List α
  | x :: y :: t => f x y :: treeLevel f t
  | l => l
/-- The root of the pairwise tree after n levels. -/
def tree {α : Type} (f : α → α → α) (z : α) : Nat → List α → α
  | 0, l => l.headD z
  | n + 1, l => tree f z n (treeLevel f l)

/-- The identity of a reduction (08 R132), as a pattern. -/
def redIdentity (t : ElemType) (op : RedOp) : Nat :=
  match op with
  | .sum => if t.isInt then 0 else writeVal t .rne false (.fin true 0 0)
  | .max => if t.isInt then wrapInt t.width (intMin t) else writeVal t .rne false .nan
  | .min => if t.isInt then wrapInt t.width (intMax t) else writeVal t .rne false .nan

/-- One node of a reduction, on patterns. -/
def redNode (t : ElemType) (op : RedOp) (rm : Rm) (a b : Nat) : Nat :=
  match op with
  | .sum => arith t rm (fun x y _ => x + y) (fun x y _ => FVal.add x y) a b b
  | .max => arith t .rne (fun x y _ => max x y) (fun x y _ => FVal.maxn x y) a b b
  | .min => arith t .rne (fun x y _ => min x y) (fun x y _ => FVal.minn x y) a b b

/-- VREDS (13 R216): the root goes to element 0, whatever the mask. -/
def execVreds (q m : Nat) (t : ElemType) (op : RedOp) (rm : Rm) (d a : Nat) (s : State) : Result :=
  cpSlot (.vreds q m t op rm d a) (fun s =>
    let leaves := (List.range t.count).map (fun i => if s.active m i then elemOf s t a i else redIdentity t op)
    s.giveLanes 6 t.width d (fun i => i == 0) (fun _ => tree (redNode t op rm) 0 10 leaves)) s

/-- A candidate of VMAXI or VMINI (08 R133): its pattern and index; none for an inactive lane. -/
def winner (t : ElemType) (hi : Bool) (x y : Option (Nat × Nat)) : Option (Nat × Nat) :=
  match x, y with
  | none, y => y
  | x, none => x
  | some (a, i), some (b, j) =>
    let right :=
      if t.isInt then (if hi then decide (readInt t a < readInt t b) else decide (readInt t b < readInt t a))
      else
        let u := readVal t a
        let v := readVal t b
        if v.isNan then false else if u.isNan then true else if hi then v.over u else u.over v
    if right then some (b, j) else some (a, i)

/-- The index and value that VMAXI and VMINI write. -/
def winnerOf (t : ElemType) (hi : Bool) (n : Nat) : Option (Nat × Nat) → Nat × Nat
  | some (a, i) => (i, if t.isInt then a else writeVal t .rne false (readVal t a))
  | none => (n, redIdentity t (if hi then .max else .min))

/-- VMAXI and VMINI: bytes 0-3 and 8-15 of d (13 R217). -/
def extremeOp (t : ElemType) (hi : Bool) (m d a : Nat) (s : State) : State :=
  let leaves := (List.range t.count).map (fun i => if s.active m i then some (elemOf s t a i, i) else none)
  let (i, v) := winnerOf t hi t.count (tree (winner t hi) none 10 leaves)
  s.give 6 (.vec (s.vphys d) (BitVec.ofNat 4096 (2 ^ 32 - 1 + (2 ^ 64 - 1) * 2 ^ 64)) (BitVec.ofNat 4096 (i + v * 2 ^ 64)))

/-- VMAXI (13 R217). -/
def execVmaxi (q m : Nat) (t : ElemType) (d a : Nat) (s : State) : Result := cpSlot (.vmaxi q m t d a) (extremeOp t true m d a) s
/-- VMINI (13 R217). -/
def execVmini (q m : Nat) (t : ElemType) (d a : Nat) (s : State) : Result := cpSlot (.vmini q m t d a) (extremeOp t false m d a) s

/-- Set bits among the low n of a number. -/
def bitCount : Nat → Nat → Nat
  | 0, _ => 0
  | n + 1, x => x % 2 + bitCount n (x / 2)

/-- VPOPC of elements (13 R218). -/
def execVpopc (q m : Nat) (t : ElemType) (d a : Nat) (s : State) : Result :=
  cpSlot (.vpopc q m t d a) (lanesOp 6 t m d (fun s i => bitCount t.width (elemOf s t a i))) s
/-- VPOPC of the governing mask (13 R218). -/
def execVpopcMask (q m : Nat) (t : ElemType) (d : Nat) (s : State) : Result :=
  cpSlot (.vpopcMask q m t d) (fun s =>
    s.give 6 (.vec (s.vphys d) (BitVec.ofNat 4096 (2 ^ 32 - 1)) (BitVec.ofNat 4096 ((List.range t.count).filter (s.active m)).length))) s

/-! Random numbers (13 R219) and KFROMV (13 R220). -/

/-- Lane l of VRNG. -/
def rngLane (ka kb : Word) (n : Nat) : Nat :=
  let z := ka ^^^ (kb * 0x9E3779B97F4A7C15) ^^^ (BitVec.ofNat 64 n * 0xD1B54A32D192ED03)
  let z := (z ^^^ (z >>> 30)) * 0xBF58476D1CE4E5B9
  let z := (z ^^^ (z >>> 27)) * 0x94D049BB133111EB
  let z := z ^^^ (z >>> 31)
  z.toNat / 2 ^ 32

/-- VRNG (13 R219). -/
def execVrng (q m d ka kb base : Nat) (s : State) : Result :=
  cpSlot (.vrng q m d ka kb base) (fun s => s.giveLanes 7 32 d (s.active m) (fun l => rngLane (s.kreg ka) (s.kreg kb) (base + l))) s

/-- KFROMV (13 R220). -/
def execKfromv (q : Nat) (t : ElemType) (d a idx : Nat) (s : State) : Result :=
  cpSlot (.kfromv q t d a idx) (fun s =>
    s.give 5 (.k d (if t.signed then BitVec.ofInt 64 (readInt t (elemOf s t a idx)) else BitVec.ofNat 64 (elemOf s t a idx)))) s

end Sys2Proof.Machine
end

