-- ==== Sys2Proof/Machine/VectorMem.lean ====
section
/-! DEFINITION. Family: special functions, the piecewise-cubic unit, and the CP's memory and ring accesses (spec 13 R222-R227, 08 R134, R135). -/

namespace Sys2Proof.Machine

/-- Class of a special function by its grade (11 R173). -/
def gradeClass (acc : Bool) : Nat := if acc then 9 else 8

/-- A function of FP32 elements. -/
def specialOp (cls m d a : Nat) (f : BitVec 32 → Nat) (s : State) : State :=
  s.giveLanes cls 32 d (s.active m) (fun i => f (BitVec.ofNat 32 (lane 32 (s.vreg a) i)))

/-- VEXP2 (13 R222). -/
def execVexp2 (q m : Nat) (acc : Bool) (rm : Rm) (d a : Nat) (s : State) : Result :=
  cpSlot (.vexp2 q m acc rm d a) (specialOp (gradeClass acc) m d a (exp2F acc)) s
/-- VLOG2 (13 R222). -/
def execVlog2 (q m : Nat) (acc : Bool) (rm : Rm) (d a : Nat) (s : State) : Result :=
  cpSlot (.vlog2 q m acc rm d a) (specialOp (gradeClass acc) m d a (log2F acc)) s
/-- VRCP (13 R222). -/
def execVrcp (q m : Nat) (acc : Bool) (rm : Rm) (d a : Nat) (s : State) : Result :=
  cpSlot (.vrcp q m acc rm d a) (specialOp (gradeClass acc) m d a (rcpF acc rm)) s
/-- VRSQ (13 R222). -/
def execVrsq (q m : Nat) (acc : Bool) (rm : Rm) (d a : Nat) (s : State) : Result :=
  cpSlot (.vrsq q m acc rm d a) (specialOp (gradeClass acc) m d a (rsqF acc rm)) s
/-- VPWP (13 R223, 08 R135). -/
def execVpwp (q m : Nat) (rm : Rm) (d a : Nat) (s : State) : Result :=
  cpSlot (.vpwp q m rm d a) (fun s => specialOp 10 m d a (pwpF rm (s.cp s.c).table) s) s

/-- PWLD (13 R223). -/
def execPwld (q k : Nat) (x : BitVec 9) (s : State) : Result :=
  cpSlot (.pwld q k x) (fun s => s.giveLoad 11 (.table (BitVec.ofNat 10240 (s.areaRead (s.areaOff k x 64).toNat 1280)))) s
/-- PWST (13 R223). -/
def execPwst (q k : Nat) (x : BitVec 9) (s : State) : Result :=
  cpSlot (.pwst q k x) (fun s => s.areaWrite (s.areaOff k x 64).toNat 1280 (s.cp s.c).table.toNat) s

/-- VLD (13 R224). -/
def execVld (q m : Nat) (t : ElemType) (d k : Nat) (x : BitVec 9) (s : State) : Result :=
  cpSlot (.vld q m t d k x) (fun s =>
    s.giveLoad 11 (.vec (s.vphys d) (laneBits t.width t.count (s.active m)) (BitVec.ofNat 4096 (s.areaRead (s.areaOff k x 64).toNat 512)))) s

/-- The bits of an access of the area, n bytes from an offset, that `bits` marks; a byte with no such bit is not written (13 R224). -/
def areaMasked (off : Nat) (bits value : Nat) : Nat → State → State
  | 0, s => s
  | n + 1, s =>
    let m := bits / 256 ^ n % 256
    let s := areaMasked off bits value n s
    if m = 0 then s
    else
      let old := s.areaRead (off + n) 1
      s.areaWrite (off + n) 1 ((old &&& (255 - m)) ||| (value / 256 ^ n % 256 &&& m))

/-- A masked write of a register, granule by granule: a granule of 64 bytes with every bit marked is written whole (25 R350). -/
def areaStore (off : Nat) (bits value : Nat) (s : State) : State :=
  (List.range 8).foldl (fun s g =>
    let b := bits / 2 ^ (512 * g) % 2 ^ 512
    let v := value / 2 ^ (512 * g) % 2 ^ 512
    if b = 0 then s
    else if b = 2 ^ 512 - 1 then s.areaWrite (off + 64 * g) 64 v
    else areaMasked (off + 64 * g) b v 64 s) s

/-- VST (13 R224). -/
def execVst (q m : Nat) (t : ElemType) (b k : Nat) (x : BitVec 9) (s : State) : Result :=
  cpSlot (.vst q m t b k x) (fun s =>
    areaStore (s.areaOff k x 64).toNat (laneBits t.width t.count (s.active m)).toNat (s.vreg b).toNat s) s

/-- KLD (13 R224). -/
def execKld (q d k : Nat) (x : BitVec 9) (s : State) : Result :=
  cpSlot (.kld q d k x) (fun s => s.giveLoad 11 (.k d (BitVec.ofNat 64 (s.areaRead (s.areaOff k x 8).toNat 8)))) s

/-- VLDR (13 R225). -/
def execVldr (q d rg k ch : Nat) (pop : Bool) (s : State) : Result :=
  cpSlot (.vldr q d rg k ch pop) (fun s =>
    let g := s.ring s.c rg
    let v := BitVec.ofNat 4096 (bytesNat (s.spadRead s.c (g.placeOff g.head + 512 * (ch + (s.kreg k).toNat)) 512))
    let s := s.giveLoad 11 (.vec (s.vphys d) (-1) v)
    if pop then s.modRing s.c rg (fun g => g.pop g.head) else s) s

/-- VGATH (13 R226). -/
def execVgath (q m : Nat) (t : ElemType) (d k b : Nat) (s : State) : Result :=
  cpSlot (.vgath q m t d k b) (fun s =>
    let offs := gatherOffs s m t k b
    let v := laneVec t.width t.count (s.active m) (fun i => match offs.find? (fun p => p.1 == i) with
      | some p => s.areaRead p.2.toNat (t.width / 8)
      | none => 0)
    s.giveLoad 12 (.vec (s.vphys d) (laneBits t.width t.count (s.active m)) v)) s

/-- VSCAT (13 R226): ascending elements, so that of two equal indices the higher stands. -/
def execVscat (q m : Nat) (t : ElemType) (k b c : Nat) (s : State) : Result :=
  cpSlot (.vscat q m t k b c) (fun s =>
    (gatherOffs s m t k b).foldl (fun u p => u.areaWrite p.2.toNat (t.width / 8) (lane t.width (s.vreg c) p.1)) s) s

end Sys2Proof.Machine
end

