-- ==== Sys2Proof/Machine/Hyper.lean ====
section
/-! DEFINITION. Family: hypervector instructions (spec 14 R250-R255, 08 R136), the patch unit's PFEED (03 R41-R43, 14 R257) and the grammar mask MLDG (14 R258). -/

namespace Sys2Proof.Machine

/-- rotl of 08 R125. -/
def rotH (h : Hyper) (n : Nat) : Hyper := (h <<< (n % 8192)) ||| (h >>> (8192 - n % 8192))

/-- Number of set bits of a hypervector. -/
def popH (h : Hyper) : Nat := bitCount 8192 h.toNat

/-- Counter i of a bank, and the bank whose counters come from a function (08 R136). -/
def counterOf (b : Bank) (i : Nat) : Int := sextNat 8 (b.toNat / 2 ^ (8 * i))
def bankOf (f : Nat → Int) : Bank := BitVec.ofNat 65536 (packLanes 8 ((List.range 8192).map (fun i => wrapInt 8 (f i))))

/-- HLD (14 R251). -/
def execHld (q d k : Nat) (x : BitVec 9) (s : State) : Result :=
  cpSlot (.hld q d k x) (fun s => s.giveLoad 13 (.h d (BitVec.ofNat 8192 (s.areaRead (s.areaOff k x 1024).toNat 1024)))) s
/-- HST (14 R251). -/
def execHst (q b k : Nat) (x : BitVec 9) (s : State) : Result :=
  cpSlot (.hst q b k x) (fun s => s.areaWrite (s.areaOff k x 1024).toNat 1024 (s.hreg b).toNat) s
/-- HBIND (14 R252). -/
def execHbind (q d a b : Nat) (s : State) : Result := cpSlot (.hbind q d a b) (fun s => s.give 13 (.h d (s.hreg a ^^^ s.hreg b))) s
/-- HPERM by an immediate (14 R252). -/
def execHpermImm (q d a n : Nat) (s : State) : Result := cpSlot (.hpermImm q d a n) (fun s => s.give 13 (.h d (rotH (s.hreg a) n))) s
/-- HPERM by a k register, modulo 8192 (14 R252). -/
def execHpermK (q d a k : Nat) (s : State) : Result :=
  cpSlot (.hpermK q d a k) (fun s => s.give 13 (.h d (rotH (s.hreg a) ((s.kreg k).toNat % 8192)))) s

/-- HBUN on one counter. -/
def bundleCounter (c : Int) (bit : Bool) : Int := clampInt (c + (if bit then 1 else -1)) (-127) 127
/-- HBUN (14 R252). -/
def execHbun (q d a : Nat) (s : State) : Result :=
  cpSlot (.hbun q d a) (fun s => s.give 13 (.bank d (bankOf (fun i => bundleCounter (counterOf (s.bank d) i) ((s.hreg a).getLsbD i))))) s
/-- HCLRB (14 R252). -/
def execHclrb (q d : Nat) (s : State) : Result := cpSlot (.hclrb q d) (fun s => s.give 13 (.bank d 0)) s

/-- HTHR on one position. -/
def threshold (c : Int) (tie : Bool) : Bool := if 0 < c then true else if c < 0 then false else tie
/-- HTHR, and the rotation of ht (14 R252). -/
def execHthr (q d a : Nat) (s : State) : Result :=
  cpSlot (.hthr q d a) (fun s =>
    let ht := (s.cp s.c).ht
    let v := BitVec.ofNat 8192 (packLanes 1 ((List.range 8192).map (fun i => (threshold (counterOf (s.bank a) i) (ht.getLsbD i)).toNat)))
    (s.give 13 (.h d v)).give 13 (.ht (rotH ht 1))) s
/-- HDIST (14 R253). -/
def execHdist (q d a b : Nat) (s : State) : Result :=
  cpSlot (.hdist q d a b) (fun s => s.give 14 (.k d (BitVec.ofNat 64 (popH (s.hreg a ^^^ s.hreg b))))) s

/-- The nearest of the entries from e on, given the best so far: entries left, entry, best, its distance. -/
def nearest (dist : Nat → Nat) : Nat → Nat → Nat → Nat → Nat × Nat
  | 0, _, best, bd => (best, bd)
  | n + 1, e, best, bd => if dist e < bd then nearest dist n (e + 1) e (dist e) else nearest dist n (e + 1) best bd
/-- HNEAR (14 R254). -/
def execHnear (q d a : Nat) (s : State) : Result :=
  cpSlot (.hnear q d a) (fun s =>
    let p := s.cp s.c
    let dist (e : Nat) : Nat := popH (s.hreg a ^^^ BitVec.ofNat 8192 (s.areaRead (p.hrb.toNat + 1024 * e) 1024))
    let v : Word := if p.hrn = 0 then -1
      else
        let (best, bd) := nearest dist (p.hrn.toNat - 1) 1 0 (dist 0)
        BitVec.ofNat 64 (best * 2 ^ 32 + bd)
    s.result (latOf s s.c 14) (8 + (p.hrn.toNat + 7) / 8) true (.k d v)) s

/-- The chunks of HHASH, n bits each, XORed. -/
def hashChunks (n : Nat) : Nat → Nat → Nat → Nat
  | 0, _, r => r
  | fuel + 1, x, r => if x = 0 then r else hashChunks n fuel (x / 2 ^ n) (r ^^^ (x % 2 ^ n))
/-- HHASH (14 R253). -/
def execHhash (q d a n : Nat) (s : State) : Result :=
  cpSlot (.hhash q d a n) (fun s => s.give 14 (.k d (BitVec.ofNat 64 (hashChunks n 8192 (s.hreg a).toNat 0)))) s

/-- The words of HSEED from a state (14 R255): words left, the number of the next, and the state. -/
def seedWords : Nat → Nat → Word → List Nat
  | 0, _, _ => []
  | n + 1, w, s =>
    let s := s ^^^ (s <<< 13)
    let s := s ^^^ (s >>> 7)
    let s := s ^^^ (s <<< 17)
    (s ^^^ (BitVec.ofNat 64 w * 0xD1B54A32D192ED03)).toNat :: seedWords n (w + 1) s
/-- The hypervector of a seed. -/
def seedH (k : Word) : Hyper := BitVec.ofNat 8192 (packLanes 64 (seedWords 128 0 (if k = 0 then 0x9E3779B97F4A7C15 else k)))
/-- HSEED (14 R255). -/
def execHseed (q d k : Nat) (s : State) : Result := cpSlot (.hseed q d k) (fun s => s.give 13 (.h d (seedH (s.kreg k)))) s
/-- HPOP (14 R253). -/
def execHpop (q d a : Nat) (s : State) : Result := cpSlot (.hpop q d a) (fun s => s.give 14 (.k d (BitVec.ofNat 64 (popH (s.hreg a))))) s
/-- HMOV (14 R252). -/
def execHmov (q d a : Nat) (s : State) : Result := cpSlot (.hmov q d a) (fun s => s.give 13 (.h d (s.hreg a))) s
/-- HMOV to ht (14 R252). -/
def execHmovToHt (q a : Nat) (s : State) : Result := cpSlot (.hmovToHt q a) (fun s => s.give 13 (.ht (s.hreg a))) s
/-- HMOV from ht (14 R252). -/
def execHmovFromHt (q d : Nat) (s : State) : Result := cpSlot (.hmovFromHt q d) (fun s => s.give 13 (.h d (s.cp s.c).ht)) s
/-- HCFG (14 R254). -/
def execHcfg (q a b : Nat) (s : State) : Result := cpSlot (.hcfg q a b) (fun s => s.give 13 (.hcfg (s.kreg a) (s.kreg b))) s

/-! The patch unit (03 R41-R43). -/

/-- A close during a PFEED: the entry, the trap, and the slot after it (03 R42). -/
def feedClose (s : State) (c l cause : Nat) : State :=
  (closePatch s c l cause).modSlot c l (fun p => { p with
    pp := p.pp + 1, ps := p.pb, pl := 1, pb := p.pb + 1, lcause := BitVec.ofNat 2 cause, state := if p.gen then 2 else p.state })

/-- PFEED on slot l with its surprise. -/
def feedSlot (s : State) (c l : Nat) (v : FVal) : State :=
  let p := s.slot c l
  if p.state ≠ 1 then s
  else if p.pb = 0xFFFFFFFF then s.modSlot c l (fun p => { p with state := 3, endc := 5 })
  else if p.pl = 0 then s.modSlot c l (fun p => { p with ps := p.pb, pl := 1, pb := p.pb + 1 })
  else if p.pm.toNat ≤ p.pl.toNat then feedClose s c l 1
  else if v = .inf false ∨ (v.isNan = false ∧ (decodeF fmtF16 p.pt.toNat).lt v = true) then feedClose s c l 0
  else s.modSlot c l (fun p => { p with pl := p.pl + 1, pb := p.pb + 1 })

/-- The live mask: the slots that are OPEN. -/
def liveMask (s : State) (c : Nat) : Mask := maskOf 64 (fun l => (s.slot c l).state == 1)

/-- PFEED (14 R257): slots in ascending order, then the live mask, class 15. -/
def execPfeed (q m d a : Nat) (s : State) : Result :=
  cpSlot (.pfeed q m d a) (fun s =>
    let n := (feedCloses s m a).length
    let t := (List.range 64).foldl (fun t l =>
      if s.active m l then feedSlot t s.c l (decodeF fmtF16 (lane 16 (s.vreg a) l)) else t) s
    (if n = 0 then t else countEvent t s.c 8 n).give 15 (.m d (liveMask t s.c))) s

/-- MLDG (14 R258). -/
def execMldg (q d k : Nat) (x : BitVec 9) (s : State) : Result :=
  cpSlot (.mldg q d k x) (fun s => s.giveLoad 15 (.m d (BitVec.ofNat 1024 (s.areaRead (s.areaOff k x 32).toNat 32)))) s

end Sys2Proof.Machine
end

