-- ==== Sys2Proof/Machine/MatrixIsa.lean ====
section
/-! DEFINITION. Family: matrix and accumulator instructions of slot M (spec 14 R242-R249), and the matrix queue's steps: MATRIX_QUEUE_DEQUEUE (14 R237, R244) and MATRIX_ENTRY_RETIRE (14 R243). -/

namespace Sys2Proof.Machine

/-- An entry enters the matrix queue; an MMA takes the next command number (14 R236). -/
def enqueueM (i : Instr) (source : Vec) (mask : Mask) (s : State) : State :=
  s.modCp s.c (fun p =>
    let n := if isMma i then p.lastNum + 1 else 0
    { p with
      mq := p.mq ++ [⟨i, n, p.issued, p.pc, source, mask, s.coreTime s.c, none⟩]
      lastNum := if isMma i then p.lastNum + 1 else p.lastNum })

/-- MMA (14 R242). -/
def execMma (q d ra rb : Nat) (s : State) : Result := cpSlot (.mma q d ra rb) (enqueueM (.mma q d ra rb) 0 0) s
/-- ACLR in its peek form (14 R245). -/
def execAclrPeek (q d : Nat) (s : State) : Result := cpSlot (.aclrPeek q d) (enqueueM (.aclrPeek q d) 0 0) s
/-- ACLR with an immediate (14 R245). -/
def execAclrImm (q d : Nat) (i : BitVec 16) (s : State) : Result := cpSlot (.aclrImm q d i) (enqueueM (.aclrImm q d i) 0 0) s
/-- ANORM (14 R246). -/
def execAnorm (q d : Nat) (s : State) : Result := cpSlot (.anorm q d) (enqueueM (.anorm q d) 0 0) s
/-- AWR reads its vector as its bundle issues (14 R236, R248). -/
def execAwr (q m : Nat) (sel : AccSel) (d a row : Nat) (s : State) : Result :=
  cpSlot (.awr q m sel d a row) (fun s => enqueueM (.awr q m sel d a row) (s.vreg a) (s.mask m) s) s

/-- An element of a tile. -/
def State.accElem (s : State) (n i : Nat) : AccElem := sget {} (sget {} (s.core s.c).acc n).elems i

/-- ARD, visible eight bundles later (14 R238, R247). -/
def execArd (q m : Nat) (t : ElemType) (rm : Rm) (d a row : Nat) (s : State) : Result :=
  cpSlot (.ard q m t rm d a row) (fun s =>
    s.result 8 8 false (.vec (s.vphys d) (laneBits t.width t.count (s.active m))
      (laneVec t.width t.count (s.active m) (fun i => (s.accElem a (64 * row + i)).convert t rm)))) s

/-- ASTAT, visible four bundles later (14 R238, R249). -/
def execAstat (q m : Nat) (sel : AccSel) (d a row : Nat) (s : State) : Result :=
  cpSlot (.astat q m sel d a row) (fun s =>
    s.result 4 4 false (.vec (s.vphys d) (laneBits 64 64 (s.active m))
      (laneVec 64 64 (s.active m) (fun j => astatElem sel (s.accElem a (64 * row + j)))))) s

/-- The OR of every element's F. -/
def flagsOr (t : Tile) : BitVec 16 := t.elems.foldl (fun f p => f ||| p.2.f) 0

/-- ASTAT.depth (14 R249). -/
def execAstatDepth (q d a : Nat) (s : State) : Result :=
  cpSlot (.astatDepth q d a) (fun s =>
    let t : Tile := sget {} (s.core s.c).acc a
    s.result 4 4 false (.vec (s.vphys d) (BitVec.ofNat 4096 (2 ^ 32 - 1)) (BitVec.ofNat 4096 (t.depth.toNat + 65536 * (flagsOr t).toNat)))) s

/-! The queue's own steps. -/

/-- MATRIX_QUEUE_DEQUEUE: the head entry starts, waits, or faults (14 R237, R244). A halted core with QHOLD dequeues nothing (24 R335). -/
def execMatrixQueueDequeue (c : Nat) (s : State) : Result :=
  if !coreLive s c || (s.cp c).halted || ((s.core c).dbg.halt && (s.core c).dbg.qhold) then .next s
  else match mqHead s c with
    | .idle => .next s
    | .waitFq t => .next t
    | .start t => .next ((if (s.cp c).paced then countEvent t c 10 1 else t).modCp c (fun p => { p with paced := false }))
    | .fault f => .next (match (s.cp c).mq with
        | h :: _ => mqTrap s c h.num h.pc f
        | [] => s)

/-- MATRIX_ENTRY_RETIRE: the first entry in the array retires in its cycle, with the residue mismatches it met (14 R243, 25 R352). -/
def execMatrixEntryRetire (c : Nat) (err : ResidueErrors) (s : State) : Result :=
  if (s.core c).gate != .on || !clocked s c then .next s
  else match (s.cp c).mflight with
    | [] => .next s
    | r :: _ => if errorsFit (s.cp c) err && decide (retireAt r err ≤ s.coreTime c) then .next (cpEnds (mqRetire s c err) c) else .next s

end Sys2Proof.Machine
end

