-- ==== Sys2Proof/Machine/Dispatch.lean ====
section
/-! DEFINITION. One arm for each constructor of Instr: a direct call of its meaning. -/

namespace Sys2Proof.Machine

def exec (i : Instr) (s : State) : Host.Outcome State Fault Refusal :=
  match i with
  | .add d a b => Sys2Proof.Machine.execAdd d a b s
  | .sub d a b => Sys2Proof.Machine.execSub d a b s
  | .mul d a b => Sys2Proof.Machine.execMul d a b s
  | .mulh d a b => Sys2Proof.Machine.execMulh d a b s
  | .mulhu d a b => Sys2Proof.Machine.execMulhu d a b s
  | .div d a b => Sys2Proof.Machine.execDiv d a b s
  | .divu d a b => Sys2Proof.Machine.execDivu d a b s
  | .rem d a b => Sys2Proof.Machine.execRem d a b s
  | .remu d a b => Sys2Proof.Machine.execRemu d a b s
  | .and d a b => Sys2Proof.Machine.execAnd d a b s
  | .or d a b => Sys2Proof.Machine.execOr d a b s
  | .xor d a b => Sys2Proof.Machine.execXor d a b s
  | .shl d a b => Sys2Proof.Machine.execShl d a b s
  | .shr d a b => Sys2Proof.Machine.execShr d a b s
  | .sra d a b => Sys2Proof.Machine.execSra d a b s
  | .min d a b => Sys2Proof.Machine.execMin d a b s
  | .max d a b => Sys2Proof.Machine.execMax d a b s
  | .minu d a b => Sys2Proof.Machine.execMinu d a b s
  | .maxu d a b => Sys2Proof.Machine.execMaxu d a b s
  | .slt d a b => Sys2Proof.Machine.execSlt d a b s
  | .sltu d a b => Sys2Proof.Machine.execSltu d a b s
  | .clz d a => Sys2Proof.Machine.execClz d a s
  | .popc d a => Sys2Proof.Machine.execPopc d a s
  | .addi d a n => Sys2Proof.Machine.execAddi d a n s
  | .andi d a n => Sys2Proof.Machine.execAndi d a n s
  | .ori d a n => Sys2Proof.Machine.execOri d a n s
  | .xori d a n => Sys2Proof.Machine.execXori d a n s
  | .shli d a s1 => Sys2Proof.Machine.execShli d a s1 s
  | .shri d a s1 => Sys2Proof.Machine.execShri d a s1 s
  | .srai d a s1 => Sys2Proof.Machine.execSrai d a s1 s
  | .slti d a n => Sys2Proof.Machine.execSlti d a n s
  | .lui d n => Sys2Proof.Machine.execLui d n s
  | .adpc d n => Sys2Proof.Machine.execAdpc d n s
  | .jal d n => Sys2Proof.Machine.execJal d n s
  | .jalr d a n => Sys2Proof.Machine.execJalr d a n s
  | .beq a b n => Sys2Proof.Machine.execBeq a b n s
  | .bne a b n => Sys2Proof.Machine.execBne a b n s
  | .blt a b n => Sys2Proof.Machine.execBlt a b n s
  | .bge a b n => Sys2Proof.Machine.execBge a b n s
  | .bltu a b n => Sys2Proof.Machine.execBltu a b n s
  | .bgeu a b n => Sys2Proof.Machine.execBgeu a b n s
  | .ldb d a c n => Sys2Proof.Machine.execLdb d a c n s
  | .ldbu d a c n => Sys2Proof.Machine.execLdbu d a c n s
  | .ldh d a c n => Sys2Proof.Machine.execLdh d a c n s
  | .ldhu d a c n => Sys2Proof.Machine.execLdhu d a c n s
  | .ldw d a c n => Sys2Proof.Machine.execLdw d a c n s
  | .ldwu d a c n => Sys2Proof.Machine.execLdwu d a c n s
  | .ldd d a c n => Sys2Proof.Machine.execLdd d a c n s
  | .stb d a c n => Sys2Proof.Machine.execStb d a c n s
  | .sth d a c n => Sys2Proof.Machine.execSth d a c n s
  | .stw d a c n => Sys2Proof.Machine.execStw d a c n s
  | .std d a c n => Sys2Proof.Machine.execStd d a c n s
  | .aadd d a b c nr w => Sys2Proof.Machine.execAadd d a b c nr w s
  | .aand d a b c nr w => Sys2Proof.Machine.execAand d a b c nr w s
  | .aor d a b c nr w => Sys2Proof.Machine.execAor d a b c nr w s
  | .axor d a b c nr w => Sys2Proof.Machine.execAxor d a b c nr w s
  | .aswp d a b c nr w => Sys2Proof.Machine.execAswp d a b c nr w s
  | .amax d a b c nr w => Sys2Proof.Machine.execAmax d a b c nr w s
  | .amin d a b c nr w => Sys2Proof.Machine.execAmin d a b c nr w s
  | .amaxu d a b c nr w => Sys2Proof.Machine.execAmaxu d a b c nr w s
  | .aminu d a b c nr w => Sys2Proof.Machine.execAminu d a b c nr w s
  | .acas d a b c nr w => Sys2Proof.Machine.execAcas d a b c nr w s
  | .famax d a b c nr => Sys2Proof.Machine.execFamax d a b c nr s
  | .famin d a b c nr => Sys2Proof.Machine.execFamin d a b c nr s
  | .faadd d a b c nr => Sys2Proof.Machine.execFaadd d a b c nr s
  | .fence d scope mask => Sys2Proof.Machine.execFence d scope mask s
  | .pfence d scope => Sys2Proof.Machine.execPfence d scope s
  | .csrr d n => Sys2Proof.Machine.execCsrr d n s
  | .csrw a n => Sys2Proof.Machine.execCsrw a n s
  | .pwr d a b p => Sys2Proof.Machine.execPwr d a b p s
  | .dqpush d a b c => Sys2Proof.Machine.execDqpush d a b c s
  | .dqtake d a c => Sys2Proof.Machine.execDqtake d a c s
  | .dqsteal d a c => Sys2Proof.Machine.execDqsteal d a c s
  | .fmtq a => Sys2Proof.Machine.execFmtq a s
  | .lntw a n => Sys2Proof.Machine.execLntw a n s
  | .lngo n => Sys2Proof.Machine.execLngo n s
  | .lngoTakeEffect core => Sys2Proof.Machine.execLngoTakeEffect core s
  | .waite d a e => Sys2Proof.Machine.execWaite d a e s
  | .engst d e => Sys2Proof.Machine.execEngst d e s
  | .prd d a p => Sys2Proof.Machine.execPrd d a p s
  | .pclose d a => Sys2Proof.Machine.execPclose d a s
  | .prel d a => Sys2Proof.Machine.execPrel d a s
  | .launch d a => Sys2Proof.Machine.execLaunch d a s
  | .trig => Sys2Proof.Machine.execTrig s
  | .triggerMark core => Sys2Proof.Machine.execTriggerMark core s
  | .waitp => Sys2Proof.Machine.execWaitp s
  | .exit => Sys2Proof.Machine.execExit s
  | .yield => Sys2Proof.Machine.execYield s
  | .bara a bar => Sys2Proof.Machine.execBara a bar s
  | .barrierArrival core n => Sys2Proof.Machine.execBarrierArrival core n s
  | .barw d bar => Sys2Proof.Machine.execBarw d bar s
  | .route d a => Sys2Proof.Machine.execRoute d a s
  | .layerb d => Sys2Proof.Machine.execLayerb d s
  | .utfcut d a => Sys2Proof.Machine.execUtfcut d a s
  | .trap code => Sys2Proof.Machine.execTrap code s
  | .rte => Sys2Proof.Machine.execRte s
  | .hret => Sys2Proof.Machine.execHret s
  | .wfe => Sys2Proof.Machine.execWfe s
  | .loadReply r => Sys2Proof.Machine.execLoadReply r s
  | .nop => Sys2Proof.Machine.execNop s
  | .cpLoop q lv e count rot => Sys2Proof.Machine.execCpLoop q lv e count rot s
  | .cpLoopK q lv e k rot => Sys2Proof.Machine.execCpLoopK q lv e k rot s
  | .rep q count st => Sys2Proof.Machine.execRep q count st s
  | .repK q k st => Sys2Proof.Machine.execRepK q k st s
  | .br q off => Sys2Proof.Machine.execBr q off s
  | .brc q cond a b off => Sys2Proof.Machine.execBrc q cond a b off s
  | .rot q => Sys2Proof.Machine.execRot q s
  | .qset q d => Sys2Proof.Machine.execQset q d s
  | .qclr q d => Sys2Proof.Machine.execQclr q d s
  | .qmovQ q d a => Sys2Proof.Machine.execQmovQ q d a s
  | .qmovK q d k => Sys2Proof.Machine.execQmovK q d k s
  | .endk q => Sys2Proof.Machine.execEndk q s
  | .kadd q d a b => Sys2Proof.Machine.execKadd q d a b s
  | .kaddi q d a n => Sys2Proof.Machine.execKaddi q d a n s
  | .kmov q d a => Sys2Proof.Machine.execKmov q d a s
  | .kmovLc q d l => Sys2Proof.Machine.execKmovLc q d l s
  | .kmovRrb q d => Sys2Proof.Machine.execKmovRrb q d s
  | .vadd q m ty rm d a b => Sys2Proof.Machine.execVadd q m ty rm d a b s
  | .vsub q m ty rm d a b => Sys2Proof.Machine.execVsub q m ty rm d a b s
  | .vmul q m ty rm d a b => Sys2Proof.Machine.execVmul q m ty rm d a b s
  | .vfma q m ty rm d a b c => Sys2Proof.Machine.execVfma q m ty rm d a b c s
  | .vfms q m ty rm d a b c => Sys2Proof.Machine.execVfms q m ty rm d a b c s
  | .vmin q m ty d a b => Sys2Proof.Machine.execVmin q m ty d a b s
  | .vmax q m ty d a b => Sys2Proof.Machine.execVmax q m ty d a b s
  | .vabs q m ty d a => Sys2Proof.Machine.execVabs q m ty d a s
  | .vneg q m ty d a => Sys2Proof.Machine.execVneg q m ty d a s
  | .vand q m ty d a b => Sys2Proof.Machine.execVand q m ty d a b s
  | .vor q m ty d a b => Sys2Proof.Machine.execVor q m ty d a b s
  | .vxor q m ty d a b => Sys2Proof.Machine.execVxor q m ty d a b s
  | .vnot q m ty d a => Sys2Proof.Machine.execVnot q m ty d a s
  | .vshl q m ty d a n => Sys2Proof.Machine.execVshl q m ty d a n s
  | .vshr q m ty d a n => Sys2Proof.Machine.execVshr q m ty d a n s
  | .vsra q m ty d a n => Sys2Proof.Machine.execVsra q m ty d a n s
  | .vadds q m ty d a b => Sys2Proof.Machine.execVadds q m ty d a b s
  | .vcmpMask q m ty cond d a b => Sys2Proof.Machine.execVcmpMask q m ty cond d a b s
  | .vcmpVec q m ty cond d a b => Sys2Proof.Machine.execVcmpVec q m ty cond d a b s
  | .vsel q m ty d a b mc => Sys2Proof.Machine.execVsel q m ty d a b mc s
  | .vmov q m ty d a => Sys2Proof.Machine.execVmov q m ty d a s
  | .vmovMaskMask q d a => Sys2Proof.Machine.execVmovMaskMask q d a s
  | .vmovMaskVec q d a => Sys2Proof.Machine.execVmovMaskVec q d a s
  | .vmovVecMask q d a => Sys2Proof.Machine.execVmovVecMask q d a s
  | .vbcastK q m ty d k => Sys2Proof.Machine.execVbcastK q m ty d k s
  | .vbcastImm q m ty rm d n => Sys2Proof.Machine.execVbcastImm q m ty rm d n s
  | .vcvt q m dty sty sat rm d a => Sys2Proof.Machine.execVcvt q m dty sty sat rm d a s
  | .vshuf q m ty d a b => Sys2Proof.Machine.execVshuf q m ty d a b s
  | .vslide q m ty d a b k => Sys2Proof.Machine.execVslide q m ty d a b k s
  | .vreds q m ty op rm d a => Sys2Proof.Machine.execVreds q m ty op rm d a s
  | .vmaxi q m ty d a => Sys2Proof.Machine.execVmaxi q m ty d a s
  | .vmini q m ty d a => Sys2Proof.Machine.execVmini q m ty d a s
  | .vpopc q m ty d a => Sys2Proof.Machine.execVpopc q m ty d a s
  | .vpopcMask q m ty d => Sys2Proof.Machine.execVpopcMask q m ty d s
  | .vrng q m d ka kb base => Sys2Proof.Machine.execVrng q m d ka kb base s
  | .kfromv q ty d a idx => Sys2Proof.Machine.execKfromv q ty d a idx s
  | .vexp2 q m acc rm d a => Sys2Proof.Machine.execVexp2 q m acc rm d a s
  | .vlog2 q m acc rm d a => Sys2Proof.Machine.execVlog2 q m acc rm d a s
  | .vrcp q m acc rm d a => Sys2Proof.Machine.execVrcp q m acc rm d a s
  | .vrsq q m acc rm d a => Sys2Proof.Machine.execVrsq q m acc rm d a s
  | .vpwp q m rm d a => Sys2Proof.Machine.execVpwp q m rm d a s
  | .pwld q k disp => Sys2Proof.Machine.execPwld q k disp s
  | .pwst q k disp => Sys2Proof.Machine.execPwst q k disp s
  | .vld q m ty d k disp => Sys2Proof.Machine.execVld q m ty d k disp s
  | .vst q m ty b k disp => Sys2Proof.Machine.execVst q m ty b k disp s
  | .kld q d k disp => Sys2Proof.Machine.execKld q d k disp s
  | .vldr q d rg k chunk pop => Sys2Proof.Machine.execVldr q d rg k chunk pop s
  | .vgath q m ty d k b => Sys2Proof.Machine.execVgath q m ty d k b s
  | .vscat q m ty k b c => Sys2Proof.Machine.execVscat q m ty k b c s
  | .mma q d ra rb => Sys2Proof.Machine.execMma q d ra rb s
  | .aclrPeek q d => Sys2Proof.Machine.execAclrPeek q d s
  | .aclrImm q d n => Sys2Proof.Machine.execAclrImm q d n s
  | .anorm q d => Sys2Proof.Machine.execAnorm q d s
  | .ard q m ty rm d a row => Sys2Proof.Machine.execArd q m ty rm d a row s
  | .awr q m sel d a row => Sys2Proof.Machine.execAwr q m sel d a row s
  | .astat q m sel d a row => Sys2Proof.Machine.execAstat q m sel d a row s
  | .astatDepth q d a => Sys2Proof.Machine.execAstatDepth q d a s
  | .matrixQueueDequeue core => Sys2Proof.Machine.execMatrixQueueDequeue core s
  | .matrixEntryRetire core err => Sys2Proof.Machine.execMatrixEntryRetire core err s
  | .hld q d k disp => Sys2Proof.Machine.execHld q d k disp s
  | .hst q b k disp => Sys2Proof.Machine.execHst q b k disp s
  | .hbind q d a b => Sys2Proof.Machine.execHbind q d a b s
  | .hpermImm q d a n => Sys2Proof.Machine.execHpermImm q d a n s
  | .hpermK q d a k => Sys2Proof.Machine.execHpermK q d a k s
  | .hbun q d a => Sys2Proof.Machine.execHbun q d a s
  | .hclrb q d => Sys2Proof.Machine.execHclrb q d s
  | .hthr q d a => Sys2Proof.Machine.execHthr q d a s
  | .hdist q d a b => Sys2Proof.Machine.execHdist q d a b s
  | .hnear q d a => Sys2Proof.Machine.execHnear q d a s
  | .hhash q d a n => Sys2Proof.Machine.execHhash q d a n s
  | .hseed q d k => Sys2Proof.Machine.execHseed q d k s
  | .hpop q d a => Sys2Proof.Machine.execHpop q d a s
  | .hmov q d a => Sys2Proof.Machine.execHmov q d a s
  | .hmovToHt q a => Sys2Proof.Machine.execHmovToHt q a s
  | .hmovFromHt q d => Sys2Proof.Machine.execHmovFromHt q d s
  | .hcfg q a b => Sys2Proof.Machine.execHcfg q a b s
  | .pfeed q m d a => Sys2Proof.Machine.execPfeed q m d a s
  | .mldg q d k disp => Sys2Proof.Machine.execMldg q d k disp s
  | .lit v => Sys2Proof.Machine.execLit v s
  | .ext v => Sys2Proof.Machine.execExt v s
  | .dup => Sys2Proof.Machine.execDup s
  | .drop => Sys2Proof.Machine.execDrop s
  | .swap => Sys2Proof.Machine.execSwap s
  | .over => Sys2Proof.Machine.execOver s
  | .engAdd => Sys2Proof.Machine.execEngAdd s
  | .engSub => Sys2Proof.Machine.execEngSub s
  | .engShl => Sys2Proof.Machine.execEngShl s
  | .engAnd => Sys2Proof.Machine.execEngAnd s
  | .eget n => Sys2Proof.Machine.execEget n s
  | .eset n => Sys2Proof.Machine.execEset n s
  | .jmp => Sys2Proof.Machine.execJmp s
  | .bz => Sys2Proof.Machine.execBz s
  | .engLoop l => Sys2Proof.Machine.execEngLoop l s
  | .lend l => Sys2Proof.Machine.execLend l s
  | .engEnd => Sys2Proof.Machine.execEngEnd s
  | .tile t pad => Sys2Proof.Machine.execTile t pad s
  | .drain t keep pad => Sys2Proof.Machine.execDrain t keep pad s
  | .accst t pad => Sys2Proof.Machine.execAccst t pad s
  | .gath t pad => Sys2Proof.Machine.execGath t pad s
  | .scat t fadd atom keep pad => Sys2Proof.Machine.execScat t fadd atom keep pad s
  | .copy t => Sys2Proof.Machine.execCopy t s
  | .fill t => Sys2Proof.Machine.execFill t s
  | .mcast t => Sys2Proof.Machine.execMcast t s
  | .kvcp t dec inc cpy => Sys2Proof.Machine.execKvcp t dec inc cpy s
  | .send t pad => Sys2Proof.Machine.execSend t pad s
  | .pref t => Sys2Proof.Machine.execPref t s
  | .evict t => Sys2Proof.Machine.execEvict t s
  | .waitn t e => Sys2Proof.Machine.execWaitn t e s
  | .engineCommandDequeue core e => Sys2Proof.Machine.execEngineCommandDequeue core e s
  | .engineCommandStart core e => Sys2Proof.Machine.execEngineCommandStart core e s
  | .engineCommandFinish core e cmd => Sys2Proof.Machine.execEngineCommandFinish core e cmd s
  | .tokenPush core e => Sys2Proof.Machine.execTokenPush core e s
  | .ringTailAdvance core ring => Sys2Proof.Machine.execRingTailAdvance core ring s
  | .ringHeadAdvance core ring => Sys2Proof.Machine.execRingHeadAdvance core ring s
  | .residencyFillDone core slot => Sys2Proof.Machine.execResidencyFillDone core slot s
  | .accessPerform p => Sys2Proof.Machine.execAccessPerform p s
  | .class15Release n => Sys2Proof.Machine.execClass15Release n s
  | .slotWheelAdvance => Sys2Proof.Machine.execSlotWheelAdvance s
  | .pageWalkDone die n victim => Sys2Proof.Machine.execPageWalkDone die n victim s
  | .xinvWrite core ctx => Sys2Proof.Machine.execXinvWrite core ctx s
  | .invalidationDone n => Sys2Proof.Machine.execInvalidationDone n s
  | .landingPost core ctx => Sys2Proof.Machine.execLandingPost core ctx s
  | .boundaryTrapDispatch core => Sys2Proof.Machine.execBoundaryTrapDispatch core s
  | .stepFormerEnable core ctx => Sys2Proof.Machine.execStepFormerEnable core ctx s
  | .stepFormerDisable core ctx => Sys2Proof.Machine.execStepFormerDisable core ctx s
  | .stepmaxWrite core ctx => Sys2Proof.Machine.execStepmaxWrite core ctx s
  | .stepForm die => Sys2Proof.Machine.execStepForm die s
  | .wqtailWrite q v => Sys2Proof.Machine.execWqtailWrite q v s
  | .wqEnable q v => Sys2Proof.Machine.execWqEnable q v s
  | .wqDisable q v => Sys2Proof.Machine.execWqDisable q v s
  | .wqHaltClear q => Sys2Proof.Machine.execWqHaltClear q s
  | .queueRecordRead q => Sys2Proof.Machine.execQueueRecordRead q s
  | .nodeEvaluate q => Sys2Proof.Machine.execNodeEvaluate q s
  | .recordPlace src cohort => Sys2Proof.Machine.execRecordPlace src cohort s
  | .overlayLoad core => Sys2Proof.Machine.execOverlayLoad core s
  | .pointStart core => Sys2Proof.Machine.execPointStart core s
  | .pointComplete core => Sys2Proof.Machine.execPointComplete core s
  | .preempt id => Sys2Proof.Machine.execPreempt id s
  | .launchResume id wheel => Sys2Proof.Machine.execLaunchResume id wheel s
  | .deadlockRelief core => Sys2Proof.Machine.execDeadlockRelief core s
  | .queueDeadlock core => Sys2Proof.Machine.execQueueDeadlock core s
  | .freezeTimeout core => Sys2Proof.Machine.execFreezeTimeout core s
  | .barrierIdle core ctx => Sys2Proof.Machine.execBarrierIdle core ctx s
  | .fqUnderflow core => Sys2Proof.Machine.execFqUnderflow core s
  | .sendArrival n => Sys2Proof.Machine.execSendArrival n s
  | .dataArrivalDispatch core => Sys2Proof.Machine.execDataArrivalDispatch core s
  | .retryLaterReceive n => Sys2Proof.Machine.execRetryLaterReceive n s
  | .replayBackoffExpiry core => Sys2Proof.Machine.execReplayBackoffExpiry core s
  | .replicationServe => Sys2Proof.Machine.execReplicationServe s
  | .replicationCopyDone => Sys2Proof.Machine.execReplicationCopyDone s
  | .replicaUpdateApply die => Sys2Proof.Machine.execReplicaUpdateApply die s
  | .rtloadWrite core ctx => Sys2Proof.Machine.execRtloadWrite core ctx s
  | .routePassStart die => Sys2Proof.Machine.execRoutePassStart die s
  | .routePassFinish die => Sys2Proof.Machine.execRoutePassFinish die s
  | .ldrstWrite core ctx => Sys2Proof.Machine.execLdrstWrite core ctx s
  | .hkstartWrite core ctx => Sys2Proof.Machine.execHkstartWrite core ctx s
  | .hookStart core => Sys2Proof.Machine.execHookStart core s
  | .hookBudgetExpiry core => Sys2Proof.Machine.execHookBudgetExpiry core s
  | .ringConfigWrite core ctx => Sys2Proof.Machine.execRingConfigWrite core ctx s
  | .barWrite core ctx => Sys2Proof.Machine.execBarWrite core ctx s
  | .trickleWrite core => Sys2Proof.Machine.execTrickleWrite core s
  | .coreGate core ctx => Sys2Proof.Machine.execCoreGate core ctx s
  | .coreWake core cause => Sys2Proof.Machine.execCoreWake core cause s
  | .wakeComplete core => Sys2Proof.Machine.execWakeComplete core s
  | .railSwitchStart core ctx => Sys2Proof.Machine.execRailSwitchStart core ctx s
  | .railSwitchDone cluster => Sys2Proof.Machine.execRailSwitchDone cluster s
  | .powerLoss die => Sys2Proof.Machine.execPowerLoss die s
  | .holdupExhausted core block => Sys2Proof.Machine.execHoldupExhausted core block s
  | .powerReturn die => Sys2Proof.Machine.execPowerReturn die s
  | .wakeWrite core => Sys2Proof.Machine.execWakeWrite core s
  | .cellarDrop core => Sys2Proof.Machine.execCellarDrop core s
  | .powerOnBoot b => Sys2Proof.Machine.execPowerOnBoot b s
  | .attest => Sys2Proof.Machine.execAttest s
  | .keyload => Sys2Proof.Machine.execKeyload s
  | .keyclr => Sys2Proof.Machine.execKeyclr s
  | .trustCommandDone => Sys2Proof.Machine.execTrustCommandDone s
  | .powerHubTick => Sys2Proof.Machine.execPowerHubTick s
  | .monitorSample core => Sys2Proof.Machine.execMonitorSample core s
  | .sramCorrectable core => Sys2Proof.Machine.execSramCorrectable core s
  | .sramFreezeEnd core => Sys2Proof.Machine.execSramFreezeEnd core s
  | .sramUncorrectable core p => Sys2Proof.Machine.execSramUncorrectable core p s
  | .patrolScrub pa o => Sys2Proof.Machine.execPatrolScrub pa o s
  | .flitCrcMismatch l => Sys2Proof.Machine.execFlitCrcMismatch l s
  | .linkRetrain l => Sys2Proof.Machine.execLinkRetrain l s
  | .linkRetrainDone l ok => Sys2Proof.Machine.execLinkRetrainDone l ok s
  | .linkDead l => Sys2Proof.Machine.execLinkDead l s
  | .portRetrainWrite p => Sys2Proof.Machine.execPortRetrainWrite p s
  | .portDisableWrite p dis => Sys2Proof.Machine.execPortDisableWrite p dis s
  | .errcntClear die => Sys2Proof.Machine.execErrcntClear die s
  | .dbgHalt core qhold => Sys2Proof.Machine.execDbgHalt core qhold s
  | .dbgStep core party => Sys2Proof.Machine.execDbgStep core party s
  | .dbgResume core => Sys2Proof.Machine.execDbgResume core s
  | .dbgKill core => Sys2Proof.Machine.execDbgKill core s
  | .fltackWrite v => Sys2Proof.Machine.execFltackWrite v s
  | .vectorControlWrite n ctl => Sys2Proof.Machine.execVectorControlWrite n ctl s
  | .hostApertureAccess a => Sys2Proof.Machine.execHostApertureAccess a s
  | .registerWrite w => Sys2Proof.Machine.execRegisterWrite w s

end Sys2Proof.Machine
end

