-- ==== Sys2Proof/Machine/Issue.lean ====
section
/-! DEFINITION. A turn of the machine (spec 04 R66, R68, 12 R176, 24 R323, R335-R337, 01 R13, 07 R115): which context the SC takes, the fetch of a word or a bundle, the first issue of a point, a debugger's step, a cycle of the clock, the order of what happens in one cycle, and what a program needs in order to be fetched. -/

namespace Sys2Proof.Machine

/-! Which instruction issues. -/

/-- The x registers that an SC instruction reads or writes (12 R176). -/
def scRegs : Instr → List Nat
  | .add d a b | .sub d a b | .mul d a b | .mulh d a b | .mulhu d a b | .div d a b | .divu d a b | .rem d a b | .remu d a b
  | .and d a b | .or d a b | .xor d a b | .shl d a b | .shr d a b | .sra d a b | .min d a b | .max d a b | .minu d a b
  | .maxu d a b | .slt d a b | .sltu d a b | .pwr d a b _ | .dqpush d a b _
  | .acas d a b _ _ _ => [d, a, b]
  | .aadd d a b _ nr _ | .aand d a b _ nr _ | .aor d a b _ nr _ | .axor d a b _ nr _ | .aswp d a b _ nr _
  | .amax d a b _ nr _ | .amin d a b _ nr _ | .amaxu d a b _ nr _ | .aminu d a b _ nr _
  | .famax d a b _ nr | .famin d a b _ nr | .faadd d a b _ nr => if nr then [a, b] else [d, a, b]
  | .clz d a | .popc d a | .addi d a _ | .andi d a _ | .ori d a _ | .xori d a _ | .shli d a _ | .shri d a _ | .srai d a _
  | .slti d a _ | .jalr d a _ | .ldb d a _ _ | .ldbu d a _ _ | .ldh d a _ _ | .ldhu d a _ _ | .ldw d a _ _ | .ldwu d a _ _
  | .ldd d a _ _ | .stb d a _ _ | .sth d a _ _ | .stw d a _ _ | .std d a _ _ | .dqtake d a _ | .dqsteal d a _
  | .waite d a _ | .prd d a _ | .pclose d a | .prel d a | .launch d a | .route d a | .utfcut d a => [d, a]
  | .beq a b _ | .bne a b _ | .blt a b _ | .bge a b _ | .bltu a b _ | .bgeu a b _ => [a, b]
  | .lui d _ | .adpc d _ | .jal d _ | .fence d _ _ | .pfence d _ | .csrr d _ | .engst d _ | .barw d _ | .layerb d => [d]
  | .csrw a _ | .fmtq a | .lntw a _ | .bara a _ => [a]
  | _ => []

/-- The fetch fault (24 R325). -/
def fetchFault : FaultInfo := faultOf 0x02 0 0
/-- The memory fault of a poisoned instruction memory (25 R350). -/
def imemFault : FaultInfo := faultOf 0x08 8 0

/-- An 8-byte unit of an instruction memory is poisoned: LD is 0, CP 1, ST 2, SC 3. -/
def imPoison (s : State) (c unit a : Nat) : Bool := (s.core c).poisonIm.any (fun g => g.1 == unit && g.2 / 8 == a / 8)

/-- The word of an SC context: from the SC's memory, or while a sequence is injected from the core's own slice (24 R336). -/
def scFetch (s : State) (c k : Nat) : Except FaultInfo Nat :=
  let d := (s.core c).dbg
  let pc := (s.ctx c k).pc.toNat
  if d.injecting then
    let off := pc - d.injOff.toNat
    if pc < d.injOff.toNat ∨ 256 ≤ off ∨ 64 ≤ d.injCount ∨ off % 4 ≠ 0 then .error fetchFault
    else if (s.core c).poisonSpad.contains (pc / 64) then .error imemFault
    else .ok (bytesNat (memBytes (s.core c).spad pc 4))
  else if Config.scImem ≤ pc ∨ pc % 4 ≠ 0 then .error fetchFault
  else if imPoison s c 3 pc then .error imemFault
  else .ok (bytesNat (memBytes (s.core c).imSc pc 4))

/-- The instruction of an SC context (24 R325: an illegal word faults). -/
def scNext (s : State) (c k : Nat) : Except FaultInfo Instr :=
  match scFetch s c k with
  | .error f => .error f
  | .ok w => match decodeSc w with
    | .ok i => .ok i
    | .error _ => .error (faultOf 0x01 0 0)

/-- A CSRW that gates the core waits to be performed. -/
def gatePends (t : Ctx) : Bool := t.ops.any (fun o => match o.kind with | .csrw n v => n == 0x02A && v.getLsbD 0 | _ => false)

/-- No reply is awaited that holds the instruction (12 R176). -/
def regsFree (t : Ctx) (i : Instr) : Bool := (scRegs i).all (fun r => !t.busy.contains r)

/-- The context can issue: it runs, its wait is over, nothing holds it, and a hook's budget is not used up (04 R68, 12 R176, 23 R314). -/
def ctxReady (s : State) (c k : Nat) : Bool :=
  let t := s.ctx c k
  (t.status == .running || ((s.core c).dbg.injecting && (s.core c).dbg.party.toNat == k)) && waitOver s c k t.wait && t.holds == 0
    && !gatePends t && t.hook != some (0, true)
    && (match scNext s c k with
      | .ok i => regsFree t i
      | .error _ => true)

/-- The core is neither stopped nor halted, or a debugger steps that party (24 R335, R336). -/
def Core.runs (k : Core) (party : Nat) : Bool :=
  if k.dbg.stepping then k.dbg.party.toNat == party && k.dbg.accepting.isNone else k.stop.isNone && !k.dbg.halt

/-- A party of the core may issue: the point has started, with every sibling of its cluster set up for it, the core's clocks run, and nothing stops it (04 R66, R67). -/
def mayIssue (s : State) (c party : Nat) : Bool :=
  let k := s.core c
  (match s.run c with | some r => r.ready && (r.started || gangSet s c r) | none => false) && k.gate == .on && k.free && clocked s c && k.runs party

/-- A context goes on in its PFENCE while its core waits for a cut (07 R119). -/
def mayCommit (s : State) (c k : Nat) : Bool :=
  let x := s.core c
  (s.ctx c k).wait == .commits && x.gate == .on && x.stopping.isNone && !x.killing && clocked s c && x.runs k

/-- The contexts in the order of the round robin (04 R68). -/
def scOrder (last : Nat) : List Nat := [1, 2, 3, 4].map (fun i => (last + i) % 4)

/-- The SC can take an instruction of the context. -/
def scReady (s : State) (c k : Nat) : Bool := (mayIssue s c k || mayCommit s c k) && ctxReady s c k

/-- The contexts that can issue, in the order of the round robin from the one that issued last (04 R68). -/
def scLine (s : State) (c : Nat) : List Nat := (scOrder (s.arch c).lastSc).filter (scReady s c)

/-- The context that the SC takes next: the first of the line; one that gives up this turn passes it to the next that can issue (12 R194). -/
def scPick (s : State) (c : Nat) : Option Nat :=
  match scLine s c with
  | k :: j :: _ => if (s.arch c).yielded.contains k then some j else some k
  | l => l.head?

/-! The first issue of a point (04 R66, 10 R153). -/

/-- An engine starts at address 0. -/
def startEngine (s : State) (c : Nat) (e : Eng) : State :=
  match e with
  | .cp => s.modCp c (fun p => { p with status := .running })
  | e => s.modEng c e (fun g => { g with status := .running })

/-- The core captures which copy of its die's replica table is live. -/
def captureTable (s : State) (c id : Nat) : State :=
  let x := s.die (dieOf c)
  (s.modCsrs c (fun r => { r with rplive := BitVec.ofNat 64 (x.tableAt x.live) })).modDie (dieOf c)
    (fun x => { x with captures := if x.captures.contains (id, x.live) then x.captures else x.captures ++ [(id, x.live)] })

/-- A core of a launch has issued its first instruction; with the last of them the launch has started (05 R83). -/
def noteStart (now c : Nat) (l : Launch) : Launch :=
  let all (started : List Nat) : Bool := l.cohort.all (fun p => started.contains p.core)
  { l with started := insertNat l.started c, startedAt := if all (insertNat l.started c) && !all l.started then now else l.startedAt }

/-- What the first issue of context 0 does besides: every engine with a stream starts, and the point and its launch count as started. -/
def firstIssue (s : State) (c : Nat) : State :=
  match s.run c with
  | none => s
  | some r =>
    if r.started then s
    else
      let s := [(Eng.ld, 1), (Eng.cp, 2), (Eng.st, 3)].foldl (fun s p => if (r.held.hdr.overlay p.2).2 = 0 then s else startEngine s c p.1) s
      let s := (s.modRun c (fun r => { r with started := true })).modLaunch r.launch (noteStart s.now c)
      if r.t = 0 then captureTable s c r.launch else s

/-! The issue of each sequencer. -/

/-- An issue of context k takes its turn, and the one that the first of the line gave up (04 R68, 12 R194). -/
def takeSlot (s : State) (c k : Nat) : State :=
  let first := (scLine s c).head?
  (countEvent s c 1 1).modArch c (fun a => { a with lastSc := k, yielded := a.yielded.filter (fun j => j != k && some j != first) })

/-- What goes with a turn of context k: an issue, which the end of a wait is not (04 R66), takes its turn and counts; it starts the point, begins a hook's budget, and counts an injected word. -/
def scBegin (s : State) (c k : Nat) : State :=
  let s := { s with who := ⟨c, .sc k, .c⟩ }
  let s := if (s.ctx c k).wait = .none then takeSlot s c k else s
  let s := if k = 0 then firstIssue s c else s
  let s := s.modCtx c k (fun t => { t with hook := t.hook.map (fun h => (h.1, true)) })
  if (s.core c).dbg.injecting ∧ (s.ctx c k).wait = .none then s.modCore c (fun x => { x with dbg := { x.dbg with injCount := x.dbg.injCount + 1 } }) else s

/-- The SC issues an instruction of a context. -/
def scRun (s : State) (c k : Nat) : Result :=
  match scNext s c k with
  | .error f => .next ((scBegin s c k).trap f)
  | .ok i => exec i (scBegin s c k)

/-- The SC's turn. -/
def scIssue (s : State) (c : Nat) : Result :=
  match scPick s c with
  | none => .next s
  | some k => scRun s c k

/-- LD or ST acts. -/
def State.atEngine (s : State) (c : Nat) (e : Eng) : State := { s with who := ⟨c, (match e with | .st => .st | _ => .ld), .c⟩ }

/-- The instruction memory of LD or ST, and its number among the poisoned. -/
def engMem (s : State) (c : Nat) (e : Eng) : Memory := match e with | .st => (s.core c).imSt | _ => (s.core c).imLd
def engUnit (e : Eng) : Nat := match e with | .st => 2 | _ => 0

/-- LD or ST can issue a word: it runs, no token increment of it waits, and no command of it has faulted (12 R191, 04 R70, 15 R268). -/
def engReady (s : State) (c : Nat) (e : Eng) : Bool :=
  let g := s.eng c e
  mayIssue s c (Eng.recCode e) && g.status == .running && g.pushes.isEmpty && !g.halted

/-- LD or ST takes its next word; under a loop of count 0 words are passed over (15 R263, R264). -/
def engRun (s : State) (c : Nat) (e : Eng) : Result :=
  let g := s.eng c e
  let s := s.atEngine c e
  if engWords ≤ g.pc then .next (wordTrap s c e fetchFault)
  else if imPoison s c (engUnit e) (2 * g.pc) then .next (wordTrap s c e imemFault)
  else
    let w := bytesNat (memBytes (engMem s c e) (2 * g.pc) 2)
    match g.skip, decodeEngFor e w with
    | some l, d => .next (engSkip s l (okInstr d))
    | none, .error _ => .next (wordTrap s c e (faultOf 0x01 0 0))
    | none, .ok i => exec i s

/-- The turn of LD or ST. -/
def engIssue (s : State) (c : Nat) (e : Eng) : Result := if engReady s c e then engRun s c e else .next s

/-- The slots of a bundle act in order (13 R218). -/
def runSlots (c : Nat) : List (Slot × Instr) → State → Result
  | [], s => .next s
  | (sl, i) :: t, s => match exec i (s.atSlot c sl) with
    | .next u => runSlots c t u
    | r => r

/-- The CP can issue a bundle. -/
def cpReady (s : State) (c : Nat) : Bool :=
  let p := s.cp c
  mayIssue s c 5 && p.status == .running && !p.ending && p.pushes.isEmpty && !p.halted

/-- The CP takes its next bundle: it is fetched and checked, its slots act, and it is closed. -/
def cpRun (s : State) (c : Nat) : Result :=
  match cpFetch s c with
  | .stay t => .next t
  | .go t tok slots => match runSlots c slots t with
    | .next u => .next (closeBundle u c tok)
    | r => r

/-- The CP's turn. -/
def cpIssue (s : State) (c : Nat) : Result := if cpReady s c then cpRun s c else .next s

/-- A sequencer takes its next instruction. -/
def issueOf (s : State) (c : Nat) : Sequencer → Result
  | .sc => scIssue s c
  | .ld => engIssue s c .ld
  | .st => engIssue s c .st
  | .cp => cpIssue s c

/-! A debugger's step (24 R336, R337). -/

/-- The stepped party stands in a wait. -/
def stepWaits (s : State) (c : Nat) : Bool :=
  let p := (s.core c).dbg.party.toNat
  if p < 4 then (s.ctx c p).wait != .none
  else if p = 4 then (s.eng c .ld).wait != .none
  else if p = 5 then (s.cp c).wait != .none
  else (s.eng c .st).wait != .none

/-- The status of the stepped context. -/
def stepStatus (s : State) (c : Nat) : CtxStatus := (s.ctx c (s.core c).dbg.party.toNat).status

/-- The operations of the stepped context that are not yet accepted where they act (24 R337), by their numbers. -/
def pendingOps (s : State) (c : Nat) : List Nat :=
  let p := (s.core c).dbg.party.toNat
  if p < 4 then (s.ctx c p).ops.map (fun o => o.seq) ++ (s.ctx c p).lngos.map (fun l => l.2) else []

/-- The operation of the word that has just issued, if it is not accepted yet. -/
def newOp (s t : State) (c : Nat) : Option Nat := (pendingOps t c).find? (fun n => !(pendingOps s c).contains n)

/-- The stepped word waits to be accepted. -/
def stepPends (s : State) (c : Nat) : Bool := match (s.core c).dbg.accepting with | some n => (pendingOps s c).contains n | none => false

/-- A step is over; a fault of an engine that was held is reported. -/
def endStep (s : State) (c : Nat) : State :=
  reportPend (s.modCore c (fun k => { k with dbg := { k.dbg with stepping := false, accepting := none } })) c

/-- After an issue: a step ends with its instruction done, an injected one with RTE or with the end of its context; a fault has ended it already. -/
def settleStep (s t : State) (c : Nat) : State :=
  if !(s.core c).dbg.stepping then t
  else if !(t.core c).dbg.stepping then (if (s.core c).dbg.injV && !(t.core c).dbg.injV then reportPend t c else t)
  else if (t.core c).dbg.injecting then
    (if stepStatus s c = .running ∧ stepStatus t c ≠ .running then
      endStep (t.modCore c (fun k => { k with dbg := { k.dbg with injecting := false } })) c
    else t)
  else if stepWaits t c then t
  else match newOp s t c with
    | some n => t.modCore c (fun k => { k with dbg := { k.dbg with accepting := some n } })
    | none => endStep t c

/-- A step whose word has issued ends once it is accepted (24 R337). -/
def acceptStep (s : State) (c : Nat) : State :=
  if (s.core c).dbg.stepping && (s.core c).dbg.accepting.isSome && !stepPends s c then endStep s c else s

/-- A sequencer has a turn: it can issue. -/
def canTake (s : State) (c : Nat) : Sequencer → Bool
  | .sc => (scPick s c).isSome
  | .ld => engReady s c .ld
  | .st => engReady s c .st
  | .cp => cpReady s c

/-- A turn of a sequencer. -/
def issueTurn (s : State) (c : Nat) (q : Sequencer) : Result :=
  if canTake s c q then
    match issueOf s c q with
    | .next t => .next (settleStep s t c)
    | r => r
  else .next s

/-! The clock (01 R13, 23 R319, 17 R302, 05 R82). -/

/-- The core's cluster has a cycle of its clock now: on the low rail every second one. -/
def clockNow (s : State) (c : Nat) : Bool := !(s.cluster (clusterOf c)).sel || s.now % 2 == 0

/-- The budgets of the core's running hooks lose a cycle (23 R314, 24 R335). -/
def hookCycle (s : State) (c : Nat) : State :=
  if coreLive s c && !(s.core c).dbg.halt then
    [1, 2, 3].foldl (fun s k => match (s.ctx c k).hook with
      | some (n + 1, true) => s.modCtx c k (fun t => { t with hook := some (n, true) })
      | _ => s) s
  else s

/-- The waits of a halted core do not come nearer to a watchdog's limit (24 R335), nor those of a stopped one: their beginnings move along with its time. -/
def haltCycle (s : State) (c : Nat) : State :=
  if (s.core c).dbg.halt || (s.core c).stop.isSome || !(s.core c).free then
    s.modSeqs c (fun q => { q with
      waitSince := q.waitSince.map (fun t => t + 1)
      ctxs := q.ctxs.map (fun p => (p.1, if p.2.wait = .none then p.2 else { p.2 with waitFrom := p.2.waitFrom + 1 }))
      cp := { q.cp with mq := q.cp.mq.map (fun e => { e with readyAt := e.readyAt.map (fun t => t + 1) }) } })
  else s

/-- A cycle of the CP's pipelines, unless a stall holds them (04 R76): results are written, and bundles finish (04 R71). -/
def pipeCycle (s : State) (c : Nat) : State :=
  let p := s.cp c
  if p.status != .running || p.wait != .none || !p.pushes.isEmpty then s
  else cpEnds (settleBundles (s.modCp c (fun p => { p with clock := p.clock + 1 })) c) c

/-- The head of a command queue, or of the matrix queue, waits for nothing but its gap (05 R91). -/
def queuePaced (s : State) (c : Nat) : Eng → Bool
  | .cp => !gapPassed s c .cp (s.cp c).lastDequeue && coreLive s c && !(s.cp c).halted
      && (match mqHead (s.modCp c (fun p => { p with lastDequeue := none })) c with | .start _ => true | _ => false)
  | e => match (s.eng c e).queue with
    | k :: _ => !gapPassed s c e (s.eng c e).lastDequeue && dequeueReady s c e k && (tokenLack s c e (tokOf k.op)).isNone
    | [] => false

/-- A dequeue that its gap delays is noted, to be counted (17 R302). -/
def paceCycle (s : State) (c : Nat) : State :=
  let note (e : Eng) (s : State) : State := if queuePaced s c e then (match e with
      | .cp => s.modCp c (fun p => { p with paced := true })
      | e => s.modEng c e (fun g => { g with paced := true })) else s
  note .st (note .cp (note .ld s))

/-- A cycle of a core: its time goes on, or the freeze is counted (23 R319, 17 R302). -/
def coreCycle (s : State) (c : Nat) : State :=
  if (s.core c).gate != .on || !clockNow s c then s
  else match (s.arch c).freeze with
    | some f => let s := countEvent s c 7 1
      if f.cause = .dirtyCap then countEvent s c 9 1 else s
    | none =>
      if (s.cluster (clusterOf c)).busy then countEvent s c 7 1
      else
        let s := (countEvent s c 0 1).modArch c (fun a => { a with time := a.time + 1 })
        noteWaits (paceCycle (pipeCycle (haltCycle (hookCycle s c) c) c) c) c

/-- A context of some core waits in a PFENCE that covers the core, or a CSRW of the core's own that gates it does (07 R114). -/
def cutAsked (s : State) (c : Nat) : Bool :=
  [0, 1, 2, 3].any (fun k => match readyCsrw s c k with | some (n, v) => n == 0x02A && v.getLsbD 0 | none => false)
  || s.cores.any (fun p => [0, 1, 2, 3].any (fun k => (s.ctx p.1 k).wait == .commits && (p.1 == c || (s.ctx p.1 k).written.any (fun w => w.1 == c))))

/-- What waits for the core's commands goes on with them (24 R323, R334, 07 R114): a stop, a KILL, a cut; a cut that nobody asks for any more is over. -/
def settleCore (s : State) (c : Nat) : State :=
  let s := acceptStep (settleKill (settleStop s c) c) c
  if (s.core c).cutting && !((s.core c).gate == .on && cutAsked s c) then s.modCore c (fun k => { k with cutting := false }) else s

/-- What a cycle does outside the cores: rail switches, the wheel, arrivals of class 15, hold-ups, and the scheduler's notes (01 R13, 16 R284, 26 R355, 05 R82, R93). -/
def moduleCycle (s : State) : State :=
  noteChosen (updateEligible (settlePreempts ((List.range 8).foldl holdupCycle (wheelArrivals (advanceWheel (boundSwitches s))))))

/-- The claim of a die's step in a cycle. -/
def stepClaim (d : Nat) : Claim := .rank 7 d 0

/-- What is due in the cycle that ends: each die whose step former may form a step, and has formed none in it, forms one (03 R54), unless its table has to wait for a slice or a link. -/
def closeCycle (s : State) : State :=
  (List.range 8).foldl (fun s d => if s.today.contains (stepClaim d) then s else
    let t := formStep d s
    match t.blocked with
    | none => t
    | some h => awaitHome s h) s

/-! Dirty blocks in a cycle (07 R113, R115). -/

/-- The blocks that a result of the CP is written to; vector registers have their own. -/
def landBlocks : CpWrite → List Nat
  | .vec _ _ _ => []
  | .k _ _ => [fieldBlocks + kBits]
  | .m n _ => [fieldBlocks + mBits + n / 2]
  | .h n _ => (List.range 4).map (fun j => fieldBlocks + hBits + 4 * n + j)
  | .ht _ => (List.range 4).map (fun j => fieldBlocks + htBits + j)
  | .bank n _ => (List.range 32).map (fun j => fieldBlocks + bankBits + 32 * n + j)
  | .table _ => (List.range 5).map (fun j => fieldBlocks + tableBits + j)
  | .q _ _ | .hcfg _ _ => [90]

/-- The results of a core's CP that reach their registers in a turn, by their blocks. -/
def landed (s t : State) (c : Nat) : List Nat :=
  ((s.cp c).pend.filter (fun x => !(t.cp c).pend.contains x)).flatMap (fun x => landBlocks x.write)

/-- Blocks of other state of a core written are dirty, and so is every block that no longer holds what it was noted to hold (07 R113). -/
def noteCore (s : State) (c : Nat) (l : List Nat) : State :=
  s.modCore c (fun k =>
    let k := l.foldl (fun k b => k.mark (archBlock + b) (archBlock + b + 1)) k
    k.noteOther k.other)

/-- The core has more dirty blocks than it had, and more than its cap. -/
def pastCap (s t : State) (c : Nat) : Bool :=
  decide ((t.core c).cellar.cap < (t.core c).cellar.dirty.length) && decide ((s.core c).cellar.dirty.length < (t.core c).cellar.dirty.length)

/-- The turn alone writes more clean blocks of the core than its cap allows. -/
def oversize (s t : State) (c : Nat) : Bool :=
  decide ((t.core c).cellar.cap < ((t.core c).cellar.dirty.filter (fun b => !(s.core c).cellar.dirty.contains b)).length)

/-- A core freezes until the trickle cleans a block. -/
def freezeCap (s : State) (c : Nat) : State :=
  s.modArch c (fun a => { a with freeze := match a.freeze with | some f => some f | none => some ⟨.dirtyCap, s.now, 0⟩ })

/-- A core's cycle whose writes would go past the cap is not taken: the core freezes (07 R115); one that writes more at once than the cap allows is taken before (log 24). -/
def capCycle (s t : State) (c : Nat) : State :=
  let u := noteCore t c (landed s t c)
  if pastCap s u c && (s.arch c).freeze.isNone then (if oversize s u c then freezeCap u c else freezeCap s c) else u

/-- A cycle of 1.2 GHz: what is due in the one before it, each core's, what each waits for, and the module's. -/
def tick (s : State) : State :=
  let s := closeCycle s
  let s := { s with now := s.now + 1, today := [] }
  moduleCycle ((s.cores.map (fun p => p.1)).foldl (fun s c => capCycle s (settleCore (endSramFreeze (coreCycle s c) c) c) c) s)

/-! The order of what happens in one cycle (log 77). -/

/-- A slot of a bundle accesses the own slice (13 R223-R227). -/
def cpAccess : Instr → Bool
  | .vld _ _ _ _ _ _ | .vldr _ _ _ _ _ _ | .vst _ _ _ _ _ _ | .vgath _ _ _ _ _ _ | .vscat _ _ _ _ _ _ | .kld _ _ _ _ | .pwld _ _ _ | .pwst _ _ _
  | .hld _ _ _ _ | .hst _ _ _ _ | .hnear _ _ _ | .mldg _ _ _ _ => true
  | _ => false

/-- The slots of patch that a slot of a bundle feeds. -/
def feeds (s : State) : Instr → List Nat
  | .pfeed _ m _ _ => (List.range 64).filter (s.active m)
  | _ => []

/-- What the CP's next bundle claims: its accesses come first at the slice (13 R227), and its PFEED first at each patch slot (03 R43). -/
def bundleClaims (s : State) (c : Nat) : List Claim :=
  match cpFetch s c with
  | .go t _ slots =>
    let live := (liveSlots t slots).map (fun a => a.2)
    (if live.any cpAccess then [.access c c 0 none] else []) ++ (live.flatMap (feeds (t.atSlot c .m))).map (fun l => .rank 0 (64 * c + l) 0)
  | .stay _ => []

/-- The order at a slice of an access from core o (13 R227): its own contexts', LD's, ST's, and then what comes from other cores by their numbers. -/
def sliceRank (home o own : Nat) : Nat := if o = home then own else 7 + o

/-- What a context's access claims at its home, class 15 apart, which the wheel orders; of a deque also its descriptor (12 R197). -/
def accessClaims (a : Access) : List Claim :=
  match a.loc with
  | .slice h off =>
    if a.cls = 15 then []
    else [.access h a.core (sliceRank h a.core (1 + a.ctx)) (match a.op with
      | .dqpush _ | .dqtake => some (off, false)
      | .dqsteal => some (off, true)
      | _ => none)]
  | .hbm _ _ => []

/-- What the next access of a command claims at the slices it goes to; the write of an EVICT comes before the install of its slot (06 R111). -/
def cmdClaims (s : State) (c : Nat) (e : Eng) (k : Cmd) : List Claim :=
  let u := unitOf s c k (k.pos / 2)
  let homes := if k.pos % 2 = 0 then (srcHome s c u.1).toList else dstHomes s c u.2
  (homes.filter (fun h => decide (h < Config.cores))).map (fun h => .access h c (sliceRank h c (match e with | .st => 6 | _ => 5)) none)
    ++ (match k.op with | .evict _ => if k.pos % 2 = 1 then [.rank 6 (64 * c + k.arg 0) 0] else [] | _ => [])

/-- The install of a residency slot is an access of LD (06 R104, 15 R278). -/
def fillClaims (s : State) (c n : Nat) : List Claim :=
  match (fillingCmd s c n).bind (fun _ => vaHome s c (hallAddr c (residencyEntry s c n))) with
  | some h => if h < Config.cores then [.access h c (sliceRank h c 5) none] else []
  | none => []

/-- The loop-nest table that the engine's next start captures. -/
def startTable (s : State) (c : Nat) (e : Eng) : Option Nat := (nextStart s c e).bind walkTable

/-- The context whose LNGO takes effect next, and its table. -/
def nextLngo (s : State) (c : Nat) : Option Nat := [0, 1, 2, 3].findSome? (lngoReady s c)

/-- What a step of the hardware claims of the cycle: accesses; posts to the landing by core (03 R52); RTLOADs by core, and a ROUTE after them (10 R149); CLRAIL by core (07 R118); the exchange of a loop-nest table after its capture (04 R73); one arrival at a barrier (06 R108); the install of a slot after its EVICT, with its access; one step of a die (03 R54); replies that fault by context (24 R323). -/
def eventClaims (s : State) : Instr → List Claim
  | .accessPerform (.sc i) => (match s.accesses[i]? with | some a => accessClaims a | none => [])
  | .accessPerform (.eng c e n _) => (match findFlight s c e n with | some k => cmdClaims s c e k | none => [])
  | .sendArrival i => (match s.messages[i]? with
    | some m => let h := m.dst / Config.sliceBytes; [.access h m.core (sliceRank h m.core 6) none]
    | none => [])
  | .landingPost c _ => [.rank 1 (dieOf c) c]
  | .rtloadWrite c _ => [.rank 2 (dieOf c) c]
  | .loadReply (.op c k) => (match headOp s c k with
    | some o => (match o.kind with | .route _ _ => [.rank 2 (dieOf c) Config.cores] | _ => [])
    | none => [])
  | .loadReply (.access i) => (match s.replies[i]? with
    | some r => if r.fault.isSome then [.rank 8 r.core r.ctx] else []
    | none => [])
  | .railSwitchStart c _ => [.rank 3 (clusterOf c) c]
  | .lngoTakeEffect c => (nextLngo s c).toList.map (fun n => .rank 4 (16 * c + n) 1)
  | .engineCommandStart c e => (startTable s c e).toList.map (fun n => .rank 4 (16 * c + n) 0)
  | .barrierArrival c i => (match pickArrival s c i with | some a => [.rank 5 (8 * c + a.bar) 0] | none => [])
  | .residencyFillDone c n => .rank 6 (64 * c + n) 1 :: fillClaims s c n
  | .stepForm d => [stepClaim d]
  | _ => []

/-- What a turn claims of the cycle; operations of the contexts on one patch slot go in their order (03 R43), and a ROUTE behind the RTLOADs of its cycle (10 R149). -/
def turnClaims (s : State) : Turn → List Claim
  | .issue c .cp => if cpReady s c then bundleClaims s c else []
  | .issue c .sc => (match scPick s c with
    | some k => (match scNext s c k with
      | .ok (.pwr _ a _ _) | .ok (.prd _ a _) | .ok (.pclose _ a) | .ok (.prel _ a) => [.rank 0 (64 * c + ((s.ctx c k).x a).toNat % 64) (1 + k)]
      | .ok (.route _ _) => if actsAtOnce s c k then [.rank 2 (dieOf c) Config.cores] else []
      | _ => [])
    | none => [])
  | .event i => eventClaims s i
  | _ => []

/-- A turn took what it claims: its access was performed, its word issued, its operation accepted. -/
def acted (s t : State) : Turn → Bool
  | .issue c .cp => (s.cp c).issued != (t.cp c).issued
  | .issue c _ => [0, 1, 2, 3].any (fun k => (s.ctx c k).pc != (t.ctx c k).pc)
  | .event i => match i with
    | .accessPerform (.sc _) => s.accesses.length != t.accesses.length
    | .accessPerform (.eng c e n _) => (findFlight s c e n).map (fun k => (k.pos, k.sub)) != (findFlight t c e n).map (fun k => (k.pos, k.sub))
    | .loadReply (.access _) => s.replies.length != t.replies.length
    | .sendArrival _ => s.messages.map (fun m => (m.core, m.cmd, m.done)) != t.messages.map (fun m => (m.core, m.cmd, m.done))
    | .landingPost c k | .rtloadWrite c k | .railSwitchStart c k | .loadReply (.op c k) => (s.ctx c k).ops.length != (t.ctx c k).ops.length
    | .engineCommandStart c e => (nextStart s c e).map (fun k => k.num) != (nextStart t c e).map (fun k => k.num)
    | .residencyFillDone c n => (fillingCmd s c n).map (fun k => k.num) != (fillingCmd t c n).map (fun k => k.num)
    | .stepForm d => (s.die d).stepNo != (t.die d).stepNo
    | _ => true
  | _ => true

/-- Of two claims of one cycle this one must come first: by rank; of deque operations on one descriptor what pushes or takes, then by core (12 R197); a barrier takes one arrival, a die forms one step. -/
def Claim.first : Claim → Claim → Bool
  | .rank k i n, .rank k' i' n' => k == k' && i == i' && (decide (n < n') || k == 5 || k == 7)
  | .access h c r q, .access h' c' r' q' => h == h' && (match q, q' with
    | some (o, st), some (o', st') =>
      if o = o' then decide (st.toNat < st'.toNat) || (st == st' && (decide (c < c') || (c == c' && decide (r < r')))) else decide (r < r')
    | _, _ => decide (r < r'))
  | _, _ => false

/-- A turn comes too late in its cycle: what must come after it has happened. -/
def tooLate (s : State) (b : Turn) : Bool := !s.today.isEmpty && (turnClaims s b).any (fun x => s.today.any (fun y => x.first y))

/-- What a turn took of the cycle is noted. -/
def noteClaims (s : State) (b : Turn) (r : Result) : Result :=
  match r with
  | .next t => match turnClaims s b with
    | [] => .next t
    | l => .next (if acted s t b then { t with today := t.today ++ l } else t)
  | r => r

/-! A turn. -/

/-- An operation of the hardware or the host: a row of the opcode table without an encoding. -/
def isEvent (i : Instr) : Bool := (encode i).isNone

/-- An error that the ECC can correct arises in a word of HBM (25 R353). -/
def upsetWord (s : State) (w : Nat) : State :=
  if installed (32 * w) 32 && (s.die (w / 2 ^ 33)).power && !s.hbmBad.contains w then
    { s with hbmSoft := insertNat s.hbmSoft w, hbmMended := s.hbmMended.filter (fun p => p.1 != w) } else s

/-- The reply that the CP's next bundle needs is late: the core freezes (23 R319). -/
def lateReply (s : State) (c : Nat) : State :=
  let p := s.cp c
  if coreLive s c && p.status == .running && p.pend.any (fun x => x.load && decide (x.due ≤ p.issued)) then s.modArch c (fun a => { a with freeze := some ⟨.late, s.now, 0⟩ }) else s

/-- The late reply comes (23 R319). -/
def replyReady (s : State) (c : Nat) : State :=
  match (s.arch c).freeze with
  | some f => if f.cause = .late then s.modArch c (fun a => { a with freeze := f.over }) else s
  | none => s

/-- A turn of the agenda, before what the rest of its cycle asks of it (log 1). -/
def plainTurn (s : State) : Turn → Result
  | .tick => .next (tick s)
  | .issue c q => issueTurn s c q
  | .event i => if isEvent i then exec i s else .fault .notAnEvent
  | .packet p => .next (takeParcel s p)
  | .upset w => .next (upsetWord s w)
  | .late c => .next (lateReply s c)
  | .walk d tctx va w => .next (beginWalk s d tctx va w)
  | .inbound i => .next (inboundNext s i)
  | .ready c => .next (replyReady s c)

/-- The core that a turn can stop, and the place of its party in the order of faults: SC, LD, CP, ST (24 R323). -/
def turnParty : Turn → Option (Nat × Nat)
  | .issue c .sc => some (c, 0)
  | .issue c .ld => some (c, 1)
  | .issue c .cp => some (c, 2)
  | .issue c .st => some (c, 3)
  | .event i => match i with
    | .accessPerform (.eng c e _ _) | .engineCommandStart c e => some (c, match e with | .st => 3 | _ => 1)
    | .matrixQueueDequeue c => some (c, 2)
    | _ => none
  | _ => none

/-- The sequencer would fault in its turn now. -/
def faultsNow (s : State) (c : Nat) (q : Sequencer) : Bool :=
  canTake s c q && (match issueOf s c q with | .next t => !t.stopFree c | _ => false)

/-- A turn that stops its core: where a party that goes before in the order of faults faults in the same cycle, the record describes that one, with SECOND set (24 R323). -/
def orderFault (s : State) (b : Turn) (r : Result) : Result :=
  match turnParty b, r with
  | some (c, n), .next t =>
    if s.stopFree c && !t.stopFree c && !(s.core c).dbg.stepping then
      (match ([Sequencer.sc, .ld, .cp].take n).find? (faultsNow s c) with
      | some q => issueTurn (s.modCore c (fun k => { k with second := true })) c q
      | none => r)
    else r
  | _, _ => r

/-- A turn whose access on the spot has to wait is given up; the access has arrived at its slice (07 R117, log 18). -/
def giveUp (s : State) (r : Result) : Result :=
  match r with
  | .next t => match t.blocked with
    | none => r
    | some h => .next (awaitHome s h)
  | r => r

/-- A turn, with the order of faults, and the waits of accesses on the spot. -/
def takeTurn (s : State) (b : Turn) : Result := giveUp s (orderFault s b (plainTurn s b))

/-- The core whose own instruction or command a turn advances. -/
def turnCore (s : State) : Turn → Option Nat
  | .issue c _ => some c
  | .event i => match i with
    | .accessPerform (.sc j) => (s.accesses[j]?).map (fun a => a.core)
    | .accessPerform (.eng c _ _ _) | .engineCommandStart c _ | .engineCommandFinish c _ _ | .engineCommandDequeue c _
    | .matrixQueueDequeue c | .matrixEntryRetire c _ | .residencyFillDone c _ | .boundaryTrapDispatch c | .dataArrivalDispatch c
    | .lngoTakeEffect c | .hookStart c | .landingPost c _ | .registerWrite (.csr c _) | .loadReply (.op c _) | .pointStart c
    | .tokenPush c _ | .barrierArrival c _ | .ringTailAdvance c _ | .ringHeadAdvance c _ | .overlayLoad c => some c
    | .loadReply (.access j) => (s.replies[j]?).map (fun r => r.core)
    | _ => none
  | _ => none

/-! Writes to the blocks of other state (07 R113). A write that changes a block shows in it; one that leaves it as it was is noted as the turn makes it (log 24). -/

/-- The x register that an SC instruction writes as it issues. -/
def scWrites : Instr → Option Nat
  | .add d _ _ | .sub d _ _ | .mul d _ _ | .mulh d _ _ | .mulhu d _ _ | .div d _ _ | .divu d _ _ | .rem d _ _ | .remu d _ _
  | .and d _ _ | .or d _ _ | .xor d _ _ | .shl d _ _ | .shr d _ _ | .sra d _ _ | .min d _ _ | .max d _ _ | .minu d _ _
  | .maxu d _ _ | .slt d _ _ | .sltu d _ _ | .pwr d _ _ _ | .clz d _ | .popc d _ | .addi d _ _ | .andi d _ _ | .ori d _ _ | .xori d _ _
  | .shli d _ _ | .shri d _ _ | .srai d _ _ | .slti d _ _ | .jalr d _ _ | .prd d _ _ | .pclose d _ | .prel d _ | .utfcut d _
  | .lui d _ | .adpc d _ | .jal d _ | .engst d _ => some d
  | _ => none

/-- The block of other state that holds an x register. -/
def xBlock (k d : Nat) : Nat := fieldBlocks + xBits + 2 * k + d / 32

/-- The contexts of a core that start in a turn, their x registers given. -/
def begun (s t : State) (c : Nat) : List (Nat × Nat) :=
  ([0, 1, 2, 3].filter (fun k => (s.ctx c k).status != .running && (t.ctx c k).status == .running)).map (fun k => (c, xBlock k 0))

/-- The blocks of other state that a turn writes, whatever it writes there: registers, patch slots, control registers, loop-nest tables. -/
def ownWrites (s t : State) : Turn → List (Nat × Nat)
  | .issue c .sc => (match scPick s c with
    | some k => (match scNext s c k with
      | .ok i => if (t.ctx c k).status = .running ∧ ((t.core c).stop = (s.core c).stop) then
          (match scWrites i with | some d => if d = 0 then [] else [(c, xBlock k d)] | none => [])
            ++ (match i with | .pwr _ a _ _ => [(c, ((s.ctx c k).x a).toNat % 64 / 8)] | _ => [])
        else []
      | .error _ => [])
    | none => [])
  | .issue c .cp => (landed s t c).map (fun b => (c, b))
  | .event i => match i with
    | .loadReply (.access j) => (match s.replies[j]? with
      | some r => if r.fault.isNone && r.xd != 0 && s.replies.length != t.replies.length then [(r.core, xBlock r.ctx r.xd)] else []
      | none => [])
    | .loadReply (.op c k) => (match headOp s c k with
      | some o => if (s.ctx c k).ops.length = (t.ctx c k).ops.length then [] else (match o.kind with
        | .csrr _ d | .launch d _ | .route d _ => if d = 0 then [] else [(c, xBlock k d)]
        | .csrw _ _ => [(c, 11)])
      | none => [])
    | .registerWrite (.csr c k) => if (s.ctx c k).ops.length = (t.ctx c k).ops.length then [] else [(c, 11)]
    | .accessPerform (.sc j) => (match s.accesses[j]? with
      | some a => (match a.op with
        | .lntw n => if s.accesses.length = t.accesses.length then [] else [(a.core, fieldBlocks + lntBits + n / 2)]
        | _ => [])
      | none => [])
    | .lngoTakeEffect c => (match nextLngo s c with | some n => [(c, fieldBlocks + lntBits + n / 2)] | none => [])
    | .boundaryTrapDispatch c | .dataArrivalDispatch c | .hookStart c | .pointStart c => begun s t c
    | _ => []
  | _ => []

/-- What a turn has written of other state is noted, of every core. -/
def noteBlocks (s : State) (l : List (Nat × Nat)) : State :=
  (s.cores.map (fun p => p.1)).foldl (fun s c => noteCore s c ((l.filter (fun p => p.1 == c)).map (fun p => p.2))) s

/-- The turn's result with what it has written noted. -/
def noteTurn (s : State) (b : Turn) (r : Result) : Result :=
  match r with
  | .next t => .next (noteBlocks t (ownWrites s t b))
  | r => r

/-! The cap on dirty blocks (07 R115). -/

/-- The cap on dirty blocks (07 R115): a turn that would go past it is not taken; the core that acts on its own clean block freezes, anyone else waits at the slice. A turn that could never be taken so is taken, and the core freezes after it (log 24); of the passing of a cycle each core's own part has seen to it. -/
def capTurn (s : State) (b : Turn) (r : Result) : Result :=
  match r with
  | .next t =>
    let past := (t.cores.map (fun p => p.1)).filter (pastCap s t)
    if past.isEmpty then .next t
    else if b = .tick then .next t
    else if past.all (oversize s t) then .next (past.foldl freezeCap t)
    else match turnCore s b with
      | some c => .next (if past.contains c then freezeCap s c else s)
      | none => .next s
  | r => r

/-- The next turn of the agenda; with none, a cycle passes (log 1). -/
def nextTurn (s : State) : Turn × State :=
  match s.agenda with
  | [] => (.tick, s)
  | b :: rest => (b, { s with agenda := rest })

/-- The machine takes its next turn; one that comes too late in its cycle has to wait for another (log 77). -/
def turnStep (s : State) : Result :=
  let (b, s) := nextTurn s
  if tooLate s b then .next s else capTurn s b (noteTurn s b (noteClaims s b (takeTurn s b)))

/-! A program placed where the next step fetches it (log 3). -/

/-- A record of no kernel and a header of an image with no overlays: the launch that stands for the loader's work. -/
def fetchHeld : HeldRec :=
  { id := 0, body := ⟨0, 0, [], 0, 0, 0, 0xFFFFFFFF, 0xFFFFFFFF, 0⟩, hdr := noHeader, producers := [], eligible := none, addr := 0, tctx := 0, inlim := 0,
    rows := 0, step := none, index := 0 }

/-- A launch of one point on one core, loaded and started, with every vector register and the whole of the grantable scratchpad. -/
def fetchRun : Running :=
  { launch := 0, held := fetchHeld, src := .queue 0, frame := 0, area := 0, spneed := Config.sliceReserved, regs := [0, 1, 2, 3, 4, 5, 6, 7], allot := 256, wheelP := 0, wheelN := 0, tctx := 0,
    padmask := -1, lat := 0, c := 0, d := 0, t := 0, loaded := true, ready := true, started := true, complete := false, trigPending := [], trigSent := false,
    stampUsed := none, jcount := 0, ring0 := [] }

/-- Core 0 can issue: powered, clocked, neither stopped nor halted, with a launch whose point has started. -/
def fetchable (s : State) (q : Sequencer) : State :=
  let s := s.modCluster 0 (fun g => { g with busy := false })
  { (s.modCore 0 (fun k => { k with
      gate := .on, stop := none, stopping := none, second := false, cutting := false, leaving := false, killing := false, dbg := {}, poisonIm := [],
      arch := { k.arch with
        freeze := none, lastSc := 3, yielded := [],
        run := some (match k.arch.run with | some r => { r with loaded := true, ready := true, started := true } | none => fetchRun) } })) with
    agenda := [.issue 0 q], today := [] }

/-- An SC word as the next instruction of context 0. -/
def placeSc (s : State) (w : Nat) : State :=
  let s := (fetchable s .sc).modCore 0 (fun k => { k with imSc := memPutBytes k.imSc 0 (natBytes 4 w) })
  s.modCtx 0 0 (fun t => { t with pc := 0, status := .running, wait := .none, busy := [], holds := 0, ops := [], hook := none })

/-- A word as the next one of LD, or of ST where LD cannot have it. -/
def placeEng (s : State) (w : Nat) : State :=
  let toSt := match decodeEngFor .ld w with | .ok _ => false | .error _ => true
  let s := fetchable s (if toSt then .st else .ld)
  let s := s.modCore 0 (fun k => if toSt then { k with imSt := memPutBytes k.imSt 0 (natBytes 2 w) } else { k with imLd := memPutBytes k.imLd 0 (natBytes 2 w) })
  s.modEng 0 (if toSt then .st else .ld) (fun g => { g with pc := 0, status := .running, wait := .none, skip := none, pushes := [], halted := false })

/-- The slot that a slot word stands in: the first of C, W and M that takes it. -/
def placeSlot (w : Nat) : Slot :=
  match okInstr (decodeSlot .c w) with
  | some _ => .c
  | none => match okInstr (decodeSlot .w w) with
    | some _ => .w
    | none => .m

/-- A slot word as the next bundle of the CP, its other slots NOPs. -/
def placeCp (s : State) (w : Nat) : State :=
  let s := (fetchable s .cp).modCore 0 (fun k => { k with imCp := memPutBytes k.imCp 0 (natBytes 32 (w % 2 ^ 64 * 2 ^ (64 * slotCode (placeSlot w)))) })
  s.modCp 0 (fun p => { p with
    pc := 0, status := .running, ctl := .seq, ending := false, wait := .none, rep := none, repcnt := 0, loops := [], pushes := [], halted := false })

/-- The instruction of a table row placed for the next step: 16 bits an engine word, 32 an SC word, 64 a slot word. -/
def placeWord (s : State) (nbits w : Nat) : State :=
  if nbits ≤ 16 then placeEng s w else if nbits ≤ 32 then placeSc s w else placeCp s w

end Sys2Proof.Machine
end

