-- ==== Sys2Proof/Machine/Step.lean ====
section
/-! DEFINITION. The step of the machine: the next turn of its agenda (log 1), and the placing of an instruction where the next step fetches it (log 3). -/

namespace Sys2Proof.Machine

/-- One step: the next turn of the agenda. -/
def step (s : State) : Host.Outcome State Fault Refusal := turnStep s

/-- The instruction of `nbits` bits with the value `w`, placed as the next one that `step` fetches. -/
def State.withFetchWord (s : State) (nbits w : Nat) : State := placeWord s nbits w

end Sys2Proof.Machine
end

