-- ==== Sys2Proof/Numbers.lean ====
section
/-! DEFINITION. What spec 08 says of numbers (R122, R124, R126), as rational numbers: the terms in which the statements speak of floating-point values, apart from the way in which the machine computes them. -/

namespace Sys2Proof.Machine

/-- The number that a finite value stands for. -/
def FVal.number : FVal → ℚ
  | .fin neg m e => (if neg then -1 else 1) * (m : ℚ) * (2 : ℚ) ^ e
  | _ => 0

/-- The magnitude that the exponent and fraction fields p of a format stand for (08 R122); a p beyond the exponent field counts on as if the field were longer. -/
def Fmt.magnitude (f : Fmt) (p : Nat) : ℚ :=
  if p / 2 ^ f.fb = 0 then (p : ℚ) * (2 : ℚ) ^ (1 - (f.bias : ℤ) - f.fb)
  else ((2 ^ f.fb + p % 2 ^ f.fb : Nat) : ℚ) * (2 : ℚ) ^ ((p / 2 ^ f.fb : Nat) - (f.bias : ℤ) - f.fb)

/-- The fields p stand for the magnitude x rounded under a mode, neg telling the sign of the number (08 R124): nearest, and of two equally near the even one; or nearest of no greater magnitude; or nearest of no smaller magnitude. -/
def RoundsTo (f : Fmt) (rm : Rm) (neg : Bool) (x : ℚ) (p : Nat) : Prop :=
  let below : Prop := f.magnitude p ≤ x ∧ x < f.magnitude (p + 1)
  let above : Prop := x ≤ f.magnitude p ∧ ∀ j, j < p → f.magnitude j < x
  match rm with
  | .rne => ∀ j, j ≠ p → |x - f.magnitude p| < |x - f.magnitude j| ∨ (|x - f.magnitude p| = |x - f.magnitude j| ∧ p % 2 = 0)
  | .rz => below
  | .rd => if neg then above else below
  | .ru => if neg then below else above

/-- The integer z is x rounded under a mode (08 R125, rnd). -/
def RoundsToInt (rm : Rm) (x : ℚ) (z : ℤ) : Prop :=
  match rm with
  | .rne => |x - z| ≤ 1 / 2 ∧ (|x - z| = 1 / 2 → z % 2 = 0)
  | .rz => if x < 0 then z = ⌈x⌉ else z = ⌊x⌋
  | .rd => z = ⌊x⌋
  | .ru => z = ⌈x⌉

/-- The pattern of a sign and a magnitude whose rounded fields are p: beyond the largest finite it is what 08 R126 says, where `sat` keeps it finite. -/
def Fmt.pattern (f : Fmt) (rm : Rm) (neg sat : Bool) (p : Nat) : Nat :=
  let away : Bool := match rm with | .rne => true | .rz => false | .rd => neg | .ru => !neg
  (if neg then 2 ^ (f.eb + f.fb) else 0) + if p ≤ f.maxFin then p else if away && f.hasInf && !sat then (2 ^ f.eb - 1) * 2 ^ f.fb else f.maxFin

/-- What the operand feeder makes of a block of 32 patterns (08 R128): a NaN or an infinity marks it as NaN; else its scale S is that of the largest element, and q i the i-th element in units of 2^(S - 133), rounded to nearest and clamped to 8 bits. -/
def Feeds (f : Fmt) (pattern : Nat → Nat) (S : Nat) (q : Nat → ℤ) : Prop :=
  let v (i : Nat) : FVal := decodeF f (pattern i)
  let finite : Prop := ∀ i, i < 32 → ∃ b k e, v i = .fin b k e
  (¬ finite → S = 255)
  ∧ (finite → (∀ i, i < 32 → (v i).number = 0) → S = 0 ∧ ∀ i, i < 32 → q i = 0)
  ∧ (finite → ∀ E : ℤ, (∃ i, i < 32 ∧ (2 : ℚ) ^ E ≤ |(v i).number|) → (∀ i, i < 32 → |(v i).number| < (2 : ℚ) ^ (E + 1)) →
      (S : ℤ) = max (E + 127) 0 ∧ ∀ i, i < 32 → ∃ z, RoundsToInt .rne ((v i).number * (2 : ℚ) ^ (6 - ((S : ℤ) - 127))) z ∧ q i = max (-128) (min 127 z))

end Sys2Proof.Machine
end

