-- ==== Sys2Proof/Safety.lean ====
section
/-! DEFINITION. The terms in which the statements speak of an instruction: that it answers a next state with a property, and what it leaves as it was. -/

namespace Sys2Proof.Machine

/-- The instruction answers a next state that has the property. -/
def Ends (i : Instr) (s : State) (P : State → Prop) : Prop := ∃ t, exec i s = .next t ∧ P t

/-! What is left unchanged. `t` is the state after, `s` the state before. -/

/-- Every byte of every slice and every byte of HBM, under every key, reads as before. -/
def SameMemory (s t : State) : Prop :=
  (∀ c a, memByte (t.core c).spad a = memByte (s.core c).spad a) ∧ ∀ id a, t.hbmByte id a = s.hbmByte id a

/-- Nothing but context k of core c has changed: no other context, engine, core, die, hub register or byte of memory. -/
def OnlyCtx (s t : State) (c k : Nat) : Prop := t = s.modCtx c k (fun _ => t.ctx c k)

/-- Nothing but the CP of core c has changed. -/
def OnlyCp (s t : State) (c : Nat) : Prop := t = s.modCp c (fun _ => t.cp c)

/-- Nothing but engine e of core c has changed. -/
def OnlyEng (s t : State) (c : Nat) (e : Eng) : Prop := t = s.modEng c e (fun _ => t.eng c e)

/-- Nothing but core c has changed. -/
def OnlyCore (s t : State) (c : Nat) : Prop := t = s.modCore c (fun _ => t.core c)

/-- Nothing outside core c has changed. -/
def KeepsRest (s t : State) (c : Nat) : Prop := t = { s with cores := t.cores } ∧ ∀ d, d ≠ c → t.core d = s.core d

/-- Nothing but die d has changed. -/
def OnlyDie (s t : State) (d : Nat) : Prop := t = s.modDie d (fun _ => t.die d)

/-- Nothing but the hub has changed. -/
def OnlyHub (s t : State) : Prop := t = s.modHub (fun _ => t.hub)

/-! An SC instruction. -/

/-- The instruction is done: the pc is `pc`, the context stands in no wait, its registers are those of `t`, and all else of it is as before. -/
def CtxGoes (s t : State) (pc : Word) : Prop := t.me = { s.me with regs := t.me.regs, pc := pc, wait := .none }

/-- Of the registers only xd changes: it receives v, unless it is x0, which reads 0 (12 R175). -/
def OnlyX (s t : State) (d : Nat) (v : Word) : Prop := ∀ r, t.x r = if r = d ∧ d ≠ 0 then v else s.x r

/-- No register changes. -/
def NoX (s t : State) : Prop := ∀ r, t.x r = s.x r

/-- A register instruction: xd receives v, the context goes on behind its word, and nothing else changes. -/
def GivesX (s : State) (d : Nat) (v : Word) (t : State) : Prop :=
  OnlyX s t d v ∧ CtxGoes s t (s.me.pc + 4) ∧ OnlyCtx s t s.c s.k ∧ SameMemory s t

/-- A jump: xd receives the address behind the word, the context goes on at the target, and nothing else changes. -/
def JumpsTo (s : State) (d : Nat) (pc : Word) (t : State) : Prop :=
  OnlyX s t d (s.me.pc + 4) ∧ CtxGoes s t pc ∧ OnlyCtx s t s.c s.k ∧ SameMemory s t

/-- A branch: the context goes on at an address, and nothing else changes. -/
def GoesTo (s : State) (pc : Word) (t : State) : Prop :=
  NoX s t ∧ CtxGoes s t pc ∧ OnlyCtx s t s.c s.k ∧ SameMemory s t

/-- The context waits in its word: its pc and its registers stay, and nothing but its wait changes. -/
def WaitsIn (s : State) (w : Wait) (t : State) : Prop :=
  t.me = { s.me with wait := w, waitFrom := t.me.waitFrom } ∧ OnlyCtx s t s.c s.k ∧ SameMemory s t

/-! An access of an SC context. -/

/-- The access of the acting context may issue at a home: of class 15 in its turn of the wheel, at a canonical and aligned address that its die's unit translates, with no older access of the class to another home (27 R359, 16 R282, R284). -/
def Issuable (s : State) (va size cls : Nat) (op : AccOp) (l : Loc) : Prop :=
  (cls = 15 → ownsWheel s s.c = true ∧ wheelTurn s s.c = true) ∧ va < 2 ^ 57 ∧ va % size = 0
    ∧ lookup s (dieOf s.c) (s.tctx s.c) va op.writes = .loc l ∧ gateShut s s.c s.k cls l.home = false

/-- The access that issues. -/
def accessOf (s : State) (va size cls xd : Nat) (op : AccOp) (l : Loc) : Access :=
  { seq := s.seq, core := s.c, ctx := s.k, cls := cls, pc := s.me.pc, va := va, loc := l, op := op, size := size, xd := xd,
    hold := op.holdsIssue xd, tctx := s.tctx s.c, stamp := s.wheelCount, issued := s.now, arrived := false }

/-- The access has issued: it is outstanding, its destination is busy unless it is a store, the context is behind its word, and no register, no byte of memory, no other context and no other core has changed. -/
def Issues (s : State) (va size cls xd : Nat) (op : AccOp) (l : Loc) (t : State) : Prop :=
  t.accesses = s.accesses ++ [accessOf s va size cls xd op l] ∧ t.seq = s.seq + 1
    ∧ t.me = { s.me with pc := s.me.pc + 4, wait := .none, busy := t.me.busy, holds := s.me.holds + (op.holdsIssue xd).toNat }
    ∧ (∀ r, r ∈ t.me.busy ↔ r ∈ s.me.busy ∨ (r = xd ∧ xd ≠ 0 ∧ op.isStore = false))
    ∧ (∀ k, k ≠ s.k → t.ctx s.c k = s.ctx s.c k)
    ∧ OnlyCore { s with accesses := t.accesses, seq := t.seq } t s.c ∧ SameMemory s t

/-- The word issues its access wherever that may issue. -/
def IssuesWhere (i : Instr) (s : State) (va size cls xd : Nat) (op : AccOp) : Prop :=
  ∀ l, Issuable s va size cls op l → Ends i s (Issues s va size cls xd op l)

/-! What an access does to memory. -/

/-- The memory at the home of a location is in its canonical form. -/
def HomeWf (s : State) : Loc → Prop
  | .slice c _ => (s.core c).spad.wf = true
  | .hbm _ _ => s.hbm.wf = true

/-- The bytes stand at the location, under its key, and every other byte is as it was; under another key that holds for the 16-byte blocks that the write does not touch (17 R299). -/
def Stored (s t : State) (l : Loc) (bs : List Byte) : Prop :=
  match l with
  | .slice c off =>
    (∀ d x, memByte (t.core d).spad x = if d = c ∧ off ≤ x ∧ x < off + bs.length then bs.getD (x - off) 0 else memByte (s.core d).spad x)
      ∧ ∀ id x, t.hbmByte id x = s.hbmByte id x
  | .hbm pa key =>
    (∀ x, t.hbmByte key x = if pa ≤ x ∧ x < pa + bs.length then bs.getD (x - pa) 0 else s.hbmByte key x)
      ∧ (∀ id x, (x / 16 < pa / 16 ∨ (pa + bs.length + 15) / 16 ≤ x / 16) → t.hbmByte id x = s.hbmByte id x)
      ∧ ∀ d x, memByte (t.core d).spad x = memByte (s.core d).spad x

/-- No context has changed but in its notes of the homes it wrote and of the stores that failed. -/
def ContextsKeep (s t : State) : Prop :=
  ∀ c k, t.ctx c k = { s.ctx c k with written := (t.ctx c k).written, fails := (t.ctx c k).fails }

/-- The i-th outstanding access can be performed now: it is the first of its context and class, of a class other than 15, its home is reached and up, and nothing that arrived there before it waits there (12 R182, 07 R117). -/
def Performable (s : State) (i : Nat) (a : Access) : Prop :=
  s.accesses[i]? = some a ∧ a.arrived = false ∧ classFirst s a = true ∧ a.cls ≠ 15
    ∧ reachFault s (dieOf a.core) a.loc a.va = none ∧ pathIn s (dieOf a.core) a.loc.die 2 = false ∧ homeUp s a.loc = true
    ∧ mayReach s a.loc.home (.access a.seq) = true

/-- A reply to an access. -/
def replyTo (a : Access) (v : Word) (f : Option FaultInfo) : Reply :=
  { core := a.core, ctx := a.ctx, xd := a.xd, value := v, hold := a.hold, pc := a.pc, fault := f, access := some a }

/-- An SC instruction that ends in a fault takes the exception and has no effect of its own. -/
def Traps (i : Instr) (s : State) (f : FaultInfo) : Prop := exec i s = .next (s.trap f)

/-- An access at a page that its die's unit translates waits in its word where an older access of its class to another home is outstanding (16 R282), and one of class 15 until its turn on the wheel (16 R284). -/
def WaitsForHome (i : Instr) (s : State) (va cls : Nat) (write : Bool) : Prop :=
  ∀ l, lookup s (dieOf s.c) (s.tctx s.c) va write = .loc l →
    (gateShut s s.c s.k cls l.home = true → Ends i s (WaitsIn s (.gate cls l.home)))
    ∧ (gateShut s s.c s.k cls l.home = false → cls = 15 → wheelTurn s s.c = false → Ends i s (WaitsIn s .wheel))

/-- The checks of an SC access come before its effect, in order: class 15 without a place on the wheel is illegal, an address that is not canonical is an address fault, one that is not aligned an alignment fault (27 R359). Then it waits in its word where its page is not in the translation unit, for a walk (06 R103), or for its home or its turn. -/
def ChecksAccess (i : Instr) (s : State) (va size cls : Nat) (write : Bool) : Prop :=
  (cls = 15 → ownsWheel s s.c = false → Traps i s (faultOf 0x01 0 0))
    ∧ ((cls = 15 → ownsWheel s s.c = true) →
        (2 ^ 57 ≤ va → Traps i s (faultOf 0x0A 0 va))
        ∧ (va < 2 ^ 57 → va % size ≠ 0 → Traps i s (faultOf 0x06 (Nat.log2 size) va))
        ∧ (va < 2 ^ 57 → va % size = 0 →
          (lookup s (dieOf s.c) (s.tctx s.c) va write = .miss → Ends i s (fun t => t.me = { s.me with wait := .walk (va / 2 ^ 16), waitFrom := t.me.waitFrom }
            ∧ (∃ k ∈ (t.die (dieOf s.c)).walks, k.ctx = s.tctx s.c ∧ k.page = va / 2 ^ 16 ∧ (Walker.sc s.c s.k, va, write) ∈ k.waiters)
            ∧ OnlyCtx { s with dies := t.dies } t s.c s.k ∧ SameMemory s t))
          ∧ WaitsForHome i s va cls write))

/-- A word that writes xd and changes besides only the fields of its context that `f` gives: `f` is told the context before. -/
def GivesXWith (s : State) (d : Nat) (v : Word) (f : Ctx → Ctx) (t : State) : Prop :=
  OnlyX s t d v ∧ t.me = { f s.me with regs := t.me.regs, pc := s.me.pc + 4, wait := .none } ∧ OnlyCtx s t s.c s.k ∧ SameMemory s t

/-- A word that writes no register and changes besides only the fields of its context that `f` gives. -/
def PassesWith (s : State) (f : Ctx → Ctx) (t : State) : Prop :=
  t.me = { f s.me with regs := s.me.regs, pc := s.me.pc + 4, wait := .none } ∧ OnlyCtx s t s.c s.k ∧ SameMemory s t

/-- A word queues an operation of its context, to be done in order: the context goes on, its result register waits. -/
def Queues (s : State) (kind : CtxOpKind) (xd : Option Nat) (t : State) : Prop :=
  t.me = { s.me with pc := s.me.pc + 4, wait := .none, ops := s.me.ops ++ [CtxOp.mk s.seq kind], busy := t.me.busy }
    ∧ (∀ r, r ∈ t.me.busy ↔ r ∈ s.me.busy ∨ (xd = some r ∧ r ≠ 0))
    ∧ t.seq = s.seq + 1 ∧ OnlyCtx { s with seq := t.seq } t s.c s.k ∧ SameMemory s t

/-- Nothing of core c is in flight: no command of LD or ST, no entry in the matrix array. -/
def Quiet (s : State) (c : Nat) : Prop := (s.eng c .ld).flight = [] ∧ (s.eng c .st).flight = [] ∧ (s.cp c).mflight = []

/-! A word of LD or ST. -/

/-- Nothing but the acting engine changes, and it as `f` says. -/
def EngDoes (s : State) (f : Engine → Engine) (t : State) : Prop := OnlyEng s t s.c s.e ∧ t.g = f s.g ∧ SameMemory s t

/-- The word leaves a parameter stack and goes on at the next word. -/
def Leaves (s : State) (st : List Word) : State → Prop := EngDoes s (fun g => { g with stack := st, pc := s.g.pc + 1, wait := .none })

/-- The word goes on at a word address with a parameter stack. -/
def GoesOn (s : State) (st : List Word) (pc : Nat) : State → Prop := EngDoes s (fun g => { g with stack := st, pc := pc, wait := .none })

/-- A data command takes its arguments from the stack and joins the command queue under the next number (15 R266). -/
def Enqueues (i : Instr) (s : State) (args rest : List Word) : Prop :=
  (s.g.queue.length < s.g.cap → Ends i s (EngDoes s (fun g => { g with
    stack := rest, pc := s.g.pc + 1, wait := .none, lastNum := g.lastNum + 1
    queue := g.queue ++ [{ num := g.lastNum + 1, op := i, args := args, pc := g.pc }] })))
  ∧ (s.g.cap ≤ s.g.queue.length → Ends i s (EngDoes s (fun g => { g with wait := .queue })))

/-- A word of LD or ST takes a fault and has no effect of its own. -/
def WordFaults (i : Instr) (s : State) (f : FaultInfo) : Prop := exec i s = .next (wordTrap s s.c s.e f)

/-- The command starts, as j gives it, in a state u: it is marked started, and nothing else changes. -/
def StartsAs (u : State) (c : Nat) (e : Eng) (j : Cmd) (t : State) : Prop :=
  t = u.modEng c e (fun g => { g with flight := g.flight.map (fun i => if i.num = j.num then { j with started := true } else i) })

/-- An access of n bytes from a die, in a context, reaches its place: the place allows it, its path is whole, its home is up, and nothing that arrived there before it waits (07 R117, 25 R339, R345, R346). -/
def ReachesFrom (s : State) (d tctx : Nat) (p : Arriver) (va n : Nat) (l : Loc) : Prop :=
  0 < n ∧ homeRefuse s tctx l n va = none ∧ reachFault s d l va = none ∧ pathIn s d l.die 2 = false ∧ homeUp s l = true ∧ mayReach s l.home p = true

/-- The same of a command of engine e, at n bytes in one page. -/
def Reaches (s : State) (c : Nat) (e : Eng) (num va n : Nat) (l : Loc) : Prop :=
  va % 2 ^ 16 + n ≤ 2 ^ 16 ∧ ReachesFrom s (dieOf c) (s.tctx c) (.command c e num) va n l

/-- The next access of a command of LD or ST may be made: it is in flight and started, it goes on, and no access of an earlier command holds it back (15 R267). -/
def AccessReady (s : State) (c : Nat) (e : Eng) (k : Cmd) : Prop :=
  findFlight s c e k.num = some k ∧ cmdGoes s c e k = true ∧ k.started = true ∧ k.faulted = none ∧ k.pos < 2 * unitCount s c k
    ∧ cmdHeld s c e k (earlierCmds s c e k.num) = false

/-- The command of an engine in flight is now j. -/
def FlightIs (s : State) (c : Nat) (e : Eng) (j : Cmd) (t : State) : Prop :=
  (t.eng c e).flight = (s.eng c e).flight.map (fun x => if x.num = j.num then j else x)

/-- A place lies outside the journal entry of a command (24 R327). -/
def OffJournal (s : State) (c : Nat) (k : Cmd) (d x : Nat) : Prop :=
  d = c → ∀ r, s.run c = some r → x < frameOff r.frame + 16 * (k.jidx % 256) ∨ frameOff r.frame + 16 * (k.jidx % 256) + 16 ≤ x

/-- A push takes the next place of a ring, and no longer waits there (06 R107). -/
def takesPlace (who : Nat × Nat) (r : Ring) : Ring := { r with res := r.res + 1, arrived := r.arrived.filter (fun a => a != who) }

/-- A push waits at a ring behind those that arrived before it (06 R107). -/
def arrives (who : Nat × Nat) (r : Ring) : Ring := if r.arrived.contains who then r else { r with arrived := r.arrived ++ [who] }

/-- A ring has a free place for a push, and none that arrived before it waits there. -/
def PlaceFree (who : Nat × Nat) (r : Ring) : Prop := r.res < r.head + r.places ∧ (r.arrived = [] ∨ ∃ l, r.arrived = who :: l)

/-- A place is the oldest visible tile of a ring that is neither popped nor taken (06 R107). -/
def Oldest (r : Ring) (taken : List Nat) (a : Nat) : Prop :=
  r.head ≤ a ∧ a < r.tail ∧ a ∉ r.popped ∧ a ∉ taken ∧ ∀ x, r.head ≤ x → x < a → x ∈ r.popped ∨ x ∈ taken

/-! A slot of the CP. -/

/-- An instruction of the CP with a stage predicate. -/
def onCp : Instr → Bool
  | .cpLoop _ _ _ _ _ | .cpLoopK _ _ _ _ _ | .rep _ _ _ | .repK _ _ _ | .br _ _ | .brc _ _ _ _ _ | .rot _ | .qset _ _ | .qclr _ _
  | .qmovQ _ _ _ | .qmovK _ _ _ | .endk _ | .kadd _ _ _ _ | .kaddi _ _ _ _ | .kmov _ _ _ | .kmovLc _ _ _ | .kmovRrb _ _
  | .vadd _ _ _ _ _ _ _ | .vsub _ _ _ _ _ _ _ | .vmul _ _ _ _ _ _ _ | .vfma _ _ _ _ _ _ _ _ | .vfms _ _ _ _ _ _ _ _
  | .vmin _ _ _ _ _ _ | .vmax _ _ _ _ _ _ | .vabs _ _ _ _ _ | .vneg _ _ _ _ _ | .vand _ _ _ _ _ _ | .vor _ _ _ _ _ _
  | .vxor _ _ _ _ _ _ | .vnot _ _ _ _ _ | .vshl _ _ _ _ _ _ | .vshr _ _ _ _ _ _ | .vsra _ _ _ _ _ _ | .vadds _ _ _ _ _ _
  | .vcmpMask _ _ _ _ _ _ _ | .vcmpVec _ _ _ _ _ _ _ | .vsel _ _ _ _ _ _ _ | .vmov _ _ _ _ _ | .vmovMaskMask _ _ _
  | .vmovMaskVec _ _ _ | .vmovVecMask _ _ _ | .vbcastK _ _ _ _ _ | .vbcastImm _ _ _ _ _ _ | .vcvt _ _ _ _ _ _ _ _
  | .vshuf _ _ _ _ _ _ | .vslide _ _ _ _ _ _ _ | .vreds _ _ _ _ _ _ _ | .vmaxi _ _ _ _ _ | .vmini _ _ _ _ _ | .vpopc _ _ _ _ _
  | .vpopcMask _ _ _ _ | .vrng _ _ _ _ _ _ | .kfromv _ _ _ _ _ | .vexp2 _ _ _ _ _ _ | .vlog2 _ _ _ _ _ _ | .vrcp _ _ _ _ _ _
  | .vrsq _ _ _ _ _ _ | .vpwp _ _ _ _ _ | .pwld _ _ _ | .pwst _ _ _ | .vld _ _ _ _ _ _ | .vst _ _ _ _ _ _ | .kld _ _ _ _
  | .vldr _ _ _ _ _ _ | .vgath _ _ _ _ _ _ | .vscat _ _ _ _ _ _ | .mma _ _ _ _ | .aclrPeek _ _ | .aclrImm _ _ _ | .anorm _ _
  | .ard _ _ _ _ _ _ _ | .awr _ _ _ _ _ _ | .astat _ _ _ _ _ _ | .astatDepth _ _ _ | .hld _ _ _ _ | .hst _ _ _ _
  | .hbind _ _ _ _ | .hpermImm _ _ _ _ | .hpermK _ _ _ _ | .hbun _ _ _ | .hclrb _ _ | .hthr _ _ _ | .hdist _ _ _ _ | .hnear _ _ _
  | .hhash _ _ _ _ | .hseed _ _ _ | .hpop _ _ _ | .hmov _ _ _ | .hmovToHt _ _ | .hmovFromHt _ _ | .hcfg _ _ _ | .pfeed _ _ _ _
  | .mldg _ _ _ _ => true
  | _ => false

/-- The slot acts: its vector names lie below ALLOT, its predicate is true, no check faults and nothing makes it wait (27 R360). -/
def SlotActs (i : Instr) (s : State) : Prop :=
  allotOk (allotOf s s.c) i = true ∧ s.pred (predOf i) = true ∧ cpValue s i = none ∧ cpHold s i = none

/-- A slot that acts answers a next state with the property. -/
def Acts (i : Instr) (s : State) (P : State → Prop) : Prop := SlotActs i s → Ends i s P

/-- Nothing but the CP changes, and it as `f` says. -/
def CpDoes (s : State) (f : Cp → Cp) (t : State) : Prop := OnlyCp s t s.c ∧ t.cp s.c = f (s.cp s.c) ∧ SameMemory s t

/-- One result is on its way, visible `lat` bundles later (11 R173), and nothing else changes but when the bundle's results are written (04 R71). -/
def GivesCp (s : State) (lat : Nat) (w : CpWrite) (t : State) : Prop :=
  OnlyCp s t s.c ∧ t.cp s.c = { s.cp s.c with pend := (t.cp s.c).pend, ready := (t.cp s.c).ready } ∧ (s.cp s.c).ready ≤ (t.cp s.c).ready ∧ SameMemory s t
    ∧ ∃ load, ∀ x, x ∈ (t.cp s.c).pend ↔ x ∈ (s.cp s.c).pend ∨ x = InFlight.mk ((s.cp s.c).issued + lat) w load

/-- Of some results, in their order, the value of the last that a selection names; the old value if it names none. -/
def lastOf {α : Type} (l : List InFlight) (sel : CpWrite → Option α) (old : α) : α := ((l.filterMap (fun x => sel x.write)).getLast?).getD old

/-- Vector register d is to receive in its active elements of width w what `f` gives; its inactive elements keep what they hold (13 R208). -/
def GivesLanes (s : State) (lat w d : Nat) (act : Nat → Bool) (f : Nat → Nat) (t : State) : Prop :=
  ∃ bits value, GivesCp s lat (.vec (s.vphys d) bits value) t
    ∧ ∀ i, i < 4096 / w → lane w bits i = (if act i then 2 ^ w - 1 else 0) ∧ (act i = true → lane w value i = f i % 2 ^ w)

/-! An accumulator element (08 R129, R130), spelled out. -/

/-- rne(P / 2^k): the nearest integer, the even one of two. -/
def nearestEven (P : Int) (k : Nat) : Int :=
  let q := P / 2 ^ k
  let rest := 2 * (P % 2 ^ k)
  if rest < 2 ^ k ∨ (rest = 2 ^ k ∧ q % 2 = 0) then q else q + 1

/-- A, the 64-bit value of G and M. -/
def AccElem.mantissa (e : AccElem) : Int := (e.g ++ e.m).toInt

/-- The element with A written, and flags set. -/
def AccElem.holds (e : AccElem) (A : Int) (flags : BitVec 16) : AccElem :=
  { e with g := BitVec.ofInt 16 (A / 2 ^ 48), m := BitVec.ofInt 48 A, f := e.f ||| flags }

/-- An element after one K-block whose row and column blocks have these scales, exponents and integers (08 R130). -/
def blockAdded (e : AccElem) (a b : Nat × Int × List Int) : AccElem :=
  let P : Int := ((List.range 32).map (fun k => a.2.2.getD k 0 * b.2.2.getD k 0)).sum
  let f : Int := a.2.1 + b.2.1
  let X : Int := e.x.toInt
  let T : Int :=
    if 40 < f - X then (if 0 < P then 2 ^ 63 - 1 else -2 ^ 63)
    else if X ≤ f then e.mantissa + P * 2 ^ (f - X).toNat
    else e.mantissa + nearestEven P (X - f).toNat
  let ovf : BitVec 16 := if 40 < f - X ∨ 2 ^ 63 - 1 < T ∨ T < -2 ^ 63 then 1 else 0
  let inx : BitVec 16 := if f < X ∧ P % 2 ^ (X - f).toNat ≠ 0 then 2 else 0
  if a.1 = 255 ∨ b.1 = 255 then { e with f := e.f ||| 8 }
  else if P = 0 then e
  else e.holds (max (-2 ^ 63) (min (2 ^ 63 - 1) T)) (ovf ||| inx)

/-- An element after ANORM (08 R131): shifted by the least s that makes A fit 48 bits, rounded to nearest even; only XR is set where X would go above 32767. -/
def Normalised (e r : AccElem) : Prop := ∃ s : Nat,
  let fits (s : Nat) : Prop := -2 ^ 47 ≤ nearestEven e.mantissa s ∧ nearestEven e.mantissa s ≤ 2 ^ 47 - 1
  fits s ∧ (∀ j, j < s → ¬ fits j)
    ∧ (32767 < e.x.toInt + s → r = { e with f := e.f ||| 4 })
    ∧ (e.x.toInt + s ≤ 32767 → r = { e.holds (nearestEven e.mantissa s) (if e.mantissa % 2 ^ s ≠ 0 then 2 else 0) with x := e.x + BitVec.ofNat 16 s })

/-! The form of the memories. -/

/-- Every memory of a core is in its canonical form. -/
def CoreWf (k : Core) : Prop := k.spad.wf = true ∧ k.imSc.wf = true ∧ k.imLd.wf = true ∧ k.imCp.wf = true ∧ k.imSt.wf = true

/-- Every memory of the machine is in its canonical form. -/
def MemoryWf (s : State) : Prop := s.hbm.wf = true ∧ ∀ c, CoreWf (s.core c)

end Sys2Proof.Machine
end

