-- ==== Sys2Proof/Certificates/Slice0/Obligations.lean ====
section
/-!
DEFINITION. The statements for the provers, in the order of OBLIGATIONS.json. They are stated over the predicates of Safety.lean: Ends, Stays, Stops and the like say what exec, an event or a turn answers, with its whole frame.
-/

open Sys2Proof Sys2Proof.Machine

/-- 12 R177. The 23 register instructions of the ALU write their value to xd, go on at pc + 4, and change nothing else; with d = 0 nothing is written. Their words are those of major 0x00 with fn8 of the table. -/
def Obligations.AluResults : Prop := ∀ (s : State) (d a b : Nat),
  let x := s.x a
  let y := s.x b
  Ends (.add d a b) s (GivesX s d (x + y))
  ∧ Ends (.sub d a b) s (GivesX s d (x - y))
  ∧ Ends (.mul d a b) s (GivesX s d (BitVec.ofNat 64 (x.toNat * y.toNat)))
  ∧ Ends (.mulh d a b) s (GivesX s d (BitVec.ofInt 64 (x.toInt * y.toInt / 2 ^ 64)))
  ∧ Ends (.mulhu d a b) s (GivesX s d (BitVec.ofNat 64 (x.toNat * y.toNat / 2 ^ 64)))
  ∧ Ends (.div d a b) s (GivesX s d (if y = 0 then -1 else BitVec.ofInt 64 (Int.tdiv x.toInt y.toInt)))
  ∧ Ends (.divu d a b) s (GivesX s d (if y = 0 then -1 else BitVec.ofNat 64 (x.toNat / y.toNat)))
  ∧ Ends (.rem d a b) s (GivesX s d (if y = 0 then x else BitVec.ofInt 64 (Int.tmod x.toInt y.toInt)))
  ∧ Ends (.remu d a b) s (GivesX s d (if y = 0 then x else BitVec.ofNat 64 (x.toNat % y.toNat)))
  ∧ Ends (.and d a b) s (GivesX s d (x &&& y))
  ∧ Ends (.or d a b) s (GivesX s d (x ||| y))
  ∧ Ends (.xor d a b) s (GivesX s d (x ^^^ y))
  ∧ Ends (.shl d a b) s (GivesX s d (BitVec.ofNat 64 (x.toNat * 2 ^ (y.toNat % 64))))
  ∧ Ends (.shr d a b) s (GivesX s d (BitVec.ofNat 64 (x.toNat / 2 ^ (y.toNat % 64))))
  ∧ Ends (.sra d a b) s (GivesX s d (BitVec.ofInt 64 (x.toInt / 2 ^ (y.toNat % 64))))
  ∧ Ends (.min d a b) s (GivesX s d (if x.toInt < y.toInt then x else y))
  ∧ Ends (.max d a b) s (GivesX s d (if x.toInt < y.toInt then y else x))
  ∧ Ends (.minu d a b) s (GivesX s d (if x.toNat < y.toNat then x else y))
  ∧ Ends (.maxu d a b) s (GivesX s d (if x.toNat < y.toNat then y else x))
  ∧ Ends (.slt d a b) s (GivesX s d (if x.toInt < y.toInt then 1 else 0))
  ∧ Ends (.sltu d a b) s (GivesX s d (if x.toNat < y.toNat then 1 else 0))
  ∧ (∃ n : Nat, Ends (.clz d a) s (GivesX s d (BitVec.ofNat 64 n)) ∧ n ≤ 64 ∧ x.toNat < 2 ^ (64 - n) ∧ (n < 64 → 2 ^ (63 - n) ≤ x.toNat))
  ∧ Ends (.popc d a) s (GivesX s d (BitVec.ofNat 64 ((List.range 64).countP (fun i => x.getLsbD i))))
  ∧ (d < 64 → a < 64 → b < 64 → ∀ p ∈ ([(0x00, .add d a b), (0x01, .sub d a b), (0x02, .mul d a b), (0x03, .mulh d a b), (0x04, .mulhu d a b), (0x05, .div d a b), (0x06, .divu d a b),
        (0x07, .rem d a b), (0x08, .remu d a b), (0x10, .and d a b), (0x11, .or d a b), (0x12, .xor d a b), (0x18, .shl d a b), (0x19, .shr d a b),
        (0x1A, .sra d a b), (0x20, .min d a b), (0x21, .max d a b), (0x22, .minu d a b), (0x23, .maxu d a b), (0x28, .slt d a b), (0x29, .sltu d a b)] : List (Nat × Instr)),
      decodeSc (d * 2 ^ 20 + a * 2 ^ 14 + b * 2 ^ 8 + p.1) = .ok p.2)
  ∧ (d < 64 → a < 64 → decodeSc (d * 2 ^ 20 + a * 2 ^ 14 + 0x30) = .ok (.clz d a) ∧ decodeSc (d * 2 ^ 20 + a * 2 ^ 14 + 0x31) = .ok (.popc d a))

/-- 12 R178, R179. The immediate forms and LUI and ADPC write their value to xd, go on at pc + 4, and change nothing else. -/
def Obligations.ImmediateResults : Prop := ∀ (s : State) (d a n : Nat) (i : BitVec 14) (u : BitVec 20),
  let x := s.x a
  let e := i.signExtend 64
  Ends (.addi d a i) s (GivesX s d (x + e))
  ∧ Ends (.andi d a i) s (GivesX s d (x &&& e))
  ∧ Ends (.ori d a i) s (GivesX s d (x ||| e))
  ∧ Ends (.xori d a i) s (GivesX s d (x ^^^ e))
  ∧ Ends (.slti d a i) s (GivesX s d (if x.toInt < i.toInt then 1 else 0))
  ∧ Ends (.shli d a n) s (GivesX s d (BitVec.ofNat 64 (x.toNat * 2 ^ n)))
  ∧ Ends (.shri d a n) s (GivesX s d (BitVec.ofNat 64 (x.toNat / 2 ^ n)))
  ∧ Ends (.srai d a n) s (GivesX s d (BitVec.ofInt 64 (x.toInt / 2 ^ n)))
  ∧ Ends (.lui d u) s (GivesX s d (BitVec.ofInt 64 (u.toInt * 2 ^ 14)))
  ∧ Ends (.adpc d u) s (GivesX s d (s.me.pc + BitVec.ofInt 64 (u.toInt * 2 ^ 14)))

/-- 12 R179, R180. JAL and JALR write pc + 4 to xd and go on at their target, JALR's formed from xa as it was before; a branch goes on at pc + 4 x its offset if its condition holds, else at pc + 4. Nothing else changes. -/
def Obligations.JumpResults : Prop := ∀ (s : State) (d a b : Nat) (i : BitVec 14) (u : BitVec 20),
  let x := s.x a
  let y := s.x b
  let pc := s.me.pc
  let there := pc + BitVec.ofInt 64 (4 * i.toInt)
  Ends (.jal d u) s (JumpsTo s d (pc + BitVec.ofInt 64 (4 * u.toInt)))
  ∧ Ends (.jalr d a i) s (JumpsTo s d ((x + i.signExtend 64) &&& ~~~3))
  ∧ Ends (.beq a b i) s (GoesTo s (if x = y then there else pc + 4))
  ∧ Ends (.bne a b i) s (GoesTo s (if x ≠ y then there else pc + 4))
  ∧ Ends (.blt a b i) s (GoesTo s (if x.toInt < y.toInt then there else pc + 4))
  ∧ Ends (.bge a b i) s (GoesTo s (if y.toInt ≤ x.toInt then there else pc + 4))
  ∧ Ends (.bltu a b i) s (GoesTo s (if x.toNat < y.toNat then there else pc + 4))
  ∧ Ends (.bgeu a b i) s (GoesTo s (if y.toNat ≤ x.toNat then there else pc + 4))
  ∧ (a < 64 → b < 64 → ∀ p ∈ ([(0x10, .beq a b i), (0x11, .bne a b i), (0x12, .blt a b i), (0x13, .bge a b i), (0x14, .bltu a b i), (0x15, .bgeu a b i)] : List (Nat × Instr)),
      decodeSc (p.1 * 2 ^ 26 + a * 2 ^ 20 + b * 2 ^ 14 + i.toNat) = .ok p.2)

/-- 12 R181, 16 R282. A load or store issues its access of the class, at xa + sext(imm10) x size, for its size, with its kind of value. -/
def Obligations.LoadsStoresIssue : Prop := ∀ (s : State) (d a c : Nat) (i : BitVec 10),
  let ea (size : Nat) : Nat := (s.x a + i.signExtend 64 * BitVec.ofNat 64 size).toNat
  IssuesWhere (.ldb d a c i) s (ea 1) 1 c d (.load true)
  ∧ IssuesWhere (.ldbu d a c i) s (ea 1) 1 c d (.load false)
  ∧ IssuesWhere (.ldh d a c i) s (ea 2) 2 c d (.load true)
  ∧ IssuesWhere (.ldhu d a c i) s (ea 2) 2 c d (.load false)
  ∧ IssuesWhere (.ldw d a c i) s (ea 4) 4 c d (.load true)
  ∧ IssuesWhere (.ldwu d a c i) s (ea 4) 4 c d (.load false)
  ∧ IssuesWhere (.ldd d a c i) s (ea 8) 8 c d (.load false)
  ∧ IssuesWhere (.stb d a c i) s (ea 1) 1 c d (.store (s.x d))
  ∧ IssuesWhere (.sth d a c i) s (ea 2) 2 c d (.store (s.x d))
  ∧ IssuesWhere (.stw d a c i) s (ea 4) 4 c d (.store (s.x d))
  ∧ IssuesWhere (.std d a c i) s (ea 8) 8 c d (.store (s.x d))

/-- 12 R183, R184, R189, R196. An atomic issues its access at xa with operand xb and expected value xd, a no-return form as a store; a deque word issues on a descriptor in hall space, which is 32-byte aligned; LNTW issues a class-0 load of 64 bytes from hall space once no LNGO of its table waits. -/
def Obligations.AtomicsDequesIssue : Prop := ∀ (s : State) (d a b c n : Nat) (nr w : Bool),
  let va := (s.x a).toNat
  let size := if w then 8 else 4
  let at_ (op : AtomicOp) : AccOp := .atomic op (s.x b) (s.x d) (!nr)
  IssuesWhere (.aadd d a b c nr w) s va size c d (at_ .add)
  ∧ IssuesWhere (.aand d a b c nr w) s va size c d (at_ .and)
  ∧ IssuesWhere (.aor d a b c nr w) s va size c d (at_ .or)
  ∧ IssuesWhere (.axor d a b c nr w) s va size c d (at_ .xor)
  ∧ IssuesWhere (.aswp d a b c nr w) s va size c d (at_ .swp)
  ∧ IssuesWhere (.amax d a b c nr w) s va size c d (at_ .max)
  ∧ IssuesWhere (.amin d a b c nr w) s va size c d (at_ .min)
  ∧ IssuesWhere (.amaxu d a b c nr w) s va size c d (at_ .maxu)
  ∧ IssuesWhere (.aminu d a b c nr w) s va size c d (at_ .minu)
  ∧ IssuesWhere (.acas d a b c nr w) s va size c d (at_ .cas)
  ∧ IssuesWhere (.famax d a b c nr) s va 4 c d (at_ .fmax)
  ∧ IssuesWhere (.famin d a b c nr) s va 4 c d (at_ .fmin)
  ∧ IssuesWhere (.faadd d a b c nr) s va 4 c d (at_ .fadd)
  ∧ (va < 2 ^ 31 →
      IssuesWhere (.dqpush d a b c) s va 32 c d (.dqpush (s.x b))
      ∧ IssuesWhere (.dqtake d a c) s va 32 c d .dqtake
      ∧ IssuesWhere (.dqsteal d a c) s va 32 c d .dqsteal
      ∧ (s.me.lngos.all (fun p => p.1 != n) = true → IssuesWhere (.lntw a n) s va 64 0 0 (.lntw n)))

/-- 27 R359, R365, 12 R181, R183, R189, R196. Every load, store and atomic makes its checks before it has an effect, and then waits where it has to. A deque word answers BAD where its descriptor lies outside hall space or is misaligned; LNTW faults there, and waits for an LNGO of its table. -/
def Obligations.AccessChecks : Prop := ∀ (s : State) (d a b c n : Nat) (i : BitVec 10) (nr w : Bool),
  let ea (size : Nat) : Nat := (s.x a + i.signExtend 64 * BitVec.ofNat 64 size).toNat
  let va := (s.x a).toNat
  let size := if w then 8 else 4
  (ChecksAccess (.ldb d a c i) s (ea 1) 1 c false ∧ ChecksAccess (.ldbu d a c i) s (ea 1) 1 c false
    ∧ ChecksAccess (.ldh d a c i) s (ea 2) 2 c false ∧ ChecksAccess (.ldhu d a c i) s (ea 2) 2 c false
    ∧ ChecksAccess (.ldw d a c i) s (ea 4) 4 c false ∧ ChecksAccess (.ldwu d a c i) s (ea 4) 4 c false
    ∧ ChecksAccess (.ldd d a c i) s (ea 8) 8 c false
    ∧ ChecksAccess (.stb d a c i) s (ea 1) 1 c true ∧ ChecksAccess (.sth d a c i) s (ea 2) 2 c true
    ∧ ChecksAccess (.stw d a c i) s (ea 4) 4 c true ∧ ChecksAccess (.std d a c i) s (ea 8) 8 c true)
  ∧ (ChecksAccess (.aadd d a b c nr w) s va size c true ∧ ChecksAccess (.aand d a b c nr w) s va size c true
    ∧ ChecksAccess (.aor d a b c nr w) s va size c true ∧ ChecksAccess (.axor d a b c nr w) s va size c true
    ∧ ChecksAccess (.aswp d a b c nr w) s va size c true ∧ ChecksAccess (.amax d a b c nr w) s va size c true
    ∧ ChecksAccess (.amin d a b c nr w) s va size c true ∧ ChecksAccess (.amaxu d a b c nr w) s va size c true
    ∧ ChecksAccess (.aminu d a b c nr w) s va size c true ∧ ChecksAccess (.acas d a b c nr w) s va size c true
    ∧ ChecksAccess (.famax d a b c nr) s va 4 c true ∧ ChecksAccess (.famin d a b c nr) s va 4 c true
    ∧ ChecksAccess (.faadd d a b c nr) s va 4 c true)
  ∧ (∀ w ∈ ([.dqpush d a b c, .dqtake d a c, .dqsteal d a c] : List Instr),
      (c = 15 → ownsWheel s s.c = false → Traps w s (faultOf 0x01 0 0))
      ∧ ((c = 15 → ownsWheel s s.c = true) →
        (2 ^ 57 ≤ va → Traps w s (faultOf 0x0A 0 va))
        ∧ (va < 2 ^ 57 → (2 ^ 31 ≤ va ∨ va % 32 ≠ 0) → Ends w s (GivesX s d 0x8000000000000004))
        ∧ (va < 2 ^ 31 → va % 32 = 0 → WaitsForHome w s va c true)))
  ∧ ((2 ^ 57 ≤ va → Traps (.lntw a n) s (faultOf 0x0A 0 va))
    ∧ (va < 2 ^ 57 → va % 64 ≠ 0 → Traps (.lntw a n) s (faultOf 0x06 6 va))
    ∧ (2 ^ 31 ≤ va → va < 2 ^ 57 → va % 64 = 0 → Traps (.lntw a n) s (faultOf 0x08 2 va))
    ∧ (va < 2 ^ 31 → va % 64 = 0 → (∃ p ∈ s.me.lngos, p.1 = n) → Ends (.lntw a n) s (WaitsIn s (.lntw n)))
    ∧ (va < 2 ^ 31 → va % 64 = 0 → (∀ p ∈ s.me.lngos, p.1 ≠ n) → WaitsForHome (.lntw a n) s va 0 false))

/-- 06 R104, 12 R181, R183. An access that can be performed is performed in one step: a load's reply carries its little-endian bytes, extended as its word says; a store leaves its bytes at the home; an atomic leaves its new value there, and unless it is a no-return form its reply carries the old one. No register changes, and no other byte. The new values are those of the table of R183, the floating ones rounded to nearest. A read of HBM corrects what the ECC can, counted for its die (25 R353). LNTW puts its 64 bytes into the shadow copy of its table. The model's choice: an atomic without a return is performed on poisoned bytes (log 68). -/
def Obligations.AccessesPerform : Prop := ∀ (s : State) (i : Nat) (a : Access),
  Performable s i a → homeRefuse s a.tctx a.loc a.size a.va = none →
  let old := bytesNat (s.locRead a.loc a.size)
  let gone := s.accesses.filter (fun x => x.seq != a.seq)
  (∀ sg, a.op = .load sg → s.locPoison a.loc a.size = false →
    Ends (.accessPerform (.sc i)) s (fun t => t.accesses = gone
      ∧ t.replies = s.replies ++ [replyTo a (if sg then BitVec.ofInt 64 (sextNat (8 * a.size) old) else BitVec.ofNat 64 old) none]
      ∧ t = { s with accesses := gone, replies := t.replies, dies := t.dies, hbmSoft := t.hbmSoft, arrived := t.arrived } ∧ SameMemory s t ∧ ContextsKeep s t
      ∧ (∀ c off, a.loc = .slice c off → t.dies = s.dies ∧ t.hbmSoft = s.hbmSoft)
      ∧ (∀ pa key, a.loc = .hbm pa key → s.hbmSoft.filter (fun g => decide (g * 32 < pa + a.size) && decide (pa < g * 32 + 32)) = [pa / 32] →
          pa / 32 ∉ t.hbmSoft ∧ t.die (pa / 2 ^ 38) = { s.die (pa / 2 ^ 38) with hbmc := satInc (s.die (pa / 2 ^ 38)).hbmc })))
  ∧ (∀ v, a.op = .store v → HomeWf s a.loc →
    Ends (.accessPerform (.sc i)) s (fun t => t.accesses = gone ∧ t.replies = s.replies ∧ ContextsKeep s t
      ∧ Stored s t a.loc (natBytes a.size v.toNat)))
  ∧ (∀ op v e ret, a.op = .atomic op v e ret → (ret = true → s.locPoison a.loc a.size = false) → HomeWf s a.loc →
    Ends (.accessPerform (.sc i)) s (fun t => t.accesses = gone
      ∧ t.replies = (if ret then s.replies ++ [replyTo a (BitVec.ofNat 64 old) none] else s.replies) ∧ ContextsKeep s t
      ∧ Stored s t a.loc (natBytes a.size (atomicNew op (8 * a.size) old (v.toNat % 2 ^ (8 * a.size)) (e.toNat % 2 ^ (8 * a.size))))))
  ∧ (∀ n, a.op = .lntw n → s.locPoison a.loc a.size = false →
    Ends (.accessPerform (.sc i)) s (fun t => t.accesses = gone ∧ t.replies = s.replies ++ [replyTo a 0 none]
      ∧ (∀ m, sget {} (t.seqs a.core).lnts m = if m = n then { sget {} (s.seqs a.core).lnts n with shadow := BitVec.ofNat 512 old } else sget {} (s.seqs a.core).lnts m)
      ∧ t.arch a.core = { s.arch a.core with seqs := { s.seqs a.core with lnts := (t.seqs a.core).lnts } } ∧ SameMemory s t ∧ ContextsKeep s t
      ∧ KeepsRest { s with accesses := gone, replies := t.replies, dies := t.dies, hbmSoft := t.hbmSoft, arrived := t.arrived } t a.core))
  ∧ (∀ (n o v e : Nat), (n = 32 ∨ n = 64) → o < 2 ^ n → v < 2 ^ n → e < 2 ^ n →
      let signed (x : Nat) : Int := (BitVec.ofNat n x).toInt
      atomicNew .add n o v e = (o + v) % 2 ^ n ∧ atomicNew .and n o v e = o &&& v ∧ atomicNew .or n o v e = o ||| v ∧ atomicNew .xor n o v e = o ^^^ v ∧ atomicNew .swp n o v e = v
      ∧ atomicNew .max n o v e = (if signed o < signed v then v else o) ∧ atomicNew .min n o v e = (if signed v < signed o then v else o)
      ∧ atomicNew .maxu n o v e = (if o < v then v else o) ∧ atomicNew .minu n o v e = (if v < o then v else o)
      ∧ atomicNew .cas n o v e = (if o = e then v else o)
      ∧ atomicNew .fmax n o v e = writeVal .f32 .rne false (FVal.maxn (readVal .f32 o) (readVal .f32 v))
      ∧ atomicNew .fmin n o v e = writeVal .f32 .rne false (FVal.minn (readVal .f32 o) (readVal .f32 v))
      ∧ atomicNew .fadd n o v e = writeVal .f32 .rne false (FVal.add (readVal .f32 o) (readVal .f32 v)))

/-- 12 R186, 25 R339, R350. An access that its home refuses, or whose home is lost, or a load or returning atomic that meets poison, leaves memory as it was: a store or no-return atomic of a context is recorded as a failure of its class and home, any other access gets a memory fault for its reply. A slice refuses what reaches into its top 128 KiB (1), and what lies in no area that a launch of the same translation context holds there (2). -/
def Obligations.AccessesFail : Prop := ∀ (s : State) (i : Nat) (a : Access) (detail : Nat),
  (s.accesses[i]? = some a → a.arrived = false → classFirst s a = true → a.cls ≠ 15 →
  let open_ : Prop := reachFault s (dieOf a.core) a.loc a.va = none ∧ pathIn s (dieOf a.core) a.loc.die 2 = false ∧ homeUp s a.loc = true
    ∧ mayReach s a.loc.home (.access a.seq) = true
  ((∃ f, open_ ∧ homeRefuse s a.tctx a.loc a.size a.va = some f ∧ f.detail = detail)
    ∨ ((reachFault s (dieOf a.core) a.loc a.va).isSome = true ∧ detail = 6)
    ∨ (open_ ∧ homeRefuse s a.tctx a.loc a.size a.va = none ∧ s.locPoison a.loc a.size = true ∧ detail = 8
        ∧ ((∃ sg, a.op = .load sg) ∨ ∃ op v e, a.op = .atomic op v e true))) →
  let gone := s.accesses.filter (fun x => x.seq != a.seq)
  Ends (.accessPerform (.sc i)) s (fun t => t.accesses = gone ∧ SameMemory s t ∧ ContextsKeep s t
    ∧ (a.op.isStore = true → a.ctx < 4 → t.replies = s.replies
        ∧ (t.ctx a.core a.ctx).fails = (s.ctx a.core a.ctx).fails ++ [⟨a.cls, a.loc.home, detail == 5 || detail == 6⟩])
    ∧ (a.op.isStore = false → t.replies = s.replies ++ [replyTo a 0 (some (faultOf 0x08 detail a.va))])))
  ∧ (∀ tctx c off n, let holds (r : Running) : Prop := r.tctx = tctx ∧ r.area ≤ off ∧ off + n ≤ r.area + r.spneed
      let held : Prop := (∃ r, s.run c = some r ∧ holds r) ∨ ∃ p ∈ (s.arch c).parked, holds p.run
      (4063232 < off + n → hallRefuse s tctx c off n = some 1)
      ∧ (off + n ≤ 4063232 → held → hallRefuse s tctx c off n = none) ∧ (off + n ≤ 4063232 → ¬ held → hallRefuse s tctx c off n = some 2))

/-- 12 R196. At its home a deque operation reads the 32-byte descriptor and answers a status word or an entry; DQPUSH writes its entry and BOT + 1, DQTAKE BOT - 1, DQSTEAL TOP + 1, and nothing else is written. The descriptor is BUF, LOG, TOP and BOT, little-endian; it is bad where LOG is not 1 to 16, the buffer is not 8-byte aligned within the slice, or BOT - TOP passes 2^LOG. -/
def Obligations.DequesAtHome : Prop := ∀ (s : State) (i c off : Nat) (a : Access) (v : Word),
  (∀ b : List Byte, let field (i n : Nat) : Nat := bytesNat ((b.drop i).take n); dequeOf b = ⟨field 0 8, field 8 4, field 16 8, field 24 8⟩)
  ∧ (∀ (q : Deque) (n : Nat), q.size = ((q.bot : Int) - q.top) % 2 ^ 64 ∧ q.cap = 2 ^ q.log ∧ q.entry c n = q.buf + 8 * (n % 2 ^ q.log) - 4194304 * c
      ∧ (q.bad c = true ↔ q.log = 0 ∨ 16 < q.log ∨ q.buf % 8 ≠ 0 ∨ q.buf < 4194304 * c ∨ 4194304 * (c + 1) < q.buf + 8 * 2 ^ q.log ∨ 2 ^ q.log < q.size))
  ∧ (Performable s i a → homeRefuse s a.tctx a.loc a.size a.va = none → a.loc = .slice c off → s.spadPoison c off 32 = false →
  let q := dequeOf (s.spadRead c off 32)
  let last := wrapInt 64 ((q.bot : Int) - 1)
  let gives (u : State) (w : Word) (t : State) : Prop :=
    t.accesses = s.accesses.filter (fun x => x.seq != a.seq) ∧ t.replies = s.replies ++ [replyTo a w none] ∧ SameMemory u t ∧ ContextsKeep s t
  let reaches (n : Nat) : Prop := hallRefuse s a.tctx c (q.entry c n) 8 = none ∧ s.spadPoison c (q.entry c n) 8 = false
  let value (n : Nat) : Word := BitVec.ofNat 64 (bytesNat (s.spadRead c (q.entry c n) 8))
  ((a.op = .dqpush v ∨ a.op = .dqtake ∨ a.op = .dqsteal) → q.bad c = true → Ends (.accessPerform (.sc i)) s (gives s 0x8000000000000004))
  ∧ (q.bad c = false →
    (a.op = .dqpush v → v.getLsbD 63 = true → Ends (.accessPerform (.sc i)) s (gives s 0x8000000000000003))
    ∧ (a.op = .dqpush v → v.getLsbD 63 = false → q.size = q.cap → Ends (.accessPerform (.sc i)) s (gives s 0x8000000000000002))
    ∧ (a.op = .dqpush v → v.getLsbD 63 = false → q.size ≠ q.cap → hallRefuse s a.tctx c (q.entry c q.bot) 8 = none →
        Ends (.accessPerform (.sc i)) s (gives ((s.spadWrite c (q.entry c q.bot) (natBytes 8 v.toNat)).spadWrite c (off + 24) (natBytes 8 (q.bot + 1))) 0))
    ∧ ((a.op = .dqtake ∨ a.op = .dqsteal) → q.size = 0 → Ends (.accessPerform (.sc i)) s (gives s 0x8000000000000001))
    ∧ (a.op = .dqtake → q.size ≠ 0 → reaches last → Ends (.accessPerform (.sc i)) s (gives (s.spadWrite c (off + 24) (natBytes 8 last)) (value last)))
    ∧ (a.op = .dqsteal → q.size ≠ 0 → reaches q.top →
        Ends (.accessPerform (.sc i)) s (gives (s.spadWrite c (off + 16) (natBytes 8 (q.top + 1))) (value q.top)))))

/-- 12 R176. A reply without a fault writes its register, which is no longer busy, and changes nothing else; it waits while the core is stopped or on the way to a stop, unless a debugger steps it. -/
def Obligations.RepliesWriteRegisters : Prop := ∀ (s : State) (i : Nat) (p : Reply),
  s.replies[i]? = some p →
  let left := s.replies.eraseIdx i
  (s.stopFree p.core = false → (s.core p.core).dbg.stepping = false → exec (.loadReply (.access i)) s = .next s)
  ∧ ((s.stopFree p.core = true ∨ (s.core p.core).dbg.stepping = true) → p.fault = none →
    Ends (.loadReply (.access i)) s (fun t =>
      (∀ r, (t.ctx p.core p.ctx).x r = if r = p.xd ∧ p.xd ≠ 0 then p.value else (s.ctx p.core p.ctx).x r)
      ∧ t.ctx p.core p.ctx = { s.ctx p.core p.ctx with
          regs := (t.ctx p.core p.ctx).regs, busy := (s.ctx p.core p.ctx).busy.erase p.xd
          holds := (s.ctx p.core p.ctx).holds - p.hold.toNat }
      ∧ OnlyCtx { s with replies := left } t p.core p.ctx ∧ SameMemory s t))

/-- 12 R185, R186. FENCE waits while an access that it covers is outstanding; then xd receives the status of the failures it covers, which are forgotten: bit 0 any, bit 1 a lost link, bit 2 a refusal, bits 15:8 how many up to 255, bits 31:16 their classes, every other bit 0. -/
def Obligations.FenceResults : Prop := ∀ (s : State) (d : Nat) (sc : Scope) (mask : BitVec 16),
  let covers (cls home : Nat) : Bool := mask.getLsbD cls && inScope sc s.c home
  let hit := s.me.fails.filter (fun f => covers f.cls f.home)
  ((∃ a ∈ ownAccesses s s.c s.k, covers a.cls a.loc.home = true) → Ends (.fence d sc mask) s (WaitsIn s (.fence sc mask)))
  ∧ ((∀ a ∈ ownAccesses s s.c s.k, covers a.cls a.loc.home = false) →
    ∃ (t : State) (w : Word), exec (.fence d sc mask) s = .next t
      ∧ GivesXWith s d w (fun m => { m with fails := m.fails.filter (fun f => !covers f.cls f.home) }) t
      ∧ (hit = [] → w = 0)
      ∧ w.getLsbD 0 = !hit.isEmpty ∧ w.getLsbD 1 = hit.any (fun f => f.link) ∧ w.getLsbD 2 = hit.any (fun f => !f.link)
      ∧ w.toNat / 8 % 32 = 0 ∧ w.toNat / 256 % 256 = min 255 hit.length
      ∧ (∀ i, i < 16 → w.getLsbD (16 + i) = hit.any (fun f => f.cls == i)) ∧ w.toNat / 2 ^ 32 = 0)

/-- 07 R114, R119, 12 R187. PFENCE waits for the stores of its context; then, while something is in flight that a core it covers has to finish, it asks those cores for their cut and waits. Once nothing holds them up, every core it covers and can reach commits in the one step: CG goes on by one, no block is dirty, and the commit record of the new generation names the core, cause 1 and the cycle and has a good CRC (26 R354); xd receives 0, or bits 0 and 1 with the count of the cores it could not commit. Memory and every other register stay. Which core counts as out of reach is `unreachable`: O53 states it. -/
def Obligations.PfenceCommits : Prop := ∀ (s : State) (d : Nat) (sc : Scope),
  let all := coveredCores s s.c s.k sc
  let go := all.filter (fun o => !unreachable s s.c s.k o)
  (storesDone s s.c s.k s.seq = false → Ends (.pfence d sc) s (WaitsIn s .stores))
  ∧ (storesDone s s.c s.k s.seq = true → (∃ o ∈ go, cutHeld s o = true) → Ends (.pfence d sc) s (fun t =>
      t.me = { s.me with wait := .commits, waitFrom := t.me.waitFrom } ∧ (∀ k, k ≠ s.k → t.ctx s.c k = s.ctx s.c k)
      ∧ (∀ o, t.core o = { s.core o with cutting := if o ∈ go then true else (s.core o).cutting, arch := (t.core o).arch })
      ∧ (∀ o, o ≠ s.c → t.arch o = s.arch o) ∧ t.arch s.c = { s.arch s.c with seqs := { s.seqs s.c with ctxs := (t.seqs s.c).ctxs } }
      ∧ t = { s with cores := t.cores } ∧ SameMemory s t))
  ∧ (storesDone s s.c s.k s.seq = true → (∀ o ∈ go, cutHeld s o = false) → Ends (.pfence d sc) s (fun t =>
      let lost := all.length - go.length
      OnlyX s t d (if lost = 0 then 0 else BitVec.ofNat 64 (256 * min 255 lost + 3)) ∧ t.me.pc = s.me.pc + 4 ∧ t.me.wait = .none
      ∧ (∀ o ∈ go, let g := (s.core o).cellar.cg + 1
          (t.core o).cellar.cg = g ∧ (t.core o).cellar.dirty = [] ∧ (t.core o).cutting = false
          ∧ (let r := if g % 2 = 0 then (t.core o).cellar.rec0 else (t.core o).cellar.rec1
             r.gen = g ∧ r.core = o ∧ r.cause = 1 ∧ r.cycle = s.now ∧ r.crcOk = true))
      ∧ (∀ o, o ∉ go → o ≠ s.c → t.core o = s.core o) ∧ t = { s with cores := t.cores } ∧ SameMemory s t))
  ∧ (storesDone s s.c s.k s.seq = true → all = [s.c] → unreachable s s.c s.k s.c = false → (s.core s.c).stopping = none → Quiet s s.c →
    Ends (.pfence d sc) s (fun t =>
      let g := (s.core s.c).cellar.cg + 1
      OnlyX s t d 0 ∧ t.me.pc = s.me.pc + 4 ∧ t.me.wait = .none
      ∧ (t.core s.c).cellar.cg = g ∧ (t.core s.c).cellar.dirty = []
      ∧ (let r := if g % 2 = 0 then (t.core s.c).cellar.rec0 else (t.core s.c).cellar.rec1
         r.gen = g ∧ r.core = s.c ∧ r.cause = 1 ∧ r.cycle = s.now ∧ r.crcOk = true)
      ∧ OnlyCore s t s.c ∧ SameMemory s t))

/-- 12 R205, 11 R167. CSRR with nothing of its context before it writes the register's value to xd, a write-only register's 0; with an operation before it, and CSRW always, it joins the context's operations in order. -/
def Obligations.CsrWords : Prop := ∀ (s : State) (d a n : Nat),
  (s.me.ops = [] → ¬ (0x060 ≤ n ∧ n < 0x068) → n ≠ 0x03E → Ends (.csrr d n) s (GivesX s d (readCsr s s.c s.k n)))
  ∧ (s.me.ops = [] → 0x060 ≤ n → n < 0x068 →
      Ends (.csrr d n) s (GivesXWith s d (BitVec.ofNat 64 ((s.bar s.c (n - 0x060)).target.toNat * 2 ^ 32 + (s.bar s.c (n - 0x060)).phase.toNat * 65536 + (s.bar s.c (n - 0x060)).count.toNat))
        (fun m => { m with phases := sset m.phases (n - 0x060) (s.bar s.c (n - 0x060)).phase })))
  ∧ (s.me.ops = [] → s.me.ldsel.toNat < 1024 → Ends (.csrr d 0x03E) s (GivesX s d (BitVec.ofNat 64 (sget 0 (s.die (dieOf s.c)).loadc s.me.ldsel.toNat))))
  ∧ (s.me.ops = [] →
      let r := (s.arch s.c).csrs
      let die := s.die (dieOf s.c)
      let g := s.cluster (clusterOf s.c)
      let m := (s.core s.c).cellar
      let reads (n : Nat) (v : Word) : Prop := Ends (.csrr d n) s (GivesX s d v)
      (∀ p ∈ ([(0x000, r.img), (0x001, r.arg), (0x002, r.recAddr), (0x003, r.pos), (0x008, r.paceLd.setWidth 64), (0x009, r.paceCp.setWidth 64), (0x00A, r.paceSt.setWidth 64),
          (0x00C, BitVec.ofNat 64 (s.eng s.c .ld).cn), (0x00D, BitVec.ofNat 64 (s.cp s.c).cn), (0x00E, BitVec.ofNat 64 (s.eng s.c .st).cn),
          (0x010, r.pmbase), (0x011, r.pmcnt.setWidth 64), (0x012, r.bhaddr), (0x018, 0), (0x019, s.me.lres), (0x020, r.rtbase), (0x021, r.rssize),
          (0x028, r.dirtycap.setWidth 64), (0x030, r.inlim.setWidth 64), (0x031, 0), (0x032, r.hkst), (0x033, r.hkz), (0x038, 0), (0x03C, r.rplive), (0x03D, s.me.ldsel),
          (0x100, BitVec.ofNat 64 (2 * g.busy.toNat + g.sel.toNat)),
          (0x200, BitVec.ofNat 64 (die.serr.toNat * 2 ^ 56 + die.sinlim.toNat * 2 ^ 32 + die.sctx.toNat * 2 ^ 16 + 2 * die.inv.toNat + die.en.toNat)),
          (0x201, die.stepmin.setWidth 64), (0x202, die.stepwait.setWidth 64), (0x203, die.stepmax.setWidth 64), (0x204, die.steprec), (0x205, die.steptab),
          (0x210, 0), (0x211, die.rtdone.setWidth 64), (0x212, die.rterr), (0x218, BitVec.ofNat 64 (die.repctx.toNat * 2 ^ 16 + die.repen.toNat)), (0x219, die.repthr.setWidth 64),
          (0x21A, die.rptab), (0x21B, die.xbase), (0x21C, die.xsz), (0x21D, BitVec.ofNat 64 (die.loadc.map (fun e => e.2)).sum), (0x21E, 0)] : List (Nat × Word)), reads p.1 p.2)
      ∧ (∃ w : Word, reads 0x029 w ∧ w.toNat / 2 ^ 32 = m.cg % 2 ^ 32 ∧ w.toNat / 2 ^ 30 % 4 = m.res.toNat ∧ w.toNat / 2 ^ 12 % 2 ^ 18 = 0 ∧ w.toNat % 2 ^ 12 = (s.core s.c).dirtyCount % 2 ^ 12)
      ∧ ((s.core s.c).gate = .on → reads 0x02A 0) ∧ ((s.core s.c).gate ≠ .on → reads 0x02A 1)
      ∧ (s.me.invals = [] → reads 0x039 1) ∧ (s.me.invals ≠ [] → reads 0x039 0)
      ∧ (∀ u, s.run s.c = some u → 0 < u.wheelN → reads 0x03A (BitVec.ofNat 64 (u.wheelN * 2 ^ 16 + u.wheelP % (4096 / u.wheelN))))
      ∧ ((∀ u, s.run s.c = some u → u.wheelN = 0) → reads 0x03A 0)
      ∧ (∀ j, j < 16 → let o := s.ring s.c j
          let tile := 512 * o.tileu.toNat
          let places := o.bytes.toNat / tile
          reads (0x040 + j) (BitVec.ofNat 64 (o.v.toNat * 2 ^ 63 + o.tileu.toNat * 2 ^ 48 + o.bytes.toNat * 2 ^ 22 + o.basek.toNat * 2 ^ 10))
          ∧ reads (0x050 + j) (if places = 0 then 0 else BitVec.ofNat 64
              (o.tail / places % 2 * 2 ^ 52 + o.tail % places * tile * 2 ^ 32 + o.head / places % 2 * 2 ^ 20 + o.head % places * tile)))
      ∧ (∀ j, j < 8 → reads (0x070 + j) (sget 0 r.evc j) ∧ reads (0x078 + j) ((sget 0 r.evsel j).setWidth 64)))
  ∧ (s.me.ops ≠ [] → Ends (.csrr d n) s (Queues s (.csrr n d) (some d)))
  ∧ Ends (.csrw a n) s (Queues s (.csrw n (s.x a)) none)

/-- 12 R205, 05 R91, 03 R46, 10 R155. REGISTER_WRITE performs the oldest CSRW of a context once its earlier stores are performed: a plain register takes its bits of the value, a read-only one ignores it, and nothing else changes, of no core, die or hub, but the queue of operations. -/
def Obligations.CsrWrites : Prop := ∀ (s : State) (c k n : Nat) (v : Word) (q : Nat) (rest : List CtxOp),
  (s.ctx c k).ops = ⟨q, .csrw n v⟩ :: rest →
  let w := Instr.registerWrite (.csr c k)
  let left : State := s.modCtx c k (fun m => { m with ops := rest })
  let r := (s.arch c).csrs
  let sets (r : Csrs) : Prop := exec w s = .next (left.modCsrs c (fun _ => r))
  (storesDone s c k q = false → exec w s = .next s)
  ∧ (storesDone s c k q = true →
    (n = 0x008 → sets { r with paceLd := v.setWidth 16 })
    ∧ (n = 0x009 → sets { r with paceCp := v.setWidth 16 })
    ∧ (n = 0x00A → sets { r with paceSt := v.setWidth 16 })
    ∧ (n = 0x010 → sets { r with pmbase := v &&& 0x3FE000 })
    ∧ (n = 0x012 → sets { r with bhaddr := v })
    ∧ (n = 0x020 → sets { r with rtbase := v })
    ∧ (n = 0x021 → sets { r with rssize := v })
    ∧ (n = 0x033 → (∀ j, (s.ctx c j).hook = none) → sets { r with hkz := v })
    ∧ (∀ j, j < 8 → n = 0x070 + j → sets { r with evc := sset r.evc j v })
    ∧ (∀ j, j < 8 → n = 0x078 + j → sets { r with evsel := sset r.evsel j (v.setWidth 9) })
    ∧ (n = 0x03D → exec w s = .next (s.modCtx c k (fun m => { m with ops := rest, ldsel := v })))
    ∧ ((n ≤ 0x003 ∨ (0x00C ≤ n ∧ n ≤ 0x00E) ∨ n = 0x011 ∨ n = 0x019 ∨ n = 0x029 ∨ n = 0x030 ∨ n = 0x032 ∨ n = 0x039 ∨ n = 0x03A ∨ n = 0x03C ∨ n = 0x03E
        ∨ n = 0x211 ∨ n = 0x212 ∨ n = 0x21D) → exec w s = .next left))

/-- 12 R192, 03 R37 to R44. PRD writes the named register of a patch slot to xd; PWR writes its status, 1 for a refusal by the slot's state and 2 for one by the value, and on 0 the register it names; PREL and PCLOSE change the slot alone as 03 R40 and R44 say; a slot number above 63 is illegal (27 R364). -/
def Obligations.PatchWords : Prop := ∀ (s : State) (d a b : Nat) (p : PatchReg),
  let l := (s.x a).toNat
  let q := s.slot s.c l
  (64 ≤ l → Traps (.prd d a p) s (faultOf 0x01 0 0) ∧ Traps (.pwr d a b p) s (faultOf 0x01 0 0)
    ∧ Traps (.prel d a) s (faultOf 0x01 0 0) ∧ Traps (.pclose d a) s (faultOf 0x01 0 0))
  ∧ (l < 64 → Ends (.prd d a p) s (GivesX s d (match p with
      | .pb => q.pb.setWidth 64 | .pp => q.pp.setWidth 64 | .ps => q.ps.setWidth 64 | .pl => q.pl.setWidth 64 | .pt => q.pt.setWidth 64 | .pm => q.pm.setWidth 64 | .pv => q.pv
      | .pf => BitVec.ofNat 64 (q.endc.toNat * 64 + q.lcause.toNat * 16 + q.gen.toNat * 4 + q.state.toNat))))
  ∧ (l < 64 →
      let w := s.x b
      let n := w.toNat
      let f : BitVec 2 := w.setWidth 2
      let gen := w.getLsbD 2
      let endc := n / 64 % 16
      let gives (r : PatchSlot) (st : Word) : Prop := Ends (.pwr d a b p) s (fun t =>
        OnlyX s t d st ∧ t.slot s.c l = r ∧ (∀ j, j ≠ l → t.slot s.c j = s.slot s.c j)
        ∧ CtxGoes s t (s.me.pc + 4) ∧ OnlyCore s t s.c ∧ SameMemory s t)
      let shut : Prop := q.state = 0 ∨ q.state = 3
      (p = .pv → gives { q with pv := w } 0)
      ∧ (p = .pt → (n < 2 ^ 16 → gives { q with pt := w.setWidth 16 } 0) ∧ (2 ^ 16 ≤ n → gives q 2))
      ∧ (p = .pm → (0 < n → q.pl.toNat ≤ n → n < 256 → gives { q with pm := w.setWidth 8 } 0) ∧ ((n = 0 ∨ n < q.pl.toNat ∨ 256 ≤ n) → gives q 2))
      ∧ ((p = .pb ∨ p = .pp ∨ p = .ps ∨ p = .pl) → ¬ shut → gives q 1)
      ∧ (shut → (p = .pb ∨ p = .pp ∨ p = .ps) → 2 ^ 32 ≤ n → gives q 2)
      ∧ (shut → n < 2 ^ 32 → (p = .pb → gives { q with pb := w.setWidth 32 } 0) ∧ (p = .pp → gives { q with pp := w.setWidth 32 } 0)
          ∧ (p = .ps → gives { q with ps := w.setWidth 32 } 0))
      ∧ (shut → p = .pl → (n ≤ q.pm.toNat → gives { q with pl := w.setWidth 8 } 0) ∧ (q.pm.toNat < n → gives q 2))
      ∧ (p = .pf → f = q.state → (n < 2 ^ 16 → gives { q with gen := gen } 0) ∧ (2 ^ 16 ≤ n → gives q 2))
      ∧ (p = .pf → q.state = 0 → f = 1 → (n < 2 ^ 16 → gives { q with state := 1, gen := gen, pl := 0, ps := q.pb, endc := 0 } 0) ∧ (2 ^ 16 ≤ n → gives q 2))
      ∧ (p = .pf → q.state = 3 → f = 0 → (n < 2 ^ 16 → gives { q with state := 0, gen := gen } 0) ∧ (2 ^ 16 ≤ n → gives q 2))
      ∧ (p = .pf → ¬ shut → f = 3 → (n < 2 ^ 16 → 2 ≤ endc → endc ≤ 6 → gives { q with state := 3, gen := gen, endc := BitVec.ofNat 4 endc } 0)
          ∧ ((2 ^ 16 ≤ n ∨ endc < 2 ∨ 6 < endc) → gives q 2))
      ∧ (p = .pf → f ≠ q.state → ¬ (q.state = 0 ∧ f = 1) → ¬ (q.state = 3 ∧ f = 0) → ¬ (¬ shut ∧ f = 3) → gives q 1))
  ∧ (l < 64 → q.state = 2 → Ends (.prel d a) s (fun t =>
      OnlyX s t d 0 ∧ t.slot s.c l = { q with state := 1 } ∧ (∀ j, j ≠ l → t.slot s.c j = s.slot s.c j)
      ∧ CtxGoes s t (s.me.pc + 4) ∧ OnlyCore s t s.c ∧ SameMemory s t))
  ∧ (l < 64 → q.state ≠ 2 → Ends (.prel d a) s (GivesX s d 1))
  ∧ (l < 64 → (q.state = 0 ∨ q.state = 3) → Ends (.pclose d a) s (GivesX s d 1))
  ∧ (l < 64 → (q.state = 1 ∨ q.state = 2) → q.pl = 0 → Ends (.pclose d a) s (fun t =>
      OnlyX s t d 0 ∧ t.slot s.c l = { q with endc := 1, state := 3 } ∧ (∀ j, j ≠ l → t.slot s.c j = s.slot s.c j)
      ∧ CtxGoes s t (s.me.pc + 4) ∧ OnlyCore s t s.c ∧ SameMemory s t))

/-- 03 R44, R45, R46. PCLOSE of an open slot that holds bytes closes the patch: PP counts it, PS takes PB, PL is 0, LCAUSE 2, ENDC 1, the slot is closed; PMCNT goes on by one, a boundary trap with the map entry is queued, and the entry of 16 bytes is written at PMBASE + 16 x (PMCNT mod 256). It waits while 256 traps are queued, and faults before any effect where R98 refuses the entry. -/
def Obligations.PcloseCloses : Prop := ∀ (s : State) (d a : Nat),
  let l := (s.x a).toNat
  let q := s.slot s.c l
  let n := (s.arch s.c).csrs.pmcnt
  let off := (s.arch s.c).csrs.pmbase.toNat + 16 * (n.toNat % 256)
  let e : BitVec 128 := BitVec.ofNat 128 (s.c * 2 ^ 110 + l * 2 ^ 104 + 2 * 2 ^ 102 + q.pl.toNat * 2 ^ 88 + q.ps.toNat * 2 ^ 32 + q.pp.toNat)
  l < 64 → (q.state = 1 ∨ q.state = 2) → q.pl ≠ 0 →
  (∀ f, mapRefuse s s.c n.toNat = some f → Traps (.pclose d a) s f)
  ∧ (mapRefuse s s.c n.toNat = none → 256 ≤ (s.arch s.c).btraps.length → Ends (.pclose d a) s (WaitsIn s .pclose))
  ∧ (mapRefuse s s.c n.toNat = none → (s.arch s.c).btraps.length < 256 → (s.core s.c).spad.wf = true → Ends (.pclose d a) s (fun t =>
      OnlyX s t d 0 ∧ CtxGoes s t (s.me.pc + 4) ∧ OnlyCore s t s.c
      ∧ t.slot s.c l = { q with pp := q.pp + 1, ps := q.pb, pl := 0, lcause := 2, endc := 1, state := 3 }
      ∧ (t.arch s.c).csrs.pmcnt = n + 1
      ∧ (t.arch s.c).btraps = (s.arch s.c).btraps ++ [⟨l, 2, e, hallAddr s.c off, s.now⟩]
      ∧ Stored s t (.slice s.c off) (natBytes 16 e.toNat)))

/-- 12 R190, R191, R194, R201, R204. WAITE answers CN once it is reached, with bit 63 set where the engine does not run, and waits otherwise; ENGST's word holds CN, what is queued, what is in flight, whether it waits for a token or a ring, and its state, 3 with a fault held unreported; WFE clears a set event flag or waits; YIELD goes on and gives up its context's next turn: with it passed over, the next pick is another context that can issue, and where none can, the context itself (the model's choice, log 70); UTFCUT answers all ones for n above 7, and else its bytes as R146 divides them: STARTS marks where settled units begin, BAD those that are invalid subparts, and the settled count leaves only a prefix of a character, of at most 3 bytes. -/
def Obligations.ContextWords : Prop := ∀ (s : State) (d a : Nat) (e : Eng),
  let x := s.x a
  let cn := cnOf s s.c e
  let sizes : Nat × Nat := match e with
    | .cp => ((s.cp s.c).mq.length, (s.cp s.c).mflight.length)
    | e => ((s.eng s.c e).queue.length, (s.eng s.c e).flight.length)
  (x.toNat ≤ cn → Ends (.waite d a e) s (GivesX s d (BitVec.ofNat 64 cn)))
  ∧ (cn < x.toNat → engRunning s s.c e = true → Ends (.waite d a e) s (WaitsIn s (.waite e x)))
  ∧ (cn < x.toNat → engRunning s s.c e = false → ∃ w : Word, Ends (.waite d a e) s (GivesX s d w)
      ∧ w.getLsbD 63 = true ∧ ∀ i, i < 63 → w.getLsbD i = (BitVec.ofNat 64 cn).getLsbD i)
  ∧ (∃ w : Word, Ends (.engst d e) s (GivesX s d w) ∧ w.toNat / 2 ^ 32 = cn % 2 ^ 32 ∧ w.toNat / 2 ^ 24 % 256 = sizes.1 % 256 ∧ w.toNat / 2 ^ 16 % 256 = sizes.2 % 256
      ∧ w.toNat / 16 % 2 ^ 12 = 0 ∧ w.getLsbD 3 = tokWaits s s.c e ∧ w.getLsbD 2 = ringWaits s s.c e
      ∧ w.toNat % 4 = if (s.core s.c).dbg.pend = true ∧ (if e = .cp then (s.cp s.c).fault ≠ none else (s.eng s.c e).halted = true) then 3
          else match engStatus s s.c e with | .idle => 0 | .running => 1 | .ended => 2)
  ∧ (s.me.flag = true → Ends .wfe s (PassesWith s (fun m => { m with flag := false })))
  ∧ (s.me.flag = false → Ends .wfe s (WaitsIn s .wfe))
  ∧ Ends .yield s (fun t => NoX s t ∧ CtxGoes s t (s.me.pc + 4) ∧ s.k ∈ (t.arch s.c).yielded ∧ OnlyCore s t s.c ∧ SameMemory s t
      ∧ t.arch s.c = { s.arch s.c with yielded := insertNat (s.arch s.c).yielded s.k, seqs := { s.seqs s.c with ctxs := (t.seqs s.c).ctxs } })
  ∧ (∀ c k j, (s.arch c).yielded = [k] → j < 4 → j ≠ k → scReady s c j = true → ∃ i, scPick s c = some i ∧ i ≠ k ∧ scReady s c i = true)
  ∧ (∀ c k j l, scLine s c = k :: j :: l → k ∈ (s.arch c).yielded → scPick s c = some j ∧ k ∉ ((takeSlot s c j).arch c).yielded)
  ∧ (∀ c k, scLine s c = [k] → scPick s c = some k)
  ∧ (∀ c k l, scLine s c = k :: l → k ∉ (s.arch c).yielded → scPick s c = some k)
  ∧ (7 < x.toNat / 2 ^ 56 → Ends (.utfcut d a) s (GivesX s d (-1)))
  ∧ (x.toNat / 2 ^ 56 ≤ 7 → ∃ w : Word, Ends (.utfcut d a) s (GivesX s d w) ∧
      let n := x.toNat / 2 ^ 56
      let byte (i : Nat) : Nat := x.toNat / 2 ^ (8 * i) % 256
      let more : Nat × Nat := (0x80, 0xBF)
      let rows : List (List (Nat × Nat)) := [[(0, 0x7F)], [(0xC2, 0xDF), more], [(0xE0, 0xE0), (0xA0, 0xBF), more], [(0xE1, 0xEC), more, more],
        [(0xED, 0xED), (0x80, 0x9F), more], [(0xEE, 0xEF), more, more], [(0xF0, 0xF0), (0x90, 0xBF), more, more], [(0xF1, 0xF3), more, more, more],
        [(0xF4, 0xF4), (0x80, 0x8F), more, more]]
      let begins (p m : Nat) (r : List (Nat × Nat)) : Prop := r ∈ rows ∧ m ≤ r.length ∧ ∀ i, i < m → (r.getD i (0, 0)).1 ≤ byte (p + i) ∧ byte (p + i) ≤ (r.getD i (0, 0)).2
      let whole (p m : Nat) : Prop := ∃ r, begins p m r ∧ r.length = m
      let part (p m : Nat) : Prop := 0 < m ∧ ∃ r, begins p m r ∧ m < r.length
      let j := w.toNat % 256
      let start (p : Nat) : Bool := w.getLsbD (8 + p) && decide (p < 8)
      let bad (p : Nat) : Bool := w.getLsbD (16 + p) && decide (p < 8)
      w.toNat < 2 ^ 24 ∧ j ≤ n ∧ n ≤ j + 3 ∧ (0 < j → start 0 = true) ∧ (∀ p, start p = true → p < j) ∧ (∀ p, bad p = true → start p = true)
      ∧ (j < n → part j (n - j))
      ∧ ∀ p q, start p = true → p < q → (q = j ∨ start q = true) → (∀ i, p < i → i < q → start i = false) →
          (bad p = false → whole p (q - p))
          ∧ (bad p = true → (q = p + 1 ∧ ¬ whole p 1 ∧ ¬ part p 1) ∨ (part p (q - p) ∧ q < n ∧ ¬ part p (q - p + 1) ∧ ¬ whole p (q - p + 1))))

/-- 05 R85, 12 R193, R194, 10 R150, R157. TRIG leaves a mark to be made, TRIGGER_MARK makes it once the stores before it are performed; WAITP waits until every producer is triggered; EXIT ends context 0's part of the point; LAUNCH and ROUTE act at once where nothing of their context comes before them, else they join its operations; LAYERB swaps the copies of the replica table where updates are applied. The model's choice: a ROUTE answers an invalid record, -2, before a full queue, -1 (log 71). -/
def Obligations.SchedulingWords : Prop := ∀ (s : State) (d a : Nat),
  let x := s.x a
  let die := s.die (dieOf s.c)
  let e := sget 0 die.rtab (x.toNat % 64)
  let free : Prop := s.me.ops = [] ∧ storesDone s s.c s.k s.seq = true
  let field (o n : Nat) : Nat := e.toNat / 2 ^ (8 * o) % 2 ^ (8 * n)
  let score := if field 15 1 = 0 then 4 else 2
  let at_ := dieOf s.c
  let launches (u : State) (n : Nat) : Prop := Ends (.launch d a) s (GivesX u d (BitVec.ofNat 64 n))
  (rtOk e = true ↔ 1 ≤ field 8 4 ∧ field 8 4 ≤ 65536 ∧ 1 ≤ field 12 2 ∧ field 12 2 ≤ 1024 ∧ 1 ≤ field 14 1 ∧ field 14 1 ≤ 8 ∧ field 15 1 ≤ 2
      ∧ field 0 8 % score = 0 ∧ field 24 8 % 16 = 0 ∧ field 32 8 % 32 = 0 ∧ field 40 8 % 4 = 0)
  ∧ (producersTriggered s s.c = true ↔ ∀ r l p u, s.run s.c = some r → s.launch r.launch = some l → p ∈ l.held.producers → s.launch p = some u →
      ∀ x ∈ u.cohort, x.core ∈ u.triggered ∨ x.core ∈ u.completed)
  ∧ (∀ r, s.run s.c = some r → Ends .trig s (fun t => t.seq = s.seq + 1 ∧
      GoesTo { s.modRun s.c (fun r => { r with trigPending := if r.trigSent then r.trigPending else r.trigPending ++ [(s.k, s.seq)] }) with seq := t.seq } (s.me.pc + 4) t))
  ∧ (∀ c r k q rest, s.run c = some r → r.trigPending = (k, q) :: rest →
      ((∃ j, j < 4 ∧ storesDone s c j q = false) → exec (.triggerMark c) s = .next s)
      ∧ ((∀ j, j < 4 → storesDone s c j q = true) → Ends (.triggerMark c) s (fun t =>
          t = (s.modRun c (fun r => { r with trigPending := [], trigSent := true })).modLaunch r.launch (fun l => { l with triggered := insertNat l.triggered c }))))
  ∧ (producersTriggered s s.c = true → Ends .waitp s (GoesTo s (s.me.pc + 4)))
  ∧ (producersTriggered s s.c = false → Ends .waitp s (WaitsIn s .waitp))
  ∧ (s.k = 0 → Ends .exit s (PassesWith s (fun m => { m with status := .exited })))
  ∧ (s.k ≠ 0 → Traps .exit s (faultOf 0x01 0 0))
  ∧ (¬ free → Ends (.launch d a) s (Queues s (.launch d x) (some d)) ∧ Ends (.route d a) s (Queues s (.route d x) (some d)))
  ∧ (free → x.toNat % 64 ≠ 0 → Ends (.launch d a) s (GivesX s d (2 + 256 * 4)))
  ∧ (free → x.toNat % 64 = 0 → ∀ u,
      (∀ f, readBytes s at_ (s.tctx s.c) x.toNat 64 = (u, .error f) → launches u (2 + 256 * 8))
      ∧ ∀ b, readBytes s at_ (s.tctx s.c) x.toNat 64 = (u, .ok b) → ∀ v,
        (∀ n, checkRecord u at_ (u.tctx s.c) (parseRecord b) 1 false = (v, .error n) → launches v (2 + 256 * n))
        ∧ ∀ h, checkRecord u at_ (u.tctx s.c) (parseRecord b) 1 false = (v, .ok h) →
          (1024 ≤ (v.die at_).pool.length → launches v 1)
          ∧ ((v.die at_).pool.length < 1024 → ∃ t, launches t 0 ∧ (t.die at_).pool.length = (v.die at_).pool.length + 1 ∧ SameMemory v t
              ∧ ((t.die at_).pool.getLast?.map (fun p => (p.body, p.addr))) = some (parseRecord b, x)))
  ∧ (free → (64 ≤ x.toNat ∨ rtOk e = false) → Ends (.route d a) s (GivesX s d (-2)))
  ∧ (free → x.toNat < 64 → rtOk e = true → 16 ≤ die.rqueue.length → Ends (.route d a) s (GivesX s d (-1)))
  ∧ (free → x.toNat < 64 → rtOk e = true → die.rqueue.length < 16 → Ends (.route d a) s (GivesX
      (s.modDie (dieOf s.c) (fun x => { x with rqueue := x.rqueue ++ [⟨x.ticket, e, s.tctx s.c⟩], ticket := x.ticket + 1 })) d (BitVec.ofNat 64 die.ticket.toNat)))
  ∧ (die.applied = false → Ends (.layerb d) s (GivesX s d 1))
  ∧ (die.applied = true → Ends (.layerb d) s (fun t => (t.die (dieOf s.c)).live = !die.live ∧ (t.die (dieOf s.c)).applied = false
      ∧ GivesX (s.modDie (dieOf s.c) (fun x => { x with live := !x.live, applied := false, oldCaptures := (t.die (dieOf s.c)).oldCaptures })) d 0 t))

/-- 06 R108, 12 R198, R199. BARA records the phase and sends its arrivals behind the accesses before it; an arrival is at the barrier once those are performed, that of a multicast tile once the tail has moved over it, and neither its sender's core nor its own is gated; one with an earlier access not yet performed, or with either gated, does not count; BARRIER_ARRIVAL counts one, the lowest sender's first, and the last one changes the phase and sets the event flags; BARW goes on once the phase differs from the recorded one, and while it waits notes whether TARGET is 0. -/
def Obligations.BarrierWords : Prop := ∀ (s : State) (d a n : Nat),
  let b := s.bar s.c n
  Ends (.bara a n) s (fun t => t.seq = s.seq + 1 ∧ PassesWith { s with seq := t.seq } (fun m => { m with
      phases := sset m.phases n b.phase
      barrivals := m.barrivals ++ (((List.range 8).filter (fun i => (s.x a).getLsbD i)).map (fun i => clusterOf s.c * 8 + i)).map (fun c => (s.seq, c, n)) }) t)
  ∧ (b.phase = sget false s.me.phases n → Ends (.barw d n) s (fun t =>
      t.me = { s.me with wait := .barw n, waitFrom := t.me.waitFrom, barIdle := t.me.barIdle }
      ∧ (t.me.barIdle = true ↔ b.target = 0 ∨ (s.me.wait = .barw n ∧ s.me.barIdle = true)) ∧ OnlyCtx s t s.c s.k ∧ SameMemory s t))
  ∧ (b.phase ≠ sget false s.me.phases n → Ends (.barw d n) s (GivesXWith s d (if b.phase then 1 else 0) (fun m => { m with phases := sset m.phases n b.phase })))
  ∧ (∀ c o k q m, k < 4 → clusterOf o = clusterOf c → (q, c, m) ∈ (s.ctx o k).barrivals → sliceUp s o = true → sliceUp s c = true → (∀ x ∈ ownAccesses s o k, q ≤ x.seq) →
      ⟨o, m, some (k, (q, c, m))⟩ ∈ readyArrivals s c)
  ∧ (∀ c o k q m, ((∃ x ∈ ownAccesses s o k, x.seq < q) ∨ sliceUp s o = false ∨ sliceUp s c = false) → ⟨o, m, some (k, (q, c, m))⟩ ∉ readyArrivals s c)
  ∧ (∀ c o m, m < 8 → clusterOf o = clusterOf c → o ∈ (s.bar c m).queue → ⟨o, m, none⟩ ∈ readyArrivals s c)
  ∧ (∀ c i, (readyArrivals s c)[i]? = none → exec (.barrierArrival c i) s = .next s)
  ∧ (∀ c i o m from_, (readyArrivals s c)[i]? = some ⟨o, m, from_⟩ →
      let first : Prop := ∀ p ∈ (readyArrivals s c).take i, p.bar = m → o ≤ p.sender
      let u : State := match from_ with
        | some (k, e) => s.modCtx o k (fun t => { t with barrivals := t.barrivals.erase e })
        | none => s.modBar c m (fun b => { b with queue := b.queue.erase o })
      let g := u.bar c m
      (¬ first → exec (.barrierArrival c i) s = .next s)
      ∧ (first → g.target = 0 → Ends (.barrierArrival c i) s (fun t => t = u.modBar c m (fun b => { b with count := if b.count = 65535 then b.count else b.count + 1 })))
      ∧ (first → g.target ≠ 0 → g.count + 1 ≠ g.target → Ends (.barrierArrival c i) s (fun t => t = u.modBar c m (fun b => { b with count := b.count + 1 })))
      ∧ (first → g.target ≠ 0 → g.count + 1 = g.target → Ends (.barrierArrival c i) s (fun t =>
          t.bar c m = { g with count := 0, phase := !g.phase } ∧ (∀ k, k < 4 → (t.ctx c k).flag = true) ∧ OnlyCore u t c ∧ SameMemory s t)))

/-- 12 R188, R189, 04 R72, R73, 16 R291. FMTQ appends a word to the format queue, or waits while it is full or an earlier FMTQ of its core waits; LNGO is noted behind the stores of its context, and LNGO_TAKE_EFFECT exchanges the copies of the table and sets GO once they are performed. -/
def Obligations.LandingWords : Prop := ∀ (s : State) (a n : Nat),
  let mine := match s.me.wait with | .fmtq n => n | _ => s.seq
  let first : Prop := ∀ k m, k < 4 → (s.ctx s.c k).wait = .fmtq m → mine ≤ m
  let room : Prop := (s.seqs s.c).fq.length < (s.seqs s.c).fqCap
  (room → first → Ends (.fmtq a) s (GoesTo (s.modSeqs s.c (fun q => { q with fq := q.fq ++ [s.x a] })) (s.me.pc + 4)))
  ∧ (¬ (room ∧ first) → Ends (.fmtq a) s (fun t => t.seq = max s.seq (mine + 1) ∧ WaitsIn { s with seq := t.seq } (.fmtq mine) t))
  ∧ Ends (.lngo n) s (fun t => t.seq = s.seq + 1 ∧ PassesWith { s with seq := t.seq } (fun m => { m with lngos := m.lngos ++ [(n, s.seq)] }) t)
  ∧ (∀ c k m, (∀ j, j < k → lngoReady s c j = none) → k < 4 → lngoReady s c k = some m →
      let l := sget {} (s.seqs c).lnts m
      Ends (.lngoTakeEffect c) s (fun t =>
        t = (s.modCtx c k (fun t => { t with lngos := t.lngos.tail })).modSeqs c (fun q => { q with lnts := sset q.lnts m { shadow := l.live, live := l.shadow, go := true } })))
  ∧ (∀ c, (∀ j, j < 4 → lngoReady s c j = none) → exec (.lngoTakeEffect c) s = .next s)

/-- 12 R203, 03 R48, 24 R336. HRET waits for the context's stores, and, the model's choice (log 81), for its loads and its queued operations, then its context is dormant and the flags of the others are set; a hook's end sets HKST to 1; in context 0 HRET is illegal. RTE ends an injected sequence and resumes at the saved pc; anywhere else it is illegal. RTE waits in the same way. -/
def Obligations.HandlerEnds : Prop := ∀ (s : State),
  let dbg := (s.core s.c).dbg
  let quiet : Prop := storesDone s s.c s.k s.seq = true ∧ s.me.busy = [] ∧ s.me.holds = 0 ∧ s.me.ops = []
  (s.k = 0 → Traps .hret s (faultOf 0x01 0 0))
  ∧ (s.k ≠ 0 → ¬ quiet → Ends .hret s (WaitsIn s .quiet))
  ∧ (s.k ≠ 0 → s.k < 4 → quiet → Ends .hret s (fun t =>
      t.me = { s.me with status := .dormant, slot := none, hook := none, wait := .none, flag := if s.me.hook.isSome then true else s.me.flag }
      ∧ (∀ j, j < 4 → j ≠ s.k → t.ctx s.c j = { s.ctx s.c j with flag := true })
      ∧ (t.arch s.c).csrs = (if s.me.hook.isSome then { (s.arch s.c).csrs with hkst := 1 } else (s.arch s.c).csrs)
      ∧ OnlyCore s t s.c ∧ SameMemory s t))
  ∧ (dbg.injecting = false → Traps .rte s (faultOf 0x01 0 0))
  ∧ (dbg.injecting = true → ¬ quiet → Ends .rte s (WaitsIn s .quiet))
  ∧ (dbg.injecting = true → quiet → Ends .rte s (fun t =>
      t = (s.modMe (fun m => { m with pc := dbg.savedPc, wait := .none })).modCore s.c (fun k => { k with dbg := { k.dbg with injV := false, injecting := false, stepping := false } })))

/-- 24 R322 to R326. A fault of an SC context at a pc stops its core: the 64-byte record of R324 is written at offset 4096 of the save frame, the core keeps its cause and its frame, vector 4098 is raised, and the contexts stand as they were. With the fault log off or full no copy is appended, else one is, under the key of APKEY (the model's choice, log 19). TRAP is such a fault, of code 0x10, and its context goes on behind it. Stated for a core with no command in flight, at the first fault of its cycle. -/
def Obligations.StopsWriteRecords : Prop := ∀ (s : State) (c k pc : Nat) (f : FaultInfo) (r : Running) (l : Launch),
  (s.ctx c k).hook = none → (s.core c).dbg.injecting = false → (s.core c).stopping = none → (s.core c).second = false → Quiet s c → s.run c = some r → s.launch r.launch = some l → (s.core c).spad.wf = true →
  let record := natBytes 8 (f.code + 256 * f.detail) ++ natBytes 8 f.faddr ++ natBytes 4 0 ++ natBytes 1 k ++ natBytes 1 (if (s.core c).dbg.stepping then 4 else 0)
    ++ natBytes 2 c ++ natBytes 4 pc ++ natBytes 4 (s.cp c).repcnt.toNat ++ natBytes 4 (cnOf s c .ld) ++ natBytes 4 (cnOf s c .cp) ++ natBytes 4 (cnOf s c .st)
    ++ natBytes 4 r.t ++ natBytes 4 l.held.body.tag.toNat ++ natBytes 2 (s.tctx c) ++ natBytes 1 r.frame ++ natBytes 1 0 ++ natBytes 8 s.now
  let at_ := frameOff r.frame + 4096
  let entry := s.hub.fltbase.toNat / 4096 % 2 ^ 29 * 4096 + 64 * (s.hub.flthead % 2 ^ fltLog s)
  let stopped (t : State) : Prop :=
    (t.core c).stop = some ⟨f.code % 256, r.frame⟩ ∧ (t.core c).stopping = none ∧ (t.core c).dbg = { (s.core c).dbg with stepping := false } ∧ (t.core c).arch = (s.core c).arch
  ∀ t, t = ctxTrap s c k f pc →
  record.length = 64
  ∧ stopped t
  ∧ (let v := sget {} s.hub.vectors 4098
     (v.mask = true → t.hub.posted = s.hub.posted ∧ (sget {} t.hub.vectors 4098).pend = true) ∧ (v.mask = false → t.hub.posted = s.hub.posted ++ [(v.addr, v.data)] ∧ t.hub.vectors = s.hub.vectors))
  ∧ (fltLog s = 0 → Stored s t (.slice c at_) record ∧ OnlyCore { s with hub := t.hub } t c ∧ t.hub.flthead = s.hub.flthead ∧ t.hub.fltovf = s.hub.fltovf)
  ∧ (fltLog s ≠ 0 → s.hub.flthead - s.hub.fltack.toNat = 2 ^ fltLog s →
      Stored s t (.slice c at_) record ∧ OnlyCore { s with hub := t.hub } t c ∧ t.hub.flthead = s.hub.flthead ∧ t.hub.fltovf = true)
  ∧ (fltLog s ≠ 0 → s.hub.flthead - s.hub.fltack.toNat ≠ 2 ^ fltLog s → (reachFault s hubEnd (.hbm entry 0) 0).isSome = true →
      Stored s t (.slice c at_) record ∧ OnlyCore { s with hub := t.hub } t c ∧ t.hub.flthead = s.hub.flthead ∧ t.hub.fltovf = s.hub.fltovf)
  ∧ (fltLog s ≠ 0 → s.hub.flthead - s.hub.fltack.toNat ≠ 2 ^ fltLog s → reachFault s hubEnd (.hbm entry 0) 0 = none → s.hbm.wf = true → ∃ u,
      Stored s u (.slice c at_) record ∧ Stored u t (.hbm entry s.hub.apkey.toNat) record
      ∧ t.hub.flthead = s.hub.flthead + 1 ∧ t.hub.fltovf = s.hub.fltovf)

/-- 12 R202, 23 R314, 24 R322. TRAP stops the core with cause 0x10 and its code as detail, and leaves its context behind the word; a fault in a hook stops the hook alone: HKST is 2, its context is dormant, its loads are abandoned, no operation that it queued writes a register any more, and no record is written. -/
def Obligations.TrapsAndHooks : Prop := ∀ (s : State) (code c k pc : Nat) (f : FaultInfo),
  ((s.core s.c).dbg.injecting = false → ∃ u, GoesTo s (s.me.pc + 4) u ∧ exec (.trap code) s = .next (ctxTrap u s.c s.k { code := 0x10, detail := code, faddr := 0 } s.me.pc.toNat))
  ∧ ((s.ctx c k).hook.isSome = true → k < 4 →
      let t := ctxTrap s c k f pc
      t.ctx c k = { s.ctx c k with status := .dormant, hook := none, wait := .none, busy := [], holds := 0, reissue := [], ops := (t.ctx c k).ops, flag := true }
      ∧ (t.ctx c k).ops.map (fun o => o.seq) = (s.ctx c k).ops.map (fun o => o.seq) ∧ (∀ o ∈ (t.ctx c k).ops, match o.kind with | .csrr _ d | .launch d _ | .route d _ => d = 0 | .csrw n v => ∃ p ∈ (s.ctx c k).ops, p.kind = .csrw n v)
      ∧ (∀ j, j < 4 → j ≠ k → t.ctx c j = { s.ctx c j with flag := true }) ∧ (t.arch c).csrs = { (s.arch c).csrs with hkst := 2 }
      ∧ t.accesses = s.accesses.filter (fun a => !(a.core == c && a.ctx == k) || a.op.isStore)
      ∧ t.replies = s.replies.filter (fun r => !(r.core == c && r.ctx == k))
      ∧ OnlyCore { s with accesses := t.accesses, replies := t.replies } t c ∧ SameMemory s t)

/-- 13 R207, R208, R224 to R226, R230, R233, 14 R236, R238, R253 to R255, 27 R360, 25 R350. A slot of the CP faults before its effect where a vector name reaches ALLOT (allotment fault) or a check of its values fails, has no effect where its predicate is false, and makes the CP wait where its unit is not ready. An access of the area faults where its offset is not aligned (detail: the log of the unit), where a byte of it lies outside the area (9), and where what it reads is poisoned (8), of VLD and VST in what their active elements touch (the model's choice, log 95); VLDR where the chunk lies outside the tile, or its ring is not set (3); LOOP where its body leaves a live loop that holds it, or a second level would rotate; REP at the end of a live loop; HCFG where its values are not an aligned offset and a count up to 4096. -/
def Obligations.SlotChecks : Prop := ∀ (i : Instr) (s : State), onCp i = true →
  let c := s.c
  let p := s.cp c
  let raises (i : Instr) (f : FaultInfo) : Prop := allotOk (allotOf s c) i = true → s.pred (predOf i) = true → exec i s = .next (cpTrap (repPrep s i) c f)
  let passes (i : Instr) : Prop := vecPoison s i = false → cpValue s i = none
  let holds (i : Instr) (w : EngWait) : Prop := allotOk (allotOf s c) i = true → s.pred (predOf i) = true → cpValue s i = none → exec i s = .next (cpWaits s c w)
  let illegal : FaultInfo := faultOf 0x01 (slotCode s.who.slot) 0
  let off (k : Nat) (x : BitVec 9) (unit : Nat) : Int := (s.kreg k + x.signExtend 64 * BitVec.ofNat 64 unit).toInt
  let named (o : Int) : Nat := (((hallAddr c (areaOf s c) : Nat) + o) % 2 ^ 64).toNat
  let inside (o : Int) (n : Nat) : Prop := 0 ≤ o ∧ o + n ≤ (spneedOf s c : Int)
  let area (i : Instr) (o : Int) (n al : Nat) (poisoned : Prop) : Prop :=
    (o % 2 ^ al ≠ 0 → raises i (faultOf 0x06 al (named o)))
    ∧ (o % 2 ^ al = 0 → ¬ inside o n → raises i (faultOf 0x08 9 (named o)))
    ∧ (o % 2 ^ al = 0 → inside o n → poisoned → raises i (faultOf 0x08 8 (named o)))
    ∧ (o % 2 ^ al = 0 → inside o n → ¬ poisoned → passes i)
  let lanes (i : Instr) (o : Int) (t : ElemType) (m : Nat) (poisoned : Prop) : Prop :=
    let within : Prop := ∀ j, j < t.count → s.active m j = true → inside o (((j + 1) * t.width + 7) / 8)
    (o % 64 ≠ 0 → raises i (faultOf 0x06 6 (named o)))
    ∧ (o % 64 = 0 → ¬ within → raises i (faultOf 0x08 9 (named o)))
    ∧ (o % 64 = 0 → within → poisoned → raises i (faultOf 0x08 8 (named o)))
    ∧ (o % 64 = 0 → within → ¬ poisoned → passes i)
  let bad (o : Int) (n : Nat) : Prop := s.spadPoison c (areaOf s c + o.toNat) n = true
  (allotOk (allotOf s c) i = false → exec i s = .next (cpTrap s c (faultOf 0x03 (slotCode s.who.slot) 0)))
  ∧ (allotOk (allotOf s c) i = true → s.pred (predOf i) = false → exec i s = .next s)
  ∧ (allotOk (allotOf s c) i = true → s.pred (predOf i) = true →
      (∀ f, cpValue s i = some f → exec i s = .next (cpTrap (repPrep s i) c f))
      ∧ (∀ w, cpValue s i = none → cpHold s i = some w → exec i s = .next (cpWaits s c w)))
  ∧ (∀ w, p.wait ≠ w → (cpWaits s c w).cp c = { p with wait := w, waitFrom := s.coreTime c }) ∧ (∀ w, p.wait = w → cpWaits s c w = s)
  ∧ (∀ q m t d k x, lanes (.vld q m t d k x) (off k x 64) t m (maskedPoison s (off k x 64) t m = true))
  ∧ (∀ q m t b k x, lanes (.vst q m t b k x) (off k x 64) t m False)
  ∧ (∀ q k x, area (.pwld q k x) (off k x 64) 1280 6 (bad (off k x 64) 1280) ∧ area (.pwst q k x) (off k x 64) 1280 6 False)
  ∧ (∀ q d k x, area (.kld q d k x) (off k x 8) 8 3 (bad (off k x 8) 8) ∧ area (.mldg q d k x) (off k x 32) 32 5 (bad (off k x 32) 32))
  ∧ (∀ q d k x, area (.hld q d k x) (off k x 1024) 1024 10 (bad (off k x 1024) 1024) ∧ area (.hst q d k x) (off k x 1024) 1024 10 False)
  ∧ (∀ q d a, area (.hnear q d a) p.hrb.toNat (1024 * p.hrn.toNat) 0 (bad p.hrb.toNat (1024 * p.hrn.toNat)))
  ∧ (∀ q m t d k b, (s.kreg k).toInt % 2 ^ Nat.log2 (t.width / 8) ≠ 0 →
      raises (.vgath q m t d k b) (faultOf 0x06 (Nat.log2 (t.width / 8)) (named (s.kreg k).toInt)) ∧ raises (.vscat q m t k b d) (faultOf 0x06 (Nat.log2 (t.width / 8)) (named (s.kreg k).toInt)))
  ∧ (∀ q m t d k b, (s.kreg k).toInt % 2 ^ Nat.log2 (t.width / 8) = 0 → ∀ j o, (gatherOffs s m t k b)[j]? = some o → ¬ inside o.2 (t.width / 8) →
      (∀ x ∈ (gatherOffs s m t k b).take j, inside x.2 (t.width / 8)) → raises (.vscat q m t k b d) (faultOf 0x08 9 (named o.2)))
  ∧ (∀ q d rg k ch pop, let g := s.ring c rg; let n := ch + (s.kreg k).toNat; let i := Instr.vldr q d rg k ch pop
      (g.tileu.toNat ≤ n → raises i illegal)
      ∧ (n < g.tileu.toNat → g.v = false → raises i (faultOf 0x08 3 (hallAddr c (g.basek.toNat * 1024))))
      ∧ (n < g.tileu.toNat → g.v = true → g.tail ≤ g.head → holds i .ring)
      ∧ (n < g.tileu.toNat → g.v = true → g.head < g.tail → s.spadPoison c (g.placeOff g.head + 512 * n) 512 = true → raises i (faultOf 0x08 8 (hallAddr c (g.placeOff g.head + 512 * n)))))
  ∧ (∀ q a b, let x := (s.kreg a).toInt; let y := (s.kreg b).toInt
      ((x < 0 ∨ x % 1024 ≠ 0 ∨ y < 0 ∨ 4096 < y) → raises (.hcfg q a b) illegal) ∧ (0 ≤ x → x % 1024 = 0 → 0 ≤ y → y ≤ 4096 → passes (.hcfg q a b)))
  ∧ (∀ q lv e n k rot,
      let leaves : Prop := ∃ l ∈ p.loops, (l.start ≤ p.pc ∧ p.pc ≤ l.close ∧ l.close < p.pc + e) ∨ (rot = true ∧ l.rot = true ∧ l.level ≠ lv)
      (leaves → raises (.cpLoop q lv e n rot) illegal ∧ raises (.cpLoopK q lv e k rot) illegal) ∧ (¬ leaves → passes (.cpLoop q lv e n rot) ∧ passes (.cpLoopK q lv e k rot)))
  ∧ (∀ q n k st, let atEnd : Prop := ∃ l ∈ p.loops, l.close = p.pc
      (atEnd → raises (.rep q n st) illegal ∧ raises (.repK q k st) illegal) ∧ (¬ atEnd → passes (.rep q n st) ∧ passes (.repK q k st)))
  ∧ (∀ q d ra rb, p.mqCap ≤ p.mq.length → holds (.mma q d ra rb) .queue ∧ holds (.aclrPeek q d) .queue ∧ holds (.anorm q d) .queue)
  ∧ (∀ q m t rm d n row, ((∃ e ∈ p.mq, mqTile e.op = n) ∨ ∃ r ∈ p.mflight, mqTile r.entry.op = n) → holds (.ard q m t rm d n row) .other)
  ∧ (∀ q m d a, 192 < (s.arch c).btraps.length → holds (.pfeed q m d a) .other)

/-- 13 R229 to R234. What the slot-C control words do to the CP: a branch taken names its target and ends the loops that do not hold it, LOOP makes a level live or jumps behind its body, REP repeats the next bundle or skips it, ROT and ENDK mark the end of the bundle. -/
def Obligations.ControlSlots : Prop := ∀ (s : State) (q lv e n k a b : Nat) (rot : Bool) (st : Strides) (cond : BrCond) (off : BitVec 16),
  let p := s.cp s.c
  let x := s.kreg a
  let y := s.kreg b
  let target := ((p.pc + off.toInt) % 2 ^ 32).toNat
  let begins (n : Nat) (p : Cp) : Cp := { p with
      lc := sset p.lc lv (BitVec.ofNat 32 n), loops := ⟨lv, p.pc + 1, p.pc + e, rot⟩ :: p.loops.filter (fun l => l.level != lv) }
  let jumps (t : Nat) (p : Cp) : Cp := { p with ctl := .jump t, loops := p.loops.filter (fun l => decide (l.start ≤ t) && decide (t ≤ l.close)) }
  let repeats (n : Nat) (p : Cp) : Cp := { p with rep := some ⟨n, st⟩, repcnt := BitVec.ofNat 16 n, ctl := .begin_ }
  let holds : Prop := match cond with
    | .eq => x = y | .ne => x ≠ y | .lt => x.toInt < y.toInt | .ge => y.toInt ≤ x.toInt | .ltu => x.toNat < y.toNat | .geu => y.toNat ≤ x.toNat
  exec .nop s = .next s
  ∧ Acts (.br q off) s (CpDoes s (jumps target))
  ∧ (holds → Acts (.brc q cond a b off) s (CpDoes s (jumps target)))
  ∧ (¬ holds → SlotActs (.brc q cond a b off) s → exec (.brc q cond a b off) s = .next s)
  ∧ Acts (.cpLoop q lv e 0 rot) s (CpDoes s (fun p => { p with ctl := .jump (p.pc + e + 1) }))
  ∧ (0 < n → Acts (.cpLoop q lv e n rot) s (CpDoes s (begins n)))
  ∧ ((s.kreg k).toNat % 2 ^ 32 = 0 → Acts (.cpLoopK q lv e k rot) s (CpDoes s (fun p => { p with ctl := .jump (p.pc + e + 1) })))
  ∧ ((s.kreg k).toNat % 2 ^ 32 ≠ 0 → Acts (.cpLoopK q lv e k rot) s (CpDoes s (begins ((s.kreg k).toNat % 2 ^ 32))))
  ∧ Acts (.rep q 0 st) s (CpDoes s (fun p => { p with ctl := .skip }))
  ∧ (0 < n → Acts (.rep q n st) s (CpDoes s (repeats n)))
  ∧ ((s.kreg k).toNat % 65536 = 0 → Acts (.repK q k st) s (CpDoes s (fun p => { p with ctl := .skip })))
  ∧ ((s.kreg k).toNat % 65536 ≠ 0 → Acts (.repK q k st) s (CpDoes s (repeats ((s.kreg k).toNat % 65536))))
  ∧ Acts (.rot q) s (CpDoes s (fun p => { p with rotate := true }))
  ∧ Acts (.endk q) s (CpDoes s (fun p => { p with ctl := .stop }))

/-- 13 R221, R228. The k register and predicate words give their value, of class 0 and 1; the predicate's name is mapped as the bundle issues. -/
def Obligations.ScalarSlots : Prop := ∀ (s : State) (q d a b k : Nat) (i : BitVec 16),
  let kd (v : Word) := GivesCp s (latOf s s.c 0) (.k d v)
  let qd (v : Bool) := GivesCp s (latOf s s.c 1) (.q (rotQ (allotOf s s.c) (s.cp s.c).rrb.toNat d) v)
  Acts (.kadd q d a b) s (kd (BitVec.ofNat 64 ((s.kreg a).toNat + (s.kreg b).toNat)))
  ∧ Acts (.kaddi q d a i) s (kd (BitVec.ofInt 64 ((s.kreg a).toInt + i.toInt)))
  ∧ Acts (.kmov q d a) s (kd (s.kreg a))
  ∧ Acts (.kmovLc q d k) s (kd (BitVec.ofNat 64 (sget 0 (s.cp s.c).lc k).toNat))
  ∧ Acts (.kmovRrb q d) s (kd (BitVec.ofNat 64 (s.cp s.c).rrb.toNat))
  ∧ Acts (.qset q d) s (qd true)
  ∧ Acts (.qclr q d) s (qd false)
  ∧ Acts (.qmovQ q d a) s (qd (s.pred a))
  ∧ Acts (.qmovK q d k) s (qd (decide ((s.kreg k).toNat ≠ 0)))

/-- 11 R173, 04 R77. A result reaches its register when the bundle that sees it is about to issue, and not before: every result that is due lands, of those in one register the last one stands, and the others stay on their way. They are kept in the order of the bundles that see them, and of one bundle in the order of issue, within a bundle that of its slots C, V, W, M. -/
def Obligations.ResultsLand : Prop := ∀ (s : State) (c : Nat),
  let p := s.cp c
  let due := p.pend.filter (fun x => decide (x.due ≤ p.issued))
  (∀ t, t = landDue s c →
    (t.cp c).pend = p.pend.filter (fun x => decide (p.issued < x.due))
    ∧ (∀ n, sget 0 (t.cp c).k n = lastOf due (fun w => match w with | .k d v => if d = n then some v else none | _ => none) (sget 0 p.k n))
    ∧ (∀ n, sget 0 (t.cp c).m n = lastOf due (fun w => match w with | .m d v => if d = n then some v else none | _ => none) (sget 0 p.m n))
    ∧ (∀ n, sget false (t.cp c).q n = lastOf due (fun w => match w with | .q d v => if d = n then some v else none | _ => none) (sget false p.q n))
    ∧ (∀ n, sget 0 (t.cp c).h n = lastOf due (fun w => match w with | .h d v => if d = n then some v else none | _ => none) (sget 0 p.h n))
    ∧ (∀ n, sget 0 (t.cp c).b n = lastOf due (fun w => match w with | .bank d v => if d = n then some v else none | _ => none) (sget 0 p.b n))
    ∧ (t.cp c).ht = lastOf due (fun w => match w with | .ht v => some v | _ => none) p.ht
    ∧ (t.cp c).table = lastOf due (fun w => match w with | .table v => some v | _ => none) p.table
    ∧ ((t.cp c).hrb, (t.cp c).hrn) = lastOf due (fun w => match w with | .hcfg a b => some (a, b) | _ => none) (p.hrb, p.hrn)
    ∧ (∀ n i, (sget 0 (t.core c).vrf n).getLsbD i =
        lastOf due (fun w => match w with | .vec d bits v => if d = n ∧ bits.getLsbD i = true then some (v.getLsbD i) else none | _ => none) ((sget 0 (s.core c).vrf n).getLsbD i))
    ∧ t.cp c = { p with pend := (t.cp c).pend, k := (t.cp c).k, m := (t.cp c).m, q := (t.cp c).q, h := (t.cp c).h, b := (t.cp c).b, ht := (t.cp c).ht
                        table := (t.cp c).table, hrb := (t.cp c).hrb, hrn := (t.cp c).hrn }
    ∧ SameMemory s t ∧ OnlyCore s t c)
  ∧ (∀ (l : List InFlight) (x : InFlight), l.Pairwise (fun a b => a.due ≤ b.due) →
      insertDue l x = l.filter (fun y => decide (y.due ≤ x.due)) ++ x :: l.filter (fun y => decide (x.due < y.due)))

/-- 13 R231 to R234. Behind a bundle the CP goes on at the next; at the end of a live loop its counter goes down by one, and while it is not 0 the loop starts again; a rotating loop counts RRB on; a repeated bundle issues again until its count is done. -/
def Obligations.BundlesEnd : Prop := ∀ (p : Cp) (t : Nat),
  (p.ctl = .jump t → bundleNext p = { p with pc := t })
  ∧ (p.ctl = .stop → bundleNext p = { p with ending := true })
  ∧ (p.ctl = .begin_ → bundleNext p = { p with pc := p.pc + 1 })
  ∧ (p.ctl = .seq → p.rep = none → (∀ l ∈ p.loops, l.close ≠ p.pc) → bundleNext p = { p with pc := p.pc + 1 })
  ∧ (p.ctl = .skip → (∀ l ∈ p.loops, l.close ≠ p.pc + 1) → bundleNext p = { p with pc := p.pc + 2 })
  ∧ (∀ r, p.ctl = .seq → p.rep = some r → 1 < p.repcnt → bundleNext p = { p with repcnt := p.repcnt - 1 })
  ∧ (∀ r, p.ctl = .seq → p.rep = some r → p.repcnt ≤ 1 → (∀ l ∈ p.loops, l.close ≠ p.pc) → bundleNext p = { p with repcnt := 0, rep := none, pc := p.pc + 1 })
  ∧ (∀ l rest, p.ctl = .seq → p.rep = none → p.loops = l :: rest → l.close = p.pc →
      let n := sget 0 p.lc l.level - 1
      let rrb := if l.rot then p.rrb + 1 else p.rrb
      (n ≠ 0 → bundleNext p = { p with lc := sset p.lc l.level n, rrb := rrb, pc := l.start })
      ∧ (n = 0 → (∀ m ∈ rest, m.close ≠ p.pc) → bundleNext p = { p with lc := sset p.lc l.level n, rrb := rrb, pc := p.pc + 1, loops := rest.filter (fun x => x.level != l.level) }))

/-- 13 R210, R211, 08 R121, R122, R124 to R126. The arithmetic words give each active element its value: integers wrap at their width, floating values are formed exactly and rounded once. Every pattern of a format stands for its number; what is written is the number rounded under the mode, or beyond the largest finite what R126 says; a NaN is the canonical one. Sums and products are exact, with the signs and infinities of IEEE 754; minimum and maximum pass over a NaN and rank -0 below +0. -/
def Obligations.VectorArithmetic : Prop := ∀ (s : State) (q m d a b c : Nat) (t : ElemType) (rm : Rm),
  let ai (i : Nat) := readInt t (elemOf s t a i)
  let bi (i : Nat) := readInt t (elemOf s t b i)
  let ci (i : Nat) := readInt t (elemOf s t c i)
  let af (i : Nat) := readVal t (elemOf s t a i)
  let bf (i : Nat) := readVal t (elemOf s t b i)
  let cf (i : Nat) := readVal t (elemOf s t c i)
  let gives (cls : Nat) (rm : Rm) (fi : Nat → Int) (ff : Nat → FVal) : State → Prop :=
    GivesLanes s (latOf s s.c cls) t.width d (s.active m) (fun i => if t.isInt then (fi i % 2 ^ t.width).toNat else writeVal t rm false (ff i))
  Acts (.vadd q m t rm d a b) s (gives 3 rm (fun i => ai i + bi i) (fun i => FVal.add (af i) (bf i)))
  ∧ Acts (.vsub q m t rm d a b) s (gives 3 rm (fun i => ai i - bi i) (fun i => FVal.add (af i) (bf i).neg))
  ∧ Acts (.vmul q m t rm d a b) s (gives 4 rm (fun i => ai i * bi i) (fun i => FVal.mul (af i) (bf i)))
  ∧ Acts (.vfma q m t rm d a b c) s (gives 4 rm (fun i => ai i * bi i + ci i) (fun i => FVal.add (FVal.mul (af i) (bf i)) (cf i)))
  ∧ Acts (.vfms q m t rm d a b c) s (gives 4 rm (fun i => ai i * bi i - ci i) (fun i => FVal.add (FVal.mul (af i) (bf i)) (cf i).neg))
  ∧ Acts (.vmin q m t d a b) s (gives 3 .rne (fun i => if ai i ≤ bi i then ai i else bi i) (fun i => FVal.minn (af i) (bf i)))
  ∧ Acts (.vmax q m t d a b) s (gives 3 .rne (fun i => if ai i ≤ bi i then bi i else ai i) (fun i => FVal.maxn (af i) (bf i)))
  ∧ Acts (.vabs q m t d a) s (gives 3 .rne (fun i => if ai i < 0 then -ai i else ai i) (fun i => (af i).abs))
  ∧ Acts (.vneg q m t d a) s (gives 3 .rne (fun i => -ai i) (fun i => (af i).neg))
  ∧ (t.isInt = true → Acts (.vadds q m t d a b) s (gives 3 .rne (fun i => satInt t (ai i + bi i)) (fun i => af i)))
  ∧ (∀ (w : ElemType) (n : Nat) (x : Int), w.isInt = true →
      let lo : Int := if w.signed then -2 ^ (w.width - 1) else 0
      let hi : Int := if w.signed then 2 ^ (w.width - 1) - 1 else 2 ^ w.width - 1
      readInt w n = (if w.signed then (BitVec.ofNat w.width n).toInt else (BitVec.ofNat w.width n).toNat)
      ∧ satInt w x = if x < lo then lo else if hi < x then hi else x)
  ∧ (fmtOf .f32 = some ⟨8, 23, 127, 0x7F7FFFFF, true, 0x7FC00000, false⟩ ∧ fmtOf .f16 = some ⟨5, 10, 15, 0x7BFF, true, 0x7E00, false⟩
      ∧ fmtOf .bf16 = some ⟨8, 7, 127, 0x7F7F, true, 0x7FC0, false⟩ ∧ fmtOf .e4m3 = some ⟨4, 3, 7, 0x7E, false, 0x7F, true⟩ ∧ fmtOf .e5m2 = some ⟨5, 2, 15, 0x7B, true, 0x7E, true⟩)
  ∧ (∀ (w : ElemType) (f : Fmt), fmtOf w = some f →
      (∀ n, let top : Prop := n / 2 ^ f.fb % 2 ^ f.eb = 2 ^ f.eb - 1
        let fraction := n % 2 ^ f.fb
        let neg : Bool := n / 2 ^ (f.eb + f.fb) % 2 == 1
        (readVal w n = .nan ↔ top ∧ if f.hasInf then fraction ≠ 0 else fraction = 2 ^ f.fb - 1)
        ∧ (∀ b, readVal w n = .inf b ↔ top ∧ f.hasInf = true ∧ fraction = 0 ∧ b = neg)
        ∧ ∀ b k e, readVal w n = .fin b k e → b = neg ∧ (readVal w n).number = (if b then -1 else 1) * f.magnitude (n % 2 ^ (f.eb + f.fb)))
      ∧ ∀ rm sat, writeVal w rm sat .nan = f.nan
        ∧ (∀ b, writeVal w rm sat (.inf b) = (if b then 2 ^ (f.eb + f.fb) else 0) + if f.hasInf then (2 ^ f.eb - 1) * 2 ^ f.fb else f.maxFin)
        ∧ ∀ b k e, ∃ p, RoundsTo f rm b (FVal.fin false k e).number p ∧ writeVal w rm sat (.fin b k e) = f.pattern rm b (sat || f.satur) p)
  ∧ (∀ (u v : FVal), FVal.add .nan v = .nan ∧ FVal.add u .nan = .nan ∧ FVal.mul .nan v = .nan ∧ FVal.mul u .nan = .nan ∧ FVal.nan.neg = .nan ∧ FVal.nan.abs = .nan
      ∧ FVal.maxn .nan v = v ∧ FVal.maxn u .nan = u ∧ FVal.minn .nan v = v ∧ FVal.minn u .nan = u)
  ∧ (∀ (i j : Bool) (k l : Nat) (e g : Int),
      let u : FVal := .fin i k e
      let v : FVal := .fin j l g
      FVal.add (.inf i) (.inf j) = (if i = j then .inf i else .nan) ∧ FVal.add (.inf i) v = .inf i ∧ FVal.add u (.inf j) = .inf j
      ∧ (∃ o n h, FVal.add u v = .fin o n h ∧ (FVal.add u v).number = u.number + v.number ∧ (u.number + v.number = 0 → o = if i = j ∧ k = 0 ∧ l = 0 then i else false))
      ∧ FVal.mul (.inf i) (.inf j) = .inf (i != j) ∧ FVal.mul (.inf i) v = (if l = 0 then .nan else .inf (i != j)) ∧ FVal.mul u (.inf j) = (if k = 0 then .nan else .inf (i != j))
      ∧ (∃ n h, FVal.mul u v = .fin (i != j) n h ∧ (FVal.mul u v).number = u.number * v.number)
      ∧ (FVal.inf i).neg = .inf (!i) ∧ u.neg = .fin (!i) k e ∧ (FVal.inf i).abs = .inf false ∧ u.abs = .fin false k e
      ∧ FVal.maxn (.inf i) (.inf j) = .inf (i && j) ∧ FVal.maxn (.inf i) v = (if i then v else .inf i) ∧ FVal.maxn u (.inf j) = (if j then u else .inf j)
      ∧ FVal.minn (.inf i) (.inf j) = .inf (i || j) ∧ FVal.minn (.inf i) v = (if i then .inf i else v) ∧ FVal.minn u (.inf j) = (if j then .inf j else u)
      ∧ (FVal.maxn u v = u ∨ FVal.maxn u v = v) ∧ (FVal.maxn u v).number = max u.number v.number ∧ (u.number = v.number → (FVal.maxn u v).signBit = (i && j))
      ∧ (FVal.minn u v = u ∨ FVal.minn u v = v) ∧ (FVal.minn u v).number = min u.number v.number ∧ (u.number = v.number → (FVal.minn u v).signBit = (i || j)))

/-- 13 R211, R213. The bitwise words, the shifts, whose counts are taken modulo the width, the selection and the movement words give each active element its pattern, of class 2. -/
def Obligations.VectorLogic : Prop := ∀ (s : State) (q m d a b mc k : Nat) (t : ElemType) (rm : Rm) (n : ShiftBy) (imm : BitVec 16),
  let x (i : Nat) := elemOf s t a i
  let y (i : Nat) := elemOf s t b i
  let count (i : Nat) : Nat := match n with | .vec r => elemOf s t r i % t.width | .imm v => v % t.width
  let gives (f : Nat → Nat) : State → Prop := GivesLanes s (latOf s s.c 2) t.width d (s.active m) f
  Acts (.vand q m t d a b) s (gives (fun i => x i &&& y i))
  ∧ Acts (.vor q m t d a b) s (gives (fun i => x i ||| y i))
  ∧ Acts (.vxor q m t d a b) s (gives (fun i => x i ^^^ y i))
  ∧ Acts (.vnot q m t d a) s (gives (fun i => 2 ^ t.width - 1 - x i))
  ∧ Acts (.vshl q m t d a n) s (gives (fun i => x i * 2 ^ count i))
  ∧ Acts (.vshr q m t d a n) s (gives (fun i => x i / 2 ^ count i))
  ∧ Acts (.vsra q m t d a n) s (gives (fun i => ((sextNat t.width (x i) / 2 ^ count i) % 2 ^ t.width).toNat))
  ∧ Acts (.vsel q m t d a b mc) s (gives (fun i => if s.active mc i then x i else y i))
  ∧ Acts (.vmov q m t d a) s (gives x)
  ∧ Acts (.vbcastK q m t d k) s (gives (fun _ => (s.kreg k).toNat))
  ∧ (t.isInt = true → Acts (.vbcastImm q m t rm d imm) s (gives (fun _ => (imm.toInt % 2 ^ t.width).toNat)))
  ∧ (t.isInt = false → Acts (.vbcastImm q m t rm d imm) s (gives (fun _ => writeVal t rm true (decodeF fmtF16 imm.toNat))))

/-- 13 R212, R213, R218. VCMP to a mask sets the bits of the active elements that compare true and clears every other; to a vector it writes all ones or 0; the mask forms of VMOV move 1024 bits; VPOPC counts set bits, or the active elements. Integers compare by their sign or without one; of floating elements a NaN makes NE and UN true and every other condition false, and the rest compare as numbers, -0 equal to +0. -/
def Obligations.VectorMasks : Prop := ∀ (s : State) (q m d a b : Nat) (t : ElemType) (cond : Cmp),
  let holds (i : Nat) : Bool :=
    let x := readInt t (elemOf s t a i)
    let y := readInt t (elemOf s t b i)
    let u := readVal t (elemOf s t a i)
    let v := readVal t (elemOf s t b i)
    if t.isInt then (match cond with
      | .eq => decide (x = y) | .ne => decide (x ≠ y) | .lt => decide (x < y) | .le => decide (x ≤ y) | .gt => decide (y < x) | .ge => decide (y ≤ x) | .un => false)
    else if u = .nan ∨ v = .nan then decide (cond = .ne ∨ cond = .un)
    else match cond with
      | .eq => !u.lt v && !v.lt u | .ne => u.lt v || v.lt u | .lt => u.lt v | .le => !v.lt u | .gt => v.lt u | .ge => !u.lt v | .un => false
  (∃ v : Mask, Acts (.vcmpMask q m t cond d a b) s (GivesCp s (latOf s s.c 1) (.m d v)) ∧ ∀ i, v.getLsbD i = (decide (i < t.count) && s.active m i && holds i))
  ∧ Acts (.vcmpVec q m t cond d a b) s (GivesLanes s (latOf s s.c 3) t.width d (s.active m) (fun i => if holds i then 2 ^ t.width - 1 else 0))
  ∧ Acts (.vmovMaskMask q d a) s (GivesCp s (latOf s s.c 2) (.m d (s.mask a)))
  ∧ (∃ v : Mask, Acts (.vmovMaskVec q d a) s (GivesCp s (latOf s s.c 2) (.m d v)) ∧ ∀ i, i < 1024 → v.getLsbD i = (s.vreg a).getLsbD i)
  ∧ (∃ bits v : Vec, Acts (.vmovVecMask q d a) s (GivesCp s (latOf s s.c 2) (.vec (s.vphys d) bits v))
      ∧ ∀ i, bits.getLsbD i = decide (i < 1024) ∧ (i < 1024 → v.getLsbD i = (s.mask a).getLsbD i))
  ∧ Acts (.vpopc q m t d a) s (GivesLanes s (latOf s s.c 6) t.width d (s.active m) (fun i => (List.range t.width).countP (fun j => (elemOf s t a i).testBit j)))
  ∧ (∃ bits v : Vec, Acts (.vpopcMask q m t d) s (GivesCp s (latOf s s.c 6) (.vec (s.vphys d) bits v))
      ∧ (∀ i, bits.getLsbD i = decide (i < 32)) ∧ v.toNat % 2 ^ 32 = (List.range t.count).countP (s.active m))
  ∧ (∀ (i j : Bool) (k l : Nat) (e g : Int), let u : FVal := .fin i k e
      let v : FVal := .fin j l g
      (u.lt v = true ↔ u.number < v.number) ∧ (FVal.inf i).lt (.inf j) = (i && !j) ∧ (FVal.inf i).lt v = i ∧ u.lt (.inf j) = !j)

/-- 13 R214 to R217, R219, R220. VCVT converts the logical elements, interleaved across the wider side's group; VSHUF and VSLIDE permute; VREDS writes the root of its tree to element 0 alone, VMAXI and VMINI the index and the value of the winner, the first of the best active elements, to bytes 0 to 3 and 8 to 15; VRNG and KFROMV give their numbers. A conversion to an integer rounds under the mode and saturates, a narrowing of an integer wraps or saturates (08 R126); the tree is that of 08 R132, an inactive lane entering as the identity; a NaN never wins over a number, and +0 over -0 (08 R133). -/
def Obligations.VectorPermutes : Prop := ∀ (s : State) (q m d a b k kb idx base : Nat) (t sty : ElemType) (sat : Bool) (rm : Rm) (op : RedOp),
  let n := t.count
  let rs := cvtSrcRegs t sty
  let rd := cvtDstRegs t sty
  let nan : Nat := (fmtOf t).elim 0 (fun f => f.nan)
  let identity (op : RedOp) : Nat := match op with
    | .sum => if t.isInt then 0 else 2 ^ (t.width - 1)
    | .max => if t.isInt then (if t.signed then 2 ^ (t.width - 1) else 0) else nan
    | .min => if t.isInt then (if t.signed then 2 ^ (t.width - 1) - 1 else 2 ^ t.width - 1) else nan
  let leaf (i : Nat) : Nat := if s.active m i then elemOf s t a i else identity op
  let node (x y : Nat) : Nat :=
    let u := readInt t x
    let v := readInt t y
    if t.isInt then ((match op with | .sum => u + v | .max => max u v | .min => min u v) % 2 ^ t.width).toNat
    else match op with
      | .sum => writeVal t rm false (FVal.add (readVal t x) (readVal t y))
      | .max => writeVal t .rne false (FVal.maxn (readVal t x) (readVal t y))
      | .min => writeVal t .rne false (FVal.minn (readVal t x) (readVal t y))
  let beats (hi : Bool) (i j : Nat) : Prop :=
    let x := readInt t (elemOf s t a i)
    let y := readInt t (elemOf s t a j)
    let u := readVal t (elemOf s t a i)
    let v := readVal t (elemOf s t a j)
    if t.isInt then (if hi then y < x else x < y)
    else u ≠ .nan ∧ (v = .nan ∨ (if hi then v.lt u else u.lt v) = true ∨ (u.lt v = false ∧ v.lt u = false ∧ u.signBit = !hi ∧ v.signBit = hi))
  let wins (hi : Bool) (i value : Nat) : Prop := (s.active m i = true ∧ i < n ∧ (∀ j, j < n → s.active m j = true → ¬ beats hi j i) ∧ (∀ j, j < i → s.active m j = true → beats hi i j)
      ∧ value = if t.isInt = false ∧ readVal t (elemOf s t a i) = .nan then nan else elemOf s t a i)
    ∨ ((∀ j, j < n → s.active m j = false) ∧ i = n ∧ value = identity (if hi then .max else .min))
  let tells (hi : Bool) (t : State) : Prop := ∃ bits v : Vec, GivesCp s (latOf s s.c 6) (.vec (s.vphys d) bits v) t
    ∧ (∀ i, bits.getLsbD i = decide (i < 32 ∨ (64 ≤ i ∧ i < 128))) ∧ wins hi (v.toNat % 2 ^ 32) (v.toNat / 2 ^ 64 % 2 ^ 64)
  Acts (.vcvt q m t sty sat rm d a) s (fun u => ∃ bits value : Nat → Vec,
      OnlyCp s u s.c ∧ u.cp s.c = { s.cp s.c with pend := (u.cp s.c).pend, ready := (u.cp s.c).ready } ∧ SameMemory s u
      ∧ (∀ x, x ∈ (u.cp s.c).pend ↔ x ∈ (s.cp s.c).pend ∨ ∃ r, r < rd ∧ x = InFlight.mk ((s.cp s.c).issued + latOf s s.c 5) (.vec (s.vphys (d + r)) (bits r) (value r)) false)
      ∧ ∀ r l, r < rd → l < n → let i := l * rd + r
        lane t.width (bits r) l = (if s.active m i then 2 ^ t.width - 1 else 0)
        ∧ (s.active m i = true → lane t.width (value r) l = convertElem t sty sat rm (lane sty.width (s.vreg (a + i % rs)) (i / rs)) % 2 ^ t.width))
  ∧ (∀ x, let v := readInt sty x
      convertElem t sty sat rm x =
        (if t.isInt then ((if sty.isInt then (if sat = true ∧ t.width ≤ sty.width then satInt t v else v) else toIntType t rm (readVal sty x)) % 2 ^ t.width).toNat
        else writeVal t rm false (readVal sty x))
      ∧ (sty.isInt = true → ∃ b k e, readVal sty x = .fin b k e ∧ (readVal sty x).number = v ∧ b = decide (v < 0)))
  ∧ (t.isInt = true → toIntType t rm .nan = 0
      ∧ (∀ b, toIntType t rm (.inf b) = if b then (if t.signed then -2 ^ (t.width - 1) else 0) else if t.signed then 2 ^ (t.width - 1) - 1 else 2 ^ t.width - 1)
      ∧ ∀ b k e, ∃ z, RoundsToInt rm (FVal.fin b k e).number z ∧ toIntType t rm (.fin b k e) = satInt t z)
  ∧ Acts (.vshuf q m t d a b) s (GivesLanes s (latOf s s.c 5) t.width d (s.active m) (fun i =>
      elemOf s t a (lane 16 (s.vreg (b + i % shufRegs t)) (i / shufRegs t) % n)))
  ∧ Acts (.vslide q m t d a b k) s (GivesLanes s (latOf s s.c 5) t.width d (s.active m) (fun i =>
      if i + (s.kreg k).toNat % n < n then elemOf s t a (i + (s.kreg k).toNat % n) else elemOf s t b (i + (s.kreg k).toNat % n - n)))
  ∧ Acts (.vreds q m t op rm d a) s (GivesLanes s (latOf s s.c 6) t.width d (fun i => i == 0) (fun _ => tree node 0 10 ((List.range n).map leaf)))
  ∧ (∀ (f : Nat → Nat → Nat) (z k j : Nat) (l r : List Nat), (∀ x, tree f z k [x] = x) ∧ (l.length = 2 ^ j → r.length = 2 ^ j → j < k → tree f z k (l ++ r) = f (tree f z k l) (tree f z k r)))
  ∧ Acts (.vmaxi q m t d a) s (tells true)
  ∧ Acts (.vmini q m t d a) s (tells false)
  ∧ Acts (.vrng q m d k kb base) s (GivesLanes s (latOf s s.c 7) 32 d (s.active m) (fun l =>
      let z := s.kreg k ^^^ (s.kreg kb * 0x9E3779B97F4A7C15) ^^^ (BitVec.ofNat 64 (base + l) * 0xD1B54A32D192ED03)
      let z := (z ^^^ (z >>> 30)) * 0xBF58476D1CE4E5B9
      let z := (z ^^^ (z >>> 27)) * 0x94D049BB133111EB
      (z ^^^ (z >>> 31)).toNat / 2 ^ 32))
  ∧ (t.signed = true → Acts (.kfromv q t d a idx) s (GivesCp s (latOf s s.c 5) (.k d (BitVec.ofInt 64 (readInt t (elemOf s t a idx))))))
  ∧ (t.signed = false → Acts (.kfromv q t d a idx) s (GivesCp s (latOf s s.c 5) (.k d (BitVec.ofNat 64 (elemOf s t a idx)))))

/-- 13 R222 to R226, 08 R134, R135. The special functions and VPWP give each active FP32 element their value; PWLD and PWST move the table; VLD, KLD, VLDR and VGATH read the bytes at their address, and VST and VSCAT write their active elements. The special functions give the exact rows of R134, where the fast grade reads a subnormal as a zero, and the accurate reciprocal is rounded once; VPWP evaluates the cubic of the last segment whose breakpoint is not above x, each step rounded once. The model's choice: VLDR pops its tile together with its read (log 54). -/
def Obligations.VectorMemory : Prop := ∀ (s : State) (q m d a b c k rg ch : Nat) (t : ElemType) (acc : Bool) (rm : Rm) (x : BitVec 9),
  let cls := if acc then 9 else 8
  let f32 (f : BitVec 32 → Nat) (cls : Nat) : State → Prop := GivesLanes s (latOf s s.c cls) 32 d (s.active m) (fun i => f (BitVec.ofNat 32 (lane 32 (s.vreg a) i)))
  let at_ (unit : Nat) : Nat := areaOf s s.c + (s.areaOff k x unit).toNat
  let load (off n : Nat) : Nat := bytesNat (s.spadRead s.c off n)
  let wf : Prop := (s.core s.c).spad.wf = true
  let g := s.ring s.c rg
  Acts (.vexp2 q m acc rm d a) s (f32 (exp2F acc) cls)
  ∧ Acts (.vlog2 q m acc rm d a) s (f32 (log2F acc) cls)
  ∧ Acts (.vrcp q m acc rm d a) s (f32 (rcpF acc rm) cls)
  ∧ Acts (.vrsq q m acc rm d a) s (f32 (rsqF acc rm) cls)
  ∧ Acts (.vpwp q m rm d a) s (f32 (pwpF rm (s.cp s.c).table) 10)
  ∧ Acts (.pwld q k x) s (GivesCp s (latOf s s.c 11) (.table (BitVec.ofNat 10240 (load (at_ 64) 1280))))
  ∧ (wf → Acts (.pwst q k x) s (fun u => Stored s u (.slice s.c (at_ 64)) (natBytes 1280 (s.cp s.c).table.toNat) ∧ OnlyCore s u s.c ∧ u.arch s.c = s.arch s.c))
  ∧ Acts (.vld q m t d k x) s (fun u => ∃ bits value, GivesCp s (latOf s s.c 11) (.vec (s.vphys d) bits value) u
      ∧ value.toNat = load (at_ 64) 512 % 2 ^ 4096 ∧ ∀ i, i < t.count → lane t.width bits i = if s.active m i then 2 ^ t.width - 1 else 0)
  ∧ Acts (.kld q d k x) s (GivesCp s (latOf s s.c 11) (.k d (BitVec.ofNat 64 (load (at_ 8) 8))))
  ∧ Acts (.vldr q d rg k ch false) s (GivesCp s (latOf s s.c 11) (.vec (s.vphys d) (-1) (BitVec.ofNat 4096 (load (g.placeOff g.head + 512 * (ch + (s.kreg k).toNat)) 512))))
  ∧ Acts (.vldr q d rg k ch true) s (fun u => ∃ v, GivesCp s (latOf s s.c 11) (.vec (s.vphys d) (-1) (BitVec.ofNat 4096 (load (g.placeOff g.head + 512 * (ch + (s.kreg k).toNat)) 512))) v
      ∧ u = v.modRing s.c rg (fun g => Ring.settleHead (g.popped.length + 1) { g with popped := insertNat g.popped g.head }))
  ∧ Acts (.vgath q m t d k b) s (GivesLanes s (latOf s s.c 12) t.width d (s.active m) (fun i => if s.active m i = true ∧ i < t.count then
      load (areaOf s s.c + (s.kreg k + BitVec.ofNat 64 (lane 32 (s.vreg (b + i % gathRegs t)) (i / gathRegs t) * (t.width / 8))).toInt.toNat) (t.width / 8) else 0))
  ∧ (wf → Acts (.vst q m t b k x) s (fun u => KeepsRest s u s.c ∧ u.arch s.c = s.arch s.c
      ∧ (∀ y, (y < at_ 64 ∨ at_ 64 + 512 ≤ y) → memByte (u.core s.c).spad y = memByte (s.core s.c).spad y)
      ∧ ∀ j e, j < 512 → e < 8 → (memByte (u.core s.c).spad (at_ 64 + j)).getLsbD e =
          if s.active m ((8 * j + e) / t.width) then (s.vreg b).getLsbD (8 * j + e) else (memByte (s.core s.c).spad (at_ 64 + j)).getLsbD e))
  ∧ Acts (.vscat q m t k b c) s (fun u => KeepsRest s u s.c ∧ u.arch s.c = s.arch s.c
      ∧ u = (gatherOffs s m t k b).foldl (fun v p => v.spadWrite s.c (areaOf s s.c + p.2.toNat) (natBytes (t.width / 8) (lane t.width (s.vreg c) p.1))) s)
  ∧ (∀ (acc : Bool) (x : BitVec 32),
      let u := readVal .f32 x.toNat
      let seen : Prop := acc = true ∨ x.toNat / 2 ^ 23 % 256 ≠ 0
      let all (e l r q : Nat) : Prop := exp2F acc x = e ∧ log2F acc x = l ∧ rcpF acc rm x = r ∧ rsqF acc rm x = q
      (u = .nan → all 0x7FC00000 0x7FC00000 0x7FC00000 0x7FC00000) ∧ (u = .inf false → all 0x7F800000 0x7F800000 0 0) ∧ (u = .inf true → all 0 0x7FC00000 0x80000000 0x7FC00000)
      ∧ ((x.toNat % 2 ^ 31 = 0 ∨ ¬ seen) → all 0x3F800000 0xFF800000 (x.toNat / 2 ^ 31 * 2 ^ 31 + 0x7F800000) (x.toNat / 2 ^ 31 * 2 ^ 31 + 0x7F800000))
      ∧ (seen → u.number < 0 → log2F acc x = 0x7FC00000 ∧ rsqF acc rm x = 0x7FC00000)
      ∧ (128 ≤ u.number → exp2F acc x = 0x7F800000)
      ∧ (∀ n : Int, (acc = true ∨ -126 ≤ n) →
          (-149 ≤ n → n ≤ 127 → (∃ b k e, u = .fin b k e) → u.number = n → (readVal .f32 (exp2F acc x)).number = (2 : ℚ) ^ n)
          ∧ (u.number = (2 : ℚ) ^ n → (readVal .f32 (log2F acc x)).number = n))
      ∧ (u.number ≠ 0 → ∃ p, RoundsTo fmtF32 rm (decide (u.number < 0)) |1 / u.number| p ∧ rcpF true rm x = fmtF32.pattern rm (decide (u.number < 0)) false p))
  ∧ (∀ (table : BitVec 10240) (x : BitVec 32) (k : Nat),
      let word (byte : Nat) : Nat := table.toNat / 2 ^ (8 * byte) % 2 ^ 32
      let v (bits : Nat) : FVal := readVal .f32 bits
      let starts (j : Nat) : Prop := v (word (4 * j)) ≠ .nan ∧ (v x.toNat).lt (v (word (4 * j))) = false
      let fma (a b c : Nat) : Nat := writeVal .f32 rm false (FVal.add (FVal.mul (v a) (v b)) (v c))
      let c (j : Nat) : Nat := word (256 + 16 * k + 4 * j)
      let dx : Nat := writeVal .f32 rm false (FVal.add (v x.toNat) (v (word (4 * k))).neg)
      (v x.toNat = .nan → pwpF rm table x = 0x7FC00000)
      ∧ (v x.toNat ≠ .nan → k < 64 → (starts k ∨ k = 0) → (∀ j, k < j → j < 64 → ¬ starts j) → pwpF rm table x = fma (fma (fma (c 3) dx (c 2)) dx (c 1)) dx (c 0)))

/-- 14 R236, R238, R242, R245 to R249. The matrix words enter the matrix queue in order, an MMA with the next command number and AWR with its source as the bundle issues; ARD and ASTAT read the tile and are visible eight and four bundles later: ARD converts A x 2^X once, saturating, or gives NaN, 0 as an integer, where NAN is set. -/
def Obligations.MatrixSlots : Prop := ∀ (s : State) (q m d a row ra rb : Nat) (t : ElemType) (rm : Rm) (sel : AccSel) (imm : BitVec 16),
  let p := s.cp s.c
  let tile : Tile := sget {} (s.core s.c).acc a
  let el (r i : Nat) : AccElem := sget {} tile.elems (64 * r + i)
  let enters (op : Instr) (num : Nat) (source : Vec) (mask : Mask) : State → Prop := CpDoes s (fun p => { p with
    mq := p.mq ++ [⟨op, num, p.issued, p.pc, source, mask, s.coreTime s.c, none⟩], lastNum := max num p.lastNum })
  Acts (.mma q d ra rb) s (enters (.mma q d ra rb) (p.lastNum + 1) 0 0)
  ∧ Acts (.aclrPeek q d) s (enters (.aclrPeek q d) 0 0 0)
  ∧ Acts (.aclrImm q d imm) s (enters (.aclrImm q d imm) 0 0 0)
  ∧ Acts (.anorm q d) s (enters (.anorm q d) 0 0 0)
  ∧ Acts (.awr q m sel d a row) s (enters (.awr q m sel d a row) 0 (s.vreg a) (s.mask m))
  ∧ Acts (.ard q m t rm d a row) s (GivesLanes s 8 t.width d (s.active m) (fun i =>
      let e := el row i
      if e.f.getLsbD 3 = true then (if t.isInt then 0 else (fmtOf t).elim 0 (fun f => f.nan))
      else writeVal t rm true (.fin (decide (e.mantissa < 0)) e.mantissa.natAbs e.x.toInt)))
  ∧ Acts (.astat q m sel d a row) s (GivesLanes s 4 64 d (s.active m) (fun j => match sel with
      | .m => (el row j).m.toNat | .g => ((el row j).g.toInt % 2 ^ 64).toNat | .x => ((el row j).x.toInt % 2 ^ 64).toNat | .f => (el row j).f.toNat))
  ∧ (∃ bits v : Vec, Acts (.astatDepth q d a) s (GivesCp s 4 (.vec (s.vphys d) bits v))
      ∧ (∀ i, bits.getLsbD i = decide (i < 32)) ∧ v.toNat % 65536 = tile.depth.toNat
      ∧ ((tile.elems.map (fun x => x.1)).Pairwise (· < ·) → (∀ x ∈ tile.elems, x.1 < 4096) → ∀ i, i < 16 → (v.getLsbD (16 + i) = true ↔ ∃ x, x < 4096 ∧ (sget {} tile.elems x).f.getLsbD i = true)))

/-- 14 R237, R240, R241, R243 to R248, 08 R127, R128, R130, R131, 24 R335, R337, 25 R350, R352. MATRIX_QUEUE_DEQUEUE starts the head entry two cycles later once its time has come and, for an MMA, both rings hold a tile and a format word has come, which it pops; it waits for what is missing; an MMA whose ring, word, tile size or operand bytes are bad faults, at once or, on a halted core, when the halt ends. MATRIX_ENTRY_RETIRE gives the first entry's tile its effect and no other tile any: an MMA adds its four K-blocks to the elements of the rows that are not padding, pops its rings unless its word keeps them, and its number counts; ACLR, ANORM and AWR write the elements as they say. The integers of an operand block, its scale and its exponent are those of its type's code. The model's choice: an illegal format word is an illegal instruction of detail 3 (log 53). -/
def Obligations.MatrixQueue : Prop := ∀ (s : State) (c : Nat) (h : MqEntry) (rest : List MqEntry) (r : MqRun) (runs : List MqRun) (err : ResidueErrors),
  let p := s.cp c
  let dq := Instr.matrixQueueDequeue c
  let now := s.coreTime c
  let may : Prop := coreLive s c = true ∧ p.halted = false ∧ ((s.core c).dbg.halt && (s.core c).dbg.qhold) = false ∧ p.mq = h :: rest
    ∧ h.entered + 1 ≤ now ∧ gapPassed s c .cp p.lastDequeue = true ∧ ∀ st occ, p.mqLast = some (st, occ) → st + occ ≤ now + 2
  let starts (occ : Nat) (word : BitVec 64) (pa pb : Nat) (t : State) : Prop := ∃ j, t.cp c = { p with
    mq := rest, lastDequeue := some now, paced := false, mqLast := some (now + 2, occ), mflight := p.mflight ++ [⟨h, now + 2, occ, word, pa, pb, j⟩] }
  let faults (f : FaultInfo) : Prop :=
    let u := s.modCp c (fun p => { p with halted := true })
    ((s.core c).dbg.halt = false → exec dq s = .next (takeStop u c 5 f.isw f.faddr h.num 0 h.pc))
    ∧ ((s.core c).dbg.halt = true → Ends dq s (fun t => t.cp c = { p with halted := true, fault := some ⟨f, h.num, h.pc, s.now⟩ }
        ∧ (t.core c).dbg = { (s.core c).dbg with pend := true } ∧ OnlyCore s t c ∧ SameMemory s t))
  let badRing (n : Nat) : FaultInfo := faultOf 0x08 3 (hallAddr c ((s.ring c n).basek.toNat * 1024))
  (may → (∃ q d i, h.op = .aclrImm q d i) → Ends dq s (starts 4 0 0 0))
  ∧ (may → (∃ q d, h.op = .anorm q d) → Ends dq s (starts 16 0 0 0))
  ∧ (may → (∃ q m sel d a row, h.op = .awr q m sel d a row) → Ends dq s (starts 2 0 0 0))
  ∧ (∀ w fq, may → (∃ q d, h.op = .aclrPeek q d) → (s.seqs c).fq = w :: fq → Ends dq s (fun t => starts 4 w 0 0 t ∧ (t.seqs c).fq = w :: fq))
  ∧ (may → (∃ q d, h.op = .aclrPeek q d) → (s.seqs c).fq = [] → exec dq s = .next s)
  ∧ (∀ q d ra rb, may → h.op = .mma q d ra rb →
      ((s.ring c ra).v = false → faults (badRing ra))
      ∧ ((s.ring c ra).v = true → (s.ring c rb).v = false → faults (badRing rb))
      ∧ ((s.ring c ra).v = true → (s.ring c rb).v = true → (s.seqs c).fq = [] → Ends dq s (fun t =>
          t.cp c = { p with mq := { h with readyAt := some (h.readyAt.getD now) } :: rest } ∧ OnlyCp s t c ∧ SameMemory s t))
      ∧ ((s.ring c ra).v = true → (s.ring c rb).v = true → ∀ w fq, (s.seqs c).fq = w :: fq →
          let ta := w.toNat / 2 ^ 44 % 16
          let tb := w.toNat / 2 ^ 40 % 16
          let sound : Prop := ta < 11 ∧ tb < 11 ∧ w.toNat % 2 ^ 38 = 0
          let first (n a : Nat) : Prop := Oldest (s.ring c n) (mqClaims p n) a
          let place (n a : Nat) : Nat := (s.ring c n).placeOff a
          (¬ sound → faults (faultOf 0x01 3 0))
          ∧ (sound → (s.ring c ra).tile < operandBytes ta → faults (badRing ra))
          ∧ (sound → operandBytes ta ≤ (s.ring c ra).tile → (s.ring c rb).tile < operandBytes tb → faults (badRing rb))
          ∧ (sound → operandBytes ta ≤ (s.ring c ra).tile → operandBytes tb ≤ (s.ring c rb).tile →
              (((∀ a, ¬ first ra a) ∨ ∀ b, ¬ first rb b) → exec dq s = .next s)
              ∧ ∀ a b, first ra a → first rb b →
                  let badA : Prop := ∃ i, i < 64 ∧ (padMask s c).getLsbD i = true ∧ (s.spadPoison c (place ra a + 16 * opBits ta * i) (16 * opBits ta) = true
                    ∨ (hasScale ta = true ∧ s.spadPoison c (place ra a + (elemBytes ta + 4 * i)) 4 = true))
                  let badB : Prop := s.spadPoison c (place rb b) (operandBytes tb) = true
                  (badA → faults (faultOf 0x08 8 (hallAddr c (place ra a)))) ∧ (¬ badA → badB → faults (faultOf 0x08 8 (hallAddr c (place rb b))))
                  ∧ (¬ badA → ¬ badB →
                      Ends dq s (fun t => (t.seqs c).fq = fq ∧ starts (4 * ((laneWidth ta + 1) / 2) * ((laneWidth tb + 1) / 2)) w a b t)))))
  ∧ ((p.mq = [] ∨ p.halted = true ∨ coreLive s c = false ∨ ((s.core c).dbg.halt = true ∧ (s.core c).dbg.qhold = true)
        ∨ (p.mq = h :: rest ∧ (now ≤ h.entered ∨ gapPassed s c .cp p.lastDequeue = false ∨ ∃ st occ, p.mqLast = some (st, occ) ∧ now + 2 < st + occ))) → exec dq s = .next s)
  ∧ (let n := mqTile r.entry.op
      let old : Tile := sget {} (s.core c).acc n
      let el (t : Tile) (x : Nat) : AccElem := sget {} t.elems x
      let at_ := r.start + r.occ + (if isMma r.entry.op then err.retries * (r.occ / 4) else 0)
      let fits : Prop := (isMma r.entry.op = true ∨ err.retries = 0) ∧ (err.poisoned = [] ∨ 0 < err.retries) ∧ ∀ m ms, runs = m :: ms → err.retries = 0 ∨ at_ ≤ m.start
      let ends (P : Tile → State → Prop) : Prop := Ends (.matrixEntryRetire c err) s (fun t => (t.cp c).mflight = runs
        ∧ P (sget {} (t.core c).acc n) t ∧ ∀ m, m ≠ n → sget {} (t.core c).acc m = sget {} (s.core c).acc m)
      ((p.mflight = [] ∨ (p.mflight = r :: runs ∧ (now < at_ ∨ ¬ fits)) ∨ (s.core c).gate ≠ .on ∨ clocked s c = false) → exec (.matrixEntryRetire c err) s = .next s)
      ∧ ((s.core c).gate = .on → clocked s c = true → p.mflight = r :: runs → at_ ≤ now → fits → (old.elems.map (fun x => x.1)).Pairwise (· < ·) →
        (∀ q ra rb, r.entry.op = .mma q n ra rb →
          let w := r.word.toNat
          let tile (n place : Nat) : Nat := bytesNat (s.spadRead c ((s.ring c n).placeOff place) (s.ring c n).tile)
          let row (i b : Nat) := operandBlock (w / 2 ^ 44 % 16) (tile ra r.placeA) i b
          let col (j b : Nat) := operandBlock (w / 2 ^ 40 % 16) (tile rb r.placeB) j b
          let sum (i j : Nat) : AccElem := blockAdded (blockAdded (blockAdded (blockAdded (el old (64 * i + j)) (row i 0) (col j 0)) (row i 1) (col j 1)) (row i 2) (col j 2)) (row i 3) (col j 3)
          ends (fun new t => new.depth.toNat = min 65535 (old.depth.toNat + 4)
            ∧ (∀ i j, i < 64 → j < 64 → el new (64 * i + j) =
                if (padMask s c).getLsbD i = false then el old (64 * i + j)
                else if 64 * i + j ∈ err.poisoned then { sum i j with f := (sum i j).f ||| 16 } else sum i j)
            ∧ (∀ g, let q := if g = ra ∧ r.word.getLsbD 39 = false then (s.ring c g).pop r.placeA else s.ring c g
                t.ring c g = if g = rb ∧ r.word.getLsbD 38 = false then q.pop r.placeB else q)
            ∧ p.cn ≤ (t.cp c).cn ∧ (r.entry.num = p.cn + 1 → r.entry.num ≤ (t.cp c).cn)
            ∧ (t.die (dieOf c)).resid.toNat = min 65535 ((s.die (dieOf c)).resid.toNat + err.retries)))
        ∧ (∀ q, r.entry.op = .aclrPeek q n → ends (fun new _ => new.depth = 0 ∧ ∀ x, x < 4096 → el new x = ⟨0, 0, r.word.extractLsb' 48 16, 0⟩))
        ∧ (∀ q i, r.entry.op = .aclrImm q n i → ends (fun new _ => new.depth = 0 ∧ ∀ x, x < 4096 → el new x = ⟨0, 0, i, 0⟩))
        ∧ (∀ q, r.entry.op = .anorm q n → ends (fun new _ => new.depth = 0 ∧ ∀ x, x < 4096 → Normalised (el old x) (el new x)))
        ∧ (∀ q m sel a row, r.entry.op = .awr q m sel n a row → ends (fun new _ => new.depth = old.depth ∧ ∀ i j, i < 64 → j < 64 → el new (64 * i + j) =
            (let e := el old (64 * i + j)
             let w : BitVec 64 := r.entry.source.extractLsb' (64 * j) 64
             if i = row ∧ r.entry.mask.getLsbD j = true then (match sel with
               | .m => { e with m := w.extractLsb' 0 48 }
               | .g => { e with g := w.extractLsb' 0 16 }
               | .x => { e with x := w.extractLsb' 0 16 }
               | .f => { e with f := (e.f &&& 0xFFF0) ||| (w.extractLsb' 0 4).setWidth 16 })
             else e)))))
  ∧ (∀ code tile i b, code < 11 →
      let m : Nat := [4, 4, 8, 8, 4, 6, 8, 4, 8, 8, 16].getD code 0
      let x (k : Nat) : Nat := tile / 2 ^ (m * (128 * i + 32 * b + k)) % 2 ^ m
      let S : Nat := tile / 2 ^ (8 * (1024 * m + 4 * i + b)) % 256
      let v := operandBlock code tile i b
      let q (k : Nat) : Int := v.2.2.getD k 0
      v.2.2.length = 32
      ∧ (code ≤ 3 → v.1 = 0 ∧ v.2.1 = 0 ∧ ∀ k, k < 32 → q k = if code % 2 = 1 then (x k : Int) else (BitVec.ofNat m (x k)).toInt)
      ∧ (4 ≤ code → code ≤ 7 → v.1 = S ∧ v.2.1 = (S : Int) - [129, 131, 133, 128].getD (code - 4) 0
          ∧ ∀ k, k < 32 → q k = if code = 7 then (if 8 ≤ x k then -1 else 1) * ([0, 1, 2, 3, 4, 6, 8, 12].getD (x k % 8) 0 : Int) else (BitVec.ofNat m (x k)).toInt)
      ∧ (8 ≤ code → v.2.1 = (v.1 : Int) - 133
          ∧ Feeds (if code = 8 then ⟨4, 3, 7, 0x7E, false, 0x7F, true⟩ else if code = 9 then ⟨5, 2, 15, 0x7B, true, 0x7E, true⟩ else ⟨8, 7, 127, 0x7F7F, true, 0x7FC0, false⟩) x v.1 q))

/-- 14 R250 to R252, R254, R255, 08 R136. The hypervector words of class 13 give their 8192 positions or counters their values; HST writes 1024 bytes of the area. -/
def Obligations.HyperSlots : Prop := ∀ (s : State) (q d a b k n : Nat) (x : BitVec 9),
  let cls := latOf s s.c 13
  let at_ : Nat := areaOf s s.c + (s.areaOff k x 1024).toNat
  let ha := s.hreg a
  let ht := (s.cp s.c).ht
  let turned (v h : Hyper) (n : Nat) : Prop := ∀ i, i < 8192 → v.getLsbD ((i + n) % 8192) = h.getLsbD i
  Acts (.hld q d k x) s (GivesCp s cls (.h d (BitVec.ofNat 8192 (bytesNat (s.spadRead s.c at_ 1024)))))
  ∧ ((s.core s.c).spad.wf = true → Acts (.hst q b k x) s (fun u => Stored s u (.slice s.c at_) (natBytes 1024 (s.hreg b).toNat) ∧ OnlyCore s u s.c ∧ u.arch s.c = s.arch s.c))
  ∧ Acts (.hbind q d a b) s (GivesCp s cls (.h d (ha ^^^ s.hreg b)))
  ∧ (∃ v, Acts (.hpermImm q d a n) s (GivesCp s cls (.h d v)) ∧ turned v ha n)
  ∧ (∃ v, Acts (.hpermK q d a k) s (GivesCp s cls (.h d v)) ∧ turned v ha ((s.kreg k).toNat % 8192))
  ∧ (∃ v, Acts (.hbun q d a) s (GivesCp s cls (.bank d v)) ∧ ∀ i, i < 8192 → counterOf v i = max (-127) (min 127 (counterOf (s.bank d) i + if ha.getLsbD i then 1 else -1)))
  ∧ Acts (.hclrb q d) s (GivesCp s cls (.bank d 0))
  ∧ (∃ v w, Acts (.hthr q d a) s (fun t => OnlyCp s t s.c ∧ t.cp s.c = { s.cp s.c with pend := (t.cp s.c).pend, ready := (t.cp s.c).ready } ∧ SameMemory s t
        ∧ ∀ x, x ∈ (t.cp s.c).pend ↔ x ∈ (s.cp s.c).pend ∨ x = InFlight.mk ((s.cp s.c).issued + cls) (.h d v) false ∨ x = InFlight.mk ((s.cp s.c).issued + cls) (.ht w) false)
      ∧ turned w ht 1 ∧ ∀ i, i < 8192 → v.getLsbD i = (decide (0 < counterOf (s.bank a) i) || (decide (counterOf (s.bank a) i = 0) && ht.getLsbD i)))
  ∧ (∃ (v : Hyper) (z : Nat → Word), Acts (.hseed q d k) s (GivesCp s cls (.h d v))
      ∧ z 0 = (if s.kreg k = 0 then 0x9E3779B97F4A7C15 else s.kreg k)
      ∧ ∀ w, w < 128 →
          let y := z w ^^^ (z w <<< 13)
          let y := y ^^^ (y >>> 7)
          z (w + 1) = y ^^^ (y <<< 17) ∧ v.extractLsb' (64 * w) 64 = z (w + 1) ^^^ (BitVec.ofNat 64 w * 0xD1B54A32D192ED03))
  ∧ Acts (.hmov q d a) s (GivesCp s cls (.h d ha))
  ∧ Acts (.hmovToHt q a) s (GivesCp s cls (.ht ha))
  ∧ Acts (.hmovFromHt q d) s (GivesCp s cls (.h d ht))
  ∧ Acts (.hcfg q a b) s (GivesCp s cls (.hcfg (s.kreg a) (s.kreg b)))

/-- 14 R253, R254, R258. HDIST and HPOP count bits, HNEAR names the nearest entry of the recall store, the lowest of those equally near, and its distance, HHASH folds the hypervector in chunks, and MLDG loads a mask of 1024 bits in 32 bytes' 256 low bits. -/
def Obligations.HyperRecall : Prop := ∀ (s : State) (q d a b k n : Nat) (x : BitVec 9),
  let cls := latOf s s.c 14
  let p := s.cp s.c
  let ha := s.hreg a
  let ones (h : Hyper) : Nat := (List.range 8192).countP (fun i => h.getLsbD i)
  let entry (e : Nat) : Hyper := BitVec.ofNat 8192 (bytesNat (s.spadRead s.c (areaOf s s.c + (p.hrb.toNat + 1024 * e)) 1024))
  let dist (e : Nat) : Nat := ones (ha ^^^ entry e)
  Acts (.hdist q d a b) s (GivesCp s cls (.k d (BitVec.ofNat 64 (ones (ha ^^^ s.hreg b)))))
  ∧ Acts (.hpop q d a) s (GivesCp s cls (.k d (BitVec.ofNat 64 (ones ha))))
  ∧ (p.hrn = 0 → Acts (.hnear q d a) s (GivesCp s cls (.k d (-1))))
  ∧ (p.hrn ≠ 0 → ∃ best, best < p.hrn.toNat ∧ (∀ e, e < best → dist best < dist e) ∧ (∀ e, e < p.hrn.toNat → dist best ≤ dist e)
      ∧ Acts (.hnear q d a) s (GivesCp s cls (.k d (BitVec.ofNat 64 (best * 2 ^ 32 + dist best)))))
  ∧ (0 < n → ∃ v : Nat, Acts (.hhash q d a n) s (GivesCp s cls (.k d (BitVec.ofNat 64 v)))
      ∧ ∀ j, j < n → v.testBit j = ((List.range 8192).filter (fun i => i % n == j && ha.getLsbD i)).length.testBit 0)
  ∧ Acts (.mldg q d k x) s (GivesCp s (latOf s s.c 15) (.m d (BitVec.ofNat 1024 (bytesNat (s.spadRead s.c (areaOf s s.c + (s.areaOff k x 32).toNat) 32)))))

/-- 03 R41 to R43, 14 R257. PFEED feeds each active OPEN slot its surprise: the position limit ends it, a first byte starts a patch, the limit PM closes it before the surprise PT does, and any other byte joins; then the mask of the slots that are OPEN is on its way. Every close, in ascending slot order, queues a trap with its map entry and writes the entry's 16 bytes at PMBASE + 16 x (PMCNT mod 256), of the slot as it was; PMCNT counts it. -/
def Obligations.PatchFeed : Prop := ∀ (s : State) (q m d a : Nat),
  let v (l : Nat) : FVal := decodeF fmtF16 (lane 16 (s.vreg a) l)
  let closed (p : PatchSlot) (cause : BitVec 2) : PatchSlot := { p with
    pp := p.pp + 1, ps := p.pb, pl := 1, pb := p.pb + 1, lcause := cause, state := if p.gen then 2 else p.state }
  let fed (l : Nat) (p : PatchSlot) : PatchSlot :=
    if p.pb = 0xFFFFFFFF then { p with state := 3, endc := 5 }
    else if p.pl = 0 then { p with ps := p.pb, pl := 1, pb := p.pb + 1 }
    else if p.pm.toNat ≤ p.pl.toNat then closed p 1
    else if v l = .inf false ∨ ((v l).isNan = false ∧ (decodeF fmtF16 p.pt.toNat).lt (v l) = true) then closed p 0
    else { p with pl := p.pl + 1, pb := p.pb + 1 }
  let closes : List (Nat × Nat) := (List.range 64).filterMap (fun l => let p := s.slot s.c l
    if s.active m l = true ∧ p.state = 1 ∧ p.pb ≠ 0xFFFFFFFF ∧ p.pl ≠ 0 then
      (if p.pm.toNat ≤ p.pl.toNat then some (l, 1)
       else if v l = .inf false ∨ ((v l).isNan = false ∧ (decodeF fmtF16 p.pt.toNat).lt (v l) = true) then some (l, 0) else none)
    else none)
  let close (j : Nat) : Nat × Nat := closes.getD j (0, 0)
  let off (j : Nat) : Nat := (s.arch s.c).csrs.pmbase.toNat + 16 * (((s.arch s.c).csrs.pmcnt.toNat + j) % 256)
  let entry (j : Nat) : BitVec 128 := let p := s.slot s.c (close j).1
    BitVec.ofNat 128 (s.c * 2 ^ 110 + (close j).1 * 2 ^ 104 + (close j).2 * 2 ^ 102 + p.pl.toNat * 2 ^ 88 + p.ps.toNat * 2 ^ 32 + p.pp.toNat)
  let after (l : Nat) : PatchSlot := if s.active m l = true ∧ (s.slot s.c l).state = 1 then fed l (s.slot s.c l) else s.slot s.c l
  Acts (.pfeed q m d a) s (fun t => ∃ mask : Mask,
    (∀ l, l < 64 → t.slot s.c l = after l)
    ∧ (∀ i, mask.getLsbD i = (decide (i < 64) && decide ((after i).state = 1)))
    ∧ (∀ x, x ∈ (t.cp s.c).pend ↔ x ∈ (s.cp s.c).pend ∨ x = InFlight.mk ((s.cp s.c).issued + latOf s s.c 15) (.m d mask) false)
    ∧ (t.arch s.c).btraps = (s.arch s.c).btraps ++ (List.range closes.length).map (fun j => ⟨(close j).1, (close j).2, entry j, hallAddr s.c (off j), s.now⟩)
    ∧ (t.arch s.c).csrs.pmcnt = (s.arch s.c).csrs.pmcnt + BitVec.ofNat 32 closes.length
    ∧ ((s.core s.c).spad.wf = true →
        (∀ j i, j < closes.length → i < 16 → memByte (t.core s.c).spad (off j + i) = (natBytes 16 (entry j).toNat).getD i 0)
        ∧ ∀ x, (∀ j, j < closes.length → x < off j ∨ off j + 16 ≤ x) → memByte (t.core s.c).spad x = memByte (s.core s.c).spad x)
    ∧ KeepsRest s t s.c)

/-- 11 R171, 15 R259, R260, R262. The stack words of LD and ST leave the stack that their rule gives and go on at the next word; with too few entries they take a parameter fault of detail 2, and a push onto eight entries one of detail 1. -/
def Obligations.EngineStackWords : Prop := ∀ (s : State) (n : Nat) (v : BitVec 15) (u : BitVec 14) (a b : Word) (r : List Word),
  let st := s.g.stack
  (st.length < 8 → Ends (.lit v) s (Leaves s (BitVec.ofInt 64 v.toInt :: st)) ∧ Ends (.eget n) s (Leaves s (sget 0 s.g.e n :: st)))
  ∧ (8 ≤ st.length → WordFaults (.lit v) s (faultOf 0x04 1 0) ∧ WordFaults (.eget n) s (faultOf 0x04 1 0))
  ∧ (st = a :: r → st.length ≤ 8 →
      Ends (.ext u) s (Leaves s (BitVec.ofNat 64 (a.toNat * 2 ^ 14 + u.toNat) :: r))
      ∧ Ends .drop s (Leaves s r)
      ∧ Ends (.eset n) s (EngDoes s (fun g => { g with stack := r, e := sset g.e n a, pc := s.g.pc + 1, wait := .none }))
      ∧ (st.length < 8 → Ends .dup s (Leaves s (a :: a :: r))) ∧ (st.length = 8 → WordFaults .dup s (faultOf 0x04 1 0)))
  ∧ (st = b :: a :: r → st.length ≤ 8 →
      Ends .swap s (Leaves s (a :: b :: r))
      ∧ Ends .engAdd s (Leaves s (BitVec.ofNat 64 (a.toNat + b.toNat) :: r))
      ∧ Ends .engSub s (Leaves s (BitVec.ofInt 64 (a.toInt - b.toInt) :: r))
      ∧ Ends .engShl s (Leaves s (BitVec.ofNat 64 (a.toNat * 2 ^ (b.toNat % 64)) :: r))
      ∧ Ends .engAnd s (Leaves s ((a &&& b) :: r))
      ∧ (st.length < 8 → Ends .over s (Leaves s (a :: b :: a :: r))) ∧ (st.length = 8 → WordFaults .over s (faultOf 0x04 1 0)))
  ∧ (st = [] → ∀ i ∈ [.ext u, .dup, .drop, .eset n, .jmp, .engLoop n], WordFaults i s (faultOf 0x04 2 0))
  ∧ (st.length < 2 → ∀ i ∈ [.swap, .over, .engAdd, .engSub, .engShl, .engAnd, .bz], WordFaults i s (faultOf 0x04 2 0))

/-- 15 R263 to R265. JMP and BZ go to a word address below 8192 or fault; LOOP sets its counter and start, or skips to its LEND with a count of 0; LEND counts down and goes back while the count is not 0; END ends the stream. -/
def Obligations.EngineControlWords : Prop := ∀ (s : State) (l : Nat) (a b : Word) (r : List Word),
  let st := s.g.stack
  let next := s.g.pc + 1
  (st = a :: r → a.toNat < 8192 → Ends .jmp s (GoesOn s r a.toNat))
  ∧ (st = a :: r → 8192 ≤ a.toNat → WordFaults .jmp s (faultOf 0x04 5 0))
  ∧ (st = a :: b :: r → a.toNat < 8192 → Ends .bz s (GoesOn s r (if b = 0 then a.toNat else next)))
  ∧ (st = a :: b :: r → 8192 ≤ a.toNat → WordFaults .bz s (faultOf 0x04 5 0))
  ∧ (st = a :: r → 2 ^ 32 ≤ a.toNat → WordFaults (.engLoop l) s (faultOf 0x04 3 0))
  ∧ (st = 0 :: r → Ends (.engLoop l) s (EngDoes s (fun g => { g with stack := r, skip := some l, pc := next, wait := .none })))
  ∧ (st = a :: r → a ≠ 0 → a.toNat < 2 ^ 32 →
      (l = 0 → Ends (.engLoop l) s (EngDoes s (fun g => { g with stack := r, lc0 := BitVec.ofNat 32 a.toNat, ls0 := BitVec.ofNat 13 next, pc := next, wait := .none })))
      ∧ (l ≠ 0 → Ends (.engLoop l) s (EngDoes s (fun g => { g with stack := r, lc1 := BitVec.ofNat 32 a.toNat, ls1 := BitVec.ofNat 13 next, pc := next, wait := .none }))))
  ∧ (l = 0 → s.g.lc0 = 0 → WordFaults (.lend l) s (faultOf 0x04 4 0))
  ∧ (l = 0 → s.g.lc0 ≠ 0 → Ends (.lend l) s (EngDoes s (fun g => { g with lc0 := g.lc0 - 1, pc := if g.lc0 = 1 then next else g.ls0.toNat, wait := .none })))
  ∧ (l ≠ 0 → s.g.lc1 = 0 → WordFaults (.lend l) s (faultOf 0x04 4 0))
  ∧ (l ≠ 0 → s.g.lc1 ≠ 0 → Ends (.lend l) s (EngDoes s (fun g => { g with lc1 := g.lc1 - 1, pc := if g.lc1 = 1 then next else g.ls1.toNat, wait := .none })))
  ∧ Ends .engEnd s (EngDoes s (fun g => { g with status := .ended, stack := [], wait := .none }))

/-- 15 R266, R269, R271 to R278, 27 R361. A data command whose arguments are within their limits and aligned takes them from the stack and joins the queue under the next number, or waits while the queue is full; a reserved bit of its control word faults with detail 7, then a limit that its arguments pass with detail 3, then an address that is not aligned as an alignment fault; with too few arguments detail 2. The model's choices: SEND to 2^31 or more and PREF from below 2^31 have detail 3 (log 37), RSSIZE 0 asks no alignment (log 71), and the rows of GATH and SCAT have to fit the tile of a ring that is set then (log 78). -/
def Obligations.EngineEnqueues : Prop := ∀ (s : State) (t : Tok) (pad keep fadd atom dec inc cpy : Bool) (a b c d : Word) (r : List Word),
  let st := s.g.stack
  let code (w : Word) : Nat := w.toNat / 2 ^ 8 % 16
  let unit (w : Word) : Nat := 2 ^ code w
  let within (w mask : Word) : Prop := w &&& ~~~mask = 0
  let walk (mask : Word) : Prop := within b mask ∧ code b ≤ 12 ∧ a.toNat % unit b = 0
  let rows := c.toNat / 2 ^ 16 % 8192
  let ring := s.ring s.c (c.toNat % 16)
  let listOk : Prop := code c ≤ 12 ∧ 0 < rows ∧ rows ≤ 4096 ∧ (ring.v = true → rows * unit c ≤ ring.tile)
  let index : Prop := within c 0x1FFF0F0F ∧ listOk ∧ a.toNat % unit c = 0 ∧ b.toNat % 4 = 0
  let off (w : Word) (n : Nat) : FaultInfo := faultOf 0x06 (Nat.log2 n) w.toNat
  let bytes (w : Word) : Prop := 0 < w.toNat ∧ w.toNat ≤ 2 ^ 32
  (st = b :: a :: r → walk 0xFFF → Enqueues (.tile t pad) s [a, b] r ∧ Enqueues (.drain t keep pad) s [a, b] r)
  ∧ (st = b :: a :: r → walk 0xFF7FFF → 0 < b.toNat / 2 ^ 16 % 256 → Enqueues (.mcast t) s [a, b] r)
  ∧ (∀ ty, st = c :: b :: a :: r → within c 0x7F3F3F3F → ElemType.ofCode (code c) = some ty → 0 < c.toNat / 2 ^ 24 % 128 →
      c.toNat / 2 ^ 16 % 64 + c.toNat / 2 ^ 24 % 128 ≤ 64 → b.toNat % (8 * ty.width) = 0 → a.toNat % max 1 (ty.width / 8) = 0 → Enqueues (.accst t pad) s [a, b, c] r)
  ∧ (st = c :: b :: a :: r → index → Enqueues (.gath t pad) s [a, b, c] r
      ∧ ((fadd = true → atom = true) → (atom = true → 4 ≤ unit c) → Enqueues (.scat t fadd atom keep pad) s [a, b, c] r))
  ∧ (st = c :: b :: a :: r → bytes c → Enqueues (.copy t) s [a, b, c] r)
  ∧ (st = c :: b :: a :: r → bytes b → Enqueues (.fill t) s [a, b, c] r)
  ∧ (st = d :: c :: b :: a :: r → within d 0xFFFF → a.toNat % 32 = 0 → b.toNat % 32 = 0 → Enqueues (.kvcp t dec inc cpy) s [a, b, c, d] r)
  ∧ (st = c :: b :: a :: r → within c 0x3FFFFFFFFFFFFF → 8 ≤ c.toNat % 65536 → c.toNat % 65536 ≤ 4096 → c.toNat % 8 = 0 →
      (c.toNat / 2 ^ 32 % 65536 = 0xFFFF ∨ c.toNat / 2 ^ 32 % 65536 % 4 = 0) → b.toNat < 2 ^ 31 → a.toNat % 8 = 0 → b.toNat % 8 = 0 → Enqueues (.send t pad) s [a, b, c] r)
  ∧ (st = b :: a :: r → b.toNat < 64 → 2 ^ 31 ≤ a.toNat → a.toNat % max 1 (s.arch s.c).csrs.rssize.toNat = 0 → Enqueues (.pref t) s [a, b] r)
  ∧ (st = a :: r → a.toNat < 64 → Enqueues (.evict t) s [a] r)
  ∧ (st = b :: a :: r → ¬ within b 0xFFF → WordFaults (.tile t pad) s (faultOf 0x04 7 0) ∧ WordFaults (.drain t keep pad) s (faultOf 0x04 7 0))
  ∧ (st = b :: a :: r → within b 0xFFF → 12 < code b → WordFaults (.tile t pad) s (faultOf 0x04 3 0) ∧ WordFaults (.drain t keep pad) s (faultOf 0x04 3 0))
  ∧ (st = b :: a :: r → within b 0xFFF → code b ≤ 12 → a.toNat % unit b ≠ 0 → WordFaults (.tile t pad) s (off a (unit b)) ∧ WordFaults (.drain t keep pad) s (off a (unit b)))
  ∧ (st = c :: b :: a :: r → ¬ within c 0x1FFF0F0F → WordFaults (.gath t pad) s (faultOf 0x04 7 0) ∧ WordFaults (.scat t fadd atom keep pad) s (faultOf 0x04 7 0))
  ∧ (st = c :: b :: a :: r → within c 0x1FFF0F0F → ¬ listOk → WordFaults (.gath t pad) s (faultOf 0x04 3 0) ∧ WordFaults (.scat t fadd atom keep pad) s (faultOf 0x04 3 0))
  ∧ (st = c :: b :: a :: r → within c 0x1FFF0F0F → listOk → a.toNat % unit c ≠ 0 → WordFaults (.gath t pad) s (off a (unit c)))
  ∧ (st = c :: b :: a :: r → within c 0x1FFF0F0F → listOk → a.toNat % unit c = 0 → b.toNat % 4 ≠ 0 → WordFaults (.gath t pad) s (off b 4))
  ∧ (st = c :: b :: a :: r → (¬ bytes c → WordFaults (.copy t) s (faultOf 0x04 3 0)) ∧ (¬ bytes b → WordFaults (.fill t) s (faultOf 0x04 3 0)))
  ∧ (st = c :: b :: a :: r → within c 0x3FFFFFFFFFFFFF → (c.toNat % 65536 < 8 ∨ 4096 < c.toNat % 65536 ∨ c.toNat % 8 ≠ 0 ∨ 2 ^ 31 ≤ b.toNat) → WordFaults (.send t pad) s (faultOf 0x04 3 0))
  ∧ (st = b :: a :: r → (64 ≤ b.toNat ∨ a.toNat < 2 ^ 31) → WordFaults (.pref t) s (faultOf 0x04 3 0))
  ∧ (st = a :: r → 64 ≤ a.toNat → WordFaults (.evict t) s (faultOf 0x04 3 0))
  ∧ (st.length < 2 → ∀ i ∈ [.tile t pad, .drain t keep pad, .mcast t, .pref t, .accst t pad, .gath t pad, .scat t fadd atom keep pad, .copy t, .fill t, .kvcp t dec inc cpy, .send t pad], WordFaults i s (faultOf 0x04 2 0))

/-- 15 R279, 04 R70. WAITN waits until the engine it names has reached its number or has ended, then until its queues hold the tokens it takes, and takes and pushes them all at once; a number beyond its own engine's last is a parameter fault of detail 6. -/
def Obligations.EngineWaits : Prop := ∀ (s : State) (e : Eng) (t : Tok) (n : Word) (r : List Word), s.g.stack = n :: r →
  let reached : Prop := n.toNat ≤ cnOf s s.c e ∨ engRunning s s.c e = false
  let known : Prop := e ≠ s.e ∨ n.toNat ≤ s.g.lastNum
  (e = s.e → s.g.lastNum < n.toNat → WordFaults (.waitn t e) s (faultOf 0x04 6 0))
  ∧ (known → ¬ reached → Ends (.waitn t e) s (EngDoes s (fun g => { g with wait := .number })))
  ∧ (known → reached → t.pu = true → (s.tok s.c (puQueue s.e)).count = 0 → Ends (.waitn t e) s (EngDoes s (fun g => { g with wait := .token (puQueue s.e) })))
  ∧ (known → reached → t.pu = false → t.pd = true → (s.tok s.c (pdQueue s.e)).count = 0 → Ends (.waitn t e) s (EngDoes s (fun g => { g with wait := .token (pdQueue s.e) })))
  ∧ (known → reached → t = ⟨false, false, false, false⟩ → Ends (.waitn t e) s (Leaves s r))
  ∧ (known → reached → t.pu = true → t.pd = false → t.su = false → t.sd = false → (s.tok s.c (puQueue s.e)).count ≠ 0 → Ends (.waitn t e) s
      (fun u => Leaves (s.modTok s.c (puQueue s.e) (fun q => { q with count := q.count - 1 })) r u))
  ∧ (known → reached → t.pu = false → t.pd = false → t.su = true → t.sd = false → s.g.pushes = [] → (s.tok s.c (suQueue s.e)).count < (s.tok s.c (suQueue s.e)).cap →
      Ends (.waitn t e) s (fun u => Leaves (s.modTok s.c (suQueue s.e) (fun q => { q with count := q.count + 1 })) r u))
  ∧ (known → reached → tokenLack s s.c s.e t = none → Ends (.waitn t e) s (fun u =>
      u = pushTokens ((takeTokens s s.c s.e t).modG (fun g => { g with stack := r, pc := (takeTokens s s.c s.e t).g.pc + 1, wait := .none })) s.c s.e 0 t.su t.sd))

/-- 15 R266, R268, R270 to R276, 05 R90, R91, 04 R70, R71, R73, 06 R107. The life of a data command: it leaves its queue once the pace, room for four in flight and its tokens allow, and takes its tokens; it starts behind those before it: TILE, DRAIN and MCAST wait for GO and capture the live table, a push takes the next place of its ring in its order of arrival, a pop the oldest tile that no earlier command claims, and a bad table, ring or size faults, and leaves every ring's line; in a stop, a KILL or a cut only those commands go on that have to finish; once every access is done it finishes, pops its tile unless it keeps it, pushes its tokens and its number counts; an increment that waits for room holds up those of what finished later, and then acts. Where a step may not happen nothing changes. The model's choice: a ring that is too small for GATH or SCAT at the start is a memory fault of detail 3 (log 78). -/
def Obligations.CommandLives : Prop := ∀ (s : State) (c : Nat) (e : Eng) (k : Cmd) (rest : List Cmd), e ≠ .cp →
  let g := s.eng c e
  let dq := Instr.engineCommandDequeue c e
  let st := Instr.engineCommandStart c e
  let live : Prop := coreLive s c = true
  let may : Prop := live ∧ ((s.core c).dbg.halt && (s.core c).dbg.qhold) = false ∧ g.halted = false ∧ g.flight.length < 4 ∧ g.pushes = []
    ∧ (∀ tok a, k.op = .send tok a → g.replays.length < 32) ∧ gapPassed s c e g.lastDequeue = true
    ∧ ((tokOf k.op).pu = true → 0 < (s.tok c (puQueue e)).count) ∧ ((tokOf k.op).pd = true → 0 < (s.tok c (pdQueue e)).count)
  (g.queue = [] → exec dq s = .next s)
  ∧ (g.queue = k :: rest → ¬ may → exec dq s = .next s)
  ∧ (g.queue = k :: rest → may → Ends dq s (fun t => ∃ j, (t.eng c e).queue = rest
      ∧ (t.eng c e).flight = g.flight ++ [{ k with dequeuedAt := s.coreTime c, jidx := j }] ∧ (t.eng c e).lastDequeue = some (s.coreTime c)
      ∧ (∀ q, (t.tok c q).count + (if (tokOf k.op).pu = true ∧ q = puQueue e then 1 else 0) + (if (tokOf k.op).pd = true ∧ q = pdQueue e then 1 else 0) = (s.tok c q).count)
      ∧ KeepsRest s t c))
  ∧ (nextStart s c e = none → exec st s = .next s)
  ∧ (cmdGoes s c e k = true ↔ (s.core c).gate = .on ∧ (s.core c).stop = none ∧ clocked s c = true
      ∧ (((s.core c).stopping ≠ none ∨ (s.core c).killing = true) → k.accessed = true)
      ∧ ((s.core c).stopping = none → (s.core c).killing = false → ((s.core c).cutting = true ∨ (s.core c).leaving = true) → replayWaits s c e k = false))
  ∧ (∀ n o m, (leaveQueue s c n).ring o m = if clusterOf o = clusterOf c then { s.ring o m with arrived := (s.ring o m).arrived.erase (c, n) } else s.ring o m)
  ∧ (nextStart s c e = some k → (cmdGoes s c e k = false ∨ s.coreTime c ≤ k.dequeuedAt ∨ ∃ j ∈ g.flight, j.faulted.isSome = true) → exec st s = .next s)
  ∧ (nextStart s c e = some k → cmdGoes s c e k = true → k.dequeuedAt < s.coreTime c → (∀ j ∈ g.flight, j.faulted = none) →
      let n := k.ringNo
      let r := s.ring c n
      let who := (c, k.num)
      let faults (f : FaultInfo) : Prop := exec st s = .next (cmdTrap (leaveQueue s c k.num) c e k f)
      let badRing := faults (faultOf 0x08 3 (hallAddr c (r.basek.toNat * 1024)))
      let pushes (k : Cmd) : Prop :=
        (PlaceFree who r → Ends st s (StartsAs (s.modRing c n (takesPlace who)) c e { k with place := r.res }))
        ∧ (¬ PlaceFree who r → exec st s = .next (s.modRing c n (arrives who)))
      let pops (k : Cmd) : Prop :=
        (∀ a, Oldest r (ringClaims g k.num n) a → Ends st s (StartsAs s c e { k with place := a }))
        ∧ ((∀ a, ¬ Oldest r (ringClaims g k.num n) a) → exec st s = .next s)
      let walks (P : Nat → Cmd → Prop) : Prop :=
        let l := sget {} (s.seqs c).lnts (k.arg 1 / 16 % 16)
        let gran := granule (k.arg 1)
        let bad : Prop := ∃ j, j < 6 ∧ (lntCount l.live j = 0 ∨ lntStride l.live j % (gran : Int) ≠ 0)
        let bytes := gran * (lntCount l.live 0 * lntCount l.live 1 * lntCount l.live 2 * lntCount l.live 3 * lntCount l.live 4 * lntCount l.live 5)
        (l.go = false → exec st s = .next s)
        ∧ (l.go = true → bad → faults (faultOf 0x04 3 0))
        ∧ (l.go = true → ¬ bad → P bytes { k with lnt := l.live })
      (∀ tok p, k.op = .tile tok p → walks (fun bytes k => (r.v = false → badRing) ∧ (r.v = true → r.tile < bytes → faults (faultOf 0x04 3 0)) ∧ (r.v = true → bytes ≤ r.tile → pushes k)))
      ∧ (∀ tok keep p, k.op = .drain tok keep p → walks (fun bytes k => (r.v = false → badRing) ∧ (r.v = true → r.tile < bytes → faults (faultOf 0x04 3 0)) ∧ (r.v = true → bytes ≤ r.tile → pops k)))
      ∧ (∀ tok, k.op = .mcast tok → walks (fun bytes k =>
          let cs := mcastCores c k
          let unfit (t : Nat) : Prop := (s.ring t n).v = false ∨ (s.ring t n).tile < bytes
          (∀ i t, cs[i]? = some t → unfit t → (∀ x ∈ cs.take i, ¬ unfit x) → faults (faultOf 0x08 4 (hallAddr t 0)))
          ∧ ((∀ t ∈ cs, ¬ unfit t) →
              ((∃ t ∈ cs, sliceUp s t = false) → exec st s = .next s)
              ∧ ((∀ t ∈ cs, sliceUp s t = true) → (∃ t ∈ cs, ¬ PlaceFree who (s.ring t n)) → exec st s = .next (cs.foldl (fun s t => s.modRing t n (arrives who)) s))
              ∧ ((∀ t ∈ cs, sliceUp s t = true) → (∀ t ∈ cs, PlaceFree who (s.ring t n)) →
                  Ends st s (StartsAs (cs.foldl (fun s t => s.modRing t n (takesPlace who)) s) c e { k with targets := cs.map (fun t => (t, (s.ring t n).res)) })))))
      ∧ (let list := k.arg 2 / 2 ^ 16 % 8192 * granule (k.arg 2);
          (∀ tok pad, k.op = .gath tok pad → ((r.v = false ∨ r.tile < list) → badRing) ∧ (r.v = true → list ≤ r.tile → pushes k))
          ∧ (∀ tok fadd atom keep pad, k.op = .scat tok fadd atom keep pad → ((r.v = false ∨ r.tile < list) → badRing) ∧ (r.v = true → list ≤ r.tile → pops k)))
      ∧ (∀ tok dec inc last, k.op = .kvcp tok dec inc last →
          (k.remote = true → livePorts s (k.arg 3) = [] → faults (faultOf 0x08 7 (k.arg 1)))
          ∧ ((k.remote = false ∨ livePorts s (k.arg 3) ≠ []) → Ends st s (StartsAs s c e k)))
      ∧ (∀ tok, k.op = .pref tok →
          let busy : Prop := slotState s c (k.arg 1) = 1 ∨ ∃ j ∈ g.flight, j.num < k.num ∧ j.finished = false ∧ (∃ tok, j.op = .pref tok) ∧ j.arg 1 = k.arg 1
          (busy → exec st s = .next s) ∧ (¬ busy → Ends st s (StartsAs s c e k)))
      ∧ ((∃ tok, k.op = .fill tok ∨ k.op = .copy tok ∨ k.op = .evict tok ∨ ∃ pad, k.op = .send tok pad ∨ k.op = .accst tok pad) → Ends st s (StartsAs s c e k)))
  ∧ (∀ n, findFlight s c e n = some k → k.num = n →
      let tok := tokOf k.op
      let ended : Prop := cmdGoes s c e k = true ∧ accessesDone s c k = true ∧ k.faulted = none ∧ k.finished = false ∧ k.acks = []
        ∧ (∀ tok a, k.op = .send tok a → k.sent = false ∨ k.prog = 1) ∧ (∀ tok, k.op = .pref tok → k.prog = 1) ∧ (∀ tok, k.op = .mcast tok → ∀ p ∈ k.targets, p.2 < (s.ring p.1 k.ringNo).tail)
      let acts (b : Bool) (q : Nat) : Bool := b && g.pushes.isEmpty && decide ((s.tok c q).count < (s.tok c q).cap)
      let waiting := (if tok.su && !acts tok.su (suQueue e) then [(suQueue e, n)] else []) ++ (if tok.sd && !acts tok.sd (sdQueue e) then [(sdQueue e, n)] else [])
      let takes : Prop := (∃ t p, k.op = .drain t false p) ∨ ∃ t fadd atom pad, k.op = .scat t fadd atom false pad
      (¬ ended → exec (.engineCommandFinish c e n) s = .next s)
      ∧ (ended → (∀ p ∈ g.pushes, p.2 ≠ n) → Ends (.engineCommandFinish c e n) s (fun t =>
          (takes → t.ring c k.ringNo = (s.ring c k.ringNo).pop k.place) ∧ (∀ m, (takes → m ≠ k.ringNo) → t.ring c m = s.ring c m)
          ∧ (∀ q, (t.tok c q).count = (s.tok c q).count + (if q = suQueue e ∧ acts tok.su q = true then 1 else 0) + (if q = sdQueue e ∧ acts tok.sd q = true then 1 else 0))
          ∧ (t.eng c e).pushes = g.pushes ++ waiting
          ∧ (waiting ≠ [] → (t.eng c e).flight = g.flight.map (fun j => if j.num = n then { k with finished := true } else j) ∧ (t.eng c e).cn = g.cn)
          ∧ (waiting = [] → (t.eng c e).flight = (g.flight.map (fun j => if j.num = n then { k with finished := true } else j)).filter (fun j => j.num != n)
              ∧ g.cn ≤ (t.eng c e).cn ∧ (n = g.cn + 1 → n ≤ (t.eng c e).cn))
          ∧ KeepsRest s t c)))
  ∧ (∀ n, findFlight s c e n = none → exec (.engineCommandFinish c e n) s = .next s)
  ∧ (∀ (i q n q0 : Nat) (ps : List (Nat × Nat)), g.pushes = (q0, n) :: ps → g.pushes[i]? = some (q, n) → (s.tok c q).count < (s.tok c q).cap →
      (∀ (j p : Nat), j < i → g.pushes[j]? = some (p, n) → (s.tok c p).cap ≤ (s.tok c p).count) → live →
      let u := (s.modTok c q (fun t => { t with count := t.count + 1 })).modEng c e (fun g => { g with pushes := g.pushes.erase (q, n) })
      let last : Prop := ∀ p ∈ (u.eng c e).pushes, p.2 ≠ n
      ((∀ k, findFlight s c e n = some k → k.finished = false ∨ ¬ last) → exec (.tokenPush c e) s = .next u)
      ∧ (findFlight s c e n = some k → k.finished = true → last → k.num = n → Ends (.tokenPush c e) s (fun t =>
          (t.eng c e).flight = g.flight.filter (fun j => j.num != n) ∧ (t.eng c e).pushes = (u.eng c e).pushes ∧ (∀ q, (t.tok c q).count = (u.tok c q).count)
          ∧ g.cn ≤ (t.eng c e).cn ∧ (n = g.cn + 1 → n ≤ (t.eng c e).cn) ∧ KeepsRest s t c)))
  ∧ ((coreLive s c = false ∨ g.pushes = [] ∨ ∃ q0 n ps, g.pushes = (q0, n) :: ps ∧ ∀ q, (q, n) ∈ g.pushes → (s.tok c q).cap ≤ (s.tok c q).count) → exec (.tokenPush c e) s = .next s)

/-- 06 R98, R107, R108, R109, R111, 15 R267, R270 to R278, R281, R328, 27 R375. The visible tail moves over the next place once it is filled, and the arrivals of a multicast go to their barrier; HEAD moves over the next place once it is popped; the end of a fill installs the address of its slot, VALID, where R98 lets the launch write its table, and faults its command where it does not. ACCESS_PERFORM of a data command makes its next access, of a unit's source or of its destination, word by word: the source's bytes come into its buffer, of poison a memory fault; the destination's bytes are written there and nowhere else, or a packet or message is sent; a push with its last byte fills its place. What the units of each command are: the walk of a table for TILE, DRAIN and MCAST, rows by their indices for GATH and SCAT, 8-byte words of COPY and FILL, the row of a tile for ACCST, the payload of SEND, the slot of PREF and EVICT, and the descriptors, the page and the reference counts of KVCP. Padding rows make no access. -/
def Obligations.RingsAndSlots : Prop := ∀ (s : State) (c n : Nat) (k : Cmd),
  let r := s.ring c n
  let moved := s.modRing c n (fun g => { g with tail := g.tail + 1, filled := g.filled.erase g.tail, signals := g.signals.filter (fun p => p.1 != g.tail) })
  let filling (j : Cmd) : Bool := (match j.op with | .pref _ => j.arg 1 == n | _ => false) && j.prog == 0 && j.faulted.isNone && accessesDone s c j
  let off := (s.arch c).csrs.rtbase.toNat + 16 * n
  (r.tail ∉ r.filled → exec (.ringTailAdvance c n) s = .next s)
  ∧ (r.tail ∈ r.filled → r.signals.filter (fun p => p.1 == r.tail) = [] → exec (.ringTailAdvance c n) s = .next moved)
  ∧ (∀ b o, r.tail ∈ r.filled → r.signals.filter (fun p => p.1 == r.tail) = [(r.tail, b, o)] → exec (.ringTailAdvance c n) s = .next (moved.modBar c b (fun b => { b with queue := b.queue ++ [o] })))
  ∧ (∀ (g : Ring) (a : Nat), let h := g.pop a
      h = { g with head := h.head, popped := h.popped } ∧ g.head ≤ h.head ∧ h.head ∉ h.popped ∧ (∀ x, g.head ≤ x → x < h.head → x = a ∨ x ∈ g.popped)
      ∧ ∀ x, h.head ≤ x → (x ∈ h.popped ↔ x = a ∨ x ∈ g.popped))
  ∧ (r.head ∉ r.popped → exec (.ringHeadAdvance c n) s = .next s)
  ∧ (r.head ∈ r.popped → exec (.ringHeadAdvance c n) s = .next (s.modRing c n (fun g => { g with head := g.head + 1, popped := g.popped.erase g.head })))
  ∧ ((s.eng c .ld).flight.find? filling = none → exec (.residencyFillDone c n) s = .next s)
  ∧ ((s.eng c .ld).flight.find? filling = some k → c < 512 → off % 16 = 0 → off < 4194304 → (s.die (dieOf c)).power = true →
      (∀ d, hallRefuse s (s.tctx c) c off 16 = some d → exec (.residencyFillDone c n) s = .next (cmdTrap s c .ld k (faultOf 0x08 d (hallAddr c off))))
      ∧ (hallRefuse s (s.tctx c) c off 16 = none → sliceUp s c = false → exec (.residencyFillDone c n) s = .next s)
      ∧ (hallRefuse s (s.tctx c) c off 16 = none → sliceUp s c = true → (s.core c).spad.wf = true →
          Ends (.residencyFillDone c n) s (fun t => Stored s t (.slice c off) (natBytes 8 (k.arg 0) ++ natBytes 8 2)
            ∧ (t.eng c .ld).flight = (s.eng c .ld).flight.map (fun j => if j.num = k.num then { k with prog := 1 } else j) ∧ OnlyCore s t c)))
  ∧ (∀ (e : Eng) (w : Nat), findFlight s c e k.num = none ∨ (findFlight s c e k.num = some k ∧ ¬ AccessReady s c e k) → exec (.accessPerform (.eng c e k.num w)) s = .next s)
  ∧ (∀ (e : Eng) (w : Nat), AccessReady s c e k → k.pos % 2 = 0 →
      let ev := Instr.accessPerform (.eng c e k.num w)
      let src := (unitOf s c k (k.pos / 2)).1
      let takes (bs : List Byte) (m n : Nat) (t : State) : Prop :=
        (k.sub + m < n → FlightIs s c e { k with sub := k.sub + m, buf := k.buf ++ bs, accessed := true } t)
        ∧ (n ≤ k.sub + m → FlightIs s c e { k with pos := k.pos + 1, sub := 0, buf := k.buf ++ bs, accessed := true } t)
      let given (bs : List Byte) (t : State) : Prop := FlightIs s c e { k with pos := k.pos + 1, sub := 0, buf := k.buf ++ bs } t ∧ OnlyEng s t c e
      let faults (a : Nat) : Prop := exec ev s = .next (cmdTrap s c e k (faultOf 0x08 8 a))
      (src = .none → Ends ev s (given (unitBytes k (k.pos / 2))))
      ∧ (∀ n, src = .zeros n → Ends ev s (given (List.replicate n 0)))
      ∧ (∀ off n, src = .own off n → let m := stepLen (off + k.sub) (n - k.sub) w
          (s.spadPoison c (off + k.sub) m = true → faults (hallAddr c (off + k.sub)))
          ∧ (s.spadPoison c (off + k.sub) m = false → Ends ev s (fun t => takes (s.spadRead c (off + k.sub) m) m n t ∧ OnlyEng s t c e)))
      ∧ (∀ va n l, src = .virt va n → let m := stepLen (va + k.sub) (n - k.sub) w
          lookup s (dieOf c) (s.tctx c) (va + k.sub) false = .loc l → Reaches s c e k.num (va + k.sub) m l →
          (s.locPoison l m = true → ∃ z, z = { s with arrived := z.arrived } ∧ exec ev s = .next (cmdTrap z c e k (faultOf 0x08 8 (va + k.sub))))
          ∧ (s.locPoison l m = false → Ends ev s (fun t => takes (s.locRead l m) m n t ∧ OnlyEng { s with dies := t.dies, hbmSoft := t.hbmSoft, arrived := t.arrived } t c e ∧ SameMemory s t)))
      ∧ (∀ tile row ty rm, src = .row tile row ty rm →
          let elem (j : Nat) : AccElem := sget {} (sget {} (s.core c).acc tile).elems (64 * row + j)
          ((∃ j, j < 64 ∧ (elem j).poisoned = true) → faults 0)
          ∧ ((∀ j, j < 64 → (elem j).poisoned = false) → Ends ev s (fun t => OnlyEng s t c e
              ∧ takes (natBytes (8 * ty.width) ((List.range 64).map (fun j => (elem j).convert ty rm * 2 ^ (ty.width * j))).sum) 0 0 t))))
  ∧ (∀ (e : Eng) (w : Nat), AccessReady s c e k → k.pos % 2 = 1 → (s.core c).spad.wf = true →
      let ev := Instr.accessPerform (.eng c e k.num w)
      let i := k.pos / 2
      let dst := (unitOf s c k i).2
      let n := match k.op with | .copy _ => (copyWrite k i).2 | _ => k.buf.length
      let rest := (k.buf.take n).drop k.sub
      let done_ := { k with pos := k.pos + 1, sub := 0, buf := k.buf.drop n, prog := progAfter k i }
      let after (m : Nat) : Cmd := if n ≤ k.sub + m then { done_ with accessed := true } else { k with sub := k.sub + m, accessed := true }
      let fills (j : Cmd) (h q x : Nat) : Prop := 2 * unitCount s c j ≤ j.pos ∧ q = k.ringNo
        ∧ (((∃ tok p, k.op = .tile tok p ∨ k.op = .gath tok p) ∧ h = c ∧ x = k.place) ∨ ((∃ tok, k.op = .mcast tok) ∧ (h, x) ∈ k.targets))
      let put (u : State) (j : Cmd) (t : State) : Prop := FlightIs s c e j t
        ∧ (∀ d x, (j.prog = k.prog ∨ OffJournal s c k d x) → memByte (t.core d).spad x = memByte (u.core d).spad x) ∧ (∀ id x, t.hbmByte id x = u.hbmByte id x)
        ∧ (∀ h q x, x ∈ (t.ring h q).filled ↔ x ∈ (s.ring h q).filled ∨ fills j h q x)
        ∧ (∀ h q b, b ∈ (t.ring h q).signals ↔ b ∈ (s.ring h q).signals ∨ ((∃ tok, k.op = .mcast tok) ∧ fills j h q b.1 ∧ b.2 = (k.arg 1 / 2 ^ 12 % 8, c)))
        ∧ (∀ d, (t.seqs d).ctxs = (s.seqs d).ctxs ∧ (t.seqs d).cp = (s.seqs d).cp ∧ (t.arch d).csrs = (s.arch d).csrs ∧ (t.core d).acc = (s.core d).acc)
        ∧ t.accesses = s.accesses ∧ t.replies = s.replies ∧ t.messages = s.messages ∧ t.hub = s.hub ∧ t.dies = s.dies
      let lands (l : Loc) (bs : List Byte) (m : Nat) : Prop := HomeWf s l → Ends ev s (fun t => ∃ u, Stored s u l bs ∧ put u (after m) t)
      let sends (f : State → State) (j : Cmd) : Prop := Ends ev s (fun t => FlightIs s c e j t ∧ OnlyEng (f s) t c e)
      (dst = .none → Ends ev s (put s done_))
      ∧ (∀ h off, dst = .own h off → sliceUp s h = true → let m := stepLen (off + k.sub) (n - k.sub) w
          lands (.slice h (off + k.sub)) (rest.take m) m)
      ∧ (∀ l, dst = .places l → (∀ p ∈ l, sliceUp s p.1 = true ∧ mayReach s p.1 (.command c e k.num) = true) → let m := stepLen k.sub (n - k.sub) w
          Ends ev s (put (l.foldl (fun s p => s.spadWrite p.1 (p.2 + k.sub) (rest.take m)) s) (after m)))
      ∧ (∀ va l, dst = .virt va → let m := stepLen (va + k.sub) (n - k.sub) w
          lookup s (dieOf c) (s.tctx c) (va + k.sub) true = .loc l → Reaches s c e k.num (va + k.sub) (rest.take m).length l → lands l (rest.take m) m)
      ∧ (∀ va total base, dst = .page va total base →
          (∀ l, k.locs.length < pageCount base total → lookup s (dieOf c) (s.tctx c) (pageStart base k.locs.length) true = .loc l → sends id { k with locs := k.locs ++ [l] })
          ∧ (pageCount base total ≤ k.locs.length → let m := min (stepLen (va + k.sub) (n - k.sub) w) (2 ^ 16 - (va + k.sub) % 2 ^ 16)
              Reaches s c e k.num (va + k.sub) m (placeIn k.locs base (va + k.sub)) → lands (placeIn k.locs base (va + k.sub)) (rest.take m) m))
      ∧ (∀ va fadd l, dst = .add va fadd → k.acks = [] →
          (va % 4 ≠ 0 → exec ev s = .next (cmdTrap s c e k (faultOf 0x06 2 va)))
          ∧ (va % 4 = 0 → w ≤ 1 → k.sub + 4 ≤ n → lookup s (dieOf c) (s.tctx c) (va + k.sub) true = .loc l → Reaches s c e k.num (va + k.sub) 4 l → s.locPoison l 4 = false →
              HomeWf s l → Ends ev s (fun t => ∃ u, put u (after 4) { t with dies := s.dies }
                ∧ Stored s u l (natBytes 4 (atomicNew (if fadd then .fadd else .add) 32 (bytesNat (s.locRead l 4)) (bytesNat (rest.take 4)) 0)))))
      ∧ (dst = .aux → let j := { done_ with aux := k.aux ++ bytesWords 8 k.buf }
          (i = 1 → ∀ f, kvcpFault j = some f → exec ev s = .next (cmdTrap s c e k f)) ∧ ((i = 1 → kvcpFault j = none) → sends id j))
      ∧ (∀ far kind off, dst = .remote far kind off → (kind = .inc → k.acks = []) →
          (livePorts s far = [] → exec ev s = .next (cmdTrap s c e k (faultOf 0x08 7 (k.arg 1))))
          ∧ (∀ p, (livePorts s far)[c % (livePorts s far).length]? = some p → (s.link (.port p)).state = 1 →
              let dp := k.arg 2 / 2 ^ 32
              sends (fun s => s.modHub (fun h => { h with outbound := h.outbound ++ [⟨far, p, c, e, k.num,
                match kind with | .inc => .inc (k.arg 1) dp | .check => .check (k.arg 1) dp | .copy => .copy (k.arg 1) dp (descSize k 0) off k.buf⟩] }))
                { done_ with accessed := true, acks := k.acks ++ [p] }))
      ∧ (∀ a, dst = .message a →
          (2 ^ 57 ≤ a → exec ev s = .next (cmdTrap s c e k (faultOf 0x0A 0 a))) ∧ (a < 2 ^ 57 → 2 ^ 31 ≤ a → exec ev s = .next (cmdTrap s c e k (faultOf 0x08 2 a)))
          ∧ (a < 2 ^ 31 →
              let msg : Message := ⟨c, k.num, a, k.buf, k.arg 2 / 2 ^ 16 % 65536, k.arg 2 / 2 ^ 32 % 65536, s.tctx c, false, 0⟩
              let behind : Prop := ∃ p ∈ (s.eng c e).replays, p.msg.dst / 4194304 = a / 4194304
              (¬ behind → sends (fun s => { s with messages := s.messages ++ [msg] }) { k with pos := k.pos + 1, sent := true })
              ∧ (behind → Ends ev s (fun t => OnlyEng s t c e ∧ (t.eng c e).replays = (s.eng c e).replays ++ [⟨msg, 0, 0, false⟩]
                  ∧ FlightIs s c e { k with pos := k.pos + 1, sent := true, accessed := false } t)))))
  ∧ (let A := k.arg
      let at_ (h p : Nat) : Nat := (s.ring h k.ringNo).basek.toNat * 1024 + p % (s.ring h k.ringNo).places * (s.ring h k.ringNo).tile
      let G (ctl : Nat) : Nat := 2 ^ (ctl / 2 ^ 8 % 16)
      let pads (pad : Bool) (row : Nat) : Bool := pad && padded s c row
      let idx (i : Nat) : Nat := ((k.aux[i]?).getD 0).toNat
      let last : Nat := ((k.aux.getLast?).getD 0).toNat
      let entry := hallAddr c ((s.arch c).csrs.rtbase.toNat + 16 * A (match k.op with | .pref _ => 1 | _ => 0))
      let unit := unitOf s c k
      (∀ row, padded s c row = true ↔ ∃ r, s.run c = some r ∧ r.padmask.getLsbD (row % 64) = false)
      ∧ (∀ (f : Nat → Nat) (base : Nat), let L := k.lnt
          let m := lntCount L
          (∀ j, j < 6 → f j < m j) → let i := f 0 + m 0 * (f 1 + m 1 * (f 2 + m 2 * (f 3 + m 3 * (f 4 + m 4 * f 5))))
          walkRow L i = f 1 ∧ walkAddr base L i = wrapInt 64 (base + f 0 * lntStride L 0 + f 1 * lntStride L 1 + f 2 * lntStride L 2 + f 3 * lntStride L 3 + f 4 * lntStride L 4 + f 5 * lntStride L 5))
      ∧ (∀ tok pad i, k.op = .tile tok pad →
          unit i = (if pads pad (walkRow k.lnt i) then .zeros (G (A 1)) else .virt (walkAddr (A 0) k.lnt i) (G (A 1)), .own c (at_ c k.place + i * G (A 1))))
      ∧ (∀ tok keep pad i, k.op = .drain tok keep pad →
          unit i = if pads pad (walkRow k.lnt i) then (.none, .none) else (.own (at_ c k.place + i * G (A 1)) (G (A 1)), .virt (walkAddr (A 0) k.lnt i)))
      ∧ (∀ tok i, k.op = .mcast tok → unit i = (.virt (walkAddr (A 0) k.lnt i) (G (A 1)), .places (k.targets.map (fun p => (p.1, at_ p.1 p.2 + i * G (A 1))))))
      ∧ (∀ tok pad i ty, k.op = .accst tok pad → ElemType.ofCode (A 2 / 2 ^ 8 % 16) = some ty → let row := A 2 / 2 ^ 16 % 64 + i
          unit i = if pads pad row then (.none, .none)
            else (.row (A 2 % 64) row ty (Rm.ofCode (A 2 / 2 ^ 12 % 4)), .virt (wrapInt 64 ((A 0 : Int) + (i : Int) * (BitVec.ofNat 64 (A 1)).toInt))))
      ∧ (∀ tok pad i, k.op = .gath tok pad → let rows := A 2 / 2 ^ 16 % 8192
          (i < rows → unit i = if pads pad i then (.zeros 4, .aux) else (.virt (A 1 + 4 * i) 4, .aux))
          ∧ (i < rows → unit (rows + i) = (if pads pad i then .zeros (G (A 2)) else .virt ((A 0 + idx i * G (A 2)) % 2 ^ 64) (G (A 2)), .own c (at_ c k.place + i * G (A 2)))))
      ∧ (∀ tok fadd atom keep pad i, k.op = .scat tok fadd atom keep pad →
          (pads pad i = true → unit (2 * i) = (.none, .none) ∧ unit (2 * i + 1) = (.none, .none))
          ∧ (pads pad i = false → unit (2 * i) = (.virt (A 1 + 4 * i) 4, .aux) ∧ let va := (A 0 + last * G (A 2)) % 2 ^ 64
              unit (2 * i + 1) = (.own (at_ c k.place + i * G (A 2)) (G (A 2)), if atom then .add va fadd else .virt va)))
      ∧ (∀ tok i, k.op = .copy tok →
          (i < chunkCount (A 1) (A 2) → (unit i).1 = .virt (A 1 + (chunkAt (A 1) (A 2) i).1) (chunkAt (A 1) (A 2) i).2)
          ∧ ((copyWrite k i).2 ≠ 0 → (unit i).2 = .virt (A 0 + (copyWrite k i).1)))
      ∧ (∀ a l i, i < chunkCount a l → let lo := max a (8 * (a / 8 + i)); chunkAt a l i = (lo - a, min (a + l) (8 * (a / 8 + i) + 8) - lo))
      ∧ (∀ tok i, k.op = .fill tok → unit i = (.none, .virt (A 0 + (chunkAt (A 0) (A 1) i).1))
          ∧ unitBytes k i = (List.range (chunkAt (A 0) (A 1) i).2).map (fun j => BitVec.ofNat 8 (A 2 / 2 ^ (8 * ((A 0 + (chunkAt (A 0) (A 1) i).1 + j) % 8)))))
      ∧ (∀ tok pad i, k.op = .send tok pad → unit i = if pads pad (A 2 / 2 ^ 48 % 64) then (.none, .none) else (.virt (A 0) (A 2 % 65536), .message (A 1)))
      ∧ (∀ tok i, k.op = .pref tok → let size := (s.arch c).csrs.rssize.toNat
          unit 0 = (.none, .virt entry) ∧ unitBytes k 0 = natBytes 8 (A 0) ++ natBytes 8 1
          ∧ unit (i + 1) = (.virt (A 0 + i * 512) 512, .virt (hallAddr c ((s.arch c).csrs.rtbase.toNat + 1024 + A 1 * size + i * 512))))
      ∧ (∀ tok, k.op = .evict tok → unit 0 = (.none, .virt (entry + 8)) ∧ unitBytes k 0 = natBytes 8 0)
      ∧ (∀ tok dec inc cpy, k.op = .kvcp tok dec inc cpy →
          let m := if cpy then (descSize k 0 + 511) / 512 else 0
          let far : Prop := A 3 ≠ 0xFFFF
          let sp := A 2 % 2 ^ 32
          let dp := A 2 / 2 ^ 32
          unit 0 = (.virt (A 0) 32, .aux) ∧ (far → unit 1 = (.zeros 32, .aux)) ∧ (¬ far → unit 1 = (.virt (A 1) 32, .aux))
          ∧ (∀ i, i < m → k.prog % 2 = 0 → (unit (2 + i)).1 = .virt (descPool k 0 + sp * descSize k 0 + i * 512) (min 512 (descSize k 0 - i * 512))
              ∧ (far → (unit (2 + i)).2 = .remote (A 3) .copy (i * 512))
              ∧ (¬ far → (unit (2 + i)).2 = .page (descPool k 1 + dp * descSize k 1 + i * 512) (descSize k 1) (descPool k 1 + dp * descSize k 1)))
          ∧ (inc = true → k.prog % 2 = 0 → (far → unit (2 + m) = (.none, .remote (A 3) .inc 0)) ∧ (¬ far → unit (2 + m) = (.none, .add (descRc k 1 + 4 * dp) false)) ∧ unitBytes k (2 + m) = natBytes 4 1)
          ∧ (dec = true → k.prog / 2 % 2 = 0 → (inc = true ∨ cpy = true ∨ ¬ far) → let j := 2 + m + inc.toNat
              unit j = (.none, .add (descRc k 0 + 4 * sp) false) ∧ unitBytes k j = natBytes 4 (2 ^ 32 - 1))
          ∧ (inc = false → cpy = false → far → unit 2 = (.none, .remote (A 3) .check 0)
              ∧ (dec = true → k.prog / 2 % 2 = 0 → unit 3 = (.none, .add (descRc k 0 + 4 * sp) false) ∧ unitBytes k 3 = natBytes 4 (2 ^ 32 - 1)))
          ∧ (kvcpFault k = if descCount k 0 ≤ sp ∨ (A 3 = 0xFFFF ∧ (descCount k 1 ≤ dp ∨ (cpy = true ∧ descSize k 0 ≠ descSize k 1))) then some (faultOf 0x04 3 0) else none)))

/-- 16 R284, 06 R101, R103. The wheel advances one position every 4 cycles; a class-15 access held at its home, when the home is no gated slice, is performed 256 positions after its stamp, the smallest stamp first; a walk reads one entry after the other, sets A and for a write D of its leaf, and its end installs the translation, or gives the fault to those that wait and drops what the unit held of the page; an entry faults for the causes of R101, with the lowest of the reasons (log 72), and a page past the installed bytes of its stack counts as outside them whole (log 90); XINV drops the entries of its context or page, and is done once what was translated before is past. -/
def Obligations.WheelWalksInvalidations : Prop := ∀ (s : State) (i d c k q : Nat) (victim : Option Nat) (a : Access) (w : Walk) (v : Inval) (x : Word) (rest : List CtxOp),
  (s.hub.wheelAt + 4 ≤ s.now → Ends .slotWheelAdvance s (fun t => OnlyHub s t
      ∧ t.hub = { s.hub with wheel := s.hub.wheel + 1, round := if s.hub.wheel.toNat = 4095 then s.hub.round + 1 else s.hub.round, wheelAt := s.hub.wheelAt + 4 }))
  ∧ (s.now < s.hub.wheelAt + 4 → exec .slotWheelAdvance s = .next s)
  ∧ (s.accesses[i]? = some a → a.arrived = true → homeUp s a.loc = true → a.stamp + 256 ≤ s.wheelCount → (∀ b ∈ s.accesses, b.arrived = true → b.loc.home = a.loc.home → a.stamp ≤ b.stamp) →
      Ends (.class15Release i) s (fun t => t = performAt s a))
  ∧ (s.accesses[i]? = some a → (a.arrived = false ∨ homeUp s a.loc = false ∨ s.wheelCount < a.stamp + 256 ∨ ∃ b ∈ s.accesses, b.arrived = true ∧ b.loc.home = a.loc.home ∧ b.stamp < a.stamp) →
      exec (.class15Release i) s = .next s)
  ∧ (i < 64 → (s.die d).power = true → (s.die d).walks[i]? = some w →
      (∀ t e, walkRest s d w = (t, .ok e) → Ends (.pageWalkDone d i victim) s (fun u => OnlyDie t u d
          ∧ (u.die d).walks = (t.die d).walks.eraseIdx i ∧ e ∈ (u.die d).tlb ∧ (u.die d).tlb.length ≤ (t.die d).tlb.length + 1
          ∧ ∀ y ∈ (u.die d).tlb, y = e ∨ (y ∈ (t.die d).tlb ∧ ∀ va, e.covers w.ctx va = true → y.covers w.ctx va = false)))
      ∧ (∀ t f, w.waiters = [] → walkRest s d w = (t, .error f) → Ends (.pageWalkDone d i victim) s (fun u =>
          u = t.modDie d (fun x => { x with walks := x.walks.eraseIdx i, tlb := x.tlb.filter (fun e => !e.covers w.ctx w.va) })))
      ∧ (∀ n, d < 8 → walkMove s d w = some n → exec (.accessPerform (.walk d i)) s =
          .next ((corrected s (.hbm (walkPlace s w) 0) 8).modDie d (fun x => { x with walks := x.walks.set i { w with node := some n } })))
      ∧ (∀ t f c k va, w.waiters = [(.sc c k, va, w.write)] → (f.code = 0x09 → f.detail / 8 = 5 → w.write = true) → (s.core c).stop = none → (s.core c).stopping = none
          → (s.ctx c k).wait = .walk (va / 2 ^ 16) → walkRest s d w = (t, .error f) →
          Ends (.pageWalkDone d i victim) s (fun u => ∃ z, u = ctxTrap (z.modCtx c k (fun t => { t with wait := .none })) c k { f with faddr := va } (s.ctx c k).pc.toNat
            ∧ OnlyDie t z d ∧ (z.die d).walks = (t.die d).walks.eraseIdx i ∧ (z.die d).tlb = (t.die d).tlb.filter (fun e => !e.covers w.ctx w.va))))
  ∧ (∀ e level wr x,
      let page := e / 2 ^ 8 % 2 ^ 33 * 2 ^ 8
      let size := if level = 1 then 2 ^ 21 else 2 ^ 16
      let leaf : Prop := e.testBit 2 = true
      let bad (r : Nat) : Prop := (r = 1 ∧ e.testBit 0 = false) ∨ (r = 2 ∧ ∃ b, (b = 3 ∨ b = 6 ∨ b = 7 ∨ 41 ≤ b ∧ b ≤ 50) ∧ e.testBit b = true)
        ∨ (r = 3 ∧ (leaf ∧ 2 ≤ level ∨ ¬ leaf ∧ level = 0)) ∨ (r = 4 ∧ leaf ∧ ¬ size ∣ page) ∨ (r = 5 ∧ leaf ∧ wr = true ∧ e.testBit 1 = false)
        ∨ (r = 6 ∧ leaf ∧ 80000000000 < page % 2 ^ 37 + size)
      entryFault e level wr = x ↔ match x with
        | none => ∀ r, ¬ bad r
        | some r => bad r ∧ ∀ j, j < r → ¬ bad j)
  ∧ (∀ va wr level node e, walkEntry s d (node + 8 * levelIndex va level) va = .ok e →
      (∀ r, entryFault e level wr = some r → walkFrom s d q va wr level node = (corrected s (.hbm (node + 8 * levelIndex va level) 0) 8, .error (faultOf 0x09 (level + 8 * r) va)))
      ∧ (entryFault e level wr = none → e / 4 % 2 = 1 → walkFrom s d q va wr level node =
          ({ corrected s (.hbm (node + 8 * levelIndex va level) 0) 8 with hbm := memPut s.hbm (node + 8 * levelIndex va level) (BitVec.ofNat 8 (e % 256 ||| 16 ||| if wr = true then 32 else 0)) },
            .ok ⟨q, va / 2 ^ 16, level == 1, e / 2 ^ 8 % 2 ^ 33 * 2 ^ 8, e / 2 ^ 51, e / 2 % 2 == 1, wr || e / 32 % 2 == 1⟩))
      ∧ (∀ l, level = l + 1 → entryFault e level wr = none → e / 4 % 2 = 0 →
          walkFrom s d q va wr level node = walkFrom (corrected s (.hbm (node + 8 * levelIndex va level) 0) 8) d q va wr l (e / 2 ^ 8 % 2 ^ 33 * 2 ^ 8)))
  ∧ ((s.ctx c k).ops = ⟨q, .csrw 0x038 x⟩ :: rest → storesDone s c k q = true → Ends (.xinvWrite c k) s (fun t =>
      (∀ d e, d < 8 → (e ∈ (t.die d).tlb ↔ e ∈ (s.die d).tlb ∧ dropped (x.toNat % 4096) (if x.getLsbD 63 then none else some (x.toNat / 65536 % 2 ^ 41)) e = false))
      ∧ (∀ d, d < 8 → (t.die d).walks = (s.die d).walks.map (fun w => if w.ctx = x.toNat % 4096 then { w with node := none } else w))
      ∧ t.hub = { s.hub with walks := s.hub.walks.map (fun w => if w.ctx = x.toNat % 4096 then { w with node := none } else w), importing := s.hub.importing.filter (fun y => y.tctx != x.toNat % 4096) }
      ∧ t.invals.length = s.invals.length + 1 ∧ (t.ctx c k).ops = rest ∧ (t.ctx c k).invals = (s.ctx c k).invals ++ [s.seq] ∧ SameMemory s t))
  ∧ (s.invals[i]? = some v → invalPast s v = true → Ends (.invalidationDone i) s (fun t => t.invals = s.invals.eraseIdx i
      ∧ OnlyCtx { s with invals := t.invals } t v.core v.ctx ∧ t.ctx v.core v.ctx = { s.ctx v.core v.ctx with invals := (s.ctx v.core v.ctx).invals.erase v.id }))
  ∧ (s.invals[i]? = some v → invalPast s v = false → exec (.invalidationDone i) s = .next s)

/-- 03 R51-R57, 23 R311, R312. LPOST takes the 28 bytes at its address into the landing, under the next sequence number, or is refused with a code in LRES. Enabling the step former takes INV, CTX and INLIM, clears SERR, and reads the template and its image's header: it runs with that copy, or stays off, with code 8 after a fault. A register of the former is clamped, and ignored while EN = 1. A step is formed when R54 says so: it takes the rows of R55 from the landing's head, writes their table, and submits the template with the changes of R56; a failure turns the former off and raises vector 4098. The model's choice: a descriptor that is poisoned, or out of reach, answers the code ending in FFFE (log 38). -/
def Obligations.LandingAndStepFormer : Prop := ∀ (s : State) (c k q d : Nat) (v : Word) (rest : List CtxOp),
  let u := popOp s c k
  let die := dieOf c
  let y := u.die die
  let a := v.toNat
  let desc := u.spadRead (a / 4194304) (a % 4194304) 28
  let bad : Prop := 2 ^ 31 ≤ a ∨ a % 8 ≠ 0 ∨ (hallRefuse u (u.tctx c) (a / 4194304) (a % 4194304) 28).isSome = true
    ∨ (reachFault u die (.slice (a / 4194304) (a % 4194304)) a).isSome = true ∨ u.spadPoison (a / 4194304) (a % 4194304) 28 = true
  let stays (t : State) (code : BitVec 8) : State := t.modDie die (fun x => { x with en := false, serr := code })
  let sets (i : Instr) (y' : Die) : Prop := Ends i s (fun t => t.die die = y' ∧ OnlyDie u t die)
  (∀ n, (s.ctx c k).ops = ⟨q, .csrw n v⟩ :: rest → storesDone s c k q = true →
    (n = 0x018 → bad → exec (.landingPost c k) s = .next (u.modCtx c k (fun t => { t with lres := 0xFFFFFFFFFFFFFFFE })))
    ∧ (n = 0x018 → ¬ bad → 1024 ≤ y.landing.length → exec (.landingPost c k) s = .next (u.modCtx c k (fun t => { t with lres := 0xFFFFFFFFFFFFFFFF })))
    ∧ (n = 0x018 → ¬ bad → y.landing.length < 1024 → Ends (.landingPost c k) s (fun t =>
        (t.die die).landing = y.landing ++ [⟨BitVec.ofNat 128 (fieldAt desc 0 16), BitVec.ofNat 64 (fieldAt desc 16 8), BitVec.ofNat 32 (fieldAt desc 24 4), y.lsn, s.now⟩]
        ∧ (t.die die).lsn = y.lsn + 1 ∧ t.ctx c k = { u.ctx c k with lres := y.lsn.setWidth 64 } ∧ SameMemory s t))
    ∧ (n = 0x200 → v.getLsbD 0 = true → y.en = false →
        let lim := a / 2 ^ 32 % 2 ^ 21
        let e := u.modDie die (fun x => { x with
          inv := v.getLsbD 1, sctx := BitVec.ofNat 12 (a / 65536), sinlim := if lim = 0 ∨ 2 ^ 20 < lim then BitVec.ofNat 21 (2 ^ 20) else BitVec.ofNat 21 lim, serr := 0 })
        let ctx := a / 65536 % 4096
        (∀ t f, readBytes e die ctx y.steprec.toNat 64 = (t, .error f) → exec (.stepFormerEnable c k) s = .next (stays t 8))
        ∧ (∀ t b z f, readBytes e die ctx y.steprec.toNat 64 = (t, .ok b) → readHeader t die ctx (parseRecord b).image = (z, .error f) →
            exec (.stepFormerEnable c k) s = .next (stays z 8))
        ∧ (∀ t b z h, readBytes e die ctx y.steprec.toNat 64 = (t, .ok b) → readHeader t die ctx (parseRecord b).image = (z, .ok h) →
            (v.getLsbD 1 = true → h.flags % 2 = 0 → exec (.stepFormerEnable c k) s = .next (stays z 0))
            ∧ ((v.getLsbD 1 = false ∨ h.flags % 2 = 1) →
                exec (.stepFormerEnable c k) s = .next (z.modDie die (fun x => { x with en := true, template := BitVec.ofNat 512 (bytesNat b) })))))
    ∧ (n = 0x200 → v.getLsbD 0 = false → y.en = true → sets (.stepFormerDisable c k) { y with en := false, template := 0 })
    ∧ (n = 0x203 → y.en = true → sets (.stepmaxWrite c k) y)
    ∧ (n = 0x203 → y.en = false → let m := max 1 (min a 1024)
        sets (.stepmaxWrite c k) { y with stepmax := BitVec.ofNat 16 m, stepmin := BitVec.ofNat 16 (min y.stepmin.toNat m) })
    ∧ (y.en = true → n = 0x201 ∨ n = 0x202 ∨ n = 0x204 ∨ n = 0x205 → sets (.registerWrite (.csr c k)) y)
    ∧ (y.en = false →
        (n = 0x201 → sets (.registerWrite (.csr c k)) { y with stepmin := BitVec.ofNat 16 (max 1 (min a y.stepmax.toNat)) })
        ∧ (n = 0x202 → sets (.registerWrite (.csr c k)) { y with stepwait := BitVec.ofNat 32 (max 1 (min a (2 ^ 32 - 1))) })
        ∧ (n = 0x204 → sets (.registerWrite (.csr c k)) { y with steprec := v &&& ~~~0x3F })
        ∧ (n = 0x205 → sets (.registerWrite (.csr c k)) { y with steptab := v &&& ~~~0xFFFF })))
  ∧ (∀ (room : Nat) (l : List LandEntry), 0 < room → l ≠ [] → let rows := stepRows room [] l
      rows = l.take rows.length ∧ 0 < rows.length ∧ rows.length ≤ room ∧ (rows.map (fun e => e.seq)).Nodup
      ∧ (rows.length = room ∨ rows.length = l.length ∨ ∃ e, l[rows.length]? = some e ∧ e.seq ∈ rows.map (fun e => e.seq)))
  ∧ (let z := s.die d
      let ready : Prop := z.power = true ∧ z.en = true ∧ (z.outstanding.filter (fun id => !isComplete s id)).length < 4 ∧ z.pool.length < 1024
        ∧ ∃ e r, z.landing = e :: r ∧ (z.stepmin.toNat ≤ z.landing.length ∨ e.at_ + z.stepwait.toNat ≤ s.now ∨ z.stepmax.toNat ≤ z.landing.length)
      let r := parseRecord (natBytes 64 z.template.toNat)
      let rows := stepRows (if (groupLevel r).isSome then z.stepmax.toNat else min 64 z.stepmax.toNat) [] z.landing
      let n := rows.length
      let j := z.stepNo.toNat
      let at_ := (z.steptab.toNat + 65536 * (j % 4)) % 2 ^ 64
      let w := s.modDie d (fun x => { x with landing := x.landing.drop n, stepNo := x.stepNo + 1 })
      let table := natBytes 8 j ++ natBytes 4 n ++ natBytes 4 ((n + 63) / 64) ++ natBytes 4 (match rows with | e :: _ => e.lsn.toNat | [] => 0) ++ natBytes 44 0
        ++ natBytes 128 (BitVec.ofNat 1024 (2 ^ n - 1)).toNat ++ rows.flatMap (fun e => natBytes 16 e.map.toNat ++ natBytes 8 e.vec.toNat ++ natBytes 4 e.seq.toNat ++ natBytes 4 e.lsn.toNat)
      let tagOf (j : Nat) : BitVec 32 := BitVec.ofNat 32 (0xFE000000 + j % 0x01FFFFFF)
      let record : Record := { r with
        args := BitVec.ofNat 64 at_, tag := tagOf j, prod0 := if j = 0 then 0xFFFFFFFF else tagOf (j - 1)
        loop := match groupLevel r with | some g => r.loop.set g (BitVec.ofNat 32 (levelKind ((r.loop[g]?).getD 0) * 2 ^ 30 + (n + 63) / 64)) | none => r.loop }
      let failed (t : State) (code : Nat) : State := raiseVector (t.modDie d (fun x => { x with en := false, serr := BitVec.ofNat 8 code })) 4098
      (¬ ready → exec (.stepForm d) s = .next s)
      ∧ (ready → ∀ t f, writeBytes w d z.sctx.toNat at_ table = (t, some f) → exec (.stepForm d) s = .next (failed t 8))
      ∧ (ready → ∀ t x e, writeBytes w d z.sctx.toNat at_ table = (t, none) → checkRecord t d z.sctx.toNat record 1 true = (x, .error e) →
          exec (.stepForm d) s = .next (failed (writeNow x d z.sctx.toNat (at_ + 20) (natBytes 1 e)).1 e))
      ∧ (ready → ∀ t x h p held, writeBytes w d z.sctx.toNat at_ table = (t, none) → checkRecord t d z.sctx.toNat record 1 true = (x, .ok h) →
          bindRecord x record h z.steprec z.sctx.toNat z.sinlim.toNat (BitVec.ofNat 1024 (2 ^ n - 1)) (some j) 0 = (p, held) →
          exec (.stepForm d) s = .next ((poolAdd p d held).modDie d (fun x => { x with outstanding := stepsOut (poolAdd p d held) d ++ [held.id] }))))

/-- 03 R47, R48, 04 R69, 25 R343. The oldest boundary trap and the oldest data arrival of a core each start the lowest dormant handler context, with the trap word or the arrival word in x1 and what it tells of in x2 to x4; of the two that may start, the older goes first and the other waits, the trap where both are of one cycle. A trap whose slot has a handler running stays at the head of its queue, and holds up no arrival. With no handler dormant, or while the core is stopped, neither starts, and no arrival does before the launch is ready. -/
def Obligations.HandlersStart : Prop := ∀ (s : State) (c k : Nat) (b : BTrap) (a : Arrival) (r : Running) (bs : List BTrap) (rest : List Arrival),
  let mayStart (b : BTrap) : Prop := ∀ j, (j = 1 ∨ j = 2 ∨ j = 3) → (s.ctx c j).status = .running → (s.ctx c j).slot ≠ some b.slot
  let trap := Instr.boundaryTrapDispatch c
  let data := Instr.dataArrivalDispatch c
  ((s.arch c).btraps = [] → exec trap s = .next s)
  ∧ ((s.seqs c).arrivals = [] → exec data s = .next s)
  ∧ (dormantHandler s c = none ∨ coreLive s c = false → exec trap s = .next s ∧ exec data s = .next s)
  ∧ ((s.arch c).btraps = b :: bs → ¬ mayStart b → exec trap s = .next s)
  ∧ ((s.arch c).btraps = b :: bs → (s.seqs c).arrivals = a :: rest → a.at_ < b.at_ → exec trap s = .next s)
  ∧ ((s.arch c).btraps = b :: bs → (s.seqs c).arrivals = a :: rest → dormantHandler s c = some k → mayStart b → b.at_ ≤ a.at_ → exec data s = .next s)
  ∧ ((∀ r, s.run c = some r → r.ready = false) → exec data s = .next s)
  ∧ (dormantHandler s c = some k → (k = 1 ∨ k = 2 ∨ k = 3) ∧ (s.ctx c k).status = .dormant ∧ ∀ j, 1 ≤ j → j < k → (s.ctx c j).status ≠ .dormant)
  ∧ (coreLive s c = true → dormantHandler s c = some k → (s.arch c).btraps = b :: bs → mayStart b → (∀ a ∈ (s.seqs c).arrivals.head?, b.at_ ≤ a.at_) → Ends trap s (fun t =>
        (t.arch c).btraps = bs ∧ (t.ctx c k).status = .running ∧ (t.ctx c k).pc = (s.arch c).csrs.bhaddr ∧ (t.ctx c k).slot = some b.slot
        ∧ (t.ctx c k).x 1 = BitVec.ofNat 64 (1 + b.slot * 256 + b.cause * 16384) ∧ (t.ctx c k).x 2 = BitVec.ofNat 64 b.entry.toNat
        ∧ (t.ctx c k).x 3 = BitVec.ofNat 64 (b.entry.toNat / 2 ^ 64) ∧ (t.ctx c k).x 4 = BitVec.ofNat 64 b.addr ∧ (∀ n, 4 < n → (t.ctx c k).x n = (s.ctx c k).x n)
        ∧ (∀ j, j ≠ k → t.ctx c j = s.ctx c j) ∧ (t.seqs c).arrivals = (s.seqs c).arrivals ∧ OnlyCore s t c ∧ SameMemory s t))
  ∧ (coreLive s c = true → dormantHandler s c = some k → s.run c = some r → r.ready = true → (s.seqs c).arrivals = a :: rest → (∀ b ∈ (s.arch c).btraps.head?, ¬ mayStart b ∨ a.at_ < b.at_) →
      Ends data s (fun t =>
        (t.seqs c).arrivals = rest ∧ (t.ctx c k).status = .running ∧ (t.ctx c k).pc = BitVec.ofNat 64 a.handler ∧ (t.ctx c k).x 1 = a.x1
        ∧ (t.ctx c k).x 2 = a.dst ∧ (t.ctx c k).x 3 = a.bytes ∧ (t.ctx c k).x 4 = a.x4 ∧ (∀ n, 4 < n → (t.ctx c k).x n = (s.ctx c k).x n)
        ∧ (∀ j, j ≠ k → t.ctx c j = s.ctx c j) ∧ (t.arch c).btraps = (s.arch c).btraps ∧ OnlyCore s t c ∧ SameMemory s t))

/-- 05 R79-R86. The tail of a queue moves, and the queue halts with code 7 once more records stand in it than it has slots; enabling takes CTX, LOG2 and INLIM and starts it with the head at the tail, disabling drops the record whose placement has not begun; clearing ERR lets it go on; the record at the head is read, and checked, and the queue halts with the code of R81 or holds it with its producers; of the eligible records one of the highest level is chosen; a node that is chosen reads its word, and passes, skips or repeats what it governs, or halts its queue. A tail more than the slots ahead of WQHEAD halts the queue; one that is not moves the head over the records that are to be passed. The model's choices: the order of the record's checks (log 79), the word of COND that is read where it is not aligned, and code 4 for an IMAGE in hall space (log 71). -/
def Obligations.QueueRecords : Prop := ∀ (s : State) (q : Nat) (v : BitVec 64) (x : BitVec 32),
  let w := s.wq q
  let m : WorkQueue := { w with tail := x }
  let lim := v.toNat / 2 ^ 24 % 2 ^ 21
  let inlim : BitVec 21 := if lim = 0 ∨ 2 ^ 20 < lim then BitVec.ofNat 21 (2 ^ 20) else BitVec.ofNat 21 lim
  (w.err ≠ 0 → exec (.wqtailWrite q x) s = .next (s.modWq q (fun _ => m)))
  ∧ (w.err = 0 → m.count ≤ m.slots → exec (.wqtailWrite q x) s = .next (s.modWq q (fun _ => m.settle)))
  ∧ (w.err = 0 → m.slots < m.count → Ends (.wqtailWrite q x) s (fun t => t.wq q = { m with err := 7, badidx := w.head + BitVec.ofNat 32 m.slots } ∧ OnlyHub s t))
  ∧ (w.en = false → m.settle = m)
  ∧ (w.en = false → v.getLsbD 0 = true → Ends (.wqEnable q v) s (fun t => t.wq q = { w with
      en := true, head := w.tail, held := none, placing := false, skips := [], loops := [], inlimit := inlim
      ctx := BitVec.ofNat 12 (v.toNat / 2 ^ 12), log2 := BitVec.ofNat 4 (max 4 (min (v.toNat / 256 % 16) 15)) } ∧ OnlyHub s t))
  ∧ ((w.en = true ∨ v.getLsbD 0 = false) → exec (.wqEnable q v) s = .next s)
  ∧ (w.en = true → v.getLsbD 0 = false → Ends (.wqDisable q v) s (fun t => t.wq q = { w with en := false, inlimit := inlim, held := if w.placing then w.held else none } ∧ OnlyHub s t
      ∧ (∀ h, w.held = some h → w.placing = false → ∀ p ∈ t.hub.holders, p.2 ≠ h.id)))
  ∧ ((w.en = false ∨ v.getLsbD 0 = true) → exec (.wqDisable q v) s = .next s)
  ∧ (w.err = 0 → exec (.wqHaltClear q) s = .next s)
  ∧ (w.err ≠ 0 → w.count ≤ w.slots → exec (.wqHaltClear q) s = .next (s.modWq q (fun w => { w with err := 0 })))
  ∧ (w.err ≠ 0 → w.slots < w.count → Ends (.wqHaltClear q) s (fun t => t.wq q = { w with err := 7, badidx := w.head + BitVec.ofNat 32 w.slots } ∧ OnlyHub s t))
  ∧ (s.hub.bootst ≠ 1 → exec (.queueRecordRead q) s = .next s)
  ∧ (s.hub.bootst = 1 → w.readable = true → returnLoop s w = w → w.settle = w →
      let u := s.modWq q (fun _ => w)
      let at_ := w.base.toNat * 4096 + 64 * (w.head.toNat % 2 ^ w.log2.toNat)
      let halts (z : State) (code : BitVec 8) : Prop := Ends (.queueRecordRead q) s (fun t => t.wq q = { z.wq q with err := code, badidx := w.head } ∧ OnlyHub z t)
      (∀ t f, readNow u hubEnd w.ctx.toNat at_ 64 = (t, .error f) → halts t 8)
      ∧ (∀ t b, readNow u hubEnd w.ctx.toNat at_ 64 = (t, .ok b) → let r := parseRecord b
        (11 < r.prio → halts t 1)
        ∧ (r.prio ≤ 11 → 4 ≤ r.node → halts t 2)
        ∧ (r.prio ≤ 11 → r.node < 4 → loopOk r.loop = false → halts t 3)
        ∧ (r.prio ≤ 11 → r.node < 4 → loopOk r.loop = true →
          let binds (z : State) (h : Header) : Prop := ∀ y held, bindRecord z r h (BitVec.ofNat 64 at_) w.ctx.toNat w.inlimit.toNat 0 none w.head = (y, held) →
            exec (.queueRecordRead q) s = .next (y.modWq q (fun w => { w with held := some (noteEligible y held) }))
          (r.node ≠ 0 → tagReserved r.tag = true → halts t 6)
          ∧ (r.node ≠ 0 → tagReserved r.tag = false → binds t ⟨0, 0, 0, 32, 0, 0, [], 0⟩)
          ∧ (r.node = 0 → (r.image.toNat % 64 ≠ 0 ∨ r.image.toNat < 2 ^ 31) → halts t 4)
          ∧ (r.node = 0 → r.image.toNat % 64 = 0 → 2 ^ 31 ≤ r.image.toNat →
              (∀ z f, readHeader t hubEnd w.ctx.toNat r.image = (z, .error f) → halts z 8)
              ∧ (∀ z h, readHeader t hubEnd w.ctx.toNat r.image = (z, .ok h) →
                let form : Prop := h.magic = 0x344D4B5A ∧ h.version = 1
                let size : Prop := h.allot % 32 = 0 ∧ 32 ≤ h.allot ∧ h.allot ≤ 256 ∧ h.spneed ≤ 4063232 ∧ (h.overlay 4).2 + (h.overlay 5).2 = h.spneed ∧ h.wheel ∈ [0, 1, 2, 4, 8, 16, 32, 64]
                (¬ form → halts z 4) ∧ (form → ¬ size → halts z 5) ∧ (form → size → tagReserved r.tag = true → halts z 6)
                ∧ (form → size → tagReserved r.tag = false → binds z h))))))
  ∧ (∀ (l : List (BitVec 32)), loopOk l = true ↔ (∀ x ∈ l, x.toNat / 2 ^ 30 ≠ 3 ∧ x.toNat % 2 ^ 30 ≠ 0) ∧ kindProduct l 1 ≤ 64 ∧ kindProduct l 2 ≤ 8 ∧ kindProduct l 0 ≤ 2 ^ 32)
  ∧ (∀ r h addr ctx lim rows step i y held, bindRecord s r h addr ctx lim rows step i = (y, held) →
      held.id = s.hub.nextId ∧ y.hub.nextId = s.hub.nextId + 1 ∧ held.body = r ∧ held.hdr = h ∧ held.addr = addr ∧ held.tctx = ctx ∧ held.inlim = lim ∧ held.index = i ∧ OnlyHub s y
      ∧ (∀ p, p ∈ held.producers ↔ isComplete s p = false ∧ (holderOf s r.prod0 = some p ∨ holderOf s r.prod1 = some p))
      ∧ (r.tag ≠ 0xFFFFFFFF → holderOf y r.tag = some held.id) ∧ (∀ tag, tag ≠ r.tag → holderOf y tag = holderOf s tag))
  ∧ (∀ pos level h, chosenOf s = some (pos, level, h) → (pos, level, h) ∈ candidates s ∧ level = levelOf s h ∧ (∀ y ∈ candidates s, y.2.1 ≤ level) ∧ recEligible s h = true)
  ∧ (∀ h, levelOf s h = if h.body.prio = 11 then 11 else min 10 (h.body.prio + (match h.eligible with | some t => (s.now - t) / max 1 s.hub.agelimit.toNat | none => 0)))
  ∧ (chosenOf s = none → exec (.nodeEvaluate q) s = .next s)
  ∧ (∀ pos level h, chosenOf s = some (pos, level, h) → (h.body.node = 0 ∨ pos ≠ q ∨ s.hub.bootst ≠ 1) → exec (.nodeEvaluate q) s = .next s)
  ∧ (∀ level h, chosenOf s = some (q, level, h) → h.body.node ≠ 0 → s.hub.bootst = 1 →
      (∀ t f, readNow s hubEnd h.tctx (h.body.cond.toNat / 8 * 8) 8 = (t, .error f) → Ends (.nodeEvaluate q) s (fun u => OnlyHub t u
          ∧ (u.wq q).err = 8 ∧ (u.wq q).badidx = h.index ∧ (∀ p ∈ u.hub.holders, p.2 ≠ h.id) ∧ (u.wq q).head = (t.wq q).head
          ∧ ((t.wq q).held = some h → (u.wq q).held = none)))
      ∧ (∀ t b, readNow s hubEnd h.tctx (h.body.cond.toNat / 8 * 8) 8 = (t, .ok b) → Ends (.nodeEvaluate q) s (fun u => OnlyHub t u
          ∧ u.wq q = (nodeEffect (t.wq q) h.body (bytesNat b)).settle ∧ (∀ p ∈ u.hub.holders, p.2 ≠ h.id) ∧ sget 4103 u.hub.last level = q ∧ h.id ∉ u.hub.chosen)))
  ∧ (∀ (r : Record) (word : Nat),
      let b := r.args.toNat % 65536
      let l := r.args.toNat / 65536 % 65536
      let i (n : Nat) : BitVec 32 := w.head + BitVec.ofNat 32 (1 + n)
      let passes : WorkQueue := { w with head := w.head + 1, held := none }
      (r.node = 1 → word ≠ 0 → nodeEffect w r word = passes)
      ∧ ((r.node = 1 ∨ r.node = 2) → word = 0 → 0 < b → nodeEffect w r word = { passes with skips := ((i 0).toNat, (i b).toNat) :: w.skips })
      ∧ (r.node = 2 → word ≠ 0 → nodeEffect w r word = { passes with loops := (w.head.toNat, (i b).toNat, []) :: w.loops })
      ∧ (r.node = 3 → b = 0 → nodeEffect w r word = passes)
      ∧ (r.node = 3 → 0 < b → 0 < l → let k := min word (b - 1)
          let after := if k + 1 = b then w.skips else ((i ((k + 1) * l)).toNat, (i (b * l)).toNat) :: w.skips
          nodeEffect w r word = { passes with skips := if k = 0 then after else ((i 0).toNat, (i (k * l)).toNat) :: after }))

/-- 05 R82, R87-R93, R378, 04 R62-R67, R377, 02 R33, R34. The chosen record is placed on a cohort that can host it, C cores on each of D dies with a frame, registers, an area and wheel positions that no resident holds: its cores get its record, frame, area, registers, porch and wheel positions, and it leaves its queue's order or its pool. The loader reads the overlays of a placed core into its instruction memories and its area and clears its registers, tiles and launch-scope registers, or the launch fails and is reported by its kind. A point starts on a core once every core of the cohort is loaded and every core of its cluster's part has come to the point: context 0 runs at pc 0 with x1 to x5, if the SC has a stream. Once nothing of the point is left its successor's turn comes or the core is free. A launch of the lowest priority gives way to the chosen record where that makes room: its cores stop, and each is left once what must finish has; it takes its cores again once they are free. A KILL before the overlays are loaded passes the launch's record. The model's choices: a launch that has not started counts from its placement (log 87), a reload that faults ends the launch with a record (log 88), and with an empty overlay 0 no context runs (log 42). -/
def Obligations.PlacementAndPoints : Prop := ∀ (s : State) (c id : Nat) (src : Source) (cohort : List Placement) (wheel : List (Nat × Nat)),
  (chosenOf s = none → exec (.recordPlace src cohort) s = .next s ∧ exec (.preempt id) s = .next s)
  ∧ (∀ h : HeldRec, 0 < h.body.c → (cohortOk s h cohort = true ↔ cohort.length = h.body.c * h.body.d ∧ (cohort.map (fun p => p.core)).Nodup
      ∧ (∀ i j p q, cohort[i]? = some p → cohort[j]? = some q → (dieOf p.core = dieOf q.core ↔ i / h.body.c = j / h.body.c))
      ∧ (∀ p ∈ cohort, p.core < 512 ∧ s.run p.core = none ∧ (s.core p.core).gate = .on ∧ (s.core p.core).stop = none ∧ (s.die (dieOf p.core)).power = true
          ∧ (s.arch p.core).parked.length < 8 ∧ p.frame < 8 ∧ p.area % 1024 = 0 ∧ p.area + h.hdr.spneed ≤ 4063232
          ∧ 32 * p.regs.length = h.hdr.allot ∧ p.regs.Nodup ∧ (∀ b ∈ p.regs, b < 64)
          ∧ ∀ x ∈ (s.arch p.core).parked, x.run.frame ≠ p.frame ∧ (∀ b ∈ p.regs, b ∉ x.run.regs)
              ∧ (p.area + h.hdr.spneed ≤ x.run.area ∨ x.run.area + x.run.spneed ≤ p.area ∨ h.hdr.spneed = 0 ∨ x.run.spneed = 0))
      ∧ (h.hdr.wheel ≠ 0 → (cohort.map (fun p => p.wheelP)).Nodup ∧ ∀ p ∈ cohort, p.wheelP < 4096 / h.hdr.wheel
          ∧ ∀ k, k < h.hdr.wheel → ∀ o ∈ s.hub.owners, o.1 ≠ p.wheelP + k * (4096 / h.hdr.wheel))))
  ∧ (∀ pos level h, chosenOf s = some (pos, level, h) →
      (s.hub.bootst = 1 → h.body.node = 0 → posOf src = pos → cohortOk s h cohort = true → resumeFirst s level = false → Ends (.recordPlace src cohort) s (fun t =>
        (∀ i p, cohort[i]? = some p →
          let ci := i % h.body.c
          let di := i / h.body.c
          t.run p.core = some
            { launch := h.id, held := h, src := src, frame := p.frame, area := p.area, spneed := h.hdr.spneed, regs := p.regs, allot := h.hdr.allot
              wheelP := p.wheelP, wheelN := h.hdr.wheel, tctx := h.tctx, padmask := padMaskOf h ci di, lat := h.hdr.lat, c := ci, d := di, t := 0
              loaded := false, ready := false, started := false, complete := false, trigPending := [], trigSent := false, stampUsed := none, jcount := 0, ring0 := [] }
          ∧ (t.arch p.core).csrs = { (s.arch p.core).csrs with
              img := h.body.image, arg := h.body.args, recAddr := h.addr, pos := BitVec.ofNat 64 (di * 256 + ci), inlim := BitVec.ofNat 21 h.inlim })
        ∧ (∀ d, (∀ p ∈ cohort, p.core ≠ d) → t.core d = s.core d)
        ∧ t.hub.launches = s.hub.launches ++ [⟨h.id, h, src, cohort, s.now, [], [], [], false, false, false⟩]
        ∧ t.hub.owners = s.hub.owners ++ cohort.flatMap (fun p => (wheelPositions h.hdr.wheel p.wheelP).map (fun w => (w, h.id)))
        ∧ sget 4103 t.hub.last level = pos ∧ t.hub.chosen = s.hub.chosen.filter (fun i => i != h.id)
        ∧ (∀ q, src = .queue q → t.wq q = { s.wq q with placing := true, loops := (s.wq q).loops.map (fun l => (l.1, l.2.1, h.id :: l.2.2)) })
        ∧ (∀ d, src = .pool d → (t.die d).pool = (s.die d).pool.filter (fun y => y.id != h.id))
        ∧ SameMemory s t))
      ∧ (s.hub.bootst ≠ 1 ∨ h.body.node ≠ 0 ∨ posOf src ≠ pos ∨ cohortOk s h cohort = false ∨ resumeFirst s level = true → exec (.recordPlace src cohort) s = .next s)
      ∧ (∀ l, victimOf s h = some l → s.launch l.id = some l → l.id = id → h.body.node = 0 → canPlace s (leavingIds s) h = false →
          canPlace s (leavingIds s ++ (s.hub.launches.filter (victimOk s h)).map (fun l => l.id)) h = true →
          let u := ((coresLeft l).foldl (fun s c => s.modCore c (fun k => { k with leaving := true })) s).modLaunch id (fun l => { l with leaving := true })
          ((∃ c ∈ coresLeft l, leaveHeld u c = true) → exec (.preempt id) s = .next u)
          ∧ ((∀ c ∈ coresLeft l, leaveHeld u c = false) → Ends (.preempt id) s (fun t => ∃ z, z = (coresLeft l).foldl leaveCore u
            ∧ t = (z.modHub (fun x => { x with owners := x.owners.filter (fun o => o.2 != id) })).modLaunch id (fun l => { l with leaving := false, parked := true }))))
      ∧ (∀ l, victimOk s h l = true ↔ l.parked = false ∧ l.leaving = false ∧ l.loadedAll = true ∧ l.held.body.prio < h.body.prio
          ∧ ∀ p ∈ l.cohort, p.core ∉ l.completed → coreCandidate s p.core l.id = true)
      ∧ (coreCandidate s c id = true ↔ (∃ r, s.run c = some r ∧ r.launch = id ∧ r.loaded = true) ∧ (s.core c).gate = .on ∧ (s.core c).stop = none ∧ (s.core c).stopping = none
          ∧ (s.core c).killing = false ∧ (s.core c).dbg.halt = false ∧ (s.core c).dbg.stepping = false
          ∧ (∀ p ∈ (s.arch c).slots, p.2.state = 0 ∨ p.2.state = 3) ∧ (s.arch c).btraps = [])
      ∧ (∀ l, victimOf s h = some l → victimOk s h l = true ∧ ∀ m ∈ s.hub.launches, victimOk s h m = true →
          l.held.body.prio < m.held.body.prio ∨ (l.held.body.prio = m.held.body.prio ∧ m.startedAt ≤ l.startedAt))
      ∧ (canPlace s (leavingIds s) h = true ∨ victimOf s h = none ∨ h.body.node ≠ 0 → exec (.preempt id) s = .next s))
  ∧ (∀ r l, s.run c = some r → s.launch r.launch = some l →
      (r.loaded = true ∨ coreLive s c = false → exec (.overlayLoad c) s = .next s)
      ∧ (r.loaded = false → coreLive s c = true →
          (∀ t f, readOverlays s l.held (overlayRoom r.spneed) [] = (t, .error f) →
            (∀ q, l.src = .queue q → exec (.overlayLoad c) s = .next (killLaunch (haltRecord t q 8 l.held) l.id))
            ∧ (∀ d j, l.src = .pool d → l.held.step = some j → exec (.overlayLoad c) s =
                .next (stepFailed (writeNow (killLaunch t l.id) d l.held.tctx (l.held.body.args.toNat + 20) (natBytes 1 8)).1 d 8))
            ∧ (∀ d, l.src = .pool d → l.held.step = none → exec (.overlayLoad c) s = .next (killLaunch (writeRecord t (lowestCore l) f.isw f.faddr 0 7 0 0 t.now) l.id)))
          ∧ (∀ t bs, readOverlays s l.held (overlayRoom r.spneed) [] = (t, .ok bs) → exec (.overlayLoad c) s = .next (loadedAll (loadCore t c r bs) r.launch)))
      ∧ (∀ sc ld cp st data rings, ∀ t, t = loadCore s c r [sc, ld, cp, st, data, rings] → (s.arch c).parked = [] → (s.core c).spad.wf = true →
          let byte (b : List Byte) (x : Nat) : Byte := b.getD x 0
          (∀ x, memByte (t.core c).imSc x = byte sc x) ∧ (∀ x, memByte (t.core c).imLd x = byte ld x) ∧ (∀ x, memByte (t.core c).imCp x = byte cp x) ∧ (∀ x, memByte (t.core c).imSt x = byte st x)
          ∧ (data.length ≤ r.spneed → ∀ x, memByte (t.core c).spad x = if r.area ≤ x ∧ x < r.area + r.spneed then byte data (x - r.area) else memByte (s.core c).spad x)
          ∧ (∀ n, sget 0 (t.core c).vrf n = if n / 32 ∈ r.regs then 0 else sget 0 (s.core c).vrf n) ∧ (t.core c).acc = []
          ∧ (let g := ringTable r.area r.spneed rings
             t.run c = some { r with loaded := true, ring0 := g } ∧ t.seqs c = { rings := g, arrivals := (s.seqs c).arrivals })
          ∧ (t.arch c).csrs = { (s.arch c).csrs with
              paceLd := 0, paceCp := 0, paceSt := 0, pmbase := 0, pmcnt := 0, bhaddr := 0, rtbase := 0, rssize := 0, hkst := 0, hkz := 0, hkreq := none, rplive := 0 }
          ∧ OnlyCore s t c)
      ∧ (∀ v, loadedAll s r.launch = v → l.loadedAll = false → (∀ p ∈ l.cohort, ∃ x, s.run p.core = some x ∧ x.launch = r.launch ∧ x.loaded = true) →
          v.launch r.launch = some { l with loadedAll := true }
          ∧ ∀ q h, l.src = .queue q → (s.wq q).held = some h → h.id = r.launch → (s.wq q).placing = true → v.wq q = ({ s.wq q with head := (s.wq q).head + 1, held := none, placing := false } : WorkQueue).settle)
      ∧ (gangReady s c r = true ↔ l.loadedAll = true ∧ ∀ p ∈ l.cohort, clusterOf p.core = clusterOf c →
          p.core ∈ l.completed ∨ ∃ x, s.run p.core = some x ∧ x.launch = r.launch ∧ x.loaded = true ∧ r.t ≤ x.t)
      ∧ (r.loaded = false ∨ r.ready = true ∨ coreLive s c = false ∨ gangReady s c r = false → exec (.pointStart c) s = .next s)
      ∧ (r.loaded = true → r.ready = false → coreLive s c = true → gangReady s c r = true → Ends (.pointStart c) s (fun t =>
          let pos := BitVec.ofNat 64 (r.t * 2 ^ 32 + r.d * 256 + r.c)
          let data := l.held.hdr.overlay 6
          t.run c = some { r with ready := true, started := false, jcount := 0 } ∧ (t.arch c).csrs = { (s.arch c).csrs with pos := pos, hkz := 0 }
          ∧ (t.ctx c 0).pc = 0 ∧ (t.ctx c 0).status = (if (r.held.hdr.overlay 0).2 = 0 then .dormant else .running)
          ∧ (t.ctx c 0).x 1 = l.held.body.args ∧ (t.ctx c 0).x 2 = (if data.2 = 0 then l.held.body.image else l.held.body.image + BitVec.ofNat 64 data.1)
          ∧ (t.ctx c 0).x 3 = BitVec.ofNat 64 (hallAddr c r.area) ∧ (t.ctx c 0).x 4 = pos ∧ (t.ctx c 0).x 5 = (s.arch c).csrs.recAddr
          ∧ (∀ n, 6 ≤ n → (t.ctx c 0).x n = 0) ∧ (∀ k, (t.ctx c k).flag = false) ∧ (∀ k b, k < 4 → sget false (t.ctx c k).phases b = (s.bar c b).phase) ∧ (t.cp c).pc = 0
          ∧ (∀ q, (t.tok c q).count = 0 ∧ (t.tok c q).cap = (s.tok c q).cap) ∧ (t.seqs c).fq = [] ∧ (t.seqs c).rings = r.ring0
          ∧ (∀ e, e ≠ .cp → (t.eng c e).status = .idle ∧ (t.eng c e).queue = [] ∧ (t.eng c e).flight = [] ∧ (t.eng c e).lastNum = 0 ∧ (t.eng c e).cn = 0 ∧ (t.eng c e).lastDequeue = (s.eng c e).lastDequeue
              ∧ sget 0 (t.eng c e).e 0 = l.held.body.args ∧ sget 0 (t.eng c e).e 3 = pos)
          ∧ OnlyCore s t c ∧ SameMemory s t)))
  ∧ (∀ r, s.run c = some r →
      (r.ready = false ∨ coreLive s c = false ∨ pointOver s c = false → exec (.pointComplete c) s = .next s)
      ∧ (r.ready = true → coreLive s c = true → pointOver s c = true → r.t + 1 < r.held.body.t → Ends (.pointComplete c) s (fun t =>
          t.run c = some { r with t := r.t + 1, ready := false, started := false } ∧ (t.seqs c).fqCap = 32 ∧ (t.eng c .ld).cap = 8 ∧ (t.eng c .st).cap = 8 ∧ (t.cp c).mqCap = 8
          ∧ (t.cluster (clusterOf c)).pantry = (s.cluster (clusterOf c)).pantry + blocksOf (s.seqs c) ∧ SameMemory s t))
      ∧ (∀ l, r.ready = true → coreLive s c = true → pointOver s c = true → r.held.body.t ≤ r.t + 1 → s.launch r.launch = some l → Ends (.pointComplete c) s (fun t =>
          t.run c = none ∧ t.seqs c = {} ∧ (t.cluster (clusterOf c)).pantry = (s.cluster (clusterOf c)).pantry + blocksOf (s.seqs c)
          ∧ ((∀ p ∈ l.cohort, p.core = c ∨ p.core ∈ l.completed) → t.launch r.launch = none ∧ (∀ p ∈ t.hub.holders, p.2 ≠ r.launch) ∧ (∀ o ∈ t.hub.owners, o.2 ≠ r.launch))
          ∧ ((∃ p ∈ l.cohort, p.core ≠ c ∧ p.core ∉ l.completed) → ∃ done, t.launch r.launch = some { l with completed := done } ∧ ∀ x, x ∈ done ↔ x = c ∨ x ∈ l.completed)
          ∧ SameMemory s t)))
  ∧ (∀ l, s.launch id = some l → canResume s l = false → exec (.launchResume id wheel) s = .next s)
  ∧ (∀ l, s.launch id = some l → canResume s l = true → chosenOf s = none → l.held.hdr.wheel = 0 →
      (∀ u, unparkCores s id (sget 0 wheel) (coresLeft l) = (u, none) → exec (.launchResume id wheel) s = .next (u.modLaunch id (fun l => { l with parked := false })))
      ∧ (∀ u f, unparkCores s id (sget 0 wheel) (coresLeft l) = (u, some f) →
          exec (.launchResume id wheel) s = .next (killLaunch (writeRecord u (lowestCore l) f.isw f.faddr 0 7 0 0 u.now) id)))

/-- 05 R95, 23 R316-R321, 24 R331. Once everything of a core has waited 256 cycles on queues, of the full ones that have been enlarged fewer than four times the smallest, the first in the tie order, is enlarged by 16 from the pantry; where none can be, or nothing is full for 2^20 cycles, the core stops. It stops where a matrix entry needs a format word that no context can bring or that has not come in 2^20 cycles, where a freeze by a late reply or by the cap lasts 2^20 cycles, and where a barrier is waited for that long and its TARGET was 0 at the issue of the BARW or at some time since: a write of 0 to TARGET notes it. A halted core's watchdogs do not run. The model's choices: FREEZE_TIMEOUT counts cycles of 1.2 GHz, the other watchdogs the core's own (log 89), and those of a BARW from its issue (log 65). -/
def Obligations.QueueWaitStops : Prop := ∀ (s : State) (c k n : Nat),
  let g := clusterOf c
  let pantry := (s.cluster g).pantry
  let full := fullWaited s c
  let can := full.filter (fun q => decide (queueEnl s c q < 4))
  let first (l : List Nat) (q : Nat) : Prop := q ∈ l ∧ ∀ r ∈ l, queueCap s c q < queueCap s c r ∨ (queueCap s c q = queueCap s c r ∧ q ≤ r)
  let waited (m : Nat) : Prop := coreLive s c = true ∧ (s.core c).dbg.halt = false ∧ (allWait s c).isSome = true ∧ ∃ from_, (s.seqs c).waitSince = some from_ ∧ from_ + m ≤ s.coreTime c
  let stops (i : Instr) (isw : Nat) : Prop := ∃ t, exec i s = .next t ∧ t = takeStop s c 7 isw 0 0 0 0
  (∀ l, allWait s c = some l → ∀ q, q ∈ full ↔ q < 10 ∧ q ∈ l ∧ queueFull s c q = true)
  ∧ (∀ q, first can q → waited 256 → 0 < pantry → underflow s c = none → ∃ t, exec (.deadlockRelief c) s = .next t
      ∧ queueCap t c q = queueCap s c q + 16 ∧ queueEnl t c q = queueEnl s c q + 1 ∧ (∀ r, r < 10 → r ≠ q → queueCap t c r = queueCap s c r ∧ queueEnl t c r = queueEnl s c r)
      ∧ (t.cluster g).pantry = pantry - 1 ∧ (t.seqs c).waitSince = none ∧ t = { s with cores := t.cores, clusters := t.clusters } ∧ (∀ d, d ≠ c → t.core d = s.core d) ∧ SameMemory s t)
  ∧ (can = [] ∨ ¬ waited 256 ∨ pantry = 0 ∨ (underflow s c).isSome = true → exec (.deadlockRelief c) s = .next s)
  ∧ ((underflow s c).isSome = true → exec (.queueDeadlock c) s = .next s)
  ∧ (underflow s c = none → full = [] → waited (2 ^ 20) → stops (.queueDeadlock c) 0x40)
  ∧ (underflow s c = none → full = [] → ¬ waited (2 ^ 20) → exec (.queueDeadlock c) s = .next s)
  ∧ (∀ q, underflow s c = none → first full q → waited 256 →
      (can = [] → stops (.queueDeadlock c) (0x40 + 256 * 2 + 2 ^ 20 * q))
      ∧ (can ≠ [] → pantry = 0 → stops (.queueDeadlock c) (0x40 + 256 * 1 + 2 ^ 20 * q))
      ∧ (can ≠ [] → pantry ≠ 0 → exec (.queueDeadlock c) s = .next s))
  ∧ (full ≠ [] → ¬ waited 256 → exec (.queueDeadlock c) s = .next s)
  ∧ (∀ h d, underflow s c = some (h, d) ↔ fqHeld s c = some h
      ∧ (let idle : Prop := (s.ctx c 0).status ≠ .running ∧ ∀ j, 1 ≤ j → j < 4 → (s.ctx c j).status = .dormant
         (idle ∧ d = 0) ∨ (¬ idle ∧ d = 1 ∧ ∃ at_, h.readyAt = some at_ ∧ at_ + 2 ^ 20 ≤ s.coreTime c)))
  ∧ (∀ h d, underflow s c = some (h, d) → coreLive s c = true →
      let u := s.modCp c (fun p => { p with halted := true })
      ((s.core c).dbg.halt = false → ∃ t, exec (.fqUnderflow c) s = .next t ∧ t = takeStop u c 5 (5 + 256 * d) 0 h.num 0 h.pc)
      ∧ ((s.core c).dbg.halt = true → ∃ t, exec (.fqUnderflow c) s = .next t ∧ (t.core c).dbg.pend = true ∧ (t.cp c).fault = some ⟨faultOf 5 d 0, h.num, h.pc, s.now⟩
          ∧ (t.cp c).halted = true ∧ (t.core c).stop = (s.core c).stop ∧ OnlyCore s t c ∧ SameMemory s t))
  ∧ (underflow s c = none ∨ coreLive s c = false → exec (.fqUnderflow c) s = .next s)
  ∧ (∀ f, (s.arch c).freeze = some f → f.since + 2 ^ 20 ≤ s.now →
      let u := s.modArch c (fun a => { a with freeze := if f.until_ = 0 then none else some { f with cause := .sram } })
      (f.cause = .dirtyCap → ∃ t, exec (.freezeTimeout c) s = .next t ∧ t = takeStop u c 7 (0x41 + 256 * 1) 0 0 0 0)
      ∧ (f.cause = .late → ∃ t, exec (.freezeTimeout c) s = .next t ∧ t = takeStop (u.modCp c dropLate) c 7 0x41 0 0 0 0))
  ∧ (∀ p x, (p : Cp).pend.find? (fun y => y.load) = some x → dropLate p = { p with pend := p.pend.erase x })
  ∧ ((s.arch c).freeze = none → exec (.freezeTimeout c) s = .next s)
  ∧ (∀ f, (s.arch c).freeze = some f → (f.cause = .sram ∨ s.now < f.since + 2 ^ 20) → exec (.freezeTimeout c) s = .next s)
  ∧ ((s.ctx c k).wait = .barw n → coreLive s c = true → (s.core c).dbg.halt = false → (s.ctx c k).status = .running → (s.ctx c k).barIdle = true
      → (s.ctx c k).waitFrom + 2 ^ 20 ≤ s.coreTime c → stops (.barrierIdle c k) (0x42 + 256 * n))
  ∧ (((∀ n, (s.ctx c k).wait ≠ .barw n) ∨ coreLive s c = false ∨ (s.core c).dbg.halt = true ∨ (s.ctx c k).status ≠ .running ∨ (s.ctx c k).barIdle = false
      ∨ s.coreTime c < (s.ctx c k).waitFrom + 2 ^ 20) → exec (.barrierIdle c k) s = .next s)
  ∧ (∀ q v rest, (s.ctx c k).ops = ⟨q, .csrw (0x060 + n) v⟩ :: rest → n < 8 → storesDone s c k q = true → Ends (.barWrite c k) s (fun t =>
      (∀ j, j < 4 → (t.ctx c j).barIdle = ((s.ctx c j).barIdle || (decide (v.toNat / 2 ^ 32 % 65536 = 0) && decide ((s.ctx c j).wait = .barw n))))))
  ∧ (∀ r, Quiet s c → (s.core c).stopping = none → s.run c = some r → ∀ eng isw num pc, ((takeStop s c eng isw 0 num 0 pc).core c).stop = some ⟨isw % 256, r.frame⟩)

/-- 25 R339, R343, R344, 15 R277, 16 R281, 09 R137, R144, 23 R314, R320, 06 R106, R108, R112, 27 R370. A message reaches its slice behind those before it between the same cores: it is refused with a fault, waits for a link or a gate, is told to come later, or is written word by word and with its last word its arrival noted and its sender told; a later-reply puts it in ST's replay queue, with a backoff of 256 cycles that doubles up to 16,384 when it is refused again; the head of that queue and those behind it to the same core are sent again when its time comes. A hook is asked for with HKSTART, which takes HKZ, starts the lowest dormant handler with the entry and the budget of its block, and is stopped when its budget is spent. Writes configure rings and barriers. The model's choices: a hook block that cannot be read gives HKST 2, HKSTART is ignored while a hook waits or runs (log 61), and a message that is refused again goes behind those to its core that were sent earlier (log 91). -/
def Obligations.MessagesAndHooks : Prop := ∀ (s : State) (i c k : Nat) (m : Message) (q : Nat) (v : Word) (rest : List CtxOp),
  let e := m.dst / 4194304
  let off := m.dst % 4194304
  let len := m.bytes.length
  let who : Arriver := .message m.core m.cmd
  let gone := { s with messages := s.messages.eraseIdx i, arrived := s.arrived.erase (e, who) }
  let first : Prop := s.messages[i]? = some m ∧ ∀ x ∈ s.messages.take i, x.core = m.core → x.dst / 4194304 ≠ e
  let cut : Prop := pathIn s (dieOf m.core) (dieOf e) 3 = true ∨ (s.die (dieOf e)).power = false
  let held : Prop := pathIn s (dieOf m.core) (dieOf e) 2 = true ∨ sliceUp s e = false ∨ mayReach s e who = false
  let u := popOp s c k
  (s.messages[i]? = none → exec (.sendArrival i) s = .next s)
  ∧ (s.messages[i]? = some m → (∃ x ∈ s.messages.take i, x.core = m.core ∧ x.dst / 4194304 = e) → exec (.sendArrival i) s = .next s)
  ∧ (first → cut → exec (.sendArrival i) s = .next (sendFaulted gone m (faultOf 0x08 6 m.dst)))
  ∧ (first → ¬ cut → pathIn s (dieOf m.core) (dieOf e) 2 = true ∨ (sliceUp s e = true ∧ mayReach s e who = false) → exec (.sendArrival i) s = .next s)
  ∧ (first → ¬ cut → pathIn s (dieOf m.core) (dieOf e) 2 = false → sliceUp s e = false → (e, who) ∉ s.arrived → exec (.sendArrival i) s = .next { s with arrived := s.arrived ++ [(e, who)] })
  ∧ (mayReach s e who = true ↔ ∀ a, s.arrived.find? (fun x => x.1 == e && partyWaits s x.2) = some a → a.2 = who)
  ∧ (∀ d, first → ¬ cut → ¬ held → hallRefuse s m.tctx e off len = some d → exec (.sendArrival i) s = .next (sendFaulted gone m (faultOf 0x08 d m.dst)))
  ∧ (first → ¬ cut → ¬ held → hallRefuse s m.tctx e off len = none → areaOwner s m.tctx e off len = none →
      exec (.sendArrival i) s = .next (sendFaulted gone m (faultOf 0x08 2 m.dst)))
  ∧ (∀ id, first → ¬ cut → ¬ held → hallRefuse s m.tctx e off len = none → areaOwner s m.tctx e off len = some id →
      let later : Prop := m.handler ≠ 0xFFFF ∧ ((if runsOn s e id then 32 else 16) ≤ arrivalsOf s e id ∨ (m.mark = false ∧ m.core ∈ (s.arch e).locks))
      let n := min (len - m.done) (8 - (m.dst + m.done) % 8)
      let part := (m.bytes.drop m.done).take n
      (m.done = 0 → later → Ends (.sendArrival i) s (fun t => t.retries = s.retries ++ [m] ∧ t.messages = s.messages.eraseIdx i
        ∧ (∀ x, x ∈ (t.arch e).locks ↔ x ∈ (s.arch e).locks ∨ x = m.core) ∧ SameMemory s t))
      ∧ ((m.done ≠ 0 ∨ ¬ later) → m.done + n < len →
          exec (.sendArrival i) s = .next ({ s with messages := s.messages.set i { m with done := m.done + n } }.spadWrite e (off + m.done) part))
      ∧ ((m.done ≠ 0 ∨ ¬ later) → len ≤ m.done + n → 1024 ≤ m.tag →
          let y := gone.spadWrite e (off + m.done) part
          let z := if m.mark then y.modArch e (fun a => { a with locks := a.locks.erase m.core }) else y
          (m.handler = 0xFFFF → exec (.sendArrival i) s = .next (sendAccepted z m))
          ∧ (m.handler ≠ 0xFFFF → exec (.sendArrival i) s = .next (sendAccepted (pushArrival z e id
              ⟨id, m.handler, BitVec.ofNat 64 (2 + m.tag * 2 ^ 16 + m.core * 2 ^ 32), BitVec.ofNat 64 m.dst, BitVec.ofNat 64 len, 0xFFFF, s.now⟩) m))))
  ∧ (s.retries[i]? = none → exec (.retryLaterReceive i) s = .next s)
  ∧ (s.retries[i]? = some m → (∃ x ∈ s.retries.take i, x.core = m.core ∧ x.dst / 4194304 = e) → exec (.retryLaterReceive i) s = .next s)
  ∧ (∀ j, s.retries[i]? = some m → (∀ x ∈ s.retries.take i, x.core = m.core → x.dst / 4194304 ≠ e) → findFlight s m.core .st m.cmd = some j → j.num = m.cmd →
      let old := (s.eng m.core .st).replays
      let gives (l : List Replay) : Prop := Ends (.retryLaterReceive i) s (fun t => t.retries = s.retries.eraseIdx i ∧ (t.eng m.core .st).replays = l
        ∧ FlightIs s m.core .st { j with accessed := false } t ∧ SameMemory s t)
      ((∀ r ∈ old, r.msg.cmd ≠ m.cmd) → gives (old ++ [⟨{ m with mark := true }, s.coreTime m.core + 256, 256, false⟩]))
      ∧ (∀ a r b, old = a ++ r :: b → r.msg.cmd = m.cmd → (∀ x ∈ a ++ b, x.msg.cmd ≠ m.cmd) →
          let wait := if r.backoff = 0 then 256 else min 16384 (2 * r.backoff)
          let before (x : Replay) : Bool := x.msg.dst / 4194304 == e && decide (x.msg.cmd < m.cmd)
          gives ((a ++ b).takeWhile before ++ { r with due := s.coreTime m.core + wait, backoff := wait, out := false } :: (a ++ b).dropWhile before)))
  ∧ ((s.eng c .st).replays = [] → exec (.replayBackoffExpiry c) s = .next s)
  ∧ (∀ h hs, (s.eng c .st).replays = h :: hs →
      let same (r : Replay) : Bool := !r.out && r.msg.dst / 4194304 == h.msg.dst / 4194304
      ((h.out = true ∨ coreLive s c = false ∨ (s.eng c .st).halted = true ∨ s.coreTime c < h.due) → exec (.replayBackoffExpiry c) s = .next s)
      ∧ (h.out = false → coreLive s c = true → (s.eng c .st).halted = false → h.due ≤ s.coreTime c → Ends (.replayBackoffExpiry c) s (fun t =>
          t.messages = s.messages ++ ((h :: hs).filter same).map (fun r => { r.msg with mark := true })
          ∧ (t.eng c .st).replays = (h :: hs).map (fun r => if same r then { r with out := true } else r)
          ∧ (t.eng c .st).flight = (s.eng c .st).flight.map (fun k => if ((h :: hs).filter same).any (fun r => r.msg.cmd == k.num) then { k with accessed := true } else k) ∧ SameMemory s t)))
  ∧ (∀ n, (s.ctx c k).ops = ⟨q, .csrw n v⟩ :: rest → storesDone s c k q = true →
    (n = 0x031 → hookActive u c = true → exec (.hkstartWrite c k) s = .next u)
    ∧ (n = 0x031 → hookActive u c = false → Ends (.hkstartWrite c k) s (fun t =>
        (t.arch c).csrs = { (u.arch c).csrs with hkreq := some (v, (u.arch c).csrs.hkz), hkst := 0 } ∧ SameMemory s t))
    ∧ (∀ r, n = 0x040 + r → r < 16 →
        let g : Ring := { v := v.getLsbD 63, tileu := BitVec.ofNat 12 (v.toNat / 2 ^ 48), bytes := BitVec.ofNat 21 (v.toNat / 2 ^ 22), basek := BitVec.ofNat 12 (v.toNat / 2 ^ 10) }
        let bad : Prop := g.v = true ∧ (g.tileu = 0 ∨ g.bytes = 0 ∨ g.bytes.toNat % (512 * g.tileu.toNat) ≠ 0 ∨ 2 ^ 20 < g.bytes.toNat
          ∨ g.basek.toNat * 1024 < areaOf u c ∨ areaOf u c + spneedOf u c < g.basek.toNat * 1024 + g.bytes.toNat)
        ((u.ring c r).head < (u.ring c r).tail ∨ ringNamed u c r = true ∨ bad → exec (.ringConfigWrite c k) s = .next u)
        ∧ ((u.ring c r).tail ≤ (u.ring c r).head → ringNamed u c r = false → ¬ bad → exec (.ringConfigWrite c k) s = .next (u.modRing c r (fun _ => g))))
    ∧ (∀ b, n = 0x060 + b → b < 8 → Ends (.barWrite c k) s (fun t =>
        (∀ j, t.bar c j = if j = b then { u.bar c b with target := BitVec.ofNat 16 (v.toNat / 2 ^ 32), count := 0 } else u.bar c j)
        ∧ (∀ j, j < 4 → t.ctx c j = { u.ctx c j with barIdle := (t.ctx c j).barIdle }) ∧ OnlyCore u t c ∧ SameMemory s t)))
  ∧ ((s.arch c).csrs.hkreq = none ∨ dormantHandler s c = none ∨ coreLive s c = false → exec (.hookStart c) s = .next s)
  ∧ (∀ z, (s.arch c).csrs.hkreq = some (v, z) → dormantHandler s c = some k → coreLive s c = true →
      let y := s.modCsrs c (fun r => { r with hkreq := none })
      let at_ (n : Nat) : Nat := (v.toNat + n) % 2 ^ 64
      (∀ t f, readNow y (dieOf c) (y.tctx c) (at_ 0x2C) 4 = (t, .error f) → exec (.hookStart c) s = .next (putHkst t c 2))
      ∧ (∀ x t b f, readNow y (dieOf c) (y.tctx c) (at_ 0x2C) 4 = (x, .ok b) → readNow x (dieOf c) (y.tctx c) (at_ 0x30) 8 = (t, .error f) → exec (.hookStart c) s = .next (putHkst t c 2))
      ∧ (∀ x t b h, readNow y (dieOf c) (y.tctx c) (at_ 0x2C) 4 = (x, .ok b) → readNow x (dieOf c) (y.tctx c) (at_ 0x30) 8 = (t, .ok h) →
          exec (.hookStart c) s = .next (startHandler t c k (BitVec.ofNat 64 (bytesNat h)) 3 z v ((t.ctx c k).x 4) none (some (bytesNat b, false)))))
  ∧ (∀ j, hookSpent s c = some j → 1 ≤ j ∧ j < 4 ∧ (s.ctx c j).status = .running ∧ (s.ctx c j).hook = some (0, true))
  ∧ (hookSpent s c = none ∨ coreLive s c = false ∨ (s.core c).dbg.halt = true → exec (.hookBudgetExpiry c) s = .next s)
  ∧ (hookSpent s c = some k → coreLive s c = true → (s.core c).dbg.halt = false → exec (.hookBudgetExpiry c) s = .next (hookStop s c k 3))

/-- 10 R148-R158, 25 R342. RTLOAD copies a routing record into the die's table; the oldest queued pass runs, and finishes with its ticket in RTDONE or with RTERR and vector 4098; LDRST clears the load counters; the oldest replication request is served by the die of the least load that does not hold the expert; a copy that has ended gives every die an update, and an update joins the table that no launch uses. Between its start and its finish a pass reads its scores, places each row with the experts of its best scores, and writes its lists and its histogram word by word. The model's choices: a copy that faults ends with no update (log 31), and a misaligned RTLOAD is ignored (log 71). -/
def Obligations.ExpertEvents : Prop := ∀ (s : State) (c k q d : Nat) (v : Word) (rest : List CtxOp),
  let u := popOp s c k
  let x := s.die d
  (∀ n, (s.ctx c k).ops = ⟨q, .csrw n v⟩ :: rest → storesDone s c k q = true →
    (n = 0x210 → (v.toNat / 2 ^ 31 % 2 ^ 27 ≠ 0 ∨ v.toNat % 64 ≠ 0) → exec (.rtloadWrite c k) s = .next u)
    ∧ (∀ t b, n = 0x210 → v.toNat / 2 ^ 31 % 2 ^ 27 = 0 → v.toNat % 64 = 0 → readNow u (dieOf c) (u.tctx c) (v.toNat % 2 ^ 31) 64 = (t, .ok b) →
        exec (.rtloadWrite c k) s = .next (u.modDie (dieOf c) (fun d => { d with rtab := sset d.rtab (v.toNat / 2 ^ 58) (BitVec.ofNat 512 (bytesNat b)) })))
    ∧ (n = 0x21E → exec (.ldrstWrite c k) s = .next (u.modDie (dieOf c) (fun d => { d with loadc := [] }))))
  ∧ (x.rrun.isSome = true ∨ x.rqueue = [] → exec (.routePassStart d) s = .next s)
  ∧ (∀ p ps, x.rrun = none → x.rqueue = p :: ps → exec (.routePassStart d) s = .next (s.modDie d (fun x => { x with rqueue := ps, rrun := some ⟨p, 0, none, [], [], [], [], 0, false, none⟩ })))
  ∧ (x.rrun = none → exec (.routePassFinish d) s = .next s)
  ∧ (∀ r, x.rrun = some r → r.fault = none → (r.outs ≠ [] ∨ r.histDone = false) → exec (.routePassFinish d) s = .next s)
  ∧ (∀ r, x.rrun = some r → r.fault = none → r.outs = [] → r.histDone = true → Ends (.routePassFinish d) s (fun t =>
      (t.die d) = { x with rtdone := r.pass.ticket, rrun := none } ∧ (∀ i k, i < 64 → k < 4 → (t.ctx (64 * d + i) k).flag = true) ∧ t.hub = s.hub ∧ SameMemory s t))
  ∧ (∀ r row code, x.rrun = some r → r.fault = some (row, code) → Ends (.routePassFinish d) s (fun t =>
      (t.die d) = { x with rtdone := r.pass.ticket, rrun := none, rterr := BitVec.ofNat 64 (r.pass.ticket.toNat * 2 ^ 32 + row * 256 + code) }
      ∧ t.hub = (raiseVector s 4098).hub ∧ SameMemory s t))
  ∧ (∀ r, x.rrun = some r → r.fault = none →
      let ev := Instr.accessPerform (.routing d)
      let e := r.pass.entry
      let field (at_ n : Nat) : Nat := e.toNat / 2 ^ (8 * at_) % 2 ^ (8 * n)
      let rows := field 8 4
      let nexp := field 0x0C 2
      let size := if field 0x0F 1 = 0 then 4 else 2
      let becomes (j : RouteRun) (t : State) : Prop := (t.die d).rrun = some j
      let score := wrapInt 64 (field 0 8 + r.row * (BitVec.ofNat 32 (field 0x10 4)).toInt + r.scores.length * (BitVec.ofNat 32 (field 0x14 4)).toInt)
      let count := (field 0x28 8 + 4 * r.hlocs.length) % 2 ^ 64
      let reads (va n : Nat) (f : Nat → RouteRun) : Prop := ∀ l, lookup s d r.pass.tctx va false = .loc l → ReachesFrom s d r.pass.tctx (.unit d) va n l →
        (s.locPoison l n = false → Ends ev s (fun t => becomes (f (bytesNat (s.locRead l n))) t ∧ SameMemory s t))
        ∧ (s.locPoison l n = true → Ends ev s (fun t => becomes { r with fault := some (r.row, 0x08) } t ∧ SameMemory s t))
      (∀ va bs outs, r.outs = (va, bs) :: outs → 0 < bs.length →
        (∀ f, lookup s d r.pass.tctx va true = .fault f → Ends ev s (fun t => becomes { r with fault := some (r.row - 1, f.code) } t ∧ SameMemory s t))
        ∧ (∀ l, lookup s d r.pass.tctx va true = .loc l → ReachesFrom s d r.pass.tctx (.unit d) va bs.length l → HomeWf s l →
            Ends ev s (fun t => Stored s t l bs ∧ becomes { r with outs := outs } t)))
      ∧ (r.outs = [] → r.row < rows →
          (r.valid = none → field 0x30 8 = 0 → Ends ev s (fun t => becomes { r with valid := some true } t ∧ SameMemory s t))
          ∧ (r.valid = none → field 0x30 8 ≠ 0 → reads ((field 0x30 8 + r.row / 8) % 2 ^ 64) 1 (fun b => { r with valid := some (b.testBit (r.row % 8)) }))
          ∧ (r.valid = some false → Ends ev s (fun t => becomes { r with row := r.row + 1, valid := none } t ∧ SameMemory s t))
          ∧ (r.valid = some true → reads score size (fun b =>
              let sc := r.scores ++ [widenScore (field 0x0F 1) b]
              let row := routeRow sc (field 0x0E 1)
              if sc.length = nexp then { r with row := r.row + 1, valid := none, scores := [], outs := routeOuts e r.row row
                                                hist := row.foldl (fun h p => if p.1 = 0xFFFF then h else sset h p.1 (sget 0 h p.1 + 1)) r.hist }
              else { r with scores := sc })))
      ∧ (r.outs = [] → rows ≤ r.row → r.histDone = false →
          (r.hlocs.length < nexp →
            (∀ f, lookup s d r.pass.tctx count true = .fault f → Ends ev s (fun t => becomes { r with fault := some (r.row - 1, f.code) } t ∧ SameMemory s t))
            ∧ ∀ l, lookup s d r.pass.tctx count true = .loc l → ReachesFrom s d r.pass.tctx (.unit d) count 4 l → Ends ev s (fun t => becomes { r with hlocs := r.hlocs ++ [l] } t ∧ SameMemory s t))
          ∧ (nexp ≤ r.hlocs.length → ∀ l, r.counts < nexp → r.hlocs[r.counts]? = some l → HomeWf s l →
              ((field 0x28 8 + 4 * r.counts) % 8 ≠ 0 ∨ nexp = r.counts + 1) → Ends ev s (fun t => Stored s t l (natBytes 4 (sget 0 r.hist r.counts))
                ∧ ∃ n, becomes { r with counts := r.counts + n, histDone := decide (nexp ≤ r.counts + n) } t ∧ (nexp ≠ r.counts + 1 → n = 1)))
          ∧ (nexp ≤ r.hlocs.length → ∀ l m, (field 0x28 8 + 4 * r.counts) % 8 = 0 → r.counts + 1 < nexp → r.hlocs[r.counts]? = some l → r.hlocs[r.counts + 1]? = some m → HomeWf s l → HomeWf s m →
              Ends ev s (fun t => becomes { r with counts := r.counts + 2, histDone := decide (nexp ≤ r.counts + 2) } t
                ∧ ∃ z, Stored s z l (natBytes 4 (sget 0 r.hist r.counts)) ∧ Stored z t m (natBytes 4 (sget 0 r.hist (r.counts + 1)))))))
  ∧ (∀ (sc : List (BitVec 32)) (k : Nat),
      let v (i : Nat) : FVal := readVal .f32 ((sc[i]?).getD 0).toNat
      let better (i j : Nat) : Prop := (v j).lt (v i) = true ∨ ((v i).lt (v j) = false ∧ i < j)
      let cand := (List.range sc.length).filter (fun i => !(v i).isNan)
      let sel := bestK sc k []
      let m := (sc[sel.headD 0]?).getD 0
      let w (j : Nat) : Nat := match v (sel.headD 0) with
        | .inf true => 0x3F800000
        | .inf false => if v j = .inf false then 0x3F800000 else 0
        | _ => let diff := add32 .rne ((sc[j]?).getD 0).toNat (m ^^^ 0x80000000).toNat
               exp2F true (BitVec.ofNat 32 (writeVal .f32 .rne false (FVal.mul (readVal .f32 diff) (readVal .f32 0x3FB8AA3B))))
      let sum := (cand.filter (fun j => sel.contains j)).foldl (fun a j => add32 .rne a (w j)) 0
      sel.length = min k cand.length ∧ sel.Nodup ∧ (∀ i ∈ sel, i ∈ cand) ∧ sel.Pairwise better ∧ (∀ i ∈ sel, ∀ j ∈ cand, j ∉ sel → better i j)
      ∧ (routeRow sc k).length = k ∧ (∀ i, i < k → (routeRow sc k)[i]? = some (match sel[i]? with | some j => (j, div32 (w j) sum) | none => (0xFFFF, 0))))
  ∧ (∀ (e : BitVec 512) (r : Nat) (row : List (Nat × Nat)), row.length ≤ 8 →
      let piece (base : Nat) (bs : List Byte) : List (Nat × List Byte) := (List.range ((bs.length + 7) / 8)).map (fun j => (base + 8 * j, (bs.drop (8 * j)).take 8))
      routeOuts e r row = piece ((e.toNat / 2 ^ (8 * 0x18) % 2 ^ 64 + 16 * r) % 2 ^ 64) (row.flatMap (fun p => natBytes 2 p.1))
        ++ piece ((e.toNat / 2 ^ (8 * 0x20) % 2 ^ 64 + 32 * r) % 2 ^ 64) (row.flatMap (fun p => natBytes 4 p.2)))
  ∧ (∀ b, widenScore 0 b = BitVec.ofNat 32 b ∧ widenScore 1 b = BitVec.ofNat 32 (writeVal .f32 .rne false (readVal .f16 b)) ∧ widenScore 2 b = BitVec.ofNat 32 (writeVal .f32 .rne false (readVal .bf16 b)))
  ∧ (s.hub.serving.isSome = true ∨ s.hub.repReqs = [] → exec .replicationServe s = .next s)
  ∧ (∀ o e at_ reqs, s.hub.repReqs = (o, e, at_) :: reqs → (s.now ≤ at_ ∨ ∃ i, i < 8 ∧ 64 ≤ (s.die i).updates.length) → exec .replicationServe s = .next s)
  ∧ (∀ o e at_ reqs, s.hub.serving = none → s.hub.repReqs = (o, e, at_) :: reqs → at_ < s.now → (∀ i, i < 8 → (s.die i).updates.length < 64) →
      (newestDies s o e = none → exec .replicationServe s = .next (s.modHub (fun h => { h with repReqs := reqs })))
      ∧ (∀ p l t, newestDies s o e = some (p :: l) → l.length < 7 → replicaTarget s (p :: l) = some t →
          exec .replicationServe s = .next ((s.modHub (fun h => { h with repReqs := reqs, serving := some (e, t) })).modDie t (fun x => { x with rcopy := some ⟨e, t, p, 0, []⟩, rcopyFault := false }))))
  ∧ (s.hub.serving = none → exec .replicationCopyDone s = .next s)
  ∧ (∀ e t r, s.hub.serving = some (e, t) → (s.die t).rcopy = some r →
      ((s.die t).rcopyFault = false → r.pos < (s.die t).xsz.toNat → exec .replicationCopyDone s = .next s)
      ∧ ((s.die t).rcopyFault = true → Ends .replicationCopyDone s (fun u => u.hub = { s.hub with serving := none } ∧ (∀ d, (u.die d).updates = (s.die d).updates) ∧ SameMemory s u))
      ∧ ((s.die t).rcopyFault = false → (s.die t).xsz.toNat ≤ r.pos → Ends .replicationCopyDone s (fun u => u.hub = { s.hub with serving := none }
          ∧ (∀ d, d < 8 → (u.die d).updates = (s.die d).updates ++ [(e, t)]) ∧ (u.die t).rcopy = none ∧ SameMemory s u)))
  ∧ (x.updates = [] → exec (.replicaUpdateApply d) s = .next s)
  ∧ (∀ e t us, x.updates = (e, t) :: us → x.oldCaptures.all (isComplete s) = false → exec (.replicaUpdateApply d) s = .next s)
  ∧ (∀ e t us u b w, x.updates = (e, t) :: us → x.oldCaptures.all (isComplete s) = true → x.applied = true →
      let p := x.tableAt (!x.live) + 16 * e
      readNow s d x.repctx.toNat p 16 = (u, .ok b) → writeNow u d x.repctx.toNat p (BitVec.ofNat 8 (fieldAt b 0 1 + 1) :: ((b.set (2 + fieldAt b 0 1) (BitVec.ofNat 8 t)).drop 1)) = (w, none) →
      exec (.replicaUpdateApply d) s = .next (w.modDie d (fun x => { x with updates := us, applied := true })))

/-- 07 R113-R118, 01 R13, 26 R354-R358, 17 R296-R298. The trickle cleans the lowest dirty block, of SRAM or of the other state; a core whose commands can finish commits and is gated; its wake takes 33,968 cycles, after which it goes on from its newest complete commit; a rail switch holds its cluster until it is done, and a write meanwhile waits for it. A die whose supply fails begins its hold-up: its cores stop, and the window stays open for 2048 cycles or until nothing of them is in flight; a store that misses it is lost and recorded, a returning atomic receives all ones, a load is made again; then the die loses its registers and the contents of its stacks, and its cores commit with CAUSE 2, or their hold-up runs out and tears the block it has come to, or the record. At the return its cores with cellar state are held, and the host is told once, until it wakes or drops them; at power-on the module boots, or refuses an image it does not accept. The model's choices: when the window closes early and how long a core's drain takes (log 21), what wakes a gated core and how (log 23), what a cut waits for (log 46), the block that an exhausted hold-up tears (log 47), and the order of a return (log 48). -/
def Obligations.PowerEvents : Prop := ∀ (s : State) (c k d g q : Nat) (cause : WakeCause) (v : Word) (rest : List CtxOp) (b : BootImage),
  let u := popOp s c k
  let m := (s.core c).cellar
  let awake : Prop := (s.die (dieOf c)).power = true ∧ s.hub.bootst = 1
  ((s.core c).dirtyBlocks = [] ∨ (s.core c).gate ≠ .on ∨ (s.cluster (clusterOf c)).busy = true → exec (.trickleWrite c) s = .next s)
  ∧ (∀ n ns, (s.core c).dirtyBlocks = n :: ns → (s.core c).gate = .on → (s.cluster (clusterOf c)).busy = false → Ends (.trickleWrite c) s (fun t =>
      (n < 32768 → (t.core c).cellar.copy n (m.target n) = ⟨m.cg + 1, (s.core c).block n, (s.core c).blockPoison n, 0⟩)
      ∧ (32768 ≤ n → (t.core c).cellar.otherCopy n (m.target n) = ⟨m.cg + 1, (s.core c).other.data (n - 32768), 0⟩)
      ∧ (t.core c).dirtyBlocks = ns ∧ (t.core c).cellar.drained = m.drained + 1 ∧ (t.core c).cellar.cg = m.cg
      ∧ (ns.length ≤ (t.core c).cellar.cap → ∀ f, (t.arch c).freeze = some f → f.cause ≠ .dirtyCap)
      ∧ ((t.core c).cellar.cap < ns.length → (t.arch c).freeze = (s.arch c).freeze) ∧ OnlyCore s t c ∧ SameMemory s t))
  ∧ (∀ n i, m.target n = i → i < 2 ∧ m.chosen m.cg n ≠ some i)
  ∧ ((s.ctx c k).ops = ⟨q, .csrw 0x02A v⟩ :: rest → storesDone s c k q = true →
      let may : Prop := v.getLsbD 0 = true ∧ (s.core c).gate = .on ∧ s.stopFree c = true ∧ (s.core c).killing = false ∧ clocked s c = true
      (¬ may → exec (.coreGate c k) s = .next s)
      ∧ (may → gateHeld s c = true → exec (.coreGate c k) s = .next (s.modCore c (fun k => { k with cutting := true })))
      ∧ (may → gateHeld s c = false → Ends (.coreGate c k) s (fun t => t = (dropAccesses (commitCore u c 0) c).modCore c (fun k => { k with gate := .off })
          ∧ (t.core c).gate = .off ∧ (t.core c).cellar.cg = m.cg + 1 ∧ (t.core c).cellar.dirty = [] ∧ (∀ a ∈ t.accesses, a.core ≠ c) ∧ SameMemory s t)))
  ∧ (gateHeld s c = true ↔ cutHeld s c = true ∨ ∃ a ∈ s.accesses, a.core = c ∧ a.op.isStore = true)
  ∧ ((s.core c).gate ≠ .off ∨ ¬ awake ∨ wakeCause s c cause = false → exec (.coreWake c cause) s = .next s)
  ∧ ((s.core c).gate = .off → awake → wakeCause s c cause = true →
      exec (.coreWake c cause) s = .next (s.modCore c (fun k => { k with gate := .waking (s.now + 33968) })))
  ∧ ((wakeCause s c .access = true ↔ (∃ p ∈ s.arrived, p.1 = c ∧ (p.2 = .other ∨ partyWaits s p.2 = true)) ∨ (∃ a ∈ s.accesses, a.core ≠ c ∧ a.loc.home = c)
        ∨ ∃ p ∈ s.cores, p.1 ≠ c ∧ ((∃ e, e ≠ .cp ∧ ∃ j ∈ (s.eng p.1 e).flight, cmdHeads s p.1 c j = true) ∨ barrierHeads s p.1 c = true))
      ∧ (wakeCause s c .arrival = true ↔ ∃ x ∈ s.messages, x.dst / 4194304 = c)
      ∧ (∀ r, s.run c = some r → (wakeCause s c .placement = true ↔ r.ready = false)))
  ∧ (∀ n, (s.core c).gate = .waking n → s.now < n → exec (.wakeComplete c) s = .next s)
  ∧ (∀ n, (s.core c).gate = .waking n → n ≤ s.now → Ends (.wakeComplete c) s (fun t =>
      ∃ z, z = goOn (s.modCore c (fun k => { k.select k.cellar.selectGen with gate := .on, cellar := { (k.select k.cellar.selectGen).cellar with state := k.cellar.state } })) c
        ∧ t = { z with arrived := z.arrived.filter (fun p => p != (c, .other)) }))
  ∧ (m.selectGen = max (if m.rec0.crc = 0 then m.rec0.gen else 0) (if m.rec1.crc = 0 then m.rec1.gen else 0))
  ∧ ((s.ctx c k).ops = ⟨q, .csrw 0x100 v⟩ :: rest → storesDone s c k q = true →
      let x := s.cluster (clusterOf c);
      (x.busy = true → exec (.railSwitchStart c k) s = .next (u.modCluster (clusterOf c) (fun x => { x with waiting := some (v.getLsbD 0) })))
      ∧ (x.busy = false → x.sel = v.getLsbD 0 → exec (.railSwitchStart c k) s = .next u)
      ∧ (x.busy = false → x.sel ≠ v.getLsbD 0 → exec (.railSwitchStart c k) s =
          .next (u.modCluster (clusterOf c) (fun x => { x with sel := v.getLsbD 0, busy := true, switchAt := s.now, waiting := none }))))
  ∧ (let x := s.cluster g;
      (x.busy = false → exec (.railSwitchDone g) s = .next s)
      ∧ (x.busy = true → (x.waiting = none ∨ x.waiting = some x.sel) → exec (.railSwitchDone g) s = .next (s.modCluster g (fun x => { x with busy := false, waiting := none })))
      ∧ (x.busy = true → x.waiting = some (!x.sel) → exec (.railSwitchDone g) s = .next (s.modCluster g (fun x => { x with sel := !x.sel, busy := true, switchAt := s.now, waiting := none }))))
  ∧ ((s.clusters.map (fun p => p.1)).Nodup → ∀ x, (g, x) ∈ s.clusters → (boundSwitches s).cluster g = if x.busy = true ∧ x.switchAt + 24 ≤ s.now then (endSwitch s g).cluster g else x)
  ∧ ((s.die d).power = false ∨ (s.die d).holdup.isSome = true → exec (.powerLoss d) s = .next s)
  ∧ ((s.die d).power = true → (s.die d).holdup = none →
      let rails := { s with clusters := s.clusters.map (fun p => if p.1 / 8 = d then (p.1, { p.2 with sel := false, busy := false, waiting := none }) else p) }
      Ends (.powerLoss d) s (fun t => (t.die d).holdup = some s.now ∧ t = (((List.range 64).map (fun i => 64 * d + i)).foldl holdupStart rails).modDie d (fun x => { x with holdup := some s.now })))
  ∧ (∀ n, (s.die d).holdup = some n → (s.die d).power = true →
      let inFlight : Prop := (∃ a ∈ s.accesses, dieOf a.core = d) ∨ (∃ r ∈ s.replies, dieOf r.core = d) ∨ (∃ x ∈ s.messages, dieOf x.core = d) ∨ (∃ x ∈ s.retries, dieOf x.core = d)
        ∨ ∃ p ∈ s.cores, dieOf p.1 = d ∧ ∃ e, e ≠ .cp ∧ ∃ j ∈ (s.eng p.1 e).flight, j.acks ≠ []
      ((n + 2048 ≤ s.now ∨ ¬ inFlight) → ∀ t, t = holdupCycle s d →
        (t.die d).power = false ∧ (t.die d).tlb = [] ∧ (t.die d).pool = [] ∧ (t.die d).landing = [] ∧ (∀ p ∈ t.hbm, p.1 / 2 ^ 38 ≠ d) ∧ ∀ a ∈ t.messages, dieOf a.core ≠ d)
      ∧ (s.now < n + 2048 → inFlight → holdupCycle s d = s))
  ∧ (∀ a : Access, a.ctx < 4 → ∀ t, t = missWindow s a →
      let x := s.ctx a.core a.ctx
      let fails := x.fails ++ [⟨a.cls, a.loc.home, true⟩];
      (∀ w, a.op = .store w → t.ctx a.core a.ctx = { x with fails := fails })
      ∧ (∀ op w e, a.op = .atomic op w e true → t.ctx a.core a.ctx = { x.setX a.xd (-1) with fails := fails, busy := x.busy.erase a.xd, holds := if a.hold then x.holds - 1 else x.holds })
      ∧ (∀ sg, a.op = .load sg → t.ctx a.core a.ctx = { x with reissue := x.reissue ++ [a] })
      ∧ OnlyCtx s t a.core a.ctx)
  ∧ ((s.core c).gate = .holdup → ∀ t, t = holdupCommit s c → (t.core c).gate = .off ∧ (t.core c).cellar.cg = m.cg + 1 ∧ (t.core c).cellar.dirty = []
      ∧ (let r := if (m.cg + 1) % 2 = 0 then (t.core c).cellar.rec0 else (t.core c).cellar.rec1
         r.gen = m.cg + 1 ∧ r.core = c ∧ r.cause = 2 ∧ r.cycle = s.now ∧ r.crcOk = true) ∧ OnlyCore s t c)
  ∧ ((s.core c).gate ≠ .holdup ∨ (s.die (dieOf c)).power = true → exec (.holdupExhausted c g) s = .next s)
  ∧ ((s.core c).gate = .holdup → (s.die (dieOf c)).power = false → Ends (.holdupExhausted c g) s (fun t => (t.core c).gate = .off ∧ (t.core c).cellar.dirty = [] ∧ (t.core c).cellar.exh = true
      ∧ (t.core c).cellar.cg = m.cg
      ∧ (let dirty := ((s.core c).noteOther (cutOther s c)).cellar.dirty
         ((∀ x ∈ dirty, x < g) → (if (m.cg + 1) % 2 = 0 then (t.core c).cellar.rec0 else (t.core c).cellar.rec1).crcOk = false)
         ∧ (∀ x, dirty.find? (fun x => decide (g ≤ x)) = some x → (if x < 32768 then ((t.core c).cellar.copy x (m.target x)).crcOk else ((t.core c).cellar.otherCopy x (m.target x)).crcOk) = false))
      ∧ t = s.modCore c (fun k => k.tear (cutOther s c) g c s.now)))
  ∧ ((s.die d).power = true ∨ (∀ i, i < 8 → (s.die i).power = false) → exec (.powerReturn d) s = .next s)
  ∧ ((s.die d).power = false → (∃ i, i < 8 ∧ (s.die i).power = true) →
      let t := ((List.range 64).map (fun i => 64 * d + i)).foldl returnCore (s.modDie d (fun x => { x with power := true, holdup := none }));
      ((∀ i, i < 64 → (t.core (64 * d + i)).gate ≠ .held) → exec (.powerReturn d) s = .next t)
      ∧ (∀ i, i < 64 → (t.core (64 * d + i)).gate = .held → exec (.powerReturn d) s = .next (raiseVector t 4098)))
  ∧ (¬ awake ∨ (s.core c).gate = .on → exec (.wakeWrite c) s = .next s)
  ∧ (awake → (s.core c).gate = .off → exec (.wakeWrite c) s = .next (s.modCore c (fun k => { k with gate := .waking (s.now + 33968) })))
  ∧ (awake → (s.core c).gate = .held → m.archLost m.selectGen = true → exec (.wakeWrite c) s = .next s)
  ∧ (awake → (s.core c).gate = .held → m.archLost m.selectGen = false → s.run c = none → Ends (.wakeWrite c) s (fun t =>
      let x := ((loseStores s c m.selectGen).modCore c (fun k => { ((k.select m.selectGen).streams []) with gate := .on })).modArch c (fun a =>
        { a with run := a.run.map (fun r => { r with stampUsed := none }), parked := a.parked.map (fun p => { p with run := { p.run with stampUsed := none } }) })
      t = raiseVector (goOn (x.modCluster (clusterOf c) (fun y => { y with pantry := y.pantry - blocksOf (x.seqs c) })) c) 4099))
  ∧ ((s.core c).gate = .held → m.state = 1 → (s.die (dieOf c)).power = true → exec (.cellarDrop c) s = .next (lostParts (loseStores (s.modCore c Core.fresh) c 0) c []))
  ∧ (∀ n o j, o ≠ c → ((loseStores s c n).ctx o j).written = (s.ctx o j).written.map (fun w => if w.1 = c ∧ n < w.2 then (c, 2 ^ 64) else w))
  ∧ (∀ o, unreachable s o k c = true ↔ (c, 2 ^ 64) ∈ (s.ctx o k).written ∨ (c ≠ o ∧ (pathIn s (dieOf o) (dieOf c) 3 = true ∨ (s.die (dieOf c)).power = false
      ∨ (s.core c).gate = .holdup ∨ (s.core c).gate = .held)))
  ∧ ((s.core c).gate ≠ .held ∨ m.state ≠ 1 ∨ (s.die (dieOf c)).power = false → exec (.cellarDrop c) s = .next s)
  ∧ (let good : Prop := b.firmwareOk = true ∧ b.blockOk = true ∧ b.minimum ≤ b.version
      let boots (h : Hub) : Hub := { h with
        bootst := 1, moduleNumber := b.moduleNumber, firmware := b.firmware, block := b.block
        routes := b.routes.foldl (fun r p => sset r p.1 p.2) [], imports := b.imports.foldl (fun r p => sset r p.1 p.2) [] }
      (s.hub.bootst ≠ 0 → (∃ i, i < 8 ∧ (s.die i).power = true) → exec (.powerOnBoot b) s = .next s)
      ∧ (s.hub.bootst = 0 → (∃ i, i < 8 ∧ (s.die i).power = true) →
        (good → exec (.powerOnBoot b) s = .next (s.modHub boots))
        ∧ (¬ good → Ends (.powerOnBoot b) s (fun t => t.hub = { s.hub with bootst := 2, bootcode := Config.bootRefusal s.free } ∧ t = { s with hub := t.hub, free := s.free + 1 })))
      ∧ ((∀ i, i < 8 → (s.die i).power = false) → good → exec (.powerOnBoot b) s = .next (returnDies ((powerOn s).modHub boots) (List.range 8))))

/-- 17 R293, R299-R301, 25 R345-R353, 23 R319. The host starts the trust command that TMBOX holds unless one runs; its end takes its effect on the keys, frees the mailbox and raises vector 4096; the power hub moves its floor level every 1200 cycles by the sum of the cores' estimates; a sampled core writes 32 bytes once per period; SRAM errors freeze the core for 24 cycles or poison a place, HBM errors count or leave a word bad; a link retrains after 16 mismatches within 1024 flits or a flit that stays unacknowledged, comes up again, is tried again, and is dead after three failures or 12,000 cycles, when the replies on their way over it are lost; a port is disabled and retrained; the error counters are cleared. The model's choices: the places of the trust commands' arguments and their bytes (log 16), the key of samples (log 19), the least sample period (log 62), what PORT_RETRAIN and an external port count (log 63), what a dead link loses (log 69), and the flits between two mismatches as a free value, with mismatches of before the last retraining not counted (log 92). -/
def Obligations.TrustMonitorErrors : Prop := ∀ (s : State) (c d pa p : Nat) (l : Link) (place : SramPlace) (o : EccOutcome),
  let n := mboxNat s.hub 0 4
  let x := s.link l;
  (n ≠ 1 → exec .attest s = .next s) ∧ (n ≠ 2 → exec .keyload s = .next s) ∧ (n ≠ 3 → exec .keyclr s = .next s)
  ∧ (∀ i, (n = 1 ∧ i = .attest) ∨ (n = 2 ∧ i = .keyload) ∨ (n = 3 ∧ i = .keyclr) → Ends i s (fun t => OnlyHub s t
      ∧ (s.hub.trust = none → t.hub.trust = mboxCommand s.hub) ∧ (s.hub.trust.isSome = true → t.hub.trust = s.hub.trust)))
  ∧ (s.hub.trust = none → exec .trustCommandDone s = .next s)
  ∧ (∀ k, s.hub.trust = some k → Ends .trustCommandDone s (fun t => t.hub.trust = none ∧ t.free = s.free + 1 ∧ t = { s with hub := t.hub, free := t.free }
      ∧ (∀ i, i < 8192 → sget (.boot i) t.hub.keys i = (match k with
          | .keyload j w => if i = j then .loaded (Config.unwrapKey w) else s.key i
          | .keyclr j => if i = j then .fresh s.hub.keySerial else s.key i
          | .attest _ => s.key i))
      ∧ (∀ nonce, k = .attest nonce → ∀ i, i < 247 → mboxByte t.hub (8 + i) =
          (Config.attestReport nonce s.hub.firmware s.hub.block s.hub.moduleNumber).getD i (mboxByte s.hub (8 + i)))
      ∧ ((sget {} s.hub.vectors 4096).mask = true → (sget {} t.hub.vectors 4096).pend = true)
      ∧ ((sget {} s.hub.vectors 4096).mask = false → t.hub.posted = s.hub.posted ++ [((sget {} s.hub.vectors 4096).addr, (sget {} s.hub.vectors 4096).data)])))
  ∧ (let high := max 1 (Config.powerEstimate s.free c).toNat;
      ((s.cluster (clusterOf c)).sel = true → coreEstimate s c < high) ∧ ((s.cluster (clusterOf c)).sel = false → coreEstimate s c = high))
  ∧ (s.now < s.hub.powerAt + 1200 → exec .powerHubTick s = .next s)
  ∧ (s.hub.powerAt + 1200 ≤ s.now → Ends .powerHubTick s (fun t => t.free = s.free + 1 ∧ t = { s with hub := t.hub, free := t.free } ∧
      let sum := ((List.range 512).map (coreEstimate s)).sum
      let limit := s.hub.plimit.toNat
      t.hub = { s.hub with level := t.hub.level, powerAt := s.hub.powerAt + 1200 }
      ∧ (limit < sum → s.hub.level.toNat ≤ 4 → t.hub.level.toNat = min 4 (s.hub.level.toNat + 1))
      ∧ (10 * sum < 9 * limit → t.hub.level.toNat = s.hub.level.toNat - 1)
      ∧ (sum ≤ limit → 9 * limit ≤ 10 * sum → t.hub.level = s.hub.level)))
  ∧ (s.hub.sampEn = false ∨ s.hub.bootst ≠ 1 ∨ (s.die (dieOf c)).power = false ∨ s.now < sget 0 s.hub.sampAt c → exec (.monitorSample c) s = .next s)
  ∧ (s.hub.sampEn = true → s.hub.bootst = 1 → (s.die (dieOf c)).power = true → sget 0 s.hub.sampAt c ≤ s.now → Ends (.monitorSample c) s (fun t =>
      let q := sget 0 s.hub.sampSeq c
      let at_ := s.hub.sampbuf.toNat / 4096 % 2 ^ 29 * 4096 + 32 * (s.hub.samphead.toNat % 2 ^ (s.hub.sampbuf.toNat % 256))
      let pc := if q < 4 then (s.ctx c q).pc.toNat else if q = 4 then (s.eng c .ld).pc else if q = 5 then (s.cp c).pc else (s.eng c .st).pc
      let bytes := natBytes 8 s.now ++ natBytes 2 c ++ natBytes 1 q ++ natBytes 1 0 ++ natBytes 4 pc
        ++ natBytes 2 (coreEstimate s c) ++ natBytes 14 0
      t.hub = { s.hub with samphead := s.hub.samphead + 1, sampSeq := sset s.hub.sampSeq c ((q + 1) % 7), sampAt := sset s.hub.sampAt c (s.now + max 256 s.hub.sampPeriod.toNat) }
      ∧ t = { (if physOk s at_ bytes.length then s.hbmWrite s.hub.apkey.toNat at_ bytes else s) with hub := t.hub, free := s.free + 1 }))
  ∧ ((s.core c).gate ≠ .on → exec (.sramCorrectable c) s = .next s ∧ exec (.sramUncorrectable c place) s = .next s)
  ∧ ((s.core c).gate = .on → Ends (.sramCorrectable c) s (fun t =>
      (t.arch c) = { s.arch c with freeze := some (match (s.arch c).freeze with | some f => { f with until_ := s.now + 24 } | none => ⟨.sram, s.now, s.now + 24⟩) }
      ∧ (t.die (dieOf c)) = { s.die (dieOf c) with sramc := satInc (s.die (dieOf c)).sramc } ∧ SameMemory s t))
  ∧ ((s.core c).gate = .on → exec (.sramUncorrectable c place) s = .next (s.modCore c (fun k => k.errorAt place)))
  ∧ ((s.core c).gate = .on → (∀ g, Ends (.sramUncorrectable c (.spad g)) s (fun t => (∀ x, x ∈ (t.core c).poisonSpad ↔ x ∈ (s.core c).poisonSpad ∨ x = g % 65536) ∧ OnlyCore s t c ∧ SameMemory s t))
      ∧ (∀ g, Ends (.sramUncorrectable c (.vreg g)) s (fun t => (∀ x, x ∈ (t.core c).poisonVrf ↔ x ∈ (s.core c).poisonVrf ∨ x = g % 16384) ∧ OnlyCore s t c ∧ SameMemory s t))
      ∧ (∀ a e, a < 64 → e < 4096 → Ends (.sramUncorrectable c (.acc a e)) s (fun t =>
          sget {} (sget {} (t.core c).acc a).elems e = (sget {} (sget {} (s.core c).acc a).elems e).setF fPsn ∧ OnlyCore s t c ∧ SameMemory s t)))
  ∧ (∀ f, (s.arch c).freeze = some f → (f.cause ≠ .sram ∨ s.now < f.until_) → exec (.sramFreezeEnd c) s = .next s)
  ∧ (∀ f, (s.arch c).freeze = some f → f.cause = .sram → f.until_ ≤ s.now → exec (.sramFreezeEnd c) s = .next (s.modArch c (fun a => { a with freeze := none })))
  ∧ (physOk s pa 1 = false ∨ pa / 32 ∈ s.hbmBad → exec (.patrolScrub pa o) s = .next s)
  ∧ (physOk s pa 1 = true → pa / 32 ∉ s.hbmBad →
      let mended := { s with hbmSoft := s.hbmSoft.filter (fun w => w != pa / 32) }
      let counted := mended.modDie (pa / 2 ^ 38) (fun d => { d with hbmc := satInc d.hbmc });
      (pa / 32 ∉ s.hbmSoft → exec (.patrolScrub pa .clean) s = .next s) ∧ (pa / 32 ∈ s.hbmSoft → exec (.patrolScrub pa .clean) s = .next counted)
      ∧ exec (.patrolScrub pa .corrected) s = .next counted
      ∧ Ends (.patrolScrub pa .uncorrectable) s (fun t => (∀ w, w ∈ t.hbmBad ↔ w ∈ s.hbmBad ∨ w = pa / 32) ∧ t = { mended with hbmBad := t.hbmBad, hbmMended := s.hbmMended.filter (fun p => p.1 != pa / 32) }))
  ∧ (let n := x.flit + (Config.flitsBetween s.free).toNat + 1
      let many : Prop := ∃ a, x.mismatches[15]? = some a ∧ x.flit < a + 1024;
      (many ↔ manyMismatches x = true)
      ∧ (many → addMismatch (Config.flitsBetween s.free).toNat x = x)
      ∧ (¬ many → addMismatch (Config.flitsBetween s.free).toNat x = { x with flit := n, mismatches := (n :: x.mismatches).take 16 }))
  ∧ (let y := { (s.modLink l (addMismatch (Config.flitsBetween s.free).toNat)) with free := s.free + 1 };
      (∀ d, l = .die d → exec (.flitCrcMismatch l) s = .next (y.modDie d (fun x => { x with flitr := satInc x.flitr })))
      ∧ (∀ p, l = .port p → exec (.flitCrcMismatch l) s = .next y))
  ∧ (x.state ≠ 1 ∨ (manyMismatches x = false ∧ linkStale s l = false) → exec (.linkRetrain l) s = .next s)
  ∧ (x.state = 1 → (manyMismatches x = true ∨ linkStale s l = true) → Ends (.linkRetrain l) s (fun t =>
      t.link l = { x with state := 2, retrains := satInc x.retrains, failures := 0, mismatches := [], since := s.now } ∧ OnlyHub s t))
  ∧ (∀ a ∈ s.accesses, ∀ d, l = .die d → (dieOf a.core = d ↔ a.loc.die ≠ d) → a.arrived = false → (a.loc.home, Arriver.access a.seq) ∉ s.arrived → a.issued + 4096 ≤ s.now → linkStale s l = true)
  ∧ (∀ i ∈ s.cores, ∀ e, e ≠ .cp → ∀ k ∈ (s.eng i.1 e).flight, p ∈ k.acks → k.dequeuedAt + 4096 ≤ s.coreTime i.1 → linkStale s (.port p) = true)
  ∧ (linkStale s l = true → (∃ a ∈ s.accesses, a.issued + 4096 ≤ s.now) ∨ ∃ i ∈ s.cores, ∃ e, e ≠ .cp ∧ ∃ k ∈ (s.eng i.1 e).flight, k.dequeuedAt + 4096 ≤ s.coreTime i.1)
  ∧ (x.state ≠ 2 ∨ 3 ≤ x.failures → exec (.linkRetrainDone l true) s = .next s ∧ exec (.linkRetrainDone l false) s = .next s)
  ∧ (x.state = 2 → x.failures < 3 → Ends (.linkRetrainDone l true) s (fun t =>
      t.link l = { x with state := 1, failures := 0, peer := (match l with | .port p => Config.peerModule p s.free | .die _ => 0xFFFF) }
      ∧ t.free = s.free + 1 ∧ t = { s with hub := t.hub, free := t.free }))
  ∧ (x.state = 2 → x.failures < 2 → Ends (.linkRetrainDone l false) s (fun t =>
      t.link l = { x with failures := x.failures + 1, retrains := satInc x.retrains, since := s.now } ∧ OnlyHub s t))
  ∧ (x.state = 2 → x.failures = 2 → Ends (.linkRetrainDone l false) s (fun t => t.link l = { x with failures := 3 } ∧ OnlyHub s t))
  ∧ (∀ d, l = .die d → x.state = 2 → (3 ≤ x.failures ∨ x.since + 12000 ≤ s.now) → Ends (.linkDead l) s (fun t => t.link l = { x with state := 3 } ∧ t = { s with hub := t.hub, replies := t.replies }
      ∧ t.replies.length = s.replies.length ∧ ∀ (i : Nat) (r : Reply) (a : Access), s.replies[i]? = some r → r.access = some a → r.fault = none →
          (pathIn t (dieOf a.core) a.loc.die 3 = true → t.replies[i]? = some { r with value := 0, fault := some (faultOf 0x08 6 a.va) })
          ∧ (pathIn t (dieOf a.core) a.loc.die 3 = false → t.replies[i]? = some r)))
  ∧ (x.state ≠ 2 ∨ (x.failures < 3 ∧ s.now < x.since + 12000) → exec (.linkDead l) s = .next s)
  ∧ (let y := s.link (.port p)
      let idle : Prop := ∀ i ∈ s.cores, ∀ e, ∀ k ∈ (s.eng i.1 e).flight, p ∉ k.acks
      (idle → y.state = 2 → (3 ≤ y.failures ∨ y.since + 12000 ≤ s.now) → Ends (.linkDead (.port p)) s (fun t =>
          t.link (.port p) = { y with state := 3 } ∧ t.hub.outbound = s.hub.outbound.filter (fun o => o.port != p) ∧ OnlyHub s t))
      ∧ (((y.state = 0 ∨ y.state = 3) ∧ y.disable = false) → Ends (.portRetrainWrite p) s (fun t =>
          t.link (.port p) = { y with state := 2, retrains := satInc y.retrains, failures := 0, since := s.now } ∧ OnlyHub s t))
      ∧ ((y.state = 1 ∨ y.state = 2 ∨ y.disable = true) → exec (.portRetrainWrite p) s = .next s)
      ∧ (idle → Ends (.portDisableWrite p true) s (fun t => t.link (.port p) = { y with disable := true, state := 0 } ∧ t.hub.outbound = s.hub.outbound.filter (fun o => o.port != p) ∧ OnlyHub s t))
      ∧ Ends (.portDisableWrite p false) s (fun t => t.link (.port p) = { y with disable := false } ∧ OnlyHub s t))
  ∧ exec (.errcntClear d) s = .next (s.modDie d (fun x => { x with sramc := 0, resid := 0, hbmc := 0, flitr := 0 }))

/-- 24 R326, R333-R337, 17 R292, R293, 05 R79, 11 R167. HALT, STEP, RESUME and KILL of a core; the acknowledgement of the fault log; a vector is masked, or unmasked, which sends its pending write; the host reads and writes memory through the apertures, and waits at a slice that is off or behind a link that retrains; a CSRW whose turn has come is performed, and a write to a register window has its register's effect. -/
def Obligations.DebuggerAndHost : Prop := ∀ (s : State) (c party n pa : Nat) (qhold : Bool) (v : BitVec 64) (ctl : BitVec 32) (bs : List Byte) (w : RegWrite),
  let dbg := (s.core c).dbg;
  (dbg.stepping = false → exec (.dbgHalt c qhold) s = .next (s.modCore c (fun k => { k with dbg := { k.dbg with halt := true, qhold := qhold } })))
  ∧ (dbg.stepping = true → Ends (.dbgHalt c qhold) s (fun t => (t.core c).dbg.halt = true ∧ (t.core c).dbg.qhold = qhold ∧ (t.core c).dbg.stepping = false ∧ SameMemory s t))
  ∧ ((dbg.halt = false ∧ (s.core c).stop = none) ∨ dbg.stepping = true ∨ 6 < party → exec (.dbgStep c party) s = .next s)
  ∧ ((dbg.halt = true ∨ (s.core c).stop.isSome = true) → dbg.stepping = false → party ≤ 6 → (dbg.injV = false ∨ 4 ≤ party ∨ dbg.injecting = true) →
      exec (.dbgStep c party) s = .next (s.modCore c (fun k => { k with dbg := { k.dbg with party := BitVec.ofNat 3 party, stepping := true, accepting := none } })))
  ∧ ((dbg.halt = true ∨ (s.core c).stop.isSome = true) → dbg.stepping = false → party < 4 → dbg.injV = true → dbg.injecting = false → Ends (.dbgStep c party) s (fun t =>
      (t.core c).dbg = { dbg with party := BitVec.ofNat 3 party, stepping := true, accepting := none, injecting := true, injCount := 0, injFrom := s.seq, savedPc := (s.ctx c party).pc }
      ∧ t.ctx c party = { s.ctx c party with pc := dbg.injOff.setWidth 64, wait := .none } ∧ OnlyCore s t c ∧ SameMemory s t))
  ∧ ((s.core c).stop = none → exec (.dbgResume c) s = .next s)
  ∧ (∀ st, (s.core c).stop = some st → 0x40 ≤ st.code → st.code ≤ 0x42 → exec (.dbgResume c) s = .next s)
  ∧ (∀ st, (s.core c).stop = some st → (st.code < 0x40 ∨ 0x42 < st.code) → exec (.dbgResume c) s = .next (reportPend (resumeCore s c) c))
  ∧ (s.run c = none → exec (.dbgKill c) s = .next s)
  ∧ (∀ r, s.run c = some r → exec (.dbgKill c) s = .next (killLaunch s r.launch))
  ∧ exec (.fltackWrite v) s = .next (s.modHub (fun h => { h with fltack := v, fltovf := false }))
  ∧ Ends (.vectorControlWrite n ctl) s (fun t => OnlyHub s t ∧
      let x := sget {} s.hub.vectors n;
      (ctl.getLsbD 0 = true → sget {} t.hub.vectors n = { x with mask := true } ∧ t.hub.posted = s.hub.posted)
      ∧ (ctl.getLsbD 0 = false → sget {} t.hub.vectors n = { x with mask := false, pend := false }
          ∧ t.hub.posted = (if x.pend then s.hub.posted ++ [(x.addr, x.data)] else s.hub.posted)))
  ∧ (physOk s pa bs.length = true → exec (.hostApertureAccess (.hbmWrite pa bs)) s = .next (s.hbmWrite s.hub.apkey.toNat pa bs))
  ∧ (physOk s pa bs.length = false → exec (.hostApertureAccess (.hbmWrite pa bs)) s = .next s)
  ∧ (physOk s pa n = true → exec (.hostApertureAccess (.hbmRead pa n)) s = .next ((corrected s (.hbm pa s.hub.apkey.toNat) n).modHub (fun h => { h with hostReads := h.hostReads ++ [s.hbmRead s.hub.apkey.toNat pa n] })))
  ∧ (let ready (n : Nat) : Prop := hallOpen s pa n = true ∧ ∀ h ∈ hallCores pa n, blockedBy s hubEnd (.slice h 0) = none;
      (ready n → exec (.hostApertureAccess (.hallRead pa n)) s = .next (s.modHub (fun h => { h with hostReads := h.hostReads ++ [hallBytes s pa n] })))
      ∧ (ready bs.length → (∀ d, (s.core d).spad.wf = true) → Ends (.hostApertureAccess (.hallWrite pa bs)) s (fun t =>
      (∀ d x, x < 4194304 → memByte (t.core d).spad x = if pa ≤ d * 4194304 + x ∧ d * 4194304 + x < pa + bs.length then bs.getD (d * 4194304 + x - pa) 0 else memByte (s.core d).spad x)
      ∧ ∀ id a, t.hbmByte id a = s.hbmByte id a)))
  ∧ (∀ h, hallOpen s pa n = true → (hallCores pa n).find? (fun c => (blockedBy s hubEnd (.slice c 0)).isSome) = some h →
      exec (.hostApertureAccess (.hallRead pa n)) s = .next (if sliceUp s h then s else arriveAt s h .other))
  ∧ (∀ h, hallOpen s pa bs.length = true → (hallCores pa bs.length).find? (fun c => (blockedBy s hubEnd (.slice c 0)).isSome) = some h →
      exec (.hostApertureAccess (.hallWrite pa bs)) s = .next (if sliceUp s h then s else arriveAt s h .other))
  ∧ (hallOpen s pa bs.length = false → exec (.hostApertureAccess (.hallWrite pa bs)) s = .next s)
  ∧ (physOk s pa n = false → exec (.hostApertureAccess (.hbmRead pa n)) s = .next s)
  ∧ (hallOpen s pa n = false → exec (.hostApertureAccess (.hallRead pa n)) s = .next s)
  ∧ (let reads (a : HostAccess) (word : Nat) : Prop := exec (.hostApertureAccess a) s = .next (s.modHub (fun h => { h with hostReads := h.hostReads ++ [natBytes 8 word] }))
      let q := s.wq n
      let y := s.link (.port n)
      let x := s.die n
      let e := sget {} s.hub.vectors n
      let m := (s.core n).cellar
      reads (.queueRead (32 * n)) (q.base.toNat * 2 ^ 12)
      ∧ reads (.queueRead (32 * n + 8)) (q.inlimit.toNat * 2 ^ 24 + q.ctx.toNat * 2 ^ 12 + q.log2.toNat * 2 ^ 8 + (if q.en then 1 else 0))
      ∧ reads (.queueRead (32 * n + 16)) (q.tail.toNat * 2 ^ 32 + q.head.toNat)
      ∧ reads (.queueRead (32 * n + 24)) (q.badidx.toNat * 2 ^ 32 + q.err.toNat * 2 ^ 8)
      ∧ reads (.ctlRead 0) (s.hub.bootcode.toNat * 2 ^ 8 + s.hub.bootst.toNat)
      ∧ reads (.ctlRead 0x28) s.hub.samphead.toNat
      ∧ (n < 8 → reads (.ctlRead (0x200 + 8 * n)) (x.sramc.toNat * 2 ^ 48 + x.resid.toNat * 2 ^ 32 + x.hbmc.toNat * 2 ^ 16 + x.flitr.toNat))
      ∧ (n < 18 → reads (.ctlRead (0x240 + 8 * n)) (y.retrains.toNat * 2 ^ 48 + y.peer.toNat * 2 ^ 32 + y.state.toNat * 2 ^ 2 + (if y.disable then 2 else 0)))
      ∧ (n < 512 → reads (.ctlRead (0x1000 + 8 * n)) 0)
      ∧ (n < 4160 → reads (.ctlRead (0x2000 + 16 * n)) e.addr.toNat
          ∧ reads (.ctlRead (0x2000 + 16 * n + 8)) (e.data.toNat + (if e.mask then 2 ^ 32 else 0) + (if e.pend then 2 ^ 33 else 0))
          ∧ reads (.ctlRead (0x2000 + 16 * n + 12)) ((if e.mask then 1 else 0) + (if e.pend then 2 else 0)))
      ∧ (n < 512 → reads (.ctlRead (0x18000 + 8 * n)) (m.gen.toNat * 2 ^ 32 + m.bad.toNat * 2 ^ 16 + (if m.exh then 32 else 0) + (if m.torn then 16 else 0) + m.state.toNat)))
  ∧ (c < 512 → let word (off v : Nat) : Prop := exec (.hostApertureAccess (.ctlRead (0x13000 + 32 * c + off))) s = .next (s.modHub (fun h => { h with hostReads := h.hostReads ++ [natBytes 8 v] }))
      let pend := if dbg.pend then 256 else 0;
      word 0 (dbg.party.toNat * 2 ^ 4 + (if dbg.qhold then 8 else 0) + (if dbg.halt then 1 else 0))
      ∧ word 16 ((if dbg.injV then 2 ^ 63 else 0) + dbg.injOff.toNat) ∧ word 24 0
      ∧ (dbg.stepping = true → word 8 (pend + 3))
      ∧ (∀ st, dbg.stepping = false → (s.core c).stop = some st → word 8 (st.frame % 8 * 2 ^ 9 + pend + 2))
      ∧ (dbg.stepping = false → (s.core c).stop = none → dbg.halt = true → word 8 (pend + 1))
      ∧ (dbg.stepping = false → (s.core c).stop = none → dbg.halt = false → word 8 pend))
  ∧ (∃ t, exec (.registerWrite w) s = .next t)
  ∧ (n < 4160 → w = .ctl (0x2000 + 16 * n) v → exec (.registerWrite w) s = .next (s.modHub (fun h => { h with vectors := sset h.vectors n { (sget {} h.vectors n) with addr := v } })))
  ∧ (n < 4160 → w = .ctl (0x2000 + 16 * n + 12) v → exec (.registerWrite w) s = exec (.vectorControlWrite n (v.setWidth 32)) s)
  ∧ (∀ c k q m x rest, (s.ctx c k).ops = ⟨q, .csrw m x⟩ :: rest → storesDone s c k q = true → ownStep s c m x = false → w = .csr c k →
      exec (.registerWrite w) s = .next (writeCsr (popOp s c k) c k m x))
  ∧ (w = .queue (32 * n) v → (s.wq n).en = false → exec (.registerWrite w) s = .next (s.modWq n (fun w => { w with base := BitVec.ofNat 52 (v.toNat / 4096) })))
  ∧ (w = .queue (32 * n + 20) v → exec (.registerWrite w) s = exec (.wqtailWrite n (v.setWidth 32)) s)
  ∧ (w = .ctl 8 v → exec (.registerWrite w) s = .next (s.modHub (fun h => { h with apkey := v.setWidth 13 })))
  ∧ (w = .ctl 0x190 v → exec (.registerWrite w) s = exec (.fltackWrite v) s)
  ∧ (∀ d, d < 8 → w = .ctl (0x200 + 8 * d) v → exec (.registerWrite w) s = exec (.errcntClear d) s)
  ∧ (∀ c, c < 512 → w = .ctl (0x1000 + 8 * c) v → exec (.registerWrite w) s = exec (.wakeWrite c) s)

/-- 04 R68, 12 R176, 15 R262, 13 R218 (the agenda is log 1). A turn of a sequencer runs the instruction that its pc names: the SC the word of the context it takes, LD and ST theirs, the CP the instructions of its bundle's slots in order; a turn of the hardware or the host is exec of its operation. What the turn took of its cycle is noted (log 77), and the blocks it wrote are marked dirty (log 24); a turn that must come earlier in its cycle is passed over; one that would pass a core's cap freezes the core or waits (07 R115); one whose access on the spot has to wait is given up (07 R117); a turn that stops its core is taken where no party before it in the order of faults (24 R323) faults too. -/
def Obligations.StepRunsTheDecoded : Prop := ∀ (s : State) (c k : Nat) (i : Instr) (rest : List Turn) (t : State),
  let u := { s with agenda := rest }
  let pc := (s.ctx c k).pc.toNat
  let dbg := (s.core c).dbg
  let first (b : Turn) (t : State) : Prop := ∀ d n, turnParty b = some (d, n) →
    u.stopFree d = false ∨ t.stopFree d = true ∨ ∀ q ∈ [Sequencer.sc, .ld, .cp].take n, faultsNow u d q = false
  let noted (b : Turn) (t : State) : State :=
    let v := if acted u t b then { t with today := t.today ++ turnClaims u b } else t
    noteBlocks v (ownWrites u v b)
  let ends (b : Turn) (t : State) : Prop :=
    let v := noted b t
    let past (d : Nat) : Prop := d ∈ v.cores.map (fun p => p.1) ∧ pastCap u v d = true
    ((∀ d, ¬ past d) → step s = .next v)
    ∧ (∀ d, past d → oversize u v d = false → (turnCore u b = some d → step s = .next (freezeCap u d)) ∧ (∀ e, turnCore u b = some e → ¬ past e → step s = .next u) ∧ (turnCore u b = none → step s = .next u))
  let runs (b : Turn) (t : State) : Prop := first b t → (t.blocked = none → ends b t) ∧ ∀ h, t.blocked = some h → ends b (if h < 512 then arriveAt u h .other else u)
  (s.agenda = .issue c .sc :: rest → tooLate u (.issue c .sc) = false → scPick u c = some k → dbg.injecting = false → dbg.stepping = false → pc < 65536 → pc % 4 = 0 → imPoison s c 3 pc = false →
      decodeSc (bytesNat (memBytes (s.core c).imSc pc 4)) = .ok i → exec i (scBegin u c k) = .next t → runs (.issue c .sc) t)
  ∧ (∀ e, e ≠ .cp → let q : Sequencer := if e = .ld then .ld else .st
      s.agenda = .issue c q :: rest → tooLate u (.issue c q) = false → engReady u c e = true → dbg.stepping = false → (s.eng c e).pc < 8192 → (s.eng c e).skip = none →
      imPoison s c (engUnit e) (2 * (s.eng c e).pc) = false → decodeEngFor e (bytesNat (memBytes (engMem s c e) (2 * (s.eng c e).pc) 2)) = .ok i →
      exec i (u.atEngine c e) = .next t → runs (.issue c q) t)
  ∧ (∀ v tok slots, s.agenda = .issue c .cp :: rest → tooLate u (.issue c .cp) = false → cpReady u c = true → dbg.stepping = false → cpFetch u c = .go v tok slots → runSlots c slots v = .next t →
      runs (.issue c .cp) (closeBundle t c tok))
  ∧ (∀ v tok slots, cpFetch s c = .go v tok slots → let word := bytesNat (memBytes (s.core c).imCp (32 * (s.cp c).pc) 32)
      (∀ b, (s.cp c).rep = none → decodeBundle word = .ok b → slots = [(.c, b.c), (.v, b.v), (.w, b.w), (.m, b.m)] ∧ tok = b.tok)
      ∧ (∀ r, (s.cp c).rep = some r → slots.map (fun p => p.1) = [.c, .v, .w, .m] ∧ tok = Tok.ofCode (word % 16)
          ∧ ∀ sl j, (sl, j) ∈ slots → ∃ w, stepSlot sl r.st (r.n - (s.cp c).repcnt.toNat) (slotField word sl) = some w ∧ decodeSlotWord sl w = .ok j))
  ∧ (s.agenda = .event i :: rest → tooLate u (.event i) = false → encode i = none → exec i u = .next t → runs (.event i) t)
  ∧ (s.agenda = .event i :: rest → (encode i).isSome = true → step s = .fault .notAnEvent)
  ∧ (∀ b, s.agenda = b :: rest → tooLate u b = true → step s = .next u)
  ∧ (s.agenda = [] → (tick s).blocked = none → step s = .next (noteBlocks (tick s) []))

/-- 11 R160-R172. Words written out from the encodings, and the instructions they stand for. -/
def Obligations.WordsDecode : Prop :=
  decodeTableWord 32 0b00000000001100000100001000000000 = some (.add 3 1 2)
  ∧ decodeTableWord 32 0b00000100001100000111111111111111 = some (.addi 3 1 (-1))
  ∧ decodeTableWord 32 0b01000000001100000100000000000010 = some (.beq 3 1 2)
  ∧ decodeTableWord 32 0b01111000011100001000111111111000 = some (.ldd 7 2 3 (-8))
  ∧ decodeTableWord 32 0b10100000010100000100001000110100 = some (.aadd 5 1 2 3 false true)
  ∧ decodeTableWord 32 0b11110000000000000001001001000010 = some (.trap 0x42)
  ∧ decodeTableWord 32 0b11100000001000000000000000101000 = some (.csrr 2 0x028)
  ∧ decodeTableWord 16 0b1000000000000101 = some (.lit 5)
  ∧ decodeTableWord 16 0b0010101000000001 = some (.tile ⟨true, false, true, false⟩ true)
  ∧ decodeTableWord 16 0b0000000101000000 = some .engEnd
  ∧ decodeTableWord 64 0b0000000000000000000000000000000000000000000000000000000000000000 = some .nop
  ∧ decodeTableWord 64 0b0010000000001001011000100000010000000110000010000000000000000000 = some (.vadd 2 2 .f32 .rz 2 3 4)
  ∧ decodeTableWord 64 0b0100000000000000000000000000101000000110000001000000000000000000 = some (.mma 0 5 3 2)

/-- 11 R160-R172, 13 R206-R234, 14 R242-R258, 15 R260-R262. Decode and encode agree: the word of a well-formed instruction decodes to it, with every operand at every value that its field holds; an SC word and an engine word that decode are the words of a well-formed instruction, and so is a slot word, in slot C with its token bits 0. -/
def Obligations.DecodeEncodeAgree : Prop :=
  (∀ (i : Instr) (n w : Nat), i.wf = true → encode i = some (n, w) → decodeTableWord n w = some i)
  ∧ (∀ (w : Nat) (i : Instr), w < 2 ^ 32 → decodeTableWord 32 w = some i → i.wf = true ∧ encode i = some (32, w))
  ∧ (∀ (w : Nat) (i : Instr), w < 2 ^ 16 → decodeTableWord 16 w = some i → i.wf = true ∧ encode i = some (16, w))
  ∧ (∀ (w : Nat) (i : Instr), w < 2 ^ 64 → decodeTableWord 64 w = some i → (i.homeSlot = some .c → w % 16 = 0) → i.wf = true ∧ encode i = some (64, w))

/-- The memories' form (log 7): addresses rise, and no byte is listed that equals what an unlisted address reads as. Every step keeps it, in every state that has it. -/
def Obligations.StepKeepsMemoryForm : Prop := ∀ (s t : State), MemoryWf s → step s = .next t → MemoryWf t

/-- 17 R293, R347, R348, 05 R79, R82, R95, 03 R37, R53, 04 R70, 07 R115, R116, 10 R158, 24 R326, R333. The state after reset: the values that the register tables give, for every register block of a kind; no launch, no access, no message; memory lists nothing, so that by log 7 every byte reads 0, and has its canonical form. The model's choice: the x registers hold 0 (log 12). -/
def Obligations.ResetState : Prop :=
  let s := State.reset
  s.hub.bootst = 0 ∧ s.hub.apkey = 0 ∧ s.hub.plimit = 230400 ∧ s.hub.sampEn = false ∧ s.hub.samphead = 0 ∧ s.hub.ctxbase = 0 ∧ s.hub.savebase = 0 ∧ s.hub.agelimit = 1200000
  ∧ s.hub.fltbase = 0 ∧ s.hub.flthead = 0 ∧ s.hub.fltack = 0 ∧ s.hub.launches = [] ∧ s.hub.posted = []
  ∧ (∀ q, (s.wq q).base = 0 ∧ (s.wq q).inlimit = 0x100000 ∧ (s.wq q).ctx = 0 ∧ (s.wq q).log2 = 4 ∧ (s.wq q).en = false ∧ (s.wq q).head = 0 ∧ (s.wq q).tail = 0 ∧ (s.wq q).err = 0)
  ∧ (∀ p, s.link (.port p) = { state := 0, retrains := 0, peer := 0xFFFF, disable := false, failures := 0, since := 0 })
  ∧ (∀ d, (s.die d).en = false ∧ (s.die d).stepmin = 64 ∧ (s.die d).stepwait = 1200 ∧ (s.die d).stepmax = 1024 ∧ (s.die d).steprec = 0 ∧ (s.die d).steptab = 0 ∧ (s.die d).lsn = 0
      ∧ (s.die d).stepNo = 0 ∧ (s.die d).rtdone = 0xFFFFFFFF ∧ (s.die d).rterr = 0 ∧ (s.die d).repen = false ∧ (s.die d).repthr = 0 ∧ (s.die d).sramc = 0 ∧ (s.die d).flitr = 0)
  ∧ (∀ c n, (s.slot c n).read .pt = 0x7C00 ∧ (s.slot c n).read .pm = 0xFF ∧ (s.slot c n).read .pf = 0 ∧ (s.slot c n).read .pb = 0)
  ∧ (∀ c, s.run c = none ∧ (s.core c).cellar.cap = 2048 ∧ (s.core c).cellar.res = 0 ∧ (s.core c).cellar.dirty = [] ∧ (s.core c).stop = none ∧ (s.core c).dbg = {}
      ∧ (s.cluster (clusterOf c)).pantry = 64 ∧ (s.seqs c).fqCap = 32 ∧ (∀ q, (s.tok c q).count = 0) ∧ ∀ k r, (s.ctx c k).x r = 0)
  ∧ s.accesses = [] ∧ s.replies = [] ∧ s.messages = [] ∧ (∀ c a, memByte (s.core c).spad a = 0) ∧ (∀ id a, s.hbmByte id a = 0) ∧ MemoryWf s
end

