-- ==== Sys2Proof/Laws/Sparse.lean ====
section
/-! SUPPORT. Lemmas about the tables of the state: what a read after a write gives, and that two writes of one entry are one. -/

namespace Sys2Proof.Machine

@[simp] theorem sget_nil {α : Type} (d : α) (n : Nat) : sget d [] n = d := rfl

theorem sget_cons {α : Type} (d v : α) (k : Nat) (l : Sparse α) (n : Nat) :
    sget d ((k, v) :: l) n = if k = n then v else sget d l n := rfl

@[simp] theorem sget_sset_same {α : Type} (d : α) (l : Sparse α) (n : Nat) (v : α) : sget d (sset l n v) n = v := by
  induction l with
  | nil => simp [sset, sget]
  | cons p t ih => obtain ⟨k, w⟩ := p; simp only [sset]; split_ifs <;> simp_all [sget_cons]

theorem sget_sset_ne {α : Type} (d : α) (l : Sparse α) (n m : Nat) (v : α) (h : m ≠ n) :
    sget d (sset l n v) m = sget d l m := by
  induction l with
  | nil => simp [sset, sget_cons, h.symm]
  | cons p t ih =>
    obtain ⟨k, w⟩ := p; simp only [sset]; split_ifs <;> simp_all [sget_cons, eq_comm]

theorem sget_sset {α : Type} (d : α) (l : Sparse α) (n m : Nat) (v : α) :
    sget d (sset l n v) m = if m = n then v else sget d l m := by
  split_ifs with h
  · subst h; simp
  · exact sget_sset_ne d l n m v h

@[simp] theorem sset_sset {α : Type} (l : Sparse α) (n : Nat) (v w : α) : sset (sset l n v) n w = sset l n w := by
  induction l with
  | nil => simp [sset]
  | cons p t ih =>
    obtain ⟨k, u⟩ := p; simp only [sset]; split_ifs with h1 h2
    · simp [sset]
    · simp [sset]
    · simp [sset, h1, h2, ih]

/-- Writing back what is there twice over is writing it once. -/
theorem sset_sget_sset {α : Type} (d : α) (l : Sparse α) (n : Nat) (v : α) :
    sset (sset l n v) n (sget d (sset l n v) n) = sset l n v := by simp

end Sys2Proof.Machine
end

