-- ==== Sys2Proof/Laws/Memory.lean ====
section
/-! SUPPORT. Lemmas about memory: a read after a write, and that every write keeps the canonical form. -/

namespace Sys2Proof.Machine

theorem wfFrom_mono {m : Memory} {lo lo' : Nat} (h : Memory.wfFrom lo m = true) (hl : lo' ≤ lo) : Memory.wfFrom lo' m = true := by
  cases m with
  | nil => rfl
  | cons p t =>
    obtain ⟨a, b⟩ := p
    simp only [Memory.wfFrom, Bool.and_eq_true, decide_eq_true_eq] at h ⊢
    exact ⟨⟨by omega, h.1.2⟩, h.2⟩

theorem memByte_below {m : Memory} {lo a : Nat} (h : Memory.wfFrom lo m = true) (ha : a < lo) : memByte m a = unlisted := by
  induction m generalizing lo with
  | nil => rfl
  | cons p t ih =>
    obtain ⟨k, b⟩ := p
    simp only [Memory.wfFrom, Bool.and_eq_true, decide_eq_true_eq] at h
    have hk : k ≠ a := by omega
    simp only [memByte, sget_cons, if_neg hk]
    exact ih h.2 (by omega)

/-- A write keeps the canonical form. -/
theorem memPut_wfFrom {m : Memory} {lo : Nat} (h : Memory.wfFrom lo m = true) (a : Nat) (b : Byte) (ha : lo ≤ a) :
    Memory.wfFrom lo (memPut m a b) = true := by
  induction m generalizing lo with
  | nil => simp only [memPut]; split_ifs with hb <;> simp [Memory.wfFrom, ha, hb]
  | cons p t ih =>
    obtain ⟨k, v⟩ := p
    simp only [Memory.wfFrom, Bool.and_eq_true, decide_eq_true_eq, bne_iff_ne, ne_eq] at h
    simp only [memPut]
    split_ifs with h1 h2 h3 h4
    · subst h1; exact wfFrom_mono h.2 (by omega)
    · subst h1; simp [Memory.wfFrom, ha, h2, h.2]
    · simp [Memory.wfFrom, h.1.1, h.1.2, h.2]
    · simp only [Memory.wfFrom, Bool.and_eq_true, decide_eq_true_eq, bne_iff_ne, ne_eq]
      exact ⟨⟨ha, h4⟩, ⟨by omega, h.1.2⟩, h.2⟩
    · simp only [Memory.wfFrom, Bool.and_eq_true, decide_eq_true_eq, bne_iff_ne, ne_eq]
      exact ⟨⟨h.1.1, h.1.2⟩, ih h.2 (by omega)⟩

theorem memPut_wf {m : Memory} (h : m.wf = true) (a : Nat) (b : Byte) : Memory.wf (memPut m a b) = true :=
  memPut_wfFrom h a b (Nat.zero_le a)

theorem memPutBytes_wf {m : Memory} (h : m.wf = true) (a : Nat) (l : List Byte) : Memory.wf (memPutBytes m a l) = true := by
  induction l generalizing m a with
  | nil => exact h
  | cons b t ih => exact ih (memPut_wf h a b) (a + 1)

/-- The byte written is read. -/
theorem memByte_memPut_same {m : Memory} {lo : Nat} (h : Memory.wfFrom lo m = true) (a : Nat) (b : Byte) : memByte (memPut m a b) a = b := by
  induction m generalizing lo with
  | nil => simp only [memPut]; split_ifs with hb <;> simp [memByte, sget_cons, hb]
  | cons p t ih =>
    obtain ⟨k, v⟩ := p
    simp only [Memory.wfFrom, Bool.and_eq_true, decide_eq_true_eq] at h
    simp only [memPut]
    split_ifs with h1 h2 h3 h4
    · subst h1; rw [memByte_below h.2 (by omega), h2]
    · simp [memByte, sget_cons]
    · have := memByte_below (m := t) h.2 (a := a) (by omega)
      simp only [memByte, sget_cons, if_neg h1] at this ⊢; rw [this, h4]
    · simp [memByte, sget_cons]
    · have := ih h.2
      simp only [memByte, sget_cons, if_neg h1] at this ⊢; exact this

/-- Every other byte is as it was. -/
theorem memByte_memPut_ne (m : Memory) (a x : Nat) (b : Byte) (hx : x ≠ a) : memByte (memPut m a b) x = memByte m x := by
  induction m with
  | nil => simp only [memPut]; split_ifs <;> simp [memByte, sget_cons, hx.symm]
  | cons p t ih =>
    obtain ⟨k, v⟩ := p
    simp only [memPut]
    split_ifs with h1 h2 h3 h4
    · subst h1; simp [memByte, sget_cons, hx.symm]
    · subst h1; simp [memByte, sget_cons, hx.symm]
    · simp [memByte, sget_cons]
    · simp [memByte, sget_cons, hx.symm]
    · simp only [memByte, sget_cons] at ih ⊢; rw [ih]

theorem memByte_memPutBytes_out (m : Memory) (a x : Nat) (l : List Byte) (hx : x < a ∨ a + l.length ≤ x) :
    memByte (memPutBytes m a l) x = memByte m x := by
  induction l generalizing m a with
  | nil => rfl
  | cons b t ih =>
    simp only [List.length_cons] at hx
    rw [memPutBytes, ih _ _ (by omega), memByte_memPut_ne _ _ _ _ (by omega)]

theorem memByte_memPutBytes_in {m : Memory} (h : m.wf = true) (a : Nat) (l : List Byte) (i : Nat) (hi : i < l.length) :
    memByte (memPutBytes m a l) (a + i) = l[i] := by
  induction l generalizing m a i with
  | nil => simp at hi
  | cons b t ih =>
    rw [memPutBytes]
    cases i with
    | zero =>
      rw [memByte_memPutBytes_out _ _ _ _ (by omega)]
      simpa using memByte_memPut_same h a b
    | succ j =>
      have := ih (memPut_wf h a b) (a + 1) j (by simpa using hi)
      rw [show a + (j + 1) = a + 1 + j by omega, this]; rfl

/-- The bytes written are read. -/
theorem memBytes_memPutBytes {m : Memory} (h : m.wf = true) (a : Nat) (l : List Byte) : memBytes (memPutBytes m a l) a l.length = l := by
  apply List.ext_getElem
  · simp [memBytes]
  · intro i h1 h2
    simpa [memBytes] using memByte_memPutBytes_in h a l i h2

@[simp] theorem natBytes_length (n v : Nat) : (natBytes n v).length = n := by
  induction n generalizing v with
  | zero => rfl
  | succ n ih => simp [natBytes, ih]

theorem bytesNat_natBytes (n v : Nat) : bytesNat (natBytes n v) = v % 256 ^ n := by
  induction n generalizing v with
  | zero => simp [natBytes, bytesNat, Nat.mod_one]
  | succ n ih =>
    simp only [natBytes, bytesNat, ih, BitVec.toNat_ofNat]
    rw [show 256 ^ (n + 1) = 2 ^ 8 * 256 ^ n by ring, Nat.mod_mul]; norm_num

end Sys2Proof.Machine
end

