-- ==== Sys2Proof/Laws/State.lean ====
section
/-! SUPPORT. What each update of the state leaves and gives: one lemma per field per update, and what the named parts read after an update. -/

namespace Sys2Proof.Machine

/-! setCore -/
@[simp] theorem State.setCore_agenda (s : State) (c : Nat) (k : Core) : (s.setCore c k).agenda = s.agenda := rfl
@[simp] theorem State.setCore_who (s : State) (c : Nat) (k : Core) : (s.setCore c k).who = s.who := rfl
@[simp] theorem State.setCore_now (s : State) (c : Nat) (k : Core) : (s.setCore c k).now = s.now := rfl
@[simp] theorem State.setCore_seq (s : State) (c : Nat) (k : Core) : (s.setCore c k).seq = s.seq := rfl
@[simp] theorem State.setCore_free (s : State) (c : Nat) (k : Core) : (s.setCore c k).free = s.free := rfl
@[simp] theorem State.setCore_clusters (s : State) (c : Nat) (k : Core) : (s.setCore c k).clusters = s.clusters := rfl
@[simp] theorem State.setCore_dies (s : State) (c : Nat) (k : Core) : (s.setCore c k).dies = s.dies := rfl
@[simp] theorem State.setCore_hub (s : State) (c : Nat) (k : Core) : (s.setCore c k).hub = s.hub := rfl
@[simp] theorem State.setCore_hbm (s : State) (c : Nat) (k : Core) : (s.setCore c k).hbm = s.hbm := rfl
@[simp] theorem State.setCore_hbmKeys (s : State) (c : Nat) (k : Core) : (s.setCore c k).hbmKeys = s.hbmKeys := rfl
@[simp] theorem State.setCore_hbmBad (s : State) (c : Nat) (k : Core) : (s.setCore c k).hbmBad = s.hbmBad := rfl
@[simp] theorem State.setCore_hbmSoft (s : State) (c : Nat) (k : Core) : (s.setCore c k).hbmSoft = s.hbmSoft := rfl
@[simp] theorem State.setCore_hbmMended (s : State) (c : Nat) (k : Core) : (s.setCore c k).hbmMended = s.hbmMended := rfl
@[simp] theorem State.setCore_today (s : State) (c : Nat) (k : Core) : (s.setCore c k).today = s.today := rfl
@[simp] theorem State.setCore_accesses (s : State) (c : Nat) (k : Core) : (s.setCore c k).accesses = s.accesses := rfl
@[simp] theorem State.setCore_replies (s : State) (c : Nat) (k : Core) : (s.setCore c k).replies = s.replies := rfl
@[simp] theorem State.setCore_invals (s : State) (c : Nat) (k : Core) : (s.setCore c k).invals = s.invals := rfl
@[simp] theorem State.setCore_messages (s : State) (c : Nat) (k : Core) : (s.setCore c k).messages = s.messages := rfl
@[simp] theorem State.setCore_retries (s : State) (c : Nat) (k : Core) : (s.setCore c k).retries = s.retries := rfl
@[simp] theorem State.setCore_arrived (s : State) (c : Nat) (k : Core) : (s.setCore c k).arrived = s.arrived := rfl
@[simp] theorem State.setCore_blocked (s : State) (c : Nat) (k : Core) : (s.setCore c k).blocked = s.blocked := rfl

/-! modCore -/
@[simp] theorem State.modCore_agenda (s : State) (c : Nat) (f : Core → Core) : (s.modCore c f).agenda = s.agenda := rfl
@[simp] theorem State.modCore_who (s : State) (c : Nat) (f : Core → Core) : (s.modCore c f).who = s.who := rfl
@[simp] theorem State.modCore_now (s : State) (c : Nat) (f : Core → Core) : (s.modCore c f).now = s.now := rfl
@[simp] theorem State.modCore_seq (s : State) (c : Nat) (f : Core → Core) : (s.modCore c f).seq = s.seq := rfl
@[simp] theorem State.modCore_free (s : State) (c : Nat) (f : Core → Core) : (s.modCore c f).free = s.free := rfl
@[simp] theorem State.modCore_clusters (s : State) (c : Nat) (f : Core → Core) : (s.modCore c f).clusters = s.clusters := rfl
@[simp] theorem State.modCore_dies (s : State) (c : Nat) (f : Core → Core) : (s.modCore c f).dies = s.dies := rfl
@[simp] theorem State.modCore_hub (s : State) (c : Nat) (f : Core → Core) : (s.modCore c f).hub = s.hub := rfl
@[simp] theorem State.modCore_hbm (s : State) (c : Nat) (f : Core → Core) : (s.modCore c f).hbm = s.hbm := rfl
@[simp] theorem State.modCore_hbmKeys (s : State) (c : Nat) (f : Core → Core) : (s.modCore c f).hbmKeys = s.hbmKeys := rfl
@[simp] theorem State.modCore_hbmBad (s : State) (c : Nat) (f : Core → Core) : (s.modCore c f).hbmBad = s.hbmBad := rfl
@[simp] theorem State.modCore_hbmSoft (s : State) (c : Nat) (f : Core → Core) : (s.modCore c f).hbmSoft = s.hbmSoft := rfl
@[simp] theorem State.modCore_hbmMended (s : State) (c : Nat) (f : Core → Core) : (s.modCore c f).hbmMended = s.hbmMended := rfl
@[simp] theorem State.modCore_today (s : State) (c : Nat) (f : Core → Core) : (s.modCore c f).today = s.today := rfl
@[simp] theorem State.modCore_accesses (s : State) (c : Nat) (f : Core → Core) : (s.modCore c f).accesses = s.accesses := rfl
@[simp] theorem State.modCore_replies (s : State) (c : Nat) (f : Core → Core) : (s.modCore c f).replies = s.replies := rfl
@[simp] theorem State.modCore_invals (s : State) (c : Nat) (f : Core → Core) : (s.modCore c f).invals = s.invals := rfl
@[simp] theorem State.modCore_messages (s : State) (c : Nat) (f : Core → Core) : (s.modCore c f).messages = s.messages := rfl
@[simp] theorem State.modCore_retries (s : State) (c : Nat) (f : Core → Core) : (s.modCore c f).retries = s.retries := rfl
@[simp] theorem State.modCore_arrived (s : State) (c : Nat) (f : Core → Core) : (s.modCore c f).arrived = s.arrived := rfl
@[simp] theorem State.modCore_blocked (s : State) (c : Nat) (f : Core → Core) : (s.modCore c f).blocked = s.blocked := rfl

/-! modDie -/
@[simp] theorem State.modDie_agenda (s : State) (d : Nat) (f : Die → Die) : (s.modDie d f).agenda = s.agenda := rfl
@[simp] theorem State.modDie_who (s : State) (d : Nat) (f : Die → Die) : (s.modDie d f).who = s.who := rfl
@[simp] theorem State.modDie_now (s : State) (d : Nat) (f : Die → Die) : (s.modDie d f).now = s.now := rfl
@[simp] theorem State.modDie_seq (s : State) (d : Nat) (f : Die → Die) : (s.modDie d f).seq = s.seq := rfl
@[simp] theorem State.modDie_free (s : State) (d : Nat) (f : Die → Die) : (s.modDie d f).free = s.free := rfl
@[simp] theorem State.modDie_cores (s : State) (d : Nat) (f : Die → Die) : (s.modDie d f).cores = s.cores := rfl
@[simp] theorem State.modDie_clusters (s : State) (d : Nat) (f : Die → Die) : (s.modDie d f).clusters = s.clusters := rfl
@[simp] theorem State.modDie_hub (s : State) (d : Nat) (f : Die → Die) : (s.modDie d f).hub = s.hub := rfl
@[simp] theorem State.modDie_hbm (s : State) (d : Nat) (f : Die → Die) : (s.modDie d f).hbm = s.hbm := rfl
@[simp] theorem State.modDie_hbmKeys (s : State) (d : Nat) (f : Die → Die) : (s.modDie d f).hbmKeys = s.hbmKeys := rfl
@[simp] theorem State.modDie_hbmBad (s : State) (d : Nat) (f : Die → Die) : (s.modDie d f).hbmBad = s.hbmBad := rfl
@[simp] theorem State.modDie_hbmSoft (s : State) (d : Nat) (f : Die → Die) : (s.modDie d f).hbmSoft = s.hbmSoft := rfl
@[simp] theorem State.modDie_hbmMended (s : State) (d : Nat) (f : Die → Die) : (s.modDie d f).hbmMended = s.hbmMended := rfl
@[simp] theorem State.modDie_today (s : State) (d : Nat) (f : Die → Die) : (s.modDie d f).today = s.today := rfl
@[simp] theorem State.modDie_accesses (s : State) (d : Nat) (f : Die → Die) : (s.modDie d f).accesses = s.accesses := rfl
@[simp] theorem State.modDie_replies (s : State) (d : Nat) (f : Die → Die) : (s.modDie d f).replies = s.replies := rfl
@[simp] theorem State.modDie_invals (s : State) (d : Nat) (f : Die → Die) : (s.modDie d f).invals = s.invals := rfl
@[simp] theorem State.modDie_messages (s : State) (d : Nat) (f : Die → Die) : (s.modDie d f).messages = s.messages := rfl
@[simp] theorem State.modDie_retries (s : State) (d : Nat) (f : Die → Die) : (s.modDie d f).retries = s.retries := rfl
@[simp] theorem State.modDie_arrived (s : State) (d : Nat) (f : Die → Die) : (s.modDie d f).arrived = s.arrived := rfl
@[simp] theorem State.modDie_blocked (s : State) (d : Nat) (f : Die → Die) : (s.modDie d f).blocked = s.blocked := rfl

/-! modCluster -/
@[simp] theorem State.modCluster_agenda (s : State) (g : Nat) (f : Cluster → Cluster) : (s.modCluster g f).agenda = s.agenda := rfl
@[simp] theorem State.modCluster_who (s : State) (g : Nat) (f : Cluster → Cluster) : (s.modCluster g f).who = s.who := rfl
@[simp] theorem State.modCluster_now (s : State) (g : Nat) (f : Cluster → Cluster) : (s.modCluster g f).now = s.now := rfl
@[simp] theorem State.modCluster_seq (s : State) (g : Nat) (f : Cluster → Cluster) : (s.modCluster g f).seq = s.seq := rfl
@[simp] theorem State.modCluster_free (s : State) (g : Nat) (f : Cluster → Cluster) : (s.modCluster g f).free = s.free := rfl
@[simp] theorem State.modCluster_cores (s : State) (g : Nat) (f : Cluster → Cluster) : (s.modCluster g f).cores = s.cores := rfl
@[simp] theorem State.modCluster_dies (s : State) (g : Nat) (f : Cluster → Cluster) : (s.modCluster g f).dies = s.dies := rfl
@[simp] theorem State.modCluster_hub (s : State) (g : Nat) (f : Cluster → Cluster) : (s.modCluster g f).hub = s.hub := rfl
@[simp] theorem State.modCluster_hbm (s : State) (g : Nat) (f : Cluster → Cluster) : (s.modCluster g f).hbm = s.hbm := rfl
@[simp] theorem State.modCluster_hbmKeys (s : State) (g : Nat) (f : Cluster → Cluster) : (s.modCluster g f).hbmKeys = s.hbmKeys := rfl
@[simp] theorem State.modCluster_hbmBad (s : State) (g : Nat) (f : Cluster → Cluster) : (s.modCluster g f).hbmBad = s.hbmBad := rfl
@[simp] theorem State.modCluster_hbmSoft (s : State) (g : Nat) (f : Cluster → Cluster) : (s.modCluster g f).hbmSoft = s.hbmSoft := rfl
@[simp] theorem State.modCluster_hbmMended (s : State) (g : Nat) (f : Cluster → Cluster) : (s.modCluster g f).hbmMended = s.hbmMended := rfl
@[simp] theorem State.modCluster_today (s : State) (g : Nat) (f : Cluster → Cluster) : (s.modCluster g f).today = s.today := rfl
@[simp] theorem State.modCluster_accesses (s : State) (g : Nat) (f : Cluster → Cluster) : (s.modCluster g f).accesses = s.accesses := rfl
@[simp] theorem State.modCluster_replies (s : State) (g : Nat) (f : Cluster → Cluster) : (s.modCluster g f).replies = s.replies := rfl
@[simp] theorem State.modCluster_invals (s : State) (g : Nat) (f : Cluster → Cluster) : (s.modCluster g f).invals = s.invals := rfl
@[simp] theorem State.modCluster_messages (s : State) (g : Nat) (f : Cluster → Cluster) : (s.modCluster g f).messages = s.messages := rfl
@[simp] theorem State.modCluster_retries (s : State) (g : Nat) (f : Cluster → Cluster) : (s.modCluster g f).retries = s.retries := rfl
@[simp] theorem State.modCluster_arrived (s : State) (g : Nat) (f : Cluster → Cluster) : (s.modCluster g f).arrived = s.arrived := rfl
@[simp] theorem State.modCluster_blocked (s : State) (g : Nat) (f : Cluster → Cluster) : (s.modCluster g f).blocked = s.blocked := rfl

/-! modHub -/
@[simp] theorem State.modHub_agenda (s : State) (f : Hub → Hub) : (s.modHub f).agenda = s.agenda := rfl
@[simp] theorem State.modHub_who (s : State) (f : Hub → Hub) : (s.modHub f).who = s.who := rfl
@[simp] theorem State.modHub_now (s : State) (f : Hub → Hub) : (s.modHub f).now = s.now := rfl
@[simp] theorem State.modHub_seq (s : State) (f : Hub → Hub) : (s.modHub f).seq = s.seq := rfl
@[simp] theorem State.modHub_free (s : State) (f : Hub → Hub) : (s.modHub f).free = s.free := rfl
@[simp] theorem State.modHub_cores (s : State) (f : Hub → Hub) : (s.modHub f).cores = s.cores := rfl
@[simp] theorem State.modHub_clusters (s : State) (f : Hub → Hub) : (s.modHub f).clusters = s.clusters := rfl
@[simp] theorem State.modHub_dies (s : State) (f : Hub → Hub) : (s.modHub f).dies = s.dies := rfl
@[simp] theorem State.modHub_hbm (s : State) (f : Hub → Hub) : (s.modHub f).hbm = s.hbm := rfl
@[simp] theorem State.modHub_hbmKeys (s : State) (f : Hub → Hub) : (s.modHub f).hbmKeys = s.hbmKeys := rfl
@[simp] theorem State.modHub_hbmBad (s : State) (f : Hub → Hub) : (s.modHub f).hbmBad = s.hbmBad := rfl
@[simp] theorem State.modHub_hbmSoft (s : State) (f : Hub → Hub) : (s.modHub f).hbmSoft = s.hbmSoft := rfl
@[simp] theorem State.modHub_hbmMended (s : State) (f : Hub → Hub) : (s.modHub f).hbmMended = s.hbmMended := rfl
@[simp] theorem State.modHub_today (s : State) (f : Hub → Hub) : (s.modHub f).today = s.today := rfl
@[simp] theorem State.modHub_accesses (s : State) (f : Hub → Hub) : (s.modHub f).accesses = s.accesses := rfl
@[simp] theorem State.modHub_replies (s : State) (f : Hub → Hub) : (s.modHub f).replies = s.replies := rfl
@[simp] theorem State.modHub_invals (s : State) (f : Hub → Hub) : (s.modHub f).invals = s.invals := rfl
@[simp] theorem State.modHub_messages (s : State) (f : Hub → Hub) : (s.modHub f).messages = s.messages := rfl
@[simp] theorem State.modHub_retries (s : State) (f : Hub → Hub) : (s.modHub f).retries = s.retries := rfl
@[simp] theorem State.modHub_arrived (s : State) (f : Hub → Hub) : (s.modHub f).arrived = s.arrived := rfl
@[simp] theorem State.modHub_blocked (s : State) (f : Hub → Hub) : (s.modHub f).blocked = s.blocked := rfl

/-! modArch -/
@[simp] theorem State.modArch_agenda (s : State) (c : Nat) (f : Arch → Arch) : (s.modArch c f).agenda = s.agenda := rfl
@[simp] theorem State.modArch_who (s : State) (c : Nat) (f : Arch → Arch) : (s.modArch c f).who = s.who := rfl
@[simp] theorem State.modArch_now (s : State) (c : Nat) (f : Arch → Arch) : (s.modArch c f).now = s.now := rfl
@[simp] theorem State.modArch_seq (s : State) (c : Nat) (f : Arch → Arch) : (s.modArch c f).seq = s.seq := rfl
@[simp] theorem State.modArch_free (s : State) (c : Nat) (f : Arch → Arch) : (s.modArch c f).free = s.free := rfl
@[simp] theorem State.modArch_clusters (s : State) (c : Nat) (f : Arch → Arch) : (s.modArch c f).clusters = s.clusters := rfl
@[simp] theorem State.modArch_dies (s : State) (c : Nat) (f : Arch → Arch) : (s.modArch c f).dies = s.dies := rfl
@[simp] theorem State.modArch_hub (s : State) (c : Nat) (f : Arch → Arch) : (s.modArch c f).hub = s.hub := rfl
@[simp] theorem State.modArch_hbm (s : State) (c : Nat) (f : Arch → Arch) : (s.modArch c f).hbm = s.hbm := rfl
@[simp] theorem State.modArch_hbmKeys (s : State) (c : Nat) (f : Arch → Arch) : (s.modArch c f).hbmKeys = s.hbmKeys := rfl
@[simp] theorem State.modArch_hbmBad (s : State) (c : Nat) (f : Arch → Arch) : (s.modArch c f).hbmBad = s.hbmBad := rfl
@[simp] theorem State.modArch_hbmSoft (s : State) (c : Nat) (f : Arch → Arch) : (s.modArch c f).hbmSoft = s.hbmSoft := rfl
@[simp] theorem State.modArch_hbmMended (s : State) (c : Nat) (f : Arch → Arch) : (s.modArch c f).hbmMended = s.hbmMended := rfl
@[simp] theorem State.modArch_today (s : State) (c : Nat) (f : Arch → Arch) : (s.modArch c f).today = s.today := rfl
@[simp] theorem State.modArch_accesses (s : State) (c : Nat) (f : Arch → Arch) : (s.modArch c f).accesses = s.accesses := rfl
@[simp] theorem State.modArch_replies (s : State) (c : Nat) (f : Arch → Arch) : (s.modArch c f).replies = s.replies := rfl
@[simp] theorem State.modArch_invals (s : State) (c : Nat) (f : Arch → Arch) : (s.modArch c f).invals = s.invals := rfl
@[simp] theorem State.modArch_messages (s : State) (c : Nat) (f : Arch → Arch) : (s.modArch c f).messages = s.messages := rfl
@[simp] theorem State.modArch_retries (s : State) (c : Nat) (f : Arch → Arch) : (s.modArch c f).retries = s.retries := rfl
@[simp] theorem State.modArch_arrived (s : State) (c : Nat) (f : Arch → Arch) : (s.modArch c f).arrived = s.arrived := rfl
@[simp] theorem State.modArch_blocked (s : State) (c : Nat) (f : Arch → Arch) : (s.modArch c f).blocked = s.blocked := rfl

/-! modSeqs -/
@[simp] theorem State.modSeqs_agenda (s : State) (c : Nat) (f : Seqs → Seqs) : (s.modSeqs c f).agenda = s.agenda := rfl
@[simp] theorem State.modSeqs_who (s : State) (c : Nat) (f : Seqs → Seqs) : (s.modSeqs c f).who = s.who := rfl
@[simp] theorem State.modSeqs_now (s : State) (c : Nat) (f : Seqs → Seqs) : (s.modSeqs c f).now = s.now := rfl
@[simp] theorem State.modSeqs_seq (s : State) (c : Nat) (f : Seqs → Seqs) : (s.modSeqs c f).seq = s.seq := rfl
@[simp] theorem State.modSeqs_free (s : State) (c : Nat) (f : Seqs → Seqs) : (s.modSeqs c f).free = s.free := rfl
@[simp] theorem State.modSeqs_clusters (s : State) (c : Nat) (f : Seqs → Seqs) : (s.modSeqs c f).clusters = s.clusters := rfl
@[simp] theorem State.modSeqs_dies (s : State) (c : Nat) (f : Seqs → Seqs) : (s.modSeqs c f).dies = s.dies := rfl
@[simp] theorem State.modSeqs_hub (s : State) (c : Nat) (f : Seqs → Seqs) : (s.modSeqs c f).hub = s.hub := rfl
@[simp] theorem State.modSeqs_hbm (s : State) (c : Nat) (f : Seqs → Seqs) : (s.modSeqs c f).hbm = s.hbm := rfl
@[simp] theorem State.modSeqs_hbmKeys (s : State) (c : Nat) (f : Seqs → Seqs) : (s.modSeqs c f).hbmKeys = s.hbmKeys := rfl
@[simp] theorem State.modSeqs_hbmBad (s : State) (c : Nat) (f : Seqs → Seqs) : (s.modSeqs c f).hbmBad = s.hbmBad := rfl
@[simp] theorem State.modSeqs_hbmSoft (s : State) (c : Nat) (f : Seqs → Seqs) : (s.modSeqs c f).hbmSoft = s.hbmSoft := rfl
@[simp] theorem State.modSeqs_hbmMended (s : State) (c : Nat) (f : Seqs → Seqs) : (s.modSeqs c f).hbmMended = s.hbmMended := rfl
@[simp] theorem State.modSeqs_today (s : State) (c : Nat) (f : Seqs → Seqs) : (s.modSeqs c f).today = s.today := rfl
@[simp] theorem State.modSeqs_accesses (s : State) (c : Nat) (f : Seqs → Seqs) : (s.modSeqs c f).accesses = s.accesses := rfl
@[simp] theorem State.modSeqs_replies (s : State) (c : Nat) (f : Seqs → Seqs) : (s.modSeqs c f).replies = s.replies := rfl
@[simp] theorem State.modSeqs_invals (s : State) (c : Nat) (f : Seqs → Seqs) : (s.modSeqs c f).invals = s.invals := rfl
@[simp] theorem State.modSeqs_messages (s : State) (c : Nat) (f : Seqs → Seqs) : (s.modSeqs c f).messages = s.messages := rfl
@[simp] theorem State.modSeqs_retries (s : State) (c : Nat) (f : Seqs → Seqs) : (s.modSeqs c f).retries = s.retries := rfl
@[simp] theorem State.modSeqs_arrived (s : State) (c : Nat) (f : Seqs → Seqs) : (s.modSeqs c f).arrived = s.arrived := rfl
@[simp] theorem State.modSeqs_blocked (s : State) (c : Nat) (f : Seqs → Seqs) : (s.modSeqs c f).blocked = s.blocked := rfl

/-! modCsrs -/
@[simp] theorem State.modCsrs_agenda (s : State) (c : Nat) (f : Csrs → Csrs) : (s.modCsrs c f).agenda = s.agenda := rfl
@[simp] theorem State.modCsrs_who (s : State) (c : Nat) (f : Csrs → Csrs) : (s.modCsrs c f).who = s.who := rfl
@[simp] theorem State.modCsrs_now (s : State) (c : Nat) (f : Csrs → Csrs) : (s.modCsrs c f).now = s.now := rfl
@[simp] theorem State.modCsrs_seq (s : State) (c : Nat) (f : Csrs → Csrs) : (s.modCsrs c f).seq = s.seq := rfl
@[simp] theorem State.modCsrs_free (s : State) (c : Nat) (f : Csrs → Csrs) : (s.modCsrs c f).free = s.free := rfl
@[simp] theorem State.modCsrs_clusters (s : State) (c : Nat) (f : Csrs → Csrs) : (s.modCsrs c f).clusters = s.clusters := rfl
@[simp] theorem State.modCsrs_dies (s : State) (c : Nat) (f : Csrs → Csrs) : (s.modCsrs c f).dies = s.dies := rfl
@[simp] theorem State.modCsrs_hub (s : State) (c : Nat) (f : Csrs → Csrs) : (s.modCsrs c f).hub = s.hub := rfl
@[simp] theorem State.modCsrs_hbm (s : State) (c : Nat) (f : Csrs → Csrs) : (s.modCsrs c f).hbm = s.hbm := rfl
@[simp] theorem State.modCsrs_hbmKeys (s : State) (c : Nat) (f : Csrs → Csrs) : (s.modCsrs c f).hbmKeys = s.hbmKeys := rfl
@[simp] theorem State.modCsrs_hbmBad (s : State) (c : Nat) (f : Csrs → Csrs) : (s.modCsrs c f).hbmBad = s.hbmBad := rfl
@[simp] theorem State.modCsrs_hbmSoft (s : State) (c : Nat) (f : Csrs → Csrs) : (s.modCsrs c f).hbmSoft = s.hbmSoft := rfl
@[simp] theorem State.modCsrs_hbmMended (s : State) (c : Nat) (f : Csrs → Csrs) : (s.modCsrs c f).hbmMended = s.hbmMended := rfl
@[simp] theorem State.modCsrs_today (s : State) (c : Nat) (f : Csrs → Csrs) : (s.modCsrs c f).today = s.today := rfl
@[simp] theorem State.modCsrs_accesses (s : State) (c : Nat) (f : Csrs → Csrs) : (s.modCsrs c f).accesses = s.accesses := rfl
@[simp] theorem State.modCsrs_replies (s : State) (c : Nat) (f : Csrs → Csrs) : (s.modCsrs c f).replies = s.replies := rfl
@[simp] theorem State.modCsrs_invals (s : State) (c : Nat) (f : Csrs → Csrs) : (s.modCsrs c f).invals = s.invals := rfl
@[simp] theorem State.modCsrs_messages (s : State) (c : Nat) (f : Csrs → Csrs) : (s.modCsrs c f).messages = s.messages := rfl
@[simp] theorem State.modCsrs_retries (s : State) (c : Nat) (f : Csrs → Csrs) : (s.modCsrs c f).retries = s.retries := rfl
@[simp] theorem State.modCsrs_arrived (s : State) (c : Nat) (f : Csrs → Csrs) : (s.modCsrs c f).arrived = s.arrived := rfl
@[simp] theorem State.modCsrs_blocked (s : State) (c : Nat) (f : Csrs → Csrs) : (s.modCsrs c f).blocked = s.blocked := rfl

/-! modCtx -/
@[simp] theorem State.modCtx_agenda (s : State) (c k : Nat) (f : Ctx → Ctx) : (s.modCtx c k f).agenda = s.agenda := rfl
@[simp] theorem State.modCtx_who (s : State) (c k : Nat) (f : Ctx → Ctx) : (s.modCtx c k f).who = s.who := rfl
@[simp] theorem State.modCtx_now (s : State) (c k : Nat) (f : Ctx → Ctx) : (s.modCtx c k f).now = s.now := rfl
@[simp] theorem State.modCtx_seq (s : State) (c k : Nat) (f : Ctx → Ctx) : (s.modCtx c k f).seq = s.seq := rfl
@[simp] theorem State.modCtx_free (s : State) (c k : Nat) (f : Ctx → Ctx) : (s.modCtx c k f).free = s.free := rfl
@[simp] theorem State.modCtx_clusters (s : State) (c k : Nat) (f : Ctx → Ctx) : (s.modCtx c k f).clusters = s.clusters := rfl
@[simp] theorem State.modCtx_dies (s : State) (c k : Nat) (f : Ctx → Ctx) : (s.modCtx c k f).dies = s.dies := rfl
@[simp] theorem State.modCtx_hub (s : State) (c k : Nat) (f : Ctx → Ctx) : (s.modCtx c k f).hub = s.hub := rfl
@[simp] theorem State.modCtx_hbm (s : State) (c k : Nat) (f : Ctx → Ctx) : (s.modCtx c k f).hbm = s.hbm := rfl
@[simp] theorem State.modCtx_hbmKeys (s : State) (c k : Nat) (f : Ctx → Ctx) : (s.modCtx c k f).hbmKeys = s.hbmKeys := rfl
@[simp] theorem State.modCtx_hbmBad (s : State) (c k : Nat) (f : Ctx → Ctx) : (s.modCtx c k f).hbmBad = s.hbmBad := rfl
@[simp] theorem State.modCtx_hbmSoft (s : State) (c k : Nat) (f : Ctx → Ctx) : (s.modCtx c k f).hbmSoft = s.hbmSoft := rfl
@[simp] theorem State.modCtx_hbmMended (s : State) (c k : Nat) (f : Ctx → Ctx) : (s.modCtx c k f).hbmMended = s.hbmMended := rfl
@[simp] theorem State.modCtx_today (s : State) (c k : Nat) (f : Ctx → Ctx) : (s.modCtx c k f).today = s.today := rfl
@[simp] theorem State.modCtx_accesses (s : State) (c k : Nat) (f : Ctx → Ctx) : (s.modCtx c k f).accesses = s.accesses := rfl
@[simp] theorem State.modCtx_replies (s : State) (c k : Nat) (f : Ctx → Ctx) : (s.modCtx c k f).replies = s.replies := rfl
@[simp] theorem State.modCtx_invals (s : State) (c k : Nat) (f : Ctx → Ctx) : (s.modCtx c k f).invals = s.invals := rfl
@[simp] theorem State.modCtx_messages (s : State) (c k : Nat) (f : Ctx → Ctx) : (s.modCtx c k f).messages = s.messages := rfl
@[simp] theorem State.modCtx_retries (s : State) (c k : Nat) (f : Ctx → Ctx) : (s.modCtx c k f).retries = s.retries := rfl
@[simp] theorem State.modCtx_arrived (s : State) (c k : Nat) (f : Ctx → Ctx) : (s.modCtx c k f).arrived = s.arrived := rfl
@[simp] theorem State.modCtx_blocked (s : State) (c k : Nat) (f : Ctx → Ctx) : (s.modCtx c k f).blocked = s.blocked := rfl

/-! modCp -/
@[simp] theorem State.modCp_agenda (s : State) (c : Nat) (f : Cp → Cp) : (s.modCp c f).agenda = s.agenda := rfl
@[simp] theorem State.modCp_who (s : State) (c : Nat) (f : Cp → Cp) : (s.modCp c f).who = s.who := rfl
@[simp] theorem State.modCp_now (s : State) (c : Nat) (f : Cp → Cp) : (s.modCp c f).now = s.now := rfl
@[simp] theorem State.modCp_seq (s : State) (c : Nat) (f : Cp → Cp) : (s.modCp c f).seq = s.seq := rfl
@[simp] theorem State.modCp_free (s : State) (c : Nat) (f : Cp → Cp) : (s.modCp c f).free = s.free := rfl
@[simp] theorem State.modCp_clusters (s : State) (c : Nat) (f : Cp → Cp) : (s.modCp c f).clusters = s.clusters := rfl
@[simp] theorem State.modCp_dies (s : State) (c : Nat) (f : Cp → Cp) : (s.modCp c f).dies = s.dies := rfl
@[simp] theorem State.modCp_hub (s : State) (c : Nat) (f : Cp → Cp) : (s.modCp c f).hub = s.hub := rfl
@[simp] theorem State.modCp_hbm (s : State) (c : Nat) (f : Cp → Cp) : (s.modCp c f).hbm = s.hbm := rfl
@[simp] theorem State.modCp_hbmKeys (s : State) (c : Nat) (f : Cp → Cp) : (s.modCp c f).hbmKeys = s.hbmKeys := rfl
@[simp] theorem State.modCp_hbmBad (s : State) (c : Nat) (f : Cp → Cp) : (s.modCp c f).hbmBad = s.hbmBad := rfl
@[simp] theorem State.modCp_hbmSoft (s : State) (c : Nat) (f : Cp → Cp) : (s.modCp c f).hbmSoft = s.hbmSoft := rfl
@[simp] theorem State.modCp_hbmMended (s : State) (c : Nat) (f : Cp → Cp) : (s.modCp c f).hbmMended = s.hbmMended := rfl
@[simp] theorem State.modCp_today (s : State) (c : Nat) (f : Cp → Cp) : (s.modCp c f).today = s.today := rfl
@[simp] theorem State.modCp_accesses (s : State) (c : Nat) (f : Cp → Cp) : (s.modCp c f).accesses = s.accesses := rfl
@[simp] theorem State.modCp_replies (s : State) (c : Nat) (f : Cp → Cp) : (s.modCp c f).replies = s.replies := rfl
@[simp] theorem State.modCp_invals (s : State) (c : Nat) (f : Cp → Cp) : (s.modCp c f).invals = s.invals := rfl
@[simp] theorem State.modCp_messages (s : State) (c : Nat) (f : Cp → Cp) : (s.modCp c f).messages = s.messages := rfl
@[simp] theorem State.modCp_retries (s : State) (c : Nat) (f : Cp → Cp) : (s.modCp c f).retries = s.retries := rfl
@[simp] theorem State.modCp_arrived (s : State) (c : Nat) (f : Cp → Cp) : (s.modCp c f).arrived = s.arrived := rfl
@[simp] theorem State.modCp_blocked (s : State) (c : Nat) (f : Cp → Cp) : (s.modCp c f).blocked = s.blocked := rfl

/-! modEng -/
@[simp] theorem State.modEng_agenda (s : State) (c : Nat) (e : Eng) (f : Engine → Engine) : (s.modEng c e f).agenda = s.agenda := rfl
@[simp] theorem State.modEng_who (s : State) (c : Nat) (e : Eng) (f : Engine → Engine) : (s.modEng c e f).who = s.who := rfl
@[simp] theorem State.modEng_now (s : State) (c : Nat) (e : Eng) (f : Engine → Engine) : (s.modEng c e f).now = s.now := rfl
@[simp] theorem State.modEng_seq (s : State) (c : Nat) (e : Eng) (f : Engine → Engine) : (s.modEng c e f).seq = s.seq := rfl
@[simp] theorem State.modEng_free (s : State) (c : Nat) (e : Eng) (f : Engine → Engine) : (s.modEng c e f).free = s.free := rfl
@[simp] theorem State.modEng_clusters (s : State) (c : Nat) (e : Eng) (f : Engine → Engine) : (s.modEng c e f).clusters = s.clusters := rfl
@[simp] theorem State.modEng_dies (s : State) (c : Nat) (e : Eng) (f : Engine → Engine) : (s.modEng c e f).dies = s.dies := rfl
@[simp] theorem State.modEng_hub (s : State) (c : Nat) (e : Eng) (f : Engine → Engine) : (s.modEng c e f).hub = s.hub := rfl
@[simp] theorem State.modEng_hbm (s : State) (c : Nat) (e : Eng) (f : Engine → Engine) : (s.modEng c e f).hbm = s.hbm := rfl
@[simp] theorem State.modEng_hbmKeys (s : State) (c : Nat) (e : Eng) (f : Engine → Engine) : (s.modEng c e f).hbmKeys = s.hbmKeys := rfl
@[simp] theorem State.modEng_hbmBad (s : State) (c : Nat) (e : Eng) (f : Engine → Engine) : (s.modEng c e f).hbmBad = s.hbmBad := rfl
@[simp] theorem State.modEng_hbmSoft (s : State) (c : Nat) (e : Eng) (f : Engine → Engine) : (s.modEng c e f).hbmSoft = s.hbmSoft := rfl
@[simp] theorem State.modEng_hbmMended (s : State) (c : Nat) (e : Eng) (f : Engine → Engine) : (s.modEng c e f).hbmMended = s.hbmMended := rfl
@[simp] theorem State.modEng_today (s : State) (c : Nat) (e : Eng) (f : Engine → Engine) : (s.modEng c e f).today = s.today := rfl
@[simp] theorem State.modEng_accesses (s : State) (c : Nat) (e : Eng) (f : Engine → Engine) : (s.modEng c e f).accesses = s.accesses := rfl
@[simp] theorem State.modEng_replies (s : State) (c : Nat) (e : Eng) (f : Engine → Engine) : (s.modEng c e f).replies = s.replies := rfl
@[simp] theorem State.modEng_invals (s : State) (c : Nat) (e : Eng) (f : Engine → Engine) : (s.modEng c e f).invals = s.invals := rfl
@[simp] theorem State.modEng_messages (s : State) (c : Nat) (e : Eng) (f : Engine → Engine) : (s.modEng c e f).messages = s.messages := rfl
@[simp] theorem State.modEng_retries (s : State) (c : Nat) (e : Eng) (f : Engine → Engine) : (s.modEng c e f).retries = s.retries := rfl
@[simp] theorem State.modEng_arrived (s : State) (c : Nat) (e : Eng) (f : Engine → Engine) : (s.modEng c e f).arrived = s.arrived := rfl
@[simp] theorem State.modEng_blocked (s : State) (c : Nat) (e : Eng) (f : Engine → Engine) : (s.modEng c e f).blocked = s.blocked := rfl

/-! modRing -/
@[simp] theorem State.modRing_agenda (s : State) (c n : Nat) (f : Ring → Ring) : (s.modRing c n f).agenda = s.agenda := rfl
@[simp] theorem State.modRing_who (s : State) (c n : Nat) (f : Ring → Ring) : (s.modRing c n f).who = s.who := rfl
@[simp] theorem State.modRing_now (s : State) (c n : Nat) (f : Ring → Ring) : (s.modRing c n f).now = s.now := rfl
@[simp] theorem State.modRing_seq (s : State) (c n : Nat) (f : Ring → Ring) : (s.modRing c n f).seq = s.seq := rfl
@[simp] theorem State.modRing_free (s : State) (c n : Nat) (f : Ring → Ring) : (s.modRing c n f).free = s.free := rfl
@[simp] theorem State.modRing_clusters (s : State) (c n : Nat) (f : Ring → Ring) : (s.modRing c n f).clusters = s.clusters := rfl
@[simp] theorem State.modRing_dies (s : State) (c n : Nat) (f : Ring → Ring) : (s.modRing c n f).dies = s.dies := rfl
@[simp] theorem State.modRing_hub (s : State) (c n : Nat) (f : Ring → Ring) : (s.modRing c n f).hub = s.hub := rfl
@[simp] theorem State.modRing_hbm (s : State) (c n : Nat) (f : Ring → Ring) : (s.modRing c n f).hbm = s.hbm := rfl
@[simp] theorem State.modRing_hbmKeys (s : State) (c n : Nat) (f : Ring → Ring) : (s.modRing c n f).hbmKeys = s.hbmKeys := rfl
@[simp] theorem State.modRing_hbmBad (s : State) (c n : Nat) (f : Ring → Ring) : (s.modRing c n f).hbmBad = s.hbmBad := rfl
@[simp] theorem State.modRing_hbmSoft (s : State) (c n : Nat) (f : Ring → Ring) : (s.modRing c n f).hbmSoft = s.hbmSoft := rfl
@[simp] theorem State.modRing_hbmMended (s : State) (c n : Nat) (f : Ring → Ring) : (s.modRing c n f).hbmMended = s.hbmMended := rfl
@[simp] theorem State.modRing_today (s : State) (c n : Nat) (f : Ring → Ring) : (s.modRing c n f).today = s.today := rfl
@[simp] theorem State.modRing_accesses (s : State) (c n : Nat) (f : Ring → Ring) : (s.modRing c n f).accesses = s.accesses := rfl
@[simp] theorem State.modRing_replies (s : State) (c n : Nat) (f : Ring → Ring) : (s.modRing c n f).replies = s.replies := rfl
@[simp] theorem State.modRing_invals (s : State) (c n : Nat) (f : Ring → Ring) : (s.modRing c n f).invals = s.invals := rfl
@[simp] theorem State.modRing_messages (s : State) (c n : Nat) (f : Ring → Ring) : (s.modRing c n f).messages = s.messages := rfl
@[simp] theorem State.modRing_retries (s : State) (c n : Nat) (f : Ring → Ring) : (s.modRing c n f).retries = s.retries := rfl
@[simp] theorem State.modRing_arrived (s : State) (c n : Nat) (f : Ring → Ring) : (s.modRing c n f).arrived = s.arrived := rfl
@[simp] theorem State.modRing_blocked (s : State) (c n : Nat) (f : Ring → Ring) : (s.modRing c n f).blocked = s.blocked := rfl

/-! modBar -/
@[simp] theorem State.modBar_agenda (s : State) (c n : Nat) (f : Barrier → Barrier) : (s.modBar c n f).agenda = s.agenda := rfl
@[simp] theorem State.modBar_who (s : State) (c n : Nat) (f : Barrier → Barrier) : (s.modBar c n f).who = s.who := rfl
@[simp] theorem State.modBar_now (s : State) (c n : Nat) (f : Barrier → Barrier) : (s.modBar c n f).now = s.now := rfl
@[simp] theorem State.modBar_seq (s : State) (c n : Nat) (f : Barrier → Barrier) : (s.modBar c n f).seq = s.seq := rfl
@[simp] theorem State.modBar_free (s : State) (c n : Nat) (f : Barrier → Barrier) : (s.modBar c n f).free = s.free := rfl
@[simp] theorem State.modBar_clusters (s : State) (c n : Nat) (f : Barrier → Barrier) : (s.modBar c n f).clusters = s.clusters := rfl
@[simp] theorem State.modBar_dies (s : State) (c n : Nat) (f : Barrier → Barrier) : (s.modBar c n f).dies = s.dies := rfl
@[simp] theorem State.modBar_hub (s : State) (c n : Nat) (f : Barrier → Barrier) : (s.modBar c n f).hub = s.hub := rfl
@[simp] theorem State.modBar_hbm (s : State) (c n : Nat) (f : Barrier → Barrier) : (s.modBar c n f).hbm = s.hbm := rfl
@[simp] theorem State.modBar_hbmKeys (s : State) (c n : Nat) (f : Barrier → Barrier) : (s.modBar c n f).hbmKeys = s.hbmKeys := rfl
@[simp] theorem State.modBar_hbmBad (s : State) (c n : Nat) (f : Barrier → Barrier) : (s.modBar c n f).hbmBad = s.hbmBad := rfl
@[simp] theorem State.modBar_hbmSoft (s : State) (c n : Nat) (f : Barrier → Barrier) : (s.modBar c n f).hbmSoft = s.hbmSoft := rfl
@[simp] theorem State.modBar_hbmMended (s : State) (c n : Nat) (f : Barrier → Barrier) : (s.modBar c n f).hbmMended = s.hbmMended := rfl
@[simp] theorem State.modBar_today (s : State) (c n : Nat) (f : Barrier → Barrier) : (s.modBar c n f).today = s.today := rfl
@[simp] theorem State.modBar_accesses (s : State) (c n : Nat) (f : Barrier → Barrier) : (s.modBar c n f).accesses = s.accesses := rfl
@[simp] theorem State.modBar_replies (s : State) (c n : Nat) (f : Barrier → Barrier) : (s.modBar c n f).replies = s.replies := rfl
@[simp] theorem State.modBar_invals (s : State) (c n : Nat) (f : Barrier → Barrier) : (s.modBar c n f).invals = s.invals := rfl
@[simp] theorem State.modBar_messages (s : State) (c n : Nat) (f : Barrier → Barrier) : (s.modBar c n f).messages = s.messages := rfl
@[simp] theorem State.modBar_retries (s : State) (c n : Nat) (f : Barrier → Barrier) : (s.modBar c n f).retries = s.retries := rfl
@[simp] theorem State.modBar_arrived (s : State) (c n : Nat) (f : Barrier → Barrier) : (s.modBar c n f).arrived = s.arrived := rfl
@[simp] theorem State.modBar_blocked (s : State) (c n : Nat) (f : Barrier → Barrier) : (s.modBar c n f).blocked = s.blocked := rfl

/-! modSlot -/
@[simp] theorem State.modSlot_agenda (s : State) (c n : Nat) (f : PatchSlot → PatchSlot) : (s.modSlot c n f).agenda = s.agenda := rfl
@[simp] theorem State.modSlot_who (s : State) (c n : Nat) (f : PatchSlot → PatchSlot) : (s.modSlot c n f).who = s.who := rfl
@[simp] theorem State.modSlot_now (s : State) (c n : Nat) (f : PatchSlot → PatchSlot) : (s.modSlot c n f).now = s.now := rfl
@[simp] theorem State.modSlot_seq (s : State) (c n : Nat) (f : PatchSlot → PatchSlot) : (s.modSlot c n f).seq = s.seq := rfl
@[simp] theorem State.modSlot_free (s : State) (c n : Nat) (f : PatchSlot → PatchSlot) : (s.modSlot c n f).free = s.free := rfl
@[simp] theorem State.modSlot_clusters (s : State) (c n : Nat) (f : PatchSlot → PatchSlot) : (s.modSlot c n f).clusters = s.clusters := rfl
@[simp] theorem State.modSlot_dies (s : State) (c n : Nat) (f : PatchSlot → PatchSlot) : (s.modSlot c n f).dies = s.dies := rfl
@[simp] theorem State.modSlot_hub (s : State) (c n : Nat) (f : PatchSlot → PatchSlot) : (s.modSlot c n f).hub = s.hub := rfl
@[simp] theorem State.modSlot_hbm (s : State) (c n : Nat) (f : PatchSlot → PatchSlot) : (s.modSlot c n f).hbm = s.hbm := rfl
@[simp] theorem State.modSlot_hbmKeys (s : State) (c n : Nat) (f : PatchSlot → PatchSlot) : (s.modSlot c n f).hbmKeys = s.hbmKeys := rfl
@[simp] theorem State.modSlot_hbmBad (s : State) (c n : Nat) (f : PatchSlot → PatchSlot) : (s.modSlot c n f).hbmBad = s.hbmBad := rfl
@[simp] theorem State.modSlot_hbmSoft (s : State) (c n : Nat) (f : PatchSlot → PatchSlot) : (s.modSlot c n f).hbmSoft = s.hbmSoft := rfl
@[simp] theorem State.modSlot_hbmMended (s : State) (c n : Nat) (f : PatchSlot → PatchSlot) : (s.modSlot c n f).hbmMended = s.hbmMended := rfl
@[simp] theorem State.modSlot_today (s : State) (c n : Nat) (f : PatchSlot → PatchSlot) : (s.modSlot c n f).today = s.today := rfl
@[simp] theorem State.modSlot_accesses (s : State) (c n : Nat) (f : PatchSlot → PatchSlot) : (s.modSlot c n f).accesses = s.accesses := rfl
@[simp] theorem State.modSlot_replies (s : State) (c n : Nat) (f : PatchSlot → PatchSlot) : (s.modSlot c n f).replies = s.replies := rfl
@[simp] theorem State.modSlot_invals (s : State) (c n : Nat) (f : PatchSlot → PatchSlot) : (s.modSlot c n f).invals = s.invals := rfl
@[simp] theorem State.modSlot_messages (s : State) (c n : Nat) (f : PatchSlot → PatchSlot) : (s.modSlot c n f).messages = s.messages := rfl
@[simp] theorem State.modSlot_retries (s : State) (c n : Nat) (f : PatchSlot → PatchSlot) : (s.modSlot c n f).retries = s.retries := rfl
@[simp] theorem State.modSlot_arrived (s : State) (c n : Nat) (f : PatchSlot → PatchSlot) : (s.modSlot c n f).arrived = s.arrived := rfl
@[simp] theorem State.modSlot_blocked (s : State) (c n : Nat) (f : PatchSlot → PatchSlot) : (s.modSlot c n f).blocked = s.blocked := rfl

/-! modRun -/
@[simp] theorem State.modRun_agenda (s : State) (c : Nat) (f : Running → Running) : (s.modRun c f).agenda = s.agenda := rfl
@[simp] theorem State.modRun_who (s : State) (c : Nat) (f : Running → Running) : (s.modRun c f).who = s.who := rfl
@[simp] theorem State.modRun_now (s : State) (c : Nat) (f : Running → Running) : (s.modRun c f).now = s.now := rfl
@[simp] theorem State.modRun_seq (s : State) (c : Nat) (f : Running → Running) : (s.modRun c f).seq = s.seq := rfl
@[simp] theorem State.modRun_free (s : State) (c : Nat) (f : Running → Running) : (s.modRun c f).free = s.free := rfl
@[simp] theorem State.modRun_clusters (s : State) (c : Nat) (f : Running → Running) : (s.modRun c f).clusters = s.clusters := rfl
@[simp] theorem State.modRun_dies (s : State) (c : Nat) (f : Running → Running) : (s.modRun c f).dies = s.dies := rfl
@[simp] theorem State.modRun_hub (s : State) (c : Nat) (f : Running → Running) : (s.modRun c f).hub = s.hub := rfl
@[simp] theorem State.modRun_hbm (s : State) (c : Nat) (f : Running → Running) : (s.modRun c f).hbm = s.hbm := rfl
@[simp] theorem State.modRun_hbmKeys (s : State) (c : Nat) (f : Running → Running) : (s.modRun c f).hbmKeys = s.hbmKeys := rfl
@[simp] theorem State.modRun_hbmBad (s : State) (c : Nat) (f : Running → Running) : (s.modRun c f).hbmBad = s.hbmBad := rfl
@[simp] theorem State.modRun_hbmSoft (s : State) (c : Nat) (f : Running → Running) : (s.modRun c f).hbmSoft = s.hbmSoft := rfl
@[simp] theorem State.modRun_hbmMended (s : State) (c : Nat) (f : Running → Running) : (s.modRun c f).hbmMended = s.hbmMended := rfl
@[simp] theorem State.modRun_today (s : State) (c : Nat) (f : Running → Running) : (s.modRun c f).today = s.today := rfl
@[simp] theorem State.modRun_accesses (s : State) (c : Nat) (f : Running → Running) : (s.modRun c f).accesses = s.accesses := rfl
@[simp] theorem State.modRun_replies (s : State) (c : Nat) (f : Running → Running) : (s.modRun c f).replies = s.replies := rfl
@[simp] theorem State.modRun_invals (s : State) (c : Nat) (f : Running → Running) : (s.modRun c f).invals = s.invals := rfl
@[simp] theorem State.modRun_messages (s : State) (c : Nat) (f : Running → Running) : (s.modRun c f).messages = s.messages := rfl
@[simp] theorem State.modRun_retries (s : State) (c : Nat) (f : Running → Running) : (s.modRun c f).retries = s.retries := rfl
@[simp] theorem State.modRun_arrived (s : State) (c : Nat) (f : Running → Running) : (s.modRun c f).arrived = s.arrived := rfl
@[simp] theorem State.modRun_blocked (s : State) (c : Nat) (f : Running → Running) : (s.modRun c f).blocked = s.blocked := rfl

/-! modTok -/
@[simp] theorem State.modTok_agenda (s : State) (c q : Nat) (f : TokQ → TokQ) : (s.modTok c q f).agenda = s.agenda := rfl
@[simp] theorem State.modTok_who (s : State) (c q : Nat) (f : TokQ → TokQ) : (s.modTok c q f).who = s.who := rfl
@[simp] theorem State.modTok_now (s : State) (c q : Nat) (f : TokQ → TokQ) : (s.modTok c q f).now = s.now := rfl
@[simp] theorem State.modTok_seq (s : State) (c q : Nat) (f : TokQ → TokQ) : (s.modTok c q f).seq = s.seq := rfl
@[simp] theorem State.modTok_free (s : State) (c q : Nat) (f : TokQ → TokQ) : (s.modTok c q f).free = s.free := rfl
@[simp] theorem State.modTok_clusters (s : State) (c q : Nat) (f : TokQ → TokQ) : (s.modTok c q f).clusters = s.clusters := rfl
@[simp] theorem State.modTok_dies (s : State) (c q : Nat) (f : TokQ → TokQ) : (s.modTok c q f).dies = s.dies := rfl
@[simp] theorem State.modTok_hub (s : State) (c q : Nat) (f : TokQ → TokQ) : (s.modTok c q f).hub = s.hub := rfl
@[simp] theorem State.modTok_hbm (s : State) (c q : Nat) (f : TokQ → TokQ) : (s.modTok c q f).hbm = s.hbm := rfl
@[simp] theorem State.modTok_hbmKeys (s : State) (c q : Nat) (f : TokQ → TokQ) : (s.modTok c q f).hbmKeys = s.hbmKeys := rfl
@[simp] theorem State.modTok_hbmBad (s : State) (c q : Nat) (f : TokQ → TokQ) : (s.modTok c q f).hbmBad = s.hbmBad := rfl
@[simp] theorem State.modTok_hbmSoft (s : State) (c q : Nat) (f : TokQ → TokQ) : (s.modTok c q f).hbmSoft = s.hbmSoft := rfl
@[simp] theorem State.modTok_hbmMended (s : State) (c q : Nat) (f : TokQ → TokQ) : (s.modTok c q f).hbmMended = s.hbmMended := rfl
@[simp] theorem State.modTok_today (s : State) (c q : Nat) (f : TokQ → TokQ) : (s.modTok c q f).today = s.today := rfl
@[simp] theorem State.modTok_accesses (s : State) (c q : Nat) (f : TokQ → TokQ) : (s.modTok c q f).accesses = s.accesses := rfl
@[simp] theorem State.modTok_replies (s : State) (c q : Nat) (f : TokQ → TokQ) : (s.modTok c q f).replies = s.replies := rfl
@[simp] theorem State.modTok_invals (s : State) (c q : Nat) (f : TokQ → TokQ) : (s.modTok c q f).invals = s.invals := rfl
@[simp] theorem State.modTok_messages (s : State) (c q : Nat) (f : TokQ → TokQ) : (s.modTok c q f).messages = s.messages := rfl
@[simp] theorem State.modTok_retries (s : State) (c q : Nat) (f : TokQ → TokQ) : (s.modTok c q f).retries = s.retries := rfl
@[simp] theorem State.modTok_arrived (s : State) (c q : Nat) (f : TokQ → TokQ) : (s.modTok c q f).arrived = s.arrived := rfl
@[simp] theorem State.modTok_blocked (s : State) (c q : Nat) (f : TokQ → TokQ) : (s.modTok c q f).blocked = s.blocked := rfl

/-! modWq -/
@[simp] theorem State.modWq_agenda (s : State) (q : Nat) (f : WorkQueue → WorkQueue) : (s.modWq q f).agenda = s.agenda := rfl
@[simp] theorem State.modWq_who (s : State) (q : Nat) (f : WorkQueue → WorkQueue) : (s.modWq q f).who = s.who := rfl
@[simp] theorem State.modWq_now (s : State) (q : Nat) (f : WorkQueue → WorkQueue) : (s.modWq q f).now = s.now := rfl
@[simp] theorem State.modWq_seq (s : State) (q : Nat) (f : WorkQueue → WorkQueue) : (s.modWq q f).seq = s.seq := rfl
@[simp] theorem State.modWq_free (s : State) (q : Nat) (f : WorkQueue → WorkQueue) : (s.modWq q f).free = s.free := rfl
@[simp] theorem State.modWq_cores (s : State) (q : Nat) (f : WorkQueue → WorkQueue) : (s.modWq q f).cores = s.cores := rfl
@[simp] theorem State.modWq_clusters (s : State) (q : Nat) (f : WorkQueue → WorkQueue) : (s.modWq q f).clusters = s.clusters := rfl
@[simp] theorem State.modWq_dies (s : State) (q : Nat) (f : WorkQueue → WorkQueue) : (s.modWq q f).dies = s.dies := rfl
@[simp] theorem State.modWq_hbm (s : State) (q : Nat) (f : WorkQueue → WorkQueue) : (s.modWq q f).hbm = s.hbm := rfl
@[simp] theorem State.modWq_hbmKeys (s : State) (q : Nat) (f : WorkQueue → WorkQueue) : (s.modWq q f).hbmKeys = s.hbmKeys := rfl
@[simp] theorem State.modWq_hbmBad (s : State) (q : Nat) (f : WorkQueue → WorkQueue) : (s.modWq q f).hbmBad = s.hbmBad := rfl
@[simp] theorem State.modWq_hbmSoft (s : State) (q : Nat) (f : WorkQueue → WorkQueue) : (s.modWq q f).hbmSoft = s.hbmSoft := rfl
@[simp] theorem State.modWq_hbmMended (s : State) (q : Nat) (f : WorkQueue → WorkQueue) : (s.modWq q f).hbmMended = s.hbmMended := rfl
@[simp] theorem State.modWq_today (s : State) (q : Nat) (f : WorkQueue → WorkQueue) : (s.modWq q f).today = s.today := rfl
@[simp] theorem State.modWq_accesses (s : State) (q : Nat) (f : WorkQueue → WorkQueue) : (s.modWq q f).accesses = s.accesses := rfl
@[simp] theorem State.modWq_replies (s : State) (q : Nat) (f : WorkQueue → WorkQueue) : (s.modWq q f).replies = s.replies := rfl
@[simp] theorem State.modWq_invals (s : State) (q : Nat) (f : WorkQueue → WorkQueue) : (s.modWq q f).invals = s.invals := rfl
@[simp] theorem State.modWq_messages (s : State) (q : Nat) (f : WorkQueue → WorkQueue) : (s.modWq q f).messages = s.messages := rfl
@[simp] theorem State.modWq_retries (s : State) (q : Nat) (f : WorkQueue → WorkQueue) : (s.modWq q f).retries = s.retries := rfl
@[simp] theorem State.modWq_arrived (s : State) (q : Nat) (f : WorkQueue → WorkQueue) : (s.modWq q f).arrived = s.arrived := rfl
@[simp] theorem State.modWq_blocked (s : State) (q : Nat) (f : WorkQueue → WorkQueue) : (s.modWq q f).blocked = s.blocked := rfl

/-! modLaunch -/
@[simp] theorem State.modLaunch_agenda (s : State) (id : Nat) (f : Launch → Launch) : (s.modLaunch id f).agenda = s.agenda := rfl
@[simp] theorem State.modLaunch_who (s : State) (id : Nat) (f : Launch → Launch) : (s.modLaunch id f).who = s.who := rfl
@[simp] theorem State.modLaunch_now (s : State) (id : Nat) (f : Launch → Launch) : (s.modLaunch id f).now = s.now := rfl
@[simp] theorem State.modLaunch_seq (s : State) (id : Nat) (f : Launch → Launch) : (s.modLaunch id f).seq = s.seq := rfl
@[simp] theorem State.modLaunch_free (s : State) (id : Nat) (f : Launch → Launch) : (s.modLaunch id f).free = s.free := rfl
@[simp] theorem State.modLaunch_cores (s : State) (id : Nat) (f : Launch → Launch) : (s.modLaunch id f).cores = s.cores := rfl
@[simp] theorem State.modLaunch_clusters (s : State) (id : Nat) (f : Launch → Launch) : (s.modLaunch id f).clusters = s.clusters := rfl
@[simp] theorem State.modLaunch_dies (s : State) (id : Nat) (f : Launch → Launch) : (s.modLaunch id f).dies = s.dies := rfl
@[simp] theorem State.modLaunch_hbm (s : State) (id : Nat) (f : Launch → Launch) : (s.modLaunch id f).hbm = s.hbm := rfl
@[simp] theorem State.modLaunch_hbmKeys (s : State) (id : Nat) (f : Launch → Launch) : (s.modLaunch id f).hbmKeys = s.hbmKeys := rfl
@[simp] theorem State.modLaunch_hbmBad (s : State) (id : Nat) (f : Launch → Launch) : (s.modLaunch id f).hbmBad = s.hbmBad := rfl
@[simp] theorem State.modLaunch_hbmSoft (s : State) (id : Nat) (f : Launch → Launch) : (s.modLaunch id f).hbmSoft = s.hbmSoft := rfl
@[simp] theorem State.modLaunch_hbmMended (s : State) (id : Nat) (f : Launch → Launch) : (s.modLaunch id f).hbmMended = s.hbmMended := rfl
@[simp] theorem State.modLaunch_today (s : State) (id : Nat) (f : Launch → Launch) : (s.modLaunch id f).today = s.today := rfl
@[simp] theorem State.modLaunch_accesses (s : State) (id : Nat) (f : Launch → Launch) : (s.modLaunch id f).accesses = s.accesses := rfl
@[simp] theorem State.modLaunch_replies (s : State) (id : Nat) (f : Launch → Launch) : (s.modLaunch id f).replies = s.replies := rfl
@[simp] theorem State.modLaunch_invals (s : State) (id : Nat) (f : Launch → Launch) : (s.modLaunch id f).invals = s.invals := rfl
@[simp] theorem State.modLaunch_messages (s : State) (id : Nat) (f : Launch → Launch) : (s.modLaunch id f).messages = s.messages := rfl
@[simp] theorem State.modLaunch_retries (s : State) (id : Nat) (f : Launch → Launch) : (s.modLaunch id f).retries = s.retries := rfl
@[simp] theorem State.modLaunch_arrived (s : State) (id : Nat) (f : Launch → Launch) : (s.modLaunch id f).arrived = s.arrived := rfl
@[simp] theorem State.modLaunch_blocked (s : State) (id : Nat) (f : Launch → Launch) : (s.modLaunch id f).blocked = s.blocked := rfl

/-! modLink -/
@[simp] theorem State.modLink_agenda (s : State) (l : Link) (f : LinkState → LinkState) : (s.modLink l f).agenda = s.agenda := rfl
@[simp] theorem State.modLink_who (s : State) (l : Link) (f : LinkState → LinkState) : (s.modLink l f).who = s.who := rfl
@[simp] theorem State.modLink_now (s : State) (l : Link) (f : LinkState → LinkState) : (s.modLink l f).now = s.now := rfl
@[simp] theorem State.modLink_seq (s : State) (l : Link) (f : LinkState → LinkState) : (s.modLink l f).seq = s.seq := rfl
@[simp] theorem State.modLink_free (s : State) (l : Link) (f : LinkState → LinkState) : (s.modLink l f).free = s.free := rfl
@[simp] theorem State.modLink_cores (s : State) (l : Link) (f : LinkState → LinkState) : (s.modLink l f).cores = s.cores := rfl
@[simp] theorem State.modLink_clusters (s : State) (l : Link) (f : LinkState → LinkState) : (s.modLink l f).clusters = s.clusters := rfl
@[simp] theorem State.modLink_dies (s : State) (l : Link) (f : LinkState → LinkState) : (s.modLink l f).dies = s.dies := rfl
@[simp] theorem State.modLink_hbm (s : State) (l : Link) (f : LinkState → LinkState) : (s.modLink l f).hbm = s.hbm := rfl
@[simp] theorem State.modLink_hbmKeys (s : State) (l : Link) (f : LinkState → LinkState) : (s.modLink l f).hbmKeys = s.hbmKeys := rfl
@[simp] theorem State.modLink_hbmBad (s : State) (l : Link) (f : LinkState → LinkState) : (s.modLink l f).hbmBad = s.hbmBad := rfl
@[simp] theorem State.modLink_hbmSoft (s : State) (l : Link) (f : LinkState → LinkState) : (s.modLink l f).hbmSoft = s.hbmSoft := rfl
@[simp] theorem State.modLink_hbmMended (s : State) (l : Link) (f : LinkState → LinkState) : (s.modLink l f).hbmMended = s.hbmMended := rfl
@[simp] theorem State.modLink_today (s : State) (l : Link) (f : LinkState → LinkState) : (s.modLink l f).today = s.today := rfl
@[simp] theorem State.modLink_accesses (s : State) (l : Link) (f : LinkState → LinkState) : (s.modLink l f).accesses = s.accesses := rfl
@[simp] theorem State.modLink_replies (s : State) (l : Link) (f : LinkState → LinkState) : (s.modLink l f).replies = s.replies := rfl
@[simp] theorem State.modLink_invals (s : State) (l : Link) (f : LinkState → LinkState) : (s.modLink l f).invals = s.invals := rfl
@[simp] theorem State.modLink_messages (s : State) (l : Link) (f : LinkState → LinkState) : (s.modLink l f).messages = s.messages := rfl
@[simp] theorem State.modLink_retries (s : State) (l : Link) (f : LinkState → LinkState) : (s.modLink l f).retries = s.retries := rfl
@[simp] theorem State.modLink_arrived (s : State) (l : Link) (f : LinkState → LinkState) : (s.modLink l f).arrived = s.arrived := rfl
@[simp] theorem State.modLink_blocked (s : State) (l : Link) (f : LinkState → LinkState) : (s.modLink l f).blocked = s.blocked := rfl

/-! modMe -/
@[simp] theorem State.modMe_agenda (s : State) (f : Ctx → Ctx) : (s.modMe f).agenda = s.agenda := rfl
@[simp] theorem State.modMe_who (s : State) (f : Ctx → Ctx) : (s.modMe f).who = s.who := rfl
@[simp] theorem State.modMe_now (s : State) (f : Ctx → Ctx) : (s.modMe f).now = s.now := rfl
@[simp] theorem State.modMe_seq (s : State) (f : Ctx → Ctx) : (s.modMe f).seq = s.seq := rfl
@[simp] theorem State.modMe_free (s : State) (f : Ctx → Ctx) : (s.modMe f).free = s.free := rfl
@[simp] theorem State.modMe_clusters (s : State) (f : Ctx → Ctx) : (s.modMe f).clusters = s.clusters := rfl
@[simp] theorem State.modMe_dies (s : State) (f : Ctx → Ctx) : (s.modMe f).dies = s.dies := rfl
@[simp] theorem State.modMe_hub (s : State) (f : Ctx → Ctx) : (s.modMe f).hub = s.hub := rfl
@[simp] theorem State.modMe_hbm (s : State) (f : Ctx → Ctx) : (s.modMe f).hbm = s.hbm := rfl
@[simp] theorem State.modMe_hbmKeys (s : State) (f : Ctx → Ctx) : (s.modMe f).hbmKeys = s.hbmKeys := rfl
@[simp] theorem State.modMe_hbmBad (s : State) (f : Ctx → Ctx) : (s.modMe f).hbmBad = s.hbmBad := rfl
@[simp] theorem State.modMe_hbmSoft (s : State) (f : Ctx → Ctx) : (s.modMe f).hbmSoft = s.hbmSoft := rfl
@[simp] theorem State.modMe_hbmMended (s : State) (f : Ctx → Ctx) : (s.modMe f).hbmMended = s.hbmMended := rfl
@[simp] theorem State.modMe_today (s : State) (f : Ctx → Ctx) : (s.modMe f).today = s.today := rfl
@[simp] theorem State.modMe_accesses (s : State) (f : Ctx → Ctx) : (s.modMe f).accesses = s.accesses := rfl
@[simp] theorem State.modMe_replies (s : State) (f : Ctx → Ctx) : (s.modMe f).replies = s.replies := rfl
@[simp] theorem State.modMe_invals (s : State) (f : Ctx → Ctx) : (s.modMe f).invals = s.invals := rfl
@[simp] theorem State.modMe_messages (s : State) (f : Ctx → Ctx) : (s.modMe f).messages = s.messages := rfl
@[simp] theorem State.modMe_retries (s : State) (f : Ctx → Ctx) : (s.modMe f).retries = s.retries := rfl
@[simp] theorem State.modMe_arrived (s : State) (f : Ctx → Ctx) : (s.modMe f).arrived = s.arrived := rfl
@[simp] theorem State.modMe_blocked (s : State) (f : Ctx → Ctx) : (s.modMe f).blocked = s.blocked := rfl

/-! modG -/
@[simp] theorem State.modG_agenda (s : State) (f : Engine → Engine) : (s.modG f).agenda = s.agenda := rfl
@[simp] theorem State.modG_who (s : State) (f : Engine → Engine) : (s.modG f).who = s.who := rfl
@[simp] theorem State.modG_now (s : State) (f : Engine → Engine) : (s.modG f).now = s.now := rfl
@[simp] theorem State.modG_seq (s : State) (f : Engine → Engine) : (s.modG f).seq = s.seq := rfl
@[simp] theorem State.modG_free (s : State) (f : Engine → Engine) : (s.modG f).free = s.free := rfl
@[simp] theorem State.modG_clusters (s : State) (f : Engine → Engine) : (s.modG f).clusters = s.clusters := rfl
@[simp] theorem State.modG_dies (s : State) (f : Engine → Engine) : (s.modG f).dies = s.dies := rfl
@[simp] theorem State.modG_hub (s : State) (f : Engine → Engine) : (s.modG f).hub = s.hub := rfl
@[simp] theorem State.modG_hbm (s : State) (f : Engine → Engine) : (s.modG f).hbm = s.hbm := rfl
@[simp] theorem State.modG_hbmKeys (s : State) (f : Engine → Engine) : (s.modG f).hbmKeys = s.hbmKeys := rfl
@[simp] theorem State.modG_hbmBad (s : State) (f : Engine → Engine) : (s.modG f).hbmBad = s.hbmBad := rfl
@[simp] theorem State.modG_hbmSoft (s : State) (f : Engine → Engine) : (s.modG f).hbmSoft = s.hbmSoft := rfl
@[simp] theorem State.modG_hbmMended (s : State) (f : Engine → Engine) : (s.modG f).hbmMended = s.hbmMended := rfl
@[simp] theorem State.modG_today (s : State) (f : Engine → Engine) : (s.modG f).today = s.today := rfl
@[simp] theorem State.modG_accesses (s : State) (f : Engine → Engine) : (s.modG f).accesses = s.accesses := rfl
@[simp] theorem State.modG_replies (s : State) (f : Engine → Engine) : (s.modG f).replies = s.replies := rfl
@[simp] theorem State.modG_invals (s : State) (f : Engine → Engine) : (s.modG f).invals = s.invals := rfl
@[simp] theorem State.modG_messages (s : State) (f : Engine → Engine) : (s.modG f).messages = s.messages := rfl
@[simp] theorem State.modG_retries (s : State) (f : Engine → Engine) : (s.modG f).retries = s.retries := rfl
@[simp] theorem State.modG_arrived (s : State) (f : Engine → Engine) : (s.modG f).arrived = s.arrived := rfl
@[simp] theorem State.modG_blocked (s : State) (f : Engine → Engine) : (s.modG f).blocked = s.blocked := rfl

/-! modMyCp -/
@[simp] theorem State.modMyCp_agenda (s : State) (f : Cp → Cp) : (s.modMyCp f).agenda = s.agenda := rfl
@[simp] theorem State.modMyCp_who (s : State) (f : Cp → Cp) : (s.modMyCp f).who = s.who := rfl
@[simp] theorem State.modMyCp_now (s : State) (f : Cp → Cp) : (s.modMyCp f).now = s.now := rfl
@[simp] theorem State.modMyCp_seq (s : State) (f : Cp → Cp) : (s.modMyCp f).seq = s.seq := rfl
@[simp] theorem State.modMyCp_free (s : State) (f : Cp → Cp) : (s.modMyCp f).free = s.free := rfl
@[simp] theorem State.modMyCp_clusters (s : State) (f : Cp → Cp) : (s.modMyCp f).clusters = s.clusters := rfl
@[simp] theorem State.modMyCp_dies (s : State) (f : Cp → Cp) : (s.modMyCp f).dies = s.dies := rfl
@[simp] theorem State.modMyCp_hub (s : State) (f : Cp → Cp) : (s.modMyCp f).hub = s.hub := rfl
@[simp] theorem State.modMyCp_hbm (s : State) (f : Cp → Cp) : (s.modMyCp f).hbm = s.hbm := rfl
@[simp] theorem State.modMyCp_hbmKeys (s : State) (f : Cp → Cp) : (s.modMyCp f).hbmKeys = s.hbmKeys := rfl
@[simp] theorem State.modMyCp_hbmBad (s : State) (f : Cp → Cp) : (s.modMyCp f).hbmBad = s.hbmBad := rfl
@[simp] theorem State.modMyCp_hbmSoft (s : State) (f : Cp → Cp) : (s.modMyCp f).hbmSoft = s.hbmSoft := rfl
@[simp] theorem State.modMyCp_hbmMended (s : State) (f : Cp → Cp) : (s.modMyCp f).hbmMended = s.hbmMended := rfl
@[simp] theorem State.modMyCp_today (s : State) (f : Cp → Cp) : (s.modMyCp f).today = s.today := rfl
@[simp] theorem State.modMyCp_accesses (s : State) (f : Cp → Cp) : (s.modMyCp f).accesses = s.accesses := rfl
@[simp] theorem State.modMyCp_replies (s : State) (f : Cp → Cp) : (s.modMyCp f).replies = s.replies := rfl
@[simp] theorem State.modMyCp_invals (s : State) (f : Cp → Cp) : (s.modMyCp f).invals = s.invals := rfl
@[simp] theorem State.modMyCp_messages (s : State) (f : Cp → Cp) : (s.modMyCp f).messages = s.messages := rfl
@[simp] theorem State.modMyCp_retries (s : State) (f : Cp → Cp) : (s.modMyCp f).retries = s.retries := rfl
@[simp] theorem State.modMyCp_arrived (s : State) (f : Cp → Cp) : (s.modMyCp f).arrived = s.arrived := rfl
@[simp] theorem State.modMyCp_blocked (s : State) (f : Cp → Cp) : (s.modMyCp f).blocked = s.blocked := rfl

/-! Reads after updates. -/

@[simp] theorem core_setCore (s : State) (c : Nat) (k : Core) : (s.setCore c k).core c = k := sget_sset_same _ _ _ _
theorem core_setCore_ne (s : State) (c d : Nat) (k : Core) (h : d ≠ c) : (s.setCore c k).core d = s.core d := sget_sset_ne _ _ _ _ _ h
@[simp] theorem core_modCore (s : State) (c : Nat) (f : Core → Core) : (s.modCore c f).core c = f (s.core c) := core_setCore _ _ _
theorem core_modCore_ne (s : State) (c d : Nat) (f : Core → Core) (h : d ≠ c) : (s.modCore c f).core d = s.core d := core_setCore_ne _ _ _ _ h

@[simp] theorem arch_modArch (s : State) (c : Nat) (f : Arch → Arch) : (s.modArch c f).arch c = f (s.arch c) := by simp [State.arch, State.modArch]
@[simp] theorem seqs_modSeqs (s : State) (c : Nat) (f : Seqs → Seqs) : (s.modSeqs c f).seqs c = f (s.seqs c) := by
  simp [State.seqs, State.modSeqs, State.modArch]
@[simp] theorem csrs_modCsrs (s : State) (c : Nat) (f : Csrs → Csrs) : ((s.modCsrs c f).arch c).csrs = f (s.arch c).csrs := by simp [State.modCsrs]
@[simp] theorem ctx_modCtx (s : State) (c k : Nat) (f : Ctx → Ctx) : (s.modCtx c k f).ctx c k = f (s.ctx c k) := by simp [State.ctx, State.modCtx]
theorem ctx_modCtx_ne (s : State) (c k d j : Nat) (f : Ctx → Ctx) (h : (d, j) ≠ (c, k)) : (s.modCtx c k f).ctx d j = s.ctx d j := by
  by_cases hc : d = c
  · subst hc
    have hj : j ≠ k := fun hj => h (by rw [hj])
    simp [State.ctx, State.modCtx, sget_sset_ne _ _ _ _ _ hj]
  · simp [State.ctx, State.modCtx, State.modSeqs, State.modArch, State.seqs, core_modCore_ne _ _ _ _ hc]
@[simp] theorem cp_modCp (s : State) (c : Nat) (f : Cp → Cp) : (s.modCp c f).cp c = f (s.cp c) := by simp [State.cp, State.modCp]
@[simp] theorem eng_modEng (s : State) (c : Nat) (e : Eng) (f : Engine → Engine) : (s.modEng c e f).eng c e = f (s.eng c e) := by
  cases e <;> simp [State.eng, State.modEng]
@[simp] theorem run_modRun (s : State) (c : Nat) (f : Running → Running) : (s.modRun c f).run c = (s.run c).map f := by simp [State.run, State.modRun]
@[simp] theorem ring_modRing (s : State) (c n : Nat) (f : Ring → Ring) : (s.modRing c n f).ring c n = f (s.ring c n) := by simp [State.ring, State.modRing]
@[simp] theorem bar_modBar (s : State) (c n : Nat) (f : Barrier → Barrier) : (s.modBar c n f).bar c n = f (s.bar c n) := by simp [State.bar, State.modBar]
@[simp] theorem slot_modSlot (s : State) (c n : Nat) (f : PatchSlot → PatchSlot) : (s.modSlot c n f).slot c n = f (s.slot c n) := by simp [State.slot, State.modSlot]
@[simp] theorem tok_modTok (s : State) (c q : Nat) (f : TokQ → TokQ) : (s.modTok c q f).tok c q = f (s.tok c q) := by simp [State.tok, State.modTok]
@[simp] theorem die_modDie (s : State) (d : Nat) (f : Die → Die) : (s.modDie d f).die d = f (s.die d) := sget_sset_same _ _ _ _
@[simp] theorem cluster_modCluster (s : State) (g : Nat) (f : Cluster → Cluster) : (s.modCluster g f).cluster g = f (s.cluster g) := sget_sset_same _ _ _ _
@[simp] theorem hub_modHub (s : State) (f : Hub → Hub) : (s.modHub f).hub = f s.hub := rfl
@[simp] theorem wq_modWq (s : State) (q : Nat) (f : WorkQueue → WorkQueue) : (s.modWq q f).wq q = f (s.wq q) := by simp [State.wq, State.modWq]
@[simp] theorem link_modLink (s : State) (l : Link) (f : LinkState → LinkState) : (s.modLink l f).link l = f (s.link l) := by
  simp [State.link, State.modLink]

/-! Two updates of one part are one. -/

@[simp] theorem setCore_setCore (s : State) (c : Nat) (k l : Core) : (s.setCore c k).setCore c l = s.setCore c l := by
  simp [State.setCore]
@[simp] theorem modCore_modCore (s : State) (c : Nat) (f g : Core → Core) : (s.modCore c f).modCore c g = s.modCore c (fun k => g (f k)) := by
  simp [State.modCore]
@[simp] theorem modArch_modArch (s : State) (c : Nat) (f g : Arch → Arch) : (s.modArch c f).modArch c g = s.modArch c (fun a => g (f a)) := by
  simp [State.modArch]
@[simp] theorem modSeqs_modSeqs (s : State) (c : Nat) (f g : Seqs → Seqs) : (s.modSeqs c f).modSeqs c g = s.modSeqs c (fun q => g (f q)) := by
  simp [State.modSeqs]
@[simp] theorem modCtx_modCtx (s : State) (c k : Nat) (f g : Ctx → Ctx) : (s.modCtx c k f).modCtx c k g = s.modCtx c k (fun t => g (f t)) := by
  simp [State.modCtx]
@[simp] theorem modCp_modCp (s : State) (c : Nat) (f g : Cp → Cp) : (s.modCp c f).modCp c g = s.modCp c (fun p => g (f p)) := by simp [State.modCp]
@[simp] theorem modEng_modEng (s : State) (c : Nat) (e : Eng) (f g : Engine → Engine) :
    (s.modEng c e f).modEng c e g = s.modEng c e (fun x => g (f x)) := by
  cases e <;> simp [State.modEng]

end Sys2Proof.Machine
end

