-- ==== Sys2Proof/Laws/Ops.lean ====
section
/-! SUPPORT. What the shared operations of the sequencers do, said once: an instruction that writes a register and goes on, a jump, a wait. -/

namespace Sys2Proof.Machine

/-! Frames. -/

theorem sameMemory_refl (s : State) : SameMemory s s := ⟨fun _ _ => rfl, fun _ _ => rfl⟩

theorem sameMemory_trans {s t u : State} (h : SameMemory s t) (g : SameMemory t u) : SameMemory s u :=
  ⟨fun c a => (g.1 c a).trans (h.1 c a), fun i a => (g.2 i a).trans (h.2 i a)⟩

/-- HBM is read from three fields alone. -/
theorem hbmByte_congr {s t : State} (h1 : t.hbm = s.hbm) (h2 : t.hbmKeys = s.hbmKeys) (h3 : t.hub.keys = s.hub.keys) (id a : Nat) :
    t.hbmByte id a = s.hbmByte id a := by
  unfold State.hbmByte State.hbmBlock State.key; rw [h1, h2, h3]

theorem core_modCore_cases (s : State) (c x : Nat) (f : Core → Core) :
    (s.modCore c f).core x = if x = c then f (s.core c) else s.core x := by
  split_ifs with h
  · subst h; simp
  · exact core_modCore_ne s c x f h

/-- A change of a core that leaves its slice alone changes no memory. -/
theorem sameMemory_modCore (s : State) (c : Nat) (f : Core → Core) (h : (f (s.core c)).spad = (s.core c).spad) :
    SameMemory s (s.modCore c f) := by
  refine ⟨fun x a => ?_, fun i a => hbmByte_congr (by simp) (by simp) (by simp) i a⟩
  rw [core_modCore_cases]; split_ifs with hx
  · subst hx; rw [h]
  · rfl

theorem sameMemory_modArch (s : State) (c : Nat) (f : Arch → Arch) : SameMemory s (s.modArch c f) := sameMemory_modCore s c _ rfl
theorem sameMemory_modSeqs (s : State) (c : Nat) (f : Seqs → Seqs) : SameMemory s (s.modSeqs c f) := sameMemory_modArch s c _
theorem sameMemory_modCtx (s : State) (c k : Nat) (f : Ctx → Ctx) : SameMemory s (s.modCtx c k f) := sameMemory_modSeqs s c _
theorem sameMemory_modCp (s : State) (c : Nat) (f : Cp → Cp) : SameMemory s (s.modCp c f) := sameMemory_modSeqs s c _
theorem sameMemory_modEng (s : State) (c : Nat) (e : Eng) (f : Engine → Engine) : SameMemory s (s.modEng c e f) := sameMemory_modSeqs s c _

theorem onlyCtx_modCtx (s : State) (c k : Nat) (f : Ctx → Ctx) : OnlyCtx s (s.modCtx c k f) c k := by
  simp only [OnlyCtx, ctx_modCtx]; rfl

theorem onlyCp_modCp (s : State) (c : Nat) (f : Cp → Cp) : OnlyCp s (s.modCp c f) c := by
  simp only [OnlyCp, cp_modCp]; rfl

/-! Registers of a context. -/

theorem Ctx.x_setX (t : Ctx) (d r : Nat) (v : Word) : (t.setX d v).x r = if r = d ∧ d ≠ 0 then v else t.x r := by
  unfold Ctx.setX Ctx.x
  split_ifs <;> simp_all [sget_sset]

theorem Ctx.setX_frame (t : Ctx) (d : Nat) (v : Word) : t.setX d v = { t with regs := (t.setX d v).regs } := by
  unfold Ctx.setX; split_ifs <;> rfl

/-- The acting context after a change of it. -/
theorem me_modMe (s : State) (f : Ctx → Ctx) : (s.modMe f).me = f s.me := by
  simp [State.me, State.modMe, State.k]

theorem onlyCtx_modMe (s : State) (f : Ctx → Ctx) : OnlyCtx s (s.modMe f) s.c s.k := onlyCtx_modCtx s s.c s.k f
theorem sameMemory_modMe (s : State) (f : Ctx → Ctx) : SameMemory s (s.modMe f) := sameMemory_modCtx s s.c s.k f

theorem modMe_modMe (s : State) (f g : Ctx → Ctx) : (s.modMe f).modMe g = s.modMe (g ∘ f) := by
  simp only [State.modMe]
  exact modCtx_modCtx s s.who.core s.k f g

/-! The shared ends of an instruction. -/

theorem put_eq (s : State) (d : Nat) (v : Word) :
    s.put d v = s.modMe (fun t => { t.setX d v with pc := (t.setX d v).pc + 4, wait := .none }) := by
  simp only [State.put, State.pass, modMe_modMe]; rfl

/-- Writing xd and going on is all that `put` does. -/
theorem put_gives (s : State) (d : Nat) (v : Word) : GivesX s d v (s.put d v) := by
  rw [put_eq]
  refine ⟨fun r => ?_, ?_, onlyCtx_modCtx _ _ _ _, sameMemory_modCtx _ _ _ _⟩
  · simp only [State.x, me_modMe]
    exact Ctx.x_setX s.me d r v
  · simp only [CtxGoes, me_modMe]
    rw [Ctx.setX_frame]

theorem jump_to (s : State) (d : Nat) (pc : Word) : JumpsTo s d pc (s.jump d pc) := by
  have h : s.jump d pc = s.modMe (fun t => { t.setX d (t.pc + 4) with pc := pc, wait := .none }) := by
    simp only [State.jump, State.goto, modMe_modMe]; rfl
  rw [h]
  refine ⟨fun r => ?_, ?_, onlyCtx_modCtx _ _ _ _, sameMemory_modCtx _ _ _ _⟩
  · simp only [State.x, me_modMe]; exact Ctx.x_setX s.me d r _
  · simp only [CtxGoes, me_modMe]
    rw [Ctx.setX_frame]

theorem goto_to (s : State) (pc : Word) : GoesTo s pc (s.goto pc) := by
  refine ⟨fun r => ?_, ?_, onlyCtx_modMe _ _, sameMemory_modMe _ _⟩
  · simp only [State.goto, State.x, me_modMe]; rfl
  · simp only [CtxGoes, State.goto, me_modMe]

theorem pass_to (s : State) : GoesTo s (s.me.pc + 4) s.pass := by
  refine ⟨fun r => ?_, ?_, onlyCtx_modMe _ _, sameMemory_modMe _ _⟩
  · simp only [State.pass, State.x, me_modMe]; rfl
  · simp only [CtxGoes, State.pass, me_modMe]

theorem block_waits (s : State) (w : Wait) : WaitsIn s w (s.block w) := by
  refine ⟨?_, onlyCtx_modMe _ _, sameMemory_modMe _ _⟩
  simp only [State.block, me_modMe]

/-- A field of a number is 0 exactly when its bits are. -/
theorem field_zero (e a n : Nat) : e / 2 ^ a % 2 ^ n = 0 ↔ ∀ b, a ≤ b → b < a + n → e.testBit b = false := by
  constructor
  · intro h b h1 h2
    have := congrArg (fun x => x.testBit (b - a)) h
    simp only [Nat.testBit_mod_two_pow, Nat.testBit_div_two_pow, Nat.zero_testBit] at this
    rw [show b - a + a = b by omega] at this
    simpa [show b - a < n by omega] using this
  · intro h
    apply Nat.eq_of_testBit_eq
    intro i
    simp only [Nat.testBit_mod_two_pow, Nat.testBit_div_two_pow, Nat.zero_testBit]
    by_cases hi : i < n
    · rw [h (i + a) (by omega) (by omega)]; simp
    · simp [hi]

end Sys2Proof.Machine
end

