-- ==== Sys2Proof/Laws/Scalar.lean ====
section
/-! SUPPORT. The scalar values of 12 R177 as numbers: quotients, remainders, shifts, leading zeros, set bits. -/

namespace Sys2Proof.Machine

theorem word_of_nat {x : Word} {n : Nat} (h : n = x.toNat) : x = BitVec.ofNat 64 n := by subst h; simp
theorem word_of_int {x : Word} {n : Int} (h : n = x.toInt) : x = BitVec.ofInt 64 n := by subst h; simp

theorem mul_nat (x y : Word) : x * y = BitVec.ofNat 64 (x.toNat * y.toNat) := by
  apply BitVec.eq_of_toNat_eq; simp [BitVec.toNat_mul]
theorem div_nat (x y : Word) : x / y = BitVec.ofNat 64 (x.toNat / y.toNat) := word_of_nat (by simp)
theorem mod_nat (x y : Word) : x % y = BitVec.ofNat 64 (x.toNat % y.toNat) := word_of_nat (by simp)
theorem shl_nat (x : Word) (n : Nat) : x <<< n = BitVec.ofNat 64 (x.toNat * 2 ^ n) := by
  apply BitVec.eq_of_toNat_eq; simp [BitVec.toNat_shiftLeft, Nat.shiftLeft_eq]
theorem shr_nat (x : Word) (n : Nat) : x >>> n = BitVec.ofNat 64 (x.toNat / 2 ^ n) := word_of_nat (by simp [Nat.shiftRight_eq_div_pow])
theorem sdiv_int (x y : Word) : BitVec.sdiv x y = BitVec.ofInt 64 (Int.tdiv x.toInt y.toInt) := by
  apply BitVec.eq_of_toInt_eq; simp [BitVec.toInt_sdiv]
theorem srem_int (x y : Word) : BitVec.srem x y = BitVec.ofInt 64 (Int.tmod x.toInt y.toInt) := word_of_int (by simp [BitVec.toInt_srem])
theorem sra_int (x : Word) (n : Nat) : BitVec.sshiftRight x n = BitVec.ofInt 64 (x.toInt / 2 ^ n) :=
  word_of_int (by simp [BitVec.toInt_sshiftRight, Int.shiftRight_eq_div_pow])

/-- CLZ counts the zeros above the highest set bit. -/
theorem aluClz_spec (x : Word) :
    ∃ n : Nat, aluClz x = BitVec.ofNat 64 n ∧ n ≤ 64 ∧ x.toNat < 2 ^ (64 - n) ∧ (n < 64 → 2 ^ (63 - n) ≤ x.toNat) := by
  by_cases h : x = 0
  · exact ⟨64, by simp [aluClz, h], le_refl _, by simp [h], by simp⟩
  · have hx : x.toNat ≠ 0 := fun e => h (BitVec.eq_of_toNat_eq (by simpa using e))
    have hl : Nat.log2 x.toNat < 64 := (Nat.log2_lt hx).2 x.isLt
    refine ⟨63 - Nat.log2 x.toNat, by simp only [aluClz, if_neg h], by omega, ?_, fun _ => ?_⟩
    · rw [show 64 - (63 - Nat.log2 x.toNat) = Nat.log2 x.toNat + 1 by omega]; exact Nat.lt_log2_self
    · rw [show 63 - (63 - Nat.log2 x.toNat) = Nat.log2 x.toNat by omega]; exact Nat.log2_self_le hx

/-- Counting the set bits of the low n. -/
theorem countBits_countP (n x : Nat) : countBits n x = (List.range n).countP (fun i => x.testBit i) := by
  induction n generalizing x with
  | zero => rfl
  | succ n ih =>
    rw [countBits, ih, List.range_succ_eq_map, List.countP_cons, List.countP_map]
    simp only [Function.comp_def, Nat.testBit_succ, Nat.testBit_zero]
    have : x % 2 = if decide (x % 2 = 1) = true then 1 else 0 := by
      rcases Nat.mod_two_eq_zero_or_one x with h | h <;> simp [h]
    omega

theorem aluPopc_countP (x : Word) : aluPopc x = BitVec.ofNat 64 ((List.range 64).countP (fun i => x.getLsbD i)) := by
  simp [aluPopc, countBits_countP, BitVec.getLsbD]

/-! From the shared ends to the statements' terms. -/

theorem ends_put {i : Instr} {s : State} {d : Nat} {v w : Word} (h : exec i s = .next (s.put d v)) (e : v = w) : Ends i s (GivesX s d w) :=
  ⟨_, h, e ▸ put_gives s d v⟩
theorem ends_jump {i : Instr} {s : State} {d : Nat} {pc : Word} (h : exec i s = .next (s.jump d pc)) : Ends i s (JumpsTo s d pc) :=
  ⟨_, h, jump_to s d pc⟩
theorem ends_pass {i : Instr} {s : State} (h : exec i s = .next s.pass) : Ends i s (GoesTo s (s.me.pc + 4)) := ⟨_, h, pass_to s⟩
theorem ends_goto {i : Instr} {s : State} {pc : Word} (h : exec i s = .next (s.goto pc)) : Ends i s (GoesTo s pc) := ⟨_, h, goto_to s pc⟩
theorem ends_block {i : Instr} {s : State} {w : Wait} (h : exec i s = .next (s.block w)) : Ends i s (WaitsIn s w) := ⟨_, h, block_waits s w⟩

/-! Long immediates and offsets. -/

theorem signExtend_shift {n : Nat} (i : BitVec n) (k : Nat) : i.signExtend 64 <<< k = BitVec.ofInt 64 (i.toInt * 2 ^ k) := by
  have h : BitVec.ofInt 64 ((2 : Int) ^ k) = BitVec.twoPow 64 k := by
    apply BitVec.eq_of_toNat_eq
    rw [show ((2 : Int) ^ k) = ((2 ^ k : Nat) : Int) by push_cast; rfl, BitVec.ofInt_natCast]
    simp [BitVec.toNat_twoPow]
  rw [BitVec.shiftLeft_eq_mul_twoPow, BitVec.ofInt_mul, h]; rfl

theorem upper_int (u : BitVec 20) : upper u = BitVec.ofInt 64 (u.toInt * 2 ^ 14) := signExtend_shift u 14
theorem offset20 (u : BitVec 20) : u.signExtend 64 <<< 2 = BitVec.ofInt 64 (4 * u.toInt) := by
  rw [signExtend_shift u 2, mul_comm]; norm_num
theorem offset14 (u : BitVec 14) : u.signExtend 64 <<< 2 = BitVec.ofInt 64 (4 * u.toInt) := by
  rw [signExtend_shift u 2, mul_comm]; norm_num

/-- A branch goes on at its target if its condition holds, else behind its word. -/
theorem ends_branch {i : Instr} {s : State} {a b : Nat} {o : BitVec 14} {cond : Word → Word → Bool} {pc : Word} (h : exec i s = branch cond a b o s)
    (e : (if cond (s.x a) (s.x b) then s.me.pc + o.signExtend 64 <<< 2 else s.me.pc + 4) = pc) : Ends i s (GoesTo s pc) := by
  refine ⟨_, h, ?_⟩
  subst e; split_ifs
  · exact goto_to _ _
  · exact pass_to _

end Sys2Proof.Machine
end

