-- ==== Sys2Proof/Laws/Access.lean ====
section
/-! SUPPORT. The issue of an SC access: what `sendAccess` does, and when a load, store, atomic or deque word comes to it. -/

namespace Sys2Proof.Machine

theorem mem_insertNat {l : List Nat} {n r : Nat} : r ∈ insertNat l n ↔ r ∈ l ∨ r = n := by
  induction l with
  | nil => simp [insertNat]
  | cons k t ih =>
    simp only [insertNat]; split_ifs with h1 h2
    · simp only [List.mem_cons]; tauto
    · subst h2; simp only [List.mem_cons]; tauto
    · simp only [List.mem_cons, ih]; tauto

theorem onlyCore_modCore (s : State) (c : Nat) (f : Core → Core) : OnlyCore s (s.modCore c f) c := by
  simp only [OnlyCore, core_modCore]; rfl

theorem onlyCore_modArch (s : State) (c : Nat) (f : Arch → Arch) : OnlyCore s (s.modArch c f) c :=
  onlyCore_modCore s c (fun k => { k with arch := f k.arch })
theorem onlyCore_modSeqs (s : State) (c : Nat) (f : Seqs → Seqs) : OnlyCore s (s.modSeqs c f) c :=
  onlyCore_modArch s c (fun a => { a with seqs := f a.seqs })
theorem onlyCore_modCtx (s : State) (c k : Nat) (f : Ctx → Ctx) : OnlyCore s (s.modCtx c k f) c :=
  onlyCore_modSeqs s c (fun q => { q with ctxs := sset q.ctxs k (f (sget {} q.ctxs k)) })
theorem onlyCore_modRun (s : State) (c : Nat) (f : Running → Running) : OnlyCore s (s.modRun c f) c :=
  onlyCore_modArch s c (fun a => { a with run := a.run.map f })

theorem onlyCore_trans {s t u : State} {c : Nat} (h : OnlyCore s t c) (g : OnlyCore t u c) : OnlyCore s u c := by
  unfold OnlyCore at *
  rw [g, h]; simp [modCore_modCore]

theorem ctx_modRun (s : State) (c d k : Nat) (f : Running → Running) : (s.modRun c f).ctx d k = s.ctx d k := by
  simp only [State.ctx, State.seqs, State.modRun, State.modArch, core_modCore_cases]
  split_ifs with h
  · subst h; rfl
  · rfl

/-- The memories of a state are in its cores, HBM and keys alone. -/
theorem sameMemory_congr {s t : State} (h0 : t.cores = s.cores) (h1 : t.hbm = s.hbm) (h2 : t.hbmKeys = s.hbmKeys) (h3 : t.hub.keys = s.hub.keys) :
    SameMemory s t :=
  ⟨fun c a => by simp only [State.core, h0], fun i a => hbmByte_congr h1 h2 h3 i a⟩

theorem sendAccess_issues (s : State) (va size cls xd : Nat) (l : Loc) (op : AccOp) :
    Issues s va size cls xd op l (sendAccess s va size cls xd l op) := by
  let s1 : State := { s with accesses := s.accesses ++ [accessOf s va size cls xd op l], seq := s.seq + 1 }
  let s2 : State := if cls = 15 ∧ (s.run s.c).isSome then s1.modRun s.c (fun r => { r with stampUsed := some s1.wheelCount }) else s1
  let f : Ctx → Ctx := fun t => { t with
    busy := if (!op.isStore && !op.holdsIssue xd) || (op.holdsIssue xd && xd != 0) then insertNat t.busy xd else t.busy
    holds := if op.holdsIssue xd then t.holds + 1 else t.holds, pc := t.pc + 4, wait := .none }
  have hs : sendAccess s va size cls xd l op = s2.modMe f := by
    unfold sendAccess State.pass; rw [modMe_modMe]; rfl
  have hctx : ∀ c k, s2.ctx c k = s.ctx c k := by
    intro c k; simp only [s2]; split_ifs
    · rw [ctx_modRun]; rfl
    · rfl
  have hwho : s2.who = s.who := by simp only [s2]; split_ifs <;> rfl
  have hme : s2.me = s.me := by
    have hk : s2.k = s.k := by simp only [State.k, hwho]
    simp only [State.me, hk, hwho]; exact hctx _ _
  have hc : OnlyCore s1 (s2.modMe f) s.c := by
    have h2 : OnlyCore s2 (s2.modMe f) s.c := by
      unfold State.modMe; rw [hwho]; exact onlyCore_modCtx s2 s.c _ f
    simp only [s2] at h2 ⊢; split_ifs at h2 ⊢
    · exact onlyCore_trans (onlyCore_modRun s1 s.c _) h2
    · exact h2
  have hm : SameMemory s (s2.modMe f) := by
    refine sameMemory_trans ?_ (sameMemory_modMe s2 f)
    refine sameMemory_trans (t := s1) (sameMemory_congr rfl rfl rfl rfl) ?_
    simp only [s2]; split_ifs
    · exact sameMemory_modArch s1 s.c _
    · exact sameMemory_refl _
  have ha : s2.accesses = s1.accesses := by simp only [s2]; split_ifs <;> rfl
  have hq : s2.seq = s1.seq := by simp only [s2]; split_ifs <;> rfl
  have hacc : { s with accesses := (s2.modMe f).accesses, seq := (s2.modMe f).seq } = s1 := by
    simp only [State.modMe_accesses, State.modMe_seq, ha, hq]; rfl
  rw [hs]
  refine ⟨by rw [State.modMe_accesses, ha], by rw [State.modMe_seq, hq], ?_, ?_, ?_, ?_, hm⟩
  · rw [me_modMe, hme]
    simp only [f]; cases op.holdsIssue xd <;> simp
  · intro r; rw [me_modMe, hme]
    simp only [f]
    split_ifs with h
    · rw [mem_insertNat]
      have : (r = xd ↔ r = xd ∧ xd ≠ 0 ∧ op.isStore = false) := by
        cases op <;> simp_all [AccOp.isStore, AccOp.holdsIssue] <;> grind
      grind
    · have : ¬ (r = xd ∧ xd ≠ 0 ∧ op.isStore = false) := by
        cases op <;> simp_all [AccOp.isStore, AccOp.holdsIssue] <;> grind
      tauto
  · intro k hk
    have hk2 : s2.k = s.k := by unfold State.k; rw [hwho]
    rw [State.modMe, hwho, hk2]
    exact (ctx_modCtx_ne s2 _ _ _ _ f (by simpa using fun _ => hk)).trans (hctx _ _)
  · rw [hacc]; exact hc

theorem routeAccess_issues {s : State} {va size cls xd : Nat} {l : Loc} {op : AccOp} (h : Issuable s va size cls op l) :
    Issues s va size cls xd op l (routeAccess s va size cls xd op) := by
  obtain ⟨h1, h2, h3, h4, h5⟩ := h
  have : routeAccess s va size cls xd op = sendAccess s va size cls xd l op := by
    simp only [routeAccess, h4, h5]
    by_cases hc : cls = 15
    · simp [hc, (h1 hc).2]
    · simp [hc]
  rw [this]; exact sendAccess_issues ..

theorem scAccess_issues {i : Instr} {s : State} {va size cls xd : Nat} {op : AccOp} (h : exec i s = scAccess s va size cls xd op) :
    IssuesWhere i s va size cls xd op := by
  intro l hl
  refine ⟨_, h.trans ?_, routeAccess_issues hl⟩
  obtain ⟨h1, h2, h3, -, -⟩ := hl
  simp only [scAccess]
  rw [if_neg (by rintro ⟨a, b⟩; simp [(h1 a).1] at b), if_neg (by omega), if_neg (by omega)]

theorem scDeque_issues {i : Instr} {s : State} {d a cls : Nat} {op : AccOp} (h : exec i s = scDeque op d a cls s) (hv : (s.x a).toNat < 2 ^ 31) :
    IssuesWhere i s (s.x a).toNat 32 cls d op := by
  intro l hl
  refine ⟨_, h.trans ?_, routeAccess_issues hl⟩
  obtain ⟨h1, h2, h3, -, -⟩ := hl
  simp only [scDeque]
  rw [if_neg (by rintro ⟨a, b⟩; simp [(h1 a).1] at b), if_neg (by omega), if_neg (by omega)]

theorem lntw_issues {s : State} {a n : Nat} (hv : (s.x a).toNat < 2 ^ 31) (hg : s.me.lngos.all (fun p => p.1 != n) = true) :
    IssuesWhere (.lntw a n) s (s.x a).toNat 64 0 0 (.lntw n) := by
  intro l hl
  refine ⟨_, ?_, routeAccess_issues hl⟩
  obtain ⟨h1, h2, h3, -, -⟩ := hl
  have : s.me.lngos.any (fun p => p.1 == n) = false := by
    rw [List.any_eq_false]; intro p hp; have := List.all_eq_true.1 hg p hp; simpa using this
  show execLntw a n s = _
  simp only [execLntw, this]
  rw [if_neg (by omega), if_neg (by omega), if_neg (by omega)]; simp

end Sys2Proof.Machine
end

