-- ==== Sys2Proof/Laws/Hbm.lean ====
section
/-! SUPPORT. What a write of a slice or of HBM does: the bytes written are read, every other byte is as it was. -/

namespace Sys2Proof.Machine

theorem find_sset {α : Type} (l : Sparse α) (n m : Nat) (v : α) :
    (sset l n v).find? (fun p => p.1 == m) = if m = n then some (n, v) else l.find? (fun p => p.1 == m) := by
  induction l with
  | nil =>
    by_cases h : m = n
    · simp [sset, h]
    · have h' : (n == m) = false := by simpa using fun e => h e.symm
      simp [sset, h, h']
  | cons p t ih =>
    obtain ⟨k, w⟩ := p
    simp only [sset]
    split_ifs with h1 h2 h3 <;> simp_all [List.find?_cons] <;> grind

theorem memBytes_getElem (m : Memory) (a n i : Nat) (h : i < (memBytes m a n).length) : (memBytes m a n)[i] = memByte m (a + i) := by
  simp [memBytes]

theorem memBytes_congr {m m' : Memory} {a n : Nat} (h : ∀ i, i < n → memByte m (a + i) = memByte m' (a + i)) : memBytes m a n = memBytes m' a n := by
  unfold memBytes
  apply List.map_congr_left
  intro i hi; exact h i (by simpa using hi)

/-- One byte of memory after a write of bytes. -/
theorem memByte_memPutBytes {m : Memory} (h : m.wf = true) (a x : Nat) (l : List Byte) :
    memByte (memPutBytes m a l) x = if a ≤ x ∧ x < a + l.length then l.getD (x - a) 0 else memByte m x := by
  split_ifs with hx
  · have := memByte_memPutBytes_in h a l (x - a) (by omega)
    rw [show a + (x - a) = x by omega] at this
    rw [this, List.getD_eq_getElem _ _ (by omega)]
  · exact memByte_memPutBytes_out m a x l (by omega)

/-- A byte of a block that is held under the reader's key. -/
theorem hbmByte_owned {u : State} {id x : Nat} {k : Key} (h : u.hbmKeys.find? (fun p => p.1 == x / 16) = some (x / 16, k)) (hk : k = u.key id) :
    u.hbmByte id x = memByte u.hbm x := by
  unfold State.hbmByte; rw [h]; simp [hk]

/-! Re-keying a block. -/

theorem hbmRekey_key (s : State) (id b j : Nat) : (s.hbmRekey id b).key j = s.key j := by
  unfold State.hbmRekey; split_ifs <;> rfl

theorem hbmRead_length (s : State) (id a n : Nat) : (s.hbmRead id a n).length = n := by simp [State.hbmRead]

theorem hbmRekey_wf {s : State} (h : s.hbm.wf = true) (id b : Nat) : (s.hbmRekey id b).hbm.wf = true := by
  unfold State.hbmRekey; split_ifs
  · exact memPutBytes_wf h _ _
  · exact h

theorem hbmRekey_find (s : State) (id b m : Nat) :
    (s.hbmRekey id b).hbmKeys.find? (fun p => p.1 == m) = if m = b then some (b, s.key id) else s.hbmKeys.find? (fun p => p.1 == m) := by
  unfold State.hbmRekey; split_ifs <;> simp_all [find_sset]

/-- The cells outside a block that is re-keyed. -/
theorem hbmRekey_out {s : State} (h : s.hbm.wf = true) (id b x : Nat) (hx : x / 16 ≠ b) : memByte (s.hbmRekey id b).hbm x = memByte s.hbm x := by
  unfold State.hbmRekey; split_ifs
  · simp only [memByte_memPutBytes h, hbmRead_length]
    rw [if_neg (by omega)]
  · rfl

/-- Under the key that a block is re-keyed to, every byte reads as before. -/
theorem hbmByte_hbmRekey {s : State} (h : s.hbm.wf = true) (id b x : Nat) : (s.hbmRekey id b).hbmByte id x = s.hbmByte id x := by
  by_cases hb : x / 16 = b
  · have e : (s.hbmRekey id b).hbmByte id x = memByte (s.hbmRekey id b).hbm x := by
      unfold State.hbmByte; rw [hbmRekey_find, if_pos hb]; simp [hbmRekey_key]
    rw [e]
    unfold State.hbmRekey
    by_cases hf : s.hbmForeign id b
    · rw [if_pos hf]
      simp only [memByte_memPutBytes h, hbmRead_length]
      rw [if_pos (by omega)]
      simp only [State.hbmRead]
      rw [List.getD_eq_getElem _ _ (by simp; omega)]
      simp only [List.getElem_map, List.getElem_range]
      rw [show 16 * b + (x - 16 * b) = x by omega]
    · rw [if_neg hf]
      subst hb
      unfold State.hbmForeign at hf
      unfold State.hbmByte
      split at hf <;> simp_all
  · unfold State.hbmByte State.hbmBlock
    rw [hbmRekey_find, if_neg hb, hbmRekey_key, hbmRekey_out h _ _ _ hb]
    rw [memBytes_congr (fun i hi => hbmRekey_out h id b (16 * (x / 16) + i) (by omega))]

/-- Under any key, a byte of another block reads as before. -/
theorem hbmByte_hbmRekey_out {s : State} (h : s.hbm.wf = true) (id b j x : Nat) (hb : x / 16 ≠ b) : (s.hbmRekey id b).hbmByte j x = s.hbmByte j x := by
  unfold State.hbmByte State.hbmBlock
  rw [hbmRekey_find, if_neg hb, hbmRekey_key, hbmRekey_out h _ _ _ hb]
  rw [memBytes_congr (fun i hi => hbmRekey_out h id b (16 * (x / 16) + i) (by omega))]

/-! Re-keying the blocks of a write. -/

/-- The state in which the blocks b0 to b0 + n - 1 are re-keyed. -/
def rekeyed (s : State) (id b0 n : Nat) : State := (List.range n).foldl (fun s i => s.hbmRekey id (b0 + i)) s

theorem rekeyed_succ (s : State) (id b0 n : Nat) : rekeyed s id b0 (n + 1) = (rekeyed s id b0 n).hbmRekey id (b0 + n) := by
  simp [rekeyed, List.range_succ]

theorem rekeyed_facts {s : State} (h : s.hbm.wf = true) (id b0 n : Nat) :
    (rekeyed s id b0 n).hbm.wf = true ∧ (∀ j, (rekeyed s id b0 n).key j = s.key j)
    ∧ (∀ x, (rekeyed s id b0 n).hbmByte id x = s.hbmByte id x)
    ∧ (∀ j x, (x / 16 < b0 ∨ b0 + n ≤ x / 16) → (rekeyed s id b0 n).hbmByte j x = s.hbmByte j x)
    ∧ (∀ m, b0 ≤ m → m < b0 + n → (rekeyed s id b0 n).hbmKeys.find? (fun p => p.1 == m) = some (m, s.key id)) := by
  induction n with
  | zero => exact ⟨h, fun _ => rfl, fun _ => rfl, fun _ _ _ => rfl, fun m h1 h2 => by omega⟩
  | succ n ih =>
    obtain ⟨w, k, r, o, f⟩ := ih
    rw [rekeyed_succ]
    refine ⟨hbmRekey_wf w _ _, fun j => (hbmRekey_key _ _ _ _).trans (k j), fun x => (hbmByte_hbmRekey w _ _ _).trans (r x), fun j x hx => ?_, fun m h1 h2 => ?_⟩
    · rw [hbmByte_hbmRekey_out w _ _ _ _ (by omega)]; exact o j x (by omega)
    · rw [hbmRekey_find, k]; split_ifs with hm
      · rw [hm]
      · exact f m h1 (by omega)

theorem hbmWrite_eq (s : State) (id a : Nat) (bs : List Byte) :
    s.hbmWrite id a bs = { rekeyed s id (a / 16) ((a + bs.length + 15) / 16 - a / 16) with
      hbm := memPutBytes (rekeyed s id (a / 16) ((a + bs.length + 15) / 16 - a / 16)).hbm a bs,
      hbmBad := unmark (rekeyed s id (a / 16) ((a + bs.length + 15) / 16 - a / 16)).hbmBad (rekeyed s id (a / 16) ((a + bs.length + 15) / 16 - a / 16)).hbmMended 32 a bs.length,
      hbmSoft := unmark (rekeyed s id (a / 16) ((a + bs.length + 15) / 16 - a / 16)).hbmSoft (rekeyed s id (a / 16) ((a + bs.length + 15) / 16 - a / 16)).hbmMended 32 a bs.length,
      hbmMended := mend ((rekeyed s id (a / 16) ((a + bs.length + 15) / 16 - a / 16)).hbmSoft.foldl insertNat (rekeyed s id (a / 16) ((a + bs.length + 15) / 16 - a / 16)).hbmBad) (rekeyed s id (a / 16) ((a + bs.length + 15) / 16 - a / 16)).hbmMended 32 a bs.length } := rfl

/-- A write of cells leaves a byte of another block as it was, under any key. -/
theorem hbmByte_cells_out {u : State} (w : u.hbm.wf = true) (j a x : Nat) (bs : List Byte) (bad soft : List Nat) (mended : Sparse (BitVec 32))
    (hx : x / 16 < a / 16 ∨ (a + bs.length + 15) / 16 ≤ x / 16) :
    ({ u with hbm := memPutBytes u.hbm a bs, hbmBad := bad, hbmSoft := soft, hbmMended := mended } : State).hbmByte j x = u.hbmByte j x := by
  have e1 : memByte (memPutBytes u.hbm a bs) x = memByte u.hbm x := by rw [memByte_memPutBytes w, if_neg (by omega)]
  have e2 : memBytes (memPutBytes u.hbm a bs) (16 * (x / 16)) 16 = memBytes u.hbm (16 * (x / 16)) 16 :=
    memBytes_congr (fun i hi => by rw [memByte_memPutBytes w, if_neg (by omega)])
  unfold State.hbmByte State.hbmBlock State.key
  dsimp only
  rw [e1, e2]

/-- A write of cells of a block that is held under the reader's key. -/
theorem hbmByte_cells_in {u : State} (w : u.hbm.wf = true) {id x : Nat} {k : Key} (h : u.hbmKeys.find? (fun p => p.1 == x / 16) = some (x / 16, k))
    (hk : k = u.key id) (a : Nat) (bs : List Byte) (bad soft : List Nat) (mended : Sparse (BitVec 32)) :
    ({ u with hbm := memPutBytes u.hbm a bs, hbmBad := bad, hbmSoft := soft, hbmMended := mended } : State).hbmByte id x = if a ≤ x ∧ x < a + bs.length then bs.getD (x - a) 0 else memByte u.hbm x := by
  rw [← memByte_memPutBytes w a x bs]
  exact hbmByte_owned (u := { u with hbm := memPutBytes u.hbm a bs, hbmBad := bad, hbmSoft := soft, hbmMended := mended }) h hk

/-- A write of HBM keeps the canonical form. -/
theorem hbmWrite_wf {s : State} (h : s.hbm.wf = true) (id a : Nat) (bs : List Byte) : (s.hbmWrite id a bs).hbm.wf = true := by
  rw [hbmWrite_eq]; exact memPutBytes_wf (rekeyed_facts h id _ _).1 _ _

/-- HBM under the key of a write: the bytes written are read, every other byte is as it was. -/
theorem hbmByte_hbmWrite {s : State} (h : s.hbm.wf = true) (id a x : Nat) (bs : List Byte) :
    (s.hbmWrite id a bs).hbmByte id x = if a ≤ x ∧ x < a + bs.length then bs.getD (x - a) 0 else s.hbmByte id x := by
  obtain ⟨w, k, r, o, f⟩ := rekeyed_facts h id (a / 16) ((a + bs.length + 15) / 16 - a / 16)
  rw [hbmWrite_eq]
  generalize rekeyed s id (a / 16) ((a + bs.length + 15) / 16 - a / 16) = u at w k r o f
  by_cases hb : a / 16 ≤ x / 16 ∧ x / 16 < a / 16 + ((a + bs.length + 15) / 16 - a / 16)
  · have hf := f (x / 16) hb.1 hb.2
    rw [← r x, hbmByte_owned (u := u) hf (k id).symm]
    exact hbmByte_cells_in w hf (k id).symm a bs _ _ _
  · rw [if_neg (by omega), ← o id x (by omega)]
    exact hbmByte_cells_out w id a x bs _ _ _ (by omega)

/-- HBM under any key: every byte of a 16-byte block that the write does not touch is as it was. -/
theorem hbmByte_hbmWrite_out {s : State} (h : s.hbm.wf = true) (id j a x : Nat) (bs : List Byte) (hx : x / 16 < a / 16 ∨ (a + bs.length + 15) / 16 ≤ x / 16) :
    (s.hbmWrite id a bs).hbmByte j x = s.hbmByte j x := by
  obtain ⟨w, k, r, o, f⟩ := rekeyed_facts h id (a / 16) ((a + bs.length + 15) / 16 - a / 16)
  rw [hbmWrite_eq, ← o j x (by omega)]
  generalize rekeyed s id (a / 16) ((a + bs.length + 15) / 16 - a / 16) = u at w k r o f
  exact hbmByte_cells_out w j a x bs _ _ _ hx

/-! Slices. -/

theorem spadWrite_wf {k : Core} (h : k.spad.wf = true) (off : Nat) (bs : List Byte) : (k.spadWrite off bs).spad.wf = true := memPutBytes_wf h _ _

/-- A slice after a write: the bytes written are read, every other byte of every slice is as it was. -/
theorem spadByte_spadWrite {s : State} {c : Nat} (h : (s.core c).spad.wf = true) (off d x : Nat) (bs : List Byte) :
    memByte ((s.spadWrite c off bs).core d).spad x
      = if d = c ∧ off ≤ x ∧ x < off + bs.length then bs.getD (x - off) 0 else memByte (s.core d).spad x := by
  simp only [State.spadWrite, core_modCore_cases]
  by_cases hd : d = c
  · subst hd; simp only [if_true, true_and]
    exact memByte_memPutBytes h off x bs
  · simp [hd]

end Sys2Proof.Machine
end

