-- ==== Sys2Proof/Laws/Perform.lean ====
section
/-! SUPPORT. What an SC access does at its home: bytes left there, a reply, a recorded failure. -/

namespace Sys2Proof.Machine

/-! Writes at a home. -/

theorem contextsKeep_refl (s : State) : ContextsKeep s s := fun _ _ => rfl

theorem contextsKeep_trans {s t u : State} (h : ContextsKeep s t) (g : ContextsKeep t u) : ContextsKeep s u := by
  intro c k; rw [g c k, h c k]

/-- The contexts of a state are in its cores alone. -/
theorem contextsKeep_congr {s t : State} (h : t.cores = s.cores) : ContextsKeep s t := by
  intro c k; simp only [State.ctx, State.seqs, State.core, h]

theorem contextsKeep_modCore {s : State} {c : Nat} {f : Core → Core} (h : (f (s.core c)).arch = (s.core c).arch) : ContextsKeep s (s.modCore c f) := by
  intro d k
  simp only [State.ctx, State.seqs, core_modCore_cases]
  split_ifs with hd
  · subst hd; rw [h]
  · rfl

theorem spadWrite_arch (k : Core) (off : Nat) (bs : List Byte) : (k.spadWrite off bs).arch = k.arch := rfl

theorem hbmRekey_cores (s : State) (id b : Nat) : (s.hbmRekey id b).cores = s.cores := by unfold State.hbmRekey; split_ifs <;> rfl
theorem rekeyed_cores (s : State) (id b n : Nat) : (rekeyed s id b n).cores = s.cores := by
  induction n with
  | zero => rfl
  | succ n ih => rw [rekeyed_succ, hbmRekey_cores, ih]
theorem hbmWrite_cores (s : State) (id a : Nat) (bs : List Byte) : (s.hbmWrite id a bs).cores = s.cores := by
  rw [hbmWrite_eq]; exact rekeyed_cores s id _ _

theorem hbmRekey_hub (s : State) (id b : Nat) : (s.hbmRekey id b).hub = s.hub := by unfold State.hbmRekey; split_ifs <;> rfl
theorem hbmWrite_hub (s : State) (id a : Nat) (bs : List Byte) : (s.hbmWrite id a bs).hub = s.hub := by
  have : ∀ (l : List Nat) (s : State), (l.foldl (fun s i => s.hbmRekey id (a / 16 + i)) s).hub = s.hub := by
    intro l
    induction l with
    | nil => exact fun _ => rfl
    | cons i l ih => exact fun s => (ih _).trans (hbmRekey_hub _ _ _)
  exact this _ s

theorem hbmRekey_rest (s : State) (id b : Nat) : (s.hbmRekey id b).accesses = s.accesses ∧ (s.hbmRekey id b).replies = s.replies := by
  unfold State.hbmRekey; split_ifs <;> exact ⟨rfl, rfl⟩
theorem rekeyed_rest (s : State) (id b n : Nat) : (rekeyed s id b n).accesses = s.accesses ∧ (rekeyed s id b n).replies = s.replies := by
  induction n with
  | zero => exact ⟨rfl, rfl⟩
  | succ n ih => rw [rekeyed_succ]; have := hbmRekey_rest (rekeyed s id b n) id (b + n); exact ⟨this.1.trans ih.1, this.2.trans ih.2⟩

/-- A write at a home leaves its bytes there, and nothing else changes: no access, no reply, no context, no other byte. -/
theorem locWrite_spec {s : State} {l : Loc} (h : HomeWf s l) (bs : List Byte) :
    Stored s (s.locWrite l bs) l bs ∧ ContextsKeep s (s.locWrite l bs)
      ∧ (s.locWrite l bs).accesses = s.accesses ∧ (s.locWrite l bs).replies = s.replies := by
  cases l with
  | slice c off =>
    refine ⟨⟨fun d x => spadByte_spadWrite h off d x bs, fun id x => hbmByte_congr rfl rfl rfl id x⟩, contextsKeep_modCore rfl, rfl, rfl⟩
  | hbm pa key =>
    refine ⟨⟨fun x => hbmByte_hbmWrite h key pa x bs, fun id x hx => hbmByte_hbmWrite_out h key id pa x bs hx, fun d x => ?_⟩, contextsKeep_congr (hbmWrite_cores ..), ?_, ?_⟩
    · simp only [State.locWrite, State.core, hbmWrite_cores]
    · exact (rekeyed_rest ..).1
    · exact (rekeyed_rest ..).2

theorem stored_of_same {s t u : State} {l : Loc} {bs : List Byte} (h : Stored s t l bs) (g : SameMemory t u) : Stored s u l bs := by
  cases l with
  | slice c off => exact ⟨fun d x => (g.1 d x).trans (h.1 d x), fun id x => (g.2 id x).trans (h.2 id x)⟩
  | hbm pa key => exact ⟨fun x => (g.2 key x).trans (h.1 x), fun id x hx => (g.2 id x).trans (h.2.1 id x hx), fun d x => (g.1 d x).trans (h.2.2 d x)⟩

theorem same_stored {s t u : State} {l : Loc} {bs : List Byte} (g : SameMemory s t) (h : Stored t u l bs) : Stored s u l bs := by
  cases l with
  | slice c off => exact ⟨fun d x => by rw [h.1 d x, g.1 d x], fun id x => (h.2 id x).trans (g.2 id x)⟩
  | hbm pa key => exact ⟨fun x => by rw [h.1 x, g.2 key x], fun id x hx => (h.2.1 id x hx).trans (g.2 id x), fun d x => (h.2.2 d x).trans (g.1 d x)⟩

/-! Notes of a context. -/

theorem contextsKeep_modCtx {s : State} {c k : Nat} {f : Ctx → Ctx} (h : f (s.ctx c k) = { s.ctx c k with written := (f (s.ctx c k)).written, fails := (f (s.ctx c k)).fails }) :
    ContextsKeep s (s.modCtx c k f) := by
  intro d j
  by_cases hd : (d, j) = (c, k)
  · obtain ⟨rfl, rfl⟩ := Prod.mk.inj hd
    rw [ctx_modCtx]; exact h
  · rw [ctx_modCtx_ne _ _ _ _ _ _ hd]

theorem noteWrite_spec (s : State) (a : Access) :
    SameMemory s (noteWrite s a) ∧ ContextsKeep s (noteWrite s a) ∧ (noteWrite s a).accesses = s.accesses ∧ (noteWrite s a).replies = s.replies := by
  unfold noteWrite
  split
  · split_ifs
    · exact ⟨sameMemory_modCtx _ _ _ _, contextsKeep_modCtx rfl, rfl, rfl⟩
    · exact ⟨sameMemory_refl _, contextsKeep_refl _, rfl, rfl⟩
  · exact ⟨sameMemory_refl _, contextsKeep_refl _, rfl, rfl⟩

/-! The access leaves. -/

theorem retireAccess_spec (s : State) (a : Access) :
    SameMemory s (retireAccess s a) ∧ ContextsKeep s (retireAccess s a) ∧ (retireAccess s a).accesses = s.accesses.filter (fun x => x.seq != a.seq)
      ∧ (retireAccess s a).replies = s.replies :=
  ⟨sameMemory_congr rfl rfl rfl rfl, contextsKeep_congr rfl, rfl, rfl⟩

theorem homeWf_retire {s : State} {l : Loc} (h : HomeWf s l) (a : Access) : HomeWf (retireAccess s a) l := by cases l <;> exact h

/-- A write of bytes at the home of an access that leaves. -/
theorem retire_write_spec {s : State} {a : Access} (h : HomeWf s a.loc) (bs : List Byte) :
    let t := noteWrite ((retireAccess s a).locWrite a.loc bs) a
    t.accesses = s.accesses.filter (fun x => x.seq != a.seq) ∧ t.replies = s.replies ∧ ContextsKeep s t ∧ Stored s t a.loc bs := by
  obtain ⟨r1, r2, r3, r4⟩ := retireAccess_spec s a
  obtain ⟨w1, w2, w3, w4⟩ := locWrite_spec (homeWf_retire h a) bs
  obtain ⟨n1, n2, n3, n4⟩ := noteWrite_spec ((retireAccess s a).locWrite a.loc bs) a
  exact ⟨n3.trans (w3.trans r3), n4.trans (w4.trans r4), contextsKeep_trans r2 (contextsKeep_trans w2 n2), stored_of_same (same_stored r1 w1) n1⟩

/-! The step. -/

/-- What was noted of arrivals at slices is all that a performance forgets of them. -/
theorem leaveSlice_frame (s : State) (h : Nat) (p : Arriver) : leaveSlice s h p = { s with arrived := (leaveSlice s h p).arrived } := by
  unfold leaveSlice; split_ifs <;> rfl

/-- An access that can be performed is performed. -/
theorem scPerform_eq {s : State} {i : Nat} {a : Access} (h : Performable s i a) : scPerform s i = performAt (leaveSlice s a.loc.home (.access a.seq)) a := by
  obtain ⟨h1, h2, h3, h4, h5, h6, h7, h8⟩ := h
  simp only [scPerform, h1, h2, h3, h4, h5, h6, h7, h8, Bool.not_true, Bool.or_self, Bool.false_eq_true, Option.isSome_none, if_false, if_true]

theorem failAccess_spec (s : State) (a : Access) (detail : Nat) :
    let t := failAccess s a detail
    t.accesses = s.accesses.filter (fun x => x.seq != a.seq) ∧ SameMemory s t ∧ ContextsKeep s t
    ∧ (a.op.isStore = true → a.ctx < 4 → t.replies = s.replies
        ∧ (t.ctx a.core a.ctx).fails = (s.ctx a.core a.ctx).fails ++ [⟨a.cls, a.loc.home, detail == 5 || detail == 6⟩])
    ∧ (a.op.isStore = false → t.replies = s.replies ++ [replyTo a 0 (some (faultOf 0x08 detail a.va))]) := by
  obtain ⟨r1, r2, r3, r4⟩ := retireAccess_spec s a
  intro t
  simp only [t, failAccess]
  cases hs : a.op.isStore
  · refine ⟨r3, ?_, ?_, by simp, fun _ => rfl⟩
    · exact sameMemory_trans r1 (sameMemory_congr rfl rfl rfl rfl)
    · exact contextsKeep_trans r2 (contextsKeep_congr rfl)
  · simp only [if_true]
    by_cases hc : a.ctx < 4
    · rw [if_pos hc]
      refine ⟨r3, sameMemory_trans r1 (sameMemory_modCtx _ _ _ _), contextsKeep_trans r2 (contextsKeep_modCtx rfl), fun _ _ => ⟨rfl, ?_⟩, by simp⟩
      rw [ctx_modCtx]; rfl
    · rw [if_neg hc]
      exact ⟨r3, r1, r2, fun _ h => absurd h hc, by simp⟩

/-- DQTAKE of a deque that holds an entry it may read (12 R196). -/
theorem dequeAt_take {s : State} {tctx c off va : Nat} {q : Deque} {last : Nat} (hq : dequeOf (s.spadRead c off 32) = q) (hl : wrapInt 64 ((q.bot : Int) - 1) = last)
    (h1 : s.spadPoison c off 32 = false) (h2 : q.bad c = false) (h3 : q.size ≠ 0)
    (h4 : hallRefuse s tctx c (q.entry c last) 8 = none) (h5 : s.spadPoison c (q.entry c last) 8 = false) :
    dequeAt s tctx c off va .dqtake = (s.spadWrite c (off + 24) (natBytes 8 last), .ok (BitVec.ofNat 64 (bytesNat (s.spadRead c (q.entry c last) 8)))) := by
  unfold dequeAt
  extract_lets d rf lst vl
  have hd : d = q := hq
  have hls : lst = last := by simp only [lst, hd, hl]
  have hv : vl last = BitVec.ofNat 64 (bytesNat (s.spadRead c (q.entry c last) 8)) := by simp only [vl, hd]
  have hr : rf last = none := by simp only [rf, hd, h4, h5, Bool.false_eq_true, if_false]
  clear_value lst vl rf d
  subst hls hd
  generalize d.size = z at *
  generalize d.cap = y
  rw [h1, h2]
  simp only [Bool.false_eq_true, if_false, if_neg h3, hr, hv]

/-- DQSTEAL of a deque that holds an entry it may read (12 R196). -/
theorem dequeAt_steal {s : State} {tctx c off va : Nat} {q : Deque} (hq : dequeOf (s.spadRead c off 32) = q)
    (h1 : s.spadPoison c off 32 = false) (h2 : q.bad c = false) (h3 : q.size ≠ 0)
    (h4 : hallRefuse s tctx c (q.entry c q.top) 8 = none) (h5 : s.spadPoison c (q.entry c q.top) 8 = false) :
    dequeAt s tctx c off va .dqsteal = (s.spadWrite c (off + 16) (natBytes 8 (q.top + 1)), .ok (BitVec.ofNat 64 (bytesNat (s.spadRead c (q.entry c q.top) 8)))) := by
  unfold dequeAt
  extract_lets d rf lst vl
  have hd : d = q := hq
  have hv : vl q.top = BitVec.ofNat 64 (bytesNat (s.spadRead c (q.entry c q.top) 8)) := by simp only [vl, hd]
  have hr : rf q.top = none := by simp only [rf, hd, h4, h5, Bool.false_eq_true, if_false]
  clear_value lst vl rf d
  subst hd
  generalize d.size = z at *
  generalize d.cap = y
  rw [h1, h2]
  simp only [Bool.false_eq_true, if_false, if_neg h3, hr, hv]

end Sys2Proof.Machine
end

