-- ==== Sys2Proof/Laws/System.lean ====
section
/-! SUPPORT. The system group of the SC: parts of a core under changes of its other parts, ordered operations, the status of FENCE. -/

namespace Sys2Proof.Machine

/-! Parts of a core under a change of another part. -/

theorem arch_modCtx (s : State) (c k d : Nat) (f : Ctx → Ctx) :
    (s.modCtx c k f).arch d = { s.arch d with seqs := ((s.modCtx c k f).arch d).seqs } := by
  simp only [State.arch, State.modCtx, State.modSeqs, State.modArch, core_modCore_cases]
  split_ifs with h
  · subst h; rfl
  · rfl

theorem slot_modCtx (s : State) (c k d n : Nat) (f : Ctx → Ctx) : (s.modCtx c k f).slot d n = s.slot d n := by
  simp only [State.slot]; rw [arch_modCtx]

theorem csrs_modCtx (s : State) (c k d : Nat) (f : Ctx → Ctx) : ((s.modCtx c k f).arch d).csrs = (s.arch d).csrs := by rw [arch_modCtx]
theorem btraps_modCtx (s : State) (c k d : Nat) (f : Ctx → Ctx) : ((s.modCtx c k f).arch d).btraps = (s.arch d).btraps := by rw [arch_modCtx]

/-- A change of a core that leaves the sequencers' state alone leaves its contexts alone. -/
theorem ctx_modCore {s : State} {c : Nat} {f : Core → Core} (h : (f (s.core c)).arch.seqs = (s.core c).arch.seqs) (d k : Nat) :
    (s.modCore c f).ctx d k = s.ctx d k := by
  simp only [State.ctx, State.seqs, core_modCore_cases]
  split_ifs with hd
  · subst hd; rw [h]
  · rfl

theorem ctx_modArch {s : State} {c : Nat} {f : Arch → Arch} (h : (f (s.arch c)).seqs = (s.arch c).seqs) (d k : Nat) :
    (s.modArch c f).ctx d k = s.ctx d k := ctx_modCore (f := fun x => { x with arch := f x.arch }) h d k

theorem ctx_modSlot (s : State) (c n d k : Nat) (f : PatchSlot → PatchSlot) : (s.modSlot c n f).ctx d k = s.ctx d k := ctx_modArch rfl d k
theorem ctx_modCsrs (s : State) (c d k : Nat) (f : Csrs → Csrs) : (s.modCsrs c f).ctx d k = s.ctx d k := ctx_modArch rfl d k

theorem slot_modSlot_ne (s : State) (c n m : Nat) (f : PatchSlot → PatchSlot) (h : m ≠ n) : (s.modSlot c n f).slot c m = s.slot c m := by
  simp [State.slot, State.modSlot, sget_sset_ne _ _ _ _ _ h]

theorem onlyCore_modSlot (s : State) (c n : Nat) (f : PatchSlot → PatchSlot) : OnlyCore s (s.modSlot c n f) c :=
  onlyCore_modArch s c (fun a => { a with slots := sset a.slots n (f (sget {} a.slots n)) })

theorem sameMemory_modSlot (s : State) (c n : Nat) (f : PatchSlot → PatchSlot) : SameMemory s (s.modSlot c n f) := sameMemory_modArch s c _

/-- A word that changes one patch slot and then writes xd. -/
theorem slot_put (s : State) (d l : Nat) (v : Word) (f : PatchSlot → PatchSlot) :
    let t := (s.modSlot s.c l f).put d v
    OnlyX s t d v ∧ t.slot s.c l = f (s.slot s.c l) ∧ (∀ j, j ≠ l → t.slot s.c j = s.slot s.c j)
      ∧ CtxGoes s t (s.me.pc + 4) ∧ OnlyCore s t s.c ∧ SameMemory s t := by
  intro t
  have hme : (s.modSlot s.c l f).me = s.me := ctx_modSlot s s.c l _ _ f
  have hc : (s.modSlot s.c l f).c = s.c := rfl
  obtain ⟨g1, g2, g3, g4⟩ := put_gives (s.modSlot s.c l f) d v
  have e : ∀ j, t.slot s.c j = (s.modSlot s.c l f).slot s.c j := fun j => by
    simp only [t]; rw [put_eq]; exact slot_modCtx _ _ _ _ _ _
  refine ⟨fun r => ?_, by rw [e]; simp, fun j hj => by rw [e, slot_modSlot_ne _ _ _ _ _ hj], ?_, ?_, sameMemory_trans (sameMemory_modSlot _ _ _ _) g4⟩
  · have := g1 r; simp only [State.x, hme] at this ⊢; exact this
  · unfold CtxGoes at g2 ⊢; rw [hme] at g2; exact g2
  · refine onlyCore_trans (onlyCore_modSlot s s.c l f) ?_
    have : t = (s.modSlot s.c l f).modCtx s.c s.k _ := put_eq _ _ _
    rw [this]; exact onlyCore_modCtx _ _ _ _

/-! A word that changes its context and then writes xd, or goes on. -/

theorem put_with {s : State} {d : Nat} {v : Word} {f : Ctx → Ctx} (hr : (f s.me).regs = s.me.regs) (hp : (f s.me).pc = s.me.pc) :
    GivesXWith s d v f ((s.modMe f).put d v) := by
  rw [put_eq, modMe_modMe]
  refine ⟨fun r => ?_, ?_, onlyCtx_modMe _ _, sameMemory_modMe _ _⟩
  · simp only [State.x, me_modMe, Function.comp_apply]
    rw [show ∀ t : Ctx, ∀ p w, ({ t with pc := p, wait := w } : Ctx).x r = t.x r from fun _ _ _ => rfl, Ctx.x_setX]
    unfold Ctx.x; rw [hr]
  · rw [me_modMe, Function.comp_apply, Ctx.setX_frame, hp]

theorem pass_with {s : State} {f : Ctx → Ctx} (hr : (f s.me).regs = s.me.regs) (hp : (f s.me).pc = s.me.pc) :
    PassesWith s f (s.modMe f).pass := by
  refine ⟨?_, ?_, ?_⟩
  · simp only [State.pass, modMe_modMe, me_modMe, Function.comp_apply, hr, hp]
  · simp only [State.pass, modMe_modMe]; exact onlyCtx_modMe _ _
  · simp only [State.pass, modMe_modMe]; exact sameMemory_modMe _ _

theorem queueOp_queues (s : State) (kind : CtxOpKind) (xd : Option Nat) : Queues s kind xd (s.queueOp kind xd) := by
  have e : s.queueOp kind xd = State.modMe { s with seq := s.seq + 1 } (fun t => { t with
      ops := t.ops ++ [CtxOp.mk s.seq kind]
      busy := match xd with | some d => if d = 0 then t.busy else insertNat t.busy d | none => t.busy, pc := t.pc + 4, wait := .none }) := by
    have h : s.queueOp kind xd = { ((s.modMe (fun t => { t with
        ops := t.ops ++ [CtxOp.mk s.seq kind]
        busy := match xd with | some d => if d = 0 then t.busy else insertNat t.busy d | none => t.busy })).modMe
          (fun t => { t with pc := t.pc + 4, wait := .none })) with seq := s.seq + 1 } := rfl
    rw [h, modMe_modMe]; rfl
  rw [e]
  refine ⟨?_, ?_, rfl, onlyCtx_modMe _ _, sameMemory_trans (sameMemory_congr rfl rfl rfl rfl) (sameMemory_modMe _ _)⟩
  · rw [me_modMe]; rfl
  · intro r; rw [me_modMe]
    cases xd with
    | none => simp; rfl
    | some d =>
      simp only [Option.some.injEq]
      split_ifs with h
      · subst h; constructor
        · exact fun h => .inl h
        · rintro (h | ⟨rfl, h⟩)
          · exact h
          · exact absurd rfl h
      · rw [mem_insertNat]
        constructor
        · rintro (h1 | rfl)
          · exact .inl h1
          · exact .inr ⟨rfl, h⟩
        · rintro (h1 | ⟨rfl, -⟩)
          · exact .inl h1
          · exact .inr rfl

end Sys2Proof.Machine
end

