-- ==== Sys2Proof/Laws/Cellar.lean ====
section
/-! SUPPORT. What a drain, a cut and a commit of a core do (07 R113, R114, R119). -/

namespace Sys2Proof.Machine

/-- A core of which nothing is in flight has nothing to finish before its cut. -/
theorem quiet_cut {s : State} {c : Nat} (h : Quiet s c) (hs : (s.core c).stopping = none) : cutHeld s c = false := by
  obtain ⟨h1, h2, h3⟩ := h
  simp [cutHeld, cutOpen, h1, h2, h3, hs, nextStart]

/-- A note of the other state changes nothing but the cellar, and of it neither CG nor the records. -/
theorem Core.noteOther_frame (k : Core) (o : Other) :
    k.noteOther o = { k with cellar := { k.cellar with dirty := (k.noteOther o).cellar.dirty, seen := (k.noteOther o).cellar.seen } } := by
  unfold Core.noteOther; split_ifs <;> rfl

/-- A block trickled, or written with any CRC, changes nothing but the cellar, and of it neither CG nor the records. -/
theorem Core.trickle_frame (o : Other) (k : Core) (b : Nat) :
    k.trickle o b = { k with cellar := (k.trickle o b).cellar } ∧ (k.trickle o b).cellar.cg = k.cellar.cg
    ∧ (k.trickle o b).cellar.dirty = k.cellar.dirty.erase b := by
  unfold Core.trickle Core.writeCopy
  dsimp only
  split_ifs <;> exact ⟨rfl, rfl, rfl⟩

theorem foldl_trickle (o : Other) (l : List Nat) : ∀ k : Core,
    (l.foldl (Core.trickle o) k) = { k with cellar := (l.foldl (Core.trickle o) k).cellar }
    ∧ (l.foldl (Core.trickle o) k).cellar.cg = k.cellar.cg
    ∧ (l.foldl (Core.trickle o) k).cellar.dirty = l.foldl List.erase k.cellar.dirty := by
  induction l with
  | nil => intro k; exact ⟨rfl, rfl, rfl⟩
  | cons b l ih =>
    intro k
    obtain ⟨h1, h2, h3⟩ := ih (k.trickle o b)
    obtain ⟨t1, t2, t3⟩ := k.trickle_frame o b
    refine ⟨?_, h2.trans t2, h3.trans (by rw [t3, List.foldl_cons])⟩
    rw [List.foldl_cons, h1, t1]

theorem foldl_erase_nil (l : List Nat) : l.foldl List.erase ([] : List Nat) = [] := by
  induction l with
  | nil => rfl
  | cons b l ih => simpa using ih

theorem foldl_erase_self (l r : List Nat) : (l ++ r).foldl List.erase l = [] := by
  induction l with
  | nil => exact foldl_erase_nil r
  | cons b l ih => simpa using ih

/-- A drain leaves no block dirty and changes nothing but the cellar. -/
theorem Core.drain_spec (k : Core) (o : Other) : k.drain o = { k with cellar := (k.drain o).cellar } ∧ (k.drain o).cellar.cg = k.cellar.cg ∧ (k.drain o).cellar.dirty = [] := by
  obtain ⟨h1, h2, h3⟩ := foldl_trickle o (k.noteOther o).cellar.dirty (k.noteOther o)
  have e := k.noteOther_frame o
  refine ⟨?_, ?_, h3.trans ?_⟩
  · refine h1.trans ?_
    rw [show k.drain o = (k.noteOther o).cellar.dirty.foldl (Core.trickle o) (k.noteOther o) from rfl]
    generalize ((k.noteOther o).cellar.dirty.foldl (Core.trickle o) (k.noteOther o)).cellar = m
    rw [e]
  · refine h2.trans ?_
    rw [e]
  · have := foldl_erase_self (k.noteOther o).cellar.dirty []
    rwa [List.append_nil] at this

theorem Core.capSettle_spec (k : Core) : k.capSettle = { k with cellar := { k.cellar with cap := k.capSettle.cellar.cap } } := by
  unfold Core.capSettle; dsimp only; split_ifs <;> rfl

/-- A commit (07 R114): CG goes on by one, no SRAM block is dirty, the record of the new generation stands with a good CRC, and nothing of the core but its cellar changes; a cut asked for is over, and so is a freeze of the dirty cap (R115). -/
theorem commitCore_spec (s : State) (c cause : Nat) :
    let t := commitCore s c cause
    let g := (s.core c).cellar.cg + 1
    OnlyCore s t c ∧ SameMemory s t
    ∧ (t.core c) = { s.core c with cellar := (t.core c).cellar, cutting := false, arch := (s.arch c).thaw }
    ∧ (t.core c).cellar.cg = g ∧ (t.core c).cellar.dirty = []
    ∧ (let r := if g % 2 = 0 then (t.core c).cellar.rec0 else (t.core c).cellar.rec1
       r.gen = g ∧ r.core = c ∧ r.cause = cause ∧ r.cycle = s.now ∧ r.crcOk = true) := by
  intro t g
  obtain ⟨h1, h2, h3⟩ := Core.drain_spec (s.core c) (cutOther s c)
  have e0 : t = commitCore s c cause := rfl
  unfold commitCore at e0
  have e := core_modCore s c (fun k =>
    let k := k.drain (cutOther s c)
    let m := k.cellar
    let g := m.cg + 1
    let m := m.putRec ⟨g, c, cause, m.drained, s.now, 0⟩
    ({ k with cutting := false, arch := k.arch.thaw, cellar := { m with cg := g, drained := 0 } }).capSettle)
  rw [← e0] at e
  have e0c := e
  dsimp only at e
  rw [Core.capSettle_spec] at e
  have ec : t.core c = { s.core c with cellar := (t.core c).cellar, cutting := false, arch := (s.arch c).thaw } := by
    rw [e]; dsimp only; rw [h1]; rfl
  refine ⟨by rw [e0]; exact onlyCore_modCore s c _, ?_, ec, ?_, ?_, ?_⟩
  · rw [e0]; refine sameMemory_modCore s c _ ?_
    refine (congrArg Core.spad e0c.symm).trans ?_
    rw [ec]
  · rw [e]; dsimp only; rw [h2]
  · rw [e]; dsimp only
    unfold Cellar.putRec; split_ifs <;> exact h3
  · rw [e]; dsimp only
    unfold Cellar.putRec; dsimp only; rw [h2]
    by_cases hg : g % 2 = 0
    · rw [if_pos hg, if_pos hg]; exact ⟨rfl, rfl, rfl, rfl, rfl⟩
    · rw [if_neg hg, if_neg hg]; exact ⟨rfl, rfl, rfl, rfl, rfl⟩

end Sys2Proof.Machine
end

