-- ==== Sys2Proof/Laws/Events.lean ====
section
/-! SUPPORT. Event flags and barriers (12 R204, 06 R108): what setting the flags of a core does, and an arrival. -/

namespace Sys2Proof.Machine

theorem ctx_modCtx_cases (s : State) (c k d j : Nat) (f : Ctx → Ctx) :
    (s.modCtx c k f).ctx d j = if d = c ∧ j = k then f (s.ctx c k) else s.ctx d j := by
  by_cases h : d = c
  · subst h
    by_cases hj : j = k
    · subst hj; simp
    · rw [if_neg (by tauto)]; simp [State.ctx, State.seqs, State.modCtx, State.modSeqs, State.modArch, sget_sset, hj]
  · rw [if_neg (by tauto)]
    simp only [State.ctx, State.seqs, State.modCtx, State.modSeqs, State.modArch, core_modCore_ne _ _ _ _ h]

theorem who_onlyCore {s t : State} {c : Nat} (h : OnlyCore s t c) : t.who = s.who := by unfold OnlyCore at h; rw [h]; rfl
theorem me_onlyCore {s t : State} {c : Nat} (h : OnlyCore s t c) : t.me = t.ctx s.c s.k := by
  simp only [State.me, State.k, State.c, who_onlyCore h]

/-- A change of a core's sequencers that leaves its contexts alone. -/
theorem ctx_modSeqs {s : State} {c : Nat} {f : Seqs → Seqs} (h : (f (s.seqs c)).ctxs = (s.seqs c).ctxs) (d k : Nat) :
    (s.modSeqs c f).ctx d k = s.ctx d k := by
  simp only [State.ctx, State.seqs, State.modSeqs, State.modArch, core_modCore_cases]
  split_ifs with hd
  · subst hd; show sget _ (f (s.seqs d)).ctxs k = _; rw [h]; rfl
  · rfl

/-- A change of the acting core's sequencers, and then the acting context goes on. -/
theorem pass_seqs {s : State} {f : Seqs → Seqs} (h : (f (s.seqs s.c)).ctxs = (s.seqs s.c).ctxs) :
    GoesTo (s.modSeqs s.c f) (s.me.pc + 4) (s.modSeqs s.c f).pass := by
  have e : (s.modSeqs s.c f).me = s.me := ctx_modSeqs h s.c s.k
  rw [← e]; exact pass_to _

/-- Setting the flag of one context. -/
def raiseFlag (s : State) (c k : Nat) : State := s.modCtx c k (fun x => { x with flag := true })

theorem archCtxs_modCtx (s : State) (c k d : Nat) (f : Ctx → Ctx) :
    (s.modCtx c k f).arch d = { s.arch d with seqs := { s.seqs d with ctxs := ((s.modCtx c k f).seqs d).ctxs } } := by
  simp only [State.arch, State.seqs, State.modCtx, State.modSeqs, State.modArch, core_modCore_cases]
  split_ifs with h
  · subst h; rfl
  · rfl

/-- What `t` keeps of `s` where flags of core c were set. -/
def FlagsOnly (s t : State) (c : Nat) : Prop := OnlyCore s t c ∧ SameMemory s t ∧ ∀ d, t.arch d = { s.arch d with seqs := { s.seqs d with ctxs := (t.seqs d).ctxs } }

theorem flagsOnly_raise (s : State) (c k : Nat) : FlagsOnly s (raiseFlag s c k) c :=
  ⟨onlyCore_modCtx _ _ _ _, sameMemory_modCtx _ _ _ _, fun _ => archCtxs_modCtx _ _ _ _ _⟩

theorem flagsOnly_trans {s t u : State} {c : Nat} (h : FlagsOnly s t c) (g : FlagsOnly t u c) : FlagsOnly s u c :=
  ⟨onlyCore_trans h.1 g.1, sameMemory_trans h.2.1 g.2.1, fun d => by rw [g.2.2 d]; unfold State.seqs; rw [show (t.core d).arch = t.arch d from rfl, h.2.2 d]; rfl⟩

theorem ctx_raiseFlag (s : State) (c k d j : Nat) :
    (raiseFlag s c k).ctx d j = if d = c ∧ j = k then { s.ctx d j with flag := true } else s.ctx d j := by
  unfold raiseFlag; rw [ctx_modCtx_cases]
  split_ifs with h
  · rw [h.1, h.2]
  · rfl

theorem foldFlags (c : Nat) (ex : Option Nat) (l : List Nat) : ∀ s : State,
    let t := l.foldl (fun s k => if ex = some k then s else raiseFlag s c k) s
    (∀ d j, t.ctx d j = if d = c ∧ j ∈ l ∧ ex ≠ some j then { s.ctx d j with flag := true } else s.ctx d j) ∧ (t = s ∨ FlagsOnly s t c) := by
  induction l with
  | nil => exact fun s => ⟨fun d j => by simp, .inl rfl⟩
  | cons k l ih =>
    intro s
    dsimp only
    rw [List.foldl_cons]
    by_cases h : ex = some k
    · rw [if_pos h]
      refine ⟨fun d j => ?_, (ih s).2⟩
      rw [(ih s).1 d j]
      by_cases hj : j = k
      · subst hj; simp [h]
      · simp [hj]
    · rw [if_neg h]
      obtain ⟨i1, i2⟩ := ih (raiseFlag s c k)
      refine ⟨fun d j => ?_, .inr ?_⟩
      · rw [i1 d j, ctx_raiseFlag]
        by_cases hd : d = c <;> by_cases hj : j = k
        · subst hj; simp [hd, h]
        · simp [hd, hj]
        · simp [hd]
        · simp [hd]
      · rcases i2 with i2 | i2
        · rw [i2]; exact flagsOnly_raise s c k
        · exact flagsOnly_trans (flagsOnly_raise s c k) i2

/-- Setting the event flags of a core sets those of contexts 0 to 3, but for the excepted one, and changes nothing else. -/
theorem setFlags_spec (s : State) (c : Nat) (ex : Option Nat) :
    (∀ d j, (setFlags s c ex).ctx d j = if d = c ∧ j < 4 ∧ ex ≠ some j then { s.ctx d j with flag := true } else s.ctx d j)
    ∧ FlagsOnly s (setFlags s c ex) c := by
  obtain ⟨h1, -⟩ := foldFlags c ex [0, 1, 2, 3] s
  refine ⟨fun d j => ?_, ?_⟩
  · refine (h1 d j).trans ?_
    have : j ∈ [0, 1, 2, 3] ↔ j < 4 := by simp; omega
    simp only [this]
  · by_cases h : ex = some 0
    · have : setFlags s c ex = [2, 3].foldl (fun s k => if ex = some k then s else raiseFlag s c k) (raiseFlag s c 1) := by subst h; rfl
      rw [this]
      rcases (foldFlags c ex [2, 3] (raiseFlag s c 1)).2 with h | h
      · rw [h]; exact flagsOnly_raise s c 1
      · exact flagsOnly_trans (flagsOnly_raise s c 1) h
    · have : setFlags s c ex = [1, 2, 3].foldl (fun s k => if ex = some k then s else raiseFlag s c k) (if ex = some 0 then s else raiseFlag s c 0) := rfl
      rw [this, if_neg h]
      rcases (foldFlags c ex [1, 2, 3] (raiseFlag s c 0)).2 with h | h
      · rw [h]; exact flagsOnly_raise s c 0
      · exact flagsOnly_trans (flagsOnly_raise s c 0) h

end Sys2Proof.Machine
end

