-- ==== Sys2Proof/Laws/Vector.lean ====
section
/-! SUPPORT. A slot of the CP that acts, its results on their way, and the lanes of a register (13 R208, 04 R77). -/

namespace Sys2Proof.Machine

/-- A slot that acts has its effect. -/
theorem cpSlot_acts {i : Instr} {s : State} (h : SlotActs i s) (act : State → State) : cpSlot i act s = .next (act s) := by
  obtain ⟨h1, h2, h3, h4⟩ := h
  simp [cpSlot, h1, h2, h3, h4]

/-- An instruction of the CP whose arm is a slot with an effect. -/
theorem acts_of {i : Instr} {s : State} {act : State → State} {P : State → Prop} (he : exec i s = cpSlot i act s) (hp : P (act s)) : Acts i s P :=
  fun h => ⟨act s, he.trans (cpSlot_acts h act), hp⟩

theorem mem_insertDue (l : List InFlight) (x y : InFlight) : y ∈ insertDue l x ↔ y ∈ l ∨ y = x := by
  induction l with
  | nil => simp [insertDue]
  | cons z t ih =>
    simp only [insertDue]; split_ifs
    · simp only [List.mem_cons]; tauto
    · simp only [List.mem_cons, ih]; tauto

theorem result_gives (s : State) (lat real : Nat) (load : Bool) (w : CpWrite) : GivesCp s lat w (s.result lat real load w) := by
  refine ⟨onlyCp_modCp _ _ _, ?_, ?_, sameMemory_modCp _ _ _, load, fun x => ?_⟩
  · simp [State.result]
  · simp [State.result]
  · simp only [State.result, cp_modCp]; exact mem_insertDue _ _ _

theorem give_gives (s : State) (cls : Nat) (w : CpWrite) : GivesCp s (latOf s s.c cls) w (s.give cls w) := result_gives _ _ _ _ _
theorem giveLoad_gives (s : State) (cls : Nat) (w : CpWrite) : GivesCp s (latOf s s.c cls) w (s.giveLoad cls w) := result_gives _ _ _ _ _

theorem modMyCp_does (s : State) (f : Cp → Cp) : CpDoes s f (s.modMyCp f) :=
  ⟨onlyCp_modCp _ _ _, by simp [State.modMyCp], sameMemory_modCp _ _ _⟩

/-! Lanes. -/

theorem packLanes_lt (w : Nat) (l : List Nat) : packLanes w l < 2 ^ (w * l.length) := by
  induction l with
  | nil => simp [packLanes]
  | cons x t ih =>
    simp only [packLanes, List.length_cons, Nat.mul_succ, Nat.pow_add]
    have h1 : x % 2 ^ w < 2 ^ w := Nat.mod_lt _ (by positivity)
    calc x % 2 ^ w + 2 ^ w * packLanes w t < 2 ^ w + 2 ^ w * packLanes w t := by omega
      _ = 2 ^ w * (packLanes w t + 1) := by ring
      _ ≤ 2 ^ w * 2 ^ (w * t.length) := Nat.mul_le_mul_left _ ih
      _ = 2 ^ (w * t.length) * 2 ^ w := Nat.mul_comm _ _

theorem packLanes_lane (w : Nat) (l : List Nat) (i : Nat) : packLanes w l / 2 ^ (w * i) % 2 ^ w = l.getD i 0 % 2 ^ w := by
  induction l generalizing i with
  | nil => simp [packLanes]
  | cons x t ih =>
    cases i with
    | zero => simp [packLanes, Nat.add_mod]
    | succ i =>
      have e : (x % 2 ^ w + 2 ^ w * packLanes w t) / 2 ^ w = packLanes w t := by
        rw [Nat.add_mul_div_left _ _ (by positivity), Nat.div_eq_of_lt (Nat.mod_lt _ (by positivity)), Nat.zero_add]
      simp only [packLanes, Nat.mul_succ, Nat.pow_add]
      rw [Nat.mul_comm (2 ^ (w * i)), ← Nat.div_div_eq_div_mul, e, ih]
      simp

theorem lane_pack (w n : Nat) (f : Nat → Nat) (h : w * n ≤ 4096) (i : Nat) (hi : i < n) :
    lane w (BitVec.ofNat 4096 (packLanes w ((List.range n).map f))) i = f i % 2 ^ w := by
  have hlt := packLanes_lt w ((List.range n).map f)
  rw [List.length_map, List.length_range] at hlt
  have : packLanes w ((List.range n).map f) < 2 ^ 4096 := lt_of_lt_of_le hlt (Nat.pow_le_pow_right (by omega) h)
  simp only [lane, BitVec.toNat_ofNat]
  rw [Nat.mod_eq_of_lt this, packLanes_lane]
  simp [List.getD, hi]

/-- The bits and values of lanes given by functions. -/
theorem lanes_of (w n : Nat) (act : Nat → Bool) (f : Nat → Nat) (h : w * n ≤ 4096) (i : Nat) (hi : i < n) :
    lane w (laneBits w n act) i = (if act i then 2 ^ w - 1 else 0) ∧ (act i = true → lane w (laneVec w n act f) i = f i % 2 ^ w) := by
  have hp : 0 < 2 ^ w := by positivity
  refine ⟨?_, fun ha => ?_⟩
  · rw [laneBits, lane_pack w n _ h i hi]
    split_ifs
    · exact Nat.mod_eq_of_lt (by omega)
    · simp
  · rw [laneVec, lane_pack w n _ h i hi, ha]; rfl

theorem giveLanes_gives (s : State) (cls w d : Nat) (act : Nat → Bool) (f : Nat → Nat) :
    GivesLanes s (latOf s s.c cls) w d act f (s.giveLanes cls w d act f) :=
  ⟨_, _, give_gives s cls _, fun i hi => lanes_of w (4096 / w) act f (Nat.mul_div_le 4096 w) i hi⟩

/-- Lanes as functions that agree on the active elements. -/
theorem givesLanes_congr {s t : State} {lat w d : Nat} {act : Nat → Bool} {f g : Nat → Nat} (h : GivesLanes s lat w d act f t) (e : ∀ i, f i % 2 ^ w = g i % 2 ^ w) :
    GivesLanes s lat w d act g t := by
  obtain ⟨b, v, h1, h2⟩ := h
  exact ⟨b, v, h1, fun i hi => ⟨(h2 i hi).1, fun ha => ((h2 i hi).2 ha).trans (e i)⟩⟩

end Sys2Proof.Machine
end

