-- ==== Sys2Proof/Laws/Matrix.lean ====
section
/-! SUPPORT. The elements of a tile as numbers, the OR of their flags, and the words of HSEED (08 R129, 14 R249, R255). -/

namespace Sys2Proof.Machine

/-- A and X of an element as the numbers of their bits (08 R129). -/
theorem a_toInt (e : AccElem) : e.a = (e.g ++ e.m).toInt := by
  unfold AccElem.a sextNat
  have hg := e.g.isLt; have hm := e.m.isLt
  have hh : (e.g ++ e.m).toNat = e.g.toNat * 2 ^ 48 + e.m.toNat := by
    rw [BitVec.toNat_append, Nat.shiftLeft_eq, Nat.mul_comm, ← Nat.two_pow_add_eq_or_of_lt hm]
  rw [BitVec.toInt_eq_toNat_cond, hh]
  simp only; split <;> split <;> omega

theorem xs_toInt (e : AccElem) : e.xs = e.x.toInt := by
  unfold AccElem.xs sextNat
  have := e.x.isLt
  rw [BitVec.toInt_eq_toNat_cond]
  simp only; split <;> split <;> omega

/-- NAN is bit 3 of F. -/
theorem nan_flag (f : BitVec 16) : f &&& fNan ≠ 0 ↔ f.getLsbD 3 = true := by
  rw [show fNan = BitVec.twoPow 16 3 from rfl, BitVec.and_twoPow]
  split
  · rename_i h; exact ⟨fun _ => h, fun _ => by decide⟩
  · rename_i h; exact ⟨fun h0 => absurd rfl h0, fun h0 => absurd h0 h⟩

theorem flags_fold (l : Sparse AccElem) (a : BitVec 16) (i : Nat) :
    (l.foldl (fun f p => f ||| p.2.f) a).getLsbD i = true ↔ a.getLsbD i = true ∨ ∃ p ∈ l, p.2.f.getLsbD i = true := by
  induction l generalizing a with
  | nil => simp
  | cons h t ih => simp [ih, or_assoc]

/-- An entry of a tile in the order of its numbers is what its number reads as. -/
theorem sget_mem (l : Sparse AccElem) (h : (l.map (fun x => x.1)).Pairwise (· < ·)) (k : Nat) (v : AccElem) (hm : (k, v) ∈ l) : sget {} l k = v := by
  induction l with
  | nil => cases hm
  | cons p t ih =>
    obtain ⟨k', v'⟩ := p
    simp only [List.map_cons, List.pairwise_cons] at h
    rcases List.mem_cons.1 hm with h1 | h1
    · cases h1; simp [sget]
    · have : k' < k := h.1 k (List.mem_map.2 ⟨_, h1, rfl⟩)
      rw [sget, if_neg (by omega)]; exact ih h.2 h1

theorem sget_or (l : Sparse AccElem) (k : Nat) : (k, sget {} l k) ∈ l ∨ sget {} l k = {} := by
  induction l with
  | nil => exact .inr rfl
  | cons p t ih =>
    obtain ⟨k', v'⟩ := p
    rw [sget]; split
    · rename_i h; subst h; exact .inl (by simp)
    · rcases ih with h | h
      · exact .inl (List.mem_cons_of_mem _ h)
      · exact .inr h

/-- ASTAT.depth's flags are the OR over the tile's elements (14 R249). -/
theorem flags_or (tile : Tile) (h : (tile.elems.map (fun x => x.1)).Pairwise (· < ·)) (hb : ∀ x ∈ tile.elems, x.1 < 4096) (i : Nat) :
    (flagsOr tile).getLsbD i = true ↔ ∃ x, x < 4096 ∧ (sget {} tile.elems x).f.getLsbD i = true := by
  unfold flagsOr
  rw [flags_fold]
  constructor
  · rintro (h0 | ⟨⟨k, v⟩, hm, hv⟩)
    · simp at h0
    exact ⟨k, hb _ hm, by rw [sget_mem _ h _ _ hm]; exact hv⟩
  · rintro ⟨x, -, hv⟩
    rcases sget_or tile.elems x with hh | hh
    · exact .inr ⟨_, hh, hv⟩
    · rw [hh] at hv; simp at hv

/-- One 64-bit word of a hypervector. -/
theorem hyper_lane (l : List Nat) (hl : l.length = 128) (w : Nat) : (BitVec.ofNat 8192 (packLanes 64 l)).extractLsb' (64 * w) 64 = BitVec.ofNat 64 (l.getD w 0) := by
  apply BitVec.eq_of_toNat_eq
  rw [BitVec.extractLsb'_toNat, Nat.shiftRight_eq_div_pow, BitVec.toNat_ofNat]
  have hb := packLanes_lt 64 l
  rw [hl] at hb
  rw [Nat.mod_eq_of_lt hb, packLanes_lane, BitVec.toNat_ofNat]

/-- One step of the generator of HSEED (14 R255). -/
def seedStep (x : Word) : Word := let y := x ^^^ (x <<< 13); let y := y ^^^ (y >>> 7); y ^^^ (y <<< 17)

theorem seedWords_length (n a : Nat) (x : Word) : (seedWords n a x).length = n := by
  induction n generalizing a x with
  | zero => rfl
  | succ n ih => exact congrArg Nat.succ (ih (a + 1) _)

/-- The words of HSEED are those of the generator's states. -/
theorem seedWords_get (z : Nat → Word) (hz : ∀ w, z (w + 1) = seedStep (z w)) (n a i : Nat) (h : i < n) :
    (seedWords n a (z a)).getD i 0 = (z (a + i + 1) ^^^ (BitVec.ofNat 64 (a + i) * 0xD1B54A32D192ED03)).toNat := by
  induction n generalizing a i with
  | zero => omega
  | succ n ih =>
    cases i with
    | zero => rw [Nat.add_zero, hz]; rfl
    | succ i =>
      have := ih (a + 1) i (by omega)
      rw [hz] at this
      rw [show a + (i + 1) = a + 1 + i by omega, ← this]; rfl

end Sys2Proof.Machine
end

