-- ==== Sys2Proof/Laws/Numbers.lean ====
section
/-! SUPPORT. Rounding and exact arithmetic as rational numbers (08 R122, R124-R126): what a finite pattern stands for, that sums and products are exact, and that a value is rounded once, correctly. -/

namespace Sys2Proof.Machine

/-- The magnitude of fields with exponent step E and significand q, which may carry into the next exponent. -/
theorem magnitude_at (f : Fmt) (E q : Nat) (hq : q ≤ 2 ^ (f.fb + 1)) (h : E = 0 ∨ 2 ^ f.fb ≤ q) :
    f.magnitude (E * 2 ^ f.fb + q) = (q : ℚ) * (2 : ℚ) ^ ((E : ℤ) + 1 - f.bias - f.fb) := by
  have hp : 0 < 2 ^ f.fb := Nat.two_pow_pos _
  rw [pow_succ] at hq
  unfold Fmt.magnitude
  rcases Nat.lt_or_ge q (2 ^ f.fb) with hlt | hge
  · have hE : E = 0 := by omega
    subst hE
    have : (0 * 2 ^ f.fb + q) / 2 ^ f.fb = 0 := by rw [Nat.zero_mul, Nat.zero_add]; exact Nat.div_eq_of_lt hlt
    rw [if_pos this]; simp
  · rcases Nat.lt_or_ge q (2 ^ f.fb * 2) with hlt | hge2
    · obtain ⟨r, rfl⟩ := Nat.exists_eq_add_of_le hge
      have hr : r < 2 ^ f.fb := by omega
      have e1 : (E * 2 ^ f.fb + (2 ^ f.fb + r)) = r + 2 ^ f.fb * (E + 1) := by ring
      have d1 : (E * 2 ^ f.fb + (2 ^ f.fb + r)) / 2 ^ f.fb = E + 1 := by
        rw [e1, Nat.add_mul_div_left _ _ hp, Nat.div_eq_of_lt hr, Nat.zero_add]
      have m1 : (E * 2 ^ f.fb + (2 ^ f.fb + r)) % 2 ^ f.fb = r := by
        rw [e1, Nat.add_mul_mod_self_left, Nat.mod_eq_of_lt hr]
      rw [d1, m1, if_neg (by omega)]
      push_cast
      rfl
    · have : q = 2 ^ f.fb * 2 := by omega
      subst this
      have e1 : (E * 2 ^ f.fb + 2 ^ f.fb * 2) = 2 ^ f.fb * (E + 2) := by ring
      rw [e1, Nat.mul_div_cancel_left _ hp, Nat.mul_mod_right, if_neg (by omega)]
      push_cast
      rw [show ((E : ℤ) + 2 - f.bias - f.fb) = ((E : ℤ) + 1 - f.bias - f.fb) + 1 by ring, zpow_add_one₀ (by norm_num)]
      ring

/-- Patterns that follow each other stand for rising magnitudes. -/
theorem magnitude_lt_succ (f : Fmt) (p : Nat) : f.magnitude p < f.magnitude (p + 1) := by
  have hp : 0 < 2 ^ f.fb := Nat.two_pow_pos _
  -- write p as E * 2^fb + q
  have key : ∃ E q, p = E * 2 ^ f.fb + q ∧ q + 1 ≤ 2 ^ (f.fb + 1) ∧ (E = 0 ∨ 2 ^ f.fb ≤ q) := by
    by_cases h : p < 2 ^ f.fb
    · exact ⟨0, p, by simp, by rw [pow_succ]; omega, .inl rfl⟩
    · refine ⟨p / 2 ^ f.fb - 1, 2 ^ f.fb + p % 2 ^ f.fb, ?_, ?_, .inr (by omega)⟩
      · have h1 : 1 ≤ p / 2 ^ f.fb := (Nat.one_le_div_iff hp).2 (by omega)
        have := Nat.div_add_mod p (2 ^ f.fb)
        obtain ⟨k, hk⟩ := Nat.exists_eq_add_of_le h1
        rw [hk] at this ⊢
        rw [Nat.add_sub_cancel_left]
        nlinarith
      · have := Nat.mod_lt p hp
        rw [pow_succ]; omega
  obtain ⟨E, q, rfl, hq, h⟩ := key
  rw [magnitude_at f E q (by omega) h, Nat.add_assoc, magnitude_at f E (q + 1) hq (by rcases h with h | h; exact .inl h; exact .inr (by omega))]
  have : (0 : ℚ) < (2 : ℚ) ^ ((E : ℤ) + 1 - f.bias - f.fb) := zpow_pos (by norm_num) _
  push_cast
  nlinarith

theorem magnitude_strictMono (f : Fmt) : StrictMono f.magnitude := strictMono_nat_of_lt_succ (magnitude_lt_succ f)

/-- `scale2` multiplies by a power of two, exactly. -/
theorem scale2_eq (n d : Nat) (k : ℤ) (hd : 0 < d) : 0 < (scale2 n d k).2 ∧ ((scale2 n d k).1 : ℚ) / (scale2 n d k).2 = (n : ℚ) / d * (2 : ℚ) ^ k := by
  unfold scale2
  split
  · rename_i h
    obtain ⟨j, rfl⟩ := Int.eq_ofNat_of_zero_le h
    refine ⟨hd, ?_⟩
    simp only [Int.toNat_natCast, zpow_natCast]
    push_cast; ring
  · rename_i h
    obtain ⟨j, hj⟩ := Int.eq_ofNat_of_zero_le (show 0 ≤ -k by omega)
    have : k = -(j : ℤ) := by omega
    subst this
    refine ⟨by simp; positivity, ?_⟩
    simp only [neg_neg, Int.toNat_natCast, zpow_neg, zpow_natCast]
    push_cast
    field_simp

/-- `floorLog2` is the binary exponent of a positive rational. -/
theorem floorLog2_spec (n d : Nat) (hn : 0 < n) (hd : 0 < d) :
    (2 : ℚ) ^ (floorLog2 n d) ≤ (n : ℚ) / d ∧ (n : ℚ) / d < (2 : ℚ) ^ (floorLog2 n d + 1) := by
  have hn1 : (2 : ℚ) ^ (Nat.log2 n : ℤ) ≤ n := by
    have := Nat.log2_self_le (n := n) (by omega); rw [zpow_natCast]; exact_mod_cast this
  have hn2 : (n : ℚ) < (2 : ℚ) ^ ((Nat.log2 n : ℤ) + 1) := by
    have := Nat.lt_log2_self (n := n); rw [← Int.natCast_succ, zpow_natCast]; exact_mod_cast this
  have hd1 : (2 : ℚ) ^ (Nat.log2 d : ℤ) ≤ d := by
    have := Nat.log2_self_le (n := d) (by omega); rw [zpow_natCast]; exact_mod_cast this
  have hd2 : (d : ℚ) < (2 : ℚ) ^ ((Nat.log2 d : ℤ) + 1) := by
    have := Nat.lt_log2_self (n := d); rw [← Int.natCast_succ, zpow_natCast]; exact_mod_cast this
  have hdq : (0 : ℚ) < d := by exact_mod_cast hd
  set e : ℤ := (Nat.log2 n : ℤ) - Nat.log2 d with he
  have up : (n : ℚ) / d < (2 : ℚ) ^ (e + 1) := by
    rw [div_lt_iff₀ hdq]
    calc (n : ℚ) < (2 : ℚ) ^ ((Nat.log2 n : ℤ) + 1) := hn2
      _ = (2 : ℚ) ^ (e + 1) * (2 : ℚ) ^ (Nat.log2 d : ℤ) := by rw [← zpow_add₀ (by norm_num)]; congr 1; omega
      _ ≤ _ := by gcongr
  have low : (2 : ℚ) ^ (e - 1) < (n : ℚ) / d := by
    rw [lt_div_iff₀ hdq]
    calc (2 : ℚ) ^ (e - 1) * d < (2 : ℚ) ^ (e - 1) * (2 : ℚ) ^ ((Nat.log2 d : ℤ) + 1) := by gcongr
      _ = (2 : ℚ) ^ (Nat.log2 n : ℤ) := by rw [← zpow_add₀ (by norm_num)]; congr 1; omega
      _ ≤ _ := hn1
  obtain ⟨hb, hs⟩ := scale2_eq d 1 e one_pos
  unfold floorLog2
  simp only []
  rw [← he]
  set a := (scale2 d 1 e).1
  set b := (scale2 d 1 e).2
  have hbq : (0 : ℚ) < b := by exact_mod_cast hb
  have cmp : (n * b < a) ↔ (n : ℚ) / d < (2 : ℚ) ^ e := by
    rw [div_lt_iff₀ hdq]
    have : (a : ℚ) = (2 : ℚ) ^ e * d * b := by
      have := hs; rw [Nat.cast_one, div_one] at this
      rw [div_eq_iff hbq.ne'] at this; rw [this]; ring
    rw [← Nat.cast_lt (α := ℚ), Nat.cast_mul, this, mul_lt_mul_iff_left₀ hbq]
  split
  · rename_i h
    exact ⟨low.le, by rw [sub_add_cancel]; exact cmp.1 h⟩
  · rename_i h
    exact ⟨not_lt.1 (fun h' => h (cmp.2 h')), up⟩


theorem number_fin (neg : Bool) (m : Nat) (e : ℤ) : (FVal.fin neg m e).number = (if neg then -1 else 1) * (m : ℚ) * (2 : ℚ) ^ e := rfl

theorem magnitude_zero (f : Fmt) : f.magnitude 0 = 0 := by simp [Fmt.magnitude]

theorem magnitude_nonneg (f : Fmt) (p : Nat) : 0 ≤ f.magnitude p := by
  have := (magnitude_strictMono f).monotone (Nat.zero_le p); rwa [magnitude_zero] at this

/-- A rational lies between its quotient and the next integer, at the remainder's distance. -/
theorem floor_spec (n d : Nat) (hd : 0 < d) : ((n / d : Nat) : ℚ) ≤ (n : ℚ) / d ∧ (n : ℚ) / d < (n / d : Nat) + 1 ∧ (n : ℚ) / d = (n / d : Nat) + ((n % d : Nat) : ℚ) / d := by
  have hdq : (0 : ℚ) < d := by exact_mod_cast hd
  have e : (n : ℚ) / d = (n / d : Nat) + ((n % d : Nat) : ℚ) / d := by
    rw [eq_comm, ← sub_eq_zero]; field_simp
    have := Nat.div_add_mod n d
    have : (n : ℚ) = d * (n / d : Nat) + (n % d : Nat) := by exact_mod_cast this.symm
    linarith
  have h1 : (0 : ℚ) ≤ ((n % d : Nat) : ℚ) / d := by positivity
  have h2 : ((n % d : Nat) : ℚ) / d < 1 := by rw [div_lt_one hdq]; exact_mod_cast Nat.mod_lt n hd
  exact ⟨by linarith, by linarith, e⟩

/-- `roundFrac` rounds a positive rational once, under its mode, and gives the pattern of what it rounds to (08 R124, R126). -/
theorem roundFrac_rounds (f : Fmt) (rm : Rm) (satur neg : Bool) (n d : Nat) (hf : 1 ≤ f.fb) (hn : 0 < n) (hd : 0 < d) :
    ∃ p, RoundsTo f rm neg ((n : ℚ) / d) p ∧
      roundFrac f rm satur neg n d = f.pattern rm neg satur p := by
  set emin : ℤ := 1 - (f.bias : ℤ) with hemin
  obtain ⟨l1, l2⟩ := floorLog2_spec n d hn hd
  set L := floorLog2 n d with hL
  set ex := max L emin with hex
  obtain ⟨hb, hs⟩ := scale2_eq n d ((f.fb : ℤ) - ex) hd
  set a := (scale2 n d ((f.fb : ℤ) - ex)).1 with ha
  set b := (scale2 n d ((f.fb : ℤ) - ex)).2 with hbd
  set E : Nat := (ex - emin).toNat with hE
  have hEz : (E : ℤ) = ex - emin := Int.toNat_of_nonneg (by omega)
  obtain ⟨f1, f2, f3⟩ := floor_spec a b hb
  set q := a / b with hq
  -- the unit
  set U : ℚ := (2 : ℚ) ^ (ex - f.fb) with hU
  have hUpos : 0 < U := zpow_pos (by norm_num) _
  have hx : (n : ℚ) / d = (a : ℚ) / b * U := by
    rw [hs, hU, mul_assoc, ← zpow_add₀ (by norm_num : (2 : ℚ) ≠ 0), show (f.fb : ℤ) - ex + (ex - f.fb) = 0 by ring, zpow_zero, mul_one]
  have hfbpow : ((2 ^ f.fb : Nat) : ℚ) * U = (2 : ℚ) ^ ex := by
    rw [hU]; push_cast; rw [← zpow_natCast, ← zpow_add₀ (by norm_num)]; congr 1; ring
  -- bounds of q
  have hq1 : q < 2 ^ (f.fb + 1) := by
    have : (q : ℚ) * U < (2 ^ (f.fb + 1) : Nat) * U := by
      calc (q : ℚ) * U ≤ (a : ℚ) / b * U := by gcongr
        _ = (n : ℚ) / d := hx.symm
        _ < (2 : ℚ) ^ (L + 1) := l2
        _ ≤ (2 : ℚ) ^ (ex + 1) := zpow_le_zpow_right₀ (by norm_num) (by omega)
        _ = (2 ^ (f.fb + 1) : Nat) * U := by
            rw [zpow_add_one₀ (by norm_num), ← hfbpow]; push_cast; ring
    have := lt_of_mul_lt_mul_right this hUpos.le
    exact_mod_cast this
  have hq0 : E = 0 ∨ 2 ^ f.fb ≤ q := by
    by_cases h : L ≤ emin
    · left; omega
    · right
      have hexL : ex = L := by omega
      have : ((2 ^ f.fb : Nat) : ℚ) * U < ((q : ℚ) + 1) * U := by
        rw [hfbpow]
        calc (2 : ℚ) ^ ex = (2 : ℚ) ^ L := by rw [hexL]
          _ ≤ (n : ℚ) / d := l1
          _ = (a : ℚ) / b * U := hx
          _ < _ := by gcongr
      have := lt_of_mul_lt_mul_right this hUpos.le
      have : (2 ^ f.fb : Nat) < q + 1 := by exact_mod_cast this
      omega
  have magq : ∀ j, j ≤ 1 → f.magnitude (E * 2 ^ f.fb + (q + j)) = ((q : ℚ) + j) * U := by
    intro j hj
    rw [magnitude_at f E (q + j) (by omega) (by omega), hU]
    push_cast; congr 2; rw [hEz, hemin]; ring
  have m0 : f.magnitude (E * 2 ^ f.fb + q) = (q : ℚ) * U := by simpa using magq 0 (by omega)
  have m1 : f.magnitude (E * 2 ^ f.fb + q + 1) = ((q : ℚ) + 1) * U := by simpa [Nat.add_assoc] using magq 1 (by omega)
  have mono := magnitude_strictMono f
  set p0 := E * 2 ^ f.fb + q with hp0
  have low : f.magnitude p0 ≤ (n : ℚ) / d := by rw [m0, hx]; gcongr
  have high : (n : ℚ) / d < f.magnitude (p0 + 1) := by rw [m1, hx]; gcongr
  -- parity of p0 when fb > 0 or via E
  have hpar : p0 % 2 = q % 2 := by
    obtain ⟨j, hj⟩ := Nat.exists_eq_add_of_le hf
    rw [hp0, hj, pow_add, pow_one, Nat.mul_comm 2, ← Nat.mul_assoc, Nat.add_mod, Nat.mul_mod_left, Nat.zero_add, Nat.mod_mod]
  have hpar1 : (p0 + 1) % 2 = (q + 1) % 2 := by omega
  have hbq : (0 : ℚ) < b := by exact_mod_cast hb
  set r := a % b with hr
  -- distances in units
  have dlow : (n : ℚ) / d - f.magnitude p0 = (r : ℚ) / b * U := by rw [m0, hx, f3]; ring
  have dhigh : f.magnitude (p0 + 1) - (n : ℚ) / d = (((b : ℚ) - r) / b) * U := by
    rw [m1, hx, f3, sub_div, div_self hbq.ne']; ring
  have rlt : r < b := Nat.mod_lt a hb
  have exact : r = 0 → (n : ℚ) / d = f.magnitude p0 := by
    intro h; have := dlow; rw [h] at this; simp at this; linarith
  have notexact : r ≠ 0 → f.magnitude p0 < (n : ℚ) / d := by
    intro h
    have : 0 < (r : ℚ) / b * U := by
      have : (0 : ℚ) < r := by exact_mod_cast Nat.pos_of_ne_zero h
      positivity
    linarith
  have belowOk : f.magnitude p0 ≤ (n : ℚ) / d ∧ (n : ℚ) / d < f.magnitude (p0 + 1) := ⟨low, high⟩
  have aboveOk : r = 0 → (n : ℚ) / d ≤ f.magnitude p0 ∧ ∀ j, j < p0 → f.magnitude j < (n : ℚ) / d :=
    fun h => ⟨(exact h).le, fun j hj => (exact h) ▸ mono hj⟩
  have aboveOk1 : r ≠ 0 → (n : ℚ) / d ≤ f.magnitude (p0 + 1) ∧ ∀ j, j < p0 + 1 → f.magnitude j < (n : ℚ) / d :=
    fun h => ⟨high.le, fun j hj => lt_of_le_of_lt (mono.monotone (Nat.le_of_lt_succ hj)) (notexact h)⟩
  have nearLow : (2 * r < b ∨ (2 * r = b ∧ q % 2 = 0)) → ∀ j, j ≠ p0 → |(n : ℚ) / d - f.magnitude p0| < |(n : ℚ) / d - f.magnitude j| ∨ (|(n : ℚ) / d - f.magnitude p0| = |(n : ℚ) / d - f.magnitude j| ∧ p0 % 2 = 0) := by
    intro h j hj
    have hle : (r : ℚ) / b * U ≤ ((b : ℚ) - r) / b * U := by
      have : (2 * r : ℚ) ≤ b := by rcases h with h | h; exact_mod_cast h.le; exact_mod_cast h.1.le
      gcongr; linarith
    rw [abs_of_nonneg (show 0 ≤ (n : ℚ) / d - f.magnitude p0 by linarith)]
    by_cases h1 : j = p0 + 1
    · subst h1
      rw [abs_sub_comm ((n : ℚ) / d), abs_of_nonneg (show 0 ≤ f.magnitude (p0 + 1) - (n : ℚ) / d by linarith), dlow, dhigh]
      rcases h with h | ⟨h, he⟩
      · left
        have : (2 * r : ℚ) < b := by exact_mod_cast h
        gcongr; linarith
      · right
        have : (2 * r : ℚ) = b := by exact_mod_cast h
        exact ⟨by congr 2; linarith, by omega⟩
    · left
      rcases Nat.lt_or_ge j p0 with h' | h'
      · have := mono h'
        rw [abs_of_nonneg (show 0 ≤ (n : ℚ) / d - f.magnitude j by linarith)]; linarith
      · have h2 : p0 + 1 < j := by omega
        have := mono h2
        rw [abs_sub_comm ((n : ℚ) / d), abs_of_nonneg (show 0 ≤ f.magnitude j - (n : ℚ) / d by linarith)]; linarith
  have nearHigh : (b < 2 * r ∨ (2 * r = b ∧ q % 2 = 1)) → ∀ j, j ≠ p0 + 1 → |(n : ℚ) / d - f.magnitude (p0 + 1)| < |(n : ℚ) / d - f.magnitude j| ∨ (|(n : ℚ) / d - f.magnitude (p0 + 1)| = |(n : ℚ) / d - f.magnitude j| ∧ (p0 + 1) % 2 = 0) := by
    intro h j hj
    have hle : ((b : ℚ) - r) / b * U ≤ (r : ℚ) / b * U := by
      have : (b : ℚ) ≤ 2 * r := by rcases h with h | h; exact_mod_cast h.le; exact_mod_cast h.1.ge
      gcongr; linarith
    rw [abs_sub_comm ((n : ℚ) / d), abs_of_nonneg (show 0 ≤ f.magnitude (p0 + 1) - (n : ℚ) / d by linarith)]
    by_cases h1 : j = p0
    · subst h1
      rw [abs_of_nonneg (show 0 ≤ (n : ℚ) / d - f.magnitude p0 by linarith), dlow, dhigh]
      rcases h with h | ⟨h, he⟩
      · left
        have : (b : ℚ) < 2 * r := by exact_mod_cast h
        gcongr; linarith
      · right
        have : (2 * r : ℚ) = b := by exact_mod_cast h
        exact ⟨by congr 2; linarith, by omega⟩
    · left
      rcases Nat.lt_or_ge j p0 with h' | h'
      · have := mono h'
        rw [abs_of_nonneg (show 0 ≤ (n : ℚ) / d - f.magnitude j by linarith)]; linarith
      · have h2 : p0 + 1 < j := by omega
        have := mono h2
        rw [abs_sub_comm ((n : ℚ) / d), abs_of_nonneg (show 0 ≤ f.magnitude j - (n : ℚ) / d by linarith)]; linarith
  refine ⟨E * 2 ^ f.fb + roundNat rm neg a b, ?_, ?_⟩
  · unfold roundNat
    simp only [← hq, ← hr]
    cases rm <;> simp only [RoundsTo]
    · by_cases h : b < 2 * r ∨ (2 * r = b ∧ q % 2 = 1)
      · rw [if_pos (by simpa using h), ← Nat.add_assoc]; exact nearHigh h
      · rw [if_neg (by simpa using h)]; exact nearLow (by omega)
    · exact belowOk
    · cases neg
      · simpa using belowOk
      · by_cases h : r = 0
        · simpa [h] using aboveOk h
        · simpa [h, ← Nat.add_assoc] using aboveOk1 h
    · cases neg
      · by_cases h : r = 0
        · simpa [h] using aboveOk h
        · simpa [h, ← Nat.add_assoc] using aboveOk1 h
      · simpa using belowOk
  · unfold roundFrac Fmt.pattern
    rw [if_neg (by omega)]
    simp only []
    rw [← hL, ← hemin, ← hex, ← ha, ← hbd, ← hE]
    generalize E * 2 ^ f.fb + roundNat rm neg a b = p
    by_cases hp : f.maxFin < p
    · rw [if_pos hp, if_neg (show ¬ p ≤ f.maxFin by omega)]; rfl
    · rw [if_neg hp, if_pos (show p ≤ f.maxFin by omega)]; rfl
/-- Aligning a finite value to a lower exponent keeps its number. -/
theorem number_align (neg : Bool) (m : Nat) (e lo : ℤ) (h : lo ≤ e) : (FVal.align neg m e lo : ℚ) * (2 : ℚ) ^ lo = (FVal.fin neg m e).number := by
  obtain ⟨j, hj⟩ := Int.eq_ofNat_of_zero_le (show 0 ≤ e - lo by omega)
  have he : e = lo + j := by omega
  rw [number_fin]
  unfold FVal.align
  subst he
  have hz : (2 : ℚ) ^ (lo + j) = 2 ^ j * (2 : ℚ) ^ lo := by rw [zpow_add₀ (by norm_num), zpow_natCast]; ring
  rw [show (lo + (j : ℤ) - lo).toNat = j by omega, hz]
  cases neg <;> simp <;> ring

/-- The sum of finite values is finite and exact. -/
theorem number_add (rm : Rm) (a b : Bool) (m n : Nat) (e g : ℤ) :
    ∃ c k h, FVal.add (.fin a m e) (.fin b n g) = .fin c k h ∧ (FVal.fin c k h).number = (FVal.fin a m e).number + (FVal.fin b n g).number := by
  have h1 := number_align a m e (min e g) (min_le_left _ _)
  have h2 := number_align b n g (min e g) (min_le_right _ _)
  simp only [FVal.add]
  set v := FVal.align a m e (min e g) + FVal.align b n g (min e g) with hv
  have hsum : (v : ℚ) * (2 : ℚ) ^ (min e g) = (FVal.fin a m e).number + (FVal.fin b n g).number := by
    rw [← h1, ← h2, hv]; push_cast; ring
  split
  · rename_i h0
    refine ⟨_, _, _, rfl, ?_⟩
    rw [← hsum, h0]; simp [FVal.number]
  · refine ⟨_, _, _, rfl, ?_⟩
    rw [← hsum, number_fin]
    by_cases hneg : v < 0
    · have : ((v.natAbs : Nat) : ℚ) = -(v : ℚ) := by
        have : ((v.natAbs : Nat) : ℤ) = -v := by omega
        rw [← Int.cast_natCast, this]; push_cast; rfl
      simp [hneg, this]
    · have : ((v.natAbs : Nat) : ℚ) = (v : ℚ) := by
        have : ((v.natAbs : Nat) : ℤ) = v := by omega
        rw [← Int.cast_natCast, this]
      simp [hneg, this]

/-- The product of finite values is finite and exact. -/
theorem number_mul (a b : Bool) (m n : Nat) (e g : ℤ) :
    ∃ c k h, FVal.mul (.fin a m e) (.fin b n g) = .fin c k h ∧ (FVal.fin c k h).number = (FVal.fin a m e).number * (FVal.fin b n g).number := by
  refine ⟨_, _, _, rfl, ?_⟩
  simp only [number_fin]
  rw [zpow_add₀ (by norm_num)]
  cases a <;> cases b <;> simp <;> ring

/-- Finite values are compared as numbers. -/
theorem lt_iff_number (a b : Bool) (m n : Nat) (e g : ℤ) :
    (FVal.fin a m e).lt (.fin b n g) = true ↔ (FVal.fin a m e).number < (FVal.fin b n g).number := by
  rw [← number_align a m e (min e g) (min_le_left _ _), ← number_align b n g (min e g) (min_le_right _ _)]
  have : (0 : ℚ) < 2 ^ min e g := zpow_pos (by norm_num) _
  simp [FVal.lt, this]

/-- A finite pattern stands for its sign and the magnitude of its fields. -/
theorem decodeF_number (f : Fmt) (b : Nat) (neg : Bool) (m : Nat) (e : ℤ) (h : decodeF f b = .fin neg m e) :
    neg = (b / 2 ^ (f.eb + f.fb) % 2 == 1) ∧ (FVal.fin neg m e).number = (if neg then -1 else 1) * f.magnitude (b % 2 ^ (f.eb + f.fb)) := by
  have hp : 0 < 2 ^ f.fb := Nat.two_pow_pos _
  have hx : b % 2 ^ (f.eb + f.fb) / 2 ^ f.fb = b / 2 ^ f.fb % 2 ^ f.eb := by
    rw [Nat.add_comm, pow_add, Nat.mod_mul_right_div_self]
  have hm : b % 2 ^ (f.eb + f.fb) % 2 ^ f.fb = b % 2 ^ f.fb := by
    rw [Nat.add_comm, pow_add, Nat.mod_mul_right_mod]
  unfold decodeF at h
  simp only [] at h
  split at h
  · split at h <;> cases h
  · split at h
    · cases h
    · unfold Fmt.magnitude
      rw [hx, hm]
      split at h
      · rename_i h0
        injection h with h1 h2 h3
        rw [if_pos h0]
        refine ⟨h1.symm, ?_⟩
        have : b % 2 ^ (f.eb + f.fb) = b % 2 ^ f.fb := by
          have := Nat.div_add_mod (b % 2 ^ (f.eb + f.fb)) (2 ^ f.fb)
          rw [hx, hm, h0] at this; omega
        subst h2 h3
        simp only [FVal.number, this]
        ring
      · rename_i h0
        injection h with h1 h2 h3
        rw [if_neg h0]
        refine ⟨h1.symm, ?_⟩
        subst h2 h3
        simp only [FVal.number]
        rw [Nat.add_comm (b % _)]
        rw [mul_assoc]
        congr 3
        ring

/-- A finite value is written as its number rounded, whatever its exponent. -/
theorem encodeF_fin (f : Fmt) (rm : Rm) (sat b : Bool) (k : Nat) (e : ℤ) (hf : 1 ≤ f.fb) :
    ∃ p, RoundsTo f rm b (FVal.fin false k e).number p ∧ encodeF f rm sat (.fin b k e) = f.pattern rm b (sat || f.satur) p := by
  obtain ⟨h1, h2⟩ := scale2_eq k 1 e one_pos
  have hx : (FVal.fin false k e).number = ((scale2 k 1 e).1 : ℚ) / (scale2 k 1 e).2 := by
    rw [h2, number_fin]; simp
  rw [hx]
  simp only [encodeF]
  generalize scale2 k 1 e = nd at h1 hx ⊢
  obtain ⟨n, d⟩ := nd
  simp only at h1 hx ⊢
  rcases Nat.eq_zero_or_pos n with rfl | hn
  · refine ⟨0, ?_, ?_⟩
    · have hs := magnitude_strictMono f
      have h0 := magnitude_zero f
      have h01 : 0 < f.magnitude 1 := h0 ▸ hs one_pos
      simp only [Nat.cast_zero, zero_div]
      have hb : f.magnitude 0 ≤ 0 ∧ (0 : ℚ) < f.magnitude (0 + 1) := ⟨h0.le, h01⟩
      have ha : 0 ≤ f.magnitude 0 ∧ ∀ j, j < 0 → f.magnitude j < (0 : ℚ) := ⟨h0.ge, fun j hj => absurd hj (Nat.not_lt_zero j)⟩
      cases rm
      · intro j hj
        left; rw [h0]; simp only [sub_zero, abs_zero, zero_sub, abs_neg]
        have : 0 < f.magnitude j := h0 ▸ hs (Nat.pos_of_ne_zero hj)
        exact abs_pos.2 this.ne'
      · exact hb
      · cases b <;> simp only [RoundsTo] <;> assumption
      · cases b <;> simp only [RoundsTo] <;> assumption
    · simp [roundFrac, Fmt.pattern, Fmt.sign]
  · exact roundFrac_rounds f rm _ b n d hf hn h1

/-- Which patterns are a NaN or an infinity. -/
theorem decodeF_nan (f : Fmt) (n : Nat) : let top : Prop := n / 2 ^ f.fb % 2 ^ f.eb = 2 ^ f.eb - 1
        let fraction := n % 2 ^ f.fb
        let neg : Bool := n / 2 ^ (f.eb + f.fb) % 2 == 1
        (decodeF f n = .nan ↔ top ∧ if f.hasInf then fraction ≠ 0 else fraction = 2 ^ f.fb - 1)
        ∧ (∀ b, decodeF f n = .inf b ↔ top ∧ f.hasInf = true ∧ fraction = 0 ∧ b = neg) := by
  intro top fraction neg
  unfold decodeF
  simp only [Bool.and_eq_true, beq_iff_eq, Bool.not_eq_true', neg, top, fraction]
  generalize (n / 2 ^ (f.eb + f.fb) % 2 == 1) = sg
  cases hI : f.hasInf <;> simp only [Bool.false_eq_true, if_false, if_true, false_and, true_and, and_false, iff_false] <;> constructor
  · split_ifs <;> simp_all
  · intro b; split_ifs <;> simp_all
  · split_ifs <;> simp_all
  · intro b; split_ifs <;> simp_all <;> exact eq_comm

/-- Maximum and minimum of finite values: one of the two, by number, and by sign where the numbers are equal. -/
theorem maxn_minn (i j : Bool) (k l : Nat) (e g : Int) :       let u : FVal := .fin i k e
      let v : FVal := .fin j l g
      (FVal.maxn u v = u ∨ FVal.maxn u v = v) ∧ (FVal.maxn u v).number = max u.number v.number ∧ (u.number = v.number → (FVal.maxn u v).signBit = (i && j))
      ∧ (FVal.minn u v = u ∨ FVal.minn u v = v) ∧ (FVal.minn u v).number = min u.number v.number ∧ (u.number = v.number → (FVal.minn u v).signBit = (i || j)) := by
  intro u v
  have h1 : u.lt v = true ↔ u.number < v.number := lt_iff_number i j k l e g
  have h2 : v.lt u = true ↔ v.number < u.number := lt_iff_number j i l k g e
  have hu : u.isNan = false := rfl
  have hv : v.isNan = false := rfl
  have hs : u.signBit = i := rfl
  have ht : v.signBit = j := rfl
  have key : ∀ p q : FVal, p.over q = true ↔ (q.lt p = true ∨ (p.lt q = false ∧ p.signBit = false ∧ q.signBit = true)) := by
    intro p q; simp [FVal.over, and_assoc]
  have e1 : FVal.maxn u v = if v.over u then v else u := by simp [FVal.maxn, hu, hv]
  have e2 : FVal.minn u v = if u.over v then v else u := by simp [FVal.minn, hu, hv]
  rw [e1, e2]
  have k1 := key v u
  have k2 := key u v
  rw [hs, ht] at k1 k2
  clear_value u v
  have l1 : u.lt v = decide (u.number < v.number) := by rw [Bool.eq_iff_iff]; simpa using h1
  have l2 : v.lt u = decide (v.number < u.number) := by rw [Bool.eq_iff_iff]; simpa using h2
  rw [l1, l2] at k1 k2
  have hsame : i = true → j = false → u.number = v.number → True := fun _ _ _ => trivial
  rcases lt_trichotomy u.number v.number with h | h | h
  · have a1 : v.over u = true := k1.2 (.inl (by simpa using h))
    have a2 : ¬ u.over v = true := by rw [k2]; simp [h, h.le]
    simp [a1, a2, h.le, h.ne]
  · have a1 : v.over u = true ↔ j = false ∧ i = true := by rw [k1]; simp [h]
    have a2 : u.over v = true ↔ i = false ∧ j = true := by rw [k2]; simp [h]
    cases i <;> cases j <;> simp_all
  · have a1 : ¬ v.over u = true := by rw [k1]; simp [h, h.le]
    have a2 : u.over v = true := k2.2 (.inl (by simpa using h))
    simp [a1, a2, h.le, h.ne']

/-- The sign of a sum that is zero. -/
theorem add_zero_sign (i j : Bool) (k l : Nat) (e g : Int) (o : Bool) (n : Nat) (h : Int) (he : FVal.add (.fin i k e) (.fin j l g) = .fin o n h)
   (hz : (FVal.fin i k e).number + (FVal.fin j l g).number = 0) : o = if i = j ∧ k = 0 ∧ l = 0 then i else false := by
  have hlo : (0 : ℚ) < (2 : ℚ) ^ min e g := zpow_pos (by norm_num) _
  have h1 := number_align i k e (min e g) (min_le_left _ _)
  have h2 := number_align j l g (min e g) (min_le_right _ _)
  rw [← h1, ← h2, ← add_mul] at hz
  have hv : FVal.align i k e (min e g) + FVal.align j l g (min e g) = 0 := by
    have := (mul_eq_zero.1 hz).resolve_right hlo.ne'
    exact_mod_cast this
  simp only [FVal.add, hv, if_true] at he
  injection he with h3
  rw [← h3]
  by_cases h : i = j ∧ k = 0 ∧ l = 0
  · simp [h]
  · rw [if_neg h, Bool.and_eq_false_iff, Bool.and_eq_false_iff, Bool.and_eq_false_iff]
    by_contra hc
    push_neg at hc
    simp at hc
    tauto

/-- Rounding to an integer, as the statements say it. -/
theorem roundInt_rounds (rm : Rm) (b : Bool) (k : Nat) (e : Int) : RoundsToInt rm (FVal.fin b k e).number (roundInt rm b k e) := by
  obtain ⟨h1, h2⟩ := scale2_eq k 1 e one_pos
  have hx : (FVal.fin b k e).number = (if b then -1 else 1) * (((scale2 k 1 e).1 : ℚ) / (scale2 k 1 e).2) := by
    rw [h2, number_fin]; simp [mul_assoc]
  rw [hx]
  unfold roundInt
  generalize scale2 k 1 e = nd at h1 ⊢
  obtain ⟨n, d⟩ := nd
  simp only [roundNat] at h1 ⊢
  obtain ⟨f1, f2, f3⟩ := floor_spec n d h1
  have hd : (0 : ℚ) < d := by exact_mod_cast h1
  have hmod : n % d < d := Nat.mod_lt _ h1
  clear hx h2
  generalize n / d = q at *
  generalize n % d = r at *
  generalize (n : ℚ) / d = x at *
  have hr : (r : ℚ) / d * d = r := by field_simp
  have hlt : (r : ℚ) < d := by exact_mod_cast hmod
  have hr0 : (0 : ℚ) ≤ (r : ℚ) / d := by positivity
  have hr1 : (r : ℚ) / d < 1 := (div_lt_one hd).2 hlt
  have hrz : (r : ℚ) / d = 0 ↔ r = 0 := by
    constructor
    · intro h; rw [h, zero_mul] at hr; exact_mod_cast hr.symm
    · rintro rfl; simp
  generalize (r : ℚ) / d = t at *
  have hq0 : (0 : ℚ) ≤ q := by positivity
  have hfl : ⌊x⌋ = (q : ℤ) := by rw [Int.floor_eq_iff]; push_cast; exact ⟨f1, f2⟩
  have hce : ⌈x⌉ = (q : ℤ) + if r = 0 then 0 else 1 := by
    split
    · rename_i h; rw [f3, hrz.2 h]; simp
    · rename_i h
      have ht : t ≠ 0 := fun h' => h (hrz.1 h')
      have : 0 < t := lt_of_le_of_ne hr0 ht.symm
      rw [Int.ceil_eq_iff]; push_cast
      constructor <;> linarith
  cases rm
  · have key : ∀ z : Nat, z = (if (decide (d < 2 * r) || (2 * r == d && q % 2 == 1)) = true then q + 1 else q) → |x - z| ≤ 1 / 2 ∧ (|x - z| = 1 / 2 → z % 2 = 0) := by
      intro z hz
      simp only [Bool.or_eq_true, decide_eq_true_eq, Bool.and_eq_true, beq_iff_eq] at hz
      split at hz
      · rename_i hup
        subst hz
        have : x - ((q + 1 : Nat) : ℚ) = t - 1 := by rw [f3]; push_cast; ring
        rw [this, abs_of_nonpos (by linarith)]
        have hge : (d : ℚ) ≤ 2 * r := by
          rcases hup with h | h
          · exact_mod_cast h.le
          · exact_mod_cast h.1.ge
        have ht : 1 / 2 ≤ t := by
          by_contra hc
          have : t * d < 1 / 2 * d := by nlinarith [not_le.1 hc]
          linarith
        refine ⟨by linarith, fun he => ?_⟩
        have ht2 : t = 1 / 2 := by linarith
        rcases hup with h | h
        · have : (d : ℚ) < 2 * r := by exact_mod_cast h
          rw [ht2] at hr; linarith
        · omega
      · rename_i hup
        rw [hz]
        have : x - (q : ℚ) = t := by rw [f3]; ring
        rw [this, abs_of_nonneg hr0]
        rw [not_or] at hup
        have hle : (2 * r : ℚ) ≤ d := by exact_mod_cast Nat.not_lt.1 hup.1
        have ht : t ≤ 1 / 2 := by
          by_contra hc
          have : 1 / 2 * d < t * d := by nlinarith [not_le.1 hc]
          linarith
        refine ⟨ht, fun he => ?_⟩
        have : 2 * r = d := by
          rw [he] at hr
          have : (2 * r : ℚ) = d := by linarith
          exact_mod_cast this
        have := hup.2
        omega
    have := key _ rfl
    generalize (if (decide (d < 2 * r) || (2 * r == d && q % 2 == 1)) = true then q + 1 else q) = z at *
    simp only [RoundsToInt]
    cases b
    · simp only [Bool.false_eq_true, if_false, one_mul, Int.cast_natCast]
      exact ⟨this.1, fun h => by have := this.2 h; omega⟩
    · simp only [if_true]
      have e1 : |-1 * x - ((-(z : Int) : Int) : ℚ)| = |x - (z : ℚ)| := by
        rw [← abs_neg]; congr 1; push_cast; ring
      rw [e1]
      exact ⟨this.1, fun h => by have := this.2 h; omega⟩
  · simp only [RoundsToInt]
    cases b
    · simp only [Bool.false_eq_true, if_false, one_mul]
      rw [if_neg (by linarith), hfl]
    · simp only [if_true, Bool.false_eq_true, if_false, neg_one_mul]
      split
      · rw [Int.ceil_neg, hfl]
      · rename_i h
        have hx0 : x = 0 := by linarith
        have hq : q = 0 := by
          have : (q : ℚ) = 0 := by linarith
          exact_mod_cast this
        rw [hx0, hq]; simp
  · simp only [RoundsToInt]
    cases b
    · simp [hfl]
    · simp only [if_true, neg_one_mul, Int.floor_neg, hce, Bool.true_and, bne_iff_ne]
      split_ifs <;> simp_all
  · simp only [RoundsToInt]
    cases b
    · simp only [Bool.false_eq_true, if_false, one_mul, hce, Bool.not_false, Bool.true_and, bne_iff_ne]
      split_ifs <;> simp_all
    · simp only [if_true, neg_one_mul, Int.ceil_neg, hfl, Bool.not_true, Bool.false_and, Bool.false_eq_true, if_false]

/-- A pattern that is no NaN is what its own value is written as. -/
theorem encode_decode (f : Fmt) (hf : 1 ≤ f.fb) (he : 1 ≤ f.eb) (hm : if f.hasInf then f.maxFin + 1 = (2 ^ f.eb - 1) * 2 ^ f.fb else f.maxFin + 2 = 2 ^ (f.eb + f.fb)) (x : Nat) (hx : x < 2 ^ (1 + f.eb + f.fb)) (sat : Bool) (h : decodeF f x ≠ .nan) : encodeF f .rne sat (decodeF f x) = x := by
  have hp : 2 ^ (f.eb + f.fb) = 2 ^ f.eb * 2 ^ f.fb := pow_add _ _ _
  have hx2 : x < 2 * 2 ^ (f.eb + f.fb) := by rw [← pow_succ']; convert hx using 2; omega
  have hsgn : x / 2 ^ (f.eb + f.fb) < 2 := by rw [Nat.div_lt_iff_lt_mul (Nat.two_pow_pos _)]; exact hx2
  have hdm := Nat.div_add_mod x (2 ^ (f.eb + f.fb))
  have hsign : f.sign (x / 2 ^ (f.eb + f.fb) % 2 == 1) = 2 ^ (f.eb + f.fb) * (x / 2 ^ (f.eb + f.fb)) := by
    have : x / 2 ^ (f.eb + f.fb) = 0 ∨ x / 2 ^ (f.eb + f.fb) = 1 := by generalize x / 2 ^ (f.eb + f.fb) = z at hsgn; omega
    rcases this with h | h <;> simp [Fmt.sign, h]
  have hlow : x % 2 ^ (f.eb + f.fb) = 2 ^ f.fb * (x / 2 ^ f.fb % 2 ^ f.eb) + x % 2 ^ f.fb := by
    rw [Nat.add_comm f.eb, pow_add, Nat.mod_mul]; omega
  have hfr : x % 2 ^ f.fb < 2 ^ f.fb := Nat.mod_lt _ (Nat.two_pow_pos _)
  have hex : x / 2 ^ f.fb % 2 ^ f.eb < 2 ^ f.eb := Nat.mod_lt _ (Nat.two_pow_pos _)
  obtain ⟨d1, d2⟩ := decodeF_nan f x
  cases hd : decodeF f x with
  | nan => exact absurd hd h
  | inf b =>
    obtain ⟨h1, h2, h3, h4⟩ := (d2 b).1 hd
    simp only [encodeF, h2, if_true, h4, hsign, Fmt.infBits]
    rw [h3, h1] at hlow
    rw [Nat.mul_comm (2 ^ f.eb - 1)]
    omega
  | fin b k e =>
    obtain ⟨h1, h2⟩ := decodeF_number f x b k e hd
    obtain ⟨p, hp1, hp2⟩ := encodeF_fin f .rne sat b k e hf
    have hnum : (FVal.fin false k e).number = f.magnitude (x % 2 ^ (f.eb + f.fb)) := by
      rw [number_fin] at h2 ⊢
      cases b <;> simp at h2 ⊢ <;> exact h2
    rw [hnum] at hp1
    have hpe : p = x % 2 ^ (f.eb + f.fb) := by
      by_contra hne
      have := hp1 _ (Ne.symm hne)
      rw [sub_self, abs_zero] at this
      rcases this with h | h
      · exact absurd h (not_lt.2 (abs_nonneg _))
      · have := abs_eq_zero.1 h.1
        have := (magnitude_strictMono f).injective (sub_eq_zero.1 this)
        exact hne this.symm
    have hle : p ≤ f.maxFin := by
      have hnn : ¬ (x / 2 ^ f.fb % 2 ^ f.eb = 2 ^ f.eb - 1 ∧ if f.hasInf then x % 2 ^ f.fb ≠ 0 else x % 2 ^ f.fb = 2 ^ f.fb - 1) := by
        rw [← d1, hd]; simp
      have hni : ¬ (x / 2 ^ f.fb % 2 ^ f.eb = 2 ^ f.eb - 1 ∧ f.hasInf = true ∧ x % 2 ^ f.fb = 0) := by
        intro hc; have := (d2 _).2 ⟨hc.1, hc.2.1, hc.2.2, rfl⟩; rw [hd] at this; cases this
      rw [hpe, hlow]
      cases hI : f.hasInf
      · simp only [hI, Bool.false_eq_true, if_false] at hm hnn
        rw [hp] at hm
        generalize x / 2 ^ f.fb % 2 ^ f.eb = E at *
        generalize x % 2 ^ f.fb = F at *
        by_cases hc : E = 2 ^ f.eb - 1
        · have : F + 1 < 2 ^ f.fb := by have := fun h => hnn ⟨hc, h⟩; omega
          subst hc
          have : 2 ^ f.eb * 2 ^ f.fb = 2 ^ f.fb * (2 ^ f.eb - 1) + 2 ^ f.fb := by
            obtain ⟨z, hz⟩ : ∃ z, 2 ^ f.eb = z + 1 := ⟨2 ^ f.eb - 1, by omega⟩
            rw [hz]; simp; ring
          omega
        · have h1 : E + 2 ≤ 2 ^ f.eb := by omega
          have h2 : (E + 2) * 2 ^ f.fb ≤ 2 ^ f.eb * 2 ^ f.fb := Nat.mul_le_mul_right _ h1
          have h3 : 2 ≤ 2 ^ f.fb := by calc 2 = 2 ^ 1 := rfl
              _ ≤ _ := Nat.pow_le_pow_right (by omega) hf
          rw [Nat.add_mul, Nat.mul_comm E] at h2
          omega
      · simp only [hI, if_true] at hm hnn hni
        generalize x / 2 ^ f.fb % 2 ^ f.eb = E at *
        generalize x % 2 ^ f.fb = F at *
        have hc : E ≠ 2 ^ f.eb - 1 := by intro hc; by_cases h0 : F = 0 <;> simp_all
        have h1 : E + 1 ≤ 2 ^ f.eb - 1 := by omega
        have h2 : (E + 1) * 2 ^ f.fb ≤ (2 ^ f.eb - 1) * 2 ^ f.fb := Nat.mul_le_mul_right _ h1
        rw [Nat.add_mul, Nat.mul_comm E] at h2
        omega
    rw [hp2, Fmt.pattern, if_pos hle, hpe]
    have : (if b = true then 2 ^ (f.eb + f.fb) else 0) = f.sign b := rfl
    rw [this, h1, hsign]; omega

/-- The types with a floating format are those that are no integers. -/
theorem fmtOf_int (t : ElemType) : t.isInt = true ↔ fmtOf t = none := by cases t <;> decide

theorem write_read (t : ElemType) (h : t.isInt = false) (x : Nat) (hx : x < 2 ^ t.width) (hn : readVal t x ≠ .nan) : writeVal t .rne false (readVal t x) = x := by
  obtain ⟨f, h1, h2, h3, h4, h5⟩ : ∃ f, fmtOf t = some f ∧ t.width = 1 + f.eb + f.fb ∧ 1 ≤ f.fb ∧ 1 ≤ f.eb ∧ (if f.hasInf then f.maxFin + 1 = (2 ^ f.eb - 1) * 2 ^ f.fb else f.maxFin + 2 = 2 ^ (f.eb + f.fb)) := by
    cases t <;> first | (cases h; done) | exact ⟨_, rfl, rfl, by decide, by decide, by decide⟩
  rw [h2] at hx
  simp only [writeVal, readVal, h1] at hn ⊢
  exact encode_decode f h3 h4 h5 x hx _ hn

/-- A finite value other than 0 lies between the power of two of its leading bit and the next. -/
theorem log2_bounds (b : Bool) (m : Nat) (e : ℤ) (hm : m ≠ 0) :
    (2 : ℚ) ^ (e + Nat.log2 m) ≤ |(FVal.fin b m e).number| ∧ |(FVal.fin b m e).number| < (2 : ℚ) ^ (e + Nat.log2 m + 1) := by
  have h : |(FVal.fin b m e).number| = (m : ℚ) * (2 : ℚ) ^ e := by
    rw [number_fin, abs_mul, abs_mul, abs_of_nonneg (by positivity : (0 : ℚ) ≤ 2 ^ e), abs_of_nonneg (by positivity : (0 : ℚ) ≤ (m : ℚ))]
    cases b <;> simp
  have h1 : 2 ^ Nat.log2 m ≤ m := Nat.log2_self_le hm
  have h2 : m < 2 ^ (Nat.log2 m + 1) := Nat.lt_log2_self
  have hp : (0 : ℚ) < 2 ^ e := by positivity
  rw [h]
  constructor
  · rw [zpow_add₀ (by norm_num), mul_comm]
    apply mul_le_mul_of_nonneg_right _ hp.le
    rw [zpow_natCast]; exact_mod_cast h1
  · rw [add_assoc, zpow_add₀ (by norm_num), mul_comm ((2 : ℚ) ^ e)]
    apply mul_lt_mul_of_pos_right _ hp
    have : ((Nat.log2 m : ℤ) + 1) = ((Nat.log2 m + 1 : Nat) : ℤ) := by push_cast; ring
    rw [this, zpow_natCast]; exact_mod_cast h2

/-- The greatest of a list. -/
theorem foldl_max_spec (l : List ℤ) (a : ℤ) : (∀ x ∈ l, x ≤ l.foldl max a) ∧ a ≤ l.foldl max a ∧ (l.foldl max a = a ∨ l.foldl max a ∈ l) := by
  induction l generalizing a with
  | nil => simp
  | cons y t ih =>
    obtain ⟨h1, h2, h3⟩ := ih (max a y)
    simp only [List.foldl_cons, List.mem_cons]
    refine ⟨?_, by have := le_max_left a y; omega, ?_⟩
    · rintro x (rfl | hx)
      · have := le_max_right a x; omega
      · exact h1 x hx
    · rcases h3 with h | h
      · rw [h]; rcases max_choice a y with h | h <;> simp [h]
      · exact .inr (.inr h)

theorem clamp_eq (x lo hi : ℤ) (h : lo ≤ hi) : clampInt x lo hi = max lo (min hi x) := by
  unfold clampInt; split
  · rw [min_eq_right (by omega), max_eq_left (by omega)]
  · split
    · rw [min_eq_left (by omega), max_eq_right h]
    · rw [min_eq_right (by omega), max_eq_right (by omega)]

/-- The operand feeder does what 08 R128 says. -/
theorem feed_feeds (f : Fmt) (x : Nat → Nat) :
    let v := feed f ((List.range 32).map x)
    v.2.length = 32 ∧ Feeds f x v.1 (fun k => v.2.getD k 0) := by
  intro v
  have hany : ∀ g : FVal → Bool, (∀ b m e, g (.fin b m e) = false) → g .nan = true → (∀ b, g (.inf b) = true) →
      (((((List.range 32).map x).map (decodeF f)).any g = true) ↔ ¬ (∀ i, i < 32 → ∃ b k e, decodeF f (x i) = .fin b k e)) := by
    intro g h1 h2 h3
    simp only [List.any_eq_true, List.mem_map, List.mem_range]
    constructor
    · rintro ⟨_, ⟨_, ⟨i, hi, rfl⟩, rfl⟩, h⟩ hall
      obtain ⟨b, k, e, hh⟩ := hall i hi
      rw [hh, h1] at h; cases h
    · intro h
      by_contra hn
      apply h
      intro i hi
      cases hd : decodeF f (x i) with
      | fin b k e => exact ⟨b, k, e, rfl⟩
      | nan => exact absurd ⟨_, ⟨_, ⟨i, hi, rfl⟩, rfl⟩, by rw [hd]; exact h2⟩ hn
      | inf b => exact absurd ⟨_, ⟨_, ⟨i, hi, rfl⟩, rfl⟩, by rw [hd]; exact h3 b⟩ hn
  have hv : v = feed f ((List.range 32).map x) := rfl
  unfold feed at hv
  simp only at hv
  by_cases hfin : ∀ i, i < 32 → ∃ b k e, decodeF f (x i) = .fin b k e
  · rw [if_neg ((not_congr (hany _ (fun _ _ _ => rfl) rfl (fun _ => rfl))).2 (not_not.2 hfin))] at hv
    have hmem : ∀ g : FVal → Option ℤ, (∀ b m e, g (.fin b m e) = if m = 0 then none else some (e + Nat.log2 m)) → ∀ y : ℤ, y ∈ (((List.range 32).map x).map (decodeF f)).filterMap g ↔ ∃ i b m e, i < 32 ∧ decodeF f (x i) = .fin b m e ∧ m ≠ 0 ∧ y = e + Nat.log2 m := by
      intro g hg y
      simp only [List.mem_filterMap, List.mem_map, List.mem_range]
      constructor
      · rintro ⟨_, ⟨_, ⟨i, hi, rfl⟩, rfl⟩, h⟩
        obtain ⟨b, k, e, hd⟩ := hfin i hi
        rw [hd, hg] at h
        split at h
        · cases h
        · cases h; exact ⟨i, b, k, e, hi, hd, ‹_›, rfl⟩
      · rintro ⟨i, b, m, e, hi, hd, hm, rfl⟩
        refine ⟨_, ⟨_, ⟨i, hi, rfl⟩, rfl⟩, ?_⟩
        rw [hd, hg]; simp [hm]
    have hzero : ∀ i, i < 32 → ∀ b m e, decodeF f (x i) = .fin b m e → ((decodeF f (x i)).number = 0 ↔ m = 0) := by
      intro i hi b m e hd
      rw [hd, number_fin]
      have : (2 : ℚ) ^ e ≠ 0 := by positivity
      cases b <;> simp [this]
    split at hv
    · rename_i hl
      replace hmem : ∀ y : ℤ, y ∈ ([] : List ℤ) ↔ ∃ i b m e, i < 32 ∧ decodeF f (x i) = .fin b m e ∧ m ≠ 0 ∧ y = e + Nat.log2 m := by
        intro y; rw [← hl]; exact hmem _ (fun _ _ _ => rfl) y
      rw [hv]
      refine ⟨by simp, fun h => absurd hfin h, fun _ _ => ⟨rfl, fun i hi => by simp [hi]⟩, ?_⟩
      rintro _ E ⟨i, hi, h⟩ _
      obtain ⟨b, k, e, hd⟩ := hfin i hi
      exfalso
      by_cases hk : k = 0
      · have := (hzero i hi b k e hd).2 hk
        simp only [this, abs_zero] at h
        have : (0 : ℚ) < 2 ^ E := by positivity
        linarith
      · exact absurd ((hmem _).2 ⟨i, b, k, e, hi, hd, hk, rfl⟩) (by simp)
    · rename_i e0 rest hl
      replace hmem : ∀ y : ℤ, y ∈ e0 :: rest ↔ ∃ i b m e, i < 32 ∧ decodeF f (x i) = .fin b m e ∧ m ≠ 0 ∧ y = e + Nat.log2 m := by
        intro y; rw [← hl]; exact hmem _ (fun _ _ _ => rfl) y
      rw [hv]
      refine ⟨by simp, fun h => absurd hfin h, ?_, ?_⟩
      · intro _ h0
        obtain ⟨i, b, m, e, hi, hd, hm, _⟩ := (hmem e0).1 (by simp)
        exact absurd ((hzero i hi b m e hd).1 (h0 i hi)) hm
      · rintro _ E ⟨i, hi, h1⟩ h2
        obtain ⟨ha, hb, hc⟩ := foldl_max_spec rest e0
        have hE : rest.foldl max e0 = E := by
          have hin : rest.foldl max e0 ∈ e0 :: rest := by rcases hc with h | h <;> simp [h]
          obtain ⟨j, b, m, e, hj, hd, hm, he⟩ := (hmem _).1 hin
          have hB := log2_bounds b m e hm
          have h2j := h2 j hj
          simp only [hd] at h2j
          have hle : rest.foldl max e0 ≤ E := by
            rw [he]
            have := (zpow_lt_zpow_iff_right₀ (by norm_num : (1 : ℚ) < 2)).1 (lt_of_le_of_lt hB.1 h2j)
            omega
          obtain ⟨b', k', e', hd'⟩ := hfin i hi
          simp only [hd'] at h1
          have hk' : k' ≠ 0 := by
            rintro rfl
            rw [number_fin] at h1
            have : (0 : ℚ) < 2 ^ E := by positivity
            simp at h1; linarith
          have hB' := log2_bounds b' k' e' hk'
          have := (zpow_lt_zpow_iff_right₀ (by norm_num : (1 : ℚ) < 2)).1 (lt_of_le_of_lt h1 hB'.2)
          have hm' : e' + Nat.log2 k' ≤ rest.foldl max e0 := by
            have := (hmem _).2 ⟨i, b', k', e', hi, hd', hk', rfl⟩
            rcases List.mem_cons.1 this with h | h
            · omega
            · exact ha _ h
          omega
        rw [hE]
        have hS : ((max (E + 127) 0).toNat : ℤ) = max (E + 127) 0 := Int.toNat_of_nonneg (le_max_right _ _)
        refine ⟨hS, fun k hk => ?_⟩
        obtain ⟨b, m, e, hd⟩ := hfin k hk
        refine ⟨roundInt .rne b m (e + 6 - (max (E + 127) 0 - 127)), ?_, ?_⟩
        · have := roundInt_rounds .rne b m (e + 6 - (max (E + 127) 0 - 127))
          simp only [hS, hd]
          have he : (FVal.fin b m (e + 6 - (max (E + 127) 0 - 127))).number = (FVal.fin b m e).number * (2 : ℚ) ^ (6 - (max (E + 127) 0 - 127)) := by
            rw [number_fin, number_fin, mul_assoc _ ((2 : ℚ) ^ e), ← zpow_add₀ (by norm_num)]
            congr 2; ring
          rw [← he]; exact this
        · simp [hk, hd]
          rw [clamp_eq _ _ _ (by norm_num)]
  · rw [if_pos ((hany _ (fun _ _ _ => rfl) rfl (fun _ => rfl)).2 hfin)] at hv
    rw [hv]
    refine ⟨by simp, fun _ => rfl, fun h => absurd h hfin, fun h => absurd h hfin⟩

/-- A sign extension as the two's complement number of its bits. -/
theorem sextNat_toInt (n x : Nat) (hn : 0 < n) : sextNat n x = (BitVec.ofNat n x).toInt := by
  unfold sextNat
  rw [BitVec.toInt_eq_toNat_cond, BitVec.toNat_ofNat]
  have : 2 ^ n = 2 * 2 ^ (n - 1) := by
    obtain ⟨k, rfl⟩ : ∃ k, n = k + 1 := ⟨n - 1, by omega⟩
    rw [Nat.add_sub_cancel, pow_succ, mul_comm]
  simp only
  split <;> split
  · rfl
  · omega
  · omega
  · push_cast; rfl

end Sys2Proof.Machine
end

