-- ==== Sys2Proof/Laws/Reduce.lean ====
section
/-! SUPPORT. The pairwise tree of the reductions and the winner that VMAXI and VMINI carry through it (08 R132, R133). -/

namespace Sys2Proof.Machine

theorem treeLevel_append {α : Type} (f : α → α → α) (j : Nat) : ∀ l r : List α, l.length = 2 * j → treeLevel f (l ++ r) = treeLevel f l ++ treeLevel f r := by
  induction j with
  | zero => intro l r h; simp at h; subst h; simp [treeLevel]
  | succ j ih =>
    intro l r h
    match l with
    | x :: y :: t =>
      have ht : t.length = 2 * j := by simp at h; omega
      simp [treeLevel, ih t r ht]
    | [x] => simp at h; omega

theorem treeLevel_length {α : Type} (f : α → α → α) (j : Nat) : ∀ l : List α, l.length = 2 * j → (treeLevel f l).length = j := by
  induction j with
  | zero => intro l h; simp at h; subst h; rfl
  | succ j ih =>
    intro l h
    match l with
    | x :: y :: t =>
      have ht : t.length = 2 * j := by simp at h; omega
      simp [treeLevel, ih t ht]
    | [x] => simp at h; omega

/-- One leaf is its own root. -/
theorem tree_single {α : Type} (f : α → α → α) (z x : α) (k : Nat) : tree f z k [x] = x := by
  induction k with
  | zero => rfl
  | succ k ih => simpa [tree, treeLevel] using ih

/-- The root of two full halves is the node over their roots (08 R132). -/
theorem tree_append {α : Type} (f : α → α → α) (z : α) (j : Nat) : ∀ (k : Nat) (l r : List α), l.length = 2 ^ j → r.length = 2 ^ j → j < k →
    tree f z k (l ++ r) = f (tree f z k l) (tree f z k r) := by
  induction j with
  | zero =>
    intro k l r hl hr hk
    match l, r with
    | [x], [y] =>
      obtain ⟨k, rfl⟩ : ∃ n, k = n + 1 := ⟨k - 1, by omega⟩
      simp [tree, treeLevel, tree_single]
  | succ j ih =>
    intro k l r hl hr hk
    obtain ⟨k, rfl⟩ : ∃ n, k = n + 1 := ⟨k - 1, by omega⟩
    rw [pow_succ, Nat.mul_comm] at hl hr
    simp only [tree]
    rw [treeLevel_append f _ l r hl]
    exact ih k _ _ (treeLevel_length f _ l hl) (treeLevel_length f _ r hr) (by omega)

theorem identity_eq (t : ElemType) (op : RedOp) : redIdentity t op =
  (  let nan : Nat := (fmtOf t).elim 0 (fun f => f.nan)
   match op with
    | .sum => if t.isInt then 0 else 2 ^ (t.width - 1)
    | .max => if t.isInt then (if t.signed then 2 ^ (t.width - 1) else 0) else nan
    | .min => if t.isInt then (if t.signed then 2 ^ (t.width - 1) - 1 else 2 ^ t.width - 1) else nan) := by
  cases t <;> cases op <;> rfl

theorem node_eq (t : ElemType) (op : RedOp) (rm : Rm) (x y : Nat) : redNode t op rm x y = (
    let u := readInt t x
    let v := readInt t y
    if t.isInt then ((match op with | .sum => u + v | .max => max u v | .min => min u v) % 2 ^ t.width).toNat
    else match op with
      | .sum => writeVal t rm false (FVal.add (readVal t x) (readVal t y))
      | .max => writeVal t .rne false (FVal.maxn (readVal t x) (readVal t y))
      | .min => writeVal t .rne false (FVal.minn (readVal t x) (readVal t y))) := by
  cases op <;> simp only [redNode, arith, wrapInt]

/-- The right operand of a node wins: its value beats the left one's. -/
def rightWins (t : ElemType) (hi : Bool) (a b : Nat) : Bool :=
      if t.isInt then (if hi then decide (readInt t a < readInt t b) else decide (readInt t b < readInt t a))
      else
        let u := readVal t a
        let v := readVal t b
        if v.isNan then false else if u.isNan then true else if hi then v.over u else u.over v

/-- A linear order in which the better value is the greater. -/
abbrev Rank := ℕ ×ₗ (ℚ ×ₗ ℕ)
/-- A rank from a class, a number and a sign. -/
def rank (a : ℕ) (b : ℚ) (c : ℕ) : Rank := toLex (a, toLex (b, c))
theorem rank_lt (a b c d e f) : rank a b c < rank d e f ↔ a < d ∨ (a = d ∧ (b < e ∨ (b = e ∧ c < f))) := by
  simp [rank, Prod.Lex.toLex_lt_toLex]

/-- The rank of a value as a maximum or as a minimum: a NaN lowest, then by number, then by sign. -/
def valueRank (hi : Bool) : FVal → Rank
  | .nan => rank 0 0 0
  | .inf n => rank (if n = hi then 1 else 3) 0 0
  | .fin n m e => rank 2 (if hi then (FVal.fin n m e).number else -(FVal.fin n m e).number) (if n = hi then 0 else 1)

/-- A node compares by rank. -/
theorem valueRank_lt (hi : Bool) (u v : FVal) : (if v.isNan then false else if u.isNan then true else if hi then v.over u else u.over v) = true ↔ valueRank hi u < valueRank hi v := by
  cases u with
  | nan => cases v with
    | nan => simp [FVal.isNan, valueRank, rank_lt]
    | inf b => simp [FVal.isNan, valueRank, rank_lt]; split <;> simp
    | fin => simp [FVal.isNan, valueRank, rank_lt]
  | inf a => cases v with
    | nan => simp [FVal.isNan, valueRank, rank_lt]
    | inf b => cases a <;> cases b <;> cases hi <;> simp [FVal.isNan, valueRank, rank_lt, FVal.over, FVal.lt, FVal.signBit]
    | fin => cases a <;> cases hi <;> simp [FVal.isNan, valueRank, rank_lt, FVal.over, FVal.lt, FVal.signBit]
  | fin a m e => cases v with
    | nan => simp [FVal.isNan, valueRank, rank_lt]
    | inf b => cases b <;> cases hi <;> simp [FVal.isNan, valueRank, rank_lt, FVal.over, FVal.lt, FVal.signBit]
    | fin b n g =>
      have l1 : (FVal.fin a m e).lt (.fin b n g) = decide ((FVal.fin a m e).number < (FVal.fin b n g).number) := by rw [Bool.eq_iff_iff]; simpa using lt_iff_number a b m n e g
      have l2 : (FVal.fin b n g).lt (.fin a m e) = decide ((FVal.fin b n g).number < (FVal.fin a m e).number) := by rw [Bool.eq_iff_iff]; simpa using lt_iff_number b a n m g e
      simp only [FVal.isNan, valueRank, rank_lt, FVal.over, l1, l2, FVal.signBit, Bool.false_eq_true, if_false]
      generalize (FVal.fin a m e).number = x
      generalize (FVal.fin b n g).number = y
      rcases lt_trichotomy x y with h | h | h
      · cases hi <;> simp [h, h.le, h.not_gt, h.ne]
      · subst h; cases hi <;> cases a <;> cases b <;> simp
      · cases hi <;> simp [h, h.le, h.not_gt, h.ne']

theorem exists_key (t : ElemType) (hi : Bool) : ∃ k : Nat → Rank, ∀ p q, rightWins t hi p q = true ↔ k p < k q := by
  cases h : t.isInt
  · refine ⟨fun p => valueRank hi (readVal t p), fun p q => ?_⟩
    rw [← valueRank_lt]; simp only [rightWins, h, Bool.false_eq_true, if_false]
  · refine ⟨fun p => rank 0 (if hi then (readInt t p : ℚ) else -(readInt t p : ℚ)) 0, fun p q => ?_⟩
    simp only [rightWins, h, if_true, rank_lt]
    cases hi <;> simp

/-- The first of the best entries of a list, or none where it has no entry. -/
def IsBest (w : Nat → Nat → Bool) (l : List (Option (Nat × Nat))) (r : Option (Nat × Nat)) : Prop :=
  (r = none → ∀ x ∈ l, x = none) ∧ ∀ x, r = some x → ∃ i, l[i]? = some (some x) ∧ (∀ (j : Nat) y, l[j]? = some (some y) → w x.1 y.1 = false) ∧ ∀ (j : Nat) y, j < i → l[j]? = some (some y) → w y.1 x.1 = true

theorem winner_eq (t : ElemType) (hi : Bool) (x y : Nat × Nat) : winner t hi (some x) (some y) = if rightWins t hi x.1 y.1 then some y else some x := rfl

/-- A node keeps the best of its two sides. -/
theorem best_append (t : ElemType) (hi : Bool) (l r : List (Option (Nat × Nat))) (a b : Option (Nat × Nat)) (ha : IsBest (rightWins t hi) l a) (hb : IsBest (rightWins t hi) r b) :
    IsBest (rightWins t hi) (l ++ r) (winner t hi a b) := by
  obtain ⟨k, hk⟩ := exists_key t hi
  have hk' : ∀ p q, rightWins t hi p q = false ↔ k q ≤ k p := fun p q => by rw [← not_lt, ← hk]; simp
  obtain ⟨ha0, ha1⟩ := ha
  obtain ⟨hb0, hb1⟩ := hb
  cases a with
  | none =>
    have hl := ha0 rfl
    have hw : winner t hi none b = b := by cases b <;> rfl
    rw [hw]
    have hln : ∀ (j : Nat) (y : Nat × Nat), l[j]? ≠ some (some y) := by
      intro j y h; have := hl _ (List.mem_of_getElem? h); cases this
    refine ⟨fun h x hx => ?_, fun x hx => ?_⟩
    · rcases List.mem_append.1 hx with h1 | h1
      · exact hl _ h1
      · exact hb0 h _ h1
    · obtain ⟨i, h1, h2, h3⟩ := hb1 x hx
      refine ⟨l.length + i, by rw [List.getElem?_append_right (by omega)]; simpa using h1, fun j y hj => ?_, fun j y hlt hj => ?_⟩
      · by_cases hc : j < l.length
        · rw [List.getElem?_append_left hc] at hj; exact absurd hj (hln j y)
        · rw [List.getElem?_append_right (by omega)] at hj; exact h2 _ y hj
      · by_cases hc : j < l.length
        · rw [List.getElem?_append_left hc] at hj; exact absurd hj (hln j y)
        · rw [List.getElem?_append_right (by omega)] at hj; exact h3 _ y (by omega) hj
  | some x =>
    obtain ⟨i, h1, h2, h3⟩ := ha1 x rfl
    have hi' : i < l.length := by by_contra h; rw [List.getElem?_eq_none (by omega)] at h1; cases h1
    cases b with
    | none =>
      have hr := hb0 rfl
      have hrn : ∀ (j : Nat) (y : Nat × Nat), r[j]? ≠ some (some y) := by
        intro j y h; have := hr _ (List.mem_of_getElem? h); cases this
      show IsBest _ _ (some x)
      refine ⟨nofun, fun z hz => ?_⟩
      cases hz
      refine ⟨i, by rw [List.getElem?_append_left hi']; exact h1, fun j y hj => ?_, fun j y hlt hj => ?_⟩
      · by_cases hc : j < l.length
        · rw [List.getElem?_append_left hc] at hj; exact h2 j y hj
        · rw [List.getElem?_append_right (by omega)] at hj; exact absurd hj (hrn _ y)
      · rw [List.getElem?_append_left (by omega)] at hj; exact h3 j y hlt hj
    | some y =>
      obtain ⟨m, g1, g2, g3⟩ := hb1 y rfl
      rw [winner_eq]
      by_cases hw : rightWins t hi x.1 y.1 = true
      · rw [if_pos hw]
        refine ⟨nofun, fun z hz => ?_⟩
        cases hz
        refine ⟨l.length + m, by rw [List.getElem?_append_right (by omega)]; simpa using g1, fun j z hj => ?_, fun j z hlt hj => ?_⟩
        · by_cases hc : j < l.length
          · rw [List.getElem?_append_left hc] at hj
            have := (hk' _ _).1 (h2 j z hj); have := (hk _ _).1 hw
            exact (hk' _ _).2 (by order)
          · rw [List.getElem?_append_right (by omega)] at hj; exact g2 _ z hj
        · by_cases hc : j < l.length
          · rw [List.getElem?_append_left hc] at hj
            have := (hk' _ _).1 (h2 j z hj); have := (hk _ _).1 hw
            exact (hk _ _).2 (by order)
          · rw [List.getElem?_append_right (by omega)] at hj; exact g3 _ z (by omega) hj
      · rw [if_neg hw]
        have hw : rightWins t hi x.1 y.1 = false := by simpa using hw
        refine ⟨nofun, fun z hz => ?_⟩
        cases hz
        refine ⟨i, by rw [List.getElem?_append_left hi']; exact h1, fun j z hj => ?_, fun j z hlt hj => ?_⟩
        · by_cases hc : j < l.length
          · rw [List.getElem?_append_left hc] at hj; exact h2 j z hj
          · rw [List.getElem?_append_right (by omega)] at hj
            have := (hk' _ _).1 (g2 _ z hj); have := (hk' _ _).1 hw
            exact (hk' _ _).2 (by order)
        · rw [List.getElem?_append_left (by omega)] at hj; exact h3 j z hlt hj

theorem best_level (t : ElemType) (hi : Bool) : ∀ (bs : List (List (Option (Nat × Nat)))) (l : List (Option (Nat × Nat))), List.Forall₂ (IsBest (rightWins t hi)) bs l →
    ∃ cs : List (List (Option (Nat × Nat))), cs.flatten = bs.flatten ∧ List.Forall₂ (IsBest (rightWins t hi)) cs (treeLevel (winner t hi) l)
  | [], _, h => by cases h; exact ⟨[], rfl, .nil⟩
  | [b], _, h => by cases h with | cons h1 h2 => cases h2; exact ⟨[b], rfl, .cons h1 .nil⟩
  | b :: c :: bs, _, h => by
    cases h with | cons h1 h2 => cases h2 with | cons h2 h3 =>
    obtain ⟨cs, e, hc⟩ := best_level t hi bs _ h3
    exact ⟨(b ++ c) :: cs, by simp [e], .cons (best_append t hi _ _ _ _ h1 h2) hc⟩

theorem best_tree (t : ElemType) (hi : Bool) (k : Nat) : ∀ (bs : List (List (Option (Nat × Nat)))) (l : List (Option (Nat × Nat))), List.Forall₂ (IsBest (rightWins t hi)) bs l → 
    0 < l.length → l.length ≤ 2 ^ k → IsBest (rightWins t hi) bs.flatten (tree (winner t hi) none k l) := by
  induction k with
  | zero =>
    intro bs l h h0 h1
    match l, h with
    | [x], h => cases h with | cons h1 h2 => cases h2; simpa [tree] using h1
    | _ :: _ :: _, _ => simp at h1
  | succ k ih =>
    intro bs l h h0 h1
    obtain ⟨cs, e, hc⟩ := best_level t hi bs l h
    rw [tree, ← e]
    have hl : ∀ (n : Nat) (l : List (Option (Nat × Nat))), l.length ≤ n → (treeLevel (winner t hi) l).length = (l.length + 1) / 2 := by
      intro n; induction n with
      | zero => intro l hl; have : l = [] := List.length_eq_zero_iff.1 (by omega); subst this; rfl
      | succ n ih => intro l hl; match l with
        | [] => rfl
        | [x] => simp [treeLevel]
        | x :: y :: l => simp only [treeLevel, List.length_cons]; rw [ih l (by simp at hl; omega)]; omega
    have := hl _ l le_rfl
    apply ih _ _ hc
    · omega
    · rw [pow_succ] at h1; omega

/-- The tree gives the first of the best leaves. -/
theorem best_leaves (t : ElemType) (hi : Bool) (l : List (Option (Nat × Nat))) (k : Nat) (h0 : 0 < l.length) (h1 : l.length ≤ 2 ^ k) : IsBest (rightWins t hi) l (tree (winner t hi) none k l) := by
  have h : List.Forall₂ (IsBest (rightWins t hi)) (l.map (fun x => [x])) l := by
    rw [List.forall₂_map_left_iff, List.forall₂_same]
    intro x _
    refine ⟨fun h y hy => by simp at hy; rw [hy, h], fun y hy => ⟨0, by simp [hy], fun j z hj => ?_, fun j z hj => by omega⟩⟩
    obtain ⟨kk, hk⟩ := exists_key t hi
    cases j with
    | zero => simp [hy] at hj; subst hj; rw [← Bool.not_eq_true, hk]; exact lt_irrefl _
    | succ j => simp at hj
  have := best_tree t hi k _ _ h h0 h1
  have e : (l.map (fun x => [x])).flatten = l := by
    clear * -; induction l with
    | nil => rfl
    | cons a l ih => simp [ih]
  rwa [e] at this

theorem rightWins_iff (t : ElemType) (hi : Bool) (p q : Nat) : rightWins t hi p q = true ↔
    (let x := readInt t q
    let y := readInt t p
    let u := readVal t q
    let v := readVal t p
    if t.isInt then (if hi then y < x else x < y)
    else u ≠ .nan ∧ (v = .nan ∨ (if hi then v.lt u else u.lt v) = true ∨ (u.lt v = false ∧ v.lt u = false ∧ u.signBit = !hi ∧ v.signBit = hi))) := by
  have hn : ∀ u : FVal, u.isNan = true ↔ u = .nan := by intro u; cases u <;> simp [FVal.isNan]
  simp only [rightWins]
  cases h : t.isInt
  · simp only [Bool.false_eq_true, if_false]
    generalize readVal t p = v
    generalize readVal t q = u
    by_cases h1 : u = .nan
    · subst h1; simp [FVal.isNan]
    · have h1' : u.isNan = false := by rw [← Bool.not_eq_true, hn]; exact h1
      by_cases h2 : v = .nan
      · subst h2; simp [FVal.isNan, h1, h1']
      · have h2' : v.isNan = false := by rw [← Bool.not_eq_true, hn]; exact h2
        simp only [h1', h2', Bool.false_eq_true, if_false, h1, h2, ne_eq, not_false_eq_true, true_and, false_or]
        cases hi
        · simp only [Bool.false_eq_true, if_false, FVal.over, Bool.or_eq_true, Bool.and_eq_true, Bool.not_eq_true', Bool.not_false, Bool.not_true]
          constructor
          · rintro (h | ⟨⟨h3, h4⟩, h5⟩)
            · exact .inl h
            · by_cases h6 : u.lt v = true
              · exact .inl h6
              · exact .inr ⟨by simpa using h6, h3, h5, h4⟩
          · rintro (h | ⟨h3, h4, h5, h6⟩)
            · exact .inl h
            · exact .inr ⟨⟨h4, h6⟩, h5⟩
        · simp only [if_true, FVal.over, Bool.or_eq_true, Bool.and_eq_true, Bool.not_eq_true', Bool.not_false, Bool.not_true]
          constructor
          · rintro (h | ⟨⟨h3, h4⟩, h5⟩)
            · exact .inl h
            · by_cases h6 : v.lt u = true
              · exact .inl h6
              · exact .inr ⟨h3, by simpa using h6, h4, h5⟩
          · rintro (h | ⟨h3, h4, h5, h6⟩)
            · exact .inl h
            · exact .inr ⟨⟨h3, h5⟩, h6⟩
  · cases hi <;> simp

theorem elemOf_lt (s : State) (t : ElemType) (a i : Nat) : elemOf s t a i < 2 ^ t.width := by
  unfold elemOf lane; exact Nat.mod_lt _ (Nat.two_pow_pos _)

end Sys2Proof.Machine
end

