-- ==== Sys2Proof/Laws/Special.lean ====
section
/-! SUPPORT. The special functions on the operands whose results the spec states, and the segments of VPWP (08 R134, R135). -/

namespace Sys2Proof.Machine

/-- A pattern up to the largest finite one stands for its fields' magnitude. -/
theorem decodeF_small (p : Nat) (h : p ≤ 0x7F7FFFFF) (neg : Bool) : ∃ m e, decodeF fmtF32 (fmtF32.sign neg + p) = .fin neg m e ∧ (FVal.fin false m e).number = fmtF32.magnitude p := by
  have hs : (fmtF32.sign neg + p) / 2 ^ (fmtF32.eb + fmtF32.fb) % 2 = neg.toNat ∧ (fmtF32.sign neg + p) % 2 ^ (fmtF32.eb + fmtF32.fb) = p ∧ (fmtF32.sign neg + p) / 2 ^ fmtF32.fb % 2 ^ fmtF32.eb ≠ 255 := by
    cases neg <;> simp [Fmt.sign, fmtF32] <;> omega
  cases hd : decodeF fmtF32 (fmtF32.sign neg + p) with
  | nan => exact absurd ((decodeF_nan fmtF32 _).1.1 hd).1 hs.2.2
  | inf b => exact absurd (((decodeF_nan fmtF32 _).2 b).1 hd).1 hs.2.2
  | fin b m e =>
    obtain ⟨h1, h2⟩ := decodeF_number fmtF32 _ b m e hd
    have hb : b = neg := by rw [h1, hs.1]; cases neg <;> rfl
    subst hb
    refine ⟨m, e, rfl, ?_⟩
    rw [hs.2.1, number_fin] at h2
    rw [number_fin]
    cases b <;> simp at h2 ⊢ <;> exact h2

/-- A number that the format holds is rounded to itself. -/
theorem rounds_exact (f : Fmt) (rm : Rm) (neg : Bool) (x : ℚ) (p p0 : Nat) (h : RoundsTo f rm neg x p) (h0 : f.magnitude p0 = x) : p = p0 := by
  have hs := magnitude_strictMono f
  have hb : f.magnitude p ≤ x ∧ x < f.magnitude (p + 1) → p = p0 := by
    rintro ⟨h1, h2⟩; rw [← h0] at h1 h2
    have := hs.le_iff_le.1 h1; have := hs.lt_iff_lt.1 h2; omega
  have ha : (x ≤ f.magnitude p ∧ ∀ j, j < p → f.magnitude j < x) → p = p0 := by
    rintro ⟨h1, h2⟩; rw [← h0] at h1 h2
    have h3 := hs.le_iff_le.1 h1
    by_contra hne
    exact absurd (h2 p0 (by omega)) (lt_irrefl _)
  cases rm with
  | rne =>
    by_contra hne
    have := h p0 (Ne.symm hne)
    rw [h0, sub_self, abs_zero] at this
    rcases this with h | h
    · exact absurd h (not_lt.2 (abs_nonneg _))
    · exact hne (hs.injective (by rw [h0]; have := abs_eq_zero.1 h.1; linarith))
  | rz => exact hb h
  | rd => cases neg <;> simp only [RoundsTo, Bool.false_eq_true, if_false, if_true] at h <;> first | exact hb h | exact ha h
  | ru => cases neg <;> simp only [RoundsTo, Bool.false_eq_true, if_false, if_true] at h <;> first | exact hb h | exact ha h

/-- FP32 holds the powers of two from 2^-149 to 2^127. -/
theorem pow_rep (n : Int) (h1 : -149 ≤ n) (h2 : n ≤ 127) : ∃ p, p ≤ 0x7F7FFFFF ∧ fmtF32.magnitude p = (2 : ℚ) ^ n ∧ (-126 ≤ n → 2 ^ 23 ≤ p) ∧ (n < -126 → p < 2 ^ 23) := by
  by_cases h : -126 ≤ n
  · obtain ⟨j, hj⟩ := Int.eq_ofNat_of_zero_le (show 0 ≤ n + 126 by omega)
    refine ⟨j * 2 ^ 23 + 2 ^ 23, by omega, ?_, fun _ => by omega, fun h' => by omega⟩
    have := magnitude_at fmtF32 j (2 ^ 23) (by simp [fmtF32]) (.inr le_rfl)
    rw [show fmtF32.fb = 23 from rfl, show fmtF32.bias = 127 from rfl] at this
    rw [this]
    have hn : n = 23 + ((j : ℤ) + 1 - (127 : ℕ) - (23 : ℕ)) := by omega
    rw [hn, zpow_add₀ (by norm_num)]; norm_num
  · obtain ⟨j, hj⟩ := Int.eq_ofNat_of_zero_le (show 0 ≤ n + 149 by omega)
    have hj2 : j < 23 := by omega
    have hp : 2 ^ j < 2 ^ 23 := Nat.pow_lt_pow_right (by omega) hj2
    refine ⟨2 ^ j, by omega, ?_, fun _ => by omega, fun _ => hp⟩
    have := magnitude_at fmtF32 0 (2 ^ j) (by rw [show fmtF32.fb = 23 from rfl]; omega) (.inl rfl)
    rw [show fmtF32.fb = 23 from rfl, show fmtF32.bias = 127 from rfl] at this
    rw [Nat.zero_mul, Nat.zero_add] at this
    rw [this]
    have hn : n = j + (((0 : ℕ) : ℤ) + 1 - (127 : ℕ) - (23 : ℕ)) := by omega
    rw [hn, zpow_add₀ (by norm_num)]; norm_num

/-- FP32 holds the integers below 2^24. -/
theorem int_rep (k : Nat) (h0 : 0 < k) (h1 : k < 2 ^ 24) : ∃ p, 2 ^ 23 ≤ p ∧ p ≤ 0x7F7FFFFF ∧ fmtF32.magnitude p = (k : ℚ) := by
  have l1 : 2 ^ Nat.log2 k ≤ k := Nat.log2_self_le (by omega)
  have l2 : k < 2 ^ (Nat.log2 k + 1) := Nat.lt_log2_self
  have l3 : Nat.log2 k < 24 := (Nat.pow_lt_pow_iff_right (by omega)).1 (lt_of_le_of_lt l1 h1)
  generalize Nat.log2 k = L at *
  have e : 2 ^ (23 - L) * 2 ^ L = 2 ^ 23 := by rw [← pow_add]; congr 1; omega
  have q1 : 2 ^ 23 ≤ k * 2 ^ (23 - L) := by rw [← e, Nat.mul_comm]; exact Nat.mul_le_mul_right _ l1
  have q2 : k * 2 ^ (23 - L) < 2 ^ 24 := by
    have : k * 2 ^ (23 - L) < 2 ^ (L + 1) * 2 ^ (23 - L) := Nat.mul_lt_mul_of_pos_right l2 (Nat.two_pow_pos _)
    rw [← pow_add] at this; convert this using 2; omega
  refine ⟨(L + 126) * 2 ^ 23 + k * 2 ^ (23 - L), by omega, by omega, ?_⟩
  have := magnitude_at fmtF32 (L + 126) (k * 2 ^ (23 - L)) (by rw [show fmtF32.fb = 23 from rfl]; omega) (.inr q1)
  rw [show fmtF32.fb = 23 from rfl, show fmtF32.bias = 127 from rfl] at this
  rw [this]
  have hz : (2 : ℚ) ^ (23 - L) * (2 : ℚ) ^ (((L + 126 : ℕ) : ℤ) + 1 - (127 : ℕ) - (23 : ℕ)) = 1 := by
    rw [← zpow_natCast, ← zpow_add₀ (by norm_num)]
    rw [show ((23 - L : ℕ) : ℤ) + (((L + 126 : ℕ) : ℤ) + 1 - (127 : ℕ) - (23 : ℕ)) = 0 by push_cast [show L ≤ 23 by omega]; ring]; norm_num
  push_cast at hz ⊢
  rw [mul_assoc, hz, mul_one]

/-- The accurate grade, and the fast one of a normal operand, reads the operand as it is. -/
theorem flushIn_eq (acc : Bool) (x : BitVec 32) (h : acc = true ∨ x.toNat / 2 ^ 23 % 256 ≠ 0) : flushIn acc x.toNat = readVal .f32 x.toNat := by
  unfold flushIn flushF
  rcases h with rfl | h
  · rfl
  · rw [if_neg (by intro hc; simp only [Bool.and_eq_true, beq_iff_eq] at hc; exact h hc.2)]; rfl

/-- The fast grade reads a subnormal as a zero of its sign. -/
theorem flushIn_zero (acc : Bool) (x : BitVec 32) (h : x.toNat / 2 ^ 23 % 256 = 0) (ha : acc = false) : flushIn acc x.toNat = flushIn acc (x.toNat / 2 ^ 31 * 2 ^ 31) := by
  subst ha
  have := x.isLt
  have e : flushF false x.toNat = x.toNat / 2 ^ 31 * 2 ^ 31 := by unfold flushF; rw [if_pos]; simp only [Bool.and_eq_true, beq_iff_eq]; exact ⟨rfl, h⟩
  have e2 : flushF false (x.toNat / 2 ^ 31 * 2 ^ 31) = x.toNat / 2 ^ 31 * 2 ^ 31 := by
    unfold flushF; rw [if_pos]
    · rw [Nat.mul_div_cancel _ (by norm_num)]
    · simp only [Bool.and_eq_true, beq_iff_eq]; refine ⟨rfl, ?_⟩; omega
  rw [flushIn, flushIn, e, e2]

/-- VEXP2 of an integer is the power, exactly (08 R134). -/
theorem exp2_int (acc : Bool) (x : BitVec 32) (n : Int) (h1 : -149 ≤ n) (h2 : n ≤ 127) (ha : acc = true ∨ -126 ≤ n)
   (hfin : ∃ b m e, readVal .f32 x.toNat = .fin b m e) (hn : (readVal .f32 x.toNat).number = n) : (readVal .f32 (exp2F acc x)).number = (2 : ℚ) ^ n := by
  have h1n : (readVal .f32 0x3F800000).number = 1 := by
    show (decodeF fmtF32 0x3F800000).number = 1
    rw [show decodeF fmtF32 0x3F800000 = .fin false (2 ^ 23) (-23) by decide, number_fin]; norm_num
  by_cases h0 : n = 0
  · subst h0
    have hz : ∃ b e, flushIn acc x.toNat = .fin b 0 e := by
      obtain ⟨b, m, e, hf⟩ := hfin
      have hm : m = 0 := by
        rw [hf, number_fin] at hn
        have h2e : (2 : ℚ) ^ e ≠ 0 := zpow_ne_zero _ (by norm_num)
        cases b <;> simpa [h2e] using hn
      subst hm
      by_cases hc : acc = true ∨ x.toNat / 2 ^ 23 % 256 ≠ 0
      · exact ⟨b, e, by rw [flushIn_eq acc x hc, hf]⟩
      · rw [not_or, not_not] at hc
        rw [flushIn_zero acc x hc.2 (by simpa using hc.1)]
        have := x.isLt
        have : x.toNat / 2 ^ 31 = 0 ∨ x.toNat / 2 ^ 31 = 1 := by omega
        rcases this with h | h <;> rw [h] <;> cases acc
        · exact ⟨false, -149, by decide⟩
        · exact ⟨false, -149, by decide⟩
        · exact ⟨true, -149, by decide⟩
        · exact ⟨true, -149, by decide⟩
    obtain ⟨b, e, hz⟩ := hz
    simp only [exp2F, hz, if_true]
    rw [h1n]; norm_num
  · have hx : flushIn acc x.toNat = readVal .f32 x.toNat := by
      apply flushIn_eq
      right
      intro hs
      obtain ⟨b, m, e, hf⟩ := hfin
      have hd : decodeF fmtF32 x.toNat = .fin b m e := hf
      obtain ⟨g1, g2⟩ := decodeF_number fmtF32 _ b m e hd
      rw [hf] at hn
      rw [hn] at g2
      have hlt : fmtF32.magnitude (x.toNat % 2 ^ (fmtF32.eb + fmtF32.fb)) < 1 := by
        obtain ⟨p, hp1, hp2, hp3, -⟩ := pow_rep 0 (by omega) (by omega)
        rw [show (1 : ℚ) = 2 ^ (0 : ℤ) by norm_num, ← hp2]
        apply magnitude_strictMono
        have := hp3 (by omega)
        rw [show fmtF32.eb = 8 from rfl, show fmtF32.fb = 23 from rfl]
        omega
      have h0' := magnitude_nonneg fmtF32 (x.toNat % 2 ^ (fmtF32.eb + fmtF32.fb))
      have : |(n : ℚ)| < 1 := by
        rw [g2, abs_mul]; cases b <;> simp [abs_of_nonneg h0', hlt]
      rw [← Int.cast_abs] at this
      have : |n| < 1 := by exact_mod_cast this
      exact h0 (Int.abs_lt_one_iff.1 this)
    obtain ⟨b, m, e, hf⟩ := hfin
    rw [hf] at hn hx
    obtain ⟨s1, s2⟩ := scale2_eq m 1 e one_pos
    simp only [exp2F, hx]
    have hm : m ≠ 0 := by rintro rfl; rw [number_fin] at hn; simp at hn; exact h0 (by exact_mod_cast hn.symm)
    have hnum : (n : ℚ) = (if b then -1 else 1) * (((scale2 m 1 e).1 : ℚ) / (scale2 m 1 e).2) := by
      rw [s2, ← hn, number_fin]; cases b <;> simp
    generalize scale2 m 1 e = nd at *
    obtain ⟨c, d⟩ := nd
    simp only at s1 hnum ⊢
    have hdq : (d : ℚ) ≠ 0 := by exact_mod_cast s1.ne'
    have hc : (c : ℤ) = (if b then -1 else 1) * n * d := by
      have : (c : ℚ) = (if b then -1 else 1) * n * d := by
        rw [hnum]; cases b <;> simp <;> field_simp
      cases b <;> simp at this ⊢ <;> exact_mod_cast this
    have hk : ∃ k : Nat, c = k * d ∧ n = if b then -(k : ℤ) else k := by
      have hd' : (0 : ℤ) < d := by exact_mod_cast s1
      have : 0 ≤ (if b then -1 else 1) * n := by
        by_contra hneg
        have := mul_neg_of_neg_of_pos (not_le.1 hneg) hd'
        omega
      obtain ⟨k, hk⟩ := Int.eq_ofNat_of_zero_le this
      refine ⟨k, by rw [hk] at hc; exact_mod_cast hc, ?_⟩
      cases b <;> simp at hk ⊢ <;> omega
    obtain ⟨k, rfl, hnk⟩ := hk
    have e1 : k * d / d = k := Nat.mul_div_cancel _ s1
    have e2 : (k * d + d - 1) / d = k := by
      rw [show k * d + d - 1 = k * d + (d - 1) by omega, Nat.mul_comm, Nat.mul_add_div s1, Nat.div_eq_of_lt (by omega)]; omega
    have hv : (if b = true then (-(((k * d + d - 1) / d : Nat) : Int)) else ((k * d / d : Nat) : Int)) = n := by rw [e1, e2, hnk]
    rw [hv, if_neg hm, if_neg (by omega), if_neg (by omega), if_pos (Nat.mul_mod_left k d)]
    obtain ⟨t1, t2⟩ := scale2_eq 1 1 n one_pos
    obtain ⟨p, hp1, hp2⟩ := roundFrac_rounds fmtF32 .rz false false (scale2 1 1 n).1 (scale2 1 1 n).2 (by decide) (by
      by_contra hc; rw [show (scale2 1 1 n).1 = 0 by omega] at t2; simp at t2; exact absurd t2.symm (by positivity)) t1
    obtain ⟨p0, q1, q2, q3, q4⟩ := pow_rep n h1 h2
    have hpp := rounds_exact _ _ _ _ p p0 hp1 (by rw [q2, t2]; simp)
    subst hpp
    have hpat : fmtF32.pattern .rz false false p = p := by simp [Fmt.pattern, show p ≤ fmtF32.maxFin from q1]
    rw [hp2, hpat]
    have hfl : flushF acc p = p := by
      unfold flushF
      rcases ha with rfl | ha
      · rfl
      · have := q3 ha; rw [if_neg]; simp; intro _; omega
    rw [hfl]
    obtain ⟨m', e', r1, r2⟩ := decodeF_small p q1 false
    have : readVal .f32 p = .fin false m' e' := by rw [← r1]; simp [readVal, fmtOf, Fmt.sign]
    rw [this, r2, q2]

/-- VLOG2 of a power of two is its exponent, exactly (08 R134). -/
theorem log2_pow (acc : Bool) (x : BitVec 32) (n : Int) (ha : acc = true ∨ -126 ≤ n)
   (hn : (readVal .f32 x.toNat).number = (2 : ℚ) ^ n) : (readVal .f32 (log2F acc x)).number = n := by
  have hpos : (0 : ℚ) < 2 ^ n := zpow_pos (by norm_num) _
  cases hf : readVal .f32 x.toNat with
  | nan => rw [hf] at hn; simp only [FVal.number] at hn; rw [← hn] at hpos; exact absurd hpos (lt_irrefl _)
  | inf b => rw [hf] at hn; simp only [FVal.number] at hn; rw [← hn] at hpos; exact absurd hpos (lt_irrefl _)
  | fin b m e =>
    rw [hf] at hn
    have hd : decodeF fmtF32 x.toNat = .fin b m e := hf
    obtain ⟨g1, g2⟩ := decodeF_number fmtF32 _ b m e hd
    have hmag := magnitude_nonneg fmtF32 (x.toNat % 2 ^ (fmtF32.eb + fmtF32.fb))
    have hb : b = false := by
      cases b
      · rfl
      · rw [hn] at g2; simp at g2; linarith
    subst hb
    rw [hn] at g2; simp only [Bool.false_eq_true, if_false, one_mul] at g2
    have hx : flushIn acc x.toNat = .fin false m e := by
      rw [flushIn_eq acc x, hf]
      rcases ha with h | h
      · exact .inl h
      · right; intro hs
        obtain ⟨p, hp1, hp2, hp3, -⟩ := pow_rep (-126) (by omega) (by omega)
        have : fmtF32.magnitude (x.toNat % 2 ^ (fmtF32.eb + fmtF32.fb)) < (2 : ℚ) ^ (-126 : ℤ) := by
          rw [← hp2]; apply magnitude_strictMono
          have := hp3 (by omega)
          rw [show fmtF32.eb = 8 from rfl, show fmtF32.fb = 23 from rfl]; omega
        rw [← g2] at this
        have := (zpow_lt_zpow_iff_right₀ (by norm_num : (1 : ℚ) < 2)).1 this
        omega
    -- range of n
    have hfields : x.toNat % 2 ^ (fmtF32.eb + fmtF32.fb) ≤ 0x7F7FFFFF ∧ 0 < x.toNat % 2 ^ (fmtF32.eb + fmtF32.fb) := by
      constructor
      · have hni := (decodeF_nan fmtF32 x.toNat)
        rw [hd] at hni
        have h1 := hni.1; have h2 := hni.2 (x.toNat / 2 ^ (fmtF32.eb + fmtF32.fb) % 2 == 1)
        simp only [reduceCtorEq, false_iff, not_and] at h1 h2
        rw [show fmtF32.eb = 8 from rfl, show fmtF32.fb = 23 from rfl] at *
        by_contra hc
        have htop : x.toNat / 2 ^ 23 % 2 ^ 8 = 2 ^ 8 - 1 := by omega
        have h1 := h1 htop; have h2 := h2 htop
        simp [fmtF32] at h1 h2
        omega
      · rw [Nat.pos_iff_ne_zero]; intro h0; rw [h0, magnitude_zero] at g2; rw [g2] at hpos; exact absurd hpos (lt_irrefl _)
    have hrange : -149 ≤ n ∧ n ≤ 127 := by
      constructor
      · obtain ⟨p, hp1, hp2, -, hp4⟩ := pow_rep (-149) (by omega) (by omega)
        have hp1' : p = 1 := by
          have h149 : fmtF32.magnitude 1 = (2 : ℚ) ^ (-149 : ℤ) := by
            have := magnitude_at fmtF32 0 1 (by simp [fmtF32]) (.inl rfl)
            rw [show fmtF32.fb = 23 from rfl, show fmtF32.bias = 127 from rfl] at this
            simpa using this
          exact (magnitude_strictMono fmtF32).injective (hp2.trans h149.symm)
        have : (2 : ℚ) ^ (-149 : ℤ) ≤ 2 ^ n := by rw [← hp2, g2, hp1']; exact (magnitude_strictMono fmtF32).monotone hfields.2
        exact (zpow_le_zpow_iff_right₀ (by norm_num : (1 : ℚ) < 2)).1 this
      · have h128 : fmtF32.magnitude 0x7F800000 = (2 : ℚ) ^ (128 : ℤ) := by
          have := magnitude_at fmtF32 254 (2 ^ 23) (by simp [fmtF32]) (.inr le_rfl)
          rw [show fmtF32.fb = 23 from rfl, show fmtF32.bias = 127 from rfl] at this
          rw [show 0x7F800000 = 254 * 2 ^ 23 + 2 ^ 23 by norm_num, this]; norm_num
        have : (2 : ℚ) ^ n < 2 ^ (128 : ℤ) := by rw [g2, ← h128]; apply magnitude_strictMono; omega
        have := (zpow_lt_zpow_iff_right₀ (by norm_num : (1 : ℚ) < 2)).1 this
        omega
    have hm : m ≠ 0 := by rintro rfl; rw [number_fin] at hn; simp at hn; exact absurd hn.symm hpos.ne'
    have hmn : (m : ℚ) = 2 ^ (n - e) := by
      rw [number_fin] at hn
      have h2e : (2 : ℚ) ^ e ≠ 0 := zpow_ne_zero _ (by norm_num)
      rw [zpow_sub₀ (by norm_num), eq_div_iff h2e]; simpa using hn
    have hge : 0 ≤ n - e := by
      by_contra hc
      have h1 : (2 : ℚ) ^ (n - e) < 1 := by rw [show (1 : ℚ) = 2 ^ (0 : ℤ) by norm_num]; exact zpow_lt_zpow_right₀ (by norm_num) (by omega)
      have : (1 : ℚ) ≤ m := by exact_mod_cast Nat.one_le_iff_ne_zero.2 hm
      linarith
    obtain ⟨j, hj⟩ := Int.eq_ofNat_of_zero_le hge
    rw [hj, zpow_natCast] at hmn
    have hm2 : m = 2 ^ j := by exact_mod_cast hmn
    have hlog : Nat.log2 m = j := by rw [hm2]; exact Nat.log2_two_pow
    have hnj : e + (j : Int) = n := by omega
    subst hm2
    simp only [log2F, hx, hlog, if_true, Bool.false_eq_true, if_false, hnj, if_neg (Nat.two_pow_pos j).ne']
    obtain ⟨p, hp1, hp2⟩ := encodeF_fin fmtF32 .rne false (decide (n < 0)) n.natAbs 0 (by decide)
    show (readVal .f32 (encodeF fmtF32 .rne false (.fin (decide (n < 0)) n.natAbs 0))).number = n
    have hp0 : ∃ p0, p0 ≤ 0x7F7FFFFF ∧ fmtF32.magnitude p0 = (n.natAbs : ℚ) := by
      by_cases h0 : n.natAbs = 0
      · exact ⟨0, by omega, by rw [h0, magnitude_zero]; simp⟩
      · obtain ⟨p0, -, h1, h2⟩ := int_rep n.natAbs (Nat.pos_of_ne_zero h0) (by omega)
        exact ⟨p0, h1, h2⟩
    obtain ⟨p0, q1, q2⟩ := hp0
    have hpp := rounds_exact _ _ _ _ p p0 hp1 (by rw [q2, number_fin]; simp)
    subst hpp
    rw [hp2]
    have hpat : fmtF32.pattern .rne (decide (n < 0)) (false || fmtF32.satur) p = fmtF32.sign (decide (n < 0)) + p := by
      simp only [Fmt.pattern, if_pos (show p ≤ fmtF32.maxFin from q1)]; rfl
    rw [hpat]
    obtain ⟨m', e', r1, r2⟩ := decodeF_small p q1 (decide (n < 0))
    have : readVal .f32 (fmtF32.sign (decide (n < 0)) + p) = .fin (decide (n < 0)) m' e' := r1
    rw [this]
    have hnum : (FVal.fin (decide (n < 0)) m' e').number = (if n < 0 then -1 else 1) * (FVal.fin false m' e').number := by
      simp [number_fin, mul_assoc]
    rw [hnum, r2, q2, Nat.cast_natAbs]
    split
    · rename_i hv; rw [abs_of_neg hv]; push_cast; ring
    · rename_i hv; rw [abs_of_nonneg (by omega)]; simp

/-- The accurate VRCP is rounded once (08 R134). -/
theorem rcp_rounds (x : BitVec 32) (rm : Rm) (b : Bool) (m : Nat) (e : Int) (hf : readVal .f32 x.toNat = .fin b m e) (hm : m ≠ 0) :
    ∃ p, RoundsTo fmtF32 rm b (1 / (FVal.fin false m e).number) p ∧ rcpF true rm x = fmtF32.pattern rm b false p := by
  have hx := flushIn_eq true x (.inl rfl)
  rw [hf] at hx
  simp only [rcpF, hx, if_neg hm, if_true]
  obtain ⟨s1, s2⟩ := scale2_eq 1 m (-e) (Nat.pos_of_ne_zero hm)
  have hmq : (m : ℚ) ≠ 0 := by exact_mod_cast hm
  have : 1 / (FVal.fin false m e).number = ((scale2 1 m (-e)).1 : ℚ) / (scale2 1 m (-e)).2 := by
    rw [s2, number_fin, zpow_neg]; simp; rw [mul_comm]
  rw [this]
  apply roundFrac_rounds _ _ _ _ _ _ (by decide) _ s1
  by_contra hc
  rw [show (scale2 1 m (-e)).1 = 0 by omega] at s2
  simp at s2
  rcases s2 with h | h
  · exact hm h
  · exact absurd h (zpow_ne_zero _ (by norm_num))

/-- A value is a NaN where `isNan` says so. -/
theorem isNan_iff (u : FVal) : u.isNan = true ↔ u = .nan := by cases u <;> simp [FVal.isNan]

/-- The last segment that starts at or below the operand (08 R135). -/
theorem pwp_fold (g : Nat → Bool) (N k : Nat) (hk : k < N) (h1 : g k = true ∨ k = 0) (h2 : ∀ j, k < j → j < N → g j = false) :
    (List.range N).foldl (fun best j => if g j then j else best) 0 = k := by
  induction N with
  | zero => omega
  | succ N ih =>
    rw [List.range_succ, List.foldl_append]
    simp only [List.foldl_cons, List.foldl_nil]
    by_cases hkN : k = N
    · subst hkN
      rcases h1 with h | h
      · rw [if_pos h]
      · subst h; simp
    · rw [if_neg (by rw [h2 N (by omega) (by omega)]; simp)]
      exact ih (by omega) (fun j h3 h4 => h2 j h3 (by omega))

/-- An infinity or a NaN has every exponent bit. -/
theorem f32_cases (x : BitVec 32) : (∀ b, readVal .f32 x.toNat = .inf b → b = (x.toNat / 2 ^ 31 % 2 == 1) ∧ x.toNat / 2 ^ 23 % 256 = 255) ∧ (readVal .f32 x.toNat = .nan → x.toNat / 2 ^ 23 % 256 = 255) := by
  obtain ⟨h1, h2⟩ := decodeF_nan fmtF32 x.toNat
  exact ⟨fun b hb => by have := (h2 b).1 hb; exact ⟨this.2.2.2, this.1⟩, fun h => (h1.1 h).1⟩

/-- A zero stays one. -/
theorem flush_zero (acc : Bool) (k : Nat) (hk : k < 2) : flushIn acc (k * 2 ^ 31) = .fin (k == 1) 0 (-149) := by
  have : k = 0 ∨ k = 1 := by omega
  rcases this with rfl | rfl <;> cases acc <;> decide

/-- A zero, and in the fast grade a subnormal, is read as a zero of its sign. -/
theorem flush_zero' (acc : Bool) (x : BitVec 32) (h : x.toNat % 2 ^ 31 = 0 ∨ ¬ (acc = true ∨ x.toNat / 2 ^ 23 % 256 ≠ 0)) : flushIn acc x.toNat = .fin (x.toNat / 2 ^ 31 == 1) 0 (-149) := by
  have hx := x.isLt
  rcases h with h | h
  · have := flush_zero acc (x.toNat / 2 ^ 31) (by omega)
    rw [show x.toNat / 2 ^ 31 * 2 ^ 31 = x.toNat by omega] at this; exact this
  · rw [not_or, not_not] at h
    rw [flushIn_zero acc x h.2 (by simpa using h.1)]
    exact flush_zero acc _ (by omega)

/-- VEXP2 of 128 or more is the infinity (08 R134). -/
theorem exp2_big (acc : Bool) (x : BitVec 32) (h : 128 ≤ (readVal .f32 x.toNat).number) : exp2F acc x = 0x7F800000 := by
  cases hf : readVal .f32 x.toNat with
  | nan => rw [hf] at h; simp only [FVal.number] at h; norm_num at h
  | inf b => rw [hf] at h; simp only [FVal.number] at h; norm_num at h
  | fin b m e =>
    have hd : decodeF fmtF32 x.toNat = .fin b m e := hf
    obtain ⟨g1, g2⟩ := decodeF_number fmtF32 _ b m e hd
    have hmag := magnitude_nonneg fmtF32 (x.toNat % 2 ^ (fmtF32.eb + fmtF32.fb))
    rw [hf] at h
    have hb : b = false := by
      cases b
      · rfl
      · rw [g2] at h; simp at h; linarith
    subst hb
    have hs : x.toNat / 2 ^ 23 % 256 ≠ 0 := by
      intro hs
      obtain ⟨p, hp1, hp2, hp3, -⟩ := pow_rep 0 (by omega) (by omega)
      have : fmtF32.magnitude (x.toNat % 2 ^ (fmtF32.eb + fmtF32.fb)) < (2 : ℚ) ^ (0 : ℤ) := by
        rw [← hp2]; apply magnitude_strictMono
        have := hp3 (by omega)
        rw [show fmtF32.eb = 8 from rfl, show fmtF32.fb = 23 from rfl]; omega
      rw [g2] at h; simp at h this; linarith
    have hx := flushIn_eq acc x (.inr hs)
    rw [hf] at hx
    obtain ⟨s1, s2⟩ := scale2_eq m 1 e one_pos
    have hnum : (FVal.fin false m e).number = ((scale2 m 1 e).1 : ℚ) / (scale2 m 1 e).2 := by rw [s2, number_fin]; simp
    have hm : m ≠ 0 := by rintro rfl; rw [number_fin] at h; norm_num at h
    simp only [exp2F, hx, if_neg hm, Bool.false_eq_true, if_false]
    rw [hnum] at h
    generalize scale2 m 1 e = nd at *
    obtain ⟨n, d⟩ := nd
    simp only at s1 h ⊢
    rw [if_pos]; · rfl
    have hdq : (0 : ℚ) < d := by exact_mod_cast s1
    rw [le_div_iff₀ hdq] at h
    have : 128 * d ≤ n := by exact_mod_cast h
    have := (Nat.le_div_iff_mul_le s1).2 this
    exact_mod_cast this

end Sys2Proof.Machine
end

