-- ==== Sys2Proof/Tests/Slice0.lean ====
section
/-!
SUPPORT. Tests: what WellFormed refuses, words written out from the spec's encodings and what they decode to, single steps whose results are worked out from the rules, and for every statement with hypotheses states and operands that meet them.
-/

open Sys2Proof Sys2Proof.Machine

namespace Sys2Proof.Tests

/-! Well-formedness: for each check a term that it refuses. -/

theorem test_wf_sc_refused : ([.add 64 0 0, .sub 0 64 0, .maxu 0 0 64, .clz 64 0, .popc 0 64, .addi 64 0 0, .jalr 0 64 0, .shli 0 0 64, .shri 64 0 0, .srai 0 64 0,
    .lui 64 0, .jal 64 0, .beq 64 0 0, .bgeu 0 64 0, .ldb 64 0 0 0, .ldd 0 64 0 0, .std 0 0 16 0, .aadd 0 0 64 0 true true, .acas 0 0 0 16 true true,
    .aadd 1 0 0 0 true false, .famax 1 0 0 0 true, .fence 64 .core 0, .pfence 64 .core, .csrr 64 0, .csrr 0 4, .csrw 64 0, .csrw 0 0x06F, .pwr 64 0 0 .pb,
    .pwr 0 0 64 .pb, .dqpush 0 0 0 16, .dqtake 64 0 0, .dqsteal 0 64 0, .fmtq 64, .lntw 0 16, .lntw 64 0, .lngo 16, .waite 64 0 .ld, .engst 64 .cp, .prd 0 64 .pt,
    .pclose 64 0, .launch 0 64, .layerb 64, .bara 0 8, .bara 64 0, .barw 0 8, .barw 64 0, .trap 256] : List Instr).all (fun i => !i.wf) = true := by decide

theorem test_wf_slots_refused : ([.cpLoop 16 0 1 1 false, .cpLoop 0 4 1 1 false, .cpLoop 0 0 0 1 false, .cpLoop 0 0 256 1 false, .cpLoop 0 0 1 65536 false, .cpLoopK 0 0 1 32 false,
    .rep 16 1 ⟨0, 0, 0, 0, 0⟩, .rep 0 65536 ⟨0, 0, 0, 0, 0⟩, .repK 0 32 ⟨0, 0, 0, 0, 0⟩, .br 16 0, .brc 0 .eq 32 0 0, .qset 0 0, .qset 0 16, .qclr 0 0, .qmovQ 0 1 16, .qmovK 0 1 32,
    .kadd 0 32 0 0, .kaddi 0 0 32 0, .kmovLc 0 0 4, .kmovRrb 0 32] : List Instr).all (fun i => !i.wf) = true := by decide

theorem test_wf_vectors_refused : ([.vadd 16 0 .i32 .rne 0 0 0, .vadd 0 8 .i32 .rne 0 0 0, .vadd 0 0 .e4m3 .rne 0 0 0, .vadd 0 0 .i32 .rne 256 0 0, .vfma 0 0 .f32 .rne 0 0 0 256,
    .vmin 0 0 .e5m2 0 0 0, .vabs 0 0 .f32 0 256, .vand 0 0 .f32 0 256 0, .vnot 0 8 .f32 0 0, .vshl 0 0 .f32 0 0 (.imm 0), .vshl 0 0 .i32 0 0 (.imm 128), .vshr 0 0 .i32 0 0 (.vec 256),
    .vadds 0 0 .f16 0 0 0, .vcmpMask 0 0 .i32 .eq 0 0 0, .vcmpVec 0 0 .e4m3 .eq 0 0 0, .vsel 0 0 .i8 0 0 0 8, .vmovMaskMask 0 0 1, .vmovVecMask 0 256 0, .vbcastK 0 0 .i8 0 32,
    .vcvt 0 0 .i32 .i4 false .rne 0 0, .vcvt 0 0 .i32 .f32 true .rne 0 0, .vcvt 0 0 .i32 .i8 false .rne 2 0, .vcvt 0 0 .i8 .i32 false .rne 0 2, .vshuf 0 0 .i8 0 0 1,
    .vslide 0 0 .i8 0 0 0 32, .vreds 0 0 .f32 .max .rz 0 0, .vreds 0 0 .e4m3 .sum .rne 0 0, .vmaxi 0 0 .e4m3 0 0, .vpopc 0 0 .f32 0 0, .vrng 0 0 0 0 0 512, .kfromv 0 .i64 0 0 64, .kfromv 0 .i4 0 0 512] : List Instr).all (fun i => !i.wf) = true := by decide

theorem test_wf_memory_refused : ([.vexp2 0 0 true .rne 256 0, .vpwp 0 8 .rne 0 0, .pwld 0 32 0, .vld 0 0 .i8 256 0 0, .vst 0 0 .i8 0 32 0, .kld 0 32 0 0, .vldr 0 0 16 0 0 false, .vldr 0 0 0 0 256 false,
    .vgath 0 0 .i8 0 0 0, .vgath 0 0 .f16 0 0 1, .vscat 0 0 .e4m3 0 0 0, .mma 0 64 0 1, .mma 0 0 16 1, .mma 0 0 3 3, .aclrPeek 0 64, .aclrImm 16 0 0, .ard 0 0 .f32 .rne 0 0 1, .ard 0 0 .i4 .rne 0 0 60,
    .awr 0 0 .m 0 0 64, .astat 0 0 .g 0 64 0, .astatDepth 0 256 0, .hld 0 16 0 0, .hst 0 0 32 0, .hbind 0 0 16 0, .hpermImm 0 0 0 8192, .hpermK 0 0 0 32, .hbun 0 4 0, .hclrb 0 4, .hthr 0 0 4,
    .hdist 0 32 0 0, .hnear 0 0 16, .hhash 0 0 0 0, .hhash 0 0 0 25, .hseed 0 16 0, .hmov 0 16 0, .hmovToHt 0 16, .hmovFromHt 0 16, .hcfg 0 32 0, .pfeed 0 0 0 0, .mldg 0 0 0 0] : List Instr).all
      (fun i => !i.wf) = true := by decide

theorem test_wf_engines_refused : ([.eget 8, .eset 8, .engLoop 2, .lend 2, .kvcp ⟨false, false, false, false⟩ false false false] : List Instr).all (fun i => !i.wf) = true := by decide

theorem test_wf_events_refused : ([.lngoTakeEffect 512, .barrierArrival 512 0, .loadReply (.op 0 4), .loadReply (.op 512 0), .engineCommandStart 512 .ld, .ringTailAdvance 0 16, .residencyFillDone 0 64,
    .accessPerform (.eng 512 .ld 0 1), .accessPerform (.routing 8), .pageWalkDone 8 0 none, .xinvWrite 0 4, .pointStart 512, .dbgStep 0 7, .holdupExhausted 0 33729, .stepForm 8, .wqEnable 4096 0,
    .recordPlace (.queue 4096) [], .recordPlace (.pool 8) [], .recordPlace (.queue 0) [⟨0, [64], 0, 0, 0⟩], .recordPlace (.queue 0) [⟨0, [], 4194304, 0, 0⟩], .recordPlace (.queue 0) [⟨0, [], 0, 8, 0⟩],
    .recordPlace (.queue 0) [⟨0, [], 0, 0, 4096⟩], .launchResume 0 [(512, 0)], .launchResume 0 [(0, 4096)], .railSwitchDone 64, .patrolScrub 2199023255552 .clean, .linkRetrain (.die 8), .linkDead (.port 18),
    .portRetrainWrite 18, .vectorControlWrite 4160 0, .registerWrite (.csr 0 4), .registerWrite (.queue 131072 0), .registerWrite (.ctl 131072 0)] : List Instr).all (fun i => !i.wf) = true := by decide

/-! Decoding: words written out bit by bit from the encodings (11 R160-R172 and the entries of 12 to 15). -/

/-- 12 R177: op 0x00, xd 63, xa 1, xb 2, fn8 0x1A. -/
theorem test_decode_sra : decodeTableWord 32 0b000000_111111_000001_000010_00011010 = some (.sra 63 1 2) := by decide
/-- 12 R178: op 0x08, xd 2, xa 3, imm14 = -8192. -/
theorem test_decode_slti : decodeTableWord 32 0b001000_000010_000011_10000000000000 = some (.slti 2 3 (-8192)) := by decide
/-- 12 R179: op 0x0B, xd 1, imm20 = -1. -/
theorem test_decode_jal : decodeTableWord 32 0b001011_000001_11111111111111111111 = some (.jal 1 (-1)) := by decide
/-- 12 R180: op 0x15, xa 4, xb 5, imm14 = 3. -/
theorem test_decode_bgeu : decodeTableWord 32 0b010101_000100_000101_00000000000011 = some (.bgeu 4 5 3) := by decide
/-- 12 R181: op 0x21, data register x9, xa 2, class 7, imm10 = -1. -/
theorem test_decode_sth : decodeTableWord 32 0b100001_001001_000010_0111_1111111111 = some (.sth 9 2 7 (-1)) := by decide
/-- 12 R183: op 0x31, xd 5, xa 6, xb 7, class 15, NR 0, W 1. -/
theorem test_decode_acas : decodeTableWord 32 0b110001_000101_000110_000111_1111_0100 = some (.acas 5 6 7 15 false true) := by decide
/-- 12 R185: op 0x36, xd 3, scope 2, mask 0xFFFF. -/
theorem test_decode_fence : decodeTableWord 32 0b110110_000011_0010_1111111111111111 = some (.fence 3 .die 0xFFFF) := by decide
/-- 12 R205: op 0x39, xa 4, CSR 0x218. -/
theorem test_decode_csrw : decodeTableWord 32 0b111001_000000_000100_00001000011000 = some (.csrw 4 0x218) := by decide
/-- 12 R199: op 0x3C, sub6 0x0E, xd 8, barrier 7. -/
theorem test_decode_barw : decodeTableWord 32 0b111100_001000_000000_001110_00000111 = some (.barw 8 7) := by decide
/-- 12 R190: op 0x3C, sub6 0x03, xd 8, xa 9, engine ST. -/
theorem test_decode_waite : decodeTableWord 32 0b111100_001000_001001_000011_00000010 = some (.waite 8 9 .st) := by decide
/-- 11 R162: op 0x0D is reserved. -/
theorem test_decode_reserved : decodeTableWord 32 0b001101_00000000000000000000000000 = none := by decide
/-- 11 R171: w[15:14] = 01, the payload 0x2AAA. -/
theorem test_decode_ext : decodeTableWord 16 0b01_10101010101010 = some (.ext 0x2AAA) := by decide
/-- 11 R172: opcode 0x0A, register e5. -/
theorem test_decode_eset : decodeTableWord 16 0b00_0000_001010_0101 = some (.eset 5) := by decide
/-- 15 R279: opcode 0x2C, PU, SD, engine CP. -/
theorem test_decode_waitn : decodeTableWord 16 0b00_1001_101100_0001 = some (.waitn ⟨true, false, false, true⟩ .cp) := by decide
/-- 15 R277: opcode 0x29, pad. -/
theorem test_decode_send : decodeTableWord 16 0b00_0000_101001_0001 = some (.send ⟨false, false, false, false⟩ true) := by decide
/-- 11 R172: the all-zero word is reserved. -/
theorem test_decode_zero_engine : decodeTableWord 16 0 = none := by decide
/-- 13 R221: op 0x050, q 1, d 31, a 2, b 3. -/
theorem test_decode_kadd : decodeTableWord 64 0b0001010000_0001_000_0000_00_00011111_00000010_00000011_00000000_000000000 = some (.kadd 1 31 2 3) := by decide
/-- 13 R211: op 0x083, q 0, m 7, ty 12, rm RU, d 255, a 1, b 2, c 3. -/
theorem test_decode_vfma : decodeTableWord 64 0b0010000011_0000_111_1100_11_11111111_00000001_00000010_00000011_000000000 = some (.vfma 0 7 .f32 .ru 255 1 2 3) := by decide
/-- 13 R224: op 0x0C8, ty 2, d 4, a = k5, x = -1. -/
theorem test_decode_vld : decodeTableWord 64 0b0011001000_0000_000_0010_00_00000100_00000101_00000000_00000000_111111111 = some (.vld 0 0 .i8 4 5 (-1)) := by decide
/-- 14 R242: op 0x100, d = tile 63, rings 3 and 15. -/
theorem test_decode_mma : decodeTableWord 64 0b0100000000_0000_000_0000_00_00111111_00000011_00001111_00000000_000000000 = some (.mma 0 63 3 15) := by decide
/-- 14 R251: op 0x142, d = h1, a = h2, b = h15. -/
theorem test_decode_hbind : decodeTableWord 64 0b0101000010_0010_000_0000_00_00000001_00000010_00001111_00000000_000000000 = some (.hbind 2 1 2 15) := by decide
/-- 14 R257: op 0x180, m 3, ty 10, d = m5, a = v9. -/
theorem test_decode_pfeed : decodeTableWord 64 0b0110000000_0000_011_1010_00_00000101_00001001_00000000_00000000_000000000 = some (.pfeed 0 3 5 9) := by decide
/-- 11 R170: op 0x049 is reserved in every slot. -/
theorem test_decode_reserved_slot : decodeTableWord 64 0b0001001001_000000000000000000000000000000000000000000000000000000 = none := by decide

/-- 11, worked example: encoding five instructions. -/
theorem test_decode_example_ldd : decodeTableWord 32 0x7850C001 = some (.ldd 5 3 0 1) := by decide
theorem test_decode_example_amax : decodeTableWord 32 0xB4024A3C = some (.amax 0 9 10 3 true true) := by decide
theorem test_decode_example_bne : decodeTableWord 32 0x44403FFD = some (.bne 4 0 (-3)) := by decide
theorem test_decode_example_vadd : decodeTableWord 64 0x2000600E06080000 = some (.vadd 0 0 .f32 .rne 7 3 4) := by decide
/-- 22, checkpoint 1. -/
theorem test_decode_example_fence : decodeTableWord 32 0xD8930004 = some (.fence 9 .module 0x0004) := by decide
theorem test_decode_example_aminu : decodeTableWord 32 0xC0058828 = some (.aminu 0 22 8 2 true false) := by decide
/-- 21, six slot words. -/
theorem test_decode_example_hperm : decodeTableWord 64 0x50C0000800000200 = some (.hpermImm 0 4 0 1) := by decide
theorem test_decode_example_loop : decodeTableWord 64 0x1000000002010400 = some (.cpLoop 0 0 1 130 false) := by decide
theorem test_decode_example_hbun : decodeTableWord 64 0x5100000010000000 = some (.hbun 0 0 8) := by decide
theorem test_decode_example_hmov : decodeTableWord 64 0x5300000000000001 = some (.hmovToHt 0 0) := by decide
theorem test_decode_example_hthr : decodeTableWord 64 0x5180000A02000000 = some (.hthr 0 5 1) := by decide
theorem test_decode_example_hnear : decodeTableWord 64 0x520000061C000000 = some (.hnear 0 3 14) := by decide
/-- 14, worked example: two MMAs. -/
theorem test_decode_example_aclr : decodeTableWord 64 0x4040000601FFEC01 = some (.aclrImm 0 3 (-10)) := by decide
theorem test_decode_example_ard : decodeTableWord 64 0x40C0602806000000 = some (.ard 0 0 .f32 .rne 20 3 0) := by decide

/-! Single steps. `sc` is core 0 with the registers of its context 0 and its pc at 256; `x n i s` is x register n behind i. -/

def sc (regs : List (Nat × Word)) : State := State.reset.modCtx 0 0 (fun t => { t with regs := regs, pc := 256 })
def after (i : Instr) (s : State) : State := match exec i s with | .next t => t | _ => State.reset
def x (n : Nat) (i : Instr) (regs : List (Nat × Word)) : Word := (after i (sc regs)).x n
def pc (i : Instr) (regs : List (Nat × Word)) : Word := (after i (sc regs)).me.pc
/-- Core 0 with a launch that runs, for the sequencer q. -/
def ready (q : Sequencer) : State := fetchable State.reset q

/-- 12 R177: the wrap, the quotient and the remainder of -2^63 by -1, and a divisor of 0. -/
theorem test_add_wraps : x 3 (.add 3 1 2) [(1, -1), (2, 2)] = 1 ∧ pc (.add 3 1 2) [] = 260 := by decide
theorem test_div_overflow : x 3 (.div 3 1 2) [(1, 0x8000000000000000), (2, -1)] = 0x8000000000000000 ∧ x 3 (.div 3 1 2) [(1, 5)] = -1 := by decide
theorem test_rem_sign : x 3 (.rem 3 1 2) [(1, -7), (2, 2)] = -1 ∧ x 3 (.rem 3 1 2) [(1, -7)] = -7 := by decide
theorem test_mulh_signs : x 3 (.mulh 3 1 2) [(1, -1), (2, 5)] = -1 ∧ x 3 (.mulhu 3 1 2) [(1, -1), (2, 5)] = 4 := by decide
theorem test_sra_count : x 3 (.sra 3 1 2) [(1, -8), (2, 65)] = -4 ∧ x 3 (.shl 3 1 2) [(1, 1), (2, 64)] = 1 := by decide
theorem test_slt_signed : x 3 (.slt 3 1 2) [(1, -1), (2, 1)] = 1 ∧ x 3 (.sltu 3 1 2) [(1, -1), (2, 1)] = 0 := by decide
theorem test_clz_zero : x 3 (.clz 3 1) [] = 64 ∧ x 3 (.clz 3 1) [(1, 1)] = 63 ∧ x 3 (.popc 3 1) [(1, -1)] = 64 := by decide
theorem test_x0_discards : x 0 (.addi 0 1 5) [(1, 1)] = 0 := by decide
/-- 12 R178, R179: the immediate is sign-extended; JALR reads xa before it writes xd. -/
theorem test_andi_extends : x 5 (.andi 5 5 (-1)) [(5, -2)] = -2 := by decide
theorem test_lui_negative : x 1 (.lui 1 (-1)) [] = 0xFFFFFFFFFFFFC000 := by decide
theorem test_jalr_same : pc (.jalr 1 1 3) [(1, 0x400)] = 0x400 ∧ x 1 (.jalr 1 1 3) [(1, 0x400)] = 260 := by decide
theorem test_branch_signs : pc (.blt 1 2 (-2)) [(1, -1)] = 248 ∧ pc (.bltu 1 2 (-2)) [(1, -1)] = 260 := by decide
/-- 12, worked example: UTFCUT of F0 9F 41. -/
theorem test_utfcut_example : x 14 (.utfcut 14 12) [(12, 0x0300000000419FF0)] = 0x10503 := by decide
/-- 12 R205, 05 R91: CSRR of PACE.ST. -/
theorem test_csrr_pace : ((after (.csrr 2 0x00A) ((sc []).modCsrs 0 (fun r => { r with paceSt := 7 }))).x 2) = 7 := by decide
/-- 12 R203, 24 R322: HRET in context 0 stops the core with code 0x01 and leaves the pc. -/
theorem test_hret_main : (((after .hret (ready .sc)).core 0).stop.map (fun p => p.code)) = some 1 := by decide
/-- 12 R188: a word joins the format queue. -/
theorem test_fmtq : ((after (.fmtq 1) (sc [(1, 9)])).seqs 0).fq = [9] := by decide

/-- 15 R262, R265: arithmetic of LD's stack, written with the top first. -/
def ld (st : List Word) : State := ((ready .ld).modEng 0 .ld (fun g => { g with stack := st, pc := 4 })).atEngine 0 .ld
theorem test_engine_sub : (after .engSub (ld [3, 10, 1])).g.stack = [7, 1] ∧ (after .engSub (ld [3, 10, 1])).g.pc = 5 := by decide
theorem test_engine_shl : (after .engShl (ld [65, 3])).g.stack = [6] := by decide
theorem test_engine_ext : (after (.ext 1) (ld [1])).g.stack = [0x4001] := by decide
theorem test_engine_underflow : (((after .swap (ld [1])).core 0).stop.map (fun p => p.code)) = some 4 := by decide
theorem test_engine_bz : (after .bz (ld [100, 0])).g.pc = 100 ∧ (after .bz (ld [100, 1])).g.pc = 5 := by decide
theorem test_engine_evict : ((after (.evict ⟨false, false, false, false⟩) (ld [63])).g.queue.map (fun k => (k.num, k.args))) = [(1, [63])] := by decide

/-! Accumulators: 08, worked example: three blocks into one element. -/

def el0 : AccElem := clearElem (-20)
def el2 : AccElem := accumulate (accumulate (accumulate el0 300 (-11)) 100 (-23)) 262144 20
theorem test_accumulate : (accumulate el0 300 (-11)).m = 0x25800 ∧ el2.g = 0x0400 ∧ el2.m = 0x2580C ∧ el2.f = 2 := by decide
theorem test_anorm : (normalise el2).g = 0 ∧ (normalise el2).m = 0x400000000026 ∧ (normalise el2).x = -8 ∧ (normalise el2).f = 2 := by decide
theorem test_ard : (normalise el2).convert .f32 .rne = 0x52800000 := by decide

/-! Patches: 03, worked example: one slot through seven bytes. Slot 5 is fed through PFEED's step on one slot. -/

def slot5 (p : PatchSlot) : State := (ready .cp).modSlot 0 5 (fun _ => p)
def fed (p : PatchSlot) (v : Nat) : PatchSlot := (feedSlot (slot5 p) 0 5 (decodeF fmtF16 v)).slot 0 5
def step3 : PatchSlot := { pb := 3, pp := 0, ps := 0, pl := 3, pt := 0x4000, pm := 3, state := 1 }
theorem test_pfeed_max : ((fed step3 0x3800).pb, (fed step3 0x3800).pp, (fed step3 0x3800).ps, (fed step3 0x3800).pl, (fed step3 0x3800).lcause) = (4, 1, 3, 1, 1) := by decide
theorem test_pfeed_equal : ((fed { step3 with pb := 2, pl := 2 } 0x4000).pb, (fed { step3 with pb := 2, pl := 2 } 0x4000).pl, (fed { step3 with pb := 2, pl := 2 } 0x4000).pp) = (3, 3, 0) := by decide

/-! Single slots of the CP, whose results are on their way. -/

def cpS : State := ((ready .cp).modCp 0 (fun p => { p with k := [(2, 7), (3, -1)], h := [(1, 0xF0)] })).modCore 0 (fun k => { k with vrf := [(1, 0x80FF), (2, 0x8001)] })
def gives (i : Instr) : List CpWrite := ((after i { cpS with who := ⟨0, .cp, .c⟩ }).cp 0).pend.map (fun p => p.write)
theorem test_kadd_wraps : gives (.kadd 0 1 2 3) = [.k 1 6] := by decide
theorem test_qmov_k : gives (.qmovK 0 3 2) = [.q 3 true] := by decide

/-! Steps of the machine. -/

/-- 04 R68, 12 R177: a step runs the word at the pc of the context that the SC takes. -/
theorem test_step_runs_word : ((match step ((State.reset.withFetchWord 32 0b000001_000001_000000_00000000000101)) with | .next t => (t.ctx 0 0).x 1 | _ => 0)) = 5 := by decide +kernel
/-- 17 R293, 07 R115, 03 R37: values of the register tables at reset. -/
theorem test_reset_values : State.reset.hub.plimit = 230400 ∧ (State.reset.core 511).cellar.cap = 2048 ∧ (State.reset.slot 3 63).pt = 0x7C00 := by decide

/-! Witnesses: for each statement with hypotheses, states and operands that meet those of each of its clauses, at the ends of a range where a clause gives one. `L` is core 0 with a launch that runs and holds the grantable scratchpad; `runs f` changes that launch, `ctx0 f` its context 0, `acc op` is an access of context 0 to its slice, `doing a` the machine with a alone outstanding. -/

def R : State := State.reset
def L : State := ready .sc
def runs (f : Running → Running) : State := L.modRun 0 f
def ctx0 (f : Ctx → Ctx) : State := L.modCtx 0 0 f
def acc (op : AccOp) : Access :=
  { seq := 0, core := 0, ctx := 0, cls := 0, pc := 0, va := 0, loc := .slice 0 0, op := op, size := 8, xd := 5, hold := false, tctx := 0, stamp := 0, issued := 0, arrived := false }
def doing (a : Access) : State := { L with accesses := [a] }
/-- Contexts 0 to 3 stand behind one operation of context 0. -/
def opHead (n : Nat) (v : Word) : State := L.modCtx 0 0 (fun t => { t with ops := [⟨0, .csrw n v⟩] })
def reply0 : Reply := { core := 0, ctx := 0, xd := 5, value := 7, hold := false, pc := 0, fault := none, access := none }
def place0 : Placement := ⟨0, [0], 0, 0, 0⟩
def launch0 : Launch := { id := 0, held := fetchHeld, src := .queue 0, cohort := [], startedAt := 0, started := [], triggered := [], completed := [], loadedAll := true, leaving := false, parked := false }
def stopped : State := L.modCore 0 (fun k => { k with stop := some ⟨1, 0⟩ })

theorem witness_AluResults : (63 : Nat) < 64 ∧ (0 : Nat) < 64 := by decide
theorem witness_JumpResults : (63 : Nat) < 64 ∧ (0 : Nat) < 64 := by decide

theorem witness_LoadsStoresIssue :
    (∀ p ∈ ([(1, .load true), (2, .load false), (4, .store 0), (8, .store 7)] : List (Nat × AccOp)), Issuable (sc []) (4194304 - p.1) p.1 14 p.2 (.slice 0 (4194304 - p.1)))
    ∧ Issuable (runs (fun r => { r with wheelN := 64 })) 0 8 15 (.store 1) (.slice 0 0) := by
  unfold Issuable; decide

theorem witness_AtomicsDequesIssue :
    (∀ p ∈ ([(4, .atomic .add 1 0 true), (8, .atomic .cas 1 0 false), (32, .dqpush 1), (32, .dqtake), (32, .dqsteal), (64, .lntw 7)] : List (Nat × AccOp)),
      Issuable (sc [(1, 64)]) 64 p.1 0 p.2 (.slice 0 64))
    ∧ ((sc [(1, 0x7FFFFFE0)]).x 1).toNat < 2 ^ 31 ∧ (sc []).me.lngos.all (fun p => p.1 != 7) = true := by
  unfold Issuable; decide

theorem witness_AccessChecks :
    ownsWheel L 0 = false ∧ ownsWheel (runs (fun r => { r with wheelN := 1 })) 0 = true
    ∧ 2 ^ 57 ≤ ((sc [(1, 0x0200000000000000)]).x 1).toNat ∧ ((sc [(1, 0x01FFFFFFFFFFFFFF)]).x 1).toNat % 8 ≠ 0
    ∧ lookup L 0 0 (2 ^ 31) false = .miss ∧ lookup ({ R with dies := [(0, { tlb := [⟨0, 2 ^ 15, false, 0, 0, false, false⟩] })] }) 0 0 (2 ^ 31) true = .miss
    ∧ lookup L 0 0 0 true = .loc (.slice 0 0) ∧ gateShut (doing { acc (.store 1) with loc := .slice 1 0 }) 0 0 0 0 = true := by decide

theorem witness_AccessesPerform : ∀ p ∈ ([.load true, .load false, .store 9, .atomic .add 1 0 true, .atomic .cas 1 0 false, .lntw 15] : List AccOp),
    Performable (doing (acc p)) 0 (acc p) ∧ homeRefuse (doing (acc p)) 0 (.slice 0 0) 8 0 = none ∧ (doing (acc p)).locPoison (.slice 0 0) 8 = false ∧ HomeWf (doing (acc p)) (.slice 0 0) := by
  unfold Performable HomeWf; decide
/-- A load from HBM whose word the ECC can correct. -/
def soft1 : State := { doing { acc (.load false) with loc := .hbm 64 0 } with hbmSoft := [2] }
theorem witness_AccessesPerform_corrected : Performable soft1 0 { acc (.load false) with loc := .hbm 64 0 } ∧ homeRefuse soft1 0 (.hbm 64 0) 8 0 = none
    ∧ soft1.hbmSoft.filter (fun g => decide (g * 32 < 64 + 8) && decide (64 < g * 32 + 32)) = [64 / 32] := by
  unfold Performable; decide

theorem witness_AccessesFail :
    (homeRefuse (doing { acc (.store 1) with loc := .slice 0 4194296 }) 0 (.slice 0 4194296) 8 0 = some (faultOf 0x08 1 0)
      ∧ reachFault (doing (acc (.store 1))) 0 (.slice 0 4194296) 0 = none ∧ pathIn (doing (acc (.store 1))) 0 0 2 = false ∧ homeUp (doing (acc (.store 1))) (.slice 0 4194296) = true
      ∧ classFirst (doing (acc (.store 1))) (acc (.store 1)) = true)
    ∧ mayReach (doing (acc (.store 1))) 0 (.access 0) = true
    ∧ (reachFault { L with dies := [(1, { power := false })] } 0 (.slice 64 0) 0).isSome = true
    ∧ (L.modCore 0 (fun k => { k with poisonSpad := [0] })).locPoison (.slice 0 0) 8 = true := by decide

/-- A descriptor of 2 entries at offset 0 of slice 0, its buffer at 64, TOP 0 and the given BOT. -/
def deque (bot : Nat) (op : AccOp) : State :=
  (doing { acc op with size := 32 }).modCore 0 (fun k => { k with spad := memPutBytes [] 0 (natBytes 8 64 ++ natBytes 8 1 ++ natBytes 8 0 ++ natBytes 8 bot) })
theorem witness_DequesAtHome :
    Performable (deque 1 .dqtake) 0 { acc .dqtake with size := 32 } ∧ homeRefuse (deque 1 .dqtake) 0 (.slice 0 0) 32 0 = none ∧ (deque 1 .dqtake).spadPoison 0 0 32 = false
    ∧ (dequeOf (R.spadRead 0 0 32)).bad 0 = true
    ∧ (∀ n ∈ [0, 1, 2], (dequeOf ((deque n .dqtake).spadRead 0 0 32)).bad 0 = false)
    ∧ (0x8000000000000000 : Word).getLsbD 63 = true
    ∧ (dequeOf ((deque 2 .dqtake).spadRead 0 0 32)).size = 2 ∧ (dequeOf ((deque 2 .dqtake).spadRead 0 0 32)).cap = 2
    ∧ (dequeOf ((deque 0 .dqtake).spadRead 0 0 32)).size = 0
    ∧ hallRefuse (deque 1 .dqtake) 0 0 ((dequeOf ((deque 1 .dqtake).spadRead 0 0 32)).entry 0 1) 8 = none
    ∧ (deque 1 .dqtake).spadPoison 0 ((dequeOf ((deque 1 .dqtake).spadRead 0 0 32)).entry 0 0) 8 = false := by
  unfold Performable; decide

theorem witness_RepliesWriteRegisters :
    ({ L with replies := [reply0] }).replies[0]? = some reply0 ∧ L.stopFree 0 = true
    ∧ stopped.stopFree 0 = false ∧ (stopped.core 0).dbg.stepping = false
    ∧ ((stopped.modCore 0 (fun k => { k with dbg := { stepping := true } })).core 0).dbg.stepping = true := by decide

theorem witness_FenceResults :
    (∃ a ∈ ownAccesses (doing (acc (.store 1))) 0 0, ((1 : BitVec 16).getLsbD a.cls && inScope .core 0 a.loc.home) = true)
    ∧ (∀ a ∈ ownAccesses L 0 0, ((1 : BitVec 16).getLsbD a.cls && inScope .core 0 a.loc.home) = false)
    ∧ L.me.fails = []
    ∧ (ctx0 (fun t => { t with fails := [⟨0, 0, true⟩] })).me.fails.filter (fun f => (1 : BitVec 16).getLsbD f.cls && inScope .core 0 f.home) ≠ [] := by decide

theorem witness_PfenceCommits : storesDone { (doing (acc (.store 1))) with seq := 1 } 0 0 1 = false
    ∧ storesDone L 0 0 L.seq = true ∧ coveredCores L 0 0 .core = [0] ∧ Quiet L 0 := by
  unfold Quiet; decide

theorem witness_CsrWords : L.me.ops = [] ∧ (opHead 0x008 1).me.ops ≠ [] ∧ ¬ (0x060 ≤ 0x05F ∧ 0x05F < 0x068) ∧ 0x060 ≤ 0x067 ∧ 0x067 < 0x068 ∧ L.me.ldsel.toNat < 1024 := by decide

theorem witness_CsrWrites :
    (opHead 0x00A 1).ctx 0 0 = { L.ctx 0 0 with ops := ⟨0, .csrw 0x00A 1⟩ :: [] } ∧ storesDone (opHead 0x00A 1) 0 0 0 = true
    ∧ storesDone (doing (acc (.store 1))) 0 0 1 = false ∧ 0x07F = 0x078 + 7 := by decide
theorem witness_CsrWrites_hook : (∀ j, ((opHead 0x033 1).ctx 0 j).hook = none) ∧ storesDone (opHead 0x033 1) 0 0 0 = true := ⟨fun j => by cases j <;> rfl, by decide⟩

theorem witness_PatchWords : 64 ≤ ((sc [(1, 64)]).x 1).toNat ∧ ((sc [(1, 63)]).x 1).toNat < 64
    ∧ ((L.modSlot 0 63 (fun p => { p with state := 2 })).slot 0 63).state = 2 ∧ (L.slot 0 63).state = 0
    ∧ ((L.modSlot 0 63 (fun p => { p with state := 3 })).slot 0 63).state = 3 ∧ ((L.modSlot 0 63 (fun p => { p with state := 1 })).slot 0 63).pl = 0 := by decide

set_option maxRecDepth 4096 in
theorem witness_PcloseCloses :
    ((L.modSlot 0 63 (fun p => { p with state := 1, pl := 255 })).slot 0 63).state = 1 ∧ ((L.modSlot 0 63 (fun p => { p with state := 1, pl := 255 })).slot 0 63).pl ≠ 0
    ∧ mapRefuse R 0 0 ≠ none ∧ mapRefuse L 0 255 = none ∧ (L.core 0).spad.wf = true
    ∧ 256 ≤ ((L.modArch 0 (fun a => { a with btraps := List.replicate 256 ⟨0, 0, 0, 0, 0⟩ })).arch 0).btraps.length ∧ (L.arch 0).btraps.length < 256 := by decide

theorem witness_ContextWords :
    (0 : Word).toNat ≤ cnOf L 0 .ld ∧ cnOf L 0 .st < (1 : Word).toNat ∧ engRunning L 0 .st = false
    ∧ engRunning (L.modEng 0 .st (fun g => { g with status := .running })) 0 .st = true ∧ cnOf (L.modEng 0 .st (fun g => { g with status := .running })) 0 .st < (1 : Word).toNat
    ∧ L.me.flag = false ∧ (ctx0 (fun t => { t with flag := true })).me.flag = true
    ∧ 7 < (0x0800000000000000 : Word).toNat / 2 ^ 56 ∧ (0x07FFFFFFFFFFFFFF : Word).toNat / 2 ^ 56 ≤ 7 := by decide

/-- A routing entry that R148 and R150 admit: one row, one expert, one choice. -/
def route0 : BitVec 512 := BitVec.ofNat 512 (2 ^ 64 + 2 ^ 96 + 2 ^ 112)
set_option maxRecDepth 4096 in
theorem witness_SchedulingWords :
    (L.run 0 = some fetchRun ∧ (runs (fun r => { r with trigPending := [(0, 0)] })).run 0 = some { fetchRun with trigPending := (0, 0) :: [] })
    ∧ (∀ j, j < 4 → storesDone L 0 j 0 = true) ∧ (∃ j, j < 4 ∧ storesDone (doing (acc (.store 1))) 0 j 1 = false)
    ∧ producersTriggered L 0 = true ∧ producersTriggered { L with hub := { launches := [{ launch0 with held := { fetchHeld with producers := [0] }, cohort := [place0] }] } } 0 = false
    ∧ L.k = 0 ∧ ({ L with who := ⟨0, .sc 3, .c⟩ }).k ≠ 0
    ∧ (opHead 8 0).me.ops ≠ [] ∧ (L.me.ops = [] ∧ storesDone L L.c L.k L.seq = true)
    ∧ ((sc [(1, 63)]).x 1).toNat % 64 ≠ 0 ∧ ((sc [(1, 64)]).x 1).toNat % 64 = 0
    ∧ rtOk 0 = false ∧ rtOk route0 = true ∧ (R.die 0).rqueue.length < 16
    ∧ 16 ≤ ((R.modDie 0 (fun x => { x with rqueue := List.replicate 16 ⟨0, 0, 0⟩ })).die 0).rqueue.length
    ∧ (R.die 0).applied = false ∧ ((R.modDie 0 (fun x => { x with applied := true })).die 0).applied = true := ⟨⟨rfl, rfl⟩, by decide⟩

/-- Context 0 has an arrival at barrier 7 of core 0, whose target is n. -/
def arriving (n : BitVec 16) : State := (ctx0 (fun t => { t with barrivals := [(0, 0, 7)] })).modBar 0 7 (fun b => { b with target := n, count := 0 })
/-- The tile of core 1's multicast arrives at barrier 7 of core 0, beside that of core 3. -/
def casts : State := L.modBar 0 7 (fun b => { b with target := 2, queue := [3, 1] })
theorem witness_BarrierWords_order :
    (0, 0, 7) ∈ ((arriving 2).ctx 0 0).barrivals ∧ sliceUp (arriving 2) 0 = true ∧ (∀ x ∈ ownAccesses (arriving 2) 0 0, 0 ≤ x.seq) ∧ clusterOf 7 = clusterOf 0 ∧ 3 ∈ (casts.bar 0 7).queue
    ∧ (readyArrivals casts 0)[0]? = some ⟨1, 7, none⟩ ∧ (readyArrivals casts 0)[1]? = some ⟨3, 7, none⟩ ∧ (readyArrivals L 0)[0]? = none
    ∧ ¬ (∀ p ∈ (readyArrivals casts 0).take 1, p.bar = 7 → 3 ≤ p.sender) ∧ (∀ p ∈ (readyArrivals casts 0).take 0, p.bar = 7 → 1 ≤ p.sender) := by decide
theorem witness_BarrierWords :
    ((readyArrivals (arriving 0) 0)[0]? = some ⟨0, 7, some (0, (0, 0, 7))⟩ ∧ (readyArrivals (arriving 1) 0)[0]? = some ⟨0, 7, some (0, (0, 0, 7))⟩ ∧ (readyArrivals (arriving 2) 0)[0]? = some ⟨0, 7, some (0, (0, 0, 7))⟩)
    ∧ (L.bar 0 7).phase = sget false L.me.phases 7 ∧ ((L.modBar 0 7 (fun b => { b with phase := true })).bar 0 7).phase ≠ sget false L.me.phases 7
    ∧ ((arriving 0).bar 0 7).target = 0 ∧ ((arriving 1).bar 0 7).count + 1 = ((arriving 1).bar 0 7).target ∧ ((arriving 2).bar 0 7).count + 1 ≠ ((arriving 2).bar 0 7).target := ⟨⟨rfl, rfl, rfl⟩, by decide⟩

theorem witness_LandingWords : (L.seqs 0).fq.length < (L.seqs 0).fqCap ∧ ((L.modSeqs 0 (fun q => { q with fqCap := 0 })).seqs 0).fqCap ≤ (L.seqs 0).fq.length
    ∧ lngoReady (ctx0 (fun t => { t with lngos := [(7, 0)] })) 0 0 = some 7 ∧ (∀ j, j < 4 → lngoReady L 0 j = none) := by decide

theorem witness_HandlerEnds : L.k = 0 ∧ ({ L with who := ⟨0, .sc 3, .c⟩ }).k ≠ 0 ∧ ({ L with who := ⟨0, .sc 3, .c⟩ }).k < 4
    ∧ storesDone { doing { acc (.store 1) with ctx := 3 } with seq := 1 } 0 3 1 = false ∧ storesDone L 0 3 0 = true
    ∧ (({ L with who := ⟨0, .sc 3, .c⟩ }).me.busy = [] ∧ ({ L with who := ⟨0, .sc 3, .c⟩ }).me.holds = 0 ∧ ({ L with who := ⟨0, .sc 3, .c⟩ }).me.ops = [])
    ∧ (L.core 0).dbg.injecting = false ∧ ((L.modCore 0 (fun k => { k with dbg := { injecting := true } })).core 0).dbg.injecting = true := by decide

/-- The hub with the launch that core 0 runs, and a fault log of 2^n records. -/
def logged (n : Nat) (ack : Word) : State := { L with hub := { launches := [launch0], fltbase := BitVec.ofNat 64 n, flthead := 2, fltack := ack } }
theorem witness_StopsWriteRecords :
    (L.run 0 = some fetchRun ∧ (logged 0 0).launch 0 = some launch0) ∧ (L.ctx 0 0).hook = none ∧ (L.core 0).dbg.injecting = false ∧ (L.core 0).stopping = none ∧ (L.core 0).second = false ∧ Quiet L 0 ∧ (L.core 0).spad.wf = true
    ∧ (sget {} L.hub.vectors 4098).mask = false ∧ (sget ({} : VecEntry) [(4098, { mask := true })] 4098).mask = true
    ∧ fltLog (logged 0 0) = 0 ∧ fltLog (logged 1 0) ≠ 0 ∧ (logged 1 0).hub.flthead - (logged 1 0).hub.fltack.toNat = 2 ^ fltLog (logged 1 0)
    ∧ (logged 1 1).hub.flthead - (logged 1 1).hub.fltack.toNat ≠ 2 ^ fltLog (logged 1 1) ∧ L.hbm.wf = true :=
  ⟨⟨rfl, rfl⟩, by unfold Quiet; decide⟩

theorem witness_TrapsAndHooks : (L.core L.c).dbg.injecting = false ∧ ((L.modCtx 0 3 (fun t => { t with hook := some (1, true) })).ctx 0 3).hook.isSome = true ∧ 3 < 4 := by decide

/-! Witnesses for the slots of the CP. `acts i s` is SlotActs as a Bool; `cpC` is the CP of core 0 in its slot C, with a ring of one tile, which is full. -/

def acts (i : Instr) (s : State) : Bool := allotOk (allotOf s s.c) i && s.pred (predOf i) && (cpValue s i).isNone && (cpHold s i).isNone
theorem acts_slot {i : Instr} {s : State} (h : acts i s = true) : SlotActs i s := by
  simp only [acts, Bool.and_eq_true, Option.isNone_iff_eq_none] at h
  exact ⟨h.1.1.1, h.1.1.2, h.1.2, h.2⟩
def allAct (l : List Instr) (s : State) : Bool := l.all (fun i => acts i s)
theorem allAct_slot {l : List Instr} {s : State} (h : allAct l s = true) : ∀ i ∈ l, SlotActs i s :=
  fun i hi => acts_slot (List.all_eq_true.mp h i hi)
def cpC : State := { (cpS.modRing 0 0 (fun _ => { v := true, tileu := 8, bytes := 4096, basek := 0, head := 0, tail := 1, res := 1 })) with who := ⟨0, .cp, .c⟩ }

theorem witness_SlotChecks :
    onCp (.vadd 0 0 .i32 .rne 255 0 0) = true
    ∧ allotOk (allotOf (runs (fun r => { r with allot := 32 })) 0) (.vadd 0 0 .i32 .rne 32 0 0) = false
    ∧ allotOk (allotOf cpC 0) (.vadd 0 0 .i32 .rne 255 0 0) = true ∧ cpC.pred (predOf (.vadd 1 0 .i32 .rne 255 0 0)) = false ∧ cpC.pred (predOf (.vadd 0 0 .i32 .rne 255 0 0)) = true
    ∧ (cpValue cpC (.vld 0 0 .i8 0 3 0)).isSome = true
    ∧ cpValue cpC (.aclrPeek 0 63) = none ∧ (cpHold (cpC.modCp 0 (fun p => { p with mqCap := 0 })) (.aclrPeek 0 63)).isSome = true := by decide
/-- The offset that k register k and the immediate name. -/
def offC (k : Nat) (x : BitVec 9) (unit : Nat) : Int := (cpC.kreg k + x.signExtend 64 * BitVec.ofNat 64 unit).toInt
theorem witness_SlotChecks_area :
    offC 2 0 64 % 2 ^ 6 ≠ 0 ∧ (offC 1 (-1) 64 % 2 ^ 6 = 0 ∧ ¬ 0 ≤ offC 1 (-1) 64) ∧ (offC 1 255 64 % 2 ^ 6 = 0 ∧ 0 ≤ offC 1 255 64 ∧ offC 1 255 64 + 512 ≤ spneedOf cpC 0)
    ∧ ¬ offC 1 255 64 + 512 ≤ (spneedOf (cpC.modRun 0 (fun r => { r with spneed := 16384 })) 0 : Int)
    ∧ (cpC.modCore 0 (fun k => { k with poisonSpad := [0] })).spadPoison 0 (areaOf cpC 0 + 0) 512 = true ∧ vecPoison cpC (.vld 0 0 .i8 0 1 0) = false
    ∧ (cpC.kreg 3).toInt % 2 ^ Nat.log2 (ElemType.f32.width / 8) ≠ 0 ∧ (cpC.kreg 1).toInt % 2 ^ Nat.log2 (ElemType.f32.width / 8) = 0 := by decide
set_option maxRecDepth 20000 in
theorem witness_SlotChecks_values :
    ((cpC.ring 0 0).tileu.toNat ≤ 8 + (cpC.kreg 1).toNat ∧ 7 + (cpC.kreg 1).toNat < (cpC.ring 0 0).tileu.toNat ∧ (cpC.ring 0 0).head < (cpC.ring 0 0).tail)
    ∧ ((cpC.modRing 0 0 (fun g => { g with v := false })).ring 0 0).v = false ∧ ((cpC.modRing 0 0 (fun g => { g with head := 1 })).ring 0 0).tail ≤ 1
    ∧ ((cpC.kreg 3).toInt < 0 ∧ (cpC.kreg 2).toInt % 1024 ≠ 0 ∧ (0 ≤ (cpC.kreg 1).toInt ∧ (cpC.kreg 1).toInt % 1024 = 0) ∧ (cpC.kreg 2).toInt ≤ 4096)
    ∧ (∃ l ∈ [(⟨1, 0, 3, true⟩ : CpLoop)], (l.start ≤ 2 ∧ 2 ≤ l.close ∧ l.close < 2 + 2)) ∧ (∃ l ∈ [(⟨1, 0, 3, true⟩ : CpLoop)], l.rot = true ∧ l.level ≠ 0) ∧ (cpC.cp 0).loops = []
    ∧ (∃ l ∈ [(⟨1, 0, 3, true⟩ : CpLoop)], l.close = 3) ∧ ((cpC.modCp 0 (fun p => { p with mqCap := 0 })).cp 0).mqCap ≤ (cpC.cp 0).mq.length
    ∧ (∃ e ∈ [({ op := .anorm 0 9, num := 0, bundle := 0, pc := 0, source := 0, mask := 0, entered := 0 } : MqEntry)], mqTile e.op = 9)
    ∧ 192 < (List.replicate 193 (⟨0, 0, 0, 0, 0⟩ : BTrap)).length := by decide

theorem witness_ControlSlots :
    (∀ i ∈ ([.br 0 (-1), .brc 0 .eq 2 2 1, .brc 0 .eq 2 3 1, .cpLoop 0 0 1 0 false, .cpLoop 0 3 1 1 true, .cpLoopK 0 3 1 1 true, .cpLoopK 0 3 1 2 true, .rep 0 0 ⟨0, 0, 0, 0, 0⟩, .rep 0 65535 ⟨0, 0, 0, 0, 0⟩,
      .repK 0 1 ⟨0, 0, 0, 0, 0⟩, .repK 0 2 ⟨0, 0, 0, 0, 0⟩, .rot 0, .endk 0] : List Instr), SlotActs i cpC)
    ∧ cpC.kreg 2 = cpC.kreg 2 ∧ ¬ cpC.kreg 2 = cpC.kreg 3 ∧ (cpC.kreg 1).toNat % 2 ^ 32 = 0 ∧ (cpC.kreg 2).toNat % 2 ^ 32 ≠ 0 ∧ (cpC.kreg 1).toNat % 65536 = 0 ∧ (cpC.kreg 3).toNat % 65536 ≠ 0 :=
  ⟨allAct_slot (by decide), by decide⟩

theorem witness_ScalarSlots : ∀ i ∈ ([.kadd 0 31 2 3, .kaddi 0 1 3 (-1), .kmov 0 1 2, .kmovLc 0 1 3, .kmovRrb 0 1, .qset 0 15, .qclr 0 15, .qmovQ 0 1 15, .qmovK 0 15 3] : List Instr), SlotActs i cpC :=
  allAct_slot (by decide)

theorem witness_ResultsLand : (cpC.modCp 0 (fun p => { p with pend := [⟨4, .k 1 7, false⟩], issued := 3 })).cp 0 = { cpC.cp 0 with pend := [⟨4, .k 1 7, false⟩], issued := 3 } ∧ 3 < 4 ∧ 4 ≤ 4
    ∧ [(⟨4, .k 1 7, false⟩ : InFlight), ⟨4, .ht 0, false⟩, ⟨6, .bank 0 0, false⟩].Pairwise (fun a b => a.due ≤ b.due) := ⟨rfl, by decide⟩

/-- A CP whose loop of level 0 stands at its last bundle, with count n. -/
def looping (n : BitVec 32) : Cp := { pc := 4, lc := [(0, n)], loops := [⟨0, 2, 4, true⟩] }
theorem witness_BundlesEnd :
    ((looping 2).ctl = .seq ∧ (looping 2).loops = ⟨0, 2, 4, true⟩ :: [] ∧ (4 : Nat) = (looping 2).pc ∧ sget 0 (looping 2).lc 0 - 1 ≠ 0 ∧ sget 0 (looping 1).lc 0 - 1 = 0)
    ∧ ((looping 2).rep = none) ∧ (∀ l ∈ ({} : Cp).loops, l.close ≠ 0) ∧ (1 < ({ repcnt := 2 } : Cp).repcnt) ∧ ({ repcnt := 1 } : Cp).repcnt ≤ 1
    ∧ ({ ctl := .jump 7 } : Cp).ctl = .jump 7 ∧ ({ ctl := .stop } : Cp).ctl = .stop ∧ ({ ctl := .begin_ } : Cp).ctl = .begin_ ∧ ({ ctl := .skip } : Cp).ctl = .skip
    ∧ (∀ r : RepRun, ({ rep := some r } : Cp).rep = some r) :=
  ⟨by decide, rfl, by decide, by decide, by decide, rfl, rfl, rfl, rfl, fun _ => rfl⟩

theorem witness_VectorArithmetic : (∀ i ∈ ([.vadd 0 0 .i32 .rne 255 1 1, .vadd 0 0 .f32 .ru 2 1 1, .vsub 0 1 .i8 .rne 2 1 1, .vmul 0 0 .f16 .rz 2 1 1, .vfma 0 7 .f32 .rd 255 1 1 1, .vfms 0 0 .i64 .rne 2 1 1 1,
      .vmin 0 0 .bf16 2 1 1, .vmax 0 0 .u8 2 1 1, .vabs 0 0 .f32 2 1, .vneg 0 0 .i16 2 1, .vadds 0 0 .i8 2 1 1] : List Instr), SlotActs i cpC) ∧ ElemType.i8.isInt = true :=
  ⟨allAct_slot (by decide), by decide⟩
theorem witness_VectorLogic : (∀ i ∈ ([.vand 0 0 .f32 255 1 1, .vor 0 0 .i8 2 1 1, .vxor 0 0 .i8 2 1 1, .vnot 0 0 .i8 2 1, .vshl 0 0 .i8 2 1 (.imm 127), .vshr 0 0 .i64 2 1 (.vec 1), .vsra 0 0 .i32 2 1 (.imm 31),
      .vsel 0 0 .i8 2 1 1 7, .vmov 0 0 .i8 2 1, .vbcastK 0 0 .i8 2 3, .vbcastImm 0 0 .i8 .rne 2 (-1), .vbcastImm 0 0 .f32 .rne 2 0x3C00] : List Instr), SlotActs i cpC)
    ∧ ElemType.i8.isInt = true ∧ ElemType.f32.isInt = false :=
  ⟨allAct_slot (by decide), by decide⟩
theorem witness_VectorMasks : ∀ i ∈ ([.vcmpMask 0 0 .i32 .eq 7 1 1, .vcmpVec 0 0 .f32 .lt 2 1 1, .vmovMaskMask 0 7 0, .vmovMaskVec 0 7 1, .vmovVecMask 0 2 7, .vpopc 0 0 .i8 2 1, .vpopcMask 0 0 .i8 2] : List Instr), SlotActs i cpC :=
  allAct_slot (by decide)
theorem witness_VectorPermutes : (∀ i ∈ ([.vcvt 0 0 .f32 .f16 false .rne 2 1, .vshuf 0 0 .i8 2 1 4, .vslide 0 0 .i8 2 1 1 2, .vreds 0 0 .f32 .sum .rne 2 1, .vmaxi 0 0 .i32 2 1, .vmini 0 0 .f32 2 1, .vrng 0 0 2 1 2 511,
      .kfromv 0 .i64 31 1 63, .kfromv 0 .u8 1 1 511] : List Instr), SlotActs i cpC) ∧ ElemType.i64.signed = true ∧ ElemType.u8.signed = false :=
  ⟨allAct_slot (by decide), by decide⟩
set_option maxRecDepth 20000 in
theorem witness_VectorMemory : (∀ i ∈ ([.vexp2 0 0 true .rne 255 1, .vlog2 0 0 false .rne 2 1, .vrcp 0 0 true .rne 2 1, .vrsq 0 0 true .rne 2 1, .vpwp 0 0 .rne 2 1, .pwld 0 1 0, .pwst 0 1 255, .vld 0 0 .i8 2 1 255,
      .vst 0 0 .i8 1 1 0, .kld 0 31 1 0, .vldr 0 2 0 1 7 false, .vldr 0 2 0 1 0 true] : List Instr), SlotActs i cpC) ∧ (cpC.core cpC.c).spad.wf = true :=
  ⟨allAct_slot (by decide), by decide⟩
set_option maxRecDepth 20000 in
theorem witness_VectorMemory_lanes : ∀ i ∈ ([.vgath 0 1 .f32 2 1 3, .vscat 0 1 .f32 1 3 2] : List Instr), SlotActs i cpC := allAct_slot (by decide)
set_option maxRecDepth 20000 in
theorem witness_MatrixSlots : ∀ i ∈ ([.mma 0 63 0 15, .aclrPeek 0 63, .aclrImm 0 0 (-32768), .anorm 0 0, .ard 0 0 .f32 .rne 2 63 31, .awr 0 0 .m 1 0 0, .astat 0 0 .g 2 63 63, .astatDepth 0 2 63] : List Instr), SlotActs i cpC :=
  allAct_slot (by decide)
theorem witness_HyperSlots : (∀ i ∈ ([.hld 0 15 1 0, .hst 0 1 1 255, .hbind 0 15 1 1, .hpermImm 0 1 1 8191, .hpermK 0 1 1 3, .hbun 0 3 1, .hclrb 0 3, .hthr 0 1 3, .hseed 0 1 2, .hmov 0 1 1, .hmovToHt 0 1, .hmovFromHt 0 1,
      .hcfg 0 1 1] : List Instr), SlotActs i cpC) ∧ (cpC.core cpC.c).spad.wf = true :=
  ⟨allAct_slot (by decide), by decide⟩
set_option maxRecDepth 20000 in
theorem witness_HyperRecall : (∀ i ∈ ([.hdist 0 31 1 2, .hpop 0 1 1, .hnear 0 1 1, .hhash 0 1 1 24, .mldg 0 7 1 255] : List Instr), SlotActs i cpC) ∧ (cpC.cp cpC.c).hrn = 0
    ∧ SlotActs (.hnear 0 1 1) (cpC.modCp 0 (fun p => { p with hrn := 1 })) ∧ (BitVec.ofNat 64 1).toNat ≠ 0 :=
  ⟨allAct_slot (by decide), by decide, acts_slot (by decide), by decide⟩
set_option maxRecDepth 20000 in
theorem witness_PatchFeed : ∀ i ∈ ([.pfeed 0 0 7 1, .pfeed 0 7 1 255] : List Instr), SlotActs i cpC := allAct_slot (by decide)

/-! Witnesses for LD and ST. `cmd n i args` is command n; `ldF k` has it in flight in LD, `ldQ k` at the head of LD's queue. -/

def noTok : Tok := ⟨false, false, false, false⟩
def ldG (f : Engine → Engine) : State := ((ready .ld).modEng 0 .ld f).atEngine 0 .ld
def cmd (n : Nat) (i : Instr) (args : List Word) : Cmd := { num := n, op := i, args := args, pc := 0 }
def at1 (s : State) : State := s.modArch 0 (fun a => { a with time := 1 })
def ldQ (k : Cmd) : State := at1 (ldG (fun g => { g with queue := [k] }))
def ldF (k : Cmd) : State := at1 (ldG (fun g => { g with flight := [k] }))
def eight : List Word := [1, 2, 3, 4, 5, 6, 7, 8]

theorem witness_EngineStackWords :
    (ld [1]).g.stack.length < 8 ∧ 8 ≤ (ld eight).g.stack.length ∧ (ld eight).g.stack.length = 8 ∧ (ld eight).g.stack = 1 :: 2 :: [3, 4, 5, 6, 7, 8] ∧ (ld [1]).g.stack = 1 :: []
    ∧ (ld [2, 1]).g.stack = 2 :: 1 :: [] ∧ (ld []).g.stack = [] ∧ (ld [1]).g.stack.length < 2 := by decide
theorem witness_EngineControlWords :
    (ld [8191]).g.stack = 8191 :: [] ∧ (8191 : Word).toNat < 8192 ∧ 8192 ≤ (8192 : Word).toNat ∧ (ld [8192, 0]).g.stack = 8192 :: 0 :: [] ∧ 2 ^ 32 ≤ (0x100000000 : Word).toNat
    ∧ (ld [0]).g.stack = 0 :: [] ∧ (0xFFFFFFFF : Word) ≠ 0 ∧ (0xFFFFFFFF : Word).toNat < 2 ^ 32
    ∧ (ld []).g.lc0 = 0 ∧ (ldG (fun g => { g with lc0 := 1 })).g.lc0 ≠ 0 ∧ (ld []).g.lc1 = 0 ∧ (ldG (fun g => { g with lc1 := 1 })).g.lc1 ≠ 0 ∧ (1 : Nat) ≠ 0 := by decide

/-- The conditions of EngineEnqueues on the argument words, by name. -/
def wWithin (w mask : Word) : Bool := w &&& ~~~mask == 0
def wUnit (w : Word) : Nat := 2 ^ (w.toNat / 2 ^ 8 % 16)
theorem witness_EngineEnqueues :
    ((ld [0xC3F, 0x1000]).g.stack = 0xC3F :: 0x1000 :: [] ∧ wWithin 0xC3F 0xFFF = true ∧ (0xC3F : Word).toNat / 2 ^ 8 % 16 ≤ 12 ∧ (0x1000 : Word).toNat % wUnit 0xC3F = 0)
    ∧ (wWithin 0xFF0C3F 0xFF7FFF = true ∧ 0 < (0xFF0C3F : Word).toNat / 2 ^ 16 % 256)
    ∧ (wWithin 0x013F023F 0x7F3F3F3F = true ∧ (ElemType.ofCode ((0x013F023F : Word).toNat / 2 ^ 8 % 16)).isSome = true ∧ 0 < (0x013F023F : Word).toNat / 2 ^ 24 % 128
        ∧ (0x013F023F : Word).toNat / 2 ^ 16 % 64 + (0x013F023F : Word).toNat / 2 ^ 24 % 128 ≤ 64)
    ∧ (wWithin 0x10000201 0x1FFF0F0F = true ∧ 0 < (0x10000201 : Word).toNat / 2 ^ 16 % 8192 ∧ (0x10000201 : Word).toNat / 2 ^ 16 % 8192 ≤ 4096 ∧ 4 ≤ wUnit 0x10000201)
    ∧ (0 < (0x100000000 : Word).toNat ∧ (0x100000000 : Word).toNat ≤ 2 ^ 32)
    ∧ wWithin 0xFFFF 0xFFFF = true
    ∧ (wWithin 0x0000FFFF00001000 0x3FFFFFFFFFFFFF = true ∧ 8 ≤ (0x0000FFFF00001000 : Word).toNat % 65536 ∧ (0x0000FFFF00001000 : Word).toNat % 65536 ≤ 4096 ∧ (0x0000FFFF00001000 : Word).toNat % 8 = 0
        ∧ (0x0000FFFF00001000 : Word).toNat / 2 ^ 32 % 65536 = 0xFFFF)
    ∧ (12 < (0xD00 : Word).toNat / 2 ^ 8 % 16 ∧ (1 : Word).toNat % wUnit 0x100 ≠ 0 ∧ ((ld []).ring 0 1).v = false ∧ ((0 : Word).toNat = 0 ∧ 2 ^ 32 < (0x100000001 : Word).toNat)
        ∧ (0x0000FFFF00000007 : Word).toNat % 65536 < 8 ∧ 4096 < (0x0000FFFF00001008 : Word).toNat % 65536 ∧ 2 ^ 31 ≤ (0x80000000 : Word).toNat ∧ (0x7FFFFFF8 : Word).toNat < 2 ^ 31)
    ∧ ((63 : Word).toNat < 64 ∧ 2 ^ 31 ≤ (0x80000000 : Word).toNat ∧ (0x80000000 : Word).toNat % max 1 ((ld []).arch 0).csrs.rssize.toNat = 0)
    ∧ ¬ wWithin 0x1000 0xFFF = true ∧ 64 ≤ (64 : Word).toNat
    ∧ (ld []).g.queue.length < (ld []).g.cap ∧ (ldG (fun g => { g with cap := 0 })).g.cap ≤ (ldG (fun g => { g with cap := 0 })).g.queue.length := by decide

/-- LD with a number on its stack, and one token in queue q. -/
def ldTok (q : Nat) : State := (ld [0]).modTok 0 q (fun t => { t with count := 1 })
theorem witness_EngineWaits :
    (ld [1]).g.lastNum < (1 : Word).toNat ∧ (ld [0]).g.stack = 0 :: [] ∧ (0 : Word).toNat ≤ (ld [0]).g.lastNum ∧ (0 : Word).toNat ≤ cnOf (ld [0]) 0 .ld ∧ Eng.st ≠ (ld [0]).e
    ∧ ¬ (1 : Word).toNat ≤ cnOf ((ld [1]).modEng 0 .st (fun g => { g with status := .running })) 0 .st
    ∧ engRunning ((ld [1]).modEng 0 .st (fun g => { g with status := .running })) 0 .st = true ∧ engRunning (ld [1]) 0 .st = false
    ∧ ((ld [0]).tok 0 (puQueue .ld)).count = 0 ∧ ((ldTok (puQueue .ld)).tok 0 (puQueue .ld)).count ≠ 0 ∧ ((ld [0]).tok 0 (pdQueue .ld)).count = 0
    ∧ (ld [0]).g.pushes = [] ∧ ((ld [0]).tok 0 (suQueue .ld)).count < ((ld [0]).tok 0 (suQueue .ld)).cap ∧ tokenLack (ld [0]) 0 .ld ⟨false, false, true, true⟩ = none := by decide

/-- A fill of 8 bytes in the area, as command 1, and the loop-nest table of one granule. -/
def fill1 : Cmd := cmd 1 (.fill noTok) [0, 8, 0]
def lnt1 : BitVec 512 := BitVec.ofNat 512 (1 + 2 ^ 64 + 2 ^ 128 + 2 ^ 192 + 2 ^ 256 + 2 ^ 320)
def tile1 : Cmd := cmd 1 (.tile noTok false) [0, 0]
/-- Ring 0, of two places of 512 bytes, of which `res` are taken and one is visible. -/
def ring2 (res : Nat) : Ring := { v := true, tileu := 1, bytes := 1024, basek := 0, head := 0, tail := 1, res := res }
def ldR (k : Cmd) (g : Ring) (w : BitVec 512) : State := ((ldF k).modRing 0 0 (fun _ => g)).modSeqs 0 (fun q => { q with lnts := [(0, { live := w, go := true })] })
set_option maxRecDepth 20000 in
theorem witness_CommandLives :
    Eng.ld ≠ .cp ∧ (ld []).g.queue = [] ∧ ((ldQ fill1).eng 0 .ld).queue = fill1 :: [] ∧ coreLive (ldQ fill1) 0 = true ∧ ((ldQ fill1).core 0).dbg.halt = false
    ∧ ((ldQ fill1).eng 0 .ld).halted = false ∧ ((ldQ fill1).eng 0 .ld).flight.length < 4 ∧ ((ldQ fill1).eng 0 .ld).pushes = [] ∧ ((ldQ fill1).eng 0 .ld).replays.length < 32
    ∧ gapPassed (ldQ fill1) 0 .ld none = true ∧ (tokOf fill1.op).pu = false ∧ (tokOf fill1.op).pd = false
    ∧ ((ldQ fill1).modEng 0 .ld (fun g => { g with halted := true })).g.halted = true ∧ nextStart (ld []) 0 .ld = none
    ∧ nextStart (ldF fill1) 0 .ld = some fill1 ∧ fill1.dequeuedAt < (ldF fill1).coreTime 0 ∧ (∀ j ∈ ((ldF fill1).eng 0 .ld).flight, j.faulted = none) ∧ coreLive stopped 0 = false ∧ fill1.op = .fill noTok := by decide
set_option maxRecDepth 20000 in
theorem witness_CommandLives_walks :
    (sget {} ((ldF tile1).seqs 0).lnts 0).go = false ∧ (sget {} ((ldR tile1 (ring2 1) 1).seqs 0).lnts 0).go = true ∧ (∃ j, j < 6 ∧ (lntCount 1 j = 0 ∨ lntStride 1 j % (granule 0 : Int) ≠ 0))
    ∧ ¬ (∃ j, j < 6 ∧ (lntCount lnt1 j = 0 ∨ lntStride lnt1 j % (granule 0 : Int) ≠ 0))
    ∧ granule 0 * (lntCount lnt1 0 * lntCount lnt1 1 * lntCount lnt1 2 * lntCount lnt1 3 * lntCount lnt1 4 * lntCount lnt1 5) ≤ (ring2 1).tile
    ∧ (ring2 1).tile < granule 0xC00 * (lntCount lnt1 0 * lntCount lnt1 1 * lntCount lnt1 2 * lntCount lnt1 3 * lntCount lnt1 4 * lntCount lnt1 5)
    ∧ ((ldF tile1).ring 0 0).v = false ∧ (ring2 1).v = true ∧ nextStart (ldR tile1 (ring2 1) lnt1) 0 .ld = some tile1 ∧ PlaceFree (0, 1) (ring2 1) ∧ ¬ PlaceFree (0, 1) (ring2 2)
    ∧ ¬ PlaceFree (0, 1) { ring2 1 with arrived := [(3, 1)] } := by
  refine ⟨by decide, by decide, by decide, by decide, by decide, by decide, by decide, by decide, by decide, ⟨by decide, .inl rfl⟩, ?_, ?_⟩
  · rintro ⟨h, -⟩; exact absurd h (by decide)
  · rintro ⟨-, h | ⟨l, h⟩⟩ <;> simp at h
theorem witness_CommandLives_pops : Oldest (ring2 1) [] 0 ∧ (∀ a, ¬ Oldest (ring2 1) [0] a) :=
  ⟨⟨by decide, by decide, by decide, by decide, fun x h g => absurd g (Nat.not_lt.mpr h)⟩, fun a ⟨_, h, _, n, _⟩ => n (by have : a = 0 := Nat.lt_one_iff.mp h; simp [this])⟩
def mcast1 : Cmd := cmd 1 (.mcast noTok) [0, 65536]
def kvcp1 : Cmd := cmd 1 (.kvcp noTok false false true) [0, 0, 0, 5]
set_option maxRecDepth 20000 in
theorem witness_CommandLives_starts :
    mcastCores 0 mcast1 = [0] ∧ ((ldF mcast1).ring 0 0).v = false ∧ (∀ t ∈ mcastCores 0 mcast1, ¬ (((ldR mcast1 (ring2 1) lnt1).ring t 0).v = false ∨ ((ldR mcast1 (ring2 1) lnt1).ring t 0).tile < 1))
    ∧ sliceUp (ldF mcast1) 0 = true ∧ sliceUp ((ldF mcast1).modCore 0 (fun k => { k with gate := .off })) 0 = false
    ∧ ((cmd 1 (.gath noTok false) [0, 0, 65536]).arg 2 / 2 ^ 16 % 8192 * granule 65536 ≤ (ring2 1).tile ∧ (ring2 1).tile < 0x10000C00 / 2 ^ 16 % 8192 * granule 0x10000C00)
    ∧ kvcp1.remote = true ∧ livePorts (ldF kvcp1) 5 = [] ∧ livePorts ({ ldF kvcp1 with hub := { routes := [(5, 2)] } }) 5 = [1] ∧ (cmd 1 (.kvcp noTok false false true) [0, 0, 0, 0xFFFF]).remote = false
    ∧ slotState (L.modCore 0 (fun k => { k with spad := memPutBytes [] 8 [1] })) 0 0 = 1 ∧ slotState L 0 0 ≠ 1 := by decide
/-- A fill that has made its accesses, with a token to push. -/
def done1 : Cmd := { cmd 1 (.fill ⟨false, false, true, false⟩) [0, 8, 0] with started := true, accessed := true, pos := 2 }
set_option maxRecDepth 20000 in
theorem witness_CommandLives_finish :
    findFlight (ldF done1) 0 .ld 1 = some done1 ∧ done1.num = 1 ∧ (coreLive (ldF done1) 0 = true ∧ accessesDone (ldF done1) 0 done1 = true ∧ done1.faulted = none ∧ done1.finished = false ∧ done1.acks = [])
    ∧ accessesDone (ldF fill1) 0 fill1 = false ∧ (∀ p ∈ ((ldF done1).eng 0 .ld).pushes, p.2 ≠ 1) ∧ findFlight (ld []) 0 .ld 0 = none
    ∧ ((ldF done1).tok 0 (suQueue .ld)).count < ((ldF done1).tok 0 (suQueue .ld)).cap ∧ (tokOf done1.op).su = true
    ∧ (((ldF done1).modTok 0 (suQueue .ld) (fun t => { t with cap := 0 })).tok 0 (suQueue .ld)).cap ≤ 0 := by decide
/-- Two increments of command 1 and one of command 2 wait; there is room for the second. -/
def pushing : State := ((ldF { done1 with finished := true }).modEng 0 .ld (fun g => { g with pushes := [(0, 1), (1, 1), (0, 2)] })).modTok 0 0 (fun t => { t with cap := 0 })
set_option maxRecDepth 20000 in
theorem witness_CommandLives_pushes :
    (pushing.eng 0 .ld).pushes = (0, 1) :: [(1, 1), (0, 2)] ∧ (pushing.eng 0 .ld).pushes[1]? = some (1, 1) ∧ (pushing.tok 0 1).count < (pushing.tok 0 1).cap ∧ (pushing.tok 0 0).cap ≤ (pushing.tok 0 0).count
    ∧ coreLive pushing 0 = true ∧ findFlight pushing 0 .ld 1 = some { done1 with finished := true } ∧ (∃ p ∈ (pushing.eng 0 .ld).pushes.erase (1, 1), p.2 = 1)
    ∧ (∀ p ∈ ([(1, 1), (0, 2)] : List (Nat × Nat)).erase (1, 1), p.2 ≠ 1) ∧ ((ld []).eng 0 .ld).pushes = [] := by decide

/-! Witnesses for the hardware and the host. -/

/-- The CP with one entry at the head of the matrix queue, a cycle after it entered. -/
def mqS (op : Instr) : State := at1 (cpC.modCp 0 (fun p => { p with mq := [{ op := op, num := 1, bundle := 0, pc := 0, source := 0, mask := 0, entered := 0 }] }))
theorem witness_MatrixQueue : ∀ op ∈ ([.aclrImm 0 1 0, .anorm 0 1, .awr 0 0 .m 1 2 3, .aclrPeek 0 1, .mma 0 1 0 0] : List Instr),
    let s := mqS op
    (coreLive s 0 = true ∧ (s.cp 0).halted = false ∧ ((s.core 0).dbg.halt && (s.core 0).dbg.qhold) = false ∧ (s.cp 0).mq.length = 1 ∧ (∀ h ∈ (s.cp 0).mq, h.op = op ∧ h.entered + 1 ≤ s.coreTime 0)
      ∧ gapPassed s 0 .cp (s.cp 0).lastDequeue = true ∧ (s.cp 0).mqLast = none)
    ∧ (cpC.cp 0).mq = [] ∧ (cpC.cp 0).mflight = [] ∧ coreLive stopped 0 = false := by decide
/-- The ring, with a format word of MMAs of bytes. -/
def fqC (w : BitVec 64) : State := cpC.modSeqs 0 (fun q => { q with fq := [w] })
def run0 : MqRun := { entry := { op := .anorm 0 1, num := 0, bundle := 0, pc := 0, source := 0, mask := 0, entered := 0 }, start := 2, occ := 16, word := 0, placeA := 0, placeB := 0, jidx := 0 }
theorem witness_MatrixQueue_mma :
    ((fqC 0).seqs 0).fq = 0 :: [] ∧ (cpC.seqs 0).fq = [] ∧ (cpC.ring 0 0).v = true ∧ (cpC.ring 0 1).v = false
    ∧ ((0 : BitVec 64).toNat / 2 ^ 44 % 16 < 11 ∧ (0 : BitVec 64).toNat / 2 ^ 40 % 16 < 11 ∧ (0 : BitVec 64).toNat % 2 ^ 38 = 0) ∧ ¬ (0x0000B00000000000 : BitVec 64).toNat / 2 ^ 44 % 16 < 11
    ∧ (ring2 1).tile < operandBytes 0 ∧ operandBytes 0 ≤ ({ v := true, tileu := 32, bytes := 32768, basek := 0 } : Ring).tile
    ∧ (cpC.modCore 0 (fun k => { k with poisonSpad := [0] })).spadPoison 0 ((cpC.ring 0 0).placeOff 0) (operandBytes 0) = true ∧ cpC.spadPoison 0 ((cpC.ring 0 0).placeOff 0) (operandBytes 0) = false
    ∧ (cpC.core 0).gate = .on ∧ clocked cpC 0 = true ∧ ((cpC.core 0).dbg.halt = false ∧ ((cpC.modCore 0 (fun k => { k with dbg := { halt := true } })).core 0).dbg.halt = true) := by decide
theorem witness_MatrixQueue_tiles : Oldest (cpC.ring 0 0) (mqClaims (cpC.cp 0) 0) 0 ∧ (∀ a, ¬ Oldest ({} : Ring) [] a) :=
  ⟨⟨by decide, by decide, by decide, by decide, fun x h g => absurd g (Nat.not_lt.mpr h)⟩, fun a ⟨h, g, _⟩ => absurd (Nat.lt_of_le_of_lt h g) (by decide)⟩
/-- The entry whose operation is in flight, due at 18; an MMA of 16 cycles that was retried once is due at 22. -/
def retiring (op : Instr) : MqRun := { run0 with entry := { run0.entry with op := op } }
theorem witness_MatrixQueue_retires :
    (∀ op ∈ ([.mma 0 1 0 0, .aclrPeek 0 1, .aclrImm 0 1 5, .anorm 0 1, .awr 0 0 .f 1 2 3] : List Instr), mqTile (retiring op).entry.op = 1 ∧ (retiring op).start + (retiring op).occ = 18)
    ∧ isMma (.mma 0 1 0 0) = true ∧ (⟨1, [5]⟩ : ResidueErrors).poisoned = [5] ∧ 0 < (⟨1, [5]⟩ : ResidueErrors).retries ∧ (2 + 16 + 1 * (16 / 4) ≤ 22)
    ∧ ((sget {} (cpC.core 0).acc 1).elems.map (fun x => x.1)).Pairwise (· < ·) ∧ ([(0, (⟨0, 0, 0, 0⟩ : AccElem)), (4095, ⟨0, 0, 0, 0⟩)].map (fun x => x.1)).Pairwise (· < ·)
    ∧ ((cpC.modArch 0 (fun a => { a with time := 18 })).coreTime 0 = 18) ∧ ((padMask cpC 0).getLsbD 63 = true ∧ (padMask (cpC.modRun 0 (fun r => { r with padmask := 1 })) 0).getLsbD 63 = false) := by decide
def pref1 : Cmd := { cmd 1 (.pref noTok) [0x80000000, 63] with started := true, pos := 2 }
set_option maxRecDepth 20000 in
theorem witness_RingsAndSlots :
    (cpC.ring 0 0).tail ∉ (cpC.ring 0 0).filled ∧ (cpC.ring 0 0).head ∉ (cpC.ring 0 0).popped
    ∧ 1 ∈ ((cpC.modRing 0 0 (fun g => { g with filled := [1], popped := [0] })).ring 0 0).filled ∧ 0 ∈ ((cpC.modRing 0 0 (fun g => { g with popped := [0] })).ring 0 0).popped
    ∧ (cpC.ring 0 0).signals.filter (fun p => p.1 == (cpC.ring 0 0).tail) = []
    ∧ ((cpC.modRing 0 0 (fun g => { g with filled := [1], signals := [(1, 7, 0)] })).ring 0 0).signals.filter (fun p => p.1 == 1) = [(1, 7, 0)]
    ∧ ((ldF pref1).eng 0 .ld).flight.find? (fun k => (match k.op with | .pref _ => k.arg 1 == 63 | _ => false) && k.prog == 0 && k.faulted.isNone && accessesDone (ldF pref1) 0 k) = some pref1
    ∧ ((ld []).eng 0 .ld).flight.find? (fun k => (match k.op with | .pref _ => k.arg 1 == 63 | _ => false) && k.prog == 0 && k.faulted.isNone && accessesDone (ld []) 0 k) = none
    ∧ (((ldF pref1).arch 0).csrs.rtbase.toNat + 16 * 63) % 16 = 0 ∧ ((ldF pref1).die (dieOf 0)).power = true ∧ hallRefuse (ldF pref1) 0 0 (16 * 63) 16 = none ∧ hallRefuse (ldF pref1) 0 0 4194288 16 = some 1
    ∧ sliceUp (ldF pref1) 0 = true ∧ sliceUp ((ldF pref1).modCore 0 (fun k => { k with gate := .off })) 0 = false ∧ ((ldF pref1).core 0).spad.wf = true := by decide

/-- Context 0's root stands at 65536, its own first entry; its third names the node at 131072, whose first maps the 2 MiB at 2^31 to the address 2^21. -/
def mapped : State := { L with hbm := memPutBytes (memPutBytes (memPutBytes (memPutBytes [] 0 (natBytes 8 65536)) 65536 (natBytes 8 65537)) 65552 (natBytes 8 131073)) 131072 (natBytes 8 0x200007) }
def acc15 : Access := { acc (.load true) with cls := 15, arrived := true }
theorem witness_WheelWalksInvalidations_found : (match walkNow mapped 0 0 (2 ^ 31) true with | (_, .ok e) => e.big && e.pa == 0x200000 | _ => false) = true := by decide +kernel
/-- Die 0's unit walks for context 0 of core 0. -/
def walk0 : Walk := ⟨0, 2 ^ 15, 2 ^ 31, true, [(.sc 0 0, 2 ^ 31, true)], none⟩
theorem witness_WheelWalksInvalidations_walks :
    ((R.modDie 0 (fun x => { x with walks := [walk0] })).die 0).walks[0]? = some walk0 ∧ (R.die 0).power = true ∧ ({ walk0 with waiters := [] } : Walk).waiters = []
    ∧ (match walkRest R 0 walk0 with | (_, .error f) => f.code == 0x09 && f.detail / 8 != 5 | _ => false) = true ∧ walkMove mapped 0 walk0 = some (4, 65536) ∧ walkMove mapped 0 { walk0 with node := some (4, 65536) } = some (3, 65536)
    ∧ (match walkRest mapped 0 { walk0 with node := some (1, 131072) } with | (_, .ok e) => e.big | _ => false) = true
    ∧ (match walkEntry mapped 0 131072 (2 ^ 31) with | .ok e => entryFault e 1 true == none && e / 4 % 2 == 1 | _ => false) = true
    ∧ (match walkEntry mapped 0 65536 (2 ^ 31) with | .ok e => entryFault e 3 true == none && e / 4 % 2 == 0 | _ => false) = true
    ∧ (match walkEntry R 0 0 (2 ^ 31) with | .ok e => entryFault e 1 true == some 1 | _ => false) = true := by decide +kernel
theorem witness_WheelWalksInvalidations :
    R.hub.wheelAt + 4 ≤ ({ R with now := 4 } : State).now ∧ ({ R with now := 3 } : State).now < R.hub.wheelAt + 4
    ∧ (doing acc15).accesses[0]? = some acc15 ∧ acc15.arrived = true ∧ homeUp ({ doing acc15 with hub := { wheel := 256 } }) acc15.loc = true ∧ acc15.stamp + 256 ≤ ({ doing acc15 with hub := { wheel := 256 } }).wheelCount
    ∧ (∀ b ∈ (doing acc15).accesses, b.arrived = true → b.loc.home = acc15.loc.home → acc15.stamp ≤ b.stamp) ∧ ({ doing acc15 with hub := { wheel := 255 } }).wheelCount < acc15.stamp + 256
    ∧ (R.core 0).stop = none ∧ (R.core 0).stopping = none ∧ ((ctx0 (fun t => { t with wait := .walk (2 ^ 15) })).ctx 0 0).wait = .walk (2 ^ 31 / 2 ^ 16)
    ∧ (opHead 0x038 0x8000000000000FFF).ctx 0 0 = { L.ctx 0 0 with ops := ⟨0, .csrw 0x038 0x8000000000000FFF⟩ :: [] } ∧ storesDone (opHead 0x038 0) 0 0 0 = true
    ∧ ({ R with invals := [⟨0, 0, 0, 0, none, [], [], []⟩] }).invals[0]? = some ⟨0, 0, 0, 0, none, [], [], []⟩ ∧ invalPast R ⟨0, 0, 0, 0, none, [], [], []⟩ = true
    ∧ invalPast (doing (acc (.load true))) ⟨0, 0, 0, 0, none, [0], [], []⟩ = false := by decide

/-- An image at 2^31 whose header is accepted; f is its flags. `recAt n v` has the word v in the record at offset 64 of slice 0, n bytes into it. -/
def imaged (f : Nat) : State := { mapped with hbm := memPutBytes mapped.hbm 0x200000 (natBytes 10 (0x344D4B5A + 2 ^ 32 + f * 2 ^ 48 + 32 * 2 ^ 64)) }
def recAt (s : State) (n v : Nat) : State := s.modCore 0 (fun k => { k with spad := memPutBytes k.spad (64 + n) (natBytes 8 v) })
def isOk {α ε : Type} : Except ε α → Bool
  | .ok _ => true
  | .error _ => false
def full1024 : List LandEntry := List.replicate 1024 ⟨0, 0, 0, 0, 0⟩
theorem witness_LandingAndStepFormer :
    (opHead 0x018 0).ctx 0 0 = { L.ctx 0 0 with ops := ⟨0, .csrw 0x018 0⟩ :: [] } ∧ storesDone (opHead 0x018 0) 0 0 0 = true
    ∧ 2 ^ 31 ≤ (0x80000000 : Word).toNat ∧ (4 : Word).toNat % 8 ≠ 0 ∧ (hallRefuse R 0 0 8 28).isSome = true ∧ (hallRefuse L 0 0 8 28).isSome = false ∧ (reachFault L 0 (.slice 0 8) 8).isSome = false ∧ L.spadPoison 0 8 28 = false
    ∧ (L.die 0).landing.length < 1024 ∧ 1024 ≤ full1024.length
    ∧ (L.die 0).en = false ∧ ((L.modDie 0 (fun x => { x with en := true })).die 0).en = true ∧ (1 : Word).getLsbD 0 = true ∧ (0 : Word).getLsbD 0 = false ∧ (3 : Word).getLsbD 1 = true
    ∧ stepReady L 0 = false ∧ stepReady ({ (L.modDie 0 (fun x => { x with en := true, landing := [⟨0, 0, 0, 0, 0⟩] })) with now := 1200 }) 0 = true
    ∧ stepReady ({ (L.modDie 0 (fun x => { x with en := true, landing := [⟨0, 0, 0, 0, 0⟩] })) with now := 1199 }) 0 = false := by decide +kernel
/-- The outcomes of the template's and the header's read, of the table's write and of the record's check. -/
theorem witness_LandingAndStepFormer_outcomes :
    isOk (readBytes R 0 0 64 64).2 = false ∧ isOk (readBytes L 0 0 64 64).2 = true ∧ isOk (readHeader L 0 0 (2 ^ 31)).2 = false
    ∧ (match (readHeader (imaged 0) 0 0 (2 ^ 31)).2 with | .ok h => h.flags % 2 == 0 | _ => false) = true ∧ (match (readHeader (imaged 1) 0 0 (2 ^ 31)).2 with | .ok h => h.flags % 2 == 1 | _ => false) = true
    ∧ (parseRecord (natBytes 64 (2 ^ 31))).image = 2 ^ 31
    ∧ (writeBytes L 0 0 (2 ^ 31) (stepTable 0 [⟨0, 0, 0, 0, 0⟩])).2.isSome = true ∧ (writeBytes mapped 0 0 (2 ^ 31) (stepTable 0 [⟨0, 0, 0, 0, 0⟩])).2.isNone = true
    ∧ (match (checkRecord L 0 0 fetchHeld.body 1 true).2 with | .error 4 => true | _ => false) = true ∧ isOk (checkRecord (imaged 0) 0 0 { fetchHeld.body with image := 2 ^ 31 } 1 true).2 = true := by decide +kernel

def trap0 : BTrap := ⟨63, 2, 0, 0, 5⟩
def arr0 : Arrival := ⟨0, 16, 2, 0, 0, 0, 5⟩
theorem witness_HandlersStart :
    (L.arch 0).btraps = [] ∧ (L.seqs 0).arrivals = [] ∧ coreLive L 0 = true ∧ coreLive stopped 0 = false ∧ dormantHandler L 0 = some 1
    ∧ dormantHandler ((L.modCtx 0 1 (fun t => { t with status := .running })).modCtx 0 2 (fun t => { t with status := .running })) 0 = some 3
    ∧ ((L.modArch 0 (fun a => { a with btraps := [trap0] })).arch 0).btraps = trap0 :: [] ∧ (L.ctx 0 1).slot ≠ some 63
    ∧ (∀ a ∈ ((L.modSeqs 0 (fun q => { q with arrivals := [arr0] })).seqs 0).arrivals.head?, trap0.at_ ≤ a.at_)
    ∧ ((L.modSeqs 0 (fun q => { q with arrivals := [arr0] })).seqs 0).arrivals = arr0 :: [] ∧ fetchRun.ready = true := by decide

/-- Queue 0 after boot, as f changes it. -/
def wqS (f : WorkQueue → WorkQueue) : State := ({ R with hub := { bootst := 1 } }).modWq 0 f
theorem witness_QueueRecords :
    (({} : WorkQueue).count ≤ ({} : WorkQueue).slots ∧ ({ tail := 16 } : WorkQueue).count ≤ ({} : WorkQueue).slots ∧ ({} : WorkQueue).slots < ({ tail := 17 } : WorkQueue).count)
    ∧ ((wqS id).wq 0).en = false ∧ ((wqS (fun w => { w with en := true })).wq 0).en = true ∧ (1 : BitVec 64).getLsbD 0 = true ∧ (0 : BitVec 64).getLsbD 0 = false
    ∧ ((wqS (fun w => { w with err := 7 })).wq 0).err ≠ 0 ∧ (wqS id).hub.bootst = 1 ∧ R.hub.bootst ≠ 1
    ∧ ({ en := true, tail := 1 } : WorkQueue).readable = true ∧ returnLoop (wqS id) { en := true, tail := 1 } = { en := true, tail := 1 } ∧ ({ en := true, tail := 1 } : WorkQueue).settle = { en := true, tail := 1 } := by decide
theorem witness_QueueRecords_read : isOk (readNow (wqS id) hubEnd 0 0 64).2 = false ∧ isOk (readNow { L with hub := { bootst := 1 } } hubEnd 0 0 64).2 = true
    ∧ 11 < (parseRecord (natBytes 64 (12 * 2 ^ 320))).prio ∧ (4 ≤ (parseRecord (natBytes 64 (4 * 2 ^ 328))).node ∧ (parseRecord (natBytes 64 (4 * 2 ^ 328))).prio ≤ 11) := by decide +kernel
def node1 : HeldRec := { fetchHeld with body := { fetchHeld.body with node := 1, cond := 7 }, eligible := some 0 }
theorem witness_QueueRecords_check :
    tagReserved 0xFE000000 = true ∧ tagReserved 0xFFFFFFFF = false ∧ loopOk [0xC0000001] = false ∧ loopOk [] = true ∧ (1 : Word).toNat % 64 ≠ 0 ∧ (0x80000000 : Word).toNat % 64 = 0
    ∧ isOk (readHeader (imaged 0) hubEnd 0 (2 ^ 31)).2 = true ∧ isOk (readHeader L hubEnd 0 (2 ^ 31)).2 = false
    ∧ (match (readHeader (imaged 0) hubEnd 0 (2 ^ 31)).2 with | .ok h => h.magic == 0x344D4B5A && h.version == 1 && h.allot == 32 && (h.overlay 4).2 + (h.overlay 5).2 == h.spneed && h.wheel == 0 | _ => false) = true := by decide +kernel
/-- A node is the chosen record of queue 0; its word can be read where the context owns slice 0. -/
def evaluating (s : State) : State := ({ s with hub := { bootst := 1 } }).modWq 0 (fun w => { w with en := true, tail := 1, held := some node1 })
theorem witness_QueueRecords_node :
    (chosenOf (evaluating L)).map (fun x => (x.1, x.2.2.id)) = some (0, 0) ∧ node1.body.node ≠ 0 ∧ (evaluating L).hub.bootst = 1 ∧ isOk (readNow (evaluating L) hubEnd 0 0 8).2 = true ∧ isOk (readNow (evaluating R) hubEnd 0 0 8).2 = false
    ∧ chosenOf R = none ∧ ((1 : Nat) = 1 ∧ (0 : Word).toNat % 65536 = 0 ∧ 0 < (0x10001 : Word).toNat % 65536 ∧ 0 < (0x10001 : Word).toNat / 65536 % 65536) := by decide +kernel


/-! A record of one core, an image that fits, and its launch: `held1` waits at the head of queue 0, `runL f` is core 0 with the launch that runs there, as f changes its share of it. -/

def held1 : HeldRec := { fetchHeld with eligible := some 0, body := { fetchHeld.body with prio := 5, loop := [0x40000001, 1, 1, 1, 1, 1] }, hdr := { noHeader with allot := 32, spneed := 1024 } }
def choosing : State := wqS (fun w => { w with en := true, tail := 1, held := some held1 })
def launch1 : Launch := { launch0 with cohort := [place0] }
def runL (f : Running → Running) : State := { (runs f) with hub := { launches := [launch1], bootst := 1 } }
theorem witness_PlacementAndPoints :
    chosenOf R = none ∧ (chosenOf choosing).map (fun x => (x.1, x.2.2.id)) = some (0, 0) ∧ choosing.hub.bootst = 1 ∧ held1.body.node = 0 ∧ posOf (.queue 0) = 0 ∧ posOf (.pool 7) = 4103
    ∧ cohortOk choosing held1 [place0] = true ∧ cohortOk choosing held1 [{ place0 with regs := [] }] = false ∧ resumeFirst choosing 5 = false ∧ canPlace choosing [] held1 = true
    ∧ (L.run 0).map (fun r => r.loaded) = some true ∧ coreLive L 0 = true ∧ (runL id).run 0 = some fetchRun ∧ (runL id).launch 0 = some launch1
    ∧ isOk (readOverlays L fetchHeld (overlayRoom 0) []).2 = true ∧ isOk (readOverlays R { fetchHeld with hdr := { noHeader with ovl := [(0, 16)] } } (overlayRoom 0) []).2 = false
    ∧ launch1.src = .queue 0 ∧ (⟨0, fetchHeld, .pool 7, [place0], 0, [], [], [], true, false, false⟩ : Launch).src = .pool 7 ∧ ({ fetchHeld with step := some 2 } : HeldRec).step = some 2
    ∧ ((L.arch 0).parked = [] ∧ (L.core 0).spad.wf = true) ∧ (∀ p ∈ launch1.cohort, ((runL id).run p.core).map (fun x => (x.launch, x.loaded)) = some (0, true))
    ∧ (((runL id).modWq 0 (fun w => { w with held := some fetchHeld, placing := true })).wq 0).placing = true
    ∧ pointOver L 0 = false ∧ pointOver (L.modCtx 0 0 (fun t => { t with status := .exited })) 0 = true
    ∧ fetchRun.t + 1 < ({ fetchHeld.body with loop := [2, 1, 1, 1, 1, 1] } : Record).t ∧ ({ fetchHeld.body with loop := [1, 1, 1, 1, 1, 1] } : Record).t ≤ fetchRun.t + 1
    ∧ (∀ p ∈ launch1.cohort, p.core = 0 ∨ p.core ∈ launch1.completed) ∧ (∃ p ∈ [place0, { place0 with core := 1 }], p.core ≠ 0 ∧ p.core ∉ launch1.completed) := by decide +kernel
/-- The launch waits to start its point, and waits to take its cores again. -/
def waits : State := runL (fun r => { r with ready := false })
def parked1 : Launch := { launch1 with parked := true }
def away : State := { (R.modArch 0 (fun a => { a with parked := [{ run := fetchRun, seqs := {}, csrs := {}, saved := none }] })) with hub := { launches := [parked1] } }
theorem witness_PlacementAndPoints_points :
    (waits.run 0).map (fun r => (r.loaded, r.ready)) = some (true, false) ∧ gangReady waits 0 { fetchRun with ready := false } = true ∧ coreLive waits 0 = true ∧ gangReady L 0 fetchRun = false
    ∧ canResume (runL id) launch1 = false ∧ away.launch 0 = some parked1 ∧ canResume away parked1 = true ∧ chosenOf away = none ∧ launch1.held.hdr.wheel = 0
    ∧ (unparkCores away 0 (sget 0 []) (coresLeft parked1)).2 = none := by decide +kernel
/-- A record for every core, of which core 0 runs a launch of lower priority. -/
def held8 : HeldRec := { held1 with body := { held1.body with loop := [0x40000040, 0x80000008, 1, 1, 1, 1] } }
def runS : State := runL (fun r => { r with spneed := 1024 })
theorem witness_PlacementAndPoints_victim :
    canPlace runS [] held8 = false ∧ (victimOf runS held8).map (fun l => l.id) = some 0
    ∧ canPlace runS ((runS.hub.launches.filter (victimOk runS held8)).map (fun l => l.id)) held8 = true ∧ victimOf runS fetchHeld = none := by decide +kernel

/-- Context 0 of core 0 has waited 256 cycles on a full format queue, and the other sequencers of its core are idle. -/
def fqFull (since : Nat) : State := ((ctx0 (fun t => { t with wait := .fmtq 0, status := .running })).modSeqs 0 (fun q => { q with fqCap := 0, waitSince := some since })).modArch 0 (fun a => { a with time := 256 })
/-- An MMA at the head, and no word of the format queue can come. -/
def noWord : State := at1 (cpC.modCp 0 (fun p => { p with mq := [{ op := .mma 0 1 0 0, num := 1, bundle := 0, pc := 0, source := 0, mask := 0, entered := 0 }] }))
/-- LD has waited for a token since cycle 0, and nothing is full. -/
def fqOpen : State := (((ctx0 (fun t => { t with status := .exited })).modEng 0 .ld (fun g => { g with status := .running, wait := .token 0 })).modSeqs 0 (fun q => { q with waitSince := some 0 })).modArch 0 (fun a => { a with time := 2 ^ 20 })
def frozen (c : FreezeCause) : State := ({ L with now := 2 ^ 20 }).modArch 0 (fun a => { a with freeze := some ⟨c, 0, 0⟩ })
theorem witness_QueueWaitStops :
    allWait (fqFull 0) 0 = some [6] ∧ fullWaited (fqFull 0) 0 = [6] ∧ queueFull (fqFull 0) 0 6 = true ∧ queueEnl (fqFull 0) 0 6 < 4 ∧ coreLive (fqFull 0) 0 = true ∧ ((fqFull 0).core 0).dbg.halt = false
    ∧ (((fqFull 0).seqs 0).waitSince = some 0 ∧ 0 + 256 ≤ (fqFull 0).coreTime 0 ∧ (fqFull 1).coreTime 0 < 1 + 256) ∧ 0 < ((fqFull 0).cluster 0).pantry ∧ underflow (fqFull 0) 0 = none
    ∧ 4 ≤ queueEnl ((fqFull 0).modSeqs 0 (fun q => { q with fqEnl := 4 })) 0 6 ∧ (((fqFull 0).modCluster 0 (fun g => { g with pantry := 0 })).cluster 0).pantry = 0
    ∧ (underflow noWord 0).isSome = true ∧ coreLive noWord 0 = true ∧ (noWord.core 0).dbg.halt = false
    ∧ fullWaited fqOpen 0 = [] ∧ (allWait fqOpen 0).isSome = true ∧ underflow fqOpen 0 = none ∧ (fqOpen.seqs 0).waitSince = some 0 ∧ 0 + 2 ^ 20 ≤ fqOpen.coreTime 0 ∧ fullWaited L 0 = []
    ∧ (L.arch 0).freeze = none ∧ ((frozen .dirtyCap).arch 0).freeze = some ⟨.dirtyCap, 0, 0⟩ ∧ ((frozen .late).arch 0).freeze = some ⟨.late, 0, 0⟩ ∧ (0 + 2 ^ 20 ≤ (frozen .late).now ∧ L.now < 0 + 2 ^ 20)
    ∧ ([(⟨4, .k 1 0, false⟩ : InFlight), ⟨5, .k 2 0, true⟩].find? (fun y => y.load)) = some ⟨5, .k 2 0, true⟩
    ∧ ((ctx0 (fun t => { t with wait := .barw 7, status := .running, barIdle := true })).ctx 0 0).wait = .barw 7 ∧ ((ctx0 (fun t => { t with wait := .barw 7, status := .running, barIdle := true })).ctx 0 0).barIdle = true
    ∧ (L.ctx 0 0).waitFrom + 2 ^ 20 ≤ (L.modArch 0 (fun a => { a with time := 2 ^ 20 })).coreTime 0 ∧ (L.modArch 0 (fun a => { a with time := 2 ^ 20 - 1 })).coreTime 0 < (L.ctx 0 0).waitFrom + 2 ^ 20
    ∧ (opHead 0x067 0).ctx 0 0 = { L.ctx 0 0 with ops := ⟨0, .csrw (0x060 + 7) 0⟩ :: [] } ∧ storesDone (opHead 0x067 0) 0 0 0 = true ∧ (L.core 0).stopping = none := by decide +kernel

/-! A message of core 64 to offset 64 of slice 0, with handler h; `inAir h` has it on its way to core 0, whose launch owns the place. -/

def msg (h : Nat) : Message := { core := 64, cmd := 1, dst := 64, bytes := natBytes 8 7, tag := 1024, handler := h, tctx := 0, mark := false }
def inAir (h : Nat) : State := { L with messages := [msg h] }
def replay1 (b : Nat) (out : Bool) : Replay := ⟨msg 16, 256, b, out⟩
def sender (rs : List Replay) : State := { L.modEng 64 .st (fun g => { g with flight := [cmd 1 (.send noTok false) [0, 64, 8]], replays := rs }) with retries := [msg 16] }
/-- ST has a SEND in flight whose message is told to come later; another message of the replay queue stands before it. -/
def replay2 : Replay := ⟨{ msg 16 with cmd := 2 }, 0, 0, false⟩
theorem witness_MessagesAndHooks :
    L.messages[0]? = none ∧ (inAir 16).messages[0]? = some (msg 16) ∧ (∀ x ∈ (inAir 16).messages.take 0, x.core = (msg 16).core → x.dst / 4194304 ≠ 0)
    ∧ (∃ x ∈ ({ L with messages := [msg 16, msg 17] }).messages.take 1, x.core = (msg 17).core ∧ x.dst / 4194304 = 0)
    ∧ pathIn (inAir 16) (dieOf 64) (dieOf 0) 3 = false ∧ ((inAir 16).die (dieOf 0)).power = true ∧ pathIn (inAir 16) (dieOf 64) (dieOf 0) 2 = false ∧ sliceUp (inAir 16) 0 = true
    ∧ (({ (inAir 16) with dies := [(0, { power := false })] }).die 0).power = false ∧ sliceUp ((inAir 16).modCore 0 (fun k => { k with gate := .off })) 0 = false
    ∧ hallRefuse R 0 0 64 8 = some 2 ∧ hallRefuse (inAir 16) 0 0 64 8 = none ∧ areaOwner (inAir 16) 0 0 64 8 = some 0 ∧ areaOwner R 0 0 64 8 = none
    ∧ ((msg 16).handler ≠ 0xFFFF ∧ (if runsOn (inAir 16) 0 0 then 32 else 16) ≤ arrivalsOf ((inAir 16).modSeqs 0 (fun q => { q with arrivals := List.replicate 32 arr0 })) 0 0)
    ∧ ((msg 16).mark = false ∧ 64 ∈ (((inAir 16).modArch 0 (fun a => { a with locks := [64] })).arch 0).locks) ∧ ¬ (if runsOn (inAir 16) 0 0 then 32 else 16) ≤ arrivalsOf (inAir 16) 0 0
    ∧ (0 + min (8 - 0) (8 - (64 + 0) % 8) = 8 ∧ 1024 ≤ (msg 16).tag) ∧ 0 + min (16 - 0) (8 - (64 + 0) % 8) < 16
    ∧ (sender []).retries[0]? = some (msg 16) ∧ (findFlight (sender []) 64 .st 1).isSome = true ∧ (∀ r ∈ ((sender []).eng 64 .st).replays, r.msg.cmd ≠ 1) ∧ L.retries[0]? = none
    ∧ ((sender [replay2, replay1 256 true]).eng 64 .st).replays = [replay2] ++ replay1 256 true :: [] ∧ (replay1 256 true).msg.cmd = (msg 16).cmd ∧ (∀ x ∈ [replay2] ++ [], x.msg.cmd ≠ (msg 16).cmd)
    ∧ ((sender []).eng 64 .st).replays = [] ∧ (replay1 0 false).out = false ∧ coreLive (sender []) 64 = true ∧ ((sender []).eng 64 .st).halted = false
    ∧ (replay1 0 false).due ≤ ((sender []).modArch 64 (fun a => { a with time := 256 })).coreTime 64 ∧ ((sender []).modArch 64 (fun a => { a with time := 255 })).coreTime 64 < (replay1 0 false).due := by decide +kernel
theorem witness_MessagesAndHooks_writes :
    (opHead 0x031 0).ctx 0 0 = { L.ctx 0 0 with ops := ⟨0, .csrw 0x031 0⟩ :: [] } ∧ storesDone (opHead 0x031 0) 0 0 0 = true ∧ hookActive L 0 = false
    ∧ hookActive (L.modCsrs 0 (fun r => { r with hkreq := some (0, 0) })) 0 = true
    ∧ (cpC.ring 0 0).head < (cpC.ring 0 0).tail ∧ (L.ring 0 15).tail ≤ (L.ring 0 15).head ∧ ringNamed L 0 15 = false
    ∧ (0x8000000000000000 : Word).getLsbD 63 = true ∧ BitVec.ofNat 12 ((0x8000000000000000 : Word).toNat / 2 ^ 48) = 0
    ∧ ((0x8001000080000000 : Word).getLsbD 63 = true ∧ BitVec.ofNat 12 ((0x8001000080000000 : Word).toNat / 2 ^ 48) = 1 ∧ (BitVec.ofNat 21 ((0x8001000080000000 : Word).toNat / 2 ^ 22)).toNat = 512
      ∧ areaOf L 0 ≤ (BitVec.ofNat 12 ((0x8001000080000000 : Word).toNat / 2 ^ 10)).toNat * 1024 ∧ 512 ≤ areaOf L 0 + spneedOf L 0)
    ∧ 0x067 = 0x060 + 7 ∧ 0x04F = 0x040 + 15
    ∧ (L.arch 0).csrs.hkreq = none ∧ ((L.modCsrs 0 (fun r => { r with hkreq := some (0, 7) })).arch 0).csrs.hkreq = some (0, 7) ∧ dormantHandler L 0 = some 1 ∧ coreLive L 0 = true
    ∧ isOk (readNow L 0 0 0x2C 4).2 = true ∧ isOk (readNow L 0 0 0x30 8).2 = true ∧ isOk (readNow L 0 0 0x8000002C 4).2 = false ∧ isOk (readNow (L.modCore 0 (fun k => { k with poisonSpad := [1] })) 0 0 (16 + 0x2C) 4).2 = true ∧ isOk (readNow (L.modCore 0 (fun k => { k with poisonSpad := [1] })) 0 0 (16 + 0x30) 8).2 = false
    ∧ hookSpent L 0 = none ∧ hookSpent (L.modCtx 0 3 (fun t => { t with status := .running, hook := some (0, true) })) 0 = some 3 ∧ (L.core 0).dbg.halt = false := by decide +kernel

def pass0 : RoutePass := ⟨0, 0, 0⟩
def passed : RouteRun := { pass := pass0, row := 1, valid := none, scores := [], outs := [], hlocs := [], hist := [], counts := 0, histDone := true, fault := none }
def rdie (r : Option RouteRun) : State := R.modDie 0 (fun x => { x with rrun := r, rqueue := [pass0] })
/-- The replication engine copies expert 3 to die 7. -/
def copying (pos : Nat) (bad : Bool) : State := ({ R with hub := { serving := some (3, 7) } }).modDie 7 (fun x => { x with rcopy := some ⟨3, 7, 0, pos, []⟩, rcopyFault := bad, xsz := 64 })
theorem witness_ExpertEvents :
    (opHead 0x210 0).ctx 0 0 = { L.ctx 0 0 with ops := ⟨0, .csrw 0x210 0⟩ :: [] } ∧ storesDone (opHead 0x210 0) 0 0 0 = true
    ∧ (0x80000000 : Word).toNat / 2 ^ 31 % 2 ^ 27 ≠ 0 ∧ (1 : Word).toNat % 64 ≠ 0 ∧ (0xFC00000000000040 : Word).toNat / 2 ^ 31 % 2 ^ 27 = 0 ∧ (0xFC00000000000040 : Word).toNat % 64 = 0 ∧ isOk (readNow L 0 0 64 64).2 = true
    ∧ (R.die 0).rqueue = [] ∧ (R.die 0).rrun = none ∧ ((rdie none).die 0).rqueue = pass0 :: [] ∧ ((rdie (some passed)).die 0).rrun = some passed ∧ passed.fault = none ∧ passed.outs = [] ∧ passed.histDone = true
    ∧ ({ passed with fault := some (1, 8) } : RouteRun).fault = some (1, 8) ∧ ({ passed with histDone := false } : RouteRun).histDone = false
    ∧ R.hub.repReqs = [] ∧ ({ R with now := 1, hub := { repReqs := [(0, 3, 0)] } } : State).hub.repReqs = (0, 3, 0) :: [] ∧ (0 < ({ R with now := 1 } : State).now ∧ R.now ≤ 0) ∧ R.hub.serving = none ∧ (∀ i, i < 8 → (R.die i).updates.length < 64) ∧ newestDies R 0 3 = none
    ∧ newestDies (L.modDie 0 (fun x => { x with updates := [(3, 0)] })) 0 3 = some (0 :: []) ∧ ([] : List Nat).length < 7 ∧ replicaTarget L [0] = some 1
    ∧ (copying 64 false).hub.serving = some (3, 7) ∧ ((copying 64 false).die 7).rcopyFault = false ∧ (64 < 65 ∧ ((copying 64 false).die 7).xsz.toNat ≤ 64) ∧ ((copying 0 true).die 7).rcopyFault = true
    ∧ (R.die 7).updates = [] ∧ ((R.modDie 7 (fun x => { x with updates := [(3, 7)], applied := true })).die 7).updates = (3, 7) :: [] ∧ (R.die 7).oldCaptures.all (isComplete R) = true
    ∧ ([0].all (isComplete { R with hub := { launches := [launch1] } })) = false ∧ isOk (readNow L 0 0 0 16).2 = true ∧ (writeNow L 0 0 0 (natBytes 16 1)).2.isNone = true := by decide +kernel

def gated (g : Gate) : State := L.modCore 0 (fun k => { k with gate := g })
/-- The hold-up of die 0 began at cycle 0; `booted g` is core 0 with gate g after the boot; `missed op` an access of context 0 that misses the window. -/
def holdup0 (s : State) : State := { s with dies := [(0, { holdup := some 0 })] }
def booted (g : Gate) : State := { gated g with hub := { bootst := 1 } }
theorem witness_PowerEvents :
    (R.core 0).dirtyBlocks = [] ∧ (L.core 0).gate = .on ∧ (L.cluster 0).busy = false ∧ ((R.modCore 0 (fun k => { k with cellar := { k.cellar with dirty := [16383] } })).core 0).dirtyBlocks = 16383 :: []
    ∧ ((R.modCore 0 (fun k => { k with cellar := { k.cellar with dirty := [32768, 33727] } })).core 0).dirtyBlocks = 32768 :: [33727]
    ∧ (opHead 0x02A 1).ctx 0 0 = { L.ctx 0 0 with ops := ⟨0, .csrw 0x02A 1⟩ :: [] } ∧ storesDone (opHead 0x02A 1) 0 0 0 = true ∧ (1 : Word).getLsbD 0 = true ∧ (opHead 0x02A 1).stopFree 0 = true ∧ ((opHead 0x02A 1).core 0).killing = false
    ∧ clocked (opHead 0x02A 1) 0 = true ∧ gateHeld (opHead 0x02A 1) 0 = false ∧ cutHeld (opHead 0x02A 1) 0 = false ∧ gateHeld (doing (acc (.store 1))) 0 = true
    ∧ ((booted .off).core 0).gate = .off ∧ ((booted .off).die (dieOf 0)).power = true ∧ (booted .off).hub.bootst = 1 ∧ wakeCause (gated .off) 0 .host = true ∧ wakeCause (gated .off) 0 .arrival = false
    ∧ (∃ a ∈ (doing { acc (.store 1) with core := 1 }).accesses, a.core ≠ 0 ∧ a.loc.home = 0) ∧ (∃ x ∈ (inAir 16).messages, x.dst / 4194304 = 0)
    ∧ ((gated (.waking 33968)).core 0).gate = .waking 33968 ∧ (gated .off).now < 33968 ∧ (33968 ≤ ({ gated (.waking 33968) with now := 33968 } : State).now)
    ∧ (L.cluster 63).busy = false ∧ (L.cluster 63).sel = false ∧ ((L.modCluster 63 (fun g => { g with busy := true, waiting := some true })).cluster 63).waiting = some (!false)
    ∧ ((L.modCluster 63 (fun g => { g with busy := true })).cluster 63).busy = true ∧ (L.cluster 63).waiting = none := by decide +kernel
theorem witness_PowerEvents_losses :
    (L.die 7).power = true ∧ (({ L with dies := [(7, { power := false })] }).die 7).power = false ∧ ((holdup0 L).die 0).holdup = some 0 ∧ ((holdup0 L).die 0).power = true ∧ (L.die 0).holdup = none
    ∧ 0 + 2048 ≤ ({ L with now := 2048 } : State).now ∧ ({ L with now := 2047 } : State).now < 0 + 2048 ∧ ((∀ a ∈ (holdup0 L).accesses, dieOf a.core ≠ 0) ∧ ∀ r ∈ (holdup0 L).replies, dieOf r.core ≠ 0)
    ∧ (∃ a ∈ (holdup0 (doing (acc (.load true)))).accesses, dieOf a.core = 0) ∧ (acc (.store 1)).ctx < 4
    ∧ ((gated .holdup).core 0).gate = .holdup ∧ (({ gated .holdup with dies := [(0, { power := false })] }).die (dieOf 0)).power = false ∧ (∃ i, i < 8 ∧ (({ L with dies := [(0, { power := false })] }).die i).power = true)
    ∧ ((booted .held).core 0).gate = .held ∧ (((booted .held).modCore 0 (fun k => { k with cellar := { k.cellar with state := 1 } })).core 0).cellar.state = 1 ∧ ((gated .held).modArch 0 (fun a => { a with run := none })).run 0 = none
    ∧ (let m := ((booted .held).core 0).cellar; m.archLost m.selectGen) = false ∧ (let m : Cellar := { ((booted .held).core 0).cellar with rec0 := { gen := 1 }, others := [(65536, { gen := 5 }), (65537, { gen := 6 })] }; m.archLost 1) = true
    ∧ R.hub.bootst = 0 ∧ ({ R with hub := { bootst := 1 } }).hub.bootst ≠ 0 ∧ (∃ d, d < 8 ∧ (R.die d).power = true) := by decide +kernel
/-- At the return of die 0, without any commit no core is held; a core that committed is. -/
theorem witness_PowerEvents_returns :
    ((returnCore { R with dies := [] } 0).core 0).gate ≠ .held ∧ ((returnCore ({ gated .off with dies := [] }.modCore 0 (fun k => { k with cellar := { k.cellar with rec0 := { gen := 1 } } })) 0).core 0).gate = .held := by decide +kernel

def boot (n : Nat) : State := { R with hub := { bootst := 1, sampEn := true, tmbox := [(0, BitVec.ofNat 8 n)] } }
theorem witness_TrustMonitorErrors :
    mboxNat (boot 0).hub 0 4 ≠ 1 ∧ mboxNat (boot 1).hub 0 4 = 1 ∧ mboxNat (boot 2).hub 0 4 = 2 ∧ mboxNat (boot 3).hub 0 4 = 3 ∧ (boot 3).hub.trust = none
    ∧ ({ R with hub := { trust := some (.keyclr 8191) } }).hub.trust = some (.keyclr 8191) ∧ (sget ({} : VecEntry) [(4096, { mask := true })] 4096).mask = true ∧ (sget {} R.hub.vectors 4096).mask = false
    ∧ ({ R with now := 1199 } : State).now < R.hub.powerAt + 1200 ∧ R.hub.powerAt + 1200 ≤ ({ R with now := 1200 } : State).now
    ∧ R.hub.sampEn = false ∧ (boot 0).hub.sampEn = true ∧ (boot 0).hub.bootst = 1 ∧ ((boot 0).die 7).power = true ∧ sget 0 (boot 0).hub.sampAt 511 ≤ (boot 0).now
    ∧ ((gated .off).core 0).gate ≠ .on ∧ (L.core 0).gate = .on ∧ (L.arch 0).freeze = none
    ∧ ((L.modArch 0 (fun a => { a with freeze := some ⟨.sram, 0, 24⟩ })).arch 0).freeze = some ⟨.sram, 0, 24⟩ ∧ (⟨.sram, 0, 24⟩ : Freeze).cause = .sram ∧ (23 < (⟨.sram, 0, 24⟩ : Freeze).until_ ∧ (⟨.sram, 0, 24⟩ : Freeze).until_ ≤ 24)
    ∧ (⟨.dirtyCap, 0, 0⟩ : Freeze).cause ≠ .sram
    ∧ (2 ∈ soft1.hbmSoft ∧ 2 ∉ R.hbmSoft) ∧ physOk R (2 ^ 41 - 1) 1 = false ∧ physOk R (2 ^ 40) 1 = true ∧ 0 ∉ R.hbmBad ∧ 0 ∈ ({ R with hbmBad := [0] }).hbmBad := by decide +kernel
theorem witness_TrustMonitorErrors_links :
    (R.link (.die 27)).state = 1 ∧ (R.link (.port 17)).state = 0 ∧ (R.link (.port 17)).disable = false
    ∧ ({ state := 2, failures := 2 } : LinkState).failures < 3 ∧ ({ state := 2, failures := 3 } : LinkState).failures = 3 ∧ ({ state := 2 } : LinkState).since + 12000 ≤ 12000 ∧ 11999 < ({ state := 2 } : LinkState).since + 12000
    ∧ (({ R with hub := { links := [(0, { state := 2, failures := 2 })] } }).hub.links.length = 1)
    ∧ (manyMismatches {} = false ∧ linkStale R (.die 0) = false ∧ manyMismatches { flit := 1039, mismatches := (List.range 16).map (fun i => 31 - i) } = true
      ∧ manyMismatches { flit := 1040, mismatches := (List.range 16).map (fun i => 31 - i) } = false)
    ∧ (∃ a ∈ ({ doing { acc (.load true) with loc := .slice 64 0 } with now := 4096 } : State).accesses, (dieOf a.core = 0 ↔ a.loc.die ≠ 0) ∧ a.issued + 4096 ≤ 4096)
    ∧ (∀ i ∈ R.cores, ∀ k ∈ (R.eng i.1 .st).flight, 17 ∉ k.acks)
    ∧ pathIn ({ R with hub := { links := [(0, { state := 3 })] } }) (dieOf 0) (dieOf 64) 3 = true ∧ pathIn R (dieOf 0) (dieOf 64) 3 = false ∧ ({ reply0 with access := some (acc (.load true)) } : Reply).fault = none := by decide +kernel

def dbgS (d : Debug) : State := L.modCore 0 (fun k => { k with dbg := d })
theorem witness_DebuggerAndHost :
    (L.core 0).dbg.stepping = false ∧ ((dbgS { stepping := true }).core 0).dbg.stepping = true ∧ ((L.core 0).dbg.halt = false ∧ (L.core 0).stop = none) ∧ (6 < 7 ∧ 6 ≤ 6 ∧ 4 ≤ 4 ∧ 3 < 4)
    ∧ ((dbgS { halt := true }).core 0).dbg.halt = true ∧ ((dbgS { halt := true, injV := true }).core 0).dbg.injV = true ∧ ((dbgS { halt := true, injV := true }).core 0).dbg.injecting = false
    ∧ (stopped.core 0).stop = some ⟨1, 0⟩ ∧ (⟨1, 0⟩ : Stop).code < 0x40 ∧ 0x42 < (⟨0x43, 0⟩ : Stop).code ∧ (0x40 ≤ (⟨0x40, 0⟩ : Stop).code ∧ (⟨0x42, 0⟩ : Stop).code ≤ 0x42)
    ∧ R.run 0 = none ∧ (L.run 0).isSome = true ∧ (1 : BitVec 32).getLsbD 0 = true ∧ (0 : BitVec 32).getLsbD 0 = false
    ∧ physOk R 0 8 = true ∧ physOk R 79999999999 2 = false ∧ hallOpen R 4194300 8 = true ∧ hallOpen { R with dies := [(0, { power := false })] } 4194300 8 = false ∧ (∀ h ∈ hallCores 4194300 8, blockedBy R hubEnd (.slice h 0) = none)
    ∧ (hallOpen (gated .off) 4194300 8 = true ∧ (hallCores 4194300 8).find? (fun c => (blockedBy (gated .off) hubEnd (.slice c 0)).isSome) = some 0) ∧ (∀ d < 4, (R.core d).spad.wf = true)
    ∧ (opHead 0x008 1).ctx 0 0 = { L.ctx 0 0 with ops := ⟨0, .csrw 0x008 1⟩ :: [] } ∧ storesDone (opHead 0x008 1) 0 0 0 = true ∧ ownStep (opHead 0x008 1) 0 0x008 1 = false
    ∧ (R.wq 4095).en = false ∧ (7 < 8 ∧ 17 < 18 ∧ 511 < 512 ∧ 4159 < 4160) ∧ hallOpen R 0 0 = true ∧ physOk R (2 ^ 41) 1 = false
    ∧ ((dbgS { stepping := true }).core 0).dbg.stepping = true ∧ ((stopped.core 0).dbg.stepping = false ∧ ((dbgS { halt := true }).core 0).stop = none ∧ (L.core 0).stop = none) := by decide +kernel

/-- A word at the start of an instruction memory, and what runs there. -/
def atSc : State := R.withFetchWord 32 0x04100005
def atLd : State := R.withFetchWord 16 0x8005
def atCp : State := R.withFetchWord 64 0
theorem witness_StepRunsTheDecoded :
    atSc.agenda = .issue 0 .sc :: [] ∧ tooLate { atSc with agenda := [] } (.issue 0 .sc) = false ∧ scPick { atSc with agenda := [] } 0 = some 0 ∧ (atSc.core 0).dbg.injecting = false ∧ (atSc.core 0).dbg.stepping = false ∧ (atSc.ctx 0 0).pc.toNat = 0
    ∧ imPoison atSc 0 3 0 = false ∧ (okInstr (decodeSc (bytesNat (memBytes (atSc.core 0).imSc 0 4)))) = some (.addi 1 0 5)
    ∧ (match exec (.addi 1 0 5) (scBegin { atSc with agenda := [] } 0 0) with | .next t => decide ((t.core 0).dirtyCount ≤ (t.core 0).cellar.cap) && t.stopFree 0 | _ => false) = true
    ∧ atLd.agenda = .issue 0 .ld :: [] ∧ tooLate { atLd with agenda := [] } (.issue 0 .ld) = false ∧ (atLd.core 0).dbg.stepping = false ∧ Eng.ld ≠ .cp ∧ engReady { atLd with agenda := [] } 0 .ld = true ∧ (atLd.eng 0 .ld).pc < 8192 ∧ (atLd.eng 0 .ld).skip = none ∧ imPoison atLd 0 (engUnit .ld) 0 = false
    ∧ okInstr (decodeEngFor .ld (bytesNat (memBytes (engMem atLd 0 .ld) 0 2))) = some (.lit 5)
    ∧ (match exec (.lit 5) (({ atLd with agenda := [] }).atEngine 0 .ld) with | .next t => decide ((t.core 0).dirtyCount ≤ (t.core 0).cellar.cap) && t.stopFree 0 | _ => false) = true
    ∧ atCp.agenda = .issue 0 .cp :: [] ∧ tooLate { atCp with agenda := [] } (.issue 0 .cp) = false ∧ cpReady { atCp with agenda := [] } 0 = true
    ∧ (match cpFetch { atCp with agenda := [] } 0 with | .go v _ slots => (match runSlots 0 slots v with | .next t => decide (((closeBundle t 0 ⟨false, false, false, false⟩).core 0).dirtyCount ≤ 2048) && (closeBundle t 0 ⟨false, false, false, false⟩).stopFree 0 | _ => false) | _ => false) = true
    ∧ encode .slotWheelAdvance = none ∧ (encode (.add 1 2 3)).isSome = true ∧ R.agenda = [] := by decide +kernel
theorem witness_StepRunsTheDecoded_tick : (tick R).blocked = none
    ∧ tooLate R (.event .slotWheelAdvance) = false ∧ tooLate { (doing (acc (.store 1))) with today := [.access 0 9 9 none] } (.event (.accessPerform (.sc 0))) = true
    ∧ (match exec .slotWheelAdvance R with | .next t => decide ((t.core 0).dirtyCount ≤ (t.core 0).cellar.cap) | _ => false) = true := by decide +kernel

theorem witness_DecodeEncodeAgree :
    Instr.wf (.add 63 0 63) = true ∧ encode (.add 3 1 2) = some (32, 0x00304200) ∧ 0x00304200 < 2 ^ 32 ∧ decodeTableWord 32 0x00304200 = some (.add 3 1 2)
    ∧ decodeTableWord 16 0x8005 = some (.lit 5) ∧ decodeTableWord 64 0x2000600E06080000 = some (.vadd 0 0 .f32 .rne 7 3 4) ∧ 0x2000600E06080000 < 2 ^ 64
    ∧ (Instr.vadd 0 0 .f32 .rne 7 3 4).homeSlot ≠ some .c ∧ (Instr.kadd 1 31 2 3).homeSlot = some .c ∧ 0x1410F81018000000 % 16 = 0 := by decide +kernel
theorem witness_StepKeepsMemoryForm : MemoryWf R ∧ (match step R with | .next _ => true | _ => false) = true :=
  ⟨⟨rfl, fun _ => ⟨rfl, rfl, rfl, rfl, rfl⟩⟩, by decide +kernel⟩

/-! The values at which the clauses on numbers, tables and checks meet. -/

theorem witness_AccessChecks_deque :
    ((2 ^ 57 - 32 : Nat) < 2 ^ 57 ∧ 2 ^ 31 ≤ (2 ^ 57 - 32 : Nat)) ∧ (2 ^ 31 - 1) % 32 ≠ 0 ∧ (2 ^ 31 - 32) % 32 = 0 ∧ (2 ^ 31 - 32) % 64 ≠ 0 ∧ (2 ^ 31 - 64) % 64 = 0
    ∧ (∃ p ∈ (ctx0 (fun t => { t with lngos := [(15, 0)] })).me.lngos, p.1 = 15) ∧ (∀ p ∈ L.me.lngos, p.1 ≠ 15)
    ∧ lookup L (dieOf L.c) (L.tctx L.c) 0 true = .loc (.slice 0 0) ∧ gateShut L 0 0 0 (Loc.slice 0 0).home = false ∧ gateShut (doing { acc (.store 1) with loc := .slice 1 0 }) 0 0 0 0 = true
    ∧ wheelTurn L 0 = false := by decide

theorem witness_AccessesFail_hall :
    4063232 < 4063231 + 2 ∧ (4063231 + 1 ≤ 4063232 ∧ hallRefuse (runs (fun r => { r with spneed := 4063232 })) 0 0 4063231 1 = none)
    ∧ hallRefuse (runs (fun r => { r with spneed := 4063231 })) 0 0 4063231 1 = some 2 ∧ hallRefuse (runs (fun r => { r with spneed := 4063232 })) 1 0 4063231 1 = some 2 := by decide

theorem witness_DequesAtHome_bad :
    (⟨0, 1, 0, 2⟩ : Deque).bad 0 = false ∧ (⟨0, 1, 0, 3⟩ : Deque).bad 0 = true ∧ (⟨0, 0, 0, 0⟩ : Deque).bad 0 = true ∧ (⟨0, 16, 0, 0⟩ : Deque).bad 0 = false ∧ (⟨0, 17, 0, 0⟩ : Deque).bad 0 = true
    ∧ (⟨4, 1, 0, 0⟩ : Deque).bad 0 = true ∧ (⟨4194288, 1, 0, 0⟩ : Deque).bad 0 = false ∧ (⟨4194296, 1, 0, 0⟩ : Deque).bad 0 = true ∧ (⟨4194296, 1, 0, 0⟩ : Deque).bad 1 = true
    ∧ (⟨0, 1, 2 ^ 64 - 1, 0⟩ : Deque).size = 1 := by decide

theorem witness_CsrWords_reads :
    (L.core L.c).gate = .on ∧ ((L.modCore 0 (fun k => { k with gate := .off })).core 0).gate ≠ .on ∧ L.me.invals = [] ∧ (ctx0 (fun t => { t with invals := [0] })).me.invals ≠ []
    ∧ ((runs (fun r => { r with wheelN := 64 })).run 0).map (fun r => r.wheelN) = some 64 ∧ (L.run 0).map (fun r => r.wheelN) = some 0
    ∧ (L.ring 0 0).bytes.toNat / (512 * (L.ring 0 0).tileu.toNat) = 0 ∧ 0 < (cpC.ring 0 0).bytes.toNat / (512 * (cpC.ring 0 0).tileu.toNat) := by decide

theorem witness_SchedulingWords_record :
    isOk (readBytes L 0 0 64 64).2 = true ∧ isOk (readBytes R 0 0 64 64).2 = false ∧ isOk (checkRecord L 0 0 (parseRecord (natBytes 64 0)) 1 false).2 = false
    ∧ (L.die 0).pool.length < 1024 ∧ 1024 ≤ ((L.modDie 0 (fun x => { x with pool := List.replicate 1024 fetchHeld })).die 0).pool.length := by decide +kernel

theorem witness_VectorArithmetic_values :
    (∀ t ∈ [ElemType.f32, .f16, .bf16, .e4m3, .e5m2], (fmtOf t).isSome = true) ∧ ElemType.u8.isInt = true ∧ ElemType.i64.isInt = true
    ∧ readVal .e4m3 0x7E = .fin false 14 5 ∧ readVal .e4m3 0x7F = .nan ∧ readVal .e5m2 0x7C = .inf false ∧ readVal .f32 0xFF800001 = .nan ∧ readVal .f16 0x8001 = .fin true 1 (-24)
    ∧ FVal.add (.fin false 1 0) (.fin true 1 0) = .fin false 0 0 ∧ FVal.add (.fin true 0 0) (.fin true 0 3) = .fin true 0 0 := by decide

theorem witness_VectorPermutes_trees :
    (∀ i, i < 128 → cpC.active 0 i = true) ∧ cpC.active 1 0 = false ∧ ([1, 2] : List Nat).length = 2 ^ 1 ∧ (1 < 10)
    ∧ (ElemType.u8.isInt = true ∧ ElemType.u8.signed = false) ∧ ElemType.f32.isInt = false ∧ (FVal.fin true 0 0).lt (.fin false 0 0) = false ∧ (FVal.fin true 0 0).signBit = true := by decide +kernel

theorem witness_VectorMemory_numbers :
    ((readVal .f32 0xC3150000).number = -149 ∧ (readVal .f32 0x42FE0000).number = 127) ∧ (readVal .f32 0x43000000).number = 128
    ∧ ((readVal .f32 0x3F000000).number = (2 : ℚ) ^ (-1 : ℤ) ∧ (readVal .f32 0xBF800000).number < 0) ∧ (readVal .f32 1).number ≠ 0 ∧ (1 : Nat) / 2 ^ 23 % 256 = 0 := by
  have h1 : readVal .f32 0xC3150000 = .fin true 9764864 (-16) := by decide
  have h2 : readVal .f32 0x42FE0000 = .fin false 16646144 (-17) := by decide
  have h3 : readVal .f32 0x43000000 = .fin false 8388608 (-16) := by decide
  have h4 : readVal .f32 0x3F000000 = .fin false 8388608 (-24) := by decide
  have h5 : readVal .f32 0xBF800000 = .fin true 8388608 (-23) := by decide
  have h6 : readVal .f32 1 = .fin false 1 (-149) := by decide
  rw [h1, h2, h3, h4, h5, h6]
  norm_num [FVal.number]

theorem witness_VectorMemory_segments :
    ((readVal .f32 0).lt (readVal .f32 ((0 : BitVec 10240).toNat / 2 ^ (8 * (4 * 63)) % 2 ^ 32)) = false ∧ readVal .f32 0 ≠ .nan)
    ∧ (∀ j, j < 64 → 0 < j → (readVal .f32 0xBF800000).lt (readVal .f32 ((0 : BitVec 10240).toNat / 2 ^ (8 * (4 * j)) % 2 ^ 32)) = true) ∧ readVal .f32 0x7FC00000 = .nan := by decide +kernel

theorem witness_MatrixSlots_tile :
    (((sget {} (cpC.core 0).acc 63).elems.map (fun x => x.1)).Pairwise (· < ·)) ∧ ([(0, (⟨0, 0, 0, 8⟩ : AccElem)), (4095, ⟨0, 0, 0, 0⟩)].map (fun x => x.1)).Pairwise (· < ·)
    ∧ (8 : BitVec 16).getLsbD 3 = true ∧ (7 : BitVec 16).getLsbD 3 = false ∧ (⟨0, 0x8000, 0, 0⟩ : AccElem).mantissa = -2 ^ 63 := by decide

theorem witness_MatrixQueue_blocks :
    (operandBlock 0 0xF 0 0).2.2.getD 0 0 = -1 ∧ (operandBlock 3 0xFF 0 0).2.2.getD 0 0 = 255 ∧ (operandBlock 4 0xF 0 0).2.2.getD 0 0 = -1 ∧ (operandBlock 7 0xF 0 0).2.2.getD 0 0 = -12
    ∧ operandBlock 8 0 0 0 = (0, -133, List.replicate 32 0) ∧ (operandBlock 8 0x7F 0 0).1 = 255
    ∧ ((operandBlock 10 0x3F80 0 0).1 = 127 ∧ (operandBlock 10 0x3F80 0 0).2.2.getD 0 0 = 64)
    ∧ (2 : ℚ) ^ (0 : ℤ) ≤ |(decodeF ⟨8, 7, 127, 0x7F7F, true, 0x7FC0, false⟩ 0x3F80).number| ∧ |(decodeF ⟨8, 7, 127, 0x7F7F, true, 0x7FC0, false⟩ 0x3F80).number| < (2 : ℚ) ^ ((0 : ℤ) + 1) := by
  refine ⟨by decide, by decide, by decide, by decide, by decide, by decide, by decide, ?_⟩
  have h : decodeF ⟨8, 7, 127, 0x7F7F, true, 0x7FC0, false⟩ 0x3F80 = .fin false 128 (-7) := by decide
  rw [h]; norm_num [FVal.number]

theorem witness_WheelWalksInvalidations_entry :
    entryFault 0 4 false = some 1 ∧ entryFault 9 4 false = some 2 ∧ entryFault (2 ^ 50 + 5) 0 false = some 2 ∧ entryFault (2 ^ 51 + 5) 0 false = none ∧ entryFault 5 2 false = some 3 ∧ entryFault 1 0 false = some 3
    ∧ entryFault (2 ^ 16 + 5) 1 false = some 4 ∧ entryFault (2 ^ 16 + 5) 0 false = none ∧ entryFault 5 0 true = some 5 ∧ entryFault 7 0 true = none
    ∧ entryFault (80000000000 / 2 ^ 16 * 2 ^ 16 + 5) 0 false = some 6 ∧ entryFault ((80000000000 / 2 ^ 16 - 1) * 2 ^ 16 + 5) 0 false = none := by decide

theorem witness_PlacementAndPoints_cohort :
    0 < held1.body.c ∧ cohortOk choosing held1 [{ place0 with core := 511 }] = true ∧ cohortOk choosing held1 [{ place0 with core := 512 }] = false ∧ cohortOk choosing held1 [{ place0 with area := 512 }] = false
    ∧ cohortOk choosing held1 [{ place0 with regs := [63] }] = true ∧ cohortOk choosing held1 [{ place0 with regs := [64] }] = false ∧ cohortOk choosing held1 [{ place0 with frame := 8 }] = false
    ∧ cohortOk choosing { held1 with hdr := { held1.hdr with wheel := 64 } } [{ place0 with wheelP := 63 }] = true ∧ cohortOk choosing { held1 with hdr := { held1.hdr with wheel := 64 } } [{ place0 with wheelP := 64 }] = false := by decide +kernel

/-! Witnesses for what holds things up, who goes first, and the accesses of commands and of passes. -/

/-- A fill of command 1 that has made an access; `dead0` is context 0 with a store of its in a slice whose owner lost it. -/
def open1 : Cmd := { fill1 with started := true, accessed := true, pos := 1 }
def dead0 : State := ctx0 (fun t => { t with written := [(64, 2 ^ 64)] })
theorem witness_PfenceCommits_wide :
    (storesDone (ldF open1) 0 0 (ldF open1).seq = true ∧ coveredCores (ldF open1) 0 0 .core = [0] ∧ unreachable (ldF open1) 0 0 0 = false ∧ cutHeld (ldF open1) 0 = true)
    ∧ (storesDone dead0 0 0 dead0.seq = true ∧ coveredCores dead0 0 0 .module = [0, 64] ∧ unreachable dead0 0 0 64 = true ∧ unreachable dead0 0 0 0 = false ∧ cutHeld dead0 0 = false)
    ∧ (L.core 0).stopping = none := by decide +kernel

/-- The contexts of l may issue at core 0, and those of y give up their turn. -/
def line (l y : List Nat) : State := (l.foldl (fun s k => s.modCtx 0 k (fun t => { t with status := .running })) (ctx0 (fun t => { t with status := .dormant }))).modArch 0 (fun a => { a with yielded := y })
theorem witness_ContextWords_turns :
    (((line [0, 3] [0]).arch 0).yielded = [0] ∧ scReady (line [0, 3] [0]) 0 3 = true) ∧ (scLine (line [0, 3] [0]) 0 = 0 :: 3 :: [] ∧ 0 ∈ ((line [0, 3] [0]).arch 0).yielded)
    ∧ scLine (line [0] [0]) 0 = [0] ∧ (scLine (line [0, 3] [3]) 0 = 0 :: [3] ∧ 0 ∉ ((line [0, 3] [3]).arch 0).yielded) := by decide +kernel

theorem witness_BarrierWords_early :
    (∃ x ∈ ownAccesses (doing (acc (.store 1))) 0 0, x.seq < 1) ∧ sliceUp (L.modCore 1 (fun k => { k with gate := .off })) 1 = false ∧ sliceUp (L.modCore 0 (fun k => { k with gate := .off })) 0 = false := by decide

/-- Context 3 waits with an FMTQ of number 0; context 0 may have one of number 1. -/
def fmtqs (w : Wait) : State := { (ctx0 (fun t => { t with wait := w })).modCtx 0 3 (fun t => { t with wait := .fmtq 0 }) with seq := 1 }
theorem witness_LandingWords_order :
    ((fmtqs .none).seqs 0).fq.length < ((fmtqs .none).seqs 0).fqCap ∧ ((fmtqs .none).ctx 0 3).wait = .fmtq 0 ∧ ¬ ((fmtqs .none).seq ≤ 0) ∧ (fmtqs (.fmtq 0)).me.wait = .fmtq 0
    ∧ (∀ k, k < 4 → (L.ctx 0 k).wait = .none) := by decide

theorem witness_HandlerEnds_quiet :
    (storesDone L 0 0 0 = true ∧ L.me.busy = [] ∧ L.me.holds = 0 ∧ L.me.ops = [])
    ∧ ((ctx0 (fun t => { t with busy := [5] })).me.busy ≠ [] ∧ (ctx0 (fun t => { t with holds := 1 })).me.holds ≠ 0 ∧ (opHead 0x008 1).me.ops ≠ []) := by decide

/-- A VLD of bytes whose active elements are the first 32, in an area of 32 bytes. -/
def some32 : State := (cpC.modRun 0 (fun r => { r with spneed := 32 })).modCp 0 (fun p => { p with m := [(1, 2 ^ 32 - 1)] })
theorem witness_SlotChecks_lanes :
    (∀ j, j < ElemType.i8.count → some32.active 1 j = true → 0 + (((j + 1) * ElemType.i8.width + 7) / 8 : Nat) ≤ spneedOf some32 0) ∧ some32.active 1 31 = true ∧ some32.active 1 32 = false
    ∧ (some32.active 0 32 = true ∧ spneedOf some32 0 < ((32 + 1) * ElemType.i8.width + 7) / 8)
    ∧ maskedPoison (some32.modCore 0 (fun k => { k with poisonSpad := [0] })) 0 .i8 1 = true ∧ maskedPoison (some32.modCore 0 (fun k => { k with poisonSpad := [1] })) 0 .i8 1 = false := by decide +kernel

/-! The life of a command in a stop, a KILL and a cut: `stopOn f` is core 0 with f, on whose LD the command is in flight. -/

def stopOn (k : Cmd) (f : Core → Core) : State := (ldF k).modCore 0 f
/-- A SEND of LD's number 1 that waits in the replay queue. -/
def send1 : Cmd := { cmd 1 (.send noTok false) [0, 64, 8] with started := true, sent := true, pos := 2 }
def waiting1 : State := (stopOn send1 (fun k => { k with cutting := true })).modEng 0 .ld (fun g => { g with replays := [⟨msg 16, 0, 256, false⟩] })
theorem witness_CommandLives_goes :
    cmdGoes (ldF fill1) 0 .ld fill1 = true ∧ cmdGoes (stopOn fill1 (fun k => { k with stop := some ⟨1, 0⟩ })) 0 .ld fill1 = false
    ∧ (((stopOn fill1 (fun k => { k with killing := true })).core 0).killing = true ∧ fill1.accessed = false ∧ open1.accessed = true ∧ cmdGoes (stopOn open1 (fun k => { k with killing := true })) 0 .ld open1 = true)
    ∧ ((waiting1.core 0).cutting = true ∧ (waiting1.core 0).stopping = none ∧ replayWaits waiting1 0 .ld send1 = true ∧ replayWaits (ldF open1) 0 .ld open1 = false)
    ∧ (∃ j ∈ ((ldF { fill1 with faulted := some (faultOf 4 3 0) }).eng 0 .ld).flight, j.faulted.isSome = true) := by decide +kernel

/-! The accesses of a data command: for each source and each destination a command of LD in flight whose next access it is. `next k` says that the access is ready, in Bool. -/

def nextOf (s : State) (k : Cmd) : Bool :=
  findFlight s 0 .ld k.num == some k && cmdGoes s 0 .ld k && k.started && k.faulted.isNone && decide (k.pos < 2 * unitCount s 0 k) && !cmdHeld s 0 .ld k (earlierCmds s 0 .ld k.num)
theorem nextOf_ready {s : State} {k : Cmd} (h : nextOf s k = true) : AccessReady s 0 .ld k := by
  simp only [nextOf, Bool.and_eq_true, beq_iff_eq, Option.isNone_iff_eq_none, decide_eq_true_eq, Bool.not_eq_true'] at h
  exact ⟨h.1.1.1.1.1, h.1.1.1.1.2, h.1.1.1.2, h.1.1.2, h.1.2, h.2⟩
/-- A command that has started, at a place of its accesses, with what it has read. -/
def going (i : Instr) (args : List Word) (pos : Nat) (buf : List Byte) : Cmd := { cmd 1 i args with started := true, pos := pos, buf := buf }
def b8 : List Byte := natBytes 8 7
def copy1 (pos : Nat) (buf : List Byte) : Cmd := going (.copy noTok) [128, 64, 8] pos buf
def fillG : Cmd := going (.fill noTok) [64, 8, 0xFF] 0 []
def tileG (pad : Bool) (pos : Nat) (buf : List Byte) : Cmd := { going (.tile noTok pad) [64, 0] pos buf with lnt := lnt1 }
def drainG (pos : Nat) (buf : List Byte) : Cmd := { going (.drain noTok false false) [64, 0] pos buf with lnt := lnt1 }
def mcastG : Cmd := { going (.mcast noTok) [64, 65536] 1 [7] with lnt := lnt1, targets := [(0, 1)] }
def accstG : Cmd := going (.accst noTok false) [64, 256, 0x013F023F] 0 []
def gathG (pos : Nat) (buf : List Byte) : Cmd := going (.gath noTok false) [64, 128, 65536] pos buf
def scatG : Cmd := { going (.scat noTok false true false false) [64, 128, 0x10201] 3 (natBytes 4 1) with aux := [0] }
def sendG : Cmd := going (.send noTok false) [64, 64, 8] 1 b8
def kvcpG (far : Word) (pos : Nat) (buf : List Byte) (aux : List Word) : Cmd := { going (.kvcp noTok false true false) [64, 128, 0, far] pos buf with aux := aux }
def kvcpC (far : Word) : Cmd := { going (.kvcp noTok false false true) [64, 128, 0, far] 5 b8 with aux := [0, 0x100000008, 0, 0, 0, 0x100000008, 0, 0], locs := [] }
def ringS (k : Cmd) : State := ldR k (ring2 1) lnt1
theorem witness_RingsAndSlots_sources :
    (nextOf (ldF fillG) fillG = true ∧ (unitOf (ldF fillG) 0 fillG 0).1 = .none ∧ fillG.pos % 2 = 0)
    ∧ (let s := (ringS (tileG true 0 [])).modRun 0 (fun r => { r with padmask := 0 }); nextOf s (tileG true 0 []) = true ∧ (unitOf s 0 (tileG true 0 []) 0).1 = .zeros 1)
    ∧ (nextOf (ringS (drainG 0 [])) (drainG 0 []) = true ∧ (unitOf (ringS (drainG 0 [])) 0 (drainG 0 []) 0).1 = .own 0 1 ∧ (ringS (drainG 0 [])).spadPoison 0 0 1 = false
        ∧ ((ringS (drainG 0 [])).modCore 0 (fun k => { k with poisonSpad := [0] })).spadPoison 0 0 1 = true)
    ∧ (nextOf (ldF (copy1 0 [])) (copy1 0 []) = true ∧ (unitOf (ldF (copy1 0 [])) 0 (copy1 0 []) 0).1 = .virt 64 8 ∧ lookup (ldF (copy1 0 [])) 0 0 64 false = .loc (.slice 0 64)
        ∧ (ldF (copy1 0 [])).locPoison (.slice 0 64) 8 = false ∧ ((ldF (copy1 0 [])).modCore 0 (fun k => { k with poisonSpad := [1] })).locPoison (.slice 0 64) 8 = true)
    ∧ (nextOf (ldF accstG) accstG = true ∧ (unitOf (ldF accstG) 0 accstG 0).1 = .row 63 63 .i8 .rne
        ∧ (∀ j, j < 64 → (sget {} (sget {} ((ldF accstG).core 0).acc 63).elems (64 * 63 + j)).poisoned = false) ∧ ({ f := 16, g := 0, m := 0, x := 0 } : AccElem).poisoned = true) := by decide +kernel
theorem witness_RingsAndSlots_reaches : Reaches (ldF (copy1 0 [])) 0 .ld 1 64 8 (.slice 0 64) := by unfold Reaches ReachesFrom; decide +kernel
theorem witness_RingsAndSlots_destinations :
    (nextOf (ringS (drainG 1 [7])) (drainG 1 [7]) = true ∧ (unitOf (ringS (drainG 1 [7])) 0 (drainG 1 [7]) 0).2 = .virt 64 ∧ (1 : Nat) % 2 = 1)
    ∧ (let s := ldF (going (.scat noTok false false false true) [64, 128, 0x10201] 1 []); let t := s.modRun 0 (fun r => { r with padmask := 0 })
        nextOf t (going (.scat noTok false false false true) [64, 128, 0x10201] 1 []) = true ∧ (unitOf t 0 (going (.scat noTok false false false true) [64, 128, 0x10201] 1 []) 0).2 = .none)
    ∧ (nextOf (ringS (tileG false 1 [7])) (tileG false 1 [7]) = true ∧ (unitOf (ringS (tileG false 1 [7])) 0 (tileG false 1 [7]) 0).2 = .own 0 0 ∧ sliceUp (ringS (tileG false 1 [7])) 0 = true)
    ∧ (nextOf (ringS mcastG) mcastG = true ∧ (unitOf (ringS mcastG) 0 mcastG 0).2 = .places [(0, 512)] ∧ mayReach (ringS mcastG) 0 (.command 0 .ld 1) = true)
    ∧ (nextOf (ldF scatG) scatG = true ∧ (unitOf (ldF scatG) 0 scatG 1).2 = .add 64 false ∧ scatG.acks = [] ∧ 64 % 4 = 0 ∧ scatG.sub + 4 ≤ 4)
    ∧ (nextOf (ldF (gathG 1 (natBytes 4 0))) (gathG 1 (natBytes 4 0)) = true ∧ (unitOf (ldF (gathG 1 (natBytes 4 0))) 0 (gathG 1 (natBytes 4 0)) 0).2 = .aux)
    ∧ (nextOf (ldF sendG) sendG = true ∧ (unitOf (ldF sendG) 0 sendG 0).2 = .message 64 ∧ (64 < 2 ^ 31) ∧ (∀ p ∈ ((ldF sendG).eng 0 .ld).replays, p.msg.dst / 4194304 ≠ 64 / 4194304))
    ∧ ((2 : Nat) ^ 57 ≤ 2 ^ 57 ∧ (2 : Nat) ^ 31 < 2 ^ 57 ∧ (∃ p ∈ (waiting1.eng 0 .ld).replays, p.msg.dst / 4194304 = 64 / 4194304)) := by decide +kernel
/-- KVCP: the page of this module, and packets for module 5, over its port 1. -/
def farS (k : Cmd) : State := { ldF k with hub := { routes := [(5, 2)], links := [(9, { state := 1 })] } }
theorem witness_RingsAndSlots_kvcp :
    (nextOf (ldF (kvcpC 0xFFFF)) (kvcpC 0xFFFF) = true ∧ (unitOf (ldF (kvcpC 0xFFFF)) 0 (kvcpC 0xFFFF) 2).2 = .page 0 8 0 ∧ (kvcpC 0xFFFF).locs.length < pageCount 0 8 ∧ lookup (ldF (kvcpC 0xFFFF)) 0 0 0 true = .loc (.slice 0 0)
        ∧ pageCount 0 8 ≤ ({ kvcpC 0xFFFF with locs := [.slice 0 0] } : Cmd).locs.length)
    ∧ (nextOf (farS (kvcpC 5)) (kvcpC 5) = true ∧ (unitOf (farS (kvcpC 5)) 0 (kvcpC 5) 2).2 = .remote 5 .copy 0 ∧ (livePorts (farS (kvcpC 5)) 5)[0 % (livePorts (farS (kvcpC 5)) 5).length]? = some 1 ∧ ((farS (kvcpC 5)).link (.port 1)).state = 1
        ∧ livePorts (ldF (kvcpC 5)) 5 = [])
    ∧ (kvcpFault (kvcpC 0xFFFF) = none ∧ (kvcpFault { kvcpC 0xFFFF with aux := [0, 8, 0, 0, 0, 0x100000008, 0, 0] }).isSome = true) := by decide +kernel

/-- A trap and an arrival at core 0, of the cycles given; in `busy63` a handler of the trap's slot runs. -/
def both (b a : Nat) : State := (L.modArch 0 (fun x => { x with btraps := [{ trap0 with at_ := b }] })).modSeqs 0 (fun q => { q with arrivals := [{ arr0 with at_ := a }] })
def busy63 : State := (both 5 5).modCtx 0 3 (fun t => { t with status := .running, slot := some 63 })
theorem witness_HandlersStart_order :
    ((((both 6 5).arch 0).btraps = { trap0 with at_ := 6 } :: [] ∧ ((both 6 5).seqs 0).arrivals = { arr0 with at_ := 5 } :: []) ∧ ({ arr0 with at_ := 5 } : Arrival).at_ < ({ trap0 with at_ := 6 } : BTrap).at_)
    ∧ (dormantHandler (both 5 5) 0 = some 1 ∧ (∀ j, (j = 1 ∨ j = 2 ∨ j = 3) → ((both 5 5).ctx 0 j).status ≠ .running) ∧ trap0.at_ ≤ arr0.at_)
    ∧ ((busy63.ctx 0 3).status = .running ∧ (busy63.ctx 0 3).slot = some trap0.slot ∧ dormantHandler busy63 0 = some 1 ∧ coreLive busy63 0 = true ∧ (busy63.run 0).map (fun r => r.ready) = some true)
    ∧ ((L.modRun 0 (fun r => { r with ready := false })).run 0).map (fun r => r.ready) = some false :=
  ⟨⟨⟨rfl, rfl⟩, by decide⟩, ⟨by decide, by rintro j (rfl | rfl | rfl) <;> decide, by decide⟩, by decide, by decide⟩

theorem witness_PlacementAndPoints_leaves :
    (victimOf runS held8 = some launch1 ∧ runS.launch launch1.id = some launch1) ∧ canPlace runS (leavingIds runS) held8 = false
    ∧ canPlace runS (leavingIds runS ++ (runS.hub.launches.filter (victimOk runS held8)).map (fun l => l.id)) held8 = true
    ∧ (leaveHeld runS 0 = false ∧ leaveHeld { runS with accesses := [acc (.store 1)] } 0 = true ∧ coresLeft launch1 = [0])
    ∧ (launch1.loadedAll = true ∧ ({ launch1 with loadedAll := false } : Launch).loadedAll = false) := by decide +kernel

/-- Two messages of core 64 to slice 0, and one to slice 1. -/
def msgs : State := { L with messages := [msg 16, { msg 16 with cmd := 2 }, { msg 16 with cmd := 3, dst := 4194304 }], retries := [msg 16, { msg 16 with cmd := 2 }] }
theorem witness_MessagesAndHooks_order :
    (∃ x ∈ msgs.messages.take 1, x.core = 64 ∧ x.dst / 4194304 = 0) ∧ (∀ x ∈ msgs.messages.take 2, x.core = 64 → x.dst / 4194304 ≠ 1)
    ∧ (∃ x ∈ msgs.retries.take 1, x.core = 64 ∧ x.dst / 4194304 = 0) ∧ (∀ x ∈ msgs.retries.take 0, x.core = 64 → x.dst / 4194304 ≠ 0)
    ∧ (mayReach (inAir 16) 0 (.message 64 1) = true ∧ mayReach { msgs with arrived := [(0, .message 64 2)] } 0 (.message 64 1) = false)
    ∧ ((0, Arriver.message 64 1) ∉ (inAir 16).arrived ∧ pathIn { msgs with hub := { links := [(1, { state := 2 })] } } (dieOf 64) (dieOf 0) 2 = true) := by decide +kernel

/-! A pass of die 0: of one row, one expert and one choice, with scores of four bytes at 64 in slice 0, its lists at 128 and 256 and its counts at 512. -/

def entry1 (valid : Nat) : BitVec 512 :=
  BitVec.ofNat 512 (64 + 2 ^ 64 + 2 ^ 96 + 2 ^ 112 + 4 * 2 ^ 128 + 4 * 2 ^ 160 + 128 * 2 ^ 192 + 256 * 2 ^ 256 + 512 * 2 ^ 320 + valid * 2 ^ 384)
def passOn (r : RouteRun) : State := L.modDie 0 (fun x => { x with rrun := some r })
def run1 (valid : Nat) : RouteRun := { passed with pass := ⟨0, entry1 valid, 0⟩, row := 0, histDone := false }
theorem witness_ExpertEvents_access :
    ((run1 0).fault = none ∧ (run1 0).outs = [] ∧ (run1 0).row < (entry1 0).toNat / 2 ^ 64 % 2 ^ 32 ∧ (run1 0).valid = none ∧ (entry1 0).toNat / 2 ^ 384 % 2 ^ 64 = 0 ∧ (entry1 768).toNat / 2 ^ 384 % 2 ^ 64 ≠ 0)
    ∧ ((passOn { run1 0 with valid := some true }).die 0).rrun = some { run1 0 with valid := some true } ∧ lookup (passOn (run1 0)) 0 0 64 false = .loc (.slice 0 64) ∧ (passOn (run1 0)).locPoison (.slice 0 64) 4 = false
    ∧ ({ run1 0 with row := 1, outs := [(128, natBytes 2 0)] } : RouteRun).outs = (128, natBytes 2 0) :: [] ∧ 0 < (natBytes 2 0).length ∧ lookup (passOn (run1 0)) 0 0 128 true = .loc (.slice 0 128)
    ∧ ((entry1 0).toNat / 2 ^ 64 % 2 ^ 32 ≤ 1 ∧ (run1 0).hlocs.length < 1 ∧ ({ run1 0 with hlocs := [.slice 0 512] } : RouteRun).hlocs[0]? = some (.slice 0 512))
    ∧ (∃ t, lookup ({ passOn (run1 0) with dies := [(0, { tlb := [⟨0, 2 ^ 15, false, 0, 0, false, false⟩] })] }) 0 0 (2 ^ 31) true = t) := ⟨by decide +kernel, by decide +kernel, by decide +kernel, by decide +kernel, by decide, by decide, by decide +kernel, by decide +kernel, ⟨_, rfl⟩⟩
theorem witness_ExpertEvents_reaches : ReachesFrom (passOn (run1 0)) 0 0 (.unit 0) 64 4 (.slice 0 64) ∧ HomeWf (passOn (run1 0)) (.slice 0 128) := by
  unfold ReachesFrom HomeWf; decide +kernel

/-! A hold-up with something in flight, a torn block, a lost store. -/

theorem witness_PowerEvents_flights :
    (∃ x ∈ (holdup0 { L with messages := [{ msg 16 with core := 0 }] }).messages, dieOf x.core = 0) ∧ (∃ r ∈ (holdup0 { L with replies := [reply0] }).replies, dieOf r.core = 0)
    ∧ (∃ p ∈ (holdup0 (ldF { send1 with acks := [1] })).cores, dieOf p.1 = 0 ∧ ∃ j ∈ ((holdup0 (ldF { send1 with acks := [1] })).eng p.1 .ld).flight, j.acks ≠ [])
    ∧ ((dead0.ctx 0 0).written.contains (64, 2 ^ 64) = true ∧ unreachable dead0 0 0 64 = true)
    ∧ ([5, 33727].find? (fun x => decide (6 ≤ x)) = some 33727 ∧ ∀ x ∈ [5, 6], x < 7)
    ∧ (wakeCause { L with arrived := [(0, .other)] } 0 .access = true ∧ wakeCause L 0 .access = false ∧ wakeCause waits 0 .placement = true ∧ wakeCause L 0 .placement = false)
    ∧ ((({ L with clusters := [(0, { busy := true, switchAt := 0 })], now := 24 } : State).clusters.map (fun p => p.1)).Nodup) := by decide +kernel

theorem witness_TrustMonitorErrors_flights :
    (L.cluster (clusterOf 0)).sel = false ∧ ((L.modCluster 0 (fun g => { g with sel := true })).cluster (clusterOf 0)).sel = true
    ∧ ((acc (.load true)).arrived = false ∧ ((Loc.slice 64 0).home, Arriver.access 0) ∉ L.arrived)
    ∧ (∃ i ∈ (ldF { send1 with acks := [1] }).cores, ∃ k ∈ ((ldF { send1 with acks := [1] }).eng i.1 .ld).flight, 1 ∈ k.acks ∧ k.dequeuedAt + 4096 ≤ 4096) := by decide +kernel

/-! Turns that wait, and turns past a cap: `capped n` is core 0 before the word of `atSc` with a cap of n blocks, of which one is dirty. -/

def capped (n : Nat) : State := { atSc.modCore 0 (fun k => { k with cellar := { k.cellar with cap := n, dirty := [5] } }) with agenda := [] }
def capTurned (s : State) : State := match exec (.addi 1 0 5) (scBegin s 0 0) with
  | .next t => noteBlocks t (ownWrites s t (.issue 0 .sc))
  | _ => s
/-- The host's read of the record at the head of queue 0, in the slice of a core that is off. -/
def headOff : State := { (gated .off) with hub := { bootst := 1, queues := [(0, { en := true, tail := 1 })] } }
theorem witness_StepRunsTheDecoded_caps :
    pastCap (capped 2048) (capTurned (capped 2048)) 0 = false ∧ (pastCap (capped 7) (capTurned (capped 7)) 0 = true ∧ oversize (capped 7) (capTurned (capped 7)) 0 = false ∧ oversize (capped 6) (capTurned (capped 6)) 0 = true ∧ turnCore (capped 7) (.issue 0 .sc) = some 0)
    ∧ (match exec (.queueRecordRead 0) headOff with | .next t => t.blocked == some 0 | _ => false) = true := by decide +kernel

end Sys2Proof.Tests
end

section
/-! The canonical form of the memories is kept by every step (01 R9, R11, R18, log 7). The form of a state is that of HBM and of the five memories of each core, so an operation that writes none of these keeps it at once; one lemma for each operation says so, named after it, and the proof of an operation composed of others reads as that composition. -/

namespace Sys2Proof.Machine

/-! ## The form of what an operation answers -/

/-- The state that an instruction, an event or a turn goes on with has its memories in form. -/
def ResultWf : Result → Prop
  | .next t => MemoryWf t
  | _ => True

/-- The state that an engine's virtual access leaves. -/
def VAnsWf : VAns → Prop
  | .ok t _ | .wait t | .fault t _ => MemoryWf t

/-- The state that an engine's read or write of virtual bytes leaves. -/
def RAnsWf : RAns → Prop
  | .ok t _ | .wait t | .fault t _ => MemoryWf t

/-- The state that a micro-step of a command leaves. -/
def MicroWf : Micro → Prop
  | .ok t _ | .wait t | .fault t _ => MemoryWf t

/-- The state that the start of a command leaves, if it starts. -/
def StartsWf : Starts → Prop
  | .go t _ => MemoryWf t
  | _ => True

/-- The state that the head of the matrix queue leaves, if it acts. -/
def MqAnsWf : MqAns → Prop
  | .start t | .waitFq t => MemoryWf t
  | _ => True

/-- The state in which the CP stays, or goes on with its bundle. -/
def CpTurnWf : CpTurn → Prop
  | .stay t | .go t _ _ => MemoryWf t

variable {s t : State} {k : Core}

theorem ResultWf.eq {a b : Result} (h : ResultWf a) (e : a = b) : ResultWf b := e ▸ h
theorem VAnsWf.eq {a b : VAns} (h : VAnsWf a) (e : a = b) : VAnsWf b := e ▸ h
theorem RAnsWf.eq {a b : RAns} (h : RAnsWf a) (e : a = b) : RAnsWf b := e ▸ h
theorem MicroWf.eq {a b : Micro} (h : MicroWf a) (e : a = b) : MicroWf b := e ▸ h
theorem StartsWf.eq {a b : Starts} (h : StartsWf a) (e : a = b) : StartsWf b := e ▸ h
theorem MqAnsWf.eq {a b : MqAns} (h : MqAnsWf a) (e : a = b) : MqAnsWf b := e ▸ h
theorem CpTurnWf.eq {a b : CpTurn} (h : CpTurnWf a) (e : a = b) : CpTurnWf b := e ▸ h
/-- The state of a pair that is known. -/
theorem MemoryWf.fst {α : Type} {p : State × α} {a : α} (h : MemoryWf p.1) (e : p = (t, a)) : MemoryWf t := by
  subst e; exact h

/-! ## How an operation is put together: a choice, a chain, a fold -/

theorem ResultWf.ite {p : Prop} [Decidable p] {a b : Result} (ha : ResultWf a) (hb : ResultWf b) : ResultWf (if p then a else b) :=
  iteInduction (fun _ => ha) fun _ => hb
theorem CoreWf.ite {p : Prop} [Decidable p] {a b : Core} (ha : CoreWf a) (hb : CoreWf b) : CoreWf (if p then a else b) :=
  iteInduction (fun _ => ha) fun _ => hb
theorem MemoryWf.ite {p : Prop} [Decidable p] {a b : State} (ha : MemoryWf a) (hb : MemoryWf b) : MemoryWf (if p then a else b) :=
  iteInduction (fun _ => ha) fun _ => hb
theorem VAnsWf.ite {p : Prop} [Decidable p] {a b : VAns} (ha : VAnsWf a) (hb : VAnsWf b) : VAnsWf (if p then a else b) :=
  iteInduction (fun _ => ha) fun _ => hb
theorem MicroWf.ite {p : Prop} [Decidable p] {a b : Micro} (ha : MicroWf a) (hb : MicroWf b) : MicroWf (if p then a else b) :=
  iteInduction (fun _ => ha) fun _ => hb
theorem StartsWf.ite {p : Prop} [Decidable p] {a b : Starts} (ha : StartsWf a) (hb : StartsWf b) : StartsWf (if p then a else b) :=
  iteInduction (fun _ => ha) fun _ => hb
theorem MqAnsWf.ite {p : Prop} [Decidable p] {a b : MqAns} (ha : MqAnsWf a) (hb : MqAnsWf b) : MqAnsWf (if p then a else b) :=
  iteInduction (fun _ => ha) fun _ => hb
theorem CpTurnWf.ite {p : Prop} [Decidable p] {a b : CpTurn} (ha : CpTurnWf a) (hb : CpTurnWf b) : CpTurnWf (if p then a else b) :=
  iteInduction (fun _ => ha) fun _ => hb
theorem MemoryWf.ite_fst {α : Type} {p : Prop} [Decidable p] {a b : State × α} (ha : MemoryWf a.1) (hb : MemoryWf b.1) : MemoryWf (if p then a else b).1 :=
  iteInduction (motive := fun q : State × α => MemoryWf q.1) (fun _ => ha) fun _ => hb

/-- Something is done, or something else, to a state. -/
theorem MemoryWf.either {p : Prop} [Decidable p] {a b : State} (h : MemoryWf s) (ha : MemoryWf s → MemoryWf a) (hb : MemoryWf s → MemoryWf b) :
    MemoryWf (if p then a else b) := (ha h).ite (hb h)
/-- Something is done to a state, or nothing. -/
theorem MemoryWf.when {p : Prop} [Decidable p] (h : MemoryWf s) (ht : MemoryWf s → MemoryWf t) : MemoryWf (if p then t else s) := (ht h).ite h
/-- Nothing is done to a state, or something. -/
theorem MemoryWf.unless {p : Prop} [Decidable p] (h : MemoryWf s) (ht : MemoryWf s → MemoryWf t) : MemoryWf (if p then s else t) := h.ite (ht h)

theorem MemoryWf.foldl {α : Type} {f : State → α → State} {l : List α} (h : MemoryWf s) (hf : ∀ {s : State} {a : α}, MemoryWf s → MemoryWf (f s a)) :
    MemoryWf (l.foldl f s) :=
  List.foldlRecOn l f h fun _ ht _ _ => hf ht

theorem CoreWf.foldl {α : Type} {f : Core → α → Core} {l : List α} (h : CoreWf k) (hf : ∀ {k : Core} {a : α}, CoreWf k → CoreWf (f k a)) :
    CoreWf (l.foldl f k) :=
  List.foldlRecOn l f h fun _ hk _ _ => hf hk

/-! ## Memories, cores and HBM -/

/-- A memory with entries left out is in form. -/
theorem wfFrom_filter {m : Memory} {lo : Nat} (p : Nat × Byte → Bool) (h : Memory.wfFrom lo m = true) : Memory.wfFrom lo (m.filter p) = true := by
  induction m generalizing lo with
  | nil => exact h
  | cons x t ih =>
    obtain ⟨a, b⟩ := x
    simp only [Memory.wfFrom, Bool.and_eq_true, decide_eq_true_eq] at h
    obtain ⟨⟨hlo, hb⟩, ht⟩ := h
    rw [List.filter_cons]
    split
    · simp only [Memory.wfFrom, hlo, hb, decide_true, Bool.and_self, Bool.true_and]
      exact ih ht
    · exact wfFrom_mono (ih ht) (by omega)

theorem filter_wf {m : Memory} (p : Nat × Byte → Bool) (h : m.wf = true) : Memory.wf (m.filter p) = true := wfFrom_filter p h

/-- A core whose memories are empty. -/
theorem CoreWf.empty {a : Arch} {c : Cellar} {d : Debug} : CoreWf { arch := a, cellar := c, dbg := d } := ⟨rfl, rfl, rfl, rfl, rfl⟩

theorem CoreWf.setSpad {m : Memory} (h : CoreWf k) (hm : m.wf = true) : CoreWf { k with spad := m } := by
  obtain ⟨-, hsc, hld, hcp, hst⟩ := h
  exact ⟨hm, hsc, hld, hcp, hst⟩

theorem CoreWf.putSpad {a : Nat} {bs : List Byte} (h : CoreWf k) : CoreWf { k with spad := memPutBytes k.spad a bs } := h.setSpad (memPutBytes_wf h.1 _ _)

/-- Whatever else of a core changes, its memories are in form. -/
theorem CoreWf.update {arch : Arch} {vrf : Sparse Vec} {acc : Sparse Tile} {poisonSpad : List Nat} {mended : Sparse (BitVec 64)} {poisonVrf : List Nat}
    {poisonIm : List (Nat × Nat)} {cellar : Cellar} {gate : Gate} {stop : Option Stop} {stopping : Option Stopping} {second cutting leaving killing : Bool} {dbg : Debug}
    (h : CoreWf k) : CoreWf ⟨arch, k.spad, vrf, acc, k.imSc, k.imLd, k.imCp, k.imSt, poisonSpad, mended, poisonVrf, poisonIm, cellar, gate, stop, stopping, second, cutting, leaving, killing, dbg⟩ := h

theorem MemoryWf.hbm (h : MemoryWf s) : s.hbm.wf = true := h.1
theorem MemoryWf.core {c : Nat} (h : MemoryWf s) : CoreWf (s.core c) := h.2 c

/-- Whatever else of a state changes, its memories are in form. -/
theorem MemoryWf.update {agenda : List Turn} {today : List Claim} {who : Who} {now seq free : Nat} {clusters : Sparse Cluster} {dies : Sparse Die} {hub : Hub}
    {hbmKeys : Sparse Key} {hbmBad hbmSoft : List Nat} {hbmMended : Sparse (BitVec 32)} {accesses : List Access} {replies : List Reply} {invals : List Inval}
    {messages retries : List Message} {arrived : List (Nat × Arriver)} {blocked : Option Nat} (h : MemoryWf s) :
    MemoryWf ⟨agenda, today, who, now, seq, free, s.cores, clusters, dies, hub, s.hbm, hbmKeys, hbmBad, hbmSoft, hbmMended, accesses, replies, invals, messages, retries, arrived, blocked⟩ := h

theorem MemoryWf.of_cores (h : MemoryWf s) (hm : t.hbm.wf = true) (hc : t.cores = s.cores) : MemoryWf t := by
  refine ⟨hm, fun c => ?_⟩
  have hcore : t.core c = s.core c := by unfold State.core; rw [hc]
  exact hcore ▸ h.core

theorem MemoryWf.setHbm {m : Memory} (h : MemoryWf s) (hm : m.wf = true) : MemoryWf { s with hbm := m } := ⟨hm, h.2⟩

theorem MemoryWf.setCore {c : Nat} (h : MemoryWf s) (hk : CoreWf k) : MemoryWf (s.setCore c k) := by
  refine ⟨h.hbm, fun d => ?_⟩
  by_cases hd : d = c
  · subst hd; rw [core_setCore]; exact hk
  · rw [core_setCore_ne _ _ _ _ hd]; exact h.core

theorem MemoryWf.modCore {c : Nat} {f : Core → Core} (h : MemoryWf s) (hf : CoreWf (s.core c) → CoreWf (f (s.core c))) : MemoryWf (s.modCore c f) :=
  h.setCore (hf h.core)

/-- Every core of a table is changed under its number. -/
theorem sget_map_coreWf {f : Nat × Core → Nat × Core} {l : Sparse Core} (hn : ∀ p, (f p).1 = p.1) (hf : ∀ {p}, CoreWf p.2 → CoreWf (f p).2) {c : Nat}
    (h : CoreWf (sget {} l c)) : CoreWf (sget {} (l.map f) c) := by
  induction l with
  | nil => exact h
  | cons p l ih =>
    have hcons : sget {} ((p :: l).map f) c = if p.1 = c then (f p).2 else sget {} (l.map f) c := by
      rw [List.map_cons, ← hn p]; exact sget_cons ..
    rw [hcons]
    rw [show sget {} (p :: l) c = if p.1 = c then p.2 else sget {} l c from sget_cons ..] at h
    split
    · rw [if_pos ‹_›] at h; exact hf h
    · rw [if_neg ‹_›] at h; exact ih h

theorem MemoryWf.mapCores {f : Nat × Core → Nat × Core} (h : MemoryWf s) (hn : ∀ p, (f p).1 = p.1) (hf : ∀ {p}, CoreWf p.2 → CoreWf (f p).2) :
    MemoryWf { s with cores := s.cores.map f } := ⟨h.hbm, fun _ => sget_map_coreWf hn hf h.core⟩



/-! ## Parts of the state, HBM under its keys, and the page walk (06, 07 R112-R115) -/

theorem MemoryWf.modDie {d : ℕ} {f : Die → Die} (h : MemoryWf s) : MemoryWf (s.modDie d f) := h.update
theorem MemoryWf.modCluster {g : ℕ} {f : Cluster → Cluster} (h : MemoryWf s) : MemoryWf (s.modCluster g f) := h.update
theorem MemoryWf.modHub {f : Hub → Hub} (h : MemoryWf s) : MemoryWf (s.modHub f) := h.update
theorem MemoryWf.modArch {c : ℕ} {f : Arch → Arch} (h : MemoryWf s) : MemoryWf (s.modArch c f) := h.modCore fun hk => hk.update
theorem MemoryWf.modSeqs {c : ℕ} {f : Seqs → Seqs} (h : MemoryWf s) : MemoryWf (s.modSeqs c f) := h.modArch
theorem MemoryWf.modCsrs {c : ℕ} {f : Csrs → Csrs} (h : MemoryWf s) : MemoryWf (s.modCsrs c f) := h.modArch
theorem MemoryWf.modCtx {c k : ℕ} {f : Ctx → Ctx} (h : MemoryWf s) : MemoryWf (s.modCtx c k f) := h.modSeqs
theorem MemoryWf.modCp {c : ℕ} {f : Cp → Cp} (h : MemoryWf s) : MemoryWf (s.modCp c f) := h.modSeqs
theorem MemoryWf.modEng {c : ℕ} {e : Eng} {f : Engine → Engine} (h : MemoryWf s) : MemoryWf (s.modEng c e f) := h.modSeqs
theorem MemoryWf.modRing {c n : ℕ} {f : Ring → Ring} (h : MemoryWf s) : MemoryWf (s.modRing c n f) := h.modSeqs
theorem MemoryWf.modBar {c n : ℕ} {f : Barrier → Barrier} (h : MemoryWf s) : MemoryWf (s.modBar c n f) := h.modSeqs
theorem MemoryWf.modWq {q : ℕ} {f : WorkQueue → WorkQueue} (h : MemoryWf s) : MemoryWf (s.modWq q f) := h.modHub
theorem MemoryWf.modSlot {c n : ℕ} {f : PatchSlot → PatchSlot} (h : MemoryWf s) : MemoryWf (s.modSlot c n f) := h.modArch
theorem MemoryWf.modRun {c : ℕ} {f : Running → Running} (h : MemoryWf s) : MemoryWf (s.modRun c f) := h.modArch
theorem MemoryWf.modLaunch {id : ℕ} {f : Launch → Launch} (h : MemoryWf s) : MemoryWf (s.modLaunch id f) := h.modHub
theorem CoreWf.mark {lo hi : ℕ} (h : CoreWf k) : CoreWf (k.mark lo hi) := h.update
theorem CoreWf.spadWrite {off : ℕ} {bs : List Byte} (h : CoreWf k) : CoreWf (k.spadWrite off bs) := h.putSpad
theorem MemoryWf.spadWrite {c off : ℕ} {bs : List Byte} (h : MemoryWf s) : MemoryWf (s.spadWrite c off bs) := h.modCore fun hk => hk.spadWrite

theorem MemoryWf.hbmWrite {id a : ℕ} {bs : List Byte} (h : MemoryWf s) : MemoryWf (s.hbmWrite id a bs) :=
  h.of_cores (hbmWrite_wf h.hbm id a bs) (hbmWrite_cores s id a bs)

theorem MemoryWf.locWrite {l : Loc} {bs : List Byte} (h : MemoryWf s) : MemoryWf (s.locWrite l bs) := by
  unfold State.locWrite
  split
  · exact h.spadWrite
  · exact h.hbmWrite

theorem MemoryWf.modLink {l : Link} {f : LinkState → LinkState} (h : MemoryWf s) : MemoryWf (s.modLink l f) := h.modHub

theorem MemoryWf.corrected {l : Loc} {n : ℕ} (h : MemoryWf s) : MemoryWf (corrected s l n) := by
  unfold Machine.corrected
  dsimp only
  split
  · exact h
  · exact h.foldl fun h => h.modDie.update

theorem MemoryWf.walkFrom {d tctx va level node : ℕ} {write : Bool} (h : MemoryWf s) : MemoryWf (walkFrom s d tctx va write level node).1 := by
  fun_induction Machine.walkFrom s d tctx va write level node with
  | case1 => exact h
  | case2 | case4 => exact h.corrected
  | case3 => exact h.corrected.setHbm (memPut_wf h.corrected.hbm _ _)
  | case5 => rename_i ih; exact ih h.corrected

theorem MemoryWf.walkNow {d tctx va : ℕ} {write : Bool} (h : MemoryWf s) : MemoryWf (walkNow s d tctx va write).1 := by
  unfold Machine.walkNow
  dsimp only
  split
  · exact h
  · exact MemoryWf.ite_fst h.corrected h.corrected.walkFrom

theorem MemoryWf.walkRest {d : ℕ} {w : Walk} (h : MemoryWf s) : MemoryWf (walkRest s d w).1 := by
  unfold Machine.walkRest
  split
  · exact h.walkNow
  · exact h.walkFrom

theorem MemoryWf.arriveAt {r : ℕ} {p : Arriver} (h : MemoryWf s) : MemoryWf (arriveAt s r p) := h.unless fun h => h.update
theorem MemoryWf.awaitHome {r : ℕ} (h : MemoryWf s) : MemoryWf (awaitHome s r) := h.when fun h => h.arriveAt
theorem MemoryWf.leaveSlice {r : ℕ} {p : Arriver} (h : MemoryWf s) : MemoryWf (leaveSlice s r p) := h.unless fun h => h.update

theorem MemoryWf.reached {d va : ℕ} {l : Loc} (h : MemoryWf s) : MemoryWf (reached s d va l).1 := by
  unfold Machine.reached
  split
  · exact h
  · split
    · exact h.update
    · exact h

theorem MemoryWf.modWalks {d : ℕ} {f : List Walk → List Walk} (h : MemoryWf s) : MemoryWf (s.modWalks d f) := h.modHub.ite h.modDie
theorem MemoryWf.beginWalk {d tctx va : ℕ} {write : Bool} (h : MemoryWf s) : MemoryWf (beginWalk s d tctx va write) := h.unless fun h => h.modWalks

theorem MemoryWf.walkOn {d tctx va : ℕ} {write : Bool} (h : MemoryWf s) : MemoryWf (walkOn s d tctx va write).1 := by
  unfold Machine.walkOn
  split
  · exact (h.when fun h => h.modWalks).walkRest
  · exact h.walkNow

theorem MemoryWf.locateNow {d tctx va : ℕ} {write : Bool} (h : MemoryWf s) : MemoryWf (locateNow s d tctx va write).1 := by
  unfold Machine.locateNow
  refine MemoryWf.ite_fst h ?_
  refine MemoryWf.ite_fst h.reached ?_
  split
  next he => exact (h.walkOn.fst he).reached
  next he => exact h.walkOn.fst he

theorem MemoryWf.readNow {d tctx va n : ℕ} (h : MemoryWf s) : MemoryWf (readNow s d tctx va n).1 := by
  unfold Machine.readNow
  split
  next he => exact h.locateNow.fst he
  next t _ he =>
    have ht : MemoryWf t := h.locateNow.fst he
    split
    · exact ht
    · exact MemoryWf.ite_fst ht ht.corrected

theorem MemoryWf.writeNow {d tctx va : ℕ} {bs : List Byte} (h : MemoryWf s) : MemoryWf (writeNow s d tctx va bs).1 := by
  unfold Machine.writeNow
  split
  next he => exact h.locateNow.fst he
  next t _ he =>
    have ht : MemoryWf t := h.locateNow.fst he
    split
    · exact ht
    · exact ht.locWrite

theorem MemoryWf.readLong {d tctx fuel va n : ℕ} (h : MemoryWf s) : MemoryWf (readLong s d tctx fuel va n).1 := by
  fun_induction Machine.readLong s d tctx fuel va n with
  | case1 | case2 => exact h
  | case3 => rename_i he; exact h.readNow.fst he
  | case4 | case5 => rename_i hr _ _ he ih; exact (ih (h.readNow.fst hr)).fst he

theorem MemoryWf.readBytes {d tctx va n : ℕ} (h : MemoryWf s) : MemoryWf (readBytes s d tctx va n).1 := h.readLong

theorem MemoryWf.writeLong {d tctx fuel va : ℕ} {bs : List Byte} (h : MemoryWf s) : MemoryWf (writeLong s d tctx fuel va bs).1 := by
  fun_induction Machine.writeLong s d tctx fuel va bs with
  | case1 | case2 => exact h
  | case3 => rename_i he; exact h.writeNow.fst he
  | case4 => rename_i he ih; exact ih (h.writeNow.fst he)

theorem MemoryWf.writeBytes {d tctx va : ℕ} {bs : List Byte} (h : MemoryWf s) : MemoryWf (writeBytes s d tctx va bs).1 := h.writeLong

/-! ## Shared units: tokens, completion numbers, flags, rings, patch closes (03, 04 R70) -/

theorem MemoryWf.setFlags {c : ℕ} {except : Option ℕ} (h : MemoryWf s) : MemoryWf (setFlags s c except) := h.foldl fun h => h.unless fun h => h.modCtx
theorem MemoryWf.countEvent {c code n : ℕ} (h : MemoryWf s) : MemoryWf (countEvent s c code n) := h.when fun h => h.modCsrs
theorem MemoryWf.raiseVector {n : ℕ} (h : MemoryWf s) : MemoryWf (raiseVector s n) := h.modHub
theorem MemoryWf.modTok {c q : ℕ} {f : TokQ → TokQ} (h : MemoryWf s) : MemoryWf (s.modTok c q f) := h.modSeqs
theorem MemoryWf.takeTokens {c : ℕ} {e : Eng} {t : Tok} (h : MemoryWf s) : MemoryWf (takeTokens s c e t) := (h.when fun h => h.modTok).when fun h => h.modTok

theorem MemoryWf.setPushes {c : ℕ} {e : Eng} {l : List (ℕ × ℕ)} (h : MemoryWf s) : MemoryWf (setPushes s c e l) := by
  unfold Machine.setPushes
  split
  · exact h.modCp
  · exact h.modEng

theorem MemoryWf.pushToken {c : ℕ} {e : Eng} {num q : ℕ} (h : MemoryWf s) : MemoryWf (pushToken s c e num q) := h.modTok.ite h.setPushes

theorem MemoryWf.pushTokens {c : ℕ} {e : Eng} {num : ℕ} {su sd : Bool} (h : MemoryWf s) : MemoryWf (pushTokens s c e num su sd) :=
  (h.when fun h => h.pushToken).when fun h => h.pushToken

theorem MemoryWf.finishNumber {c : ℕ} {e : Eng} {n : ℕ} (h : MemoryWf s) : MemoryWf (finishNumber s c e n) := by
  unfold Machine.finishNumber
  extract_lets old t
  have ht : MemoryWf t := by
    unfold t
    split
    · exact h.modCp
    · exact h.modEng
  exact ht.ite ht.setFlags

theorem MemoryWf.startWalk {d tctx va : ℕ} {write : Bool} {w : Walker} (h : MemoryWf s) : MemoryWf (startWalk s d tctx va write w) := h.modDie
theorem MemoryWf.leaveWalks {c : ℕ} (h : MemoryWf s) : MemoryWf (leaveWalks s c) := h.modDie
theorem MemoryWf.leaveRings {c : ℕ} (h : MemoryWf s) : MemoryWf (leaveRings s c) := h.foldl fun h => h.modSeqs
theorem MemoryWf.leaveQueue {c num : ℕ} (h : MemoryWf s) : MemoryWf (leaveQueue s c num) := h.foldl fun h => h.when fun h => h.modSeqs
theorem MemoryWf.closePatch {c l cause : ℕ} (h : MemoryWf s) : MemoryWf (closePatch s c l cause) := h.spadWrite.modCsrs.modArch

/-! ## The accesses of a data command (15 R266-R278) -/

theorem MemoryWf.arriveHome {d tctx : ℕ} {p : Arriver} {va n : ℕ} {l : Loc} (h : MemoryWf s) : VAnsWf (arriveHome s d tctx p va n l) := by
  unfold Machine.arriveHome
  split
  · exact h
  · split
    · exact h
    · refine VAnsWf.ite h ?_
      split
      · exact VAnsWf.ite h.arriveAt (VAnsWf.ite h.leaveSlice h)
      · exact h

theorem MemoryWf.reachHome {c : ℕ} {e : Eng} {num va n : ℕ} {l : Loc} (h : MemoryWf s) : VAnsWf (reachHome s c e num va n l) := h.arriveHome

theorem MemoryWf.vlocate {c : ℕ} {e : Eng} {num va n : ℕ} {write : Bool} (h : MemoryWf s) : VAnsWf (vlocate s c e num va n write) := by
  unfold Machine.vlocate
  split
  · exact h
  · exact h.startWalk
  · exact h.reachHome

theorem MemoryWf.vread {c num fuel va n : ℕ} {e : Eng} (h : MemoryWf s) : RAnsWf (vread s c e num fuel va n) := by
  fun_induction Machine.vread s c e num fuel va n with
  | case1 | case2 => exact h
  | case3 | case4 => rename_i he; exact h.vlocate.eq he
  | case5 =>
    rename_i he _
    have ht : MemoryWf _ := h.vlocate.eq he
    exact ht
  | case6 =>
    rename_i hv _ t _ he ih
    have ht : MemoryWf t := (ih (h.vlocate.eq hv)).eq he
    exact ht.corrected
  | case7 => rename_i hv _ _ he ih; exact (ih (h.vlocate.eq hv)).eq he
  | case8 => rename_i hv _ _ _ he ih; exact (ih (h.vlocate.eq hv)).eq he

theorem MemoryWf.vwrite {c num fuel va : ℕ} {e : Eng} {bs : List Byte} (h : MemoryWf s) : RAnsWf (vwrite s c e num fuel va bs) := by
  fun_induction Machine.vwrite s c e num fuel va bs with
  | case1 | case2 => exact h
  | case3 | case4 => rename_i he; exact h.vlocate.eq he
  | case5 =>
    rename_i t _ he ih
    have ht : MemoryWf t := h.vlocate.eq he
    exact ih ht.locWrite

theorem MemoryWf.addWords {l : Loc} {fadd : Bool} {bs : List Byte} (h : MemoryWf s) : MemoryWf (addWords s l fadd bs) := by
  fun_induction Machine.addWords s l fadd bs with
  | case1 => rename_i ih; exact ih h.locWrite
  | case2 => exact h

theorem MemoryWf.readHalf {c : ℕ} {e : Eng} {k : Cmd} {i w : ℕ} (h : MemoryWf s) : MicroWf (readHalf s c e k i w) := by
  unfold Machine.readHalf
  dsimp only
  split
  · exact h
  · exact h
  · exact MicroWf.ite h h
  · split <;> next he => exact h.vread.eq he
  · exact MicroWf.ite h h

theorem MemoryWf.writeHalf {c : ℕ} {e : Eng} {k : Cmd} {i w : ℕ} (h : MemoryWf s) : MicroWf (writeHalf s c e k i w) := by
  unfold Machine.writeHalf
  dsimp only
  split
  · exact h
  · exact MicroWf.ite h.spadWrite h
  · split
    · exact h.arriveAt
    · exact MicroWf.ite (h.foldl fun h => h.leaveSlice.spadWrite) h
  · split <;> next he => exact h.vwrite.eq he
  · refine MicroWf.ite ?_ ?_
    · split
      · exact h
      · exact h.startWalk
      · exact h
    · split
      next t _ he =>
        have ht : MemoryWf t := h.reachHome.eq he
        exact ht.locWrite
      next he => exact h.reachHome.eq he
      next he => exact h.reachHome.eq he
  · refine MicroWf.ite h ?_
    refine MicroWf.ite h ?_
    split
    next t _ he =>
      have ht : MemoryWf t := h.vlocate.eq he
      exact MicroWf.ite ht ht.corrected.addWords
    next he => exact h.vlocate.eq he
    next he => exact h.vlocate.eq he
  · refine MicroWf.ite ?_ h
    split <;> exact h
  · refine MicroWf.ite h ?_
    split
    · exact h
    · exact MicroWf.ite h h.modHub
  · exact MicroWf.ite h (MicroWf.ite h (h.modEng.ite h.update))

theorem MemoryWf.markFilled {c : ℕ} {k : Cmd} (h : MemoryWf s) : MemoryWf (markFilled s c k) := by
  unfold Machine.markFilled
  split
  · exact h.modRing
  · exact h.modRing
  · exact h.foldl fun h => h.modRing
  · exact h

theorem MemoryWf.cmdStep {c : ℕ} {e : Eng} {k : Cmd} {w : ℕ} (h : MemoryWf s) : MicroWf (cmdStep s c e k w) := by
  unfold Machine.cmdStep
  extract_lets m
  have hm : MicroWf m := MicroWf.ite h.readHalf h.writeHalf
  clear_value m
  cases m with
  | ok t k' =>
    have ht : MemoryWf t := hm
    exact MicroWf.ite ht.markFilled ht
  | wait t => exact hm
  | fault t f => exact hm

theorem MemoryWf.journalWrite {c idx num eng flags pc prog : ℕ} (h : MemoryWf s) : MemoryWf (journalWrite s c idx num eng flags pc prog) := by
  unfold Machine.journalWrite
  split
  · exact h.spadWrite
  · exact h

theorem MemoryWf.journalCmd {c : ℕ} {e : Eng} {k : Cmd} (h : MemoryWf s) : MemoryWf (journalCmd s c e k) := h.journalWrite
theorem MemoryWf.setFlight {c : ℕ} {e : Eng} {k : Cmd} (h : MemoryWf s) : MemoryWf (setFlight s c e k) := h.modEng
theorem MemoryWf.doneCmd {c : ℕ} {e : Eng} {k : Cmd} (h : MemoryWf s) : MemoryWf (doneCmd s c e k) := h.journalCmd.modEng.finishNumber.countEvent

theorem MemoryWf.finishCmd {c : ℕ} {e : Eng} {k : Cmd} (h : MemoryWf s) : MemoryWf (finishCmd s c e k) := by
  unfold Machine.finishCmd
  extract_lets pop t k' u
  have ht : MemoryWf t := by
    unfold t
    split
    · exact h.unless fun h => h.modRing
    · exact h.unless fun h => h.modRing
    · exact h
  have hu : MemoryWf u := ht.setFlight.pushTokens
  exact hu.ite hu.doneCmd

theorem MemoryWf.joinRing {t n : ℕ} {who : ℕ × ℕ} (h : MemoryWf s) : MemoryWf (joinRing s t n who) := h.modRing

theorem MemoryWf.startPush {c : ℕ} {k : Cmd} {n : ℕ} (h : MemoryWf s) : StartsWf (startPush s c k n) :=
  StartsWf.ite trivial (StartsWf.ite trivial (StartsWf.ite trivial h.modRing))

theorem MemoryWf.startPop {c : ℕ} {e : Eng} {k : Cmd} {n : ℕ} (h : MemoryWf s) : StartsWf (startPop s c e k n) := by
  unfold Machine.startPop
  dsimp only
  refine StartsWf.ite trivial ?_
  refine StartsWf.ite trivial ?_
  split
  · exact trivial
  · exact h

theorem MemoryWf.startMcast {c : ℕ} {k : Cmd} {n : ℕ} (h : MemoryWf s) : StartsWf (startMcast s c k n) := by
  unfold Machine.startMcast
  dsimp only
  split
  · exact trivial
  · exact StartsWf.ite trivial (StartsWf.ite trivial (h.foldl fun h => h.modRing))

theorem MemoryWf.awaitRing {c : ℕ} {k : Cmd} (h : MemoryWf s) : MemoryWf (awaitRing s c k) := by
  unfold Machine.awaitRing
  split
  · exact h.joinRing
  · exact h.joinRing
  · exact h.foldl fun h => h.joinRing
  · exact h

theorem MemoryWf.startOf {c : ℕ} {e : Eng} {k : Cmd} (h : MemoryWf s) : StartsWf (startOf s c e k) := by
  unfold Machine.startOf
  dsimp only
  refine StartsWf.ite trivial ?_
  refine StartsWf.ite trivial ?_
  split
  · exact h.startPush
  · exact h.startPop
  · exact h.startMcast
  · exact h.startPush
  · exact h.startPop
  · exact StartsWf.ite trivial h
  · exact StartsWf.ite trivial h
  · exact h

/-! ## The matrix queue and array (14 R236-R248) -/

theorem MemoryWf.mqStart {c : ℕ} {r : MqEntry} {word : Word} {pa pb : ℕ} (h : MemoryWf s) : MemoryWf (mqStart s c r word pa pb) :=
  (h.when fun h => h.modSeqs.journalWrite.modRun).modCp

theorem MemoryWf.mqHead {c : ℕ} (h : MemoryWf s) : MqAnsWf (mqHead s c) := by
  unfold Machine.mqHead
  dsimp only
  split
  · exact trivial
  · refine MqAnsWf.ite trivial ?_
    split
    · split
      · exact trivial
      · split
        · exact h.modCp
        · split
          · split
            · exact trivial
            · exact trivial
            · exact h.mqStart
          · exact trivial
    · split
      · exact h
      · exact h.mqStart
    · exact h.mqStart

theorem MemoryWf.markTile {c n : ℕ} (h : MemoryWf s) : MemoryWf (markTile s c n) := h.modCore fun hk => hk.mark
theorem MemoryWf.settleBundles {c : ℕ} (h : MemoryWf s) : MemoryWf (settleBundles s c) := h.modCp.foldl fun h => h.pushTokens

theorem MemoryWf.mqRetire {c : ℕ} {err : ResidueErrors} (h : MemoryWf s) : MemoryWf (mqRetire s c err) := by
  unfold Machine.mqRetire
  dsimp only
  split
  · exact h
  · split
    · exact (((h.modCore fun hk => hk.update).markTile.modCp.unless fun h => h.modRing).unless fun h => h.modRing).modDie.journalWrite.finishNumber.settleBundles.countEvent
    · exact (h.modCore fun hk => hk.update).markTile.modCp.settleBundles

theorem MemoryWf.drainMatrix {c n : ℕ} (h : MemoryWf s) : MemoryWf (drainMatrix s c n) := by
  induction n generalizing s with
  | zero => exact h
  | succ n ih => exact h.unless fun h => ih h.mqRetire

/-! ## Named operations of the sequencers, and stops (24 R322-R326) -/

theorem MemoryWf.modMe {f : Ctx → Ctx} (h : MemoryWf s) : MemoryWf (s.modMe f) := h.modCtx
theorem MemoryWf.pass (h : MemoryWf s) : MemoryWf (s.pass) := h.modMe
theorem MemoryWf.goto {pc : Word} (h : MemoryWf s) : MemoryWf (s.goto pc) := h.modMe
theorem MemoryWf.put {d : ℕ} {v : Word} (h : MemoryWf s) : MemoryWf (s.put d v) := h.modMe.pass
theorem MemoryWf.block {w : Wait} (h : MemoryWf s) : MemoryWf (s.block w) := h.modMe
theorem MemoryWf.fltAppend {bs : List Byte} (h : MemoryWf s) : MemoryWf (fltAppend s bs) := h.unless fun h => h.modHub.ite (h.unless fun h => h.hbmWrite.modHub)

theorem MemoryWf.writeRecord {c isw faddr num eng flags pc cycle : ℕ} (h : MemoryWf s) : MemoryWf (writeRecord s c isw faddr num eng flags pc cycle) := by
  unfold Machine.writeRecord
  dsimp only
  refine MemoryWf.raiseVector ?_
  refine MemoryWf.fltAppend ?_
  split
  · exact h.spadWrite
  · exact h

theorem MemoryWf.endInjection {c : ℕ} (h : MemoryWf s) : MemoryWf (endInjection s c) := h.when fun h => h.modCtx.modCore fun hk => hk.update
theorem MemoryWf.finishStop {c : ℕ} {p : Stopping} (h : MemoryWf s) : MemoryWf (finishStop s c p) := h.writeRecord.modCore fun hk => hk.update

theorem MemoryWf.settleStop {c : ℕ} (h : MemoryWf s) : MemoryWf (settleStop s c) := by
  unfold Machine.settleStop
  split
  · exact h
  · exact h.unless fun h => h.finishStop

theorem MemoryWf.takeStopAt {c eng isw faddr num flags pc cycle : ℕ} (h : MemoryWf s) : MemoryWf (takeStopAt s c eng isw faddr num flags pc cycle) := by
  unfold Machine.takeStopAt
  dsimp only
  split
  · exact h.modCore fun hk => hk.update
  · exact (h.endInjection.modCore fun hk => hk.update).settleStop

theorem MemoryWf.takeStop {c eng isw faddr num flags pc : ℕ} (h : MemoryWf s) : MemoryWf (takeStop s c eng isw faddr num flags pc) := h.takeStopAt
theorem MemoryWf.dropLoads {c k : ℕ} (h : MemoryWf s) : MemoryWf (dropLoads s c k) := h.update
theorem MemoryWf.hookStop {c k : ℕ} {code : Word} (h : MemoryWf s) : MemoryWf (hookStop s c k code) := h.dropLoads.modCtx.modCsrs.setFlags
theorem MemoryWf.ctxTrapAt {c k : ℕ} {f : FaultInfo} {pc : ℕ} (h : MemoryWf s) : MemoryWf (ctxTrapAt s c k f pc) := h.hookStop.ite h.takeStop
theorem MemoryWf.ctxTrap {c k : ℕ} {f : FaultInfo} {pc : ℕ} (h : MemoryWf s) : MemoryWf (ctxTrap s c k f pc) := h.ctxTrapAt
theorem MemoryWf.trap {f : FaultInfo} (h : MemoryWf s) : MemoryWf (s.trap f) := h.ctxTrap
theorem MemoryWf.cpTrap {c : ℕ} {f : FaultInfo} (h : MemoryWf s) : MemoryWf (cpTrap s c f) := h.takeStop
theorem MemoryWf.wordTrap {c : ℕ} {e : Eng} {f : FaultInfo} (h : MemoryWf s) : MemoryWf (wordTrap s c e f) := h.takeStop

theorem MemoryWf.cmdTrap {c : ℕ} {e : Eng} {k : Cmd} {f : FaultInfo} (h : MemoryWf s) : MemoryWf (cmdTrap s c e k f) :=
  h.setFlight.journalCmd.modEng.either (fun h => h.modCore fun hk => hk.update) fun h => h.unless fun h => h.takeStop

theorem MemoryWf.mqTrap {c num pc : ℕ} {f : FaultInfo} (h : MemoryWf s) : MemoryWf (mqTrap s c num pc f) :=
  h.modCp.either (fun h => h.modCp.modCore fun hk => hk.update) fun h => h.takeStop

theorem MemoryWf.reportPend {c : ℕ} (h : MemoryWf s) : MemoryWf (reportPend s c) := by
  unfold Machine.reportPend
  dsimp only
  refine MemoryWf.ite h ?_
  split
  · exact (h.modCore fun hk => hk.update).modCp.takeStopAt
  · exact h.modCore fun hk => hk.update

theorem MemoryWf.replayEngine {c : ℕ} {e : Eng} (h : MemoryWf s) : MemoryWf (replayEngine s c e) := h.modEng

theorem MemoryWf.retranslate {a : Access} {write : Bool} (h : MemoryWf s) : MemoryWf (retranslate s a write).1 := by
  unfold Machine.retranslate
  dsimp only
  split
  · exact h
  · exact h
  · split <;> next he => exact h.walkOn.fst he

theorem MemoryWf.sendAgain {c : ℕ} {a : Access} {l : Loc} (h : MemoryWf s) : MemoryWf (sendAgain s c a l) := by
  unfold Machine.sendAgain
  dsimp only
  split
  · exact h.modRun.update
  · exact h.update

theorem MemoryWf.reissueOne {c k : ℕ} {a : Access} (h : MemoryWf s) : MemoryWf (reissueOne s c k a).1 := by
  unfold Machine.reissueOne
  refine MemoryWf.ite_fst h.modCtx ?_
  split
  next he => exact h.retranslate.fst he
  next he => exact (h.retranslate.fst he).sendAgain

theorem MemoryWf.reissueList {c k : ℕ} {l : List Access} (h : MemoryWf s) : MemoryWf (reissueList s c k l) := by
  induction l generalizing s with
  | nil => exact h
  | cons a l ih =>
    unfold Machine.reissueList
    split
    · split
      next t e =>
        have ht : MemoryWf t := h.reissueOne.fst e
        exact ih ht
      next t _ e =>
        have ht : MemoryWf t := h.reissueOne.fst e
        exact ih ht.modCtx.ctxTrap
    · exact ih (h.unless fun h => h.modCtx)

theorem MemoryWf.reissueCtx {c k : ℕ} (h : MemoryWf s) : MemoryWf (reissueCtx s c k) := h.modCtx.reissueList
theorem MemoryWf.remake {c : ℕ} (h : MemoryWf s) : MemoryWf (remake s c) := (h.foldl fun h => h.reissueCtx).replayEngine.replayEngine

theorem MemoryWf.resumeCore {c : ℕ} (h : MemoryWf s) : MemoryWf (resumeCore s c) := by
  unfold Machine.resumeCore
  dsimp only
  split
  · exact h
  · exact (h.modCore fun hk => hk.update).remake.modCp

theorem MemoryWf.startHandler {c k : ℕ} {pc x1 x2 x3 x4 : Word} {slot : Option ℕ} {hook : Option (ℕ × Bool)} (h : MemoryWf s) : MemoryWf (startHandler s c k pc x1 x2 x3 x4 slot hook) :=
  h.modArch.modCtx

theorem MemoryWf.endHandler {c k : ℕ} (h : MemoryWf s) : MemoryWf (endHandler s c k) := h.modCtx.either (fun h => h.modCsrs.setFlags) fun h => h.setFlags
theorem MemoryWf.arrive {c n : ℕ} (h : MemoryWf s) : MemoryWf (arrive s c n) := h.modBar.ite (h.modBar.setFlags.ite h.modBar)

/-! ## Results of the CP on their way to their registers (13 R206-R208) -/

theorem MemoryWf.result {lat real : ℕ} {load : Bool} {w : CpWrite} (h : MemoryWf s) : MemoryWf (s.result lat real load w) := h.modCp
theorem MemoryWf.give {cls : ℕ} {w : CpWrite} (h : MemoryWf s) : MemoryWf (s.give cls w) := h.result
theorem MemoryWf.giveLoad {cls : ℕ} {w : CpWrite} (h : MemoryWf s) : MemoryWf (s.giveLoad cls w) := h.result
theorem MemoryWf.giveLanes {cls w d : ℕ} {act : ℕ → Bool} {f : ℕ → ℕ} (h : MemoryWf s) : MemoryWf (s.giveLanes cls w d act f) := h.give
theorem CoreWf.vecWrite {phys : ℕ} {bits value : Vec} (h : CoreWf k) : CoreWf (k.vecWrite phys bits value) := h.update.mark

theorem MemoryWf.landWrite {c : ℕ} {x : CpWrite} (h : MemoryWf s) : MemoryWf (landWrite s c x) := by
  unfold Machine.landWrite
  split
  · exact h.modCore fun hk => hk.vecWrite
  all_goals exact h.modCp

theorem MemoryWf.landDue {c : ℕ} (h : MemoryWf s) : MemoryWf (landDue s c) := h.modCp.foldl fun h => h.landWrite
theorem MemoryWf.landAll {c : ℕ} (h : MemoryWf s) : MemoryWf (landAll s c) := h.modCp.foldl fun h => h.landWrite
theorem MemoryWf.cpEnds {c : ℕ} (h : MemoryWf s) : MemoryWf (cpEnds s c) := h.when fun h => h.landAll.modCp
theorem MemoryWf.areaWrite {off n v : ℕ} (h : MemoryWf s) : MemoryWf (s.areaWrite off n v) := h.spadWrite
theorem MemoryWf.cpWaits {c : ℕ} {w : EngWait} (h : MemoryWf s) : MemoryWf (cpWaits s c w) := h.unless fun h => h.modCp.when fun h => h.countEvent

theorem MemoryWf.repPrep {i : Instr} (h : MemoryWf s) : MemoryWf (repPrep s i) := by
  unfold Machine.repPrep
  split
  · exact h.modCp
  · exact h.modCp
  · exact h

theorem MemoryWf.cpSlot {i : Instr} {act : State → State} (h : MemoryWf s) (hact : MemoryWf (act s)) : ResultWf (cpSlot i act s) := by
  unfold Machine.cpSlot
  split
  · exact h.cpTrap
  · split
    · exact h
    · split
      · exact h.repPrep.cpTrap
      · split
        · exact h.cpWaits
        · exact hact

/-! ## Slot C and what surrounds a bundle (13 R228-R234) -/

theorem MemoryWf.modMyCp {f : Cp → Cp} (h : MemoryWf s) : MemoryWf (s.modMyCp f) := h.modCp
theorem MemoryWf.beginLoop {lv e n : ℕ} {rot : Bool} (h : MemoryWf s) : MemoryWf (beginLoop lv e n rot s) := h.modMyCp
theorem MemoryWf.beginRep {n : ℕ} {st : Strides} (h : MemoryWf s) : MemoryWf (beginRep n st s) := h.modMyCp
theorem MemoryWf.takeBranch {off : BitVec 16} (h : MemoryWf s) : MemoryWf (takeBranch off s) := h.modMyCp
theorem MemoryWf.givePred {d : ℕ} {v : Bool} (h : MemoryWf s) : MemoryWf (givePred d v s) := h.give
theorem MemoryWf.closeBundle {c : ℕ} {t : Tok} (h : MemoryWf s) : MemoryWf (closeBundle s c t) := h.modCp.countEvent.settleBundles.cpEnds
theorem MemoryWf.atSlot {c : ℕ} {sl : Slot} (h : MemoryWf s) : MemoryWf (s.atSlot c sl) := h.update

theorem MemoryWf.cpFetch {c : ℕ} (h : MemoryWf s) : CpTurnWf (cpFetch s c) := by
  unfold Machine.cpFetch
  dsimp only
  refine CpTurnWf.ite h.atSlot.landDue.cpTrap ?_
  refine CpTurnWf.ite h.atSlot.landDue.cpTrap ?_
  split
  · exact (h.atSlot.landDue.foldl fun h => h.when fun h => h.repPrep).cpTrap
  · split
    · exact h.atSlot.landDue.cpWaits
    · exact h.atSlot.landDue.cpWaits
    · split
      · exact (h.atSlot.landDue.foldl fun h => h.when fun h => h.repPrep).cpTrap
      · split
        · exact h.atSlot.landDue.cpWaits
        · exact h.atSlot.landDue.takeTokens

/-! ## The cellar: the trickle, the commit, and what a resume selects (07 R112-R116, 26 R354) -/

theorem CoreWf.putBlock {b : ℕ} {v : BitVec 2048} (h : CoreWf k) : CoreWf (k.putBlock b v) := h.putSpad.ite (CoreWf.ite h.update h.update)
theorem CoreWf.putPoison {b : ℕ} {v : BitVec 4} (h : CoreWf k) : CoreWf (k.putPoison b v) := CoreWf.ite h.update (CoreWf.ite h.update h)
theorem CoreWf.poisonBlock {b : ℕ} (h : CoreWf k) : CoreWf (k.poisonBlock b) := CoreWf.ite h.putBlock.putPoison h.putBlock.putPoison.update
theorem CoreWf.noteOther {o : Other} (h : CoreWf k) : CoreWf (k.noteOther o) := CoreWf.ite h h.update
theorem CoreWf.writeCopy {o : Other} {crc : BitVec 32} {b : ℕ} (h : CoreWf k) : CoreWf (k.writeCopy o crc b) := CoreWf.ite h.update h.update
theorem CoreWf.trickle {o : Other} {b : ℕ} (h : CoreWf k) : CoreWf (Core.trickle o k b) := h.writeCopy.update
theorem CoreWf.drain {o : Other} (h : CoreWf k) : CoreWf (k.drain o) := h.noteOther.foldl fun h => h.trickle
theorem CoreWf.capSettle (h : CoreWf k) : CoreWf (k.capSettle) := CoreWf.ite h h.update
theorem MemoryWf.commitCore {c cause : ℕ} (h : MemoryWf s) : MemoryWf (commitCore s c cause) := h.modCore fun hk => hk.drain.update.capSettle

theorem CoreWf.selectBlock {g b : ℕ} {m : Cellar} (h : CoreWf k) : CoreWf (match m.chosen g b with
    | some i => (k.putBlock b (m.copy b i).data).putPoison b (m.copy b i).poison
    | none => k.poisonBlock b) := by
  split
  · exact h.putBlock.putPoison
  · exact h.poisonBlock
theorem CoreWf.select {g : ℕ} (h : CoreWf k) : CoreWf (k.select g) :=
  (((h.setSpad (m := []) rfl).update.foldl fun hk => hk.selectBlock).foldl fun hk => hk.update).update

theorem MemoryWf.loseStores {owner g : ℕ} (h : MemoryWf s) : MemoryWf (loseStores s owner g) := by
  refine h.mapCores (fun p => ?_) (fun {p} hp => ?_)
  · split <;> rfl
  · split <;> exact hp

/-! ## The words of LD and ST (15 R259-R279) -/

theorem MemoryWf.modG {f : Engine → Engine} (h : MemoryWf s) : MemoryWf (s.modG f) := h.modEng
theorem MemoryWf.engTo {pc : ℕ} (h : MemoryWf s) : MemoryWf (s.engTo pc) := h.modG
theorem MemoryWf.engWait {w : EngWait} (h : MemoryWf s) : MemoryWf (s.engWait w) := h.modG
theorem MemoryWf.engParam {detail : ℕ} (h : MemoryWf s) : MemoryWf (s.engParam detail) := h.wordTrap

theorem MemoryWf.stackWord {need : ℕ} {f : List Word → List Word} (h : MemoryWf s) : ResultWf (stackWord need f s) :=
  ResultWf.ite h.engParam (ResultWf.ite h.engParam h.modG.engTo)

theorem MemoryWf.execEset {n : ℕ} (h : MemoryWf s) : ResultWf (execEset n s) := by
  unfold Machine.execEset
  split
  · exact h.engParam
  · exact h.modG.engTo

theorem MemoryWf.execJmp (h : MemoryWf s) : ResultWf (execJmp s) := by
  unfold Machine.execJmp
  split
  · exact h.engParam
  · exact ResultWf.ite h.engParam h.modG.engTo

theorem MemoryWf.execBz (h : MemoryWf s) : ResultWf (execBz s) := by
  unfold Machine.execBz
  split
  · exact ResultWf.ite h.engParam h.modG.engTo
  · exact h.engParam

theorem MemoryWf.execEngLoop {l : ℕ} (h : MemoryWf s) : ResultWf (execEngLoop l s) := by
  unfold Machine.execEngLoop
  dsimp only
  split
  · exact h.engParam
  · exact ResultWf.ite h.engParam (ResultWf.ite h.modG.engTo h.modG.engTo)

theorem MemoryWf.engSkip {l : ℕ} {i : Option Instr} (h : MemoryWf s) : MemoryWf (engSkip s l i) := h.modG.engTo.ite h.engTo

theorem MemoryWf.enqueue {i : Instr} {n : ℕ} {checks : List Word → List (Bool × FaultInfo)} (h : MemoryWf s) : ResultWf (enqueue i n checks s) := by
  unfold Machine.enqueue
  dsimp only
  refine ResultWf.ite h.engParam ?_
  split
  · exact h.wordTrap
  · exact ResultWf.ite h.engWait h.modG.engTo

theorem MemoryWf.execWaitn {t : Tok} {e : Eng} (h : MemoryWf s) : ResultWf (execWaitn t e s) := by
  unfold Machine.execWaitn
  dsimp only
  split
  · exact h.engParam
  · refine ResultWf.ite h.engParam ?_
    refine ResultWf.ite h.engWait ?_
    split
    · exact h.engWait
    · exact h.takeTokens.modG.engTo.pushTokens

/-! ## The life of a data command after its enqueue (05 R90-R91, 15 R266-R268) -/

theorem MemoryWf.dequeueCmd {c : ℕ} {e : Eng} {k : Cmd} (h : MemoryWf s) : MemoryWf (dequeueCmd s c e k) :=
  (h.when fun h => h.countEvent).takeTokens.modEng.modRun.journalCmd

theorem MemoryWf.execEngineCommandDequeue {c : ℕ} {e : Eng} (h : MemoryWf s) : ResultWf (execEngineCommandDequeue c e s) := by
  unfold Machine.execEngineCommandDequeue
  split
  · exact h
  · exact ResultWf.ite h.dequeueCmd h

theorem MemoryWf.execEngineCommandStart {c : ℕ} {e : Eng} (h : MemoryWf s) : ResultWf (execEngineCommandStart c e s) := by
  unfold Machine.execEngineCommandStart
  split
  · exact h
  · refine ResultWf.ite h ?_
    split
    · exact h.leaveQueue.cmdTrap
    · exact h.awaitRing
    · exact h
    next t _ he =>
      have ht : MemoryWf t := h.startOf.eq he
      exact ht.setFlight

theorem MemoryWf.engAccess {c : ℕ} {e : Eng} {num w : ℕ} (h : MemoryWf s) : MemoryWf (engAccess s c e num w) := by
  unfold Machine.engAccess
  dsimp only
  split
  · exact h
  · refine MemoryWf.ite h ?_
    split
    next t _ he =>
      have ht : MemoryWf t := h.cmdStep.eq he
      exact ht.setFlight.unless fun h => h.journalCmd
    next he => exact h.cmdStep.eq he
    next t _ he =>
      have ht : MemoryWf t := h.cmdStep.eq he
      exact ht.cmdTrap

theorem MemoryWf.execEngineCommandFinish {c : ℕ} {e : Eng} {num : ℕ} (h : MemoryWf s) : ResultWf (execEngineCommandFinish c e num s) := by
  unfold Machine.execEngineCommandFinish
  split
  · exact h.when fun h => h.finishCmd
  · exact h

theorem MemoryWf.execTokenPush {c : ℕ} {e : Eng} (h : MemoryWf s) : ResultWf (execTokenPush c e s) := by
  unfold Machine.execTokenPush
  dsimp only
  split
  · exact h
  · refine ResultWf.ite h ?_
    split
    · exact h.modTok.setPushes.when fun h => h.doneCmd
    · exact h.modTok.setPushes

theorem MemoryWf.execResidencyFillDone {c n : ℕ} (h : MemoryWf s) : ResultWf (execResidencyFillDone c n s) := by
  unfold Machine.execResidencyFillDone
  dsimp only
  split
  · exact h
  · refine ResultWf.ite h ?_
    split
    next t _ he =>
      have ht : MemoryWf t := h.vwrite.eq he
      exact ht.setFlight
    next he => exact h.vwrite.eq he
    next t _ he =>
      have ht : MemoryWf t := h.vwrite.eq he
      exact ht.cmdTrap

/-! ## Launch records (05 R81-R87) -/

theorem MemoryWf.readHeader {d tctx : ℕ} {image : Word} (h : MemoryWf s) : MemoryWf (readHeader s d tctx image).1 := by
  unfold Machine.readHeader
  split <;> next he => exact h.readBytes.fst he

theorem MemoryWf.checkRecord {d tctx : ℕ} {r : Record} {nodes : ℕ} {step : Bool} (h : MemoryWf s) : MemoryWf (checkRecord s d tctx r nodes step).1 := by
  unfold Machine.checkRecord
  refine MemoryWf.ite_fst h ?_
  refine MemoryWf.ite_fst h ?_
  refine MemoryWf.ite_fst h ?_
  refine MemoryWf.ite_fst (MemoryWf.ite_fst h h) ?_
  refine MemoryWf.ite_fst h ?_
  split
  next he => exact h.readHeader.fst he
  next t _ he =>
    have ht : MemoryWf t := h.readHeader.fst he
    split
    · exact ht
    · exact MemoryWf.ite_fst ht ht

theorem MemoryWf.bindRecord {body : Record} {hdr : Header} {addr : Word} {tctx inlim : ℕ} {rows : BitVec 1024} {step : Option ℕ} {index : BitVec 32} (h : MemoryWf s) : MemoryWf (bindRecord s body hdr addr tctx inlim rows step index).1 :=
  h.modHub

theorem MemoryWf.releaseTag {id : ℕ} (h : MemoryWf s) : MemoryWf (releaseTag s id) := h.modHub
theorem MemoryWf.poolAdd {d : ℕ} {r : HeldRec} (h : MemoryWf s) : MemoryWf (poolAdd s d r) := h.modDie

theorem MemoryWf.launchNow {c : ℕ} {xa : Word} (h : MemoryWf s) : MemoryWf (launchNow s c xa).1 := by
  unfold Machine.launchNow
  dsimp only
  refine MemoryWf.ite_fst h ?_
  split
  next he => exact h.readBytes.fst he
  next t _ he =>
    have ht : MemoryWf t := h.readBytes.fst he
    split
    next he => exact ht.checkRecord.fst he
    next t _ he =>
      have ht' : MemoryWf t := ht.checkRecord.fst he
      exact MemoryWf.ite_fst ht' ht'.bindRecord.poolAdd

/-! ## Control registers and a context's ordered operations (11 R167, 12 R205) -/

theorem MemoryWf.csrReadEffect {c k n : ℕ} (h : MemoryWf s) : MemoryWf (csrReadEffect s c k n) := h.modCtx.ite (h.when fun h => h.update)

theorem MemoryWf.writeCsr {c k n : ℕ} {v : Word} (h : MemoryWf s) : MemoryWf (writeCsr s c k n v) := by
  unfold Machine.writeCsr
  dsimp only
  split
  · exact h.modCsrs
  · exact h.modCsrs
  · exact h.modCsrs
  · exact h.modCsrs
  · exact h.modCsrs
  · exact h.modCsrs
  · exact h.modCsrs
  · exact h.modCsrs.modCore fun hk => hk.capSettle
  · exact h.unless fun h => h.modCsrs
  · exact h.modCtx
  · exact h.modDie
  · exact h.modDie
  · exact h.modDie
  · exact h.modDie
  · exact h.modDie
  · exact h.modDie
  · exact h.modDie
  · exact h.modDie
  · exact h.modDie
  · exact h.modDie
  · exact h.modCsrs.ite (h.when fun h => h.modCsrs)

theorem MemoryWf.popOp {c k : ℕ} (h : MemoryWf s) : MemoryWf (popOp s c k) := h.modCtx

theorem MemoryWf.csrwStep {sel : ℕ → Word → Bool} {f : ℕ → Word → State → State} {c k : ℕ} (h : MemoryWf s)
    (hf : ∀ {n v s}, MemoryWf s → MemoryWf (f n v s)) : MemoryWf (csrwStep sel f c k s) := by
  unfold Machine.csrwStep
  split
  · exact h.when fun h => hf h.popOp
  · exact h

theorem MemoryWf.queueOp {kind : CtxOpKind} {xd : Option ℕ} (h : MemoryWf s) : MemoryWf (s.queueOp kind xd) := h.modMe.update.pass

/-! ## Expert routing, load counters and replication (10 R148-R158) -/

theorem MemoryWf.routeNow {c : ℕ} {xa : Word} (h : MemoryWf s) : MemoryWf (routeNow s c xa).1 := MemoryWf.ite_fst h (MemoryWf.ite_fst h h.modDie)

theorem MemoryWf.rtload {c : ℕ} {v : Word} (h : MemoryWf s) : MemoryWf (rtload c v s) := by
  unfold Machine.rtload
  dsimp only
  refine MemoryWf.ite h ?_
  split
  · exact h
  · exact h.modDie

theorem MemoryWf.dieLocate {d tctx : ℕ} {w : Walker} {va n : ℕ} {write : Bool} (h : MemoryWf s) : VAnsWf (dieLocate s d tctx w va n write) := by
  unfold Machine.dieLocate
  split
  · exact h
  · exact h.startWalk
  · exact h.arriveHome

theorem MemoryWf.setRun {d : ℕ} {r : RouteRun} (h : MemoryWf s) : MemoryWf (setRun s d r) := h.modDie

theorem MemoryWf.routeRead {d : ℕ} {r : RouteRun} {va n : ℕ} {f : ℕ → RouteRun} (h : MemoryWf s) : MemoryWf (routeRead s d r va n f) := by
  unfold Machine.routeRead
  split
  next he => exact h.dieLocate.eq he
  next t _ he =>
    have ht : MemoryWf t := h.dieLocate.eq he
    exact ht.setRun
  next t _ he =>
    have ht : MemoryWf t := h.dieLocate.eq he
    exact ht.setRun.ite ht.corrected.setRun

theorem MemoryWf.histNext {d : ℕ} {r : RouteRun} (h : MemoryWf s) : MemoryWf (histNext s d r) := by
  unfold Machine.histNext
  dsimp only
  refine MemoryWf.ite ?_ (h.foldl fun h => h.locWrite).setRun
  split
  next he => exact h.dieLocate.eq he
  next t _ he =>
    have ht : MemoryWf t := h.dieLocate.eq he
    exact ht.setRun
  next t _ he =>
    have ht : MemoryWf t := h.dieLocate.eq he
    exact ht.setRun

theorem MemoryWf.routeAccessNext {d : ℕ} (h : MemoryWf s) : MemoryWf (routeAccessNext s d) := by
  unfold Machine.routeAccessNext
  dsimp only
  split
  · exact h
  · refine MemoryWf.ite h ?_
    split
    · split
      next he => exact h.dieLocate.eq he
      next t _ he =>
        have ht : MemoryWf t := h.dieLocate.eq he
        exact ht.setRun
      next t _ he =>
        have ht : MemoryWf t := h.dieLocate.eq he
        exact ht.locWrite.setRun
    · refine MemoryWf.ite (h.unless fun h => h.histNext) ?_
      split
      · exact h.setRun.ite h.routeRead
      · exact h.setRun
      · exact h.routeRead

theorem MemoryWf.execRoutePassStart {d : ℕ} (h : MemoryWf s) : ResultWf (execRoutePassStart d s) := by
  unfold Machine.execRoutePassStart
  split
  · exact h.modDie
  · exact h

theorem MemoryWf.passFinished {d : ℕ} {t : BitVec 32} (h : MemoryWf s) : MemoryWf (passFinished s d t) := h.modDie.foldl fun h => h.setFlags

theorem MemoryWf.execRoutePassFinish {d : ℕ} (h : MemoryWf s) : ResultWf (execRoutePassFinish d s) := by
  unfold Machine.execRoutePassFinish
  dsimp only
  split
  · exact h
  · split
    · exact h.modDie.raiseVector.passFinished
    · exact h.when fun h => h.passFinished

theorem MemoryWf.countLoad {d tag : ℕ} (h : MemoryWf s) : MemoryWf (countLoad s d tag) := h.unless fun h => h.modDie.modHub.ite h.modDie

theorem MemoryWf.execReplicationServe (h : MemoryWf s) : ResultWf (execReplicationServe s) := by
  unfold Machine.execReplicationServe
  dsimp only
  split
  · refine ResultWf.ite h ?_
    split
    · exact h.modHub
    · split
      · exact ResultWf.ite h.modHub h.modHub.modHub.modDie
      · exact h.modHub
  · exact h

theorem MemoryWf.replicaAccessNext {d : ℕ} (h : MemoryWf s) : MemoryWf (replicaAccessNext s d) := by
  unfold Machine.replicaAccessNext
  dsimp only
  split
  · exact h
  · refine MemoryWf.ite h ?_
    refine MemoryWf.ite ?_ ?_
    · split
      next he => exact h.dieLocate.eq he
      next t _ he =>
        have ht : MemoryWf t := h.dieLocate.eq he
        exact ht.modDie
      next t _ he =>
        have ht : MemoryWf t := h.dieLocate.eq he
        exact ht.modDie.ite ht.corrected.modDie
    · split
      next he => exact h.dieLocate.eq he
      next t _ he =>
        have ht : MemoryWf t := h.dieLocate.eq he
        exact ht.modDie
      next t _ he =>
        have ht : MemoryWf t := h.dieLocate.eq he
        exact ht.locWrite.modDie

theorem MemoryWf.execReplicationCopyDone (h : MemoryWf s) : ResultWf (execReplicationCopyDone s) := by
  unfold Machine.execReplicationCopyDone
  dsimp only
  split
  · exact h
  · split
    · exact h
    · exact ResultWf.ite h.modHub.modDie (ResultWf.ite h (h.modHub.modDie.foldl fun h => h.modDie))

/-- The shadow table is copied once before the first update; `hp` is the state that this copy leaves, where it succeeds. -/
theorem MemoryWf.execReplicaUpdateApply {d : ℕ} (h : MemoryWf s) : ResultWf (execReplicaUpdateApply d s) := by
  unfold Machine.execReplicaUpdateApply
  extract_lets x ctx shadow prepared
  have hp {t : State} (ht : prepared = some t) : MemoryWf t := by
    unfold prepared at ht
    split at ht
    · cases ht; exact h
    · split at ht
      next u b hu =>
        split at ht
        next v hv =>
          have hu : MemoryWf u := h.readBytes.fst hu
          cases ht; exact hu.writeBytes.fst hv
        · cases ht
      · cases ht
  split
  · exact h
  · refine ResultWf.ite h ?_
    clear_value prepared
    split
    · exact h
    next t =>
      have ht : MemoryWf t := hp rfl
      split
      next he => exact ht.readNow.fst he
      next u _ he =>
        have hu : MemoryWf u := ht.readNow.fst he
        dsimp only
        split
        next he => exact hu.writeNow.fst he
        next he => exact (hu.writeNow.fst he).modDie

theorem MemoryWf.layerbNow {d : ℕ} (h : MemoryWf s) : MemoryWf (layerbNow s d).1 := MemoryWf.ite_fst h.modDie h

/-! ## Scalar arithmetic, jumps and branches (12 R177-R180) -/

theorem MemoryWf.aluOp {f : Word → Word → Word} {d a b : ℕ} (h : MemoryWf s) : ResultWf (aluOp f d a b s) := h.put
theorem MemoryWf.jump {d : ℕ} {t : Word} (h : MemoryWf s) : MemoryWf (s.jump d t) := h.modMe.goto
theorem MemoryWf.branch {cond : Word → Word → Bool} {a b : ℕ} {i : BitVec 14} (h : MemoryWf s) : ResultWf (branch cond a b i s) := h.goto.ite h.pass

/-! ## Scalar accesses and fences (12 R181-R189, R195-R197) -/

theorem MemoryWf.illegal (h : MemoryWf s) : MemoryWf (s.illegal) := h.trap

theorem MemoryWf.sendAccess {va size cls xd : ℕ} {loc : Loc} {op : AccOp} (h : MemoryWf s) : MemoryWf (sendAccess s va size cls xd loc op) :=
  (h.update.when fun h => h.modRun).modMe.pass

theorem MemoryWf.routeAccess {va size cls xd : ℕ} {op : AccOp} (h : MemoryWf s) : MemoryWf (routeAccess s va size cls xd op) := by
  unfold Machine.routeAccess
  split
  · exact h.trap
  · exact h.startWalk.block
  · exact h.block.ite (h.block.ite h.sendAccess)

theorem MemoryWf.scAccess {va size cls xd : ℕ} {op : AccOp} (h : MemoryWf s) : ResultWf (scAccess s va size cls xd op) :=
  h.illegal.ite (h.trap.ite (h.trap.ite h.routeAccess))

theorem MemoryWf.scAtomic {op : AtomicOp} {d a b c : ℕ} {nr : Bool} {size : ℕ} (h : MemoryWf s) : ResultWf (scAtomic op d a b c nr size s) := h.scAccess
theorem MemoryWf.scDeque {op : AccOp} {d a c : ℕ} (h : MemoryWf s) : ResultWf (scDeque op d a c s) := h.illegal.ite (h.trap.ite (h.put.ite h.routeAccess))
theorem MemoryWf.askCut {c : ℕ} (h : MemoryWf s) : MemoryWf (askCut s c) := h.modCore fun hk => hk.update

theorem MemoryWf.execPfence {d : ℕ} {sc : Scope} (h : MemoryWf s) : ResultWf (execPfence d sc s) :=
  ResultWf.ite (ResultWf.ite (h.foldl fun h => h.askCut).block (h.modMe.put.foldl fun h => h.commitCore)) h.block

/-! ## The system group of the SC (12 R188-R194, R198-R205) -/

theorem MemoryWf.csrwPlain {c k : ℕ} (h : MemoryWf s) : MemoryWf (csrwPlain s c k) := h.csrwStep fun h => h.writeCsr

theorem MemoryWf.execPclose {d a : ℕ} (h : MemoryWf s) : ResultWf (execPclose d a s) := by
  unfold Machine.execPclose
  dsimp only
  refine ResultWf.ite ?_ h.illegal
  refine ResultWf.ite h.put ?_
  refine ResultWf.ite ?_ h.modSlot.put
  split
  · exact h.trap
  · exact ResultWf.ite h.block h.closePatch.modSlot.put

theorem MemoryWf.execLngoTakeEffect {c : ℕ} (h : MemoryWf s) : ResultWf (execLngoTakeEffect c s) := by
  unfold Machine.execLngoTakeEffect
  dsimp only
  split
  · exact h
  · exact h.modCtx.modSeqs

theorem MemoryWf.orderedOp {kind : CtxOpKind} {d : ℕ} {now : State → State × Word} (h : MemoryWf s) (hnow : MemoryWf (now s).1) : ResultWf (orderedOp kind d now s) :=
  ResultWf.ite hnow.put h.queueOp

theorem MemoryWf.execTriggerMark {c : ℕ} (h : MemoryWf s) : ResultWf (execTriggerMark c s) := by
  unfold Machine.execTriggerMark
  dsimp only
  split
  · exact h
  · split
    · exact h
    · exact ResultWf.ite h.modRun.modLaunch h

theorem MemoryWf.takeArrival {c : ℕ} {a : BarArrival} (h : MemoryWf s) : MemoryWf (takeArrival s c a) := by
  unfold Machine.takeArrival
  split
  · exact h.modCtx
  · exact h.modBar

theorem MemoryWf.execBarrierArrival {c i : ℕ} (h : MemoryWf s) : ResultWf (execBarrierArrival c i s) := by
  unfold Machine.execBarrierArrival
  split
  · exact h
  · exact h.takeArrival.arrive

theorem MemoryWf.deliver {r : Reply} (h : MemoryWf s) : MemoryWf (deliver s r) := by
  unfold Machine.deliver
  dsimp only
  split
  · exact h.modCtx.ctxTrapAt
  · exact h.modCtx

theorem MemoryWf.opResult {c k : ℕ} (h : MemoryWf s) : MemoryWf (opResult s c k) := by
  unfold Machine.opResult
  dsimp only
  split
  · exact h
  · split
    · exact h
    · exact h.csrReadEffect.popOp.modCtx
    · exact h.launchNow.popOp.modCtx.ite h
    · exact h.routeNow.popOp.modCtx.ite h

theorem MemoryWf.execLoadReply {r : ReplyPick} (h : MemoryWf s) : ResultWf (execLoadReply r s) := by
  unfold Machine.execLoadReply
  split
  · exact h.opResult
  · split
    · exact h
    · exact ResultWf.ite h h.update.deliver

/-! ## Events of memory and translation (06 R98-R104, 12 R183-R189) -/

theorem MemoryWf.dequeAt {tctx c off va : ℕ} {op : AccOp} (h : MemoryWf s) : MemoryWf (dequeAt s tctx c off va op).1 := by
  unfold Machine.dequeAt
  extract_lets d refuse last value
  refine MemoryWf.ite_fst h (MemoryWf.ite_fst h ?_)
  cases op with
  | dqpush v =>
    refine MemoryWf.ite_fst h (MemoryWf.ite_fst h ?_)
    split
    · exact h
    · exact h.spadWrite.spadWrite
  | dqtake =>
    refine MemoryWf.ite_fst h ?_
    split
    · exact h
    · exact h.spadWrite
  | dqsteal =>
    refine MemoryWf.ite_fst h ?_
    split
    · exact h
    · exact h.spadWrite
  | load | store | atomic | lntw => exact h

theorem MemoryWf.retireAccess {a : Access} (h : MemoryWf s) : MemoryWf (retireAccess s a) := h.update
theorem MemoryWf.reply {a : Access} {v : Word} {f : Option FaultInfo} (h : MemoryWf s) : MemoryWf (reply s a v f) := h.update

theorem MemoryWf.failAccess {a : Access} {detail : ℕ} (h : MemoryWf s) : MemoryWf (failAccess s a detail) :=
  h.retireAccess.either (fun h => h.when fun h => h.modCtx) fun h => h.reply

theorem MemoryWf.noteWrite {a : Access} (h : MemoryWf s) : MemoryWf (noteWrite s a) := by
  unfold Machine.noteWrite
  split
  · exact h.when fun h => h.modCtx
  · exact h

theorem MemoryWf.performAt {a : Access} (h : MemoryWf s) : MemoryWf (performAt s a) := by
  unfold Machine.performAt
  dsimp only
  split
  · exact h.failAccess
  · split
    · exact h.failAccess.ite h.retireAccess.corrected.reply
    · exact h.retireAccess.locWrite.noteWrite
    · exact h.failAccess.ite (h.retireAccess.corrected.locWrite.noteWrite.when fun h => h.reply)
    · exact h.failAccess.ite h.retireAccess.modSeqs.reply
    · split
      · split
        next he => exact ((h.retireAccess.dequeAt.fst he).when fun h => h.noteWrite).reply
        next he => exact (h.retireAccess.dequeAt.fst he).reply
      · exact h.retireAccess.reply

theorem MemoryWf.scPerform {i : ℕ} (h : MemoryWf s) : MemoryWf (scPerform s i) := by
  unfold Machine.scPerform
  split
  · exact h
  · exact h.unless fun h => h.failAccess.ite (h.unless fun h => (h.failAccess.ite h.update).ite (h.arriveAt.ite (h.when fun h => h.leaveSlice.performAt)))

theorem MemoryWf.walkStep {d i : ℕ} (h : MemoryWf s) : MemoryWf (walkStep s d i) := by
  unfold Machine.walkStep
  split
  · exact h
  · refine MemoryWf.ite h ?_
    split
    · exact h.corrected.modWalks
    · exact h

theorem MemoryWf.execAccessPerform {p : AccessPick} (h : MemoryWf s) : ResultWf (execAccessPerform p s) := by
  unfold Machine.execAccessPerform
  split
  · exact h.scPerform
  · exact h.engAccess
  · exact h.routeAccessNext
  · exact h.replicaAccessNext
  · exact h.walkStep

theorem MemoryWf.execClass15Release {i : ℕ} (h : MemoryWf s) : ResultWf (execClass15Release i s) := by
  unfold Machine.execClass15Release
  split
  · exact h
  · exact ResultWf.ite h.performAt h

theorem MemoryWf.advanceWheel (h : MemoryWf s) : MemoryWf (advanceWheel s) := h.when fun h => h.modHub
theorem MemoryWf.wheelArrivals (h : MemoryWf s) : MemoryWf (wheelArrivals s) := h.update

theorem MemoryWf.walkFault {f : FaultInfo} {d : ℕ} {w : Walker × ℕ × Bool} (h : MemoryWf s) : MemoryWf (walkFault f s d w) := by
  unfold Machine.walkFault
  dsimp only
  refine MemoryWf.ite h ?_
  split
  · exact h.unless fun h => h.modCtx.ctxTrap
  · split
    · exact h.unless fun h => h.cmdTrap
    · exact h
  · split
    · exact h.setRun
    · exact h
  · exact h.modDie

theorem MemoryWf.noteSecond {f : FaultInfo} {l : List (Walker × ℕ × Bool)} (h : MemoryWf s) : MemoryWf (noteSecond f s l) :=
  h.foldl fun h => h.when fun h => h.modCore fun hk => hk.update

theorem MemoryWf.execPageWalkDone {d i : ℕ} {victim : Option ℕ} (h : MemoryWf s) : ResultWf (execPageWalkDone d i victim s) := by
  unfold Machine.execPageWalkDone
  dsimp only
  refine ResultWf.ite h ?_
  split
  · exact h
  · split
    next he => exact (h.walkRest.fst he).modDie
    next he => exact (h.walkRest.fst he).modDie.noteSecond.foldl fun h => h.walkFault

theorem MemoryWf.execInvalidationDone {i : ℕ} (h : MemoryWf s) : ResultWf (execInvalidationDone i s) := by
  unfold Machine.execInvalidationDone
  dsimp only
  split
  · exact h
  · exact ResultWf.ite h.modCtx.update h

theorem MemoryWf.dropInvalCmds {c : ℕ} (h : MemoryWf s) : MemoryWf (dropInvalCmds s c) := h.update

/-! ## Events of the two-rate machine (03 R47-R57) -/

theorem MemoryWf.landPost {c k : ℕ} {v : Word} (h : MemoryWf s) : MemoryWf (landPost c k v s) := by
  unfold Machine.landPost
  dsimp only
  split
  · exact h.modCtx
  · exact h.modCtx.ite h.modDie.modCtx

theorem MemoryWf.execBoundaryTrapDispatch {c : ℕ} (h : MemoryWf s) : ResultWf (execBoundaryTrapDispatch c s) := by
  unfold Machine.execBoundaryTrapDispatch
  dsimp only
  split
  · exact h
  · exact ResultWf.ite h h.modArch.startHandler

theorem MemoryWf.stepOff {d code : ℕ} (h : MemoryWf s) : MemoryWf (stepOff s d code) := h.modDie

theorem MemoryWf.stepEnable {d : ℕ} {v : Word} (h : MemoryWf s) : MemoryWf (stepEnable d v s) := by
  unfold Machine.stepEnable
  dsimp only
  split
  next he => exact (h.modDie.readBytes.fst he).stepOff
  next t _ he =>
    have ht : MemoryWf t := h.modDie.readBytes.fst he
    split
    next he => exact (ht.readHeader.fst he).stepOff
    next t _ he =>
      have ht' : MemoryWf t := ht.readHeader.fst he
      exact ht'.stepOff.ite ht'.modDie

theorem MemoryWf.stepFailed {d code : ℕ} (h : MemoryWf s) : MemoryWf (stepFailed s d code) := h.stepOff.raiseVector

theorem MemoryWf.formStep {d : ℕ} (h : MemoryWf s) : MemoryWf (formStep d s) := by
  unfold Machine.formStep
  dsimp only
  refine MemoryWf.ite h ?_
  split
  next he => exact (h.modDie.writeBytes.fst he).stepFailed
  next t he =>
    have ht : MemoryWf t := h.modDie.writeBytes.fst he
    split
    next he => exact (ht.checkRecord.fst he).writeNow.stepFailed
    next he => exact (ht.checkRecord.fst he).bindRecord.poolAdd.modDie

/-! ## Shared operations of the scheduler (05, 04 R62-R67, 24 R334) -/

theorem MemoryWf.haltQueue {q code : ℕ} {idx : BitVec 32} (h : MemoryWf s) : MemoryWf (haltQueue s q code idx) := h.modWq.raiseVector
theorem MemoryWf.haltRecord {q code : ℕ} {r : HeldRec} (h : MemoryWf s) : MemoryWf (haltRecord s q code r) := h.releaseTag.modWq.haltQueue
theorem MemoryWf.overfill {q : ℕ} (h : MemoryWf s) : MemoryWf (overfill s q) := h.when fun h => h.haltQueue
theorem MemoryWf.passHead {q : ℕ} (h : MemoryWf s) : MemoryWf (passHead s q) := h.modWq
theorem MemoryWf.updateEligible (h : MemoryWf s) : MemoryWf (updateEligible s) := h.update

theorem MemoryWf.noteChosen (h : MemoryWf s) : MemoryWf (noteChosen s) := by
  unfold Machine.noteChosen
  dsimp only
  split <;> exact h.modHub

theorem MemoryWf.giveBlocks {c n : ℕ} (h : MemoryWf s) : MemoryWf (giveBlocks s c n) := h.modCluster

theorem MemoryWf.passRecord {l : Launch} (h : MemoryWf s) : MemoryWf (passRecord s l) := by
  unfold Machine.passRecord
  split
  · split
    · exact h.when fun h => h.passHead
    · exact h
  · exact h

theorem MemoryWf.dropLaunch {id : ℕ} (h : MemoryWf s) : MemoryWf (dropLaunch s id) := by
  unfold Machine.dropLaunch
  refine MemoryWf.modHub ?_
  refine MemoryWf.releaseTag ?_
  split
  · exact h.passRecord
  · exact h

theorem MemoryWf.launchOver {id : ℕ} (h : MemoryWf s) : MemoryWf (launchOver s id) := by
  unfold Machine.launchOver
  split
  · exact h.when fun h => h.dropLaunch
  · exact h

theorem MemoryWf.freeCore {c : ℕ} (h : MemoryWf s) : MemoryWf (freeCore s c) := h.leaveWalks.leaveRings.giveBlocks.modArch.dropInvalCmds
theorem MemoryWf.detachAccesses {c : ℕ} (h : MemoryWf s) : MemoryWf (detachAccesses s c) := h.update
theorem CoreWf.fresh : CoreWf k.fresh := CoreWf.empty
theorem MemoryWf.partOver {id c : ℕ} (h : MemoryWf s) : MemoryWf (partOver s id c) := h.modLaunch

theorem MemoryWf.wipeCore {c : ℕ} (h : MemoryWf s) : MemoryWf (wipeCore s c) := by
  have hf : MemoryWf (Machine.freeCore (Machine.detachAccesses s c) c) := h.detachAccesses.freeCore
  unfold Machine.wipeCore
  generalize Machine.freeCore (Machine.detachAccesses s c) c = t at hf ⊢
  dsimp only
  split
  · exact (hf.modCore fun hk => hk.update).commitCore
  · exact (hf.modCore fun hk => hk.update).commitCore
  · exact (hf.modCore fun hk => hk.update).modCore fun _ => CoreWf.fresh
  · exact hf.modCore fun hk => hk.update

theorem MemoryWf.settleKill {c : ℕ} (h : MemoryWf s) : MemoryWf (settleKill s c) := by
  unfold Machine.settleKill
  refine MemoryWf.ite h ?_
  refine MemoryWf.ite h ?_
  split
  · exact h.wipeCore.partOver.launchOver
  · exact h.modCore fun hk => hk.update

theorem MemoryWf.killCore {id c : ℕ} (h : MemoryWf s) : MemoryWf (killCore s id c) :=
  h.partOver.ite ((h.modCore fun hk => hk.update).settleKill.ite h.modArch.partOver)

theorem MemoryWf.killLaunch {id : ℕ} (h : MemoryWf s) : MemoryWf (killLaunch s id) := by
  unfold Machine.killLaunch
  split
  · exact h
  · exact (h.foldl fun h => h.killCore).launchOver

theorem MemoryWf.enlarge {c n : ℕ} (h : MemoryWf s) : MemoryWf (enlarge s c n) := h.modTok.ite h.modSeqs
theorem MemoryWf.noteWaits {c : ℕ} (h : MemoryWf s) : MemoryWf (noteWaits s c) := h.modSeqs

/-! ## Events of the scheduler and the loader (05 R79-R95, 04 R60-R67) -/

theorem MemoryWf.execWqtailWrite {q : ℕ} {v : BitVec 32} (h : MemoryWf s) : ResultWf (execWqtailWrite q v s) := h.modWq.overfill.modWq
theorem MemoryWf.execWqEnable {q : ℕ} {v : BitVec 64} (h : MemoryWf s) : ResultWf (execWqEnable q v s) := ResultWf.ite h h.modWq

theorem MemoryWf.execWqDisable {q : ℕ} {v : BitVec 64} (h : MemoryWf s) : ResultWf (execWqDisable q v s) := by
  unfold Machine.execWqDisable
  dsimp only
  refine ResultWf.ite h ?_
  refine MemoryWf.modWq ?_
  split
  · exact h.unless fun h => h.releaseTag
  · exact h

theorem MemoryWf.execWqHaltClear {q : ℕ} (h : MemoryWf s) : ResultWf (execWqHaltClear q s) := ResultWf.ite h h.modWq.overfill

theorem MemoryWf.execQueueRecordRead {q : ℕ} (h : MemoryWf s) : ResultWf (execQueueRecordRead q s) := by
  unfold Machine.execQueueRecordRead
  dsimp only
  refine ResultWf.ite h ?_
  refine ResultWf.ite h.modWq ?_
  split
  next he => exact (h.modWq.readNow.fst he).haltQueue
  next t _ he =>
    have ht : MemoryWf t := h.modWq.readNow.fst he
    split
    next he => exact (ht.checkRecord.fst he).haltQueue
    next he => exact (ht.checkRecord.fst he).bindRecord.modWq

theorem MemoryWf.takenAt {pos level id : ℕ} (h : MemoryWf s) : MemoryWf (takenAt s pos level id) := h.modHub

theorem MemoryWf.execNodeEvaluate {q : ℕ} (h : MemoryWf s) : ResultWf (execNodeEvaluate q s) := by
  unfold Machine.execNodeEvaluate
  split
  · exact h
  · refine ResultWf.ite h ?_
    split
    next he => exact (h.readNow.fst he).haltRecord
    next he => exact (h.readNow.fst he).releaseTag.modWq.takenAt

theorem MemoryWf.placeCore {src : Source} {r : HeldRec} {i : ℕ} {p : Placement} (h : MemoryWf s) : MemoryWf (placeCore s src r i p) := h.modArch.modHub

theorem MemoryWf.foldIdx {α : Type} {f : State → ℕ → α → State} {n : ℕ} {l : List α} (h : MemoryWf s)
    (hf : ∀ {s : State} {i : ℕ} {a : α}, MemoryWf s → MemoryWf (f s i a)) : MemoryWf (foldIdx f n l s) := by
  induction l generalizing s n with
  | nil => exact h
  | cons a l ih => exact ih (hf h)

theorem MemoryWf.takeRecord {src : Source} {r : HeldRec} (h : MemoryWf s) : MemoryWf (takeRecord s src r) := by
  unfold Machine.takeRecord
  split
  · exact h.modWq
  · exact h.modDie

theorem MemoryWf.placeRecord {src : Source} {level : ℕ} {r : HeldRec} {cohort : List Placement} (h : MemoryWf s) : MemoryWf (placeRecord s src level r cohort) :=
  (h.foldIdx fun h => h.placeCore).takeRecord.takenAt.modHub

theorem MemoryWf.execRecordPlace {src : Source} {cohort : List Placement} (h : MemoryWf s) : ResultWf (execRecordPlace src cohort s) := by
  unfold Machine.execRecordPlace
  split
  · exact h
  · exact ResultWf.ite h.placeRecord h

theorem CoreWf.clearUnits {regs : List ℕ} (h : CoreWf k) : CoreWf (k.clearUnits regs) := (h.foldl fun h => h.mark).mark.update

theorem CoreWf.loadStreams {sc ld cp st : List Byte} (h : CoreWf k) : CoreWf (k.loadStreams sc ld cp st) :=
  ⟨h.1, memPutBytes_wf rfl _ _, memPutBytes_wf rfl _ _, memPutBytes_wf rfl _ _, memPutBytes_wf rfl _ _⟩

theorem CoreWf.loadArea {area spneed : ℕ} {data : List Byte} (h : CoreWf k) : CoreWf (k.loadArea area spneed data) :=
  (h.setSpad (filter_wf _ h.1)).update.putSpad.mark

theorem MemoryWf.readOverlay {r : HeldRec} {i most : ℕ} (h : MemoryWf s) : MemoryWf (readOverlay s r i most).1 := h.readBytes

theorem MemoryWf.readOverlays {r : HeldRec} {l : List (ℕ × ℕ)} {acc : List (List Byte)} (h : MemoryWf s) : MemoryWf (readOverlays s r l acc).1 := by
  induction l generalizing s acc with
  | nil => exact h
  | cons p l ih =>
    unfold Machine.readOverlays
    split
    next e => exact h.readOverlay.fst e
    next e => exact ih (h.readOverlay.fst e)

theorem MemoryWf.loadFailed {l : Launch} {f : FaultInfo} (h : MemoryWf s) : MemoryWf (loadFailed s l f) := by
  unfold Machine.loadFailed
  dsimp only
  split
  · exact h.haltRecord.killLaunch
  · exact h.killLaunch.writeNow.stepFailed
  · exact h.writeRecord.killLaunch

theorem CoreWf.putPart {j v : ℕ} (h : CoreWf k) : CoreWf (putPart k j v) :=
  CoreWf.ite h.putBlock (CoreWf.ite h.update (CoreWf.ite h.update (CoreWf.ite h.update h.update)))

theorem MemoryWf.saveUnits {c : ℕ} {p : Parked} (h : MemoryWf s) : MemoryWf (saveUnits s c p) := (h.foldl fun h => h.hbmWrite).modArch
theorem MemoryWf.lazySave {c : ℕ} {keep : Option ℕ} (h : MemoryWf s) : MemoryWf (lazySave s c keep) := h.foldl fun h => h.saveUnits

theorem MemoryWf.restoreUnits {c : ℕ} {r : Running} {parts : List ℕ} (h : MemoryWf s) : MemoryWf (restoreUnits s c r parts) :=
  (h.foldl fun h => h.corrected).modCore fun hk => (hk.update.update.foldl fun hk => hk.putPart).mark.mark

theorem MemoryWf.loadCore {c : ℕ} {r : Running} {bs : List (List Byte)} (h : MemoryWf s) : MemoryWf (loadCore s c r bs) :=
  h.lazySave.modCore fun hk => hk.loadStreams.loadArea.clearUnits.update

theorem MemoryWf.loadedAll {id : ℕ} (h : MemoryWf s) : MemoryWf (loadedAll s id) := by
  unfold Machine.loadedAll
  split
  · exact h
  · exact h.unless fun h => h.modLaunch.passRecord

theorem MemoryWf.execOverlayLoad {c : ℕ} (h : MemoryWf s) : ResultWf (execOverlayLoad c s) := by
  unfold Machine.execOverlayLoad
  split
  · exact h
  · split
    · exact h
    · refine ResultWf.ite h ?_
      split
      next he => exact (h.readOverlays.fst he).loadFailed
      next he => exact (h.readOverlays.fst he).loadCore.loadedAll

theorem MemoryWf.execPointStart {c : ℕ} (h : MemoryWf s) : ResultWf (execPointStart c s) := by
  unfold Machine.execPointStart
  dsimp only
  split
  · exact h
  · split
    · exact h
    · exact ResultWf.ite h h.modArch

theorem MemoryWf.execPointComplete {c : ℕ} (h : MemoryWf s) : ResultWf (execPointComplete c s) := by
  unfold Machine.execPointComplete
  dsimp only
  split
  · exact h
  · exact ResultWf.ite h (ResultWf.ite h.giveBlocks.modArch h.modLaunch.freeCore.launchOver)

theorem MemoryWf.parkCore {c : ℕ} (h : MemoryWf s) : MemoryWf (parkCore s c) := by
  unfold Machine.parkCore
  dsimp only
  split
  · exact h
  · exact h.leaveWalks.leaveRings.giveBlocks.update.modArch

theorem MemoryWf.setLeaving {v : Bool} {c : ℕ} (h : MemoryWf s) : MemoryWf (setLeaving v s c) := h.modCore fun hk => hk.update
theorem MemoryWf.leaveCore {c : ℕ} (h : MemoryWf s) : MemoryWf (leaveCore s c) := h.parkCore.setLeaving

theorem MemoryWf.settleLeaving {id : ℕ} (h : MemoryWf s) : MemoryWf (settleLeaving s id) := by
  unfold Machine.settleLeaving
  dsimp only
  split
  · exact h
  · exact h.unless fun h => (h.foldl fun h => h.setLeaving).modLaunch.ite (h.unless fun h => (h.foldl fun h => h.leaveCore).modHub.modLaunch)

theorem MemoryWf.settlePreempts (h : MemoryWf s) : MemoryWf (settlePreempts s) := h.foldl fun h => h.settleLeaving

theorem MemoryWf.execPreempt {id : ℕ} (h : MemoryWf s) : ResultWf (execPreempt id s) := by
  unfold Machine.execPreempt
  dsimp only
  split
  · exact h
  · split
    · exact h
    · exact ResultWf.ite h (h.foldl fun h => h.setLeaving).modLaunch.settleLeaving

theorem MemoryWf.reloadStreams {r : Running} {img : Word} (h : MemoryWf s) : MemoryWf (reloadStreams s r img).1 := h.readOverlays
theorem CoreWf.streams {bs : List (List Byte)} (h : CoreWf k) : CoreWf (k.streams bs) := h.loadStreams

/-- `hr` speaks of the reload of the streams, which happens only for a launch whose units were saved. -/
theorem MemoryWf.unparkCore {id c wheelP : ℕ} (h : MemoryWf s) : MemoryWf (unparkCore s id c wheelP).1 := by
  unfold Machine.unparkCore
  split
  · exact h
  next k _ =>
    extract_lets r₀ r
    have hr {p : State × Except FaultInfo (List (List Byte))}
        (hp : (match k.saved with | some _ => Machine.reloadStreams s r k.csrs.img | none => (s, .ok [])) = p) : MemoryWf p.1 := by
      subst hp
      split
      · exact h.reloadStreams
      · exact h
    split
    next he => exact hr he
    next t bs he =>
      have ht : MemoryWf t := hr he
      split
      · exact ht
      · extract_lets s₁ s₂ s₃ s₄ s₅
        have h₁ : MemoryWf s₁ := ht.when fun h => h.lazySave
        have h₃ : MemoryWf s₃ := h₁.modCluster.modCore fun hk => hk.update
        have h₄ : MemoryWf s₄ := by
          unfold s₄
          split
          · exact h₃.restoreUnits.modCore fun hk => hk.streams
          · exact h₃
        have h₅ : MemoryWf s₅ := h₄.remake
        clear_value s₅
        exact h₅.modHub

theorem MemoryWf.unparkCores {id : ℕ} {pOf : ℕ → ℕ} {l : List ℕ} (h : MemoryWf s) : MemoryWf (unparkCores s id pOf l).1 := by
  induction l generalizing s with
  | nil => exact h
  | cons c l ih =>
    unfold Machine.unparkCores
    split
    next e => exact h.unparkCore.fst e
    next e => exact ih (h.unparkCore.fst e)

theorem MemoryWf.execLaunchResume {id : ℕ} {wheel : List (ℕ × ℕ)} (h : MemoryWf s) : ResultWf (execLaunchResume id wheel s) := by
  unfold Machine.execLaunchResume
  dsimp only
  split
  · exact h
  · refine ResultWf.ite h ?_
    split
    next he => exact (h.unparkCores.fst he).modLaunch
    next he => exact (h.unparkCores.fst he).writeRecord.killLaunch

theorem MemoryWf.execFqUnderflow {c : ℕ} (h : MemoryWf s) : ResultWf (execFqUnderflow c s) := by
  unfold Machine.execFqUnderflow
  split
  · exact ResultWf.ite h.mqTrap h
  · exact h

theorem MemoryWf.execDeadlockRelief {c : ℕ} (h : MemoryWf s) : ResultWf (execDeadlockRelief c s) := by
  unfold Machine.execDeadlockRelief
  split
  · exact h
  · exact ResultWf.ite h.enlarge.modCluster.modSeqs h

theorem MemoryWf.wholeStop {c code detail queue : ℕ} (h : MemoryWf s) : MemoryWf (wholeStop s c code detail queue) := h.takeStop

theorem MemoryWf.execQueueDeadlock {c : ℕ} (h : MemoryWf s) : ResultWf (execQueueDeadlock c s) := by
  unfold Machine.execQueueDeadlock
  refine ResultWf.ite h ?_
  split
  · exact h.when fun h => h.wholeStop
  · exact ResultWf.ite h (ResultWf.ite h.wholeStop (ResultWf.ite h.wholeStop h))

theorem MemoryWf.execFreezeTimeout {c : ℕ} (h : MemoryWf s) : ResultWf (execFreezeTimeout c s) := by
  unfold Machine.execFreezeTimeout
  dsimp only
  split
  · refine ResultWf.ite ?_ h
    split
    · exact h.modArch.wholeStop
    · exact h.modArch.modCp.wholeStop
  · exact h

theorem MemoryWf.execBarrierIdle {c k : ℕ} (h : MemoryWf s) : ResultWf (execBarrierIdle c k s) := by
  unfold Machine.execBarrierIdle
  split
  · exact ResultWf.ite h.wholeStop h
  · exact h

/-! ## Active messages and hooks (25 R343-R344, 09 R144) -/

theorem MemoryWf.pushArrival {c id : ℕ} {a : Arrival} (h : MemoryWf s) : MemoryWf (pushArrival s c id a) := h.modSeqs.ite h.modArch

theorem MemoryWf.sendAccepted {m : Message} (h : MemoryWf s) : MemoryWf (sendAccepted s m) := by
  unfold Machine.sendAccepted
  dsimp only
  split
  · exact h.modEng.setFlight.journalCmd
  · exact h.modEng

theorem MemoryWf.sendFaulted {m : Message} {f : FaultInfo} (h : MemoryWf s) : MemoryWf (sendFaulted s m f) := by
  unfold Machine.sendFaulted
  dsimp only
  split
  · exact h.modEng.cmdTrap
  · exact h.modEng

theorem MemoryWf.sendDone {m : Message} {c id : ℕ} (h : MemoryWf s) : MemoryWf (sendDone s m c id) :=
  ((h.when fun h => h.modArch).countLoad.unless fun h => h.pushArrival).sendAccepted

theorem MemoryWf.execSendArrival {i : ℕ} (h : MemoryWf s) : ResultWf (execSendArrival i s) := by
  unfold Machine.execSendArrival
  dsimp only
  split
  · exact h
  · refine ResultWf.ite h ?_
    split
    · exact h.leaveSlice.update.sendFaulted
    · refine ResultWf.ite h ?_
      refine ResultWf.ite h.arriveAt ?_
      refine ResultWf.ite h ?_
      split
      · exact ResultWf.ite h.leaveSlice.update.modArch.update ((h.update.ite h.leaveSlice.update).spadWrite.unless fun h => h.sendDone)
      · exact h.leaveSlice.update.sendFaulted
      · exact h.leaveSlice.update.sendFaulted

theorem MemoryWf.execDataArrivalDispatch {c : ℕ} (h : MemoryWf s) : ResultWf (execDataArrivalDispatch c s) := by
  unfold Machine.execDataArrivalDispatch
  dsimp only
  split
  · exact ResultWf.ite h h.modSeqs.startHandler
  · exact h

theorem MemoryWf.execRetryLaterReceive {i : ℕ} (h : MemoryWf s) : ResultWf (execRetryLaterReceive i s) := by
  unfold Machine.execRetryLaterReceive
  dsimp only
  split
  · exact h
  · refine ResultWf.ite h ?_
    split
    · exact h.update
    · exact h.update.setFlight.modEng

theorem MemoryWf.execReplayBackoffExpiry {c : ℕ} (h : MemoryWf s) : ResultWf (execReplayBackoffExpiry c s) := by
  unfold Machine.execReplayBackoffExpiry
  dsimp only
  split
  · exact h
  · exact ResultWf.ite h h.modEng.update

theorem MemoryWf.answerParcel {p : Parcel} {f : Option FaultInfo} (h : MemoryWf s) : MemoryWf (answerParcel s p f) := h.modHub
theorem MemoryWf.endInbound {i : ℕ} {p : Parcel} {last : Bool} {f : Option FaultInfo} (h : MemoryWf s) : MemoryWf (endInbound s i p last f) := h.modHub.answerParcel
theorem MemoryWf.setInbound {i : ℕ} {x : Inbound} (h : MemoryWf s) : MemoryWf (setInbound s i x) := h.modHub

theorem MemoryWf.importPool {i : ℕ} {x : Inbound} {pool : ℕ} (h : MemoryWf s) : MemoryWf (importPool s i x pool) := by
  unfold Machine.importPool
  split
  next he => exact (h.readNow.fst he).endInbound
  next he => exact (h.readNow.fst he).setInbound

theorem MemoryWf.importCopy {i : ℕ} {x : Inbound} {pool page size off : ℕ} {bytes : List Byte} (h : MemoryWf s) : MemoryWf (importCopy s i x pool page size off bytes) := by
  unfold Machine.importCopy
  dsimp only
  split
  · exact h.importPool.ite (h.endInbound.ite h.modHub)
  · refine MemoryWf.ite ?_ ?_
    · split
      next he => exact (h.locateNow.fst he).endInbound
      next he => exact (h.locateNow.fst he).modHub
    · split
      next he => exact (h.reached.fst he).endInbound
      next t _ he =>
        have ht : MemoryWf t := h.reached.fst he
        split
        · exact ht.endInbound
        · exact ht.locWrite.either (fun h => h.setInbound) fun h => h.endInbound

theorem MemoryWf.importInc {i : ℕ} {x : Inbound} {pool page : ℕ} {inc : Bool} (h : MemoryWf s) : MemoryWf (importInc s i x pool page inc) := by
  unfold Machine.importInc
  dsimp only
  refine MemoryWf.ite h.importPool ?_
  refine MemoryWf.ite h.endInbound ?_
  refine MemoryWf.ite h.endInbound ?_
  refine MemoryWf.ite h.endInbound ?_
  split
  next he => exact (h.locateNow.fst he).endInbound
  next t _ he =>
    have ht : MemoryWf t := h.locateNow.fst he
    split
    · exact ht.endInbound
    · exact ht.endInbound.ite ht.corrected.addWords.endInbound

theorem MemoryWf.takeAck {p : Parcel} {f : Option FaultInfo} (h : MemoryWf s) : MemoryWf (takeAck s p f) := by
  unfold Machine.takeAck
  dsimp only
  split
  · exact h
  · refine MemoryWf.ite h ?_
    split
    · exact h.cmdTrap
    · exact h.setFlight.journalCmd.ite h.setFlight

theorem MemoryWf.takeParcel {p : Parcel} (h : MemoryWf s) : MemoryWf (takeParcel s p) := by
  unfold Machine.takeParcel
  refine MemoryWf.ite h ?_
  split
  · exact h.takeAck
  · exact h.modHub
  · exact h.modHub

theorem MemoryWf.inboundNext {i : ℕ} (h : MemoryWf s) : MemoryWf (inboundNext s i) := by
  unfold Machine.inboundNext
  split
  · exact h
  · refine MemoryWf.ite h ?_
    split
    · exact h.importCopy
    · exact h.importInc
    · exact h.importInc
    · exact h

theorem MemoryWf.putHkst {c : ℕ} {v : Word} (h : MemoryWf s) : MemoryWf (putHkst s c v) := h.unless fun h => h.modCsrs.setFlags

theorem MemoryWf.hookEntry {d tctx : ℕ} {block : Word} (h : MemoryWf s) : MemoryWf (hookEntry s d tctx block).1 := by
  unfold Machine.hookEntry
  split
  next he => exact h.readNow.fst he
  next t _ he =>
    have ht : MemoryWf t := h.readNow.fst he
    split <;> next he => exact ht.readNow.fst he

theorem MemoryWf.execHookStart {c : ℕ} (h : MemoryWf s) : ResultWf (execHookStart c s) := by
  unfold Machine.execHookStart
  dsimp only
  split
  · refine ResultWf.ite h ?_
    split
    next he => exact (h.modCsrs.hookEntry.fst he).putHkst
    next he => exact (h.modCsrs.hookEntry.fst he).startHandler
  · exact h

theorem MemoryWf.execHookBudgetExpiry {c : ℕ} (h : MemoryWf s) : ResultWf (execHookBudgetExpiry c s) := by
  unfold Machine.execHookBudgetExpiry
  split
  · exact h.when fun h => h.hookStop
  · exact h

theorem MemoryWf.noteIdle {c n : ℕ} {target : BitVec 16} (h : MemoryWf s) : MemoryWf (noteIdle s c n target) := h.foldl fun h => h.when fun h => h.modCtx

/-! ## Gates, rails, power loss and return (07 R113-R118, 26 R354-R358) -/

theorem MemoryWf.execTrickleWrite {c : ℕ} (h : MemoryWf s) : ResultWf (execTrickleWrite c s) := by
  unfold Machine.execTrickleWrite
  dsimp only
  split
  · exact h
  · exact ResultWf.ite h (h.modCore fun hk => CoreWf.ite hk.noteOther.trickle.capSettle hk.noteOther.trickle.capSettle.update)

theorem MemoryWf.dropAccesses {c : ℕ} (h : MemoryWf s) : MemoryWf (dropAccesses s c) := h.update
theorem MemoryWf.gateCore {c : ℕ} (h : MemoryWf s) : MemoryWf (gateCore s c) := h.commitCore.dropAccesses.modCore fun hk => hk.update

theorem MemoryWf.execCoreGate {c k : ℕ} (h : MemoryWf s) : ResultWf (execCoreGate c k s) := by
  unfold Machine.execCoreGate
  split
  · exact ResultWf.ite (ResultWf.ite h.askCut h.popOp.gateCore) h
  · exact h

theorem MemoryWf.wakeCore {c : ℕ} (h : MemoryWf s) : MemoryWf (wakeCore s c) := h.modCore fun hk => hk.update
theorem MemoryWf.goOn {c : ℕ} (h : MemoryWf s) : MemoryWf (goOn s c) := h.modSeqs.unless fun h => h.remake

theorem MemoryWf.execWakeComplete {c : ℕ} (h : MemoryWf s) : ResultWf (execWakeComplete c s) := by
  unfold Machine.execWakeComplete
  dsimp only
  split
  · exact ResultWf.ite (h.modCore fun hk => hk.select.update).goOn.update h
  · exact h

theorem MemoryWf.startSwitch {g : ℕ} {sel : Bool} (h : MemoryWf s) : MemoryWf (startSwitch s g sel) := h.modCluster

theorem MemoryWf.endSwitch {g : ℕ} (h : MemoryWf s) : MemoryWf (endSwitch s g) := by
  unfold Machine.endSwitch
  dsimp only
  refine MemoryWf.ite h ?_
  split
  · exact h.modCluster.ite h.startSwitch
  · exact h.modCluster

theorem MemoryWf.boundSwitches (h : MemoryWf s) : MemoryWf (boundSwitches s) := h.foldl fun h => h.when fun h => h.endSwitch

theorem MemoryWf.missWindow {a : Access} (h : MemoryWf s) : MemoryWf (missWindow s a) := by
  unfold Machine.missWindow
  dsimp only
  refine MemoryWf.ite ?_ h
  split <;> exact h.modCtx

theorem MemoryWf.holdupStart {c : ℕ} (h : MemoryWf s) : MemoryWf (holdupStart s c) := by
  have hd : MemoryWf (Machine.drainMatrix s c 16) := h.drainMatrix
  unfold Machine.holdupStart
  generalize Machine.drainMatrix s c 16 = t at hd ⊢
  split
  · exact h
  · exact h
  · exact h.modCore fun hk => hk.update
  · exact h.modCore fun hk => hk.update
  · dsimp only
    split
    · exact (hd.finishStop.modCore fun hk => hk.update).settleKill
    · exact (hd.modCore fun hk => hk.update).settleKill

theorem MemoryWf.loseDie {d : ℕ} (h : MemoryWf s) : MemoryWf (loseDie s d) := by
  have hr : MemoryWf (((s.die d).pool.map (fun r => r.id)).foldl Machine.releaseTag s) := h.foldl fun h => h.releaseTag
  exact (hr.setHbm (filter_wf _ hr.hbm)).update

theorem MemoryWf.closeCore {c : ℕ} (h : MemoryWf s) : MemoryWf (closeCore s c) := (h.foldl fun h => h.missWindow).dropAccesses.modSeqs.ite h.dropAccesses

theorem MemoryWf.closeWindow {d : ℕ} (h : MemoryWf s) : MemoryWf (closeWindow s d) := by
  have hc : MemoryWf ((coresOf d).foldl Machine.closeCore s) := h.foldl fun h => h.closeCore
  exact hc.update.loseDie

theorem MemoryWf.holdupCommit {c : ℕ} (h : MemoryWf s) : MemoryWf (holdupCommit s c) := h.when fun h => h.commitCore.modCore fun hk => hk.update

theorem MemoryWf.holdupCycle {d : ℕ} (h : MemoryWf s) : MemoryWf (holdupCycle s d) := by
  unfold Machine.holdupCycle
  split
  · exact h
  · exact (h.when fun h => h.closeWindow).ite (h.foldl fun h => h.when fun h => h.holdupCommit)

theorem CoreWf.tear {o : Other} {b c now : ℕ} (h : CoreWf k) : CoreWf (k.tear o b c now) := by
  have hd {l : List ℕ} : CoreWf (l.foldl (Core.trickle o) (k.noteOther o)) := h.noteOther.foldl fun h => h.trickle
  unfold Core.tear
  dsimp only
  split
  · exact hd.writeCopy
  · exact hd

theorem MemoryWf.lostParts {c : ℕ} {keep : List ℕ} (h : MemoryWf s) : MemoryWf (lostParts s c keep) := h.foldl fun h => h.partOver.launchOver

theorem MemoryWf.rebuildLaunch {c : ℕ} {r : Running} {parked : Bool} (h : MemoryWf s) : MemoryWf (rebuildLaunch s c r parked) := by
  unfold Machine.rebuildLaunch
  dsimp only
  split
  · exact h.unless fun h => h.modHub.modLaunch
  · exact h.modHub

theorem MemoryWf.returnCore {c : ℕ} (h : MemoryWf s) : MemoryWf (returnCore s c) := by
  unfold Machine.returnCore
  extract_lets s₁ m g o s₂ parked s₃ s₄
  have h₁ : MemoryWf s₁ := h.holdupCommit
  have h₂ : MemoryWf s₂ := h₁.modCore fun hk => hk.update
  have h₄ : MemoryWf s₄ := by
    unfold s₄
    split
    · exact h₂.lostParts.rebuildLaunch
    · exact h₂.lostParts
  clear_value s₄ s₁
  exact MemoryWf.ite h₁ (MemoryWf.ite (h₁.modCore fun _ => CoreWf.fresh).loseStores.lostParts (h₄.foldl fun h => h.rebuildLaunch))

theorem MemoryWf.returnDies {l : List ℕ} (h : MemoryWf s) : MemoryWf (returnDies s l) :=
  ((h.foldl fun h => h.modDie).foldl fun h => h.foldl fun h => h.returnCore).when fun h => h.raiseVector

theorem MemoryWf.wakeHeld {c : ℕ} (h : MemoryWf s) : MemoryWf (wakeHeld s c) := by
  unfold Machine.wakeHeld
  dsimp only
  refine MemoryWf.ite h ?_
  split
  · exact (h.loseStores.modCore fun hk => hk.select.streams.update).modArch.modCluster.goOn.raiseVector
  · split
    next he => exact (h.reloadStreams.fst he).writeRecord
    next he => exact ((h.reloadStreams.fst he).loseStores.modCore fun hk => hk.select.streams.update).modArch.modCluster.goOn.raiseVector

theorem MemoryWf.execWakeWrite {c : ℕ} (h : MemoryWf s) : ResultWf (execWakeWrite c s) := by
  unfold Machine.execWakeWrite
  refine ResultWf.ite h ?_
  split
  · exact h.wakeCore
  · exact h.wakeHeld
  · exact h

theorem MemoryWf.execCellarDrop {c : ℕ} (h : MemoryWf s) : ResultWf (execCellarDrop c s) := ResultWf.ite (h.modCore fun _ => CoreWf.fresh).loseStores.lostParts h

/-! ## Boot, the trust mailbox, the power hub and the monitor (17 R292-R301) -/

theorem MemoryWf.physWrite {pa : ℕ} {bs : List Byte} (h : MemoryWf s) : MemoryWf (physWrite s pa bs) := h.when fun h => h.hbmWrite

/-- The fold over the 512 cores is generalized, so that no defeq check runs it. -/
theorem MemoryWf.powerOn (h : MemoryWf s) : MemoryWf (powerOn s) := by
  have hc : MemoryWf ((List.range 512).foldl Machine.holdupCommit s) := h.foldl fun h => h.holdupCommit
  unfold Machine.powerOn
  generalize (List.range 512).foldl Machine.holdupCommit s = t at hc ⊢
  exact (hc.mapCores (f := fun p => (p.1, { p.2 with dbg := {} })) (fun _ => rfl) fun hk => hk.update).update

theorem MemoryWf.execPowerOnBoot {b : BootImage} (h : MemoryWf s) : ResultWf (execPowerOnBoot b s) := by
  unfold Machine.execPowerOnBoot
  extract_lets off t back
  have ht : MemoryWf t := h.when fun h => h.powerOn
  have hb {u : State} (hu : MemoryWf u) : MemoryWf (back u) := hu.when fun h => h.returnDies
  clear_value t back
  exact ResultWf.ite h (ResultWf.ite (hb ht.modHub) (hb ht.modHub.update))

theorem MemoryWf.mboxStart (h : MemoryWf s) : MemoryWf (mboxStart s) := h.modHub
theorem MemoryWf.mboxRun {n : ℕ} (h : MemoryWf s) : MemoryWf (mboxRun n s) := h.when fun h => h.mboxStart

theorem MemoryWf.execTrustCommandDone (h : MemoryWf s) : ResultWf (execTrustCommandDone s) := by
  unfold Machine.execTrustCommandDone
  dsimp only
  split
  · exact h
  · exact h.modHub.update.raiseVector

/-! ## Errors of SRAM, HBM and links (25 R345-R353) -/

theorem MemoryWf.endSramFreeze {c : ℕ} (h : MemoryWf s) : MemoryWf (endSramFreeze s c) := by
  unfold Machine.endSramFreeze
  split
  · exact h.when fun h => h.modArch
  · exact h

theorem CoreWf.errorAt {x : SramPlace} (h : CoreWf k) : CoreWf (k.errorAt x) := by
  unfold Core.errorAt
  dsimp only
  split
  · exact h.update.mark
  · exact h.update.mark
  · exact h.update.mark
  · exact h.update
  · exact h.update

theorem MemoryWf.execPatrolScrub {pa : ℕ} {o : EccOutcome} (h : MemoryWf s) : ResultWf (execPatrolScrub pa o s) := by
  unfold Machine.execPatrolScrub
  dsimp only
  refine ResultWf.ite h ?_
  split
  · exact h.update.update
  · exact h.update.modDie
  · exact h.when fun h => h.update.modDie

theorem MemoryWf.setLink {l : Link} {f : LinkState → LinkState} (h : MemoryWf s) : MemoryWf (setLink s l f) := by
  unfold Machine.setLink
  dsimp only
  split
  · exact h.modLink.unless fun h => h.raiseVector
  · exact h.modLink

theorem MemoryWf.execFlitCrcMismatch {l : Link} (h : MemoryWf s) : ResultWf (execFlitCrcMismatch l s) := by
  unfold Machine.execFlitCrcMismatch
  dsimp only
  split
  · exact h.modLink.update.modDie
  · exact h.modLink.update

theorem MemoryWf.loseReplies (h : MemoryWf s) : MemoryWf (loseReplies s) := h.update

theorem MemoryWf.losePort {p : ℕ} (h : MemoryWf s) : MemoryWf (losePort s p) := by
  refine h.modHub.foldl fun h => ?_
  split
  · exact h.cmdTrap
  · exact h

theorem MemoryWf.execLinkDead {l : Link} (h : MemoryWf s) : ResultWf (execLinkDead l s) := by
  unfold Machine.execLinkDead
  dsimp only
  refine ResultWf.ite ?_ h
  split
  · exact h.setLink.losePort
  · exact h.setLink.loseReplies

theorem MemoryWf.execPortRetrainWrite {p : ℕ} (h : MemoryWf s) : ResultWf (execPortRetrainWrite p s) := ResultWf.ite h.setLink h
theorem MemoryWf.execPortDisableWrite {p : ℕ} {dis : Bool} (h : MemoryWf s) : ResultWf (execPortDisableWrite p dis s) := h.setLink.when fun h => h.losePort
theorem MemoryWf.execErrcntClear {d : ℕ} (h : MemoryWf s) : ResultWf (execErrcntClear d s) := h.modDie

/-! ## What the host does to the module (24 R326, R333-R337) -/

theorem MemoryWf.modDbg {c : ℕ} {f : Debug → Debug} (h : MemoryWf s) : MemoryWf (modDbg s c f) := h.modCore fun hk => hk.update
theorem MemoryWf.abandonStep {c : ℕ} (h : MemoryWf s) : MemoryWf (abandonStep s c) := h.endInjection.modDbg
theorem MemoryWf.execDbgHalt {c : ℕ} {qhold : Bool} (h : MemoryWf s) : ResultWf (execDbgHalt c qhold s) := (h.when fun h => h.abandonStep).modDbg
theorem MemoryWf.execDbgStep {c party : ℕ} (h : MemoryWf s) : ResultWf (execDbgStep c party s) := ResultWf.ite h (ResultWf.ite h.modDbg.modDbg.modCtx h.modDbg)
theorem MemoryWf.releaseHalt {c : ℕ} (h : MemoryWf s) : MemoryWf (releaseHalt s c) := h.modDbg.reportPend

theorem MemoryWf.execDbgResume {c : ℕ} (h : MemoryWf s) : ResultWf (execDbgResume c s) := by
  unfold Machine.execDbgResume
  split
  · exact h.unless fun h => h.resumeCore.reportPend
  · exact h

theorem MemoryWf.execDbgKill {c : ℕ} (h : MemoryWf s) : ResultWf (execDbgKill c s) := by
  unfold Machine.execDbgKill
  split
  · exact h.killLaunch
  · exact h

theorem MemoryWf.writeDbgctl {c : ℕ} {v : BitVec 64} (h : MemoryWf s) : MemoryWf (writeDbgctl s c v) := by
  unfold Machine.writeDbgctl
  extract_lets next was s₁ s₂ s₃ s₄ s₅
  have hnext {r : Result} {s : State} (hr : ResultWf r) (h : MemoryWf s) : MemoryWf (next r s) := by
    cases r with
    | next t => exact hr
    | fault f => exact h
    | refused r => exact h
  have h₂ : MemoryWf s₂ := (h.when fun h => h.abandonStep).modDbg
  have h₃ : MemoryWf s₃ := h₂.when fun h => hnext h.execDbgKill h
  have h₄ : MemoryWf s₄ := h₃.when fun h => hnext h.execDbgResume h
  have h₅ : MemoryWf s₅ := h₄.either (fun h => hnext h.execDbgHalt h) fun h => h.when fun h => h.releaseHalt
  exact h₅.when fun h => hnext h.execDbgStep h

theorem MemoryWf.writeDbginj {c : ℕ} {v : BitVec 64} (h : MemoryWf s) : MemoryWf (writeDbginj s c v) := h.modDbg
theorem MemoryWf.execFltackWrite {v : BitVec 64} (h : MemoryWf s) : ResultWf (execFltackWrite v s) := h.modHub
theorem MemoryWf.execVectorControlWrite {n : ℕ} {ctl : BitVec 32} (h : MemoryWf s) : ResultWf (execVectorControlWrite n ctl s) := h.modHub
theorem MemoryWf.hostGets {bs : List Byte} (h : MemoryWf s) : MemoryWf (hostGets s bs) := h.modHub

theorem MemoryWf.hallPut {a : ℕ} {bs : List Byte} (h : MemoryWf s) : MemoryWf (hallPut s a bs) := by
  induction bs generalizing s a with
  | nil => exact h
  | cons b bs ih => exact ih h.spadWrite

theorem MemoryWf.hallAct {a n : ℕ} {act : State → State} (h : MemoryWf s) (hact : MemoryWf (act s)) : MemoryWf (hallAct s a n act) := by
  unfold Machine.hallAct
  split
  · exact h
  · split
    · exact h.unless fun h => h.arriveAt
    · exact hact

theorem MemoryWf.execHostApertureAccess {a : HostAccess} (h : MemoryWf s) : ResultWf (execHostApertureAccess a s) := by
  unfold Machine.execHostApertureAccess
  split
  · exact h.physWrite
  · exact h.when fun h => h.corrected.hostGets
  · exact h.hallAct h.hallPut
  · exact h.hallAct h.hostGets
  · exact h.hostGets
  · exact h.hostGets

theorem ResultWf.after {r : Result} (hr : ResultWf r) (h : MemoryWf s) : MemoryWf (after r s) := by
  unfold Machine.after
  split
  · exact hr
  · exact h

theorem MemoryWf.queueWrite {off : ℕ} {v : BitVec 64} (h : MemoryWf s) : MemoryWf (queueWrite s off v) := by
  unfold Machine.queueWrite
  dsimp only
  split
  · exact h.modWq
  · exact (h.execWqEnable.after h).ite ((h.execWqDisable.after h).ite h.modWq)
  · exact h.execWqtailWrite.after h
  · exact h.execWqtailWrite.after h
  · exact h.when fun h => h.execWqHaltClear.after h
  · exact h

theorem MemoryWf.mboxWrite {i : ℕ} {v : BitVec 64} (h : MemoryWf s) : MemoryWf (mboxWrite s i v) := h.modHub.when fun h => h.mboxStart

theorem MemoryWf.controlWrite {off : ℕ} {v : BitVec 64} (h : MemoryWf s) : MemoryWf (controlWrite s off v) := by
  have hport {p : ℕ} {q : Prop} [Decidable q] : MemoryWf (if q then s else after (Machine.execPortDisableWrite p (v.getLsbD 1) s) s) :=
    h.unless fun h => h.execPortDisableWrite.after h
  have hvector : MemoryWf (after (Machine.execVectorControlWrite ((off - 0x2000) / 16) (v.extractLsb' 0 32) s) s) := h.execVectorControlWrite.after h
  unfold Machine.controlWrite
  refine h.mboxWrite.ite ?_
  refine (h.execFltackWrite.after h).ite ?_
  refine (h.execErrcntClear.after h).ite ?_
  refine (hport.when fun h => h.execPortRetrainWrite.after h).ite ?_
  refine (h.execWakeWrite.after h).ite ?_
  refine (hvector.ite (h.modHub.ite (h.modHub.execVectorControlWrite.after h.modHub))).ite ?_
  refine (h.writeDbgctl.ite (h.when fun h => h.writeDbginj)).ite ?_
  exact (h.when fun h => h.execCellarDrop.after h).ite h.modHub

theorem MemoryWf.execRegisterWrite {w : RegWrite} (h : MemoryWf s) : ResultWf (execRegisterWrite w s) := by
  unfold Machine.execRegisterWrite
  split
  · exact h.csrwPlain
  · exact h.queueWrite
  · exact h.controlWrite

/-! ## Vector slots (13 R210-R220) -/

theorem MemoryWf.lanesOp {cls : ℕ} {t : ElemType} {m d : ℕ} {f : State → ℕ → ℕ} (h : MemoryWf s) : MemoryWf (lanesOp cls t m d f s) := h.giveLanes

theorem MemoryWf.arithOp {cls : ℕ} {t : ElemType} {rm : Rm} {m d a b c : ℕ} {fi : ℤ → ℤ → ℤ → ℤ} {ff : FVal → FVal → FVal → FVal} (h : MemoryWf s) : MemoryWf (arithOp cls t rm m d a b c fi ff s) :=
  h.lanesOp

theorem MemoryWf.extremeOp {t : ElemType} {hi : Bool} {m d a : ℕ} (h : MemoryWf s) : MemoryWf (extremeOp t hi m d a s) := h.give

/-! ## The CP's memory accesses (13 R222-R227) -/

theorem MemoryWf.specialOp {cls m d a : ℕ} {f : BitVec 32 → ℕ} (h : MemoryWf s) : MemoryWf (specialOp cls m d a f s) := h.giveLanes

theorem MemoryWf.areaMasked {off bits value n : ℕ} (h : MemoryWf s) : MemoryWf (areaMasked off bits value n s) := by
  induction n with
  | zero => exact h
  | succ n ih => exact ih.unless fun h => h.areaWrite

theorem MemoryWf.areaStore {off bits value : ℕ} (h : MemoryWf s) : MemoryWf (areaStore off bits value s) :=
  h.foldl fun h => h.unless fun h => h.areaWrite.ite h.areaMasked

/-! ## Hypervector slots and PFEED (14 R250-R257, 03 R41-R43) -/

theorem MemoryWf.feedClose {c l cause : ℕ} (h : MemoryWf s) : MemoryWf (feedClose s c l cause) := h.closePatch.modSlot

theorem MemoryWf.feedSlot {c l : ℕ} {v : FVal} (h : MemoryWf s) : MemoryWf (feedSlot s c l v) :=
  h.unless fun h => h.modSlot.ite (h.modSlot.ite (h.feedClose.ite (h.feedClose.ite h.modSlot)))

/-! ## Matrix slots and the matrix queue's events (14 R242-R249) -/

theorem MemoryWf.enqueueM {i : Instr} {source : Vec} {mask : Mask} (h : MemoryWf s) : MemoryWf (enqueueM i source mask s) := h.modCp

theorem MemoryWf.execMatrixQueueDequeue {c : ℕ} (h : MemoryWf s) : ResultWf (execMatrixQueueDequeue c s) := by
  unfold Machine.execMatrixQueueDequeue
  refine ResultWf.ite h ?_
  split
  · exact h
  next he => exact h.mqHead.eq he
  next t he =>
    have ht : MemoryWf t := h.mqHead.eq he
    exact (ht.when fun h => h.countEvent).modCp
  · split
    · exact h.mqTrap
    · exact h

theorem MemoryWf.execMatrixEntryRetire {c : ℕ} {err : ResidueErrors} (h : MemoryWf s) : ResultWf (execMatrixEntryRetire c err s) := by
  unfold Machine.execMatrixEntryRetire
  refine ResultWf.ite h ?_
  split
  · exact h
  · exact ResultWf.ite h.mqRetire.cpEnds h

/-! ## Every instruction and event keeps the form -/

theorem MemoryWf.exec {i : Instr} (h : MemoryWf s) : ResultWf (exec i s) := by
  cases i with dsimp only [Machine.exec]
  | add | sub | mul | mulh | mulhu | div | divu | rem | remu | and | or | xor | shl | shr | sra | min | max | minu | maxu | slt | sltu => exact h.aluOp
  | clz | popc | addi | andi | ori | xori | shli | shri | srai | slti | lui | adpc | engst | utfcut => exact h.put
  | jal | jalr => exact h.jump
  | beq | bne | blt | bge | bltu | bgeu => exact h.branch
  | ldb | ldbu | ldh | ldhu | ldw | ldwu | ldd | stb | sth | stw | std => exact h.scAccess
  | aadd | aand | aor | axor | aswp | amax | amin | amaxu | aminu | acas | famax | famin | faadd => exact h.scAtomic
  | fence => exact ResultWf.ite h.modMe.put h.block
  | pfence => exact h.execPfence
  | csrr => exact ResultWf.ite h.csrReadEffect.put h.queueOp
  | csrw => exact h.queueOp
  | pwr => exact ResultWf.ite h.modSlot.put h.illegal
  | dqpush | dqtake | dqsteal => exact h.scDeque
  | fmtq => exact ResultWf.ite h.modSeqs.pass h.block.update
  | lntw => exact h.trap.ite (h.trap.ite (h.trap.ite (h.block.ite h.routeAccess)))
  | lngo | bara => exact h.modMe.pass.update
  | lngoTakeEffect => exact h.execLngoTakeEffect
  | waite => exact ResultWf.ite h.put (ResultWf.ite h.block h.put)
  | prd => exact ResultWf.ite h.put h.illegal
  | pclose => exact h.execPclose
  | prel => exact ResultWf.ite (ResultWf.ite h.modSlot.put h.put) h.illegal
  | launch => exact h.orderedOp h.launchNow
  | trig => exact h.modRun.pass.update
  | triggerMark => exact h.execTriggerMark
  | waitp => exact ResultWf.ite h.pass h.block
  | exit => exact ResultWf.ite h.modMe h.illegal
  | yield => exact h.modArch.pass
  | barrierArrival => exact h.execBarrierArrival
  | barw => exact ResultWf.ite h.modMe.put h.modMe.block
  | route => exact h.orderedOp h.routeNow
  | layerb => exact h.layerbNow.put
  | trap => exact (h.unless fun h => h.pass).ctxTrap
  | rte => exact ResultWf.ite (ResultWf.ite h.block (h.modMe.modCore fun hk => hk.update)) h.illegal
  | hret => exact ResultWf.ite h.illegal (ResultWf.ite h.endHandler h.block)
  | wfe => exact ResultWf.ite h.modMe.pass h.block
  | loadReply => exact h.execLoadReply
  | nop => exact h.cpSlot h
  | cpLoop | cpLoopK => exact h.cpSlot h.beginLoop
  | rep | repK => exact h.cpSlot h.beginRep
  | br => exact h.cpSlot h.takeBranch
  | brc => exact h.cpSlot (h.when fun h => h.takeBranch)
  | rot | endk => exact h.cpSlot h.modMyCp
  | qset | qclr | qmovQ | qmovK => exact h.cpSlot h.givePred
  | kadd | kaddi | kmov | kmovLc | kmovRrb | vcmpMask | vmovMaskMask | vmovMaskVec | vmovVecMask | vpopcMask | kfromv | hbind | hpermImm | hpermK
    | hbun | hclrb | hdist | hhash | hseed | hpop | hmov | hmovToHt | hmovFromHt | hcfg => exact h.cpSlot h.give
  | vadd | vsub | vmul | vfma | vfms | vmin | vmax | vabs | vneg | vadds => exact h.cpSlot h.arithOp
  | vand | vor | vxor | vnot | vshl | vshr | vsra | vcmpVec | vsel | vmov | vbcastK | vbcastImm | vshuf | vslide | vpopc => exact h.cpSlot h.lanesOp
  | vcvt => exact h.cpSlot (h.foldl fun h => h.give)
  | vreds | vrng => exact h.cpSlot h.giveLanes
  | vmaxi | vmini => exact h.cpSlot h.extremeOp
  | vexp2 | vlog2 | vrcp | vrsq | vpwp => exact h.cpSlot h.specialOp
  | pwld | vld | kld | vgath | hld | mldg => exact h.cpSlot h.giveLoad
  | pwst | hst => exact h.cpSlot h.areaWrite
  | vst => exact h.cpSlot h.areaStore
  | vldr => exact h.cpSlot (h.giveLoad.when fun h => h.modRing)
  | vscat => exact h.cpSlot (h.foldl fun h => h.areaWrite)
  | mma | aclrPeek | aclrImm | anorm | awr => exact h.cpSlot h.enqueueM
  | ard | astat | astatDepth | hnear => exact h.cpSlot h.result
  | matrixQueueDequeue => exact h.execMatrixQueueDequeue
  | matrixEntryRetire => exact h.execMatrixEntryRetire
  | hthr => exact h.cpSlot h.give.give
  | pfeed => exact h.cpSlot ((h.foldl fun h => h.when fun h => h.feedSlot).unless fun h => h.countEvent).give
  | lit | ext | dup | drop | swap | engAdd | engSub | engShl | engAnd | eget => exact h.stackWord
  | eset => exact h.execEset
  | jmp => exact h.execJmp
  | bz => exact h.execBz
  | engLoop => exact h.execEngLoop
  | lend => exact ResultWf.ite h.engParam h.modG.engTo
  | engEnd => exact h.modG
  | tile | drain | accst | gath | scat | copy | fill | mcast | kvcp | send | pref | evict => exact h.enqueue
  | waitn => exact h.execWaitn
  | engineCommandDequeue => exact h.execEngineCommandDequeue
  | engineCommandStart => exact h.execEngineCommandStart
  | engineCommandFinish => exact h.execEngineCommandFinish
  | tokenPush => exact h.execTokenPush
  | ringTailAdvance => exact ResultWf.ite (h.modRing.foldl fun h => h.modBar) h
  | ringHeadAdvance => exact ResultWf.ite h.modRing h
  | residencyFillDone => exact h.execResidencyFillDone
  | accessPerform => exact h.execAccessPerform
  | class15Release => exact h.execClass15Release
  | slotWheelAdvance => exact h.advanceWheel
  | pageWalkDone => exact h.execPageWalkDone
  | xinvWrite => exact h.csrwStep fun h => (h.foldl fun h => h.modDie).modHub.modCtx.update
  | invalidationDone => exact h.execInvalidationDone
  | landingPost => exact h.csrwStep fun h => h.landPost
  | boundaryTrapDispatch => exact h.execBoundaryTrapDispatch
  | stepFormerEnable => exact h.csrwStep fun h => h.stepEnable
  | stepFormerDisable | stepmaxWrite | ldrstWrite => exact h.csrwStep fun h => h.modDie
  | stepForm => exact h.formStep
  | wqtailWrite => exact h.execWqtailWrite
  | wqEnable => exact h.execWqEnable
  | wqDisable => exact h.execWqDisable
  | wqHaltClear => exact h.execWqHaltClear
  | queueRecordRead => exact h.execQueueRecordRead
  | nodeEvaluate => exact h.execNodeEvaluate
  | recordPlace => exact h.execRecordPlace
  | overlayLoad => exact h.execOverlayLoad
  | pointStart => exact h.execPointStart
  | pointComplete => exact h.execPointComplete
  | preempt => exact h.execPreempt
  | launchResume => exact h.execLaunchResume
  | deadlockRelief => exact h.execDeadlockRelief
  | queueDeadlock => exact h.execQueueDeadlock
  | freezeTimeout => exact h.execFreezeTimeout
  | barrierIdle => exact h.execBarrierIdle
  | fqUnderflow => exact h.execFqUnderflow
  | sendArrival => exact h.execSendArrival
  | dataArrivalDispatch => exact h.execDataArrivalDispatch
  | retryLaterReceive => exact h.execRetryLaterReceive
  | replayBackoffExpiry => exact h.execReplayBackoffExpiry
  | replicationServe => exact h.execReplicationServe
  | replicationCopyDone => exact h.execReplicationCopyDone
  | replicaUpdateApply => exact h.execReplicaUpdateApply
  | rtloadWrite => exact h.csrwStep fun h => h.rtload
  | routePassStart => exact h.execRoutePassStart
  | routePassFinish => exact h.execRoutePassFinish
  | hkstartWrite => exact h.csrwStep fun h => h.unless fun h => h.modCsrs.putHkst
  | hookStart => exact h.execHookStart
  | hookBudgetExpiry => exact h.execHookBudgetExpiry
  | ringConfigWrite => exact h.csrwStep fun h => h.unless fun h => h.modRing
  | barWrite => exact h.csrwStep fun h => h.modBar.noteIdle
  | trickleWrite => exact h.execTrickleWrite
  | coreGate => exact h.execCoreGate
  | coreWake => exact ResultWf.ite h.wakeCore h
  | wakeComplete => exact h.execWakeComplete
  | railSwitchStart => exact h.csrwStep fun h => h.modCluster.ite (h.unless fun h => h.startSwitch)
  | railSwitchDone => exact h.endSwitch
  | powerLoss => exact ResultWf.ite h (h.update.foldl fun h => h.holdupStart).modDie
  | holdupExhausted => exact ResultWf.ite (h.modCore fun hk => hk.tear) h
  | powerReturn => exact ResultWf.ite h h.returnDies
  | wakeWrite => exact h.execWakeWrite
  | cellarDrop => exact h.execCellarDrop
  | powerOnBoot => exact h.execPowerOnBoot
  | attest | keyload | keyclr => exact h.mboxRun
  | trustCommandDone => exact h.execTrustCommandDone
  | powerHubTick => exact ResultWf.ite h h.modHub.update
  | monitorSample => exact ResultWf.ite h h.physWrite.modHub.update
  | sramCorrectable => exact ResultWf.ite h h.modArch.modDie
  | sramFreezeEnd => exact h.endSramFreeze
  | sramUncorrectable => exact ResultWf.ite h (h.modCore fun hk => hk.errorAt)
  | patrolScrub => exact h.execPatrolScrub
  | flitCrcMismatch => exact h.execFlitCrcMismatch
  | linkRetrain => exact ResultWf.ite h.setLink h
  | linkRetrainDone => exact ResultWf.ite h (ResultWf.ite h.setLink.update (ResultWf.ite h.setLink h.setLink))
  | linkDead => exact h.execLinkDead
  | portRetrainWrite => exact h.execPortRetrainWrite
  | portDisableWrite => exact h.execPortDisableWrite
  | errcntClear => exact h.execErrcntClear
  | dbgHalt => exact h.execDbgHalt
  | dbgStep => exact h.execDbgStep
  | dbgResume => exact h.execDbgResume
  | dbgKill => exact h.execDbgKill
  | fltackWrite => exact h.execFltackWrite
  | vectorControlWrite => exact h.execVectorControlWrite
  | hostApertureAccess => exact h.execHostApertureAccess
  | registerWrite => exact h.execRegisterWrite
  -- What is left is OVER: the name of its constructor is a token of Mathlib and cannot stand here.
  | _ => exact h.stackWord

/-! ## Turns: the issue of a word or a bundle, a cycle, an event (04 R66-R68, 12 R176) -/

theorem MemoryWf.startEngine {c : ℕ} {e : Eng} (h : MemoryWf s) : MemoryWf (startEngine s c e) := by
  unfold Machine.startEngine
  split
  · exact h.modCp
  · exact h.modEng

theorem MemoryWf.captureTable {c id : ℕ} (h : MemoryWf s) : MemoryWf (captureTable s c id) := h.modCsrs.modDie

theorem MemoryWf.firstIssue {c : ℕ} (h : MemoryWf s) : MemoryWf (firstIssue s c) := by
  unfold Machine.firstIssue
  dsimp only
  split
  · exact h
  · exact h.unless fun h => (h.foldl fun h => h.unless fun h => h.startEngine).modRun.modLaunch.when fun h => h.captureTable

theorem MemoryWf.takeSlot {c k : ℕ} (h : MemoryWf s) : MemoryWf (takeSlot s c k) := h.countEvent.modArch

theorem MemoryWf.scBegin {c k : ℕ} (h : MemoryWf s) : MemoryWf (scBegin s c k) :=
  ((h.update.when fun h => h.takeSlot).when fun h => h.firstIssue).modCtx.when fun h => h.modCore fun hk => hk.update

theorem MemoryWf.scRun {c k : ℕ} (h : MemoryWf s) : ResultWf (scRun s c k) := by
  unfold Machine.scRun
  split
  · exact h.scBegin.trap
  · exact h.scBegin.exec

theorem MemoryWf.scIssue {c : ℕ} (h : MemoryWf s) : ResultWf (scIssue s c) := by
  unfold Machine.scIssue
  split
  · exact h
  · exact h.scRun

theorem MemoryWf.atEngine {c : ℕ} {e : Eng} (h : MemoryWf s) : MemoryWf (s.atEngine c e) := h.update

theorem MemoryWf.engRun {c : ℕ} {e : Eng} (h : MemoryWf s) : ResultWf (engRun s c e) := by
  unfold Machine.engRun
  dsimp only
  refine ResultWf.ite h.atEngine.wordTrap ?_
  refine ResultWf.ite h.atEngine.wordTrap ?_
  split
  · exact h.atEngine.engSkip
  · exact h.atEngine.wordTrap
  · exact h.atEngine.exec

theorem MemoryWf.engIssue {c : ℕ} {e : Eng} (h : MemoryWf s) : ResultWf (engIssue s c e) := ResultWf.ite h.engRun h

theorem MemoryWf.runSlots {c : ℕ} {l : List (Slot × Instr)} (h : MemoryWf s) : ResultWf (runSlots c l s) := by
  induction l generalizing s with
  | nil => exact h
  | cons p l ih =>
    obtain ⟨sl, i⟩ := p
    have he : ResultWf (Machine.exec i (s.atSlot c sl)) := h.atSlot.exec
    unfold Machine.runSlots
    split
    next t e =>
      have ht : MemoryWf t := he.eq e
      exact ih ht
    · exact he

theorem MemoryWf.cpRun {c : ℕ} (h : MemoryWf s) : ResultWf (cpRun s c) := by
  unfold Machine.cpRun
  split
  next he => exact h.cpFetch.eq he
  next t _ _ he =>
    have ht : MemoryWf t := h.cpFetch.eq he
    split
    next u he' =>
      have hu : MemoryWf u := ht.runSlots.eq he'
      exact hu.closeBundle
    · exact ht.runSlots

theorem MemoryWf.cpIssue {c : ℕ} (h : MemoryWf s) : ResultWf (cpIssue s c) := ResultWf.ite h.cpRun h

theorem MemoryWf.issueOf {c : ℕ} {x : Sequencer} (h : MemoryWf s) : ResultWf (issueOf s c x) := by
  unfold Machine.issueOf
  split
  · exact h.scIssue
  · exact h.engIssue
  · exact h.engIssue
  · exact h.cpIssue

theorem MemoryWf.endStep {c : ℕ} (h : MemoryWf s) : MemoryWf (endStep s c) := (h.modCore fun hk => hk.update).reportPend

theorem MemoryWf.settleStep {c : ℕ} (h1 : MemoryWf t) : MemoryWf (settleStep s t c) := by
  unfold Machine.settleStep
  dsimp only
  refine MemoryWf.ite h1 ?_
  refine MemoryWf.ite (h1.when fun h => h.reportPend) ?_
  refine MemoryWf.ite (h1.when fun h => (h.modCore fun hk => hk.update).endStep) ?_
  refine MemoryWf.ite h1 ?_
  split
  · exact h1.modCore fun hk => hk.update
  · exact h1.endStep

theorem MemoryWf.acceptStep {c : ℕ} (h : MemoryWf s) : MemoryWf (acceptStep s c) := h.when fun h => h.endStep

theorem MemoryWf.issueTurn {c : ℕ} {q : Sequencer} (h : MemoryWf s) : ResultWf (issueTurn s c q) := by
  unfold Machine.issueTurn
  refine ResultWf.ite ?_ h
  split
  next t he =>
    have ht : MemoryWf t := h.issueOf.eq he
    exact MemoryWf.settleStep ht
  · exact h.issueOf

theorem MemoryWf.hookCycle {c : ℕ} (h : MemoryWf s) : MemoryWf (hookCycle s c) := by
  refine h.when fun h => h.foldl fun h => ?_
  split
  · exact h.modCtx
  · exact h

theorem MemoryWf.haltCycle {c : ℕ} (h : MemoryWf s) : MemoryWf (haltCycle s c) := h.when fun h => h.modSeqs
theorem MemoryWf.pipeCycle {c : ℕ} (h : MemoryWf s) : MemoryWf (pipeCycle s c) := h.unless fun h => h.modCp.settleBundles.cpEnds

theorem MemoryWf.notePaced {c : ℕ} {e : Eng} {p : Prop} [Decidable p] (h : MemoryWf s) : MemoryWf (if p then (match e with
      | .cp => s.modCp c (fun p => { p with paced := true })
      | e => s.modEng c e (fun g => { g with paced := true })) else s) := by
  refine h.when fun h => ?_
  split
  · exact h.modCp
  · exact h.modEng
theorem MemoryWf.paceCycle {c : ℕ} (h : MemoryWf s) : MemoryWf (paceCycle s c) :=
  ((h.notePaced (e := .ld)).notePaced (e := .cp)).notePaced (e := .st)

theorem MemoryWf.coreCycle {c : ℕ} (h : MemoryWf s) : MemoryWf (coreCycle s c) := by
  unfold Machine.coreCycle
  dsimp only
  refine MemoryWf.ite h ?_
  split
  · exact h.countEvent.when fun h => h.countEvent
  · exact h.countEvent.ite h.countEvent.modArch.hookCycle.haltCycle.pipeCycle.paceCycle.noteWaits

theorem MemoryWf.settleCore {c : ℕ} (h : MemoryWf s) : MemoryWf (settleCore s c) := h.settleStop.settleKill.acceptStep.when fun h => h.modCore fun hk => hk.update

theorem MemoryWf.moduleCycle (h : MemoryWf s) : MemoryWf (moduleCycle s) :=
  (h.boundSwitches.advanceWheel.wheelArrivals.foldl fun h => h.holdupCycle).settlePreempts.updateEligible.noteChosen

theorem MemoryWf.closeStep {d : ℕ} (h : MemoryWf s) : MemoryWf (match (Machine.formStep d s).blocked with
    | none => Machine.formStep d s
    | some n => Machine.awaitHome s n) := by
  split
  · exact h.formStep
  · exact h.awaitHome
theorem MemoryWf.closeCycle (h : MemoryWf s) : MemoryWf (closeCycle s) := h.foldl fun h => h.unless fun h => h.closeStep

theorem MemoryWf.noteCore {c : ℕ} {l : List ℕ} (h : MemoryWf s) : MemoryWf (noteCore s c l) :=
  h.modCore fun hk => (CoreWf.foldl hk fun hk => hk.mark).noteOther

theorem MemoryWf.freezeCap {c : ℕ} (h : MemoryWf s) : MemoryWf (freezeCap s c) := h.modArch
theorem MemoryWf.capCycle {c : ℕ} (h : MemoryWf s) (h1 : MemoryWf t) : MemoryWf (capCycle s t c) := (h1.noteCore.freezeCap.ite h.freezeCap).ite h1.noteCore

theorem MemoryWf.tick (h : MemoryWf s) : MemoryWf (tick s) :=
  (h.closeCycle.update.foldl fun h => h.capCycle h.coreCycle.endSramFreeze.settleCore).moduleCycle

theorem ResultWf.noteClaims {b : Turn} {r : Result} (hr : ResultWf r) : ResultWf (noteClaims s b r) := by
  unfold Machine.noteClaims
  split
  next t =>
    have ht : MemoryWf t := hr
    split
    · exact ht
    · exact ht.update.ite ht
  · exact hr

theorem MemoryWf.upsetWord {w : ℕ} (h : MemoryWf s) : MemoryWf (upsetWord s w) := h.when fun h => h.update
theorem MemoryWf.lateReply {c : ℕ} (h : MemoryWf s) : MemoryWf (lateReply s c) := h.when fun h => h.modArch

theorem MemoryWf.replyReady {c : ℕ} (h : MemoryWf s) : MemoryWf (replyReady s c) := by
  unfold Machine.replyReady
  split
  · exact h.when fun h => h.modArch
  · exact h

theorem MemoryWf.plainTurn {x : Turn} (h : MemoryWf s) : ResultWf (plainTurn s x) := by
  unfold Machine.plainTurn
  split
  · exact h.tick
  · exact h.issueTurn
  · exact ResultWf.ite h.exec trivial
  · exact h.takeParcel
  · exact h.upsetWord
  · exact h.lateReply
  · exact h.beginWalk
  · exact h.inboundNext
  · exact h.replyReady

theorem ResultWf.orderFault {b : Turn} {r : Result} (hr : ResultWf r) (h : MemoryWf s) : ResultWf (orderFault s b r) := by
  unfold Machine.orderFault
  split
  · split
    · split
      · exact (h.modCore fun hk => hk.update).issueTurn
      · exact hr
    · exact hr
  · exact hr

theorem ResultWf.giveUp {r : Result} (hr : ResultWf r) (h : MemoryWf s) : ResultWf (giveUp s r) := by
  unfold Machine.giveUp
  split
  · split
    · exact hr
    · exact h.awaitHome
  · exact hr

theorem MemoryWf.takeTurn {b : Turn} (h : MemoryWf s) : ResultWf (takeTurn s b) := (h.plainTurn.orderFault h).giveUp h
theorem MemoryWf.noteBlocks {l : List (ℕ × ℕ)} (h : MemoryWf s) : MemoryWf (noteBlocks s l) := h.foldl fun h => h.noteCore

theorem ResultWf.noteTurn {b : Turn} {r : Result} (hr : ResultWf r) : ResultWf (noteTurn s b r) := by
  unfold Machine.noteTurn
  split
  next t =>
    have ht : MemoryWf t := hr
    exact ht.noteBlocks
  · exact hr

theorem ResultWf.capTurn {b : Turn} {r : Result} (hr : ResultWf r) (h : MemoryWf s) : ResultWf (capTurn s b r) := by
  unfold Machine.capTurn
  split
  next t =>
    have ht : MemoryWf t := hr
    refine ResultWf.ite ht (ResultWf.ite ht (ResultWf.ite (ht.foldl fun h => h.freezeCap) ?_))
    split
    · exact h.freezeCap.ite h
    · exact h
  · exact hr

theorem MemoryWf.nextTurn (h : MemoryWf s) : MemoryWf (nextTurn s).2 := by
  unfold Machine.nextTurn
  split
  · exact h
  · exact h.update

theorem MemoryWf.turnStep (h : MemoryWf s) : ResultWf (turnStep s) :=
  ResultWf.ite h.nextTurn (h.nextTurn.takeTurn.noteClaims.noteTurn.capTurn h.nextTurn)

end Sys2Proof.Machine

open Sys2Proof.Machine in
/-- Settles O59: a step is a turn of the agenda, and `MemoryWf.turnStep` says that a turn keeps the form, whichever instruction, event or cycle it is. -/
theorem stepKeepsMemoryForm : Obligations.StepKeepsMemoryForm := by
  intro s t h e
  have hstep : ResultWf (step s) := h.turnStep
  exact hstep.eq e
end

section
/-! The dispatch of boundary traps and data arrivals (03 R47, R48, 04 R69): when each may start a handler, and what a started handler finds. -/

namespace Sys2Proof.Machine

variable {s t : State} {c k l : ℕ}

/-! ## The start of a handler (03 R47, R48, 04 R69) -/

/-- What a started handler context is: it runs at `pc` with its slot, x1 to x4 as given, the other registers as they were, and no other context has changed. -/
theorem startHandler_spec {pc x1 x2 x3 x4 : Word} {slot : Option ℕ} (ht : t = startHandler s c k pc x1 x2 x3 x4 slot none) :
    (t.ctx c k).status = .running ∧ (t.ctx c k).pc = pc ∧ (t.ctx c k).slot = slot
    ∧ (t.ctx c k).x 1 = x1 ∧ (t.ctx c k).x 2 = x2 ∧ (t.ctx c k).x 3 = x3 ∧ (t.ctx c k).x 4 = x4 ∧ (∀ n, 4 < n → (t.ctx c k).x n = (s.ctx c k).x n)
    ∧ (∀ j, j ≠ k → t.ctx c j = s.ctx c j) := by
  have hk : t.ctx c k = { ((((s.ctx c k).setX 1 x1).setX 2 x2).setX 3 x3).setX 4 x4 with
      pc := pc, status := .running, wait := .none, slot := slot, hook := none } := by
    simp only [ht, startHandler, ctx_modCtx]
    rw [ctx_modArch rfl]
  have hx : ∀ n, (t.ctx c k).x n = (((((s.ctx c k).setX 1 x1).setX 2 x2).setX 3 x3).setX 4 x4).x n := fun n => by rw [hk]; rfl
  refine ⟨by rw [hk], by rw [hk], by rw [hk], ?_, ?_, ?_, ?_, fun n hn => ?_, fun j hj => ?_⟩
  · simp [hx, Ctx.x_setX]
  · simp [hx, Ctx.x_setX]
  · simp [hx, Ctx.x_setX]
  · simp [hx, Ctx.x_setX]
  · simp [hx, Ctx.x_setX, show n ≠ 1 ∧ n ≠ 2 ∧ n ≠ 3 ∧ n ≠ 4 by omega]
  · simp only [ht, startHandler]
    rw [ctx_modCtx_ne _ _ _ _ _ _ (by simpa using hj), ctx_modArch rfl]

/-- What the start of a handler leaves as it was: the queues of traps and of arrivals, memory, and every other core. -/
theorem startHandler_frame {pc x1 x2 x3 x4 : Word} {slot : Option ℕ} (ht : t = startHandler s c k pc x1 x2 x3 x4 slot none) :
    (t.arch c).btraps = (s.arch c).btraps ∧ (t.seqs c).arrivals = (s.seqs c).arrivals ∧ OnlyCore s t c ∧ SameMemory s t := by
  subst ht
  refine ⟨?_, ?_, ?_, ?_⟩
  · simp only [startHandler, btraps_modCtx, arch_modArch]
  · simp only [startHandler, State.modCtx, seqs_modSeqs]
    simp [State.seqs, State.modArch]
  · exact onlyCore_trans (onlyCore_modArch s c _) (onlyCore_modCtx _ c k _)
  · exact sameMemory_trans (sameMemory_modArch s c _) (sameMemory_modCtx _ c k _)

/-- No handler that runs has the slot (03 R47). -/
def SlotFree (s : State) (c slot : ℕ) : Prop := ∀ j, (j = 1 ∨ j = 2 ∨ j = 3) → (s.ctx c j).status = .running → (s.ctx c j).slot ≠ some slot

/-- The test of `boundaryReady` for a running handler of the slot. -/
theorem slotFree_iff {slot : ℕ} : SlotFree s c slot ↔ [1, 2, 3].any (fun j => (s.ctx c j).status == .running && (s.ctx c j).slot == some slot) = false := by
  simp [SlotFree]

theorem boundaryReady_nil (h : (s.arch c).btraps = []) : boundaryReady s c = none := by simp [boundaryReady, h]

theorem boundaryReady_noHandler (h : dormantHandler s c = none) : boundaryReady s c = none := by
  unfold boundaryReady
  split
  next hk => simp [h] at hk
  · rfl

theorem boundaryReady_cons {b : BTrap} {bs : List BTrap} (hb : (s.arch c).btraps = b :: bs) (hk : dormantHandler s c = some k) :
    boundaryReady s c = if [1, 2, 3].any (fun j => (s.ctx c j).status == .running && (s.ctx c j).slot == some b.slot) then none else some (k, b) := by
  simp only [boundaryReady, hb, hk]

theorem boundaryReady_busy {b : BTrap} {bs : List BTrap} (hb : (s.arch c).btraps = b :: bs) (h : ¬ SlotFree s c b.slot) : boundaryReady s c = none := by
  cases hk : dormantHandler s c with
  | none => exact boundaryReady_noHandler hk
  | some k => rw [boundaryReady_cons hb hk, if_pos (Bool.of_not_eq_false fun he => h (slotFree_iff.2 he))]

theorem boundaryReady_free {b : BTrap} {bs : List BTrap} (hb : (s.arch c).btraps = b :: bs) (hk : dormantHandler s c = some k) (h : SlotFree s c b.slot) :
    boundaryReady s c = some (k, b) := by
  rw [boundaryReady_cons hb hk, if_neg (by simp [slotFree_iff.1 h])]

/-- The state in which the oldest boundary trap has left its queue and its handler has started in context k. -/
def trapStarted (s : State) (c k : ℕ) (b : BTrap) : State :=
  startHandler (s.modArch c (fun a => { a with btraps := a.btraps.tail })) c k (s.arch c).csrs.bhaddr (boundaryWord b) (BitVec.ofNat 64 b.entry.toNat)
    (BitVec.ofNat 64 (b.entry.toNat / 2 ^ 64)) (BitVec.ofNat 64 b.addr) (some b.slot) none

/-- The state in which the oldest data arrival has left its queue and its handler has started in context k. -/
def arrivalStarted (s : State) (c k : ℕ) (a : Arrival) (rest : List Arrival) : State :=
  startHandler (s.modSeqs c (fun q => { q with arrivals := rest })) c k (BitVec.ofNat 64 a.handler) a.x1 a.dst a.bytes a.x4 none none

theorem trapDispatch_notReady (h : boundaryReady s c = none) : exec (.boundaryTrapDispatch c) s = .next s := by
  show execBoundaryTrapDispatch c s = _
  simp only [execBoundaryTrapDispatch, h]

/-- A trap that is ready starts its handler in a live core, unless the oldest arrival is older. -/
theorem trapDispatch_ready {b : BTrap} (h : boundaryReady s c = some (k, b)) :
    exec (.boundaryTrapDispatch c) s = .next (if coreLive s c = true ∧ ∀ a ∈ (s.seqs c).arrivals.head?, b.at_ ≤ a.at_ then trapStarted s c k b else s) := by
  show execBoundaryTrapDispatch c s = _
  simp only [execBoundaryTrapDispatch, h]
  cases ha : (s.seqs c).arrivals with
  | nil => cases coreLive s c <;> simp [trapStarted]
  | cons a rest =>
    by_cases ho : a.at_ < b.at_
    · simp [ho]
    · cases coreLive s c <;> simp [ho, Nat.not_lt.1 ho, trapStarted]

theorem trapDispatch_stopped (h : coreLive s c = false) : exec (.boundaryTrapDispatch c) s = .next s := by
  cases hr : boundaryReady s c with
  | none => exact trapDispatch_notReady hr
  | some p => rw [trapDispatch_ready hr, if_neg (by simp [h])]

theorem trapDispatch_olderArrival {b : BTrap} {bs : List BTrap} {a : Arrival} {rest : List Arrival} (hb : (s.arch c).btraps = b :: bs)
    (ha : (s.seqs c).arrivals = a :: rest) (h : a.at_ < b.at_) : exec (.boundaryTrapDispatch c) s = .next s := by
  cases hk : dormantHandler s c with
  | none => exact trapDispatch_notReady (boundaryReady_noHandler hk)
  | some k =>
    by_cases hf : SlotFree s c b.slot
    · rw [trapDispatch_ready (boundaryReady_free hb hk hf), if_neg (by simp [ha, h])]
    · exact trapDispatch_notReady (boundaryReady_busy hb hf)

theorem dataDispatch_none (h : (s.seqs c).arrivals = [] ∨ dormantHandler s c = none ∨ s.run c = none) : exec (.dataArrivalDispatch c) s = .next s := by
  show execDataArrivalDispatch c s = _
  unfold execDataArrivalDispatch
  split
  next ha hk hr => simp [ha, hk, hr] at h
  · rfl

/-- An arrival starts its handler in a live core whose launch is ready, unless a boundary trap at least as old is ready. -/
theorem dataDispatch_some {a : Arrival} {rest : List Arrival} {r : Running} (ha : (s.seqs c).arrivals = a :: rest) (hk : dormantHandler s c = some k) (hr : s.run c = some r) :
    exec (.dataArrivalDispatch c) s
      = .next (if coreLive s c = true ∧ r.ready = true ∧ ∀ p ∈ boundaryReady s c, a.at_ < p.2.at_ then arrivalStarted s c k a rest else s) := by
  show execDataArrivalDispatch c s = _
  simp only [execDataArrivalDispatch, ha, hk, hr]
  cases hb : boundaryReady s c with
  | none => cases coreLive s c <;> cases r.ready <;> simp [arrivalStarted]
  | some p =>
    by_cases ho : p.2.at_ ≤ a.at_
    · simp [ho]
    · cases coreLive s c <;> cases r.ready <;> simp [ho, Nat.not_le.1 ho, arrivalStarted]

/-- An arrival that some reason holds up stays in its queue. -/
theorem dataDispatch_held (h : ∀ a r, a ∈ (s.seqs c).arrivals.head? → s.run c = some r → coreLive s c = true → r.ready = true → ∃ p ∈ boundaryReady s c, p.2.at_ ≤ a.at_) :
    exec (.dataArrivalDispatch c) s = .next s := by
  cases ha : (s.seqs c).arrivals with
  | nil => exact dataDispatch_none (.inl ha)
  | cons a rest =>
    cases hk : dormantHandler s c with
    | none => exact dataDispatch_none (.inr (.inl hk))
    | some k =>
      cases hr : s.run c with
      | none => exact dataDispatch_none (.inr (.inr hr))
      | some r =>
        rw [dataDispatch_some ha hk hr, if_neg]
        rintro ⟨hl, hy, hp⟩
        obtain ⟨p, hm, hle⟩ := h a r (by simp [ha]) hr hl hy
        exact absurd (hp p hm) (Nat.not_lt.2 hle)

theorem trapDispatch_starts {b : BTrap} {bs : List BTrap} (hl : coreLive s c = true) (hk : dormantHandler s c = some k) (hb : (s.arch c).btraps = b :: bs)
    (hf : SlotFree s c b.slot) (ho : ∀ a ∈ (s.seqs c).arrivals.head?, b.at_ ≤ a.at_) : exec (.boundaryTrapDispatch c) s = .next (trapStarted s c k b) := by
  rw [trapDispatch_ready (boundaryReady_free hb hk hf), if_pos ⟨hl, ho⟩]

theorem dataDispatch_starts {a : Arrival} {rest : List Arrival} {r : Running} (hl : coreLive s c = true) (hk : dormantHandler s c = some k) (hr : s.run c = some r)
    (hy : r.ready = true) (ha : (s.seqs c).arrivals = a :: rest) (ho : ∀ b ∈ (s.arch c).btraps.head?, ¬ SlotFree s c b.slot ∨ a.at_ < b.at_) :
    exec (.dataArrivalDispatch c) s = .next (arrivalStarted s c k a rest) := by
  refine (dataDispatch_some ha hk hr).trans (congrArg _ (if_pos ⟨hl, hy, fun p hp => ?_⟩))
  cases hb : (s.arch c).btraps with
  | nil => simp [boundaryReady_nil hb] at hp
  | cons b bs =>
    by_cases hf : SlotFree s c b.slot
    · obtain rfl : (k, b) = p := by simpa [boundaryReady_free hb hk hf] using hp
      exact (ho b (by simp [hb])).resolve_left (not_not_intro hf)
    · simp [boundaryReady_busy hb hf] at hp

/-- A find in the list 1, 2, 3: the handler taken is the lowest of contexts 1 to 3 that is dormant. -/
theorem dormantHandler_spec (h : dormantHandler s c = some k) : (k = 1 ∨ k = 2 ∨ k = 3) ∧ (s.ctx c k).status = .dormant ∧ ∀ j, 1 ≤ j → j < k → (s.ctx c j).status ≠ .dormant := by
  obtain ⟨hd, i, hi, hik, hn⟩ := List.find?_eq_some_iff_getElem.1 h
  have hval : ∀ j (hj : j < [1, 2, 3].length), [1, 2, 3][j] = j + 1 := by decide
  rw [hval] at hik
  refine ⟨by simp only [List.length_cons, List.length_nil] at hi; omega, by simpa using hd, fun j hj hjk => ?_⟩
  have := hn (j - 1) (by omega)
  rw [hval, Nat.sub_add_cancel hj] at this
  simpa using this

end Sys2Proof.Machine

open Sys2Proof.Machine in
/-- Settles O47: `trapDispatch_ready` and `dataDispatch_some` say when either starts, the lemmas on what is not ready why one waits, and `startHandler_spec` and `startHandler_frame` what a start leaves. -/
theorem handlersStart : Obligations.HandlersStart := by
  intro s c k b a r bs rest mayStart trap data
  refine ⟨fun h => trapDispatch_notReady (boundaryReady_nil h), fun h => dataDispatch_none (.inl h), ?_, fun hb h => trapDispatch_notReady (boundaryReady_busy hb h),
    fun hb ha h => trapDispatch_olderArrival hb ha h, ?_, ?_, dormantHandler_spec, ?_, ?_⟩
  · rintro (h | h)
    · exact ⟨trapDispatch_notReady (boundaryReady_noHandler h), dataDispatch_none (.inr (.inl h))⟩
    · exact ⟨trapDispatch_stopped h, dataDispatch_held fun _ _ _ _ hl => by simp [h] at hl⟩
  · intro hb ha hk hm hle
    refine dataDispatch_held fun a' _ hh _ _ _ => ⟨_, boundaryReady_free hb hk hm, ?_⟩
    obtain rfl : a = a' := by simpa [ha] using hh
    exact hle
  · exact fun h => dataDispatch_held fun _ r _ hr _ hy => by simp [h r hr] at hy
  · intro hl hk hb hm hh
    refine ⟨_, trapDispatch_starts hl hk hb hm hh, ?_⟩
    obtain ⟨hst, hpc, hsl, h1, h2, h3, h4, hx, hj⟩ := startHandler_spec (t := trapStarted s c k b) rfl
    obtain ⟨hq, hd, ho, hmem⟩ := startHandler_frame (t := trapStarted s c k b) rfl
    refine ⟨by simpa [hb] using hq, hst, hpc, hsl, h1, h2, h3, h4, fun n hn => (hx n hn).trans ?_, fun j hjk => (hj j hjk).trans ?_, hd.trans ?_,
      onlyCore_trans (onlyCore_modArch s c _) ho, sameMemory_trans (sameMemory_modArch s c _) hmem⟩
    · rw [ctx_modArch rfl]
    · rw [ctx_modArch rfl]
    · simp [State.seqs, State.modArch]
  · intro hl hk hr hy ha hh
    refine ⟨_, dataDispatch_starts hl hk hr hy ha hh, ?_⟩
    obtain ⟨hst, hpc, -, h1, h2, h3, h4, hx, hj⟩ := startHandler_spec (t := arrivalStarted s c k a rest) rfl
    obtain ⟨hq, hd, ho, hmem⟩ := startHandler_frame (t := arrivalStarted s c k a rest) rfl
    refine ⟨by simpa using hd, hst, hpc, h1, h2, h3, h4, fun n hn => (hx n hn).trans ?_, fun j hjk => (hj j hjk).trans ?_, hq.trans ?_,
      onlyCore_trans (onlyCore_modSeqs s c _) ho, sameMemory_trans (sameMemory_modSeqs s c _) hmem⟩
    · rw [ctx_modSeqs rfl]
    · rw [ctx_modSeqs rfl]
    · simp [State.modSeqs]
end

section
/-! The closes of patches (03 R41-R46): what one close does, PCLOSE, and the closes of a PFEED one after another. -/

namespace Sys2Proof.Machine

variable {s t u : State} {c l : ℕ}

/-! ## One close (03 R45-R47) -/

/-- A close changes PMCNT and the queue of boundary traps, and no other part of its core's small state. -/
theorem closePatch_arch (s : State) (c l cause : ℕ) :
    (closePatch s c l cause).arch c = { s.arch c with
      csrs := { (s.arch c).csrs with pmcnt := (s.arch c).csrs.pmcnt + 1 }
      btraps := (s.arch c).btraps ++ [⟨l, cause, mapEntry c l cause (s.slot c l).pl.toNat (s.slot c l).ps.toNat (s.slot c l).pp.toNat,
        hallAddr c (mapOff s c (s.arch c).csrs.pmcnt.toNat), s.now⟩] } := by
  simp only [closePatch, arch_modArch, State.modCsrs]
  simp [State.arch, State.spadWrite, Core.spadWrite, Core.mark]

theorem closePatch_slot (s : State) (c l cause j : ℕ) : (closePatch s c l cause).slot c j = s.slot c j := by
  simp only [State.slot, closePatch_arch]

theorem closePatch_ctx (s : State) (c l cause d k : ℕ) : (closePatch s c l cause).ctx d k = s.ctx d k := by
  simp only [closePatch]
  rw [ctx_modArch rfl, ctx_modCsrs]
  exact ctx_modCore rfl d k

theorem closePatch_onlyCore (s : State) (c l cause : ℕ) : OnlyCore s (closePatch s c l cause) c := by
  simp only [closePatch, State.modCsrs, State.modArch, State.spadWrite, modCore_modCore]
  exact onlyCore_modCore s c _

/-- A close leaves the 16 bytes of its map entry in its core's slice, and no other byte of memory changes. -/
theorem closePatch_stored (h : (s.core c).spad.wf = true) (l cause : ℕ) :
    Stored s (closePatch s c l cause) (.slice c (mapOff s c (s.arch c).csrs.pmcnt.toNat))
      (natBytes 16 (mapEntry c l cause (s.slot c l).pl.toNat (s.slot c l).ps.toNat (s.slot c l).pp.toNat).toNat) := by
  obtain ⟨hw, -⟩ := locWrite_spec (l := .slice c (mapOff s c (s.arch c).csrs.pmcnt.toNat)) h
    (natBytes 16 (mapEntry c l cause (s.slot c l).pl.toNat (s.slot c l).ps.toNat (s.slot c l).pp.toNat).toNat)
  exact stored_of_same hw (sameMemory_trans (sameMemory_modArch _ c _) (sameMemory_modArch _ c _))

/-! ## PCLOSE (03 R44) -/

theorem pcloseCloses_iff {q : PatchSlot} : pcloseCloses q = true ↔ (q.state = 1 ∨ q.state = 2) ∧ q.pl ≠ 0 := by simp [pcloseCloses]

/-- PCLOSE of a slot whose patch it closes: a refused entry traps, a full queue of traps makes it wait, and else it closes. -/
theorem exec_pclose_closes {d a : ℕ} (hl : (s.x a).toNat < 64) (hq : pcloseCloses (s.slot s.c (s.x a).toNat) = true) :
    (∀ f, mapRefuse s s.c (s.arch s.c).csrs.pmcnt.toNat = some f → exec (.pclose d a) s = .next (s.trap f))
    ∧ (mapRefuse s s.c (s.arch s.c).csrs.pmcnt.toNat = none → exec (.pclose d a) s = if 256 ≤ (s.arch s.c).btraps.length then .next (s.block .pclose)
        else .next (((closePatch s s.c (s.x a).toNat 2).modSlot s.c (s.x a).toNat pcloseSlot).put d 0)) := by
  have hs : ¬ ((s.slot s.c (s.x a).toNat).state = 0 ∨ (s.slot s.c (s.x a).toNat).state = 3) := by
    rcases (pcloseCloses_iff.1 hq).1 with h | h <;> simp [h]
  have he : exec (.pclose d a) s = execPclose d a s := rfl
  simp only [he, execPclose, slotOk, decide_eq_true hl, if_true, if_neg hs, hq]
  exact ⟨fun f hf => by rw [hf], fun hf => by rw [hf]⟩

/-- What a PCLOSE leaves that closes a patch. -/
theorem closePatch_put (s : State) (d l : ℕ) (f : PatchSlot → PatchSlot) :
    let t := ((closePatch s s.c l 2).modSlot s.c l f).put d 0
    OnlyX s t d 0 ∧ CtxGoes s t (s.me.pc + 4) ∧ OnlyCore s t s.c ∧ t.slot s.c l = f (s.slot s.c l)
      ∧ (t.arch s.c).csrs = ((closePatch s s.c l 2).arch s.c).csrs ∧ (t.arch s.c).btraps = ((closePatch s s.c l 2).arch s.c).btraps
      ∧ SameMemory (closePatch s s.c l 2) t := by
  intro t
  have hwho : (closePatch s s.c l 2).who = s.who := who_onlyCore (closePatch_onlyCore s s.c l 2)
  have hc : (closePatch s s.c l 2).c = s.c := congrArg Who.core hwho
  have hme : (closePatch s s.c l 2).me = s.me := by
    rw [me_onlyCore (closePatch_onlyCore s s.c l 2)]; exact closePatch_ctx s s.c l 2 s.c s.k
  obtain ⟨hx, hsl, -, hgo, hco, hm⟩ := slot_put (closePatch s s.c l 2) d l 0 f
  rw [hc] at hx hsl hgo hco hm
  rw [hme] at hgo
  refine ⟨fun r => ?_, ?_, onlyCore_trans (closePatch_onlyCore s s.c l 2) hco, hsl.trans (by rw [closePatch_slot]), ?_, ?_, hm⟩
  · rw [hx r]; simp only [State.x, hme]
  · simpa only [CtxGoes, hme] using hgo
  · simp only [t, put_eq, State.modMe, csrs_modCtx]; simp [State.modSlot]
  · simp only [t, put_eq, State.modMe, btraps_modCtx]; simp [State.modSlot]

end Sys2Proof.Machine

open Sys2Proof.Machine in
/-- Settles O16: the slot closes as `closePatch` says, and the word then goes on as one that changes a slot. -/
theorem pcloseCloses : Obligations.PcloseCloses := by
  intro s d a l q n off e hl hst hpl
  obtain ⟨hrefused, hlets⟩ := exec_pclose_closes (s := s) (d := d) (a := a) hl (pcloseCloses_iff.2 ⟨hst, hpl⟩)
  refine ⟨hrefused, fun hf hfull => ends_block ((hlets hf).trans (if_pos hfull)), fun hf hroom hwf => ?_⟩
  obtain ⟨hx, hgo, hco, hsl, hcs, hbt, hm⟩ := closePatch_put s d l pcloseSlot
  refine ⟨_, (hlets hf).trans (if_neg (by omega)), hx, hgo, hco, ?_, ?_, ?_, stored_of_same (closePatch_stored hwf l 2) hm⟩
  · rw [hsl]; simp only [pcloseSlot]; rw [if_pos (pcloseCloses_iff.2 ⟨hst, hpl⟩)]
  · rw [hcs, closePatch_arch]
  · rw [hbt, closePatch_arch]; rfl

namespace Sys2Proof.Machine

variable {s t u : State} {c l : ℕ}

/-! ## PFEED on one slot (03 R41, R42) -/

/-- A slot whose patch a PFEED closes; the byte fed begins the next patch. -/
def feedClosed (cause : BitVec 2) (p : PatchSlot) : PatchSlot := { p with
  pp := p.pp + 1, ps := p.pb, pl := 1, pb := p.pb + 1, lcause := cause, state := if p.gen then 2 else p.state }

/-- An OPEN slot after its surprise. -/
def fedSlot (v : FVal) (p : PatchSlot) : PatchSlot :=
  if p.pb = 0xFFFFFFFF then { p with state := 3, endc := 5 }
  else if p.pl = 0 then { p with ps := p.pb, pl := 1, pb := p.pb + 1 }
  else if p.pm.toNat ≤ p.pl.toNat then feedClosed 1 p
  else if v = .inf false ∨ (v.isNan = false ∧ (decodeF fmtF16 p.pt.toNat).lt v = true) then feedClosed 0 p
  else { p with pl := p.pl + 1, pb := p.pb + 1 }

/-- Slot l after a PFEED that feeds it where it is active. -/
def slotAfter (on : Bool) (v : FVal) (p : PatchSlot) : PatchSlot := if on = true ∧ p.state = 1 then fedSlot v p else p

/-- The close that a PFEED makes of slot l, with its cause. -/
def closeOf (on : Bool) (v : FVal) (l : ℕ) (p : PatchSlot) : Option (ℕ × ℕ) :=
  if on = true ∧ p.state = 1 ∧ p.pb ≠ 0xFFFFFFFF ∧ p.pl ≠ 0 then
    (if p.pm.toNat ≤ p.pl.toNat then some (l, 1)
     else if v = .inf false ∨ (v.isNan = false ∧ (decodeF fmtF16 p.pt.toNat).lt v = true) then some (l, 0) else none)
  else none

/-- PFEED's step on slot l. -/
def feedStep (c : ℕ) (on : ℕ → Bool) (v : ℕ → FVal) (t : State) (l : ℕ) : State := if on l then feedSlot t c l (v l) else t

variable {on : ℕ → Bool} {v : ℕ → FVal}

theorem feedStep_passed (h : ¬ (on l = true ∧ (t.slot c l).state = 1)) : feedStep c on v t l = t ∧ slotAfter (on l) (v l) (t.slot c l) = t.slot c l := by
  refine ⟨?_, if_neg h⟩
  unfold feedStep
  split
  next ha => exact if_pos fun hs => h ⟨ha, hs⟩
  · rfl

theorem feedStep_fed (ha : on l = true) (hs : (t.slot c l).state = 1) :
    feedStep c on v t l = (let p := t.slot c l
      if p.pb = 0xFFFFFFFF then t.modSlot c l (fun p => { p with state := 3, endc := 5 })
      else if p.pl = 0 then t.modSlot c l (fun p => { p with ps := p.pb, pl := 1, pb := p.pb + 1 })
      else if p.pm.toNat ≤ p.pl.toNat then (closePatch t c l 1).modSlot c l (feedClosed 1)
      else if v l = .inf false ∨ ((v l).isNan = false ∧ (decodeF fmtF16 p.pt.toNat).lt (v l) = true) then (closePatch t c l 0).modSlot c l (feedClosed 0)
      else t.modSlot c l (fun p => { p with pl := p.pl + 1, pb := p.pb + 1 }))
    ∧ slotAfter (on l) (v l) (t.slot c l) = fedSlot (v l) (t.slot c l) :=
  ⟨(if_pos ha).trans (if_neg (not_not_intro hs)), if_pos ⟨ha, hs⟩⟩

/-- A slot without a close: the step changes that slot alone, or nothing. -/
theorem feedStep_open (h : closeOf (on l) (v l) l (t.slot c l) = none) :
    (feedStep c on v t l = t ∧ slotAfter (on l) (v l) (t.slot c l) = t.slot c l)
      ∨ ∃ f, feedStep c on v t l = t.modSlot c l f ∧ f (t.slot c l) = slotAfter (on l) (v l) (t.slot c l) := by
  by_cases hf : on l = true ∧ (t.slot c l).state = 1
  · refine .inr ?_
    obtain ⟨hstep, hafter⟩ := feedStep_fed (v := v) hf.1 hf.2
    rw [hstep, hafter]
    unfold fedSlot
    dsimp only
    by_cases hb : (t.slot c l).pb = 0xFFFFFFFF
    · rw [if_pos hb, if_pos hb]; exact ⟨_, rfl, rfl⟩
    · by_cases hp : (t.slot c l).pl = 0
      · rw [if_neg hb, if_neg hb, if_pos hp, if_pos hp]; exact ⟨_, rfl, rfl⟩
      · rw [closeOf, if_pos ⟨hf.1, hf.2, hb, hp⟩] at h
        by_cases hm : (t.slot c l).pm.toNat ≤ (t.slot c l).pl.toNat
        · simp [hm] at h
        · rw [if_neg hm] at h
          rw [if_neg hb, if_neg hb, if_neg hp, if_neg hp, if_neg hm, if_neg hm]
          split at h
          · simp at h
          next hv => rw [if_neg hv, if_neg hv]; exact ⟨_, rfl, rfl⟩
  · exact .inl (feedStep_passed hf)

/-- A slot with a close: the step closes it with that cause and leaves the slot as `slotAfter` says. -/
theorem feedStep_close {p : ℕ × ℕ} (h : closeOf (on l) (v l) l (t.slot c l) = some p) :
    p.1 = l ∧ ∃ f, feedStep c on v t l = (closePatch t c l p.2).modSlot c l f ∧ f (t.slot c l) = slotAfter (on l) (v l) (t.slot c l) := by
  unfold closeOf at h
  split at h
  next hc =>
    obtain ⟨ha, hs, hb, hp⟩ := hc
    obtain ⟨hstep, hafter⟩ := feedStep_fed (v := v) ha hs
    rw [hstep, hafter]
    unfold fedSlot
    dsimp only
    rw [if_neg hb, if_neg hb, if_neg hp, if_neg hp]
    split at h
    next hm =>
      obtain rfl : (l, 1) = p := by simpa using h
      rw [if_pos hm, if_pos hm]; exact ⟨rfl, _, rfl, rfl⟩
    next hm =>
      split at h
      next hv =>
        obtain rfl : (l, 0) = p := by simpa using h
        rw [if_neg hm, if_neg hm, if_pos hv, if_pos hv]; exact ⟨rfl, _, rfl, rfl⟩
      · simp at h
  · simp at h

/-! ## Closes one after another (03 R42, R45-R47) -/

theorem closePatch_wf (h : (s.core c).spad.wf = true) (l cause : ℕ) : ((closePatch s c l cause).core c).spad.wf = true := by
  simp only [closePatch, State.modCsrs, State.modArch, State.spadWrite, core_modCore]
  exact spadWrite_wf h _ _

theorem keepsRest_refl (s : State) (c : ℕ) : KeepsRest s s c := ⟨rfl, fun _ _ => rfl⟩
theorem keepsRest_trans (h : KeepsRest s t c) (g : KeepsRest t u c) : KeepsRest s u c :=
  ⟨by rw [g.1, h.1], fun d hd => (g.2 d hd).trans (h.2 d hd)⟩
theorem OnlyCore.keepsRest (h : OnlyCore s t c) : KeepsRest s t c := by
  unfold OnlyCore at h
  generalize t.core c = k at h
  subst h
  exact ⟨rfl, fun d hd => core_modCore_ne s c d _ hd⟩

/-- The map entry of a close, of the slot as it was. -/
def entryOf (s : State) (c : ℕ) (p : ℕ × ℕ) : BitVec 128 :=
  mapEntry c p.1 p.2 (s.slot c p.1).pl.toNat (s.slot c p.1).ps.toNat (s.slot c p.1).pp.toNat

/-- Slice offset of the map entry of the j-th close from here. -/
def entryOff (s : State) (c j : ℕ) : ℕ := (s.arch c).csrs.pmbase.toNat + 16 * (((s.arch c).csrs.pmcnt.toNat + j) % 256)

/-- The boundary trap of the j-th of some closes. -/
def trapOf (s : State) (c : ℕ) (cl : List (ℕ × ℕ)) (j : ℕ) : BTrap :=
  ⟨(cl.getD j (0, 0)).1, (cl.getD j (0, 0)).2, entryOf s c (cl.getD j (0, 0)), hallAddr c (entryOff s c j), s.now⟩

/-- From s, the closes `cl` of core c have been made, and beside them only its slots have changed. -/
structure ClosesMade (s t : State) (c : ℕ) (cl : List (ℕ × ℕ)) : Prop where
  rest : KeepsRest s t c
  arch : t.arch c = { s.arch c with
    slots := (t.arch c).slots
    btraps := (s.arch c).btraps ++ (List.range cl.length).map (trapOf s c cl)
    csrs := { (s.arch c).csrs with pmcnt := (s.arch c).csrs.pmcnt + BitVec.ofNat 32 cl.length } }
  wf : (s.core c).spad.wf = true → (t.core c).spad.wf = true
  entries : (s.core c).spad.wf = true → ∀ j i, j < cl.length → i < 16 →
    memByte (t.core c).spad (entryOff s c j + i) = (natBytes 16 (entryOf s c (cl.getD j (0, 0))).toNat).getD i 0
  others : (s.core c).spad.wf = true → ∀ x, (∀ j, j < cl.length → x < entryOff s c j ∨ entryOff s c j + 16 ≤ x) →
    memByte (t.core c).spad x = memByte (s.core c).spad x

theorem ClosesMade.nil (s : State) (c : ℕ) : ClosesMade s s c [] :=
  ⟨keepsRest_refl s c, by simp, id, fun _ _ _ h => by simp at h, fun _ _ _ => rfl⟩

variable {cl : List (ℕ × ℕ)}

theorem ClosesMade.modSlot (h : ClosesMade s t c cl) (l : ℕ) (f : PatchSlot → PatchSlot) : ClosesMade s (t.modSlot c l f) c cl := by
  have hsp : ((t.modSlot c l f).core c).spad = (t.core c).spad := by simp [State.modSlot, State.modArch]
  refine ⟨keepsRest_trans h.rest (onlyCore_modSlot t c l f).keepsRest, ?_, ?_, ?_, ?_⟩
  · simp only [State.modSlot, arch_modArch]
    rw [h.arch]
  · rw [hsp]; exact h.wf
  · rw [hsp]; exact h.entries
  · rw [hsp]; exact h.others

/-- The offset of the next close after `cl`. -/
theorem ClosesMade.mapOff_eq (h : ClosesMade s t c cl) : mapOff t c (t.arch c).csrs.pmcnt.toNat = entryOff s c cl.length := by
  unfold mapOff entryOff
  rw [h.arch]
  simp only [BitVec.toNat_add, BitVec.toNat_ofNat]
  omega

/-- The places of two of 256 closes in a row do not meet. -/
theorem entryOff_apart {i j : ℕ} (h : i < j) (hj : j < 256) : entryOff s c i + 16 ≤ entryOff s c j ∨ entryOff s c j + 16 ≤ entryOff s c i := by
  unfold entryOff
  omega

theorem ClosesMade.append (h : ClosesMade s t c cl) {p : ℕ × ℕ} (hp : t.slot c p.1 = s.slot c p.1) (hn : cl.length < 256) :
    ClosesMade s (closePatch t c p.1 p.2) c (cl ++ [p]) := by
  have hlast : (cl ++ [p]).getD cl.length (0, 0) = p := by simp
  have hold : ∀ j, j < cl.length → (cl ++ [p]).getD j (0, 0) = cl.getD j (0, 0) := fun j hj => by simp [List.getD, List.getElem?_append_left hj]
  have hnow : t.now = s.now := by rw [h.rest.1]
  have hentry : mapEntry c p.1 p.2 (t.slot c p.1).pl.toNat (t.slot c p.1).ps.toNat (t.slot c p.1).pp.toNat = entryOf s c p := by rw [hp]; rfl
  have hstored : (s.core c).spad.wf = true → ∀ x, memByte ((closePatch t c p.1 p.2).core c).spad x
      = if entryOff s c cl.length ≤ x ∧ x < entryOff s c cl.length + 16 then (natBytes 16 (entryOf s c p).toNat).getD (x - entryOff s c cl.length) 0
        else memByte (t.core c).spad x := fun hw x => by
    have := (closePatch_stored (h.wf hw) p.1 p.2).1 c x
    rw [h.mapOff_eq, hentry] at this
    simpa using this
  refine ⟨keepsRest_trans h.rest (closePatch_onlyCore t c p.1 p.2).keepsRest, ?_, ?_, fun hw j i hj hi => ?_, fun hw x hx => ?_⟩
  · have htraps : (List.range cl.length).map (trapOf s c (cl ++ [p])) = (List.range cl.length).map (trapOf s c cl) :=
      List.map_congr_left fun j hj => by simp only [trapOf, hold j (List.mem_range.1 hj)]
    rw [closePatch_arch, h.mapOff_eq, hentry, hnow, List.length_append, List.length_singleton, List.range_succ, List.map_append, htraps]
    rw [h.arch]
    simp only [List.map_cons, List.map_nil, trapOf, hlast, List.append_assoc, BitVec.add_assoc, BitVec.ofNat_add]
    rfl
  · exact fun hw => closePatch_wf (h.wf hw) p.1 p.2
  · rw [hstored hw]
    rcases Nat.lt_or_ge j cl.length with hj' | hj'
    · have := entryOff_apart (s := s) (c := c) hj' hn
      rw [if_neg (by omega), hold j hj']
      exact h.entries hw j i hj' hi
    · obtain rfl : j = cl.length := by simp at hj; omega
      rw [if_pos (by omega), hlast, Nat.add_sub_cancel_left]
  · have := hx cl.length (by simp)
    rw [hstored hw, if_neg (by omega)]
    exact h.others hw x fun j hj => hx j (by simp; omega)

/-- The closes of slots 0 to n - 1. -/
def closesTo (s : State) (c : ℕ) (on : ℕ → Bool) (v : ℕ → FVal) (n : ℕ) : List (ℕ × ℕ) :=
  (List.range n).filterMap (fun l => closeOf (on l) (v l) l (s.slot c l))

theorem closesTo_length (s : State) (c : ℕ) (on : ℕ → Bool) (v : ℕ → FVal) (n : ℕ) : (closesTo s c on v n).length ≤ n :=
  (List.length_filterMap_le _ _).trans (by simp)

/-- The state in which PFEED has fed slots 0 to n - 1. -/
def fedTo (s : State) (c : ℕ) (on : ℕ → Bool) (v : ℕ → FVal) (n : ℕ) : State := (List.range n).foldl (feedStep c on v) s

theorem fedTo_succ (s : State) (c : ℕ) (on : ℕ → Bool) (v : ℕ → FVal) (n : ℕ) : fedTo s c on v (n + 1) = feedStep c on v (fedTo s c on v n) n := by
  simp [fedTo, List.range_succ]

/-- Slots fed in ascending order: the closes of those slots are made, each of the slot as it was, and each slot is as `slotAfter` says. -/
theorem fedTo_spec (s : State) (c : ℕ) (on : ℕ → Bool) (v : ℕ → FVal) (n : ℕ) (hn : n ≤ 64) :
    ClosesMade s (fedTo s c on v n) c (closesTo s c on v n)
    ∧ ∀ l, (fedTo s c on v n).slot c l = if l < n then slotAfter (on l) (v l) (s.slot c l) else s.slot c l := by
  induction n with
  | zero => exact ⟨ClosesMade.nil s c, fun l => by simp [fedTo]⟩
  | succ n ih =>
    obtain ⟨hc, hs⟩ := ih (by omega)
    have hlen := closesTo_length s c on v n
    have hsn : (fedTo s c on v n).slot c n = s.slot c n := by rw [hs]; simp
    have hslots : ∀ {w : State}, w.slot c n = slotAfter (on n) (v n) (s.slot c n) → (∀ l, l ≠ n → w.slot c l = (fedTo s c on v n).slot c l) →
        ∀ l, w.slot c l = if l < n + 1 then slotAfter (on l) (v l) (s.slot c l) else s.slot c l := fun {w} h1 h2 l => by
      by_cases hl : l = n
      · subst hl; rw [h1, if_pos (by omega)]
      · rw [h2 l hl, hs]; simp only [show l < n ↔ l < n + 1 by omega]
    rw [fedTo_succ, closesTo, List.range_succ, List.filterMap_append, ← closesTo, List.filterMap_cons, List.filterMap_nil, ← hsn]
    cases ho : closeOf (on n) (v n) n ((fedTo s c on v n).slot c n) with
    | none =>
      rw [List.append_nil]
      rcases feedStep_open ho with ⟨he, hsame⟩ | ⟨f, he, hf⟩
      · rw [he]; exact ⟨hc, hslots (by rw [← hsn, hsame]) fun _ _ => rfl⟩
      · rw [he]
        exact ⟨hc.modSlot n f, hslots (by rw [slot_modSlot, hf, hsn]) fun l hl => slot_modSlot_ne _ _ _ _ _ hl⟩
    | some p =>
      obtain ⟨hp, f, he, hf⟩ := feedStep_close ho
      have hp2 : (fedTo s c on v n).slot c p.1 = s.slot c p.1 := by rw [hp, hsn]
      rw [he]
      refine ⟨by simpa only [hp] using (hc.append hp2 (by omega)).modSlot n f, hslots ?_ fun l hl => ?_⟩
      · rw [slot_modSlot, closePatch_slot, hf, hsn]
      · rw [slot_modSlot_ne _ _ _ _ _ hl, closePatch_slot]

/-! ## The whole of PFEED (14 R257) -/

theorem maskOf_getLsbD (n : ℕ) (hn : n ≤ 1024) (f : ℕ → Bool) (i : ℕ) : (maskOf n f).getLsbD i = (decide (i < n) && f i) := by
  have hlane := packLanes_lane 1 ((List.range n).map (fun i => (f i).toNat)) i
  rw [one_mul] at hlane
  have hbit : (packLanes 1 ((List.range n).map (fun i => (f i).toNat))).testBit i = (decide (i < n) && f i) := by
    rw [pow_one] at hlane
    rw [Nat.testBit_eq_decide_div_mod_eq, hlane]
    by_cases hi : i < n
    · cases h : f i <;> simp [List.getD, hi, h]
    · simp [List.getD, hi]
  rw [maskOf, BitVec.getLsbD_ofNat, hbit]
  by_cases hi : i < n
  · simp [hi, show i < 1024 by omega]
  · simp [hi]

/-- An event counted is noted in the event counters of its core alone. -/
theorem countEvent_spec (s : State) (c code n : ℕ) :
    KeepsRest s (countEvent s c code n) c ∧ ((countEvent s c code n).core c).spad = (s.core c).spad
    ∧ (countEvent s c code n).arch c = { s.arch c with csrs := { (s.arch c).csrs with evc := ((countEvent s c code n).arch c).csrs.evc } } := by
  unfold countEvent
  split
  · exact ⟨(onlyCore_modArch s c _).keepsRest, by simp [State.modCsrs, State.modArch], by simp [State.modCsrs]⟩
  · exact ⟨keepsRest_refl s c, rfl, rfl⟩

/-- The closes of a PFEED are counted as events where there are any (17 R302). -/
def countCloses (s : State) (c n : ℕ) : State := if n = 0 then s else countEvent s c 8 n

theorem countCloses_spec (s : State) (c n : ℕ) :
    KeepsRest s (countCloses s c n) c ∧ ((countCloses s c n).core c).spad = (s.core c).spad
    ∧ (countCloses s c n).arch c = { s.arch c with csrs := { (s.arch c).csrs with evc := ((countCloses s c n).arch c).csrs.evc } } := by
  unfold countCloses
  split
  · exact ⟨keepsRest_refl s c, rfl, rfl⟩
  · exact countEvent_spec s c 8 n

/-- A result on its way is noted in the CP of the acting core alone. -/
theorem give_spec (s : State) (cls : ℕ) (w : CpWrite) :
    KeepsRest s (s.give cls w) s.c ∧ ((s.give cls w).core s.c).spad = (s.core s.c).spad
    ∧ (s.give cls w).arch s.c = { s.arch s.c with seqs := ((s.give cls w).arch s.c).seqs } := by
  simp only [State.give, State.result, State.modCp]
  exact ⟨(onlyCore_modSeqs s s.c _).keepsRest, by simp [State.modSeqs, State.modArch], by simp [State.modSeqs]⟩

/-- PFEED feeds the slots, counts the closes and sends the mask of OPEN slots on its way. -/
theorem exec_pfeed (q m d a : ℕ) (s : State) : exec (.pfeed q m d a) s = cpSlot (.pfeed q m d a) (fun s =>
    (countCloses (fedTo s s.c (s.active m) (fun l => decodeF fmtF16 (lane 16 (s.vreg a) l)) 64) s.c (feedCloses s m a).length).give 15
      (.m d (liveMask (fedTo s s.c (s.active m) (fun l => decodeF fmtF16 (lane 16 (s.vreg a) l)) 64) s.c))) s := rfl

/-- What PFEED's end leaves of the closes made: it touches the event counters and the CP alone. -/
theorem ClosesMade.give (h : ClosesMade s t s.c cl) (n : ℕ) (w : CpWrite) :
    let u := (countCloses t s.c n).give 15 w
    KeepsRest s u s.c ∧ (u.core s.c).spad = (t.core s.c).spad ∧ (∀ l, u.slot s.c l = t.slot s.c l)
    ∧ (u.arch s.c).btraps = (s.arch s.c).btraps ++ (List.range cl.length).map (trapOf s s.c cl)
    ∧ (u.arch s.c).csrs.pmcnt = (s.arch s.c).csrs.pmcnt + BitVec.ofNat 32 cl.length
    ∧ ∀ x, x ∈ (u.cp s.c).pend ↔ x ∈ (s.cp s.c).pend ∨ x = InFlight.mk ((s.cp s.c).issued + latOf s s.c 15) w false := by
  intro u
  obtain ⟨hr, hsp, ha⟩ := countCloses_spec t s.c n
  have hc : (countCloses t s.c n).c = s.c := by rw [State.c, hr.1, h.rest.1]; rfl
  obtain ⟨gr, gsp, ga⟩ := give_spec (countCloses t s.c n) 15 w
  rw [hc] at gr gsp ga
  have hseqs : (countCloses t s.c n).cp s.c = s.cp s.c := by
    show ((countCloses t s.c n).arch s.c).seqs.cp = (s.arch s.c).seqs.cp
    rw [ha, h.arch]
  have hlat : latOf (countCloses t s.c n) s.c 15 = latOf s s.c 15 := by
    unfold latOf State.run
    rw [ha, h.arch]
  refine ⟨keepsRest_trans h.rest (keepsRest_trans hr gr), gsp.trans hsp, fun l => ?_, ?_, ?_, fun x => ?_⟩
  · unfold State.slot
    rw [ga, ha]
  · rw [ga, ha, h.arch]
  · rw [ga, ha, h.arch]
  · simp only [u, State.give, State.result, hc, cp_modCp, mem_insertDue, hseqs, hlat]

end Sys2Proof.Machine

open Sys2Proof.Machine in
/-- Settles O38: by `fedTo_spec`, an induction over the slots fed whose invariant, `ClosesMade`, is what the closes so far have left; the end of PFEED adds the event count and the mask (`ClosesMade.give`). -/
theorem patchFeed : Obligations.PatchFeed := by
  intro s q m d a v closed fed closes close off entry after
  refine acts_of (exec_pfeed q m d a s) ?_
  obtain ⟨hc, hs⟩ := fedTo_spec s s.c (s.active m) v 64 le_rfl
  obtain ⟨hrest, hspad, hslot, htraps, hcnt, hpend⟩ := hc.give (feedCloses s m a).length (.m d (liveMask (fedTo s s.c (s.active m) v 64) s.c))
  have hafter : ∀ l, l < 64 → (fedTo s s.c (s.active m) v 64).slot s.c l = after l := fun l hl => (hs l).trans (if_pos hl)
  refine ⟨_, fun l hl => (hslot l).trans (hafter l hl), fun i => ?_, hpend, htraps, hcnt, fun hw => ⟨fun j i hj hi => ?_, fun x hx => ?_⟩, hrest⟩
  · rw [liveMask, maskOf_getLsbD 64 (by omega)]
    by_cases hi : i < 64
    · simp [hi, hafter i hi, Bool.beq_eq_decide_eq]
    · simp [hi]
  · rw [hspad]; exact hc.entries hw j i hj hi
  · rw [hspad]; exact hc.others hw x hx
end

section
/-! The step former's STEPMIN (03 R53) in a state whose STEPMAX is 0. -/

namespace Sys2Proof.Machine

/-- A state in which STEPMAX of die 0 is 0, a value that no write leaves there (03 R53), and a write of 1 to STEPMIN is the next operation of context 0 of core 0. -/
def stepmaxZero : State :=
  (State.reset.modDie 0 (fun x => { x with stepmax := 0 })).modCtx 0 0 (fun t => { t with ops := [⟨0, .csrw 0x201 1⟩] })

/-- A CSRW whose turn has come takes its step, where the step is its own. -/
theorem csrwStep_ready {s : State} {c k q n : ℕ} {v : Word} {rest : List CtxOp} {sel : ℕ → Word → Bool} (f : ℕ → Word → State → State)
    (ho : (s.ctx c k).ops = ⟨q, .csrw n v⟩ :: rest) (hd : storesDone s c k q = true) (hs : sel n v = true) : csrwStep sel f c k s = f n v (popOp s c k) := by
  simp [csrwStep, readyCsrw, headOp, ho, hd, hs]

/-- The model clamps to STEPMAX last: the write makes STEPMIN 0. -/
theorem registerWrite_stepmaxZero : ∃ t, exec (.registerWrite (.csr 0 0)) stepmaxZero = .next t ∧ (t.die 0).stepmin = 0 :=
  ⟨_, congrArg Host.Outcome.next (csrwStep_ready _ (n := 0x201) rfl (by decide) (by decide)), by decide⟩

end Sys2Proof.Machine

open Sys2Proof.Machine in
/-- Refutes O46, whose clause on a write of STEPMIN fails where STEPMAX is 0: it asks that a write of 1 leave max 1 (min 1 0) = 1, and the model leaves 0. No write of STEPMAX leaves it 0, but the statement speaks of every state. -/
theorem not_landingAndStepFormer : ¬ Obligations.LandingAndStepFormer := by
  intro h
  obtain ⟨hregs, -, -⟩ := h stepmaxZero 0 0 0 0 1 []
  obtain ⟨-, -, -, -, -, -, -, -, hoff⟩ := hregs 0x201 rfl (by decide)
  obtain ⟨hmin, -⟩ := hoff (by decide)
  obtain ⟨t, ht, hdie, -⟩ := hmin rfl
  obtain ⟨u, hu, hzero⟩ := registerWrite_stepmaxZero
  obtain rfl : t = u := Host.Outcome.next.inj (ht.symm.trans hu)
  have hone : (t.die 0).stepmin = 1 := (congrArg Die.stepmin hdie).trans (by decide)
  exact absurd (hzero.symm.trans hone) (by decide)
end

section
/-! The turn that a step takes (log 1): what surrounds it, first of any turn, then of each sequencer's, and what the CP's fetch hands to the slots (04 R68, 12 R176, 13 R218, 15 R262). -/

namespace Sys2Proof.Machine

variable {s t u v : State} {b : Turn} {rest : List Turn} {c k d : ℕ} {i : Instr}

/-! ## What a turn took and wrote is noted (log 77, 07 R113) -/

/-- A turn's result with what it took of its cycle noted. -/
def claimed (u : State) (b : Turn) (t : State) : State :=
  if acted u t b then { t with today := t.today ++ turnClaims u b } else t

/-- A turn's result with what it took of its cycle, and the blocks it wrote, noted. -/
def noted (u : State) (b : Turn) (t : State) : State := noteBlocks (claimed u b t) (ownWrites u (claimed u b t) b)

theorem noteClaims_next : noteClaims u b (.next t) = .next (claimed u b t) := by
  cases hl : turnClaims u b <;> simp [noteClaims, claimed, hl]

theorem noteTurn_noteClaims_next : noteTurn u b (noteClaims u b (.next t)) = .next (noted u b t) := by
  rw [noteClaims_next]; rfl

/-! ## The order of faults, and turns given up (24 R323, 07 R117) -/

/-- The turn does not stop its core, or no party that goes before it in the order of faults faults in the same cycle (24 R323). -/
def FaultsFirst (u : State) (b : Turn) (t : State) : Prop :=
  ∀ d n, turnParty b = some (d, n) → u.stopFree d = false ∨ t.stopFree d = true ∨ ∀ q ∈ [Sequencer.sc, .ld, .cp].take n, faultsNow u d q = false

theorem orderFault_of_first (h : FaultsFirst u b t) : orderFault u b (.next t) = .next t := by
  unfold orderFault
  split
  next d n r hp hr =>
    obtain rfl := Host.Outcome.next.inj hr
    split
    next hstops =>
      obtain ⟨⟨hfree, hstop⟩, -⟩ : (u.stopFree d = true ∧ t.stopFree d = false) ∧ (u.core d).dbg.stepping = false := by simpa using hstops
      have hnone : ([Sequencer.sc, .ld, .cp].take n).find? (faultsNow u d) = none := by
        obtain h | h | h := h d n hp
        · simp [hfree] at h
        · simp [hstop] at h
        · exact List.find?_eq_none.mpr fun q hq => by simp [h q hq]
      rw [hnone]
    · rfl
  · rfl

theorem giveUp_of_none (h : t.blocked = none) : giveUp u (.next t) = .next t := by simp [giveUp, h]

theorem giveUp_of_some {n : ℕ} (h : t.blocked = some n) : giveUp u (.next t) = .next (awaitHome u n) := by simp [giveUp, h]

/-! ## The cap on dirty blocks (07 R115) -/

/-- The turn has taken a core past its cap. -/
def Past (u v : State) (d : ℕ) : Prop := d ∈ v.cores.map (fun p => p.1) ∧ pastCap u v d = true

/-- The cores that a turn has taken past their caps. -/
def pastCores (u v : State) : List ℕ := (v.cores.map (fun p => p.1)).filter (pastCap u v)

theorem mem_pastCores : d ∈ pastCores u v ↔ Past u v d := List.mem_filter

theorem capTurn_within (h : ∀ d, ¬ Past u v d) : capTurn u b (.next v) = .next v := by
  have hp : pastCores u v = [] := List.eq_nil_iff_forall_not_mem.mpr fun d hd => h d (mem_pastCores.mp hd)
  exact if_pos (List.isEmpty_iff.mpr hp)

/-- What is left of a turn that is not taken for a cap: the core that acts on its own clean block freezes, anyone else waits (07 R115). -/
def capHeld (u v : State) (b : Turn) : State :=
  (turnCore u b).elim u fun e => if (pastCores u v).contains e then freezeCap u e else u

theorem capTurn_past (hb : b ≠ .tick) (hd : Past u v d) (ho : oversize u v d = false) : capTurn u b (.next v) = .next (capHeld u v b) := by
  have hmem : d ∈ pastCores u v := mem_pastCores.mpr hd
  have hsome : ¬ (pastCores u v).isEmpty = true := fun h => List.not_mem_nil (List.isEmpty_iff.mp h ▸ hmem)
  have hall : ¬ (pastCores u v).all (oversize u v) = true := fun h => by
    have hover := List.all_eq_true.mp h d hmem
    simp [ho] at hover
  refine (if_neg hsome).trans ((if_neg hb).trans ((if_neg hall).trans ?_))
  unfold capHeld
  cases turnCore u b <;> rfl

theorem capHeld_own (hc : turnCore u b = some d) (hd : Past u v d) : capHeld u v b = freezeCap u d := by
  simp [capHeld, hc, mem_pastCores.mpr hd]

theorem capHeld_other (hc : turnCore u b = some d) (hd : ¬ Past u v d) : capHeld u v b = u := by
  have hmem : d ∉ pastCores u v := fun h => hd (mem_pastCores.mp h)
  simp [capHeld, hc, hmem]

theorem capHeld_none (hc : turnCore u b = none) : capHeld u v b = u := by simp [capHeld, hc]

/-! ## A step (log 1) -/

theorem nextTurn_cons (ha : s.agenda = b :: rest) : nextTurn s = (b, { s with agenda := rest }) := by simp [nextTurn, ha]

theorem step_late (hn : nextTurn s = (b, u)) (hl : tooLate u b = true) : step s = .next u := by simp [step, turnStep, hn, hl]

theorem step_turn (hn : nextTurn s = (b, u)) (hl : tooLate u b = false) : step s = capTurn u b (noteTurn u b (noteClaims u b (takeTurn u b))) := by
  simp [step, turnStep, hn, hl]

theorem step_tick (ha : s.agenda = []) (ht : (tick s).blocked = none) : step s = .next (noteBlocks (tick s) []) := by
  have hl : tooLate s .tick = false := by simp [tooLate, turnClaims]
  have htake : takeTurn s .tick = .next (tick s) := giveUp_of_none ht
  have hstep : step s = capTurn s .tick (.next (noteBlocks (tick s) [])) := by
    simp [step, turnStep, nextTurn, ha, hl, htake, noteClaims, turnClaims, noteTurn, ownWrites]
  rw [hstep]
  simp [capTurn]

/-- The step ends with a turn's result, noted, unless a core's cap holds it back. -/
def TurnEnds (s u : State) (b : Turn) (t : State) : Prop :=
  ((∀ d, ¬ Past u (noted u b t) d) → step s = .next (noted u b t))
  ∧ ∀ d, Past u (noted u b t) d → oversize u (noted u b t) d = false →
    (turnCore u b = some d → step s = .next (freezeCap u d))
    ∧ (∀ e, turnCore u b = some e → ¬ Past u (noted u b t) e → step s = .next u)
    ∧ (turnCore u b = none → step s = .next u)

/-- The step runs a turn that comes to `t`, which is given up where its access on the spot has to wait. -/
def TurnRuns (s u : State) (b : Turn) (t : State) : Prop :=
  FaultsFirst u b t → (t.blocked = none → TurnEnds s u b t) ∧ ∀ h, t.blocked = some h → TurnEnds s u b (if h < 512 then arriveAt u h .other else u)

theorem ends_of_step (hb : b ≠ .tick) (hstep : step s = capTurn u b (.next (noted u b t))) : TurnEnds s u b t := by
  refine ⟨fun h => hstep.trans (capTurn_within h), fun d hd ho => ?_⟩
  have hheld : step s = .next (capHeld u (noted u b t) b) := hstep.trans (capTurn_past hb hd ho)
  exact ⟨fun hc => hheld.trans (congrArg _ (capHeld_own hc hd)), fun e hc he => hheld.trans (congrArg _ (capHeld_other hc he)),
    fun hc => hheld.trans (congrArg _ (capHeld_none hc))⟩

/-- A turn in its time runs to what it comes to by itself. -/
theorem runs_of_plainTurn (hb : b ≠ .tick) (hn : nextTurn s = (b, u)) (hl : tooLate u b = false) (hplain : plainTurn u b = .next t) : TurnRuns s u b t := by
  intro hfirst
  have htake : takeTurn u b = giveUp u (.next t) := by rw [takeTurn, hplain, orderFault_of_first hfirst]
  refine ⟨fun h => ends_of_step hb ?_, fun n h => ends_of_step hb ?_⟩
  · rw [step_turn hn hl, htake, giveUp_of_none h, noteTurn_noteClaims_next]
  · rw [step_turn hn hl, htake, giveUp_of_some h, noteTurn_noteClaims_next]; rfl

/-! ## A turn of the hardware or the host -/

theorem plainTurn_event (he : encode i = none) : plainTurn u (.event i) = exec i u := by simp [plainTurn, isEvent, he]

theorem plainTurn_notAnEvent (he : (encode i).isSome = true) : plainTurn u (.event i) = .fault .notAnEvent := by
  simp [plainTurn, isEvent, Option.isNone_eq_false_iff.mpr he]

/-- An instruction of a sequencer claims nothing as an operation of the hardware. -/
theorem turnClaims_of_isSome (he : (encode i).isSome = true) : turnClaims u (.event i) = [] := by
  have hnone : encode i ≠ none := Option.isSome_iff_ne_none.mp he
  simp only [turnClaims]
  unfold eventClaims
  split
  case h_14 => rfl
  all_goals exact absurd rfl hnone

theorem tooLate_of_isSome (he : (encode i).isSome = true) : tooLate u (.event i) = false := by
  simp [tooLate, turnClaims_of_isSome he]

theorem step_fault {f : Fault} (hn : nextTurn s = (b, u)) (hl : tooLate u b = false) (hplain : plainTurn u b = .fault f) : step s = .fault f := by
  have horder : orderFault u b (.fault f) = .fault f := by cases hp : turnParty b <;> simp [orderFault, hp]
  rw [step_turn hn hl, takeTurn, hplain, horder]; rfl

/-! ## A turn of a sequencer -/

theorem settleStep_of_not_stepping (h : (s.core c).dbg.stepping = false) : settleStep s t c = t := by simp [settleStep, h]

theorem issueTurn_of_issueOf {q : Sequencer} (htake : canTake s c q = true) (hd : (s.core c).dbg.stepping = false) (hi : issueOf s c q = .next t) :
    issueTurn s c q = .next t := by
  simp [issueTurn, htake, hi, settleStep_of_not_stepping hd]

/-- The SC's next word, outside an injected sequence (04 R68, 24 R336). -/
theorem scNext_of_decodeSc (hinj : (s.core c).dbg.injecting = false) (hpc : (s.ctx c k).pc.toNat < 65536) (hal : (s.ctx c k).pc.toNat % 4 = 0)
    (hp : imPoison s c 3 (s.ctx c k).pc.toNat = false) (hd : decodeSc (bytesNat (memBytes (s.core c).imSc (s.ctx c k).pc.toNat 4)) = .ok i) :
    scNext s c k = .ok i := by
  have hin : ¬ (Config.scImem ≤ (s.ctx c k).pc.toNat ∨ (s.ctx c k).pc.toNat % 4 ≠ 0) := by
    rw [show Config.scImem = 65536 from rfl]; omega
  have hfetch : scFetch s c k = .ok (bytesNat (memBytes (s.core c).imSc (s.ctx c k).pc.toNat 4)) := by
    simp [scFetch, hinj, hin, hp]
  simp [scNext, hfetch, hd]

theorem issueOf_sc (hk : scPick s c = some k) (hi : scNext s c k = .ok i) : issueOf s c .sc = exec i (scBegin s c k) := by
  simp [issueOf, scIssue, hk, scRun, hi]

/-- The sequencer of LD or of ST. -/
def engSequencer (e : Eng) : Sequencer := if e = .ld then .ld else .st

/-- LD or ST runs the word at its pc, where no loop of count 0 passes over it (15 R262, R264). -/
theorem engIssue_of_decode {e : Eng} (hr : engReady s c e = true) (hpc : (s.eng c e).pc < 8192) (hskip : (s.eng c e).skip = none)
    (hp : imPoison s c (engUnit e) (2 * (s.eng c e).pc) = false)
    (hd : decodeEngFor e (bytesNat (memBytes (engMem s c e) (2 * (s.eng c e).pc) 2)) = .ok i) : engIssue s c e = exec i (s.atEngine c e) := by
  have hin : ¬ engWords ≤ (s.eng c e).pc := not_le.mpr hpc
  have hp' : imPoison (s.atEngine c e) c (engUnit e) (2 * (s.eng c e).pc) = false := hp
  have hd' : decodeEngFor e (bytesNat (memBytes (engMem (s.atEngine c e) c e) (2 * (s.eng c e).pc) 2)) = .ok i := hd
  simp [engIssue, hr, engRun, hin, hp', hd', hskip]

theorem issueOf_eng {e : Eng} (he : e ≠ .cp) : issueOf s c (engSequencer e) = engIssue s c e := by
  cases e with
  | ld | st => rfl
  | cp => exact absurd rfl he

theorem canTake_eng {e : Eng} (he : e ≠ .cp) : canTake s c (engSequencer e) = engReady s c e := by
  cases e with
  | ld | st => rfl
  | cp => exact absurd rfl he

/-- The CP runs its bundle's slots in order, and closes it (13 R218). -/
theorem issueOf_cp {tok : Tok} {slots : List (Slot × Instr)} (hr : cpReady s c = true) (hf : cpFetch s c = .go v tok slots)
    (hs : runSlots c slots v = .next t) : issueOf s c .cp = .next (closeBundle t c tok) := by
  simp [issueOf, cpIssue, hr, cpRun, hf, hs]

/-! ## What the CP's fetch reads stands still while results land (04 R77) -/

/-- What the CP fetches a bundle by is the same: its memory, its pc, its REP. -/
def SameFetch (s t : State) (c : ℕ) : Prop :=
  (t.core c).imCp = (s.core c).imCp ∧ (t.cp c).pc = (s.cp c).pc ∧ (t.cp c).rep = (s.cp c).rep ∧ (t.cp c).repcnt = (s.cp c).repcnt

theorem SameFetch.trans (h : SameFetch s t c) (h' : SameFetch t u c) : SameFetch s u c := by
  obtain ⟨hm, hpc, hrep, hcnt⟩ := h
  obtain ⟨hm', hpc', hrep', hcnt'⟩ := h'
  exact ⟨hm'.trans hm, hpc'.trans hpc, hrep'.trans hrep, hcnt'.trans hcnt⟩

/-- A change of the CP that leaves its pc and its REP. -/
theorem sameFetch_modCp {f : Cp → Cp} (hpc : (f (s.cp c)).pc = (s.cp c).pc) (hrep : (f (s.cp c)).rep = (s.cp c).rep)
    (hcnt : (f (s.cp c)).repcnt = (s.cp c).repcnt) : SameFetch s (s.modCp c f) c := by
  have hm : ((s.modCp c f).core c).imCp = (s.core c).imCp := by simp [State.modCp, State.modSeqs, State.modArch]
  exact ⟨hm, by rw [cp_modCp, hpc], by rw [cp_modCp, hrep], by rw [cp_modCp, hcnt]⟩

theorem sameFetch_vecWrite (phys : ℕ) (bits value : Vec) : SameFetch s (s.modCore c (fun k => k.vecWrite phys bits value)) c := by
  have hcore : (s.modCore c (fun k => k.vecWrite phys bits value)).core c = (s.core c).vecWrite phys bits value := core_modCore _ _ _
  have hcp : (s.modCore c (fun k => k.vecWrite phys bits value)).cp c = s.cp c := congrArg (fun k => k.arch.seqs.cp) hcore
  have him : ((s.core c).vecWrite phys bits value).imCp = (s.core c).imCp := rfl
  exact ⟨(congrArg Core.imCp hcore).trans him, congrArg Cp.pc hcp, congrArg Cp.rep hcp, congrArg Cp.repcnt hcp⟩

theorem sameFetch_landWrite (w : CpWrite) : SameFetch s (landWrite s c w) c := by
  cases w with
  | vec phys bits value => exact sameFetch_vecWrite phys bits value
  | k | m | q | h | ht | bank | hcfg | table => exact sameFetch_modCp rfl rfl rfl

theorem sameFetch_landDue : SameFetch s (landDue s c) c :=
  List.foldlRecOn _ (fun s (x : InFlight) => landWrite s c x.write) (motive := fun t => SameFetch s t c) (sameFetch_modCp rfl rfl rfl)
    fun _ h x _ => h.trans (sameFetch_landWrite x.write)

theorem SameFetch.rep (h : SameFetch s t c) : (t.cp c).rep = (s.cp c).rep := by
  obtain ⟨-, -, hrep, -⟩ := h
  exact hrep

theorem SameFetch.repcnt (h : SameFetch s t c) : (t.cp c).repcnt = (s.cp c).repcnt := by
  obtain ⟨-, -, -, hcnt⟩ := h
  exact hcnt

/-! ## What a fetched bundle holds (11 R168, 13 R218, R233) -/

/-- The bundle at the CP's pc. -/
def cpWord (s : State) (c : ℕ) : ℕ := bytesNat (memBytes (s.core c).imCp (32 * (s.cp c).pc) 32)

theorem SameFetch.cpWord (h : SameFetch s t c) : cpWord t c = cpWord s c := by
  obtain ⟨hm, hpc, -, -⟩ := h
  rw [Machine.cpWord, Machine.cpWord, hm, hpc]

/-- What each slot of a bundle decodes to. -/
def slotAnswers (s : State) (c w : ℕ) : List (Slot × Except FaultInfo Instr) := slotOrder.map fun sl => (sl, slotStatic s c w sl)

/-- The slots of a bundle that decode, in order. -/
def slotInstrs (answers : List (Slot × Except FaultInfo Instr)) : List (Slot × Instr) :=
  answers.filterMap fun a => match a.2 with | .ok i => some (a.1, i) | .error _ => none

theorem leastFault_eq_none {l : List FaultInfo} (h : leastFault l = none) : l = [] := by
  cases l with
  | nil => rfl
  | cons f l =>
    simp only [leastFault] at h
    split at h
    · split at h <;> cases h
    · cases h

/-- A bundle without faults decodes in all its slots. -/
theorem ok_of_bundleFaults_nil {answers : List (Slot × Except FaultInfo Instr)} (h : bundleFaults s c answers = []) {a : Slot × Except FaultInfo Instr}
    (ha : a ∈ answers) : ∃ i, a.2 = .ok i := by
  obtain ⟨sl, r⟩ := a
  cases r with
  | ok i => exact ⟨i, rfl⟩
  | error f => exact absurd (List.flatMap_eq_nil_iff.mp h _ ha) (List.cons_ne_nil f [])

theorem map_slotInstrs {answers : List (Slot × Except FaultInfo Instr)} (h : ∀ a ∈ answers, ∃ i, a.2 = .ok i) :
    (slotInstrs answers).map Prod.fst = answers.map Prod.fst := by
  induction answers with
  | nil => rfl
  | cons a l ih =>
    obtain ⟨sl, r⟩ := a
    obtain ⟨i, rfl⟩ : ∃ i, r = .ok i := h _ List.mem_cons_self
    exact congrArg (sl :: ·) (ih fun b hb => h b (List.mem_cons_of_mem _ hb))

theorem mem_slotInstrs {w : ℕ} {sl : Slot} (h : (sl, i) ∈ slotInstrs (slotAnswers s c w)) : slotStatic s c w sl = .ok i := by
  obtain ⟨⟨sl', r⟩, ha, hr⟩ := List.mem_filterMap.mp h
  obtain ⟨_, -, hsl⟩ := List.mem_map.mp ha
  obtain ⟨rfl, rfl⟩ := Prod.mk.inj hsl
  split at hr
  next hi =>
    obtain ⟨rfl, rfl⟩ := Prod.mk.inj (Option.some.inj hr)
    exact hi
  · cases hr

/-- A bundle goes on to act only without faults; its tokens and its slots are then those of its word. -/
theorem cpFetch_go {tok : Tok} {slots : List (Slot × Instr)} (h : cpFetch s c = .go v tok slots) :
    let l := landDue (s.atSlot c .c) c
    bundleFaults l c (slotAnswers l c (cpWord l c)) = [] ∧ tok = Tok.ofCode ((slotField (cpWord l c) .c).x % 16)
      ∧ slots = slotInstrs (slotAnswers l c (cpWord l c)) := by
  intro l
  unfold cpFetch at h
  dsimp only at h
  split at h
  · cases h
  split at h
  · cases h
  split at h
  · cases h
  split at h
  · cases h
  · cases h
  split at h
  · cases h
  next hnone =>
    split at h
    · cases h
    · obtain ⟨-, rfl, rfl⟩ := CpTurn.go.inj h
      exact ⟨leastFault_eq_none hnone, rfl, rfl⟩

/-- The four slots of a fetched bundle, each with the instruction that its word stands for where the results due have landed. -/
theorem cpFetch_slots {tok : Tok} {slots : List (Slot × Instr)} (h : cpFetch s c = .go v tok slots) :
    slots.map Prod.fst = slotOrder ∧ ∀ p ∈ slots, slotStatic (landDue (s.atSlot c .c) c) c (cpWord s c) p.1 = .ok p.2 := by
  obtain ⟨hfaults, -, rfl⟩ := cpFetch_go h
  have hword : cpWord (landDue (s.atSlot c .c) c) c = cpWord s c := sameFetch_landDue.cpWord
  rw [hword] at hfaults ⊢
  refine ⟨(map_slotInstrs fun a ha => ok_of_bundleFaults_nil hfaults ha).trans ?_, fun p hp => mem_slotInstrs hp⟩
  exact List.map_map.trans (List.map_id _)

theorem slotField_tok (w : ℕ) : (slotField w .c).x % 16 = w % 16 := by
  simp only [slotField, SlotWord.ofNat, slotCode, mul_zero, pow_zero, Nat.div_one]
  omega

theorem cpFetch_tok {tok : Tok} {slots : List (Slot × Instr)} (h : cpFetch s c = .go v tok slots) : tok = Tok.ofCode (cpWord s c % 16) := by
  obtain ⟨-, rfl, -⟩ := cpFetch_go h
  rw [slotField_tok, sameFetch_landDue.cpWord]; rfl

/-- Outside a REP a slot acts by its own word. -/
theorem decode_of_slotStatic {w : ℕ} {sl : Slot} (hrep : (s.cp c).rep = none) (h : slotStatic s c w sl = .ok i) :
    decodeSlotWord sl (slotField w sl) = .ok i := by
  simp only [slotStatic, hrep] at h
  split at h
  · cases h
  next hd => exact hd.trans (congrArg _ (Except.ok.inj h))

/-- In a REP a slot acts by its word stepped to the iteration (13 R233). -/
theorem stepSlot_of_slotStatic {w : ℕ} {sl : Slot} {r : RepRun} (hrep : (s.cp c).rep = some r) (h : slotStatic s c w sl = .ok i) :
    ∃ x, stepSlot sl r.st (r.n - (s.cp c).repcnt.toNat) (slotField w sl) = some x ∧ decodeSlotWord sl x = .ok i := by
  simp only [slotStatic, hrep] at h
  split at h
  · cases h
  next x hx =>
    split at h
    · cases h
    next j hd =>
      split at h
      · cases h
      · exact ⟨x, hx, hd.trans (congrArg _ (Except.ok.inj h))⟩

/-- A decoded bundle's slots. -/
def bundleSlots (b : Bundle) : List (Slot × Instr) := [(.c, b.c), (.v, b.v), (.w, b.w), (.m, b.m)]

theorem decodeBundle_ok {w : ℕ} {b : Bundle} (h : decodeBundle w = .ok b) :
    b.tok = Tok.ofCode (w % 16) ∧ ∀ p ∈ bundleSlots b, decodeSlotWord p.1 (slotField w p.1) = .ok p.2 := by
  unfold decodeBundle decodeBundleWords at h
  split at h
  · cases h
  next hc =>
    split at h
    · cases h
    next hv =>
      split at h
      · cases h
      next hw =>
        split at h
        · cases h
        next hm =>
          obtain rfl := Except.ok.inj h
          have hfield : slotField w .c = SlotWord.ofNat (w % 2 ^ 64) := by simp [slotField, slotCode]
          rw [← hfield] at hc ⊢
          exact ⟨by rw [slotField_tok], by simpa [bundleSlots, hc] using ⟨hv, hw, hm⟩⟩

/-- Two lists of slots that name the same slots in order, each with what its word decodes to, are one. -/
theorem slots_eq_of_decode {f : Slot → Except Reject Instr} {l l' : List (Slot × Instr)} (hk : l.map Prod.fst = l'.map Prod.fst)
    (h : ∀ p ∈ l, f p.1 = .ok p.2) (h' : ∀ p ∈ l', f p.1 = .ok p.2) : l = l' := by
  refine List.map_injective_iff.mpr (fun p q hpq => ?_ : Function.Injective fun p : Slot × Instr => (p.1, (Except.ok p.2 : Except Reject Instr))) ?_
  · obtain ⟨hs, hi⟩ := Prod.mk.inj hpq
    exact Prod.ext hs (Except.ok.inj hi)
  · calc l.map (fun p => (p.1, Except.ok p.2)) = (l.map Prod.fst).map (fun sl => (sl, f sl)) := by
          rw [List.map_map]; exact List.map_congr_left fun p hp => by simp [h p hp]
      _ = (l'.map Prod.fst).map (fun sl => (sl, f sl)) := by rw [hk]
      _ = l'.map (fun p => (p.1, Except.ok p.2)) := by
          rw [List.map_map]; exact List.map_congr_left fun p hp => by simp [h' p hp]

/-- Outside a REP the CP runs the bundle that its pc names. -/
theorem cpFetch_bundle {tok : Tok} {slots : List (Slot × Instr)} {b : Bundle} (h : cpFetch s c = .go v tok slots) (hrep : (s.cp c).rep = none)
    (hd : decodeBundle (cpWord s c) = .ok b) : slots = bundleSlots b ∧ tok = b.tok := by
  obtain ⟨hkeys, hstat⟩ := cpFetch_slots h
  obtain ⟨htok, hdec⟩ := decodeBundle_ok hd
  have hrep' : ((landDue (s.atSlot c .c) c).cp c).rep = none := sameFetch_landDue.rep.trans hrep
  exact ⟨slots_eq_of_decode (f := fun sl => decodeSlotWord sl (slotField (cpWord s c) sl)) hkeys (fun p hp => decode_of_slotStatic hrep' (hstat p hp)) hdec,
    (cpFetch_tok h).trans htok.symm⟩

/-- In a REP each slot is the one of its stepped word. -/
theorem cpFetch_repeat {tok : Tok} {slots : List (Slot × Instr)} {r : RepRun} (h : cpFetch s c = .go v tok slots) (hrep : (s.cp c).rep = some r) {sl : Slot}
    (hi : (sl, i) ∈ slots) :
    ∃ x, stepSlot sl r.st (r.n - (s.cp c).repcnt.toNat) (slotField (cpWord s c) sl) = some x ∧ decodeSlotWord sl x = .ok i := by
  obtain ⟨-, hstat⟩ := cpFetch_slots h
  have hrep' : ((landDue (s.atSlot c .c) c).cp c).rep = some r := sameFetch_landDue.rep.trans hrep
  have hcnt : ((landDue (s.atSlot c .c) c).cp c).repcnt = (s.cp c).repcnt := sameFetch_landDue.repcnt
  rw [← hcnt]
  exact stepSlot_of_slotStatic hrep' (hstat _ hi)

end Sys2Proof.Machine

open Sys2Proof.Machine in
/-- Settles O56: a turn in its time runs to what it comes to by itself (`runs_of_plainTurn`), which for a sequencer is the instruction at its pc; the slots of a bundle are those of the word at the CP's pc, since no result that lands before it moves what it is fetched by (`sameFetch_landDue`). -/
theorem stepRunsTheDecoded : Obligations.StepRunsTheDecoded := by
  intro s c k i rest t u pc dbg first noted ends runs
  have hruns : ∀ {b : Turn} {t : State}, b ≠ .tick → s.agenda = b :: rest → tooLate u b = false → plainTurn u b = .next t → runs b t :=
    fun hb ha hl hp => runs_of_plainTurn hb (nextTurn_cons ha) hl hp
  refine ⟨?sc, ?eng, ?cp, ?bundle, ?event, ?notEvent, ?late, ?tick⟩
  case sc =>
    intro ha hl hk hinj hst hpc hal hp hd hx
    have hnext : scNext u c k = .ok i := scNext_of_decodeSc hinj hpc hal hp hd
    exact hruns nofun ha hl (issueTurn_of_issueOf (Option.isSome_of_eq_some hk) hst ((issueOf_sc hk hnext).trans hx))
  case eng =>
    intro e he q ha hl hr hst hpc hskip hp hd hx
    have hissue : issueOf u c (engSequencer e) = .next t := (issueOf_eng he).trans ((engIssue_of_decode hr hpc hskip hp hd).trans hx)
    exact hruns nofun ha hl (issueTurn_of_issueOf ((canTake_eng he).trans hr) hst hissue)
  case cp =>
    intro v tok slots ha hl hr hst hf hx
    exact hruns nofun ha hl (issueTurn_of_issueOf hr hst (issueOf_cp hr hf hx))
  case bundle =>
    intro v tok slots hf word
    exact ⟨fun b hrep hd => cpFetch_bundle hf hrep hd, fun r hrep => ⟨(cpFetch_slots hf).1, cpFetch_tok hf, fun sl j hj => cpFetch_repeat hf hrep hj⟩⟩
  case event => exact fun ha hl he hx => hruns nofun ha hl ((plainTurn_event he).trans hx)
  case notEvent =>
    intro ha he
    have hl : tooLate u (.event i) = false := tooLate_of_isSome he
    exact step_fault (nextTurn_cons ha) hl (plainTurn_notAnEvent he)
  case late => exact fun b ha hl => step_late (nextTurn_cons ha) hl
  case tick => exact step_tick
end

section
/-! Waits that cannot end (05 R95, 23 R316-R321, 24 R331): which queue relief enlarges and what that leaves, and when each watchdog stops its core. -/

namespace Sys2Proof.Machine

variable {s t : State} {c k n q r : ℕ} {l : List ℕ}

/-! ## The smallest of some queues (05 R95, 23 R317) -/

/-- Of a list of queues, q has the smallest capacity, and of several that have it comes first in the tie order. -/
def FirstOf (s : State) (c : ℕ) (l : List ℕ) (q : ℕ) : Prop :=
  q ∈ l ∧ ∀ r ∈ l, queueCap s c q < queueCap s c r ∨ (queueCap s c q = queueCap s c r ∧ q ≤ r)

theorem FirstOf.unique (h : FirstOf s c l q) (h' : FirstOf s c l r) : q = r := by
  have := h.2 r h'.1
  have := h'.2 q h.1
  omega

/-- The fold of `smallestQueue`, begun with m, ends with the first of m and the queues behind it. -/
theorem smallestQueue_cons {m : ℕ} (h : (m :: l).Pairwise (· < ·)) : ∃ q, smallestQueue s c (m :: l) = some q ∧ FirstOf s c (m :: l) q := by
  induction l generalizing m with
  | nil => exact ⟨m, rfl, by simp, by simp⟩
  | cons a l ih =>
    obtain ⟨hm, hal⟩ := List.pairwise_cons.1 h
    have hma : m < a := hm a (by simp)
    by_cases hc : queueCap s c a < queueCap s c m
    · have e : smallestQueue s c (m :: a :: l) = smallestQueue s c (a :: l) := by simp [smallestQueue, hc]
      obtain ⟨q, hq, hmem, hmin⟩ := ih hal
      have := hmin a (by simp)
      refine ⟨q, e.trans hq, List.mem_cons_of_mem _ hmem, List.forall_mem_cons.2 ⟨.inl (by omega), hmin⟩⟩
    · have e : smallestQueue s c (m :: a :: l) = smallestQueue s c (m :: l) := by simp [smallestQueue, hc]
      obtain ⟨q, hq, hmem, hmin⟩ := ih (h.sublist ((List.sublist_cons_self a l).cons_cons m))
      obtain ⟨hqm, hmin⟩ := List.forall_mem_cons.1 hmin
      refine ⟨q, e.trans hq, by simp only [List.mem_cons] at hmem ⊢; tauto, List.forall_mem_cons.2 ⟨hqm, List.forall_mem_cons.2 ⟨by omega, hmin⟩⟩⟩

theorem smallestQueue_of_first (hl : l.Pairwise (· < ·)) (h : FirstOf s c l q) : smallestQueue s c l = some q := by
  cases l with
  | nil => exact absurd h.1 (by simp)
  | cons m l =>
    obtain ⟨r, hr, hf⟩ := smallestQueue_cons (s := s) (c := c) hl
    rw [hr, hf.unique h]

theorem smallestQueue_ne_none (hl : l.Pairwise (· < ·)) (h : l ≠ []) : smallestQueue s c l ≠ none := by
  cases l with
  | nil => exact absurd rfl h
  | cons m l =>
    obtain ⟨r, hr, -⟩ := smallestQueue_cons (s := s) (c := c) hl
    simp [hr]

theorem smallestQueue_nil : smallestQueue s c [] = none := rfl

theorem mem_fullWaited (h : allWait s c = some l) : q ∈ fullWaited s c ↔ q < 10 ∧ q ∈ l ∧ queueFull s c q = true := by
  simp [fullWaited, h]

theorem fullWaited_lt (h : q ∈ fullWaited s c) : q < 10 := by
  unfold fullWaited at h
  split at h
  · exact List.mem_range.1 (List.mem_of_mem_filter h)
  · simp at h

theorem fullWaited_sorted (s : State) (c : ℕ) : (fullWaited s c).Pairwise (· < ·) := by
  unfold fullWaited
  split
  · exact List.pairwise_lt_range.filter _
  · exact .nil

/-- All four sequencers of a live core have waited for n cycles (24 R335: of a core that is not halted). -/
def Waited (s : State) (c n : ℕ) : Prop :=
  coreLive s c = true ∧ (s.core c).dbg.halt = false ∧ (allWait s c).isSome = true ∧ ∃ from_, (s.seqs c).waitSince = some from_ ∧ from_ + n ≤ s.coreTime c

theorem waitedFor_iff : waitedFor s c n = true ↔ Waited s c n := by
  unfold waitedFor Waited
  cases (s.seqs c).waitSince <;> simp [and_assoc]

theorem waitedFor_false (h : ¬ Waited s c n) : waitedFor s c n = false := Bool.eq_false_iff.2 fun h' => h (waitedFor_iff.1 h')

/-! ## What an enlargement leaves (05 R95) -/

theorem enlarge_modSeqs (s : State) (c n : ℕ) : ∃ f, enlarge s c n = s.modSeqs c f := by
  by_cases h : n < 6
  · exact ⟨_, if_pos h⟩
  · exact ⟨_, if_neg h⟩

/-- An enlargement gives its queue 16 entries more and counts once, and leaves every other queue of the core as it was. -/
theorem enlarge_spec (hq : q < 10) (hr : r < 10) :
    queueCap (enlarge s c q) c r = (if r = q then queueCap s c r + 16 else queueCap s c r)
    ∧ queueEnl (enlarge s c q) c r = (if r = q then queueEnl s c r + 1 else queueEnl s c r) := by
  by_cases hq6 : q < 6
  · by_cases hr6 : r < 6
    · simp only [enlarge, hq6, hr6, if_true, queueCap, queueEnl, State.tok, State.modTok, seqs_modSeqs, sget_sset]
      by_cases h : r = q
      · simp [h]
      · simp [h]
    · simp [enlarge, hq6, hr6, queueCap, queueEnl, State.modTok, show r ≠ q by omega]
  · by_cases hr6 : r < 6
    · simp only [enlarge, hq6, hr6, if_true, if_false, queueCap, queueEnl, State.tok, seqs_modSeqs, show r ≠ q by omega]
      split_ifs <;> simp
    · obtain rfl | rfl | rfl | rfl : q = 6 ∨ q = 7 ∨ q = 8 ∨ q = 9 := by omega
      all_goals
        obtain rfl | rfl | rfl | rfl : r = 6 ∨ r = 7 ∨ r = 8 ∨ r = 9 := by omega
        all_goals simp [enlarge, queueCap, queueEnl]

/-- The state in which queue n of core c is enlarged from its cluster's pantry, and the core's wait begins anew. -/
def relieved (s : State) (c n : ℕ) : State :=
  ((enlarge s c n).modCluster (clusterOf c) (fun g => { g with pantry := g.pantry - 1 })).modSeqs c (fun q => { q with waitSince := none })

theorem relieved_spec (hq : q < 10) (hr : r < 10) :
    queueCap (relieved s c q) c r = (if r = q then queueCap s c r + 16 else queueCap s c r)
    ∧ queueEnl (relieved s c q) c r = (if r = q then queueEnl s c r + 1 else queueEnl s c r) := by
  have hcap : queueCap (relieved s c q) c r = queueCap (enlarge s c q) c r := by
    simp only [queueCap, State.tok, relieved, seqs_modSeqs]; rfl
  have henl : queueEnl (relieved s c q) c r = queueEnl (enlarge s c q) c r := by
    simp only [queueEnl, State.tok, relieved, seqs_modSeqs]; rfl
  rw [hcap, henl]
  exact enlarge_spec hq hr

theorem relieved_frame (s : State) (c q : ℕ) :
    ((relieved s c q).cluster (clusterOf c)).pantry = (s.cluster (clusterOf c)).pantry - 1 ∧ ((relieved s c q).seqs c).waitSince = none
    ∧ relieved s c q = { s with cores := (relieved s c q).cores, clusters := (relieved s c q).clusters }
    ∧ (∀ d, d ≠ c → (relieved s c q).core d = s.core d) ∧ SameMemory s (relieved s c q) := by
  obtain ⟨f, hf⟩ := enlarge_modSeqs s c q
  have hm : SameMemory s (enlarge s c q) := hf ▸ sameMemory_modSeqs s c f
  refine ⟨?_, by simp [relieved], ?_, fun d hd => ?_, ?_⟩
  · have : (relieved s c q).cluster (clusterOf c) = ((enlarge s c q).modCluster (clusterOf c) (fun g => { g with pantry := g.pantry - 1 })).cluster (clusterOf c) := rfl
    rw [this, cluster_modCluster, hf]
    rfl
  · unfold relieved
    rw [hf]
    rfl
  · have : (relieved s c q).core d = (enlarge s c q).core d := core_modCore_ne _ _ _ _ hd
    rw [this, hf]
    exact core_modCore_ne _ _ _ _ hd
  · have hc : SameMemory (enlarge s c q) ((enlarge s c q).modCluster (clusterOf c) (fun g => { g with pantry := g.pantry - 1 })) :=
      sameMemory_congr rfl rfl rfl rfl
    exact sameMemory_trans hm (sameMemory_trans hc (sameMemory_modSeqs _ c _))

/-! ## Relief and the stop of a queue deadlock (05 R95, 23 R317, R321) -/

/-- The full queues waited on that relief may still enlarge. -/
def canEnlarge (s : State) (c : ℕ) : List ℕ := (fullWaited s c).filter (fun q => decide (queueEnl s c q < 4))

theorem canEnlarge_sorted (s : State) (c : ℕ) : (canEnlarge s c).Pairwise (· < ·) := (fullWaited_sorted s c).filter _

theorem reliefQueue_of_first (h : FirstOf s c (canEnlarge s c) q) : reliefQueue s c = some q := smallestQueue_of_first (canEnlarge_sorted s c) h
theorem reliefQueue_isNone_iff : (reliefQueue s c).isNone = true ↔ canEnlarge s c = [] := by
  rw [Option.isNone_iff_eq_none]
  refine ⟨fun h => by_contra fun hne => smallestQueue_ne_none (canEnlarge_sorted s c) hne h, fun h => ?_⟩
  have : reliefQueue s c = smallestQueue s c (canEnlarge s c) := rfl
  rw [this, h, smallestQueue_nil]

theorem deadlockRelief_enlarges (hq : FirstOf s c (canEnlarge s c) q) (hw : Waited s c 256) (hp : 0 < (s.cluster (clusterOf c)).pantry)
    (hu : underflow s c = none) : exec (.deadlockRelief c) s = .next (relieved s c q) := by
  show execDeadlockRelief c s = _
  simp [execDeadlockRelief, reliefQueue_of_first hq, waitedFor_iff.2 hw, hp, hu, relieved]

theorem deadlockRelief_rests (h : canEnlarge s c = [] ∨ ¬ Waited s c 256 ∨ (s.cluster (clusterOf c)).pantry = 0 ∨ (underflow s c).isSome = true) :
    exec (.deadlockRelief c) s = .next s := by
  show execDeadlockRelief c s = _
  unfold execDeadlockRelief
  split
  · rfl
  next q hq =>
    refine if_neg ?_
    rcases h with h | h | h | h
    · simp [Option.isNone_iff_eq_none.1 (reliefQueue_isNone_iff.2 h)] at hq
    · simp [waitedFor_false h]
    · simp [h]
    · simp [Option.isSome_iff_ne_none.1 h]

/-- QUEUE_DEADLOCK where no format word is lacking: with nothing full after the watchdog's time, else after 256 cycles in which nothing could be enlarged. -/
theorem queueDeadlock_eq (hu : underflow s c = none) :
    exec (.queueDeadlock c) s = match smallestQueue s c (fullWaited s c) with
      | none => .next (if waitedFor s c (2 ^ 20) then takeStop s c 7 0x40 0 0 0 0 else s)
      | some q => if waitedFor s c 256 = false then .next s
          else if canEnlarge s c = [] then .next (takeStop s c 7 (0x40 + 256 * 2 + 2 ^ 20 * q) 0 0 0 0)
          else if (s.cluster (clusterOf c)).pantry = 0 then .next (takeStop s c 7 (0x40 + 256 * 1 + 2 ^ 20 * q) 0 0 0 0)
          else .next s := by
  show execQueueDeadlock c s = _
  simp only [execQueueDeadlock, hu, reliefQueue_isNone_iff, wholeStop, Bool.not_eq_true']
  rfl

theorem queueDeadlock_underflow (hu : (underflow s c).isSome = true) : exec (.queueDeadlock c) s = .next s := if_pos hu

/-! ## A lack of format words (23 R316, 24 R331) -/

/-- No context of the core can bring a format word: context 0 does not run and no handler does. -/
def NoContext (s : State) (c : ℕ) : Prop := (s.ctx c 0).status ≠ .running ∧ ∀ j, 1 ≤ j → j < 4 → (s.ctx c j).status = .dormant

theorem noContext_iff : ((s.ctx c 0).status != .running && [1, 2, 3].all (fun k => (s.ctx c k).status == .dormant)) = true ↔ NoContext s c := by
  have h : (∀ j, 1 ≤ j → j < 4 → (s.ctx c j).status = .dormant) ↔ ∀ j ∈ [1, 2, 3], (s.ctx c j).status = .dormant :=
    ⟨fun h j hj => h j (by simp at hj; omega) (by simp at hj; omega), fun h j h1 h4 => h j (by simp; omega)⟩
  simp [NoContext, h]

theorem underflow_iff {h : MqEntry} {d : ℕ} : underflow s c = some (h, d) ↔ fqHeld s c = some h
    ∧ ((NoContext s c ∧ d = 0) ∨ (¬ NoContext s c ∧ d = 1 ∧ ∃ at_, h.readyAt = some at_ ∧ at_ + 2 ^ 20 ≤ s.coreTime c)) := by
  unfold underflow
  cases hf : fqHeld s c with
  | none => simp
  | some g =>
    by_cases hn : NoContext s c
    · simp only [if_pos (noContext_iff.2 hn), Option.some.injEq, Prod.mk.injEq, hn, not_true]
      tauto
    · simp only [if_neg (mt noContext_iff.1 hn), Option.some.injEq, hn, not_false_eq_true]
      by_cases hg : g = h
      · subst hg
        cases g.readyAt with
        | none => simp
        | some a =>
          simp only [show (2 : ℕ) ^ 20 = Config.watchdog from rfl, Option.ite_none_right_eq_some, Option.some.injEq, Prod.mk.injEq, true_and, false_and, false_or, exists_eq_left']
          exact ⟨fun h => ⟨h.2.symm, h.1⟩, fun h => ⟨h.2, h.1.symm⟩⟩
      · simp only [hg, false_and, iff_false]
        cases g.readyAt <;> simp [hg]

/-- A matrix queue that faults in a core that runs stops it; in one that is halted the fault is held (24 R337). -/
theorem fqUnderflow_eq {h : MqEntry} {d : ℕ} (hu : underflow s c = some (h, d)) (hl : coreLive s c = true) :
    exec (.fqUnderflow c) s = .next (mqTrap s c h.num h.pc (faultOf 5 d 0)) := by
  show execFqUnderflow c s = _
  simp [execFqUnderflow, hu, hl]

theorem fqUnderflow_rests (h : underflow s c = none ∨ coreLive s c = false) : exec (.fqUnderflow c) s = .next s := by
  show execFqUnderflow c s = _
  unfold execFqUnderflow
  rcases h with h | h
  · simp [h]
  · split <;> simp [h]

theorem halt_modCp (f : Cp → Cp) : ((s.modCp c f).core c).dbg.halt = (s.core c).dbg.halt := by simp [State.modCp, State.modSeqs, State.modArch]

theorem mqTrap_running {num pc : ℕ} {f : FaultInfo} (h : (s.core c).dbg.halt = false) :
    mqTrap s c num pc f = takeStop (s.modCp c (fun p => { p with halted := true })) c 5 f.isw f.faddr num 0 pc := by
  simp [mqTrap, halt_modCp, h]

theorem mqTrap_halted {num pc : ℕ} {f : FaultInfo} (h : (s.core c).dbg.halt = true) :
    let t := mqTrap s c num pc f
    (t.core c).dbg.pend = true ∧ (t.cp c).fault = some ⟨f, num, pc, s.now⟩ ∧ (t.cp c).halted = true ∧ (t.core c).stop = (s.core c).stop ∧ OnlyCore s t c ∧ SameMemory s t := by
  intro t
  have ht : t = s.modCore c (fun k => { k with
      arch := { k.arch with seqs := { k.arch.seqs with cp := { k.arch.seqs.cp with halted := true, fault := some ⟨f, num, pc, s.now⟩ } } }
      dbg := { k.dbg with pend := true } }) := by
    simp [t, mqTrap, h, State.modCp, State.modSeqs, State.modArch]
  rw [ht]
  exact ⟨by simp, by simp [State.cp, State.seqs], by simp [State.cp, State.seqs], by simp, onlyCore_modCore s c _, sameMemory_modCore s c _ rfl⟩

/-! ## Freezes and barriers (23 R320, R321) -/

theorem freezeTimeout_none (h : (s.arch c).freeze = none) : exec (.freezeTimeout c) s = .next s := by
  show execFreezeTimeout c s = _
  simp [execFreezeTimeout, h]

theorem freezeTimeout_rests {f : Freeze} (h : (s.arch c).freeze = some f) (hf : f.cause = .sram ∨ s.now < f.since + 2 ^ 20) :
    exec (.freezeTimeout c) s = .next s := by
  show execFreezeTimeout c s = _
  simp only [execFreezeTimeout, h]
  have hw : Config.watchdog = 2 ^ 20 := rfl
  refine if_neg fun ⟨h1, h2⟩ => ?_
  rcases hf with hf | hf
  · exact h1 hf
  · omega

/-- A freeze that has lasted 2^20 cycles ends; its core stops, by the cap at once, by a late reply once that is given up. -/
theorem freezeTimeout_ends {f : Freeze} (h : (s.arch c).freeze = some f) (hs : f.cause ≠ .sram) (ht : f.since + 2 ^ 20 ≤ s.now) :
    exec (.freezeTimeout c) s = .next (match f.cause with
      | .dirtyCap => takeStop (s.modArch c (fun a => { a with freeze := f.over })) c 7 (0x41 + 256 * 1) 0 0 0 0
      | _ => takeStop ((s.modArch c (fun a => { a with freeze := f.over })).modCp c dropLate) c 7 0x41 0 0 0 0) := by
  show execFreezeTimeout c s = _
  simp only [execFreezeTimeout, h]
  rw [if_pos ⟨hs, ht⟩]
  cases f.cause <;> rfl

/-- Context k has waited for a barrier for 2^20 cycles whose TARGET has been 0. -/
def BarStuck (s : State) (c k : ℕ) : Prop :=
  coreLive s c = true ∧ (s.core c).dbg.halt = false ∧ (s.ctx c k).status = .running ∧ (s.ctx c k).barIdle = true ∧ (s.ctx c k).waitFrom + 2 ^ 20 ≤ s.coreTime c

theorem barrierIdle_stops (hw : (s.ctx c k).wait = .barw n) (h : BarStuck s c k) :
    exec (.barrierIdle c k) s = .next (takeStop s c 7 (0x42 + 256 * n) 0 0 0 0) := by
  show execBarrierIdle c k s = _
  obtain ⟨hl, hh, hst, hb, ht⟩ := h
  have hw' : Config.watchdog = 2 ^ 20 := rfl
  simp only [execBarrierIdle, hw, hl, hh, hst, hb, hw', decide_eq_true ht]
  rfl

theorem barrierIdle_rests (h : (∀ n, (s.ctx c k).wait ≠ .barw n) ∨ ¬ BarStuck s c k) : exec (.barrierIdle c k) s = .next s := by
  show execBarrierIdle c k s = _
  unfold execBarrierIdle
  split
  next n hn =>
    have hs : ¬ BarStuck s c k := h.resolve_left fun h => h n hn
    refine if_neg fun hc => hs ?_
    simpa only [BarStuck, show Config.watchdog = 2 ^ 20 from rfl, Bool.and_eq_true, Bool.not_eq_true', beq_iff_eq, decide_eq_true_eq, and_assoc] using hc
  · rfl

/-- A write of 0 to the TARGET of barrier n is noted by those of some contexts that wait on it, and by no other. -/
theorem noteIdle_fold {target : BitVec 16} {j : ℕ} (l : List ℕ) (s : State) :
    ((l.foldl (fun s k => if target == 0 && (s.ctx c k).wait == .barw n then s.modCtx c k (fun t => { t with barIdle := true }) else s) s).ctx c j).barIdle
      = ((s.ctx c j).barIdle || (decide (j ∈ l) && (target == 0 && (s.ctx c j).wait == .barw n))) := by
  induction l generalizing s with
  | nil => simp
  | cons k l ih =>
    rw [List.foldl_cons, ih]
    by_cases hk : (target == 0 && (s.ctx c k).wait == .barw n) = true
    · rw [if_pos hk]
      by_cases hj : j = k
      · subst hj; rw [ctx_modCtx]; simp only [hk]; simp
      · rw [ctx_modCtx_ne _ _ _ _ _ _ (by simpa using hj)]
        simp [hj]
    · rw [if_neg hk]
      by_cases hj : j = k
      · subst hj; simp only [Bool.eq_false_iff.2 hk]; simp
      · simp [hj]

theorem noteIdle_barIdle {target : BitVec 16} {j : ℕ} (hj : j < 4) :
    ((noteIdle s c n target).ctx c j).barIdle = ((s.ctx c j).barIdle || (target == 0 && (s.ctx c j).wait == .barw n)) := by
  have hmem : j ∈ [0, 1, 2, 3] := by simp; omega
  rw [noteIdle, noteIdle_fold]
  simp [hmem]

/-- The write of a barrier's TARGET, once it is the oldest operation and the stores before it are performed. -/
theorem barWrite_eq {q : ℕ} {v : Word} {rest : List CtxOp} (ho : (s.ctx c k).ops = ⟨q, .csrw (0x060 + n) v⟩ :: rest) (hn : n < 8) (hd : storesDone s c k q = true) :
    exec (.barWrite c k) s = .next (noteIdle ((popOp s c k).modBar c n (fun b => { b with target := BitVec.ofNat 16 (v.toNat / 2 ^ 32), count := 0 })) c n
      (BitVec.ofNat 16 (v.toNat / 2 ^ 32))) := by
  have hsel : (decide (0x060 ≤ 0x060 + n) && decide (0x060 + n < 0x068)) = true := by simp; omega
  show execBarWrite c k s = _
  rw [execBarWrite, csrwStep_ready _ ho hd hsel]
  simp only [Nat.add_sub_cancel_left]

theorem popOp_ctx (j : ℕ) : ((popOp s c k).ctx c j).barIdle = (s.ctx c j).barIdle ∧ ((popOp s c k).ctx c j).wait = (s.ctx c j).wait := by
  unfold popOp
  by_cases hj : j = k
  · subst hj; simp
  · rw [ctx_modCtx_ne _ _ _ _ _ _ (by simpa using hj)]
    exact ⟨rfl, rfl⟩

/-! ## The stop of a core with nothing in flight (24 R323, R324) -/

theorem fltAppend_cores (s : State) (bs : List Byte) : (fltAppend s bs).cores = s.cores := by
  unfold fltAppend
  dsimp only
  split_ifs
  · rfl
  · rfl
  · rfl
  · exact hbmWrite_cores s _ _ bs

theorem writeRecord_run (s : State) (c isw faddr num eng flags pc cycle : ℕ) : (writeRecord s c isw faddr num eng flags pc cycle).run c = s.run c := by
  have hf : ∀ (u : State) bs, (raiseVector (fltAppend u bs) 4098).run c = u.run c := fun u bs => by
    show ((sget {} (fltAppend u bs).cores c : Core)).arch.run = _
    rw [fltAppend_cores]
    rfl
  unfold writeRecord
  rw [hf]
  split
  · simp [State.run, State.arch, State.spadWrite, Core.spadWrite, Core.mark]
  · rfl

theorem finishing_quiet (h : Quiet s c) : finishing s c = false := by
  obtain ⟨hld, hst, hmq⟩ := h
  simp [finishing, accessedOpen, hld, hst, hmq]

/-- The end of an injection changes of its core the context that injected, and its debug control. -/
theorem endInjection_core (s : State) (c : ℕ) : ∃ ctxs dbg, (endInjection s c).core c = { s.core c with
    arch := { s.arch c with seqs := { s.seqs c with ctxs := ctxs } }, dbg := dbg } := by
  unfold endInjection
  dsimp only
  split_ifs
  · exact ⟨_, _, by simp only [core_modCore, State.modCtx, State.modSeqs, State.modArch]; rfl⟩
  · exact ⟨(s.seqs c).ctxs, (s.core c).dbg, rfl⟩

theorem takeStop_quiet {eng isw faddr num flags pc : ℕ} {r : Running} (hq : Quiet s c) (hs : (s.core c).stopping = none) (hr : s.run c = some r) :
    ((takeStop s c eng isw faddr num flags pc).core c).stop = some ⟨isw % 256, r.frame⟩ := by
  obtain ⟨ctxs, dbg, he⟩ := endInjection_core s c
  unfold takeStop takeStopAt
  simp only [hs]
  generalize hp : Stopping.mk eng isw faddr num _ pc s.now = p
  have hisw : p.isw = isw := by rw [← hp]
  generalize hu : (endInjection s c).modCore c _ = u
  have hc : u.core c = { s.core c with
      arch := { s.arch c with seqs := { s.seqs c with ctxs := ctxs } }, stopping := some p, dbg := { dbg with stepping := false } } := by
    rw [← hu, core_modCore, he]
  have hq' : Quiet u c := by
    simp only [Quiet, State.eng, State.cp, State.seqs, hc] at hq ⊢
    exact hq
  have hr' : u.run c = some r := by
    simp only [State.run, State.arch, hc] at hr ⊢
    exact hr
  have hw : ∀ i a n e f x y, ((writeRecord u c i a n e f x y).core c).arch.run = some r := fun _ _ _ _ _ _ _ => (writeRecord_run ..).trans hr'
  simp only [settleStop, show (u.core c).stopping = some p by rw [hc], finishing_quiet hq', Bool.false_eq_true, if_false, finishStop, core_modCore, hw, hisw]

end Sys2Proof.Machine

open Sys2Proof.Machine in
/-- Settles O50: relief enlarges what `smallestQueue_of_first` finds and leaves `relieved`; `queueDeadlock_eq`, `fqUnderflow_eq`, `freezeTimeout_ends` and `barrierIdle_stops` say when each watchdog stops its core, and `takeStop_quiet` that it is stopped then. -/
theorem queueWaitStops : Obligations.QueueWaitStops := by
  intro s c k n g pantry full can first waited stops
  refine ⟨fun l h q => mem_fullWaited h, ?relief, deadlockRelief_rests, queueDeadlock_underflow, ?nothingFull, ?nothingFullYet, ?deadlock, ?notYet, fun h d => underflow_iff, ?fq,
    fqUnderflow_rests, ?freeze, ?dropLate, freezeTimeout_none, fun f => freezeTimeout_rests, ?barrier, ?barrierRests, ?barWrite, fun r hq hs hr _ _ _ _ => takeStop_quiet hq hs hr⟩
  case relief =>
    intro q hq hw hp hu
    have h10 : q < 10 := fullWaited_lt (List.mem_of_mem_filter hq.1)
    obtain ⟨hpan, hsince, hframe, hcores, hmem⟩ := relieved_frame s c q
    have hself := relieved_spec (s := s) (c := c) h10 h10
    simp only [if_true] at hself
    refine ⟨_, deadlockRelief_enlarges hq hw hp hu, hself.1, hself.2, fun r hr hne => ?_, hpan, hsince, hframe, hcores, hmem⟩
    simpa only [if_neg hne] using relieved_spec (s := s) (c := c) h10 hr
  case nothingFull =>
    intro hu hfull hw
    refine ⟨_, ?_, rfl⟩
    rw [queueDeadlock_eq hu, show fullWaited s c = [] from hfull, smallestQueue_nil]
    simp only [waitedFor_iff.2 hw, if_true]
  case nothingFullYet =>
    intro hu hfull hw
    rw [queueDeadlock_eq hu, show fullWaited s c = [] from hfull, smallestQueue_nil]
    simp only [waitedFor_false hw, Bool.false_eq_true, if_false]
  case deadlock =>
    intro q hu hq hw
    have he := queueDeadlock_eq hu
    simp only [smallestQueue_of_first (fullWaited_sorted s c) hq, waitedFor_iff.2 hw, Bool.true_eq_false, if_false] at he
    refine ⟨fun hcan => ⟨_, he.trans (if_pos hcan), rfl⟩, fun hcan hp => ⟨_, ?_, rfl⟩, fun hcan hp => ?_⟩
    · exact he.trans ((if_neg hcan).trans (if_pos hp))
    · exact he.trans ((if_neg hcan).trans (if_neg hp))
  case notYet =>
    intro hfull hw
    cases hu : underflow s c with
    | some h => exact queueDeadlock_underflow (by simp [hu])
    | none =>
      rw [queueDeadlock_eq hu]
      cases hq : smallestQueue s c (fullWaited s c) with
      | none => exact absurd hq (smallestQueue_ne_none (fullWaited_sorted s c) hfull)
      | some q => exact if_pos (waitedFor_false hw)
  case fq =>
    intro h d hu hl u
    exact ⟨fun hh => ⟨_, fqUnderflow_eq hu hl, mqTrap_running hh⟩, fun hh => ⟨_, fqUnderflow_eq hu hl, mqTrap_halted hh⟩⟩
  case freeze =>
    intro f hf ht u
    have he (hs : f.cause ≠ .sram) := freezeTimeout_ends hf hs ht
    refine ⟨fun hc => ⟨_, he (by simp [hc]), ?_⟩, fun hc => ⟨_, he (by simp [hc]), ?_⟩⟩
    · rw [hc]; rfl
    · rw [hc]; rfl
  case dropLate => exact fun p x hx => by simp only [dropLate, hx]
  case barrier => exact fun hw hl hh hst hb ht => ⟨_, barrierIdle_stops hw ⟨hl, hh, hst, hb, ht⟩, rfl⟩
  case barrierRests =>
    intro h
    refine barrierIdle_rests (h.imp_right fun h => ?_)
    rintro ⟨hl, hh, hst, hb, ht⟩
    rcases h with h | h | h | h | h
    · simp [hl] at h
    · simp [hh] at h
    · exact h hst
    · simp [hb] at h
    · omega
  case barWrite =>
    intro q v rest ho hn hd
    refine ⟨_, barWrite_eq ho hn hd, fun j hj => ?_⟩
    have htarget : (BitVec.ofNat 16 (v.toNat / 2 ^ 32) == 0) = decide (v.toNat / 2 ^ 32 % 65536 = 0) := by
      rw [Bool.eq_iff_iff, beq_iff_eq, decide_eq_true_iff, ← BitVec.toNat_inj]; simp
    rw [noteIdle_barIdle hj, State.modBar, ctx_modSeqs rfl, (popOp_ctx j).1, (popOp_ctx j).2, htarget]
    rfl
end

section
/-! The scheduling words of the SC (12 R193, R194, 05 R85, 10 R150, R157): TRIG and its mark, WAITP, EXIT, and the words that act at once or join the operations of their context. -/

namespace Sys2Proof.Machine

variable {s t u v : State} {c d a : ℕ} {x : Word}

/-! ## TRIG, TRIGGER_MARK and WAITP (05 R85) -/

theorem producersTriggered_iff : producersTriggered s c = true ↔ ∀ r l p u, s.run c = some r → s.launch r.launch = some l → p ∈ l.held.producers →
    s.launch p = some u → ∀ x ∈ u.cohort, x.core ∈ u.triggered ∨ x.core ∈ u.completed := by
  unfold producersTriggered
  cases hr : s.run c with
  | none => simp
  | some r =>
    cases hl : s.launch r.launch with
    | none =>
      refine ⟨fun _ r' l p u h hl' => ?_, fun _ => by simp only [hl]⟩
      rw [← Option.some.inj h, hl] at hl'
      exact absurd hl' nofun
    | some l =>
      simp only [hl, List.all_eq_true, Option.some.injEq]
      constructor
      · rintro h r' l' p u rfl hl' hp hu x hx
        obtain rfl : l = l' := Option.some.inj (hl.symm.trans hl')
        have := h p hp
        simp only [hu] at this
        simpa using List.all_eq_true.1 this x hx
      · intro h p hp
        cases hu : s.launch p with
        | none => rfl
        | some u => exact List.all_eq_true.2 fun x hx => by simpa using h r l p u rfl hl hp hu x hx

/-- TRIG leaves its mark to be made behind the stores of every context so far, unless its core has been marked. -/
theorem exec_trig : exec .trig s = .next (State.pass { s.modRun s.c (fun r => { r with trigPending := if r.trigSent then r.trigPending else r.trigPending ++ [(s.k, s.seq)] })
    with seq := s.seq + 1 }) := by
  have hf : (fun r : Running => if r.trigSent then r else { r with trigPending := r.trigPending ++ [(s.k, s.seq)] })
      = fun r => { r with trigPending := if r.trigSent then r.trigPending else r.trigPending ++ [(s.k, s.seq)] } := by
    funext r
    split_ifs <;> rfl
  show execTrig s = _
  rw [execTrig, hf]
  rfl

theorem storesDone_all {q : ℕ} : [0, 1, 2, 3].all (fun k => storesDone s c k q) = true ↔ ∀ j, j < 4 → storesDone s c j q = true := by
  rw [List.all_eq_true]
  exact ⟨fun h j hj => h j (by simp; omega), fun h j hj => h j (by simp at hj; omega)⟩

theorem triggerMark_eq {r : Running} {k q : ℕ} {rest : List (ℕ × ℕ)} (hr : s.run c = some r) (ht : r.trigPending = (k, q) :: rest) :
    exec (.triggerMark c) s = if [0, 1, 2, 3].all (fun k => storesDone s c k q) then
      .next ((s.modRun c (fun r => { r with trigPending := [], trigSent := true })).modLaunch r.launch (fun l => { l with triggered := insertNat l.triggered c }))
    else .next s := by
  show execTriggerMark c s = _
  simp only [execTriggerMark, hr, ht]

/-! ## Words that act at once where nothing of their context comes before them (12 R193, 10 R150) -/

/-- Nothing of the acting context comes before its word. -/
def NothingBefore (s : State) : Prop := s.me.ops = [] ∧ storesDone s s.c s.k s.seq = true

theorem actsAtOnce_iff : actsAtOnce s s.c s.k = true ↔ NothingBefore s := by
  have hme : s.ctx s.c s.k = s.me := rfl
  simp [actsAtOnce, NothingBefore, hme]

theorem orderedOp_queues {kind : CtxOpKind} {now : State → State × Word} (h : ¬ NothingBefore s) : orderedOp kind d now s = .next (s.queueOp kind (some d)) :=
  if_neg (mt actsAtOnce_iff.1 h)

theorem orderedOp_acts {kind : CtxOpKind} {now : State → State × Word} {w : Word} (h : NothingBefore s) (hn : now s = (t, w)) :
    orderedOp kind d now s = .next (t.put d w) := by
  simp only [orderedOp, if_pos (actsAtOnce_iff.2 h), hn]

theorem exec_launch (s : State) (d a : ℕ) : exec (.launch d a) s = orderedOp (.launch d (s.x a)) d (fun t => launchNow t t.c (s.x a)) s := rfl
theorem exec_route (s : State) (d a : ℕ) : exec (.route d a) s = orderedOp (.route d (s.x a)) d (fun t => routeNow t t.c (s.x a)) s := rfl

theorem launch_acts {w : Word} (h : NothingBefore s) (hn : launchNow s s.c (s.x a) = (t, w)) : Ends (.launch d a) s (GivesX t d w) :=
  ⟨_, (exec_launch s d a).trans (orderedOp_acts h hn), put_gives t d w⟩

theorem route_acts {w : Word} (h : NothingBefore s) (hn : routeNow s s.c (s.x a) = (t, w)) : Ends (.route d a) s (GivesX t d w) :=
  ⟨_, (exec_route s d a).trans (orderedOp_acts h hn), put_gives t d w⟩

/-! ## LAUNCH (05 R87) -/

theorem launchNow_misaligned (h : x.toNat % 64 ≠ 0) : launchNow s c x = (s, BitVec.ofNat 64 (2 + 256 * 4)) := if_pos h

theorem launchNow_unreadable {f : FaultInfo} (h : x.toNat % 64 = 0) (hb : readBytes s (dieOf c) (s.tctx c) x.toNat 64 = (u, .error f)) :
    launchNow s c x = (u, BitVec.ofNat 64 (2 + 256 * 8)) := by
  simp [launchNow, h, hb]

section
variable {b : List Byte} (h : x.toNat % 64 = 0) (hb : readBytes s (dieOf c) (s.tctx c) x.toNat 64 = (u, .ok b))
include h hb

theorem launchNow_rejected {n : ℕ} (hc : checkRecord u (dieOf c) (u.tctx c) (parseRecord b) 1 false = (v, .error n)) :
    launchNow s c x = (v, BitVec.ofNat 64 (2 + 256 * n)) := by
  simp only [launchNow, h, hb, hc, ne_eq, not_true, if_false]

theorem launchNow_full {hd : Header} (hc : checkRecord u (dieOf c) (u.tctx c) (parseRecord b) 1 false = (v, .ok hd)) (hp : 1024 ≤ (v.die (dieOf c)).pool.length) :
    launchNow s c x = (v, 1) := by
  simp only [launchNow, h, hb, hc, ne_eq, not_true, if_false]
  exact if_pos hp

theorem launchNow_accepted {hd : Header} (hc : checkRecord u (dieOf c) (u.tctx c) (parseRecord b) 1 false = (v, .ok hd)) (hp : (v.die (dieOf c)).pool.length < 1024) :
    let p := bindRecord v (parseRecord b) hd x (v.tctx c) (v.arch c).csrs.inlim.toNat 0 none 0
    launchNow s c x = (poolAdd p.1 (dieOf c) p.2, 0) := by
  simp only [launchNow, h, hb, hc, ne_eq, not_true, if_false]
  exact if_neg (Nat.not_le.2 hp)

end

theorem noteEligible_eq (s : State) (h : HeldRec) : noteEligible s h = { h with eligible := (noteEligible s h).eligible } := by
  unfold noteEligible
  split_ifs <;> rfl

/-- Noting the heads of a pool changes of its records no more than from when they are eligible. -/
theorem poolHeads_map {β : Type} {g : HeldRec → β} (hg : ∀ (h : HeldRec) e, g { h with eligible := e } = g h) (s : State) (seen : List ℕ) (l : List HeldRec) :
    (poolHeads s seen l).map g = l.map g := by
  induction l generalizing seen with
  | nil => rfl
  | cons h l ih =>
    unfold poolHeads
    split_ifs
    · rw [List.map_cons, ih, hg, List.map_cons]
    · rw [List.map_cons, ih, noteEligible_eq, hg, List.map_cons]

/-- A record that joins a pool stands at its end. -/
theorem poolAdd_spec (s : State) (d : ℕ) (h : HeldRec) :
    ((poolAdd s d h).die d).pool.length = (s.die d).pool.length + 1 ∧ SameMemory s (poolAdd s d h)
    ∧ ((poolAdd s d h).die d).pool.getLast?.map (fun p => (p.body, p.addr)) = some (h.body, h.addr) := by
  refine ⟨?_, sameMemory_congr rfl rfl rfl rfl, ?_⟩
  · rw [poolAdd, die_modDie]
    dsimp only
    rw [← List.length_map (fun _ => ()), poolHeads_map (fun _ _ => rfl), List.length_map, List.length_append, List.length_singleton]
  · rw [poolAdd, die_modDie]
    dsimp only
    rw [← List.getLast?_map, poolHeads_map (fun _ _ => rfl)]
    simp

/-! ## ROUTE and LAYERB (10 R150, R157) -/

theorem routeNow_invalid (h : 64 ≤ x.toNat ∨ rtOk (sget 0 (s.die (dieOf c)).rtab (x.toNat % 64)) = false) : routeNow s c x = (s, -2) := if_pos h

theorem routeNow_valid (hx : x.toNat < 64) (hok : rtOk (sget 0 (s.die (dieOf c)).rtab (x.toNat % 64)) = true) :
    routeNow s c x = if 16 ≤ (s.die (dieOf c)).rqueue.length then (s, -1)
      else (s.modDie (dieOf c) (fun y => { y with rqueue := y.rqueue ++ [⟨y.ticket, sget 0 (s.die (dieOf c)).rtab (x.toNat % 64), s.tctx c⟩], ticket := y.ticket + 1 }),
        BitVec.ofNat 64 (s.die (dieOf c)).ticket.toNat) := by
  have hv : ¬ (64 ≤ x.toNat ∨ rtOk (sget 0 (s.die (dieOf c)).rtab (x.toNat % 64)) = false) := by
    rw [hok]
    exact fun h => h.elim (Nat.not_le.2 hx) nofun
  simp only [routeNow, if_neg hv, BitVec.ofNat_toNat]

/-- The fields of a routing record in their ranges and units (10 R148). -/
theorem rtOk_iff {e : BitVec 512} : rtOk e = true ↔ 1 ≤ rtRows e ∧ rtRows e ≤ 65536 ∧ 1 ≤ rtNexp e ∧ rtNexp e ≤ 1024 ∧ 1 ≤ rtK e ∧ rtK e ≤ 8 ∧ rtStype e ≤ 2
    ∧ rtScores e % rtSize e = 0 ∧ rtOidx e % 16 = 0 ∧ rtOwt e % 32 = 0 ∧ rtOhist e % 4 = 0 := by
  simp only [rtOk, Bool.and_eq_true, decide_eq_true_eq, beq_iff_eq, and_assoc]

theorem exec_layerb (s : State) (d : ℕ) : exec (.layerb d) s = .next ((layerbNow s (dieOf s.c)).1.put d (layerbNow s (dieOf s.c)).2) := rfl

theorem die_put (s : State) (d : ℕ) (w : Word) (j : ℕ) : (s.put d w).die j = s.die j := by rw [put_eq]; rfl

end Sys2Proof.Machine

open Sys2Proof.Machine in
/-- Settles O18: a word that comes after nothing of its context does what `launchNow` or `routeNow` says and writes xd (`launch_acts`, `route_acts`), and else is queued. -/
theorem schedulingWords : Obligations.SchedulingWords := by
  intro s d a x die e free field score at_ launches
  have hn4 : ¬ free → Ends (.launch d a) s (Queues s (.launch d x) (some d)) ∧ Ends (.route d a) s (Queues s (.route d x) (some d)) := fun h =>
    ⟨⟨_, (exec_launch s d a).trans (orderedOp_queues h), queueOp_queues s _ _⟩, ⟨_, (exec_route s d a).trans (orderedOp_queues h), queueOp_queues s _ _⟩⟩
  refine ⟨rtOk_iff, producersTriggered_iff, ?trig, ?mark, fun h => ends_pass (if_pos h), fun h => ends_block (if_neg (by simp [h])), ?exit,
    fun h => if_neg h, hn4, fun hf hx => launch_acts hf (launchNow_misaligned hx), ?launch, fun hf h => route_acts hf (routeNow_invalid h), ?routeFull, ?routeTaken, ?layerb0, ?layerb1⟩
  case trig =>
    intro r hr
    refine ⟨_, exec_trig, rfl, ?_⟩
    have hme : ∀ f n, State.me { s.modRun s.c f with seq := n } = s.me := fun f n => ctx_modRun s s.c s.c s.k f
    rw [← hme]
    exact pass_to _
  case mark =>
    intro c r k q rest hr ht
    refine ⟨?_, fun h => ⟨_, (triggerMark_eq hr ht).trans (if_pos (storesDone_all.2 h)), rfl⟩⟩
    rintro ⟨j, hj, hd⟩
    exact (triggerMark_eq hr ht).trans (if_neg fun h => by simp [storesDone_all.1 h j hj] at hd)
  case exit =>
    intro h
    refine ⟨_, if_pos h, ?_, onlyCtx_modMe _ _, sameMemory_modMe _ _⟩
    rw [me_modMe]
  case launch =>
    intro hf hx u
    refine ⟨fun f hb => launch_acts hf (launchNow_unreadable hx hb), fun b hb v => ⟨fun n hc => launch_acts hf (launchNow_rejected hx hb hc), fun h hc => ⟨?_, ?_⟩⟩⟩
    · exact fun hp => launch_acts hf (launchNow_full hx hb hc hp)
    · intro hp
      obtain ⟨hlen, hmem, hlast⟩ := poolAdd_spec (bindRecord v (parseRecord b) h x (v.tctx s.c) (v.arch s.c).csrs.inlim.toNat 0 none 0).1 at_
        (bindRecord v (parseRecord b) h x (v.tctx s.c) (v.arch s.c).csrs.inlim.toNat 0 none 0).2
      exact ⟨_, launch_acts hf (launchNow_accepted hx hb hc hp), hlen, sameMemory_trans (sameMemory_congr rfl rfl rfl rfl) hmem, hlast⟩
  case routeFull => exact fun hf hx hok hq => route_acts hf ((routeNow_valid hx hok).trans (if_pos hq))
  case routeTaken => exact fun hf hx hok hq => route_acts hf ((routeNow_valid hx hok).trans (if_neg (Nat.not_le.2 hq)))
  case layerb0 =>
    intro h
    have hl : layerbNow s (dieOf s.c) = (s, 1) := if_neg (by simpa using h)
    refine ⟨_, exec_layerb s d, ?_⟩
    rw [hl]
    exact put_gives s d 1
  case layerb1 =>
    intro h
    have hl : layerbNow s (dieOf s.c) = (_, 0) := if_pos h
    refine ⟨_, exec_layerb s d, ?_⟩
    rw [hl]
    simp only [die_put, die_modDie]
    exact ⟨rfl, trivial, put_gives _ d 0⟩
end

section
/-! Work queues (05 R79-R86): the queue registers, the record at the head and its checks, tags and producers, the choice among eligible records, and nodes. -/

namespace Sys2Proof.Machine

variable {s t u z : State} {q n code : ℕ}

/-! ## Changes of the hub -/

@[simp] theorem modWq_modWq (s : State) (q : ℕ) (f g : WorkQueue → WorkQueue) : (s.modWq q f).modWq q g = s.modWq q (fun w => g (f w)) := by
  simp [State.modWq, State.modHub, State.wq]

theorem modWq_congr {f g : WorkQueue → WorkQueue} (h : f (s.wq q) = g (s.wq q)) : s.modWq q f = s.modWq q g := by simp only [State.modWq, h]

theorem onlyHub_modHub (s : State) (f : Hub → Hub) : OnlyHub s (s.modHub f) := rfl
theorem onlyHub_modWq (s : State) (q : ℕ) (f : WorkQueue → WorkQueue) : OnlyHub s (s.modWq q f) := rfl

theorem onlyHub_trans (h : OnlyHub s t) (g : OnlyHub t u) : OnlyHub s u := by
  unfold OnlyHub at *
  rw [g, h]
  rfl

theorem raiseVector_queues (s : State) (n : ℕ) : (raiseVector s n).hub.queues = s.hub.queues ∧ (raiseVector s n).hub.holders = s.hub.holders := by
  simp only [raiseVector, hub_modHub]
  split_ifs <;> exact ⟨rfl, rfl⟩

theorem wq_raiseVector (s : State) (n q : ℕ) : (raiseVector s n).wq q = s.wq q := by
  simp only [State.wq, (raiseVector_queues s n).1]

/-- A queue that halts gets its code and the index of the bad record; of the module only the hub changes, and no tag changes its holder. -/
theorem haltQueue_spec (s : State) (q code : ℕ) (idx : BitVec 32) :
    (haltQueue s q code idx).wq q = { s.wq q with err := BitVec.ofNat 8 code, badidx := idx } ∧ OnlyHub s (haltQueue s q code idx)
    ∧ (haltQueue s q code idx).hub.holders = s.hub.holders := by
  refine ⟨by rw [haltQueue, wq_raiseVector, wq_modWq], rfl, ?_⟩
  rw [haltQueue, (raiseVector_queues _ _).2]
  rfl

theorem releaseTag_spec (s : State) (id : ℕ) : OnlyHub s (releaseTag s id) ∧ (releaseTag s id).hub.queues = s.hub.queues ∧ ∀ p ∈ (releaseTag s id).hub.holders, p.2 ≠ id :=
  ⟨rfl, rfl, fun p hp => by simpa using (List.mem_filter.1 hp).2⟩

theorem wq_releaseTag (s : State) (id q : ℕ) : (releaseTag s id).wq q = s.wq q := rfl

/-! ## The registers of a queue (05 R79-R81) -/

theorem overfill_fits (h : (s.wq q).err ≠ 0 ∨ (s.wq q).count ≤ (s.wq q).slots) : overfill s q = s :=
  if_neg fun ⟨hc, he⟩ => h.elim (fun h => h he) (Nat.not_le.2 hc)

theorem overfill_halts (he : (s.wq q).err = 0) (hc : (s.wq q).slots < (s.wq q).count) :
    overfill s q = haltQueue s q 7 ((s.wq q).head + BitVec.ofNat 32 (s.wq q).slots) := if_pos ⟨hc, he⟩

theorem settle_disabled {w : WorkQueue} (h : w.en = false) : w.settle = w := by simp [WorkQueue.settle, h]

/-- A queue with a new tail. -/
def withTail (s : State) (q : ℕ) (x : BitVec 32) : WorkQueue := { s.wq q with tail := x }

theorem wqtailWrite_halted {x : BitVec 32} (h : (s.wq q).err ≠ 0) : exec (.wqtailWrite q x) s = .next (s.modWq q (fun _ => withTail s q x)) := by
  show execWqtailWrite q x s = _
  rw [execWqtailWrite, overfill_fits (.inl (by simpa using h)), modWq_modWq]
  exact congrArg _ (modWq_congr (if_neg h))

theorem wqtailWrite_fits {x : BitVec 32} (he : (s.wq q).err = 0) (hc : (withTail s q x).count ≤ (withTail s q x).slots) :
    exec (.wqtailWrite q x) s = .next (s.modWq q (fun _ => (withTail s q x).settle)) := by
  show execWqtailWrite q x s = _
  rw [execWqtailWrite, overfill_fits (.inr (by simpa [withTail] using hc)), modWq_modWq]
  exact congrArg _ (modWq_congr (if_pos he))

theorem wqtailWrite_overfull {x : BitVec 32} (he : (s.wq q).err = 0) (hc : (withTail s q x).slots < (withTail s q x).count) :
    Ends (.wqtailWrite q x) s (fun t => t.wq q = { withTail s q x with err := 7, badidx := (s.wq q).head + BitVec.ofNat 32 (withTail s q x).slots } ∧ OnlyHub s t) := by
  have h1 : overfill (s.modWq q (fun w => { w with tail := x })) q = _ := overfill_halts (by simpa using he) (by simpa [withTail] using hc)
  obtain ⟨hw, ho, -⟩ := haltQueue_spec (s.modWq q (fun w => { w with tail := x })) q 7
    (((s.modWq q (fun w => { w with tail := x })).wq q).head + BitVec.ofNat 32 ((s.modWq q (fun w => { w with tail := x })).wq q).slots)
  refine ⟨_, congrArg (fun y : State => Host.Outcome.next (y.modWq q (fun w => if w.err = 0 then w.settle else w))) h1, ?_, ?_⟩
  · rw [wq_modWq, hw, wq_modWq]
    rfl
  · exact onlyHub_trans (onlyHub_trans (onlyHub_modWq s q _) ho) (onlyHub_modWq _ q _)

theorem clampNat_eq (x : ℕ) : clampNat x 4 15 = max 4 (min x 15) := by
  unfold clampNat
  split_ifs <;> omega

theorem wqEnable_rests {v : BitVec 64} (h : (s.wq q).en = true ∨ v.getLsbD 0 = false) : exec (.wqEnable q v) s = .next s :=
  if_pos (by rcases h with h | h <;> simp only [h, Bool.true_or, Bool.not_false, Bool.or_true])

theorem wqEnable_eq {v : BitVec 64} (he : (s.wq q).en = false) (hv : v.getLsbD 0 = true) : exec (.wqEnable q v) s = .next (s.modWq q (fun w => { (w.fields v) with
    en := true, head := w.tail, held := none, placing := false, skips := [], loops := [] })) := if_neg (by simp only [he, hv]; decide)

theorem wqDisable_rests {v : BitVec 64} (h : (s.wq q).en = false ∨ v.getLsbD 0 = true) : exec (.wqDisable q v) s = .next s :=
  if_pos (by rcases h with h | h <;> simp only [h, Bool.true_or, Bool.not_false, Bool.or_true])

/-- The state in which a disabled queue has dropped the tag of the record at its head, unless that is being placed (05 R79). -/
def dropHeld (s : State) (q : ℕ) : State :=
  match (s.wq q).held with
  | some h => if (s.wq q).placing then s else releaseTag s h.id
  | none => s

theorem dropHeld_spec (s : State) (q : ℕ) : OnlyHub s (dropHeld s q) ∧ (dropHeld s q).wq q = s.wq q
    ∧ ∀ h, (s.wq q).held = some h → (s.wq q).placing = false → ∀ p ∈ (dropHeld s q).hub.holders, p.2 ≠ h.id := by
  unfold dropHeld
  split
  next h hh =>
    split_ifs with hp
    · exact ⟨rfl, rfl, fun _ _ hp' => by simp [hp] at hp'⟩
    · refine ⟨rfl, rfl, fun h' hh' _ => ?_⟩
      rw [← Option.some.inj (hh.symm.trans hh')]
      exact (releaseTag_spec s h.id).2.2
  next hh => exact ⟨rfl, rfl, fun h' hh' => by simp [hh] at hh'⟩

theorem wqDisable_eq {v : BitVec 64} (he : (s.wq q).en = true) (hv : v.getLsbD 0 = false) : exec (.wqDisable q v) s = .next ((dropHeld s q).modWq q (fun w => { (w.fields v) with
    en := false, held := if (s.wq q).placing then w.held else none })) := by
  have h1 : exec (.wqDisable q v) s = .next ((dropHeld s q).modWq q (fun w => { (w.fields v) with en := false, held := if w.placing then w.held else none })) :=
    if_neg (by simp only [he, hv]; decide)
  rw [h1, State.modWq, State.modWq, (dropHeld_spec s q).2.1]

theorem wqHaltClear_rests (h : (s.wq q).err = 0) : exec (.wqHaltClear q) s = .next s := if_pos h

theorem wqHaltClear_eq (h : (s.wq q).err ≠ 0) : exec (.wqHaltClear q) s = .next (overfill (s.modWq q (fun w => { w with err := 0 })) q) := if_neg h

theorem wqHaltClear_overfull (h : (s.wq q).err ≠ 0) (hc : (s.wq q).slots < (s.wq q).count) :
    Ends (.wqHaltClear q) s (fun t => t.wq q = { s.wq q with err := 7, badidx := (s.wq q).head + BitVec.ofNat 32 (s.wq q).slots } ∧ OnlyHub s t) := by
  obtain ⟨hw, ho, -⟩ := haltQueue_spec (s.modWq q (fun w => { w with err := 0 })) q 7
    (((s.modWq q (fun w => { w with err := 0 })).wq q).head + BitVec.ofNat 32 ((s.modWq q (fun w => { w with err := 0 })).wq q).slots)
  refine ⟨_, (wqHaltClear_eq h).trans (congrArg _ (overfill_halts (by rw [wq_modWq]) (by rw [wq_modWq]; exact hc))), ?_, onlyHub_trans (onlyHub_modWq s q _) ho⟩
  rw [hw, wq_modWq]
  rfl

/-! ## The checks of a record (05 R81, log 79) -/

theorem loopOk_iff {l : List (BitVec 32)} : loopOk l = true ↔
    (∀ x ∈ l, x.toNat / 2 ^ 30 ≠ 3 ∧ x.toNat % 2 ^ 30 ≠ 0) ∧ kindProduct l 1 ≤ 64 ∧ kindProduct l 2 ≤ 8 ∧ kindProduct l 0 ≤ 2 ^ 32 := by
  simp only [loopOk, Bool.and_eq_true, List.all_eq_true, bne_iff_ne, decide_eq_true_eq, and_assoc]
  rfl

/-- The last checks of a kernel's record: of what the read of its header has answered, and of its tag. -/
def headerChecked (p : State × Except FaultInfo Header) (refused : Bool) : State × Except ℕ Header :=
  match p with
  | (s, .error _) => (s, .error 8)
  | (s, .ok h) => match headerFault h with
    | some n => (s, .error n)
    | none => if refused then (s, .error 6) else (s, .ok h)

section
variable {d tctx nodes : ℕ} {r : Record} {step : Bool}

theorem prioBad_iff {p : ℕ} : (11 < p % 16 ∨ p / 16 ≠ 0) ↔ 11 < p := by omega

theorem checkRecord_prio (h : 11 < r.prio) : checkRecord s d tctx r nodes step = (s, .error 1) := if_pos (prioBad_iff.2 h)

variable (hp : r.prio ≤ 11)
include hp

theorem checkRecord_node (hn : nodes ≤ r.node) : checkRecord s d tctx r nodes step = (s, .error 2) := by
  simp only [checkRecord, prioBad_iff, if_neg (Nat.not_lt.2 hp), if_pos hn]

variable (hn : r.node < nodes)
include hn

theorem checkRecord_loop (hl : loopOk r.loop = false) : checkRecord s d tctx r nodes step = (s, .error 3) := by
  simp only [checkRecord, prioBad_iff, if_neg (Nat.not_lt.2 hp), if_neg (Nat.not_le.2 hn), if_pos hl]

variable (hl : loopOk r.loop = true)
include hl

theorem checkRecord_isNode (h : r.node ≠ 0) : checkRecord s d tctx r nodes step = if tagReserved r.tag then (s, .error 6) else (s, .ok noHeader) := by
  simp only [checkRecord, prioBad_iff, if_neg (Nat.not_lt.2 hp), if_neg (Nat.not_le.2 hn), hl, Bool.true_eq_false, if_false, if_pos h]

variable (h0 : r.node = 0)
include h0

theorem checkRecord_image (h : r.image.toNat % 64 ≠ 0 ∨ r.image.toNat < 2 ^ 31) : checkRecord s d tctx r nodes step = (s, .error 4) := by
  simp only [checkRecord, prioBad_iff, if_neg (Nat.not_lt.2 hp), if_neg (Nat.not_le.2 hn), hl, Bool.true_eq_false, if_false, if_neg (not_not.2 h0), if_pos h]

variable (h64 : r.image.toNat % 64 = 0) (h31 : 2 ^ 31 ≤ r.image.toNat)
include h64 h31

theorem checkRecord_header : checkRecord s d tctx r nodes step = headerChecked (readHeader s d tctx r.image) (!step && tagReserved r.tag) := by
  have hi : ¬ (r.image.toNat % 64 ≠ 0 ∨ r.image.toNat < 2 ^ 31) := by omega
  simp only [checkRecord, prioBad_iff, if_neg (Nat.not_lt.2 hp), if_neg (Nat.not_le.2 hn), hl, Bool.true_eq_false, if_false, if_neg (not_not.2 h0), if_neg hi]
  rfl

theorem checkRecord_unreadable {f : FaultInfo} (hr : readHeader s d tctx r.image = (z, .error f)) : checkRecord s d tctx r nodes step = (z, .error 8) := by
  rw [checkRecord_header hp hn hl h0 h64 h31, hr]
  rfl

theorem checkRecord_badHeader {h : Header} (hr : readHeader s d tctx r.image = (z, .ok h)) (hf : headerFault h = some n) :
    checkRecord s d tctx r nodes step = (z, .error n) := by
  simp only [checkRecord_header hp hn hl h0 h64 h31, hr, headerChecked, hf]

theorem checkRecord_goodHeader {h : Header} (hr : readHeader s d tctx r.image = (z, .ok h)) (hf : headerFault h = none) :
    checkRecord s d tctx r nodes step = if !step && tagReserved r.tag then (z, .error 6) else (z, .ok h) := by
  simp only [checkRecord_header hp hn hl h0 h64 h31, hr, headerChecked, hf]

end

/-- The form of an image's header (02 R33). -/
def HeaderForm (h : Header) : Prop := h.magic = 0x344D4B5A ∧ h.version = 1
/-- The limits of a header's sizes (05 R81). -/
def HeaderSize (h : Header) : Prop :=
  h.allot % 32 = 0 ∧ 32 ≤ h.allot ∧ h.allot ≤ 256 ∧ h.spneed ≤ 4063232 ∧ (h.overlay 4).2 + (h.overlay 5).2 = h.spneed ∧ h.wheel ∈ [0, 1, 2, 4, 8, 16, 32, 64]

theorem headerFault_form {h : Header} (hf : ¬ HeaderForm h) : headerFault h = some 4 := if_pos (by unfold HeaderForm at hf; tauto)

theorem headerSize_iff {h : Header} : (h.allot % 32 ≠ 0 ∨ h.allot < 32 ∨ 256 < h.allot ∨ grantable < h.spneed ∨ (h.overlay 4).2 + (h.overlay 5).2 ≠ h.spneed
    ∨ wheelOk h.wheel = false) ↔ ¬ HeaderSize h := by
  have hg : grantable = 4063232 := rfl
  have hw : wheelOk h.wheel = false ↔ h.wheel ∉ [0, 1, 2, 4, 8, 16, 32, 64] := by
    rw [← List.contains_iff_mem, Bool.not_eq_true]
    rfl
  rw [hw, hg]
  simp only [HeaderSize, not_and_or, ne_eq, Nat.not_le]

theorem headerFault_size {h : Header} (hf : HeaderForm h) (hs : ¬ HeaderSize h) : headerFault h = some 5 := by
  obtain ⟨h1, h2⟩ := hf
  simp only [headerFault, h1, h2, ne_eq, not_true, or_self, if_false]
  exact if_pos (headerSize_iff.2 hs)

theorem headerFault_none {h : Header} (hf : HeaderForm h) (hs : HeaderSize h) : headerFault h = none := by
  obtain ⟨h1, h2⟩ := hf
  simp only [headerFault, h1, h2, ne_eq, not_true, or_self, if_false]
  exact if_neg (mt headerSize_iff.1 (not_not.2 hs))

/-! ## The record at the head of a queue (05 R81) -/

/-- The address of the record at the head. -/
theorem addrOf_head (w : WorkQueue) : w.addrOf w.head = w.base.toNat * 4096 + 64 * (w.head.toNat % 2 ^ w.log2.toNat) := rfl

section
variable (hb : s.hub.bootst = 1) (hr : (s.wq q).readable = true) (hl : returnLoop s (s.wq q) = s.wq q) (hs : (s.wq q).settle = s.wq q)
include hb hr hl hs

theorem queueRecordRead_eq : exec (.queueRecordRead q) s =
    match readNow (s.modWq q (fun _ => s.wq q)) hubEnd (s.wq q).ctx.toNat ((s.wq q).addrOf (s.wq q).head) 64 with
    | (t, .error _) => .next (haltQueue t q 8 (s.wq q).head)
    | (t, .ok b) => match checkRecord t hubEnd (s.wq q).ctx.toNat (parseRecord b) 4 false with
      | (z, .error n) => .next (haltQueue z q n (s.wq q).head)
      | (z, .ok h) =>
        let p := bindRecord z (parseRecord b) h (BitVec.ofNat 64 ((s.wq q).addrOf (s.wq q).head)) (s.wq q).ctx.toNat (s.wq q).inlimit.toNat 0 none (s.wq q).head
        .next (p.1.modWq q (fun w => { w with held := some (noteEligible p.1 p.2) })) := by
  have hm : s.modWq q (fun w => if w.en && w.err == 0 && w.held.isNone then (returnLoop s w).settle else w) = s.modWq q (fun _ => s.wq q) := by
    refine modWq_congr ?_
    rw [hl, hs, ite_self]
  show execQueueRecordRead q s = _
  unfold execQueueRecordRead
  rw [if_neg (not_not.2 hb)]
  dsimp only
  rw [hm, wq_modWq, hr]
  rfl

theorem queueRecordRead_unreadable {f : FaultInfo} (he : readNow (s.modWq q (fun _ => s.wq q)) hubEnd (s.wq q).ctx.toNat ((s.wq q).addrOf (s.wq q).head) 64 = (t, .error f)) :
    exec (.queueRecordRead q) s = .next (haltQueue t q 8 (s.wq q).head) := by
  rw [queueRecordRead_eq hb hr hl hs, he]

variable {b : List Byte} (he : readNow (s.modWq q (fun _ => s.wq q)) hubEnd (s.wq q).ctx.toNat ((s.wq q).addrOf (s.wq q).head) 64 = (t, .ok b))
include he

theorem queueRecordRead_bad (hc : checkRecord t hubEnd (s.wq q).ctx.toNat (parseRecord b) 4 false = (z, .error n)) :
    exec (.queueRecordRead q) s = .next (haltQueue z q n (s.wq q).head) := by
  simp only [queueRecordRead_eq hb hr hl hs, he, hc]

theorem queueRecordRead_binds {h : Header} {y : State} {held : HeldRec} (hc : checkRecord t hubEnd (s.wq q).ctx.toNat (parseRecord b) 4 false = (z, .ok h))
    (hy : bindRecord z (parseRecord b) h (BitVec.ofNat 64 ((s.wq q).addrOf (s.wq q).head)) (s.wq q).ctx.toNat (s.wq q).inlimit.toNat 0 none (s.wq q).head = (y, held)) :
    exec (.queueRecordRead q) s = .next (y.modWq q (fun w => { w with held := some (noteEligible y held) })) := by
  simp only [queueRecordRead_eq hb hr hl hs, he, hc, hy]

end

/-! ## Tags and producers (05 R83) -/

theorem holderOf_eq {tag : BitVec 32} (h : tag ≠ 0xFFFFFFFF) : holderOf s tag = (s.hub.holders.find? (fun p => p.1 == tag.toNat)).map (fun p => p.2) := if_neg h

section
variable {r : Record} {hd : Header} {addr : Word} {tctx lim : ℕ} {rows : BitVec 1024} {step : Option ℕ} {i : BitVec 32} {y : State} {held : HeldRec}
  (hy : bindRecord s r hd addr tctx lim rows step i = (y, held))
include hy

theorem bindRecord_held : held = ⟨s.hub.nextId, r, hd, ([r.prod0, r.prod1].filterMap (holderOf s)).filter (fun p => !isComplete s p), none, addr, tctx, lim, rows, step, i⟩ :=
  (congrArg Prod.snd hy).symm

theorem bindRecord_state : y = s.modHub (fun h => { h with
    nextId := s.hub.nextId + 1, holders := if r.tag = 0xFFFFFFFF then h.holders else (r.tag.toNat, s.hub.nextId) :: h.holders.filter (fun p => p.1 != r.tag.toNat) }) :=
  (congrArg Prod.fst hy).symm

theorem bindRecord_producers (p : ℕ) : p ∈ held.producers ↔ isComplete s p = false ∧ (holderOf s r.prod0 = some p ∨ holderOf s r.prod1 = some p) := by
  rw [bindRecord_held hy]
  simp [and_comm]

theorem bindRecord_holds (h : r.tag ≠ 0xFFFFFFFF) : holderOf y r.tag = some held.id := by
  rw [bindRecord_state hy, bindRecord_held hy, holderOf_eq h, hub_modHub]
  simp only [if_neg h, List.find?_cons, beq_self_eq_true, Option.map_some]

theorem bindRecord_otherTags (tag : BitVec 32) (h : tag ≠ r.tag) : holderOf y tag = holderOf s tag := by
  have hne : r.tag.toNat ≠ tag.toNat := fun e => h (BitVec.eq_of_toNat_eq e.symm)
  by_cases ht : tag = 0xFFFFFFFF
  · simp [holderOf, ht]
  · rw [holderOf_eq ht, holderOf_eq ht, bindRecord_state hy, hub_modHub]
    by_cases hr : r.tag = 0xFFFFFFFF
    · simp only [if_pos hr]
    · simp only [if_neg hr, List.find?_cons, beq_eq_false_iff_ne.2 hne, List.find?_filter]
      congr 2
      funext p
      by_cases hp : p.1 = tag.toNat
      · simp [hp, hne.symm]
      · simp [hp]

end

/-! ## The choice among eligible records (05 R82, R84) -/

/-- A fold that keeps what it has or takes the next ends with what it began with or with a member. -/
theorem foldl_pick {α : Type} {f : Option α → α → Option α} (hf : ∀ b x, f b x = b ∨ f b x = some x) (l : List α) (b : Option α) :
    l.foldl f b = b ∨ ∃ x ∈ l, l.foldl f b = some x := by
  induction l generalizing b with
  | nil => exact .inl rfl
  | cons a l ih =>
    rw [List.foldl_cons]
    rcases ih (f b a) with h | ⟨x, hx, h⟩
    · rcases hf b a with ha | ha
      · exact .inl (h.trans ha)
      · exact .inr ⟨a, by simp, h.trans ha⟩
    · exact .inr ⟨x, by simp [hx], h⟩

theorem le_foldl_max {α : Type} (g : α → ℕ) (l : List α) (m : ℕ) : m ≤ l.foldl (fun m x => max m (g x)) m ∧ ∀ y ∈ l, g y ≤ l.foldl (fun m x => max m (g x)) m := by
  induction l generalizing m with
  | nil => simp
  | cons a l ih =>
    obtain ⟨h1, h2⟩ := ih (max m (g a))
    exact ⟨by simp only [List.foldl_cons]; omega, List.forall_mem_cons.2 ⟨by simp only [List.foldl_cons]; omega, h2⟩⟩

/-- Every head of a pool that is eligible from some cycle is eligible, and noted so. -/
theorem poolHeads_eligible {seen : List ℕ} {l : List HeldRec} {h : HeldRec} (hm : h ∈ poolHeads s seen l) (he : h.eligible.isSome = true) : recEligible s h = true := by
  induction l generalizing seen with
  | nil => simp [poolHeads] at hm
  | cons a l ih =>
    unfold poolHeads at hm
    split_ifs at hm with hc
    · rcases List.mem_cons.1 hm with rfl | hm
      · simp at he
      · exact ih hm
    · rcases List.mem_cons.1 hm with rfl | hm
      · rw [noteEligible_eq]
        show recEligible s a = true
        by_contra hn
        simp [hn] at hc
      · exact ih hm

theorem candidates_spec {y : ℕ × ℕ × HeldRec} (h : y ∈ candidates s) : y.2.1 = levelOf s y.2.2 ∧ recEligible s y.2.2 = true := by
  rcases List.mem_append.1 h with h | h
  · obtain ⟨p, -, hp⟩ := List.mem_filterMap.1 h
    split at hp
    · split_ifs at hp with hc
      obtain rfl := Option.some.inj hp
      exact ⟨rfl, (Bool.and_eq_true_iff.1 hc).2⟩
    · exact absurd hp nofun
  · obtain ⟨p, -, hp⟩ := List.mem_flatMap.1 h
    split_ifs at hp
    · obtain ⟨r, hr, rfl⟩ := List.mem_map.1 hp
      obtain ⟨hr, he⟩ := List.mem_filter.1 hr
      exact ⟨rfl, poolHeads_eligible hr he⟩
    · exact absurd hp List.not_mem_nil

/-- The chosen record is a candidate, and none has a higher level. -/
theorem chosenOf_spec {x : ℕ × ℕ × HeldRec} (h : chosenOf s = some x) : x ∈ candidates s ∧ ∀ y ∈ candidates s, y.2.1 ≤ x.2.1 := by
  have hmax := (le_foldl_max (fun y : ℕ × ℕ × HeldRec => y.2.1) (candidates s) 0).2
  have htop : x ∈ (candidates s).filter (fun y => y.2.1 == (candidates s).foldl (fun m y => max m y.2.1) 0) := by
    unfold chosenOf at h
    dsimp only at h
    split at h
    next y hy =>
      obtain rfl := Option.some.inj h
      obtain ⟨id, -, hid⟩ := List.exists_of_findSome?_eq_some hy
      exact List.mem_of_find?_eq_some hid
    · refine (foldl_pick ?pick _ none).elim (fun hn => absurd (hn.symm.trans h) nofun) fun ⟨y, hy, hy'⟩ => Option.some.inj (hy'.symm.trans h) ▸ hy
      intro b y
      cases b with
      | none => exact .inr rfl
      | some b =>
        dsimp only
        split_ifs
        · exact .inr rfl
        · exact .inl rfl
  obtain ⟨hx, ht⟩ := List.mem_filter.1 htop
  exact ⟨hx, fun y hy => (hmax y hy).trans (beq_iff_eq.1 ht).ge⟩

/-! ## Nodes (05 R86) -/

theorem nodeEvaluate_none (h : chosenOf s = none) : exec (.nodeEvaluate q) s = .next s := by
  show execNodeEvaluate q s = _
  simp only [execNodeEvaluate, h]

theorem nodeEvaluate_other {pos level : ℕ} {h : HeldRec} (hc : chosenOf s = some (pos, level, h)) (ho : h.body.node = 0 ∨ pos ≠ q ∨ s.hub.bootst ≠ 1) :
    exec (.nodeEvaluate q) s = .next s := by
  show execNodeEvaluate q s = _
  simp only [execNodeEvaluate, hc]
  exact if_pos (by simp only [Bool.or_eq_true, beq_iff_eq, bne_iff_ne, or_assoc]; exact ho)

section
variable {level : ℕ} {h : HeldRec} (hc : chosenOf s = some (q, level, h)) (hn : h.body.node ≠ 0) (hb : s.hub.bootst = 1)
include hc hn hb

theorem nodeEvaluate_unreadable {f : FaultInfo} (hr : readNow s hubEnd h.tctx (h.body.cond.toNat / 8 * 8) 8 = (t, .error f)) :
    exec (.nodeEvaluate q) s = .next (haltRecord t q 8 h) := by
  have hgo : (h.body.node == 0 || q != q || s.hub.bootst != 1) = false := by simp [hn, hb]
  show execNodeEvaluate q s = _
  simp only [execNodeEvaluate, hc, hgo, hr, Bool.false_eq_true, if_false]

theorem nodeEvaluate_reads {b : List Byte} (hr : readNow s hubEnd h.tctx (h.body.cond.toNat / 8 * 8) 8 = (t, .ok b)) :
    exec (.nodeEvaluate q) s = .next (takenAt ((releaseTag t h.id).modWq q (fun w => (nodeEffect w h.body (bytesNat b)).settle)) q level h.id) := by
  have hgo : (h.body.node == 0 || q != q || s.hub.bootst != 1) = false := by simp [hn, hb]
  show execNodeEvaluate q s = _
  simp only [execNodeEvaluate, hc, hgo, hr, Bool.false_eq_true, if_false]

end

/-- A queue that halts for a record it has read drops that record and its tag. -/
theorem haltRecord_spec (s : State) (q code : ℕ) (h : HeldRec) :
    OnlyHub s (haltRecord s q code h) ∧ ((haltRecord s q code h).wq q).err = BitVec.ofNat 8 code ∧ ((haltRecord s q code h).wq q).badidx = h.index
    ∧ (∀ p ∈ (haltRecord s q code h).hub.holders, p.2 ≠ h.id) ∧ ((haltRecord s q code h).wq q).head = (s.wq q).head
    ∧ ((s.wq q).held = some h → ((haltRecord s q code h).wq q).held = none) := by
  obtain ⟨hw, ho, hh⟩ := haltQueue_spec ((releaseTag s h.id).modWq q (fun w => if w.held.any (fun x => x.id == h.id) then { w with held := none, placing := false } else w)) q code h.index
  rw [wq_modWq, wq_releaseTag] at hw
  unfold haltRecord
  refine ⟨onlyHub_trans (onlyHub_trans (releaseTag_spec s h.id).1 (onlyHub_modWq _ q _)) ho, by rw [hw], by rw [hw], ?_, ?_, fun hheld => ?_⟩
  · rw [hh]
    exact (releaseTag_spec s h.id).2.2
  · rw [hw]
    split_ifs <;> rfl
  · rw [hw, hheld]
    simp

/-- A node that has been evaluated has moved its queue, and is neither a tag's holder nor a chosen record any more. -/
theorem nodeTaken_spec (s : State) (q level id : ℕ) (f : WorkQueue → WorkQueue) :
    let t := takenAt ((releaseTag s id).modWq q f) q level id
    OnlyHub s t ∧ t.wq q = f (s.wq q) ∧ (∀ p ∈ t.hub.holders, p.2 ≠ id) ∧ sget 4103 t.hub.last level = q ∧ id ∉ t.hub.chosen := by
  refine ⟨rfl, ?_, (releaseTag_spec s id).2.2, sget_sset_same _ _ _ _, fun hm => ?_⟩
  · exact (wq_modWq (releaseTag s id) q f)
  · simpa using (List.mem_filter.1 hm).2

/-- The queue once its head record is passed and no other skipped. -/
def headPassed (w : WorkQueue) : WorkQueue := { w with head := w.head + 1, held := none }

/-- The index of the n-th record behind the head's next. -/
def behind (w : WorkQueue) (n : ℕ) : BitVec 32 := w.head + BitVec.ofNat 32 (1 + n)

theorem behind_eq (w : WorkQueue) (n : ℕ) : w.head + 1 + BitVec.ofNat 32 n = behind w n := by
  rw [behind, BitVec.ofNat_add, BitVec.add_assoc]
  rfl

theorem behind_zero (w : WorkQueue) : w.head + 1 = behind w 0 := rfl

theorem behind_inj {w : WorkQueue} {m n : ℕ} (hm : m < 2 ^ 32) (hn : n < 2 ^ 32) : behind w m = behind w n ↔ m = n := by
  rw [← behind_eq, ← behind_eq, BitVec.add_right_inj, ← BitVec.toNat_inj, BitVec.toNat_ofNat, BitVec.toNat_ofNat, Nat.mod_eq_of_lt hm, Nat.mod_eq_of_lt hn]

theorem skip_behind {w v : WorkQueue} {m n : ℕ} (hm : m < 2 ^ 32) (hn : n < 2 ^ 32) :
    v.skip (behind w m) (behind w n) = { v with skips := if m = n then v.skips else ((behind w m).toNat, (behind w n).toNat) :: v.skips } := by
  unfold WorkQueue.skip
  by_cases h : m = n
  · rw [if_pos ((behind_inj hm hn).2 h), if_pos h]
  · rw [if_neg (mt (behind_inj hm hn).1 h), if_neg h]

section
variable (w : WorkQueue) (r : Record) (word : ℕ)

theorem nodeB_lt : nodeB r < 2 ^ 16 := Nat.mod_lt _ (by norm_num)
theorem nodeL_lt : nodeL r < 2 ^ 16 := Nat.mod_lt _ (by norm_num)

theorem nodeEffect_passes (h : r.node = 1) (hw : word ≠ 0) : nodeEffect w r word = headPassed w := by
  simp [nodeEffect, h, hw, headPassed]

theorem nodeEffect_skips (h : r.node = 1 ∨ r.node = 2) (hw : word = 0) (hb : 0 < nodeB r) :
    nodeEffect w r word = { headPassed w with skips := ((behind w 0).toNat, (behind w (nodeB r)).toNat) :: w.skips } := by
  have hlt := nodeB_lt r
  have hs : (headPassed w).skip (behind w 0) (behind w (nodeB r)) = { headPassed w with skips := ((behind w 0).toNat, (behind w (nodeB r)).toNat) :: w.skips } := by
    rw [skip_behind (by norm_num) (by omega), if_neg (by omega)]
    rfl
  rw [← hs]
  rcases h with h | h
  · simp only [nodeEffect, h, hw, if_true, behind_eq]
    rfl
  · simp only [nodeEffect, h, hw, if_true, behind_eq]
    rfl

theorem nodeEffect_loops (h : r.node = 2) (hw : word ≠ 0) :
    nodeEffect w r word = { headPassed w with loops := (w.head.toNat, (behind w (nodeB r)).toNat, []) :: w.loops } := by
  simp only [nodeEffect, h, if_neg hw, behind_eq]
  rfl

theorem nodeEffect_empty (h : r.node = 3) (hb : nodeB r = 0) : nodeEffect w r word = headPassed w := by
  simp only [nodeEffect, h, hb]
  rfl

/-- A case node passes all branches but one: those behind the one it takes, and those before it. -/
theorem nodeEffect_case (h : r.node = 3) (hb : 0 < nodeB r) (hl : 0 < nodeL r) :
    let k := min word (nodeB r - 1)
    let after := if k + 1 = nodeB r then w.skips else ((behind w ((k + 1) * nodeL r)).toNat, (behind w (nodeB r * nodeL r)).toNat) :: w.skips
    nodeEffect w r word = { headPassed w with skips := if k = 0 then after else ((behind w 0).toNat, (behind w (k * nodeL r)).toNat) :: after } := by
  intro k after
  have hprod : ∀ j, j ≤ nodeB r → j * nodeL r < 2 ^ 32 := fun j hj =>
    calc j * nodeL r ≤ 2 ^ 16 * nodeL r := Nat.mul_le_mul_right _ (hj.trans (nodeB_lt r).le)
      _ < 2 ^ 16 * 2 ^ 16 := (Nat.mul_lt_mul_left (by norm_num)).2 (nodeL_lt r)
      _ = 2 ^ 32 := by norm_num
  have hk : k + 1 ≤ nodeB r := by omega
  have he : nodeEffect w r word = ((headPassed w).skip (behind w ((k + 1) * nodeL r)) (behind w (nodeB r * nodeL r))).skip (behind w 0) (behind w (k * nodeL r)) := by
    simp only [nodeEffect, h, if_neg (Nat.pos_iff_ne_zero.1 hb), behind_eq]
    rfl
  have h1 : (k + 1) * nodeL r = nodeB r * nodeL r ↔ k + 1 = nodeB r := Nat.mul_left_inj (by omega)
  have h2 : 0 = k * nodeL r ↔ k = 0 := by rw [eq_comm, Nat.mul_eq_zero]; omega
  rw [he, skip_behind (hprod _ hk) (hprod _ le_rfl), skip_behind (by norm_num) (hprod k (by omega))]
  simp only [h1, h2]
  rfl

end

end Sys2Proof.Machine

open Sys2Proof.Machine in
/-- Settles O48: each clause is the lemma on its part of the queue: on the registers (`wqtailWrite_overfull`, `wqEnable_eq`, `wqDisable_eq`, `wqHaltClear_overfull`), on the
checks of the record at the head (`queueRecordRead_bad`, `queueRecordRead_binds`), on its tag (`bindRecord_holds`), on the choice (`chosenOf_spec`), and on nodes (`nodeEffect_case`). -/
theorem queueRecords : Obligations.QueueRecords := by
  intro s q v x w m lim inlim
  refine ⟨wqtailWrite_halted, wqtailWrite_fits, wqtailWrite_overfull, fun h => settle_disabled (w := m) h, ?enable, wqEnable_rests, ?disable, wqDisable_rests, wqHaltClear_rests, ?cleared, wqHaltClear_overfull,
    fun h => if_pos h, ?read, fun l => loopOk_iff, ?binds, ?chosen, fun h => rfl, nodeEvaluate_none, fun pos level h hc ho => nodeEvaluate_other hc ho, ?node, ?effect⟩
  case enable =>
    intro he hv
    refine ⟨_, wqEnable_eq he hv, ?_, onlyHub_modWq s q _⟩
    have he' : w.en = false := he
    rw [wq_modWq]
    simp only [WorkQueue.fields, show s.wq q = w from rfl, he', Bool.false_eq_true, if_false, clampNat_eq]
    rfl
  case disable =>
    intro he hv
    obtain ⟨ho, hw, hh⟩ := dropHeld_spec s q
    refine ⟨_, wqDisable_eq he hv, ?_, onlyHub_trans ho (onlyHub_modWq _ q _), hh⟩
    have he' : w.en = true := he
    rw [wq_modWq, hw]
    simp only [WorkQueue.fields, show s.wq q = w from rfl, he', if_true]
    rfl
  case cleared => exact fun he hc => (wqHaltClear_eq he).trans (congrArg _ (overfill_fits (.inr (by rw [wq_modWq]; exact hc))))
  case read =>
    intro hb hr hl hs u at_ halts
    have hhalt (z : State) (n : ℕ) (code : BitVec 8) (he : exec (.queueRecordRead q) s = .next (haltQueue z q n w.head)) (hn : BitVec.ofNat 8 n = code) : halts z code := by
      obtain ⟨hw, ho, -⟩ := haltQueue_spec z q n w.head
      exact ⟨_, he, hn ▸ hw, ho⟩
    refine ⟨fun t f hf => hhalt t 8 8 (queueRecordRead_unreadable hb hr hl hs hf) rfl, ?_⟩
    intro t b ht r
    have hbad (z : State) (n : ℕ) (code : BitVec 8) (hc : checkRecord t hubEnd w.ctx.toNat r 4 false = (z, .error n)) (hn : BitVec.ofNat 8 n = code) : halts z code :=
      hhalt z n code (queueRecordRead_bad hb hr hl hs ht hc) hn
    have hbind (z : State) (h : Header) (hc : checkRecord t hubEnd w.ctx.toNat r 4 false = (z, .ok h)) : ∀ y held,
        bindRecord z r h (BitVec.ofNat 64 at_) w.ctx.toNat w.inlimit.toNat 0 none w.head = (y, held) → _ := fun y held hy => queueRecordRead_binds hb hr hl hs ht hc hy
    refine ⟨fun hp => hbad t 1 1 (checkRecord_prio hp) rfl, fun hp hn => hbad t 2 2 (checkRecord_node hp hn) rfl, fun hp hn hlo => hbad t 3 3 (checkRecord_loop hp hn hlo) rfl, ?_⟩
    intro hp hn hlo binds
    refine ⟨fun h0 hres => ?_, fun h0 hres => ?_, fun h0 hi => hbad t 4 4 (checkRecord_image hp hn hlo h0 hi) rfl, fun h0 h64 h31 => ⟨fun z f hf => ?_, ?_⟩⟩
    · exact hbad t 6 6 ((checkRecord_isNode hp hn hlo h0).trans (if_pos hres)) rfl
    · exact hbind t noHeader ((checkRecord_isNode hp hn hlo h0).trans (if_neg (by simp [hres])))
    · exact hbad z 8 8 (checkRecord_unreadable hp hn hlo h0 h64 h31 hf) rfl
    · intro z h hh form size
      refine ⟨fun hform => ?_, fun hform hsize => ?_, fun hform hsize hres => ?_, fun hform hsize hres => ?_⟩
      · exact hbad z 4 4 (checkRecord_badHeader hp hn hlo h0 h64 h31 hh (headerFault_form hform)) rfl
      · exact hbad z 5 5 (checkRecord_badHeader hp hn hlo h0 h64 h31 hh (headerFault_size hform hsize)) rfl
      · exact hbad z 6 6 ((checkRecord_goodHeader hp hn hlo h0 h64 h31 hh (headerFault_none hform hsize)).trans (if_pos (by simp [hres]))) rfl
      · exact hbind z h ((checkRecord_goodHeader hp hn hlo h0 h64 h31 hh (headerFault_none hform hsize)).trans (if_neg (by simp [hres])))
  case binds =>
    intro r h addr ctx lim rows step i y held hy
    obtain rfl := bindRecord_held hy
    refine ⟨rfl, ?_, rfl, rfl, rfl, rfl, rfl, rfl, ?_, bindRecord_producers hy, bindRecord_holds hy, bindRecord_otherTags hy⟩
    · rw [bindRecord_state hy]; rfl
    · rw [bindRecord_state hy]; rfl
  case chosen =>
    intro pos level h hc
    obtain ⟨hm, hmax⟩ := chosenOf_spec hc
    obtain ⟨hlev, hel⟩ := candidates_spec hm
    exact ⟨hm, hlev, hmax, hel⟩
  case node =>
    intro level h hc hn hb
    refine ⟨fun t f hr => ?_, fun t b hr => ?_⟩
    · exact ⟨_, nodeEvaluate_unreadable hc hn hb hr, haltRecord_spec t q 8 h⟩
    · exact ⟨_, nodeEvaluate_reads hc hn hb hr, nodeTaken_spec t q level h.id _⟩
  case effect =>
    intro r word b l i passes
    exact ⟨nodeEffect_passes w r word, nodeEffect_skips w r word, nodeEffect_loops w r word, nodeEffect_empty w r word, nodeEffect_case w r word⟩
end

section
/-! Placement (05 R82, R87-R89, 04 R62, R64): which cohorts a record fits, and what its placement leaves. -/

namespace Sys2Proof.Machine

variable {s t : State} {h : HeldRec} {c d : ℕ} {p : Placement}

/-! ## The cohorts that can host a record -/

/-- The core takes a placement of the record: it is free, and frame, registers and area are clear of the launches pre-empted there. -/
def Fits (s : State) (h : HeldRec) (p : Placement) : Prop :=
  p.core < 512 ∧ s.run p.core = none ∧ (s.core p.core).gate = .on ∧ (s.core p.core).stop = none ∧ (s.die (dieOf p.core)).power = true
  ∧ (s.arch p.core).parked.length < 8 ∧ p.frame < 8 ∧ p.area % 1024 = 0 ∧ p.area + h.hdr.spneed ≤ 4063232
  ∧ 32 * p.regs.length = h.hdr.allot ∧ p.regs.Nodup ∧ (∀ b ∈ p.regs, b < 64)
  ∧ ∀ x ∈ (s.arch p.core).parked, x.run.frame ≠ p.frame ∧ (∀ b ∈ p.regs, b ∉ x.run.regs)
      ∧ (p.area + h.hdr.spneed ≤ x.run.area ∨ x.run.area + x.run.spneed ≤ p.area ∨ h.hdr.spneed = 0 ∨ x.run.spneed = 0)

theorem residents_free (hr : s.run c = none) : residents s c = (s.arch c).parked.map (fun p => p.run) := by simp [residents, hr]

theorem grantable_eq : grantable = 4063232 := rfl

theorem placeOk_iff : placeOk s h p = true ↔ Fits s h p := by
  unfold placeOk Fits
  by_cases hr : s.run p.core = none
  · rw [residents_free hr]
    simp only [hr, clearOf, apart, Bool.and_eq_true, beq_iff_eq, Option.isNone_iff_eq_none, decide_eq_true_eq, List.all_eq_true,
      List.length_map, List.forall_mem_map, bne_iff_ne, Bool.or_eq_true, Bool.not_eq_true', List.contains_eq_mem, decide_eq_false_iff_not, forall_and,
      or_assoc, true_and]
    rw [grantable_eq, show Config.cores = 512 from rfl]
    tauto
  · simp [hr]

theorem mem_block {α : Type} {l : List α} {x : α} {j : ℕ} (hc : 0 < c) : x ∈ (l.drop (j * c)).take c ↔ ∃ i, i / c = j ∧ l[i]? = some x := by
  rw [List.mem_iff_getElem?]
  constructor
  · rintro ⟨i, hi⟩
    have hlt : i < c := by
      by_contra hge
      rw [List.getElem?_take, if_neg hge] at hi
      exact absurd hi nofun
    rw [List.getElem?_take_of_lt hlt, List.getElem?_drop] at hi
    exact ⟨j * c + i, by rw [Nat.mul_comm, Nat.mul_add_div hc, Nat.div_eq_of_lt hlt, Nat.add_zero], hi⟩
  · rintro ⟨i, rfl, hi⟩
    have hlt := Nat.mod_lt i hc
    exact ⟨i % c, by rw [List.getElem?_take_of_lt hlt, List.getElem?_drop, Nat.div_add_mod', hi]⟩

/-- Blocks of c entries each have one value of their own: two entries have the same value just where they stand in one block. -/
theorem blocks_iff {α : Type} {l : List α} (f : α → ℕ) {die : ℕ → ℕ} (hc : 0 < c) (hl : l.length = c * d)
    (hd : ∀ j x, l[j * c]? = some x → die j = f x) :
    (∀ j < d, ∀ x ∈ (l.drop (j * c)).take c, f x = die j) ∧ ((List.range d).map die).Nodup
      ↔ ∀ i j x y, l[i]? = some x → l[j]? = some y → (f x = f y ↔ i / c = j / c) := by
  have hblock : ∀ {i x}, l[i]? = some x → i / c < d := fun {i x} h => by
    obtain ⟨hi, -⟩ := List.getElem?_eq_some_iff.1 h
    exact Nat.div_lt_of_lt_mul (hl ▸ hi)
  have hfirst : ∀ j < d, ∃ x, l[j * c]? = some x := fun j hj =>
    ⟨_, List.getElem?_eq_getElem (hl ▸ Nat.mul_comm j c ▸ Nat.mul_lt_mul_of_pos_left hj hc)⟩
  rw [List.nodup_map_iff_inj_on List.nodup_range]
  simp only [List.mem_range, mem_block hc]
  constructor
  · rintro ⟨hsame, hinj⟩ i j x y hi hj
    rw [hsame _ (hblock hi) x ⟨i, rfl, hi⟩, hsame _ (hblock hj) y ⟨j, rfl, hj⟩]
    exact ⟨hinj _ (hblock hi) _ (hblock hj), fun h => by rw [h]⟩
  · intro h
    refine ⟨?_, fun i hi j hj hij => ?_⟩
    · rintro j hj x ⟨i, rfl, hi⟩
      obtain ⟨y, hy⟩ := hfirst _ hj
      rw [hd _ _ hy]
      exact (h _ _ _ _ hi hy).2 (Nat.mul_div_cancel _ hc).symm
    · obtain ⟨x, hx⟩ := hfirst i hi
      obtain ⟨y, hy⟩ := hfirst j hj
      have := (h _ _ _ _ hx hy).1 ((hd _ _ hx).symm.trans (hij.trans (hd _ _ hy)))
      rwa [Nat.mul_div_cancel _ hc, Nat.mul_div_cancel _ hc] at this

/-- The die of the first core of a block of a cohort, or 8, which is no die's. -/
def firstDie (l : List Placement) (c j : ℕ) : ℕ :=
  match l[j * c]? with
  | some p => dieOf p.core
  | none => 8

theorem firstDie_eq {l : List Placement} {j : ℕ} (hp : l[j * c]? = some p) : firstDie l c j = dieOf p.core := by rw [firstDie, hp]

theorem wheelStep_eq {n : ℕ} (hn : n ≠ 0) : wheelStep n = 4096 / n := by rw [wheelStep, Nat.max_eq_right (Nat.pos_of_ne_zero hn)]

theorem wheelFree_iff {n w : ℕ} (hn : n ≠ 0) : wheelFree s n w = true ↔ ∀ k, k < n → ∀ o ∈ s.hub.owners, o.1 ≠ w + k * (4096 / n) := by
  simp [wheelFree, wheelPositions, hn, wheelStep_eq hn]

theorem cohortOk_iff {cohort : List Placement} (hc : 0 < h.body.c) : cohortOk s h cohort = true ↔ cohort.length = h.body.c * h.body.d
    ∧ (cohort.map (fun p => p.core)).Nodup
    ∧ (∀ i j p q, cohort[i]? = some p → cohort[j]? = some q → (dieOf p.core = dieOf q.core ↔ i / h.body.c = j / h.body.c))
    ∧ (∀ p ∈ cohort, Fits s h p)
    ∧ (h.hdr.wheel ≠ 0 → (cohort.map (fun p => p.wheelP)).Nodup ∧ ∀ p ∈ cohort, p.wheelP < 4096 / h.hdr.wheel
        ∧ ∀ k, k < h.hdr.wheel → ∀ o ∈ s.hub.owners, o.1 ≠ p.wheelP + k * (4096 / h.hdr.wheel)) := by
  have hwheel : (h.hdr.wheel == 0 || (decide ((cohort.map (fun p => p.wheelP)).Nodup)
      && cohort.all (fun p => decide (p.wheelP < wheelStep h.hdr.wheel) && wheelFree s h.hdr.wheel p.wheelP))) = true
      ↔ (h.hdr.wheel ≠ 0 → (cohort.map (fun p => p.wheelP)).Nodup ∧ ∀ p ∈ cohort, p.wheelP < 4096 / h.hdr.wheel
        ∧ ∀ k, k < h.hdr.wheel → ∀ o ∈ s.hub.owners, o.1 ≠ p.wheelP + k * (4096 / h.hdr.wheel)) := by
    by_cases hn : h.hdr.wheel = 0
    · simp [hn]
    · simp only [Bool.or_eq_true, beq_iff_eq, hn, false_or, Bool.and_eq_true, decide_eq_true_eq, List.all_eq_true, wheelFree_iff hn, wheelStep_eq hn, ne_eq,
        not_false_eq_true, true_implies]
  unfold cohortOk
  rw [Bool.and_eq_true, hwheel, ← and_assoc, ← and_assoc, ← and_assoc]
  refine and_congr_left fun _ => ?_
  simp only [Bool.and_eq_true, beq_iff_eq, decide_eq_true_eq, List.all_eq_true, List.mem_range, placeOk_iff]
  have hblocks (hl : cohort.length = h.body.c * h.body.d) := blocks_iff (fun p : Placement => dieOf p.core) hc hl (fun _ _ => firstDie_eq)
  constructor
  · rintro ⟨⟨⟨⟨hl, hn⟩, hp⟩, hs⟩, hd⟩
    exact ⟨⟨⟨hl, hn⟩, (hblocks hl).1 ⟨hs, hd⟩⟩, hp⟩
  · rintro ⟨⟨⟨hl, hn⟩, hb⟩, hp⟩
    obtain ⟨hs, hd⟩ := (hblocks hl).2 hb
    exact ⟨⟨⟨⟨hl, hn⟩, hp⟩, hs⟩, hd⟩

/-! ## What a placement leaves -/

section
variable {src : Source} {cohort : List Placement} {level : ℕ}

/-- What core i of a cohort runs from its placement on. -/
def placedRun (src : Source) (h : HeldRec) (i : ℕ) (p : Placement) : Running :=
  { launch := h.id, held := h, src := src, frame := p.frame, area := p.area, spneed := h.hdr.spneed, regs := p.regs, allot := h.hdr.allot
    wheelP := p.wheelP, wheelN := h.hdr.wheel, tctx := h.tctx, padmask := padMaskOf h (i % h.body.c) (i / h.body.c), lat := h.hdr.lat
    c := i % h.body.c, d := i / h.body.c, t := 0, loaded := false, ready := false, started := false, complete := false, trigPending := [], trigSent := false
    stampUsed := none, jcount := 0, ring0 := [] }

/-- The small state of core i of a cohort after its placement: its run and its porch. -/
def placedArch (src : Source) (h : HeldRec) (i : ℕ) (p : Placement) (a : Arch) : Arch :=
  { a with run := some (placedRun src h i p)
           csrs := { a.csrs with
             img := h.body.image, arg := h.body.args, recAddr := h.addr, pos := porchPos 0 (i / h.body.c) (i % h.body.c), inlim := BitVec.ofNat 21 h.inlim } }

/-- The wheel positions that a placement gives its launch. -/
def placedOwners (h : HeldRec) (p : Placement) : List (ℕ × ℕ) := (wheelPositions h.hdr.wheel p.wheelP).map (fun w => (w, h.id))

theorem placeCore_eq (s : State) (src : Source) (h : HeldRec) (i : ℕ) (p : Placement) :
    placeCore s src h i p = (s.modArch p.core (placedArch src h i p)).modHub (fun x => { x with owners := x.owners ++ placedOwners h p }) := rfl

theorem foldIdx_placeCore (s : State) (src : Source) (h : HeldRec) (n : ℕ) (l : List Placement) (hl : (l.map (fun p => p.core)).Nodup) :
    let t := foldIdx (fun s i p => placeCore s src h i p) n l s
    (∀ i p, l[i]? = some p → t.arch p.core = placedArch src h (n + i) p (s.arch p.core))
    ∧ (∀ d, (∀ p ∈ l, p.core ≠ d) → t.core d = s.core d)
    ∧ t = { s with cores := t.cores, hub := { s.hub with owners := s.hub.owners ++ l.flatMap (placedOwners h) } } ∧ SameMemory s t := by
  induction l generalizing s n with
  | nil => exact ⟨fun i p hi => absurd hi (by simp), fun d _ => rfl, by simp [foldIdx], sameMemory_refl s⟩
  | cons p l ih =>
    obtain ⟨hp, hl⟩ := List.nodup_cons.1 hl
    obtain ⟨hplaced, hother, hrest, hmem⟩ := ih (placeCore s src h n p) (n + 1) hl
    have hfirst : (placeCore s src h n p).arch p.core = placedArch src h n p (s.arch p.core) := arch_modArch s p.core (placedArch src h n p)
    have hne : ∀ d, p.core ≠ d → (placeCore s src h n p).core d = s.core d := fun d hd =>
      core_modCore_ne s p.core d (fun k => { k with arch := placedArch src h n p k.arch }) hd.symm
    have hnot : ∀ q ∈ l, q.core ≠ p.core := fun q hq he => hp (List.mem_map.2 ⟨q, hq, he⟩)
    have hkept : SameMemory s (placeCore s src h n p) := sameMemory_trans (sameMemory_modArch s p.core (placedArch src h n p)) (sameMemory_congr rfl rfl rfl rfl)
    refine ⟨fun i q hi => ?_, fun d hd => ?_, ?_, sameMemory_trans hkept hmem⟩
    · cases i with
      | zero =>
        obtain rfl : p = q := by simpa using hi
        rw [Nat.add_zero, ← hfirst]
        exact congrArg Core.arch (hother p.core hnot)
      | succ i =>
        have hq : l[i]? = some q := by simpa using hi
        have hqp := hnot q (List.mem_of_getElem? hq)
        have hsame : (placeCore s src h n p).arch q.core = s.arch q.core := congrArg Core.arch (hne q.core hqp.symm)
        rw [show n + (i + 1) = n + 1 + i by omega, ← hsame]
        exact hplaced i q hq
    · rw [← hne d (hd p List.mem_cons_self)]
      exact hother d fun q hq => hd q (List.mem_cons_of_mem p hq)
    · refine hrest.trans ?_
      rw [List.flatMap_cons, ← List.append_assoc]
      rfl

theorem placeRecord_spec (s : State) (src : Source) (level : ℕ) (h : HeldRec) (cohort : List Placement) (hn : (cohort.map (fun p => p.core)).Nodup) :
    let t := placeRecord s src level h cohort
    (∀ i p, cohort[i]? = some p → t.arch p.core = placedArch src h i p (s.arch p.core))
    ∧ (∀ d, (∀ p ∈ cohort, p.core ≠ d) → t.core d = s.core d)
    ∧ t.hub.launches = s.hub.launches ++ [⟨h.id, h, src, cohort, s.now, [], [], [], false, false, false⟩]
    ∧ t.hub.owners = s.hub.owners ++ cohort.flatMap (placedOwners h)
    ∧ sget 4103 t.hub.last level = posOf src ∧ t.hub.chosen = s.hub.chosen.filter (fun i => i != h.id)
    ∧ (∀ q, src = .queue q → t.wq q = { s.wq q with placing := true, loops := (s.wq q).loops.map (fun l => (l.1, l.2.1, h.id :: l.2.2)) })
    ∧ (∀ d, src = .pool d → (t.die d).pool = (s.die d).pool.filter (fun y => y.id != h.id))
    ∧ SameMemory s t := by
  obtain ⟨hplaced, hother, hrest, hmem⟩ := foldIdx_placeCore s src h 0 cohort hn
  unfold placeRecord
  generalize foldIdx (fun s i p => placeCore s src h i p) 0 cohort s = u at hplaced hother hrest hmem
  simp only [Nat.zero_add] at hplaced
  have hhub : u.hub = { s.hub with owners := s.hub.owners ++ cohort.flatMap (placedOwners h) } := by rw [hrest]
  have hchosen : u.hub.chosen = s.hub.chosen := by rw [hhub]
  have hnow : u.now = s.now := by rw [hrest]
  have hdies : u.dies = s.dies := by rw [hrest]
  have hwq : ∀ q, u.wq q = s.wq q := fun q => by simp only [State.wq, hhub]
  have hdie : ∀ d, u.die d = s.die d := fun d => by simp only [State.die, hdies]
  cases src with
  | queue q =>
    refine ⟨hplaced, hother, ?_, ?_, sget_sset_same _ _ _ _, ?_, ?_, fun d hd => absurd hd nofun, sameMemory_trans hmem (sameMemory_congr rfl rfl rfl rfl)⟩
    · rw [← hnow]
      exact congrArg (fun x => x.launches ++ [_]) hhub
    · exact congrArg Hub.owners hhub
    · exact congrArg (List.filter (fun i => i != h.id)) hchosen
    · rintro q' hq
      obtain rfl : q = q' := Source.queue.inj hq
      rw [← hwq q]
      exact wq_modWq u q (fun w => { w with placing := true, loops := w.loops.map (fun l => (l.1, l.2.1, h.id :: l.2.2)) })
  | pool d =>
    refine ⟨hplaced, hother, ?_, ?_, sget_sset_same _ _ _ _, ?_, fun q hq => absurd hq nofun, ?_, sameMemory_trans hmem (sameMemory_congr rfl rfl rfl rfl)⟩
    · rw [← hnow]
      exact congrArg (fun x => x.launches ++ [_]) hhub
    · exact congrArg Hub.owners hhub
    · exact congrArg (List.filter (fun i => i != h.id)) hchosen
    · rintro d' hd
      obtain rfl : d = d' := Source.pool.inj hd
      rw [← hdie d]
      exact congrArg Die.pool (die_modDie u d (fun x => { x with pool := x.pool.filter (fun y => y.id != h.id) }))

theorem cohortOk_nodup (ho : cohortOk s h cohort = true) : (cohort.map (fun p => p.core)).Nodup := by
  simp only [cohortOk, Bool.and_eq_true, decide_eq_true_eq] at ho
  exact ho.1.1.1.1.2

theorem recordPlace_none (hc : chosenOf s = none) : exec (.recordPlace src cohort) s = .next s := by
  show execRecordPlace src cohort s = _
  rw [execRecordPlace, hc]

section
variable {pos : ℕ} (hc : chosenOf s = some (pos, level, h))
include hc

theorem recordPlace_eq : exec (.recordPlace src cohort) s =
    if s.hub.bootst = 1 ∧ h.body.node = 0 ∧ posOf src = pos ∧ cohortOk s h cohort = true ∧ resumeFirst s level = false
    then .next (placeRecord s src level h cohort) else .next s := by
  show execRecordPlace src cohort s = _
  rw [execRecordPlace, hc]

theorem recordPlace_rests (hr : s.hub.bootst ≠ 1 ∨ h.body.node ≠ 0 ∨ posOf src ≠ pos ∨ cohortOk s h cohort = false ∨ resumeFirst s level = true) :
    exec (.recordPlace src cohort) s = .next s := by
  rw [recordPlace_eq hc]
  exact if_neg fun ⟨hb, hn, hp, ho, hf⟩ => by simp [hb, hn, hp, ho, hf] at hr

end
end

end Sys2Proof.Machine
end

section
/-! Pre-emption (05 R92, R93): the launches that may give way to a record, the one that does, and what becomes of its cores. -/

namespace Sys2Proof.Machine

variable {s t u : State} {h : HeldRec} {c d id level pos : ℕ} {l : Launch}

/-! ## Launches by number -/

theorem launch_id (hl : s.launch id = some l) : l.id = id := by simpa using List.find?_some hl

theorem launch_modLaunch {f : Launch → Launch} (hf : ∀ l, (f l).id = l.id) (hl : s.launch id = some l) : (s.modLaunch id f).launch id = some (f l) := by
  have hid := launch_id hl
  have hkeep : ((fun l : Launch => l.id == id) ∘ fun l => if l.id = id then f l else l) = fun l => l.id == id := by
    funext x
    simp only [Function.comp]
    split_ifs <;> simp [hf]
  simp only [State.launch, State.modLaunch, hub_modHub, List.find?_map, hkeep]
  rw [show List.find? (fun l => l.id == id) s.hub.launches = some l from hl, Option.map_some, if_pos hid]

/-! ## The launches that may give way -/

theorem coreCandidate_iff : coreCandidate s c id = true ↔ (∃ r, s.run c = some r ∧ r.launch = id ∧ r.loaded = true) ∧ (s.core c).gate = .on
    ∧ (s.core c).stop = none ∧ (s.core c).stopping = none ∧ (s.core c).killing = false ∧ (s.core c).dbg.halt = false ∧ (s.core c).dbg.stepping = false
    ∧ (∀ p ∈ (s.arch c).slots, p.2.state = 0 ∨ p.2.state = 3) ∧ (s.arch c).btraps = [] := by
  unfold coreCandidate runsFreely State.stopFree
  cases s.run c with
  | none => simp
  | some r => simp [and_assoc]

theorem victimOk_iff : victimOk s h l = true ↔ l.parked = false ∧ l.leaving = false ∧ l.loadedAll = true ∧ l.held.body.prio < h.body.prio
    ∧ ∀ p ∈ l.cohort, p.core ∉ l.completed → coreCandidate s p.core l.id = true := by
  simp [victimOk, and_assoc, or_iff_not_imp_left]

theorem mem_coresLeft : c ∈ coresLeft l ↔ ∃ p ∈ l.cohort, p.core ∉ l.completed ∧ p.core = c := by simp [coresLeft, and_assoc]

/-! ## The launch that gives way: of the lowest priority, then the latest start -/

/-- Launch l gives way no later than launch m does. -/
def GivesWayBefore (l m : Launch) : Prop := l.held.body.prio < m.held.body.prio ∨ (l.held.body.prio = m.held.body.prio ∧ m.startedAt ≤ l.startedAt)

theorem GivesWayBefore.trans {k m : Launch} (h : GivesWayBefore k l) (g : GivesWayBefore l m) : GivesWayBefore k m := by
  unfold GivesWayBefore at *
  omega

theorem givesWayBefore_total (l m : Launch) : GivesWayBefore l m ∨ GivesWayBefore m l := by
  unfold GivesWayBefore
  omega

/-- One step of the search for the victim. -/
def victimPick (b : Option Launch) (l : Launch) : Option Launch :=
  match b with
  | none => some l
  | some m => if l.held.body.prio < m.held.body.prio ∨ (l.held.body.prio = m.held.body.prio ∧ m.startedAt ≤ l.startedAt) then some l else some m

theorem victimOf_eq (s : State) (h : HeldRec) : victimOf s h = (s.hub.launches.filter (victimOk s h)).foldl victimPick none := rfl

theorem victimPick_spec (b : Option Launch) (l : Launch) :
    ∃ v, victimPick b l = some v ∧ (v = l ∨ b = some v) ∧ GivesWayBefore v l ∧ ∀ m, b = some m → GivesWayBefore v m := by
  have hrefl (m : Launch) : GivesWayBefore m m := or_self_iff.1 (givesWayBefore_total m m)
  cases b with
  | none => exact ⟨l, rfl, .inl rfl, hrefl l, fun _ hm => absurd hm (by simp)⟩
  | some m =>
    by_cases hlm : GivesWayBefore l m
    · exact ⟨l, if_pos hlm, .inl rfl, hrefl l, fun _ hm => Option.some.inj hm ▸ hlm⟩
    · exact ⟨m, if_neg hlm, .inr rfl, (givesWayBefore_total l m).resolve_left hlm, fun _ hm => Option.some.inj hm ▸ hrefl m⟩

theorem foldl_victimPick {v : Launch} (ls : List Launch) (b : Option Launch) (hv : ls.foldl victimPick b = some v) :
    (v ∈ ls ∨ b = some v) ∧ (∀ m ∈ ls, GivesWayBefore v m) ∧ ∀ m, b = some m → GivesWayBefore v m := by
  induction ls generalizing b with
  | nil => exact ⟨.inr hv, fun _ hm => absurd hm List.not_mem_nil, fun m hm => by
      obtain rfl : v = m := Option.some.inj (hv.symm.trans hm)
      exact or_self_iff.1 (givesWayBefore_total v v)⟩
  | cons l ls ih =>
    obtain ⟨w, hw, hfrom, hwl, hwb⟩ := victimPick_spec b l
    obtain ⟨hmem, hall, hbest⟩ := ih _ hv
    have hvw := hbest w hw
    refine ⟨?_, List.forall_mem_cons.2 ⟨hvw.trans hwl, hall⟩, fun m hm => hvw.trans (hwb m hm)⟩
    rcases hmem with hmem | hmem
    · exact .inl (List.mem_cons_of_mem l hmem)
    · obtain rfl : w = v := Option.some.inj (hw.symm.trans hmem)
      rcases hfrom with rfl | hb
      · exact .inl List.mem_cons_self
      · exact .inr hb

theorem victimOf_spec (hv : victimOf s h = some l) : victimOk s h l = true ∧ ∀ m ∈ s.hub.launches, victimOk s h m = true → GivesWayBefore l m := by
  obtain ⟨hmem, hall, -⟩ := foldl_victimPick _ none (victimOf_eq s h ▸ hv)
  exact ⟨(List.mem_filter.1 (hmem.resolve_right nofun)).2, fun m hm hok => hall m (List.mem_filter.2 ⟨hm, hok⟩)⟩

/-! ## PREEMPT -/

theorem preempt_none (hc : chosenOf s = none) : exec (.preempt id) s = .next s := by
  show execPreempt id s = _
  rw [execPreempt, hc]

/-- The cores of a launch stop to be left. -/
def leavingState (s : State) (id : ℕ) (l : Launch) : State := ((coresLeft l).foldl (setLeaving true) s).modLaunch id (fun l => { l with leaving := true })

theorem runsFreely_setLeaving (v : Bool) : runsFreely (setLeaving v s d) c id = runsFreely s c id := by
  have hcore := core_modCore_cases s d c (fun k => { k with leaving := v })
  split_ifs at hcore with hd
  · subst hd
    simp only [setLeaving, runsFreely, State.run, State.arch, State.stopFree, hcore]
  · simp only [setLeaving, runsFreely, State.run, State.arch, State.stopFree, hcore]

theorem foldl_setLeaving (v : Bool) (cores : List ℕ) (s : State) :
    runsFreely (cores.foldl (setLeaving v) s) c id = runsFreely s c id ∧ (cores.foldl (setLeaving v) s).hub = s.hub := by
  induction cores generalizing s with
  | nil => exact ⟨rfl, rfl⟩
  | cons d cores ih => exact ⟨(ih _).1.trans (runsFreely_setLeaving v), (ih _).2⟩

theorem runsFreely_leavingState : runsFreely (leavingState s id l) c d = runsFreely s c d := (foldl_setLeaving true (coresLeft l) s).1

theorem launch_leavingState (hl : s.launch id = some l) : (leavingState s id l).launch id = some { l with leaving := true } := by
  have hhub : ((coresLeft l).foldl (setLeaving true) s).launch id = some l := by
    rw [State.launch, (foldl_setLeaving (c := 0) (id := 0) true (coresLeft l) s).2]
    exact hl
  exact launch_modLaunch (fun _ => rfl) hhub

theorem settleLeaving_leaves (hu : u.launch id = some l) (hv : l.leaving = true) (hf : ∀ c ∈ coresLeft l, runsFreely u c id = true) :
    settleLeaving u id = if (coresLeft l).any (leaveHeld u) then u
      else (((coresLeft l).foldl leaveCore u).modHub (fun x => { x with owners := x.owners.filter (fun o => o.2 != id) })).modLaunch id
        (fun l => { l with leaving := false, parked := true }) := by
  simp only [settleLeaving, hu, hv, List.all_eq_true.2 hf, Bool.not_true, Bool.false_eq_true, if_false]

section
variable (hc : chosenOf s = some (pos, level, h))
include hc

theorem preempt_eq (hv : victimOf s h = some l) (hid : l.id = id) (hn : h.body.node = 0) (hno : canPlace s (leavingIds s) h = false)
    (hroom : canPlace s (leavingIds s ++ (s.hub.launches.filter (victimOk s h)).map (fun l => l.id)) h = true) :
    exec (.preempt id) s = .next (settleLeaving (leavingState s id l) id) := by
  show execPreempt id s = _
  simp only [execPreempt, hc, hv]
  exact if_neg (by simp [hid, hn, hno, hroom])

theorem preempt_rests (hr : canPlace s (leavingIds s) h = true ∨ victimOf s h = none ∨ h.body.node ≠ 0) : exec (.preempt id) s = .next s := by
  show execPreempt id s = _
  simp only [execPreempt, hc]
  cases hv : victimOf s h with
  | none => rfl
  | some l => exact if_pos (by simp only [hv, reduceCtorEq, false_or] at hr; tauto)

end

theorem preempt_settles (hv : victimOf s h = some l) (hl : s.launch id = some l) :
    settleLeaving (leavingState s id l) id = if (coresLeft l).any (leaveHeld (leavingState s id l)) then leavingState s id l
      else (((coresLeft l).foldl leaveCore (leavingState s id l)).modHub (fun x => { x with owners := x.owners.filter (fun o => o.2 != id) })).modLaunch id
        (fun l => { l with leaving := false, parked := true }) := by
  refine settleLeaving_leaves (l := { l with leaving := true }) (launch_leavingState hl) rfl fun c hc => ?_
  obtain ⟨-, -, -, -, hcores⟩ := victimOk_iff.1 (victimOf_spec hv).1
  obtain ⟨p, hp, hnot, rfl⟩ := mem_coresLeft.1 hc
  have hcand := hcores p hp hnot
  rw [launch_id hl, coreCandidate, Bool.and_eq_true, Bool.and_eq_true] at hcand
  rw [runsFreely_leavingState]
  exact hcand.1.1

end Sys2Proof.Machine
end

section
/-! Loading (04 R65, R377, 05 R378): what the loader leaves of a core, a load that fails, and the launch whose cores are all loaded. -/

namespace Sys2Proof.Machine

variable {s t u : State} {c q : ℕ} {r : Running} {l : Launch}

/-! ## Tables and memories with entries dropped -/

theorem sget_filter {α : Type} (d : α) (keep : ℕ → Bool) (l : Sparse α) (n : ℕ) :
    sget d (l.filter (fun p => keep p.1)) n = if keep n then sget d l n else d := by
  induction l with
  | nil => simp [sget]
  | cons p l ih =>
    obtain ⟨k, v⟩ := p
    by_cases hkn : k = n
    · subst hkn
      cases hk : keep k with
      | true => simp [hk, sget]
      | false => simpa [hk] using ih
    · cases hk : keep k with
      | true => simpa [hk, sget, hkn] using ih
      | false => simpa [hk, sget, hkn] using ih

theorem memByte_memClear (m : Memory) (lo hi x : ℕ) : memByte (memClear m lo hi) x = if lo ≤ x ∧ x < hi then 0 else memByte m x := by
  rw [memByte, memClear, sget_filter unlisted (fun x => !(decide (lo ≤ x) && decide (x < hi)))]
  by_cases hx : lo ≤ x ∧ x < hi
  · rw [if_pos hx]
    simp [hx, unlisted]
  · rw [if_neg hx, if_pos (by simpa [imp_iff_not_or] using hx)]
    rfl

theorem memClear_wf {m : Memory} (h : m.wf = true) (lo hi : ℕ) : Memory.wf (memClear m lo hi) = true := filter_wf _ h

theorem memByte_stream (b : List Byte) (x : ℕ) : memByte (memPutBytes [] 0 b) x = b.getD x 0 := by
  rw [memByte_memPutBytes rfl]
  by_cases hx : x < b.length
  · rw [if_pos (by omega), Nat.sub_zero]
  · rw [if_neg (by omega), List.getD_eq_default _ _ (by omega)]
    rfl

/-! ## The core after its load -/

theorem foldl_mark (f g : ℕ → ℕ) (l : List ℕ) (k : Core) : ∃ x, l.foldl (fun k b => k.mark (f b) (g b)) k = { k with cellar := x } := by
  induction l generalizing k with
  | nil => exact ⟨_, rfl⟩
  | cons b l ih =>
    obtain ⟨x, hx⟩ := ih (k.mark (f b) (g b))
    exact ⟨x, hx⟩

theorem clearUnits_eq (k : Core) (regs : List ℕ) : ∃ x, k.clearUnits regs = { k with
    cellar := x, vrf := k.vrf.filter (fun p => !regs.contains (p.1 / 32)), poisonVrf := k.poisonVrf.filter (fun g => !regs.contains (g / 256)), acc := [] } := by
  obtain ⟨x, hx⟩ := foldl_mark (fun b => vrfBlock + 64 * b) (fun b => vrfBlock + 64 * b + 64) regs k
  rw [Core.clearUnits, hx]
  exact ⟨_, rfl⟩

theorem lazySave_nothing {keep : Option ℕ} (hp : (s.arch c).parked = []) : lazySave s c keep = s := by
  rw [lazySave, hp]
  rfl

/-- The memories and registers of a core after the loader's steps (04 R65). -/
theorem loaded_spec (k : Core) (regs : List ℕ) (area spneed : ℕ) (sc ld cp st data : List Byte) (hwf : k.spad.wf = true) :
    let m := ((k.loadStreams sc ld cp st).loadArea area spneed data).clearUnits regs
    (∀ x, memByte m.imSc x = sc.getD x 0) ∧ (∀ x, memByte m.imLd x = ld.getD x 0) ∧ (∀ x, memByte m.imCp x = cp.getD x 0)
    ∧ (∀ x, memByte m.imSt x = st.getD x 0)
    ∧ (data.length ≤ spneed → ∀ x, memByte m.spad x = if area ≤ x ∧ x < area + spneed then data.getD (x - area) 0 else memByte k.spad x)
    ∧ (∀ n, sget 0 m.vrf n = if n / 32 ∈ regs then 0 else sget 0 k.vrf n) ∧ m.acc = [] ∧ m.arch = k.arch := by
  intro m
  obtain ⟨y, hm⟩ := clearUnits_eq ((k.loadStreams sc ld cp st).loadArea area spneed data) regs
  have hspad : m.spad = memPutBytes (memClear k.spad area (area + spneed)) area data := congrArg Core.spad hm
  have hvrf : m.vrf = k.vrf.filter (fun p => !regs.contains (p.1 / 32)) := congrArg Core.vrf hm
  have hsc : m.imSc = memPutBytes [] 0 sc := congrArg Core.imSc hm
  have hld : m.imLd = memPutBytes [] 0 ld := congrArg Core.imLd hm
  have hcp : m.imCp = memPutBytes [] 0 cp := congrArg Core.imCp hm
  have hst : m.imSt = memPutBytes [] 0 st := congrArg Core.imSt hm
  have harch : m.arch = k.arch := (congrArg Core.arch hm).trans rfl
  refine ⟨hsc ▸ memByte_stream sc, hld ▸ memByte_stream ld, hcp ▸ memByte_stream cp, hst ▸ memByte_stream st, fun hlen x => ?_, fun n => ?_, rfl, harch⟩
  · rw [hspad, memByte_memPutBytes (memClear_wf hwf _ _), memByte_memClear]
    by_cases hin : area ≤ x ∧ x < area + spneed
    · by_cases hd : x < area + data.length
      · rw [if_pos ⟨hin.1, hd⟩, if_pos hin]
      · rw [if_neg (by omega), if_pos hin, if_pos hin, List.getD_eq_default _ _ (by omega)]
    · rw [if_neg (by omega), if_neg hin, if_neg hin]
  · rw [hvrf, sget_filter 0 (fun n => !regs.contains (n / 32))]
    by_cases hn : n / 32 ∈ regs <;> simp [hn]

/-- A core once point 0 is loaded on it. -/
def loadedCore (r : Running) (sc ld cp st data rings : List Byte) (k : Core) : Core :=
  let m := ((k.loadStreams sc ld cp st).loadArea r.area r.spneed data).clearUnits r.regs
  { m with arch := { m.arch with
      csrs := m.arch.csrs.atLaunch, seqs := { rings := ringTable r.area r.spneed rings, arrivals := m.arch.seqs.arrivals }
      run := some { r with loaded := true, ring0 := ringTable r.area r.spneed rings } } }

theorem loadCore_eq (r : Running) (sc ld cp st data rings : List Byte) (hp : (s.arch c).parked = []) :
    loadCore s c r [sc, ld, cp, st, data, rings] = s.modCore c (loadedCore r sc ld cp st data rings) := by
  rw [loadCore, lazySave_nothing hp]
  rfl

/-! ## OVERLAY_LOAD -/

section
variable (hr : s.run c = some r) (hl : s.launch r.launch = some l)
include hr hl

theorem overlayLoad_rests (h : r.loaded = true ∨ coreLive s c = false) : exec (.overlayLoad c) s = .next s := by
  show execOverlayLoad c s = _
  simp only [execOverlayLoad, hr, hl]
  exact if_pos (by simpa using h)

variable (hn : r.loaded = false) (hv : coreLive s c = true)
include hn hv

theorem overlayLoad_fails {f : FaultInfo} (hread : readOverlays s l.held (overlayRoom r.spneed) [] = (t, .error f)) :
    exec (.overlayLoad c) s = .next (loadFailed t l f) := by
  show execOverlayLoad c s = _
  simp only [execOverlayLoad, hr, hl, hread]
  exact if_neg (by simp [hn, hv])

theorem overlayLoad_loads {bs : List (List Byte)} (hread : readOverlays s l.held (overlayRoom r.spneed) [] = (t, .ok bs)) :
    exec (.overlayLoad c) s = .next (loadedAll (loadCore t c r bs) r.launch) := by
  show execOverlayLoad c s = _
  simp only [execOverlayLoad, hr, hl, hread]
  exact if_neg (by simp [hn, hv])

end

theorem loadFailed_queue (f : FaultInfo) (hs : l.src = .queue q) : loadFailed t l f = killLaunch (haltRecord t q 8 l.held) l.id := by
  simp only [loadFailed, hs]

theorem loadFailed_step (f : FaultInfo) {d j : ℕ} (hs : l.src = .pool d) (hj : l.held.step = some j) : loadFailed t l f =
    stepFailed (writeNow (killLaunch t l.id) d l.held.tctx (l.held.body.args.toNat + 20) (natBytes 1 8)).1 d 8 := by
  simp only [loadFailed, hs, hj]

theorem loadFailed_pool (f : FaultInfo) {d : ℕ} (hs : l.src = .pool d) (hj : l.held.step = none) : loadFailed t l f =
    killLaunch (writeRecord t (lowestCore l) f.isw f.faddr 0 7 0 0 t.now) l.id := by
  simp only [loadFailed, hs, hj]

/-! ## A launch that is loaded on all its cores -/

/-- The core runs the launch, loaded. -/
def LoadedOn (s : State) (id : ℕ) (p : Placement) : Prop := ∃ x, s.run p.core = some x ∧ x.launch = id ∧ x.loaded = true

theorem passRecord_launches (s : State) (l : Launch) : (passRecord s l).hub.launches = s.hub.launches := by
  unfold passRecord
  split
  · split
    · split_ifs <;> rfl
    · rfl
  · rfl

theorem passRecord_queue {h : HeldRec} (hs : l.src = .queue q) (hh : (s.wq q).held = some h) (hid : h.id = l.id) (hp : (s.wq q).placing = true) :
    passRecord s l = passHead s q := by
  simp only [passRecord, hs, hh]
  exact if_pos ⟨hid, hp⟩

theorem wq_passHead (s : State) (q : ℕ) : (passHead s q).wq q = ({ s.wq q with head := (s.wq q).head + 1, held := none, placing := false } : WorkQueue).settle :=
  wq_modWq s q _

theorem loadedAll_eq {id : ℕ} (hl : s.launch id = some l) (hn : l.loadedAll = false) (hall : ∀ p ∈ l.cohort, LoadedOn s id p) :
    loadedAll s id = passRecord (s.modLaunch id (fun l => { l with loadedAll := true })) l := by
  simp only [loadedAll, hl]
  refine if_neg ?_
  rw [hn, Bool.false_or, Bool.not_eq_true', Bool.not_eq_false]
  refine List.all_eq_true.2 fun p hp => ?_
  obtain ⟨x, hx, hxl, hxd⟩ := hall p hp
  simp [hx, hxl, hxd]

theorem loadedAll_spec {id : ℕ} (hl : s.launch id = some l) (hn : l.loadedAll = false) (hall : ∀ p ∈ l.cohort, LoadedOn s id p) :
    (loadedAll s id).launch id = some { l with loadedAll := true }
    ∧ ∀ q h, l.src = .queue q → (s.wq q).held = some h → h.id = id → (s.wq q).placing = true →
        (loadedAll s id).wq q = ({ s.wq q with head := (s.wq q).head + 1, held := none, placing := false } : WorkQueue).settle := by
  rw [loadedAll_eq hl hn hall]
  refine ⟨?_, fun q h hs hh hid hp => ?_⟩
  · rw [State.launch, passRecord_launches]
    exact launch_modLaunch (fun _ => rfl) hl
  · rw [passRecord_queue (s := s.modLaunch id _) hs hh (hid.trans (launch_id hl).symm) hp]
    exact wq_passHead _ q

theorem gangReady_iff (hl : s.launch r.launch = some l) : gangReady s c r = true ↔ l.loadedAll = true ∧ ∀ p ∈ l.cohort, clusterOf p.core = clusterOf c →
    p.core ∈ l.completed ∨ ∃ x, s.run p.core = some x ∧ x.launch = r.launch ∧ x.loaded = true ∧ r.t ≤ x.t := by
  have hcore (p : Placement) : loadedFor s r.launch p.core r.t = true
      ↔ p.core ∈ l.completed ∨ ∃ x, s.run p.core = some x ∧ x.launch = r.launch ∧ x.loaded = true ∧ r.t ≤ x.t := by
    unfold loadedFor
    cases s.run p.core with
    | none => simp [hl]
    | some x => simp [hl, and_assoc, or_comm]
  simp [gangReady, hl, hcore, imp_iff_not_or]

end Sys2Proof.Machine
end

section
/-! The start of a point (04 R66, R67, 02 R34): what a core's contexts, engines and queues hold then. -/

namespace Sys2Proof.Machine

variable {s t : State} {c k q : ℕ} {r : Running} {l : Launch}

theorem sget_map {α β : Type} (f : α → β) (d : α) (l : Sparse α) (n : ℕ) : sget (f d) (l.map (fun p => (p.1, f p.2))) n = f (sget d l n) := by
  induction l with
  | nil => rfl
  | cons p l ih =>
    obtain ⟨k, v⟩ := p
    by_cases h : k = n
    · simp [sget, h]
    · simpa [sget, h] using ih

/-- Contexts that are given their phases. -/
theorem sget_foldl_phases (ph : Sparse Bool) (ks : List ℕ) (l : Sparse Ctx) (j : ℕ) :
    sget {} (ks.foldl (fun l k => sset l k { (sget {} l k) with phases := ph }) l) j
      = if j ∈ ks then { (sget {} l j) with phases := ph } else sget {} l j := by
  induction ks generalizing l with
  | nil => rfl
  | cons k ks ih =>
    rw [List.foldl_cons, ih]
    by_cases hj : j = k
    · subst hj
      simp
    · simp [sget_sset_ne, hj]

/-- A context at the start of a point, but for its phases: context 0 is set up, and of another the flag is cleared. -/
def startedCtx (runs : Bool) (x : Word × Word × Word) (pos rec_ : Word) (k : ℕ) (t : Ctx) : Ctx :=
  if k = 0 then t.atPoint runs x.1 x.2.1 x.2.2 pos rec_ else { t with flag := false }

theorem atPoint_ctx (p : Seqs) (runs : Bool) (x : Word × Word × Word) (pos rec_ : Word) (rings : Sparse Ring) (k : ℕ) :
    sget {} (p.atPoint runs x pos rec_ rings).ctxs k = if k ∈ [0, 1, 2, 3] then { startedCtx runs x pos rec_ k (sget {} p.ctxs k) with phases := p.phasesNow }
      else startedCtx runs x pos rec_ k (sget {} p.ctxs k) := by
  have hbase : sget {} (sset (p.ctxs.map (fun p => (p.1, { p.2 with flag := false }))) 0 ((sget {} p.ctxs 0).atPoint runs x.1 x.2.1 x.2.2 pos rec_)) k
      = startedCtx runs x pos rec_ k (sget {} p.ctxs k) := by
    rw [sget_sset, startedCtx]
    by_cases hk : k = 0
    · rw [if_pos hk, if_pos hk, hk]
    · rw [if_neg hk, if_neg hk]
      exact sget_map (fun t : Ctx => { t with flag := false }) {} p.ctxs k
  rw [Seqs.atPoint, sget_foldl_phases, hbase]

/-! ## POINT_START -/

/-- The small state of a core at the start of a point. -/
def startedArch (l : Launch) (c : ℕ) (r : Running) (a : Arch) : Arch :=
  { a with
    seqs := a.seqs.atPoint ((r.held.hdr.overlay 0).2 != 0) (launchRegs l c r) (porchPos r.t r.d r.c) a.csrs.recAddr r.ring0
    csrs := { a.csrs with pos := porchPos r.t r.d r.c, hkz := 0 }
    run := some { r with ready := true, started := false, jcount := 0 } }

section
variable (hr : s.run c = some r) (hl : s.launch r.launch = some l)
include hr hl

theorem pointStart_eq : exec (.pointStart c) s =
    if !r.loaded || r.ready || !coreLive s c || !gangReady s c r then .next s else .next (s.modArch c (startedArch l c r)) := by
  show execPointStart c s = _
  simp only [execPointStart, hr, hl]
  rfl

theorem pointStart_rests (h : r.loaded = false ∨ r.ready = true ∨ coreLive s c = false ∨ gangReady s c r = false) : exec (.pointStart c) s = .next s := by
  rw [pointStart_eq hr hl]
  exact if_pos (by simpa [or_assoc] using h)

theorem pointStart_starts (hn : r.loaded = true) (hy : r.ready = false) (hv : coreLive s c = true) (hg : gangReady s c r = true) :
    exec (.pointStart c) s = .next (s.modArch c (startedArch l c r)) := by
  rw [pointStart_eq hr hl]
  exact if_neg (by simp [hn, hy, hv, hg])

end

section
variable (ht : t = s.modArch c (startedArch l c r))
include ht

theorem arch_started : t.arch c = startedArch l c r (s.arch c) := by
  rw [ht]
  exact arch_modArch s c _

theorem seqs_started : t.seqs c = (s.seqs c).atPoint ((r.held.hdr.overlay 0).2 != 0) (launchRegs l c r) (porchPos r.t r.d r.c) (s.arch c).csrs.recAddr r.ring0 :=
  congrArg Arch.seqs (arch_started ht)

theorem ctx_started (k : ℕ) :
    let base := startedCtx ((r.held.hdr.overlay 0).2 != 0) (launchRegs l c r) (porchPos r.t r.d r.c) (s.arch c).csrs.recAddr k (s.ctx c k)
    t.ctx c k = if k ∈ [0, 1, 2, 3] then { base with phases := (s.seqs c).phasesNow } else base := by
  intro base
  rw [State.ctx, seqs_started ht, atPoint_ctx]
  rfl

theorem ctx_zero_started : t.ctx c 0 = { (s.ctx c 0).atPoint ((r.held.hdr.overlay 0).2 != 0) (launchRegs l c r).1 (launchRegs l c r).2.1
    (launchRegs l c r).2.2 (porchPos r.t r.d r.c) (s.arch c).csrs.recAddr with phases := (s.seqs c).phasesNow } := by
  rw [ctx_started ht]
  rfl

theorem regs_started : (t.ctx c 0).x 1 = (launchRegs l c r).1 ∧ (t.ctx c 0).x 2 = (launchRegs l c r).2.1 ∧ (t.ctx c 0).x 3 = (launchRegs l c r).2.2
    ∧ (t.ctx c 0).x 4 = porchPos r.t r.d r.c ∧ (t.ctx c 0).x 5 = (s.arch c).csrs.recAddr ∧ ∀ n, 6 ≤ n → (t.ctx c 0).x n = 0 := by
  rw [ctx_zero_started ht]
  refine ⟨rfl, rfl, rfl, rfl, rfl, fun n hn => ?_⟩
  have hregs (k : ℕ) (hk : k < 6) : k ≠ n := by omega
  simp [Ctx.x, Ctx.atPoint, sget_cons, hregs, show n ≠ 0 by omega]

theorem flag_started (k : ℕ) : (t.ctx c k).flag = false := by
  rw [ctx_started ht, startedCtx]
  split_ifs <;> rfl

theorem phases_started (k b : ℕ) (hk : k < 4) : sget false (t.ctx c k).phases b = (s.bar c b).phase := by
  rw [ctx_started ht, if_pos (by simp; omega)]
  exact sget_map Barrier.phase {} (s.seqs c).bars b

theorem tok_started (q : ℕ) : t.tok c q = { s.tok c q with count := 0 } := by
  rw [State.tok, seqs_started ht]
  exact sget_map (fun p : TokQ => { p with count := 0 }) {} (s.seqs c).toks q

theorem eng_started {e : Eng} (he : e ≠ .cp) :
    t.eng c e = (s.eng c e).atPoint (launchRegs l c r).1 (launchRegs l c r).2.1 (launchRegs l c r).2.2 (porchPos r.t r.d r.c) := by
  cases e with
  | cp => exact absurd rfl he
  | ld => exact congrArg Seqs.ld (seqs_started ht)
  | st => exact congrArg Seqs.st (seqs_started ht)

end

end Sys2Proof.Machine
end

section
/-! The end of a point and of a launch, and the resumption of a parked launch (04 R63, 05 R89, R93). -/

namespace Sys2Proof.Machine

variable {s t u : State} {c d q id : ℕ} {r : Running} {l : Launch}

/-! ## A core that is free of its launch -/

theorem leaveRings_frame (s : State) (c : ℕ) : (leaveRings s c).hub = s.hub ∧ (leaveRings s c).clusters = s.clusters ∧ SameMemory s (leaveRings s c) := by
  unfold leaveRings
  induction List.range 8 generalizing s with
  | nil => exact ⟨rfl, rfl, sameMemory_refl s⟩
  | cons i is ih =>
    obtain ⟨hhub, hcl, hmem⟩ := ih (s.modSeqs (clusterOf c * 8 + i) (fun q => { q with
      rings := q.rings.map (fun p => (p.1, { p.2 with arrived := p.2.arrived.filter (fun a => a.1 != c) })) }))
    exact ⟨hhub, hcl, sameMemory_trans (sameMemory_modSeqs s _ _) hmem⟩

theorem giveBlocks_pantry (s : State) (c n : ℕ) : ((giveBlocks s c n).cluster (clusterOf c)).pantry = (s.cluster (clusterOf c)).pantry + n :=
  congrArg Cluster.pantry (cluster_modCluster s (clusterOf c) (fun g => { g with pantry := g.pantry + n }))

theorem sameMemory_giveBlocks (s : State) (c n : ℕ) : SameMemory s (giveBlocks s c n) := sameMemory_congr rfl rfl rfl rfl

/-- The small state of a core that is free of its launch. -/
def freedArch (a : Arch) : Arch := { a with run := none, yielded := [], seqs := {} }

theorem freeCore_eq (s : State) (c : ℕ) :
    freeCore s c = dropInvalCmds ((giveBlocks (leaveRings (leaveWalks s c) c) c (blocksOf (s.seqs c))).modArch c freedArch) c := rfl

theorem freeCore_spec (s : State) (c : ℕ) : (freeCore s c).run c = none ∧ (freeCore s c).seqs c = {}
    ∧ ((freeCore s c).cluster (clusterOf c)).pantry = (s.cluster (clusterOf c)).pantry + blocksOf (s.seqs c)
    ∧ (freeCore s c).hub = s.hub ∧ SameMemory s (freeCore s c) := by
  obtain ⟨hhub, hcl, hmem⟩ := leaveRings_frame (leaveWalks s c) c
  rw [freeCore_eq]
  generalize leaveRings (leaveWalks s c) c = v at hhub hcl hmem
  generalize hn : blocksOf (s.seqs c) = n
  have harch : (dropInvalCmds ((giveBlocks v c n).modArch c freedArch) c).arch c = freedArch ((giveBlocks v c n).arch c) := arch_modArch (giveBlocks v c n) c freedArch
  refine ⟨congrArg Arch.run harch, congrArg Arch.seqs harch, ?_, hhub, ?_⟩
  · have hv : v.cluster (clusterOf c) = s.cluster (clusterOf c) := by rw [State.cluster, hcl]; rfl
    rw [← hv]
    exact giveBlocks_pantry v c n
  · have hwalks : SameMemory s (leaveWalks s c) := sameMemory_congr rfl rfl rfl rfl
    have hcmds (u : State) : SameMemory u (dropInvalCmds u c) := sameMemory_congr rfl rfl rfl rfl
    exact sameMemory_trans (sameMemory_trans (sameMemory_trans (sameMemory_trans hwalks hmem) (sameMemory_giveBlocks v c n)) (sameMemory_modArch _ c _)) (hcmds _)

/-! ## A launch that is over -/

theorem passRecord_frame (s : State) (l : Launch) : OnlyHub s (passRecord s l) ∧ (passRecord s l).hub.keys = s.hub.keys := by
  unfold passRecord
  split
  · split
    · split_ifs
      · exact ⟨onlyHub_modWq s _ _, rfl⟩
      · exact ⟨rfl, rfl⟩
    · exact ⟨rfl, rfl⟩
  · exact ⟨rfl, rfl⟩

theorem dropLaunch_spec (s : State) (id : ℕ) : (dropLaunch s id).launch id = none
    ∧ (∀ p ∈ (dropLaunch s id).hub.holders, p.2 ≠ id) ∧ ∀ o ∈ (dropLaunch s id).hub.owners, o.2 ≠ id := by
  refine ⟨?_, fun p hp => ?_, fun o ho => ?_⟩
  · exact List.find?_eq_none.2 fun l hl => by simpa using (List.mem_filter.1 hl).2
  · simpa using (List.mem_filter.1 hp).2
  · simpa using (List.mem_filter.1 ho).2

theorem dropLaunch_frame (s : State) (id : ℕ) : OnlyHub s (dropLaunch s id) ∧ (dropLaunch s id).hub.keys = s.hub.keys := by
  unfold dropLaunch
  split
  next l _ =>
    obtain ⟨honly, hkeys⟩ := passRecord_frame s l
    exact ⟨onlyHub_trans honly rfl, hkeys⟩
  · exact ⟨rfl, rfl⟩

theorem launchOver_eq (hl : s.launch id = some l) :
    launchOver s id = if l.cohort.all (fun p => l.completed.contains p.core) then dropLaunch s id else s := by
  simp only [launchOver, hl]

theorem launchOver_frame (s : State) (id : ℕ) : OnlyHub s (launchOver s id) ∧ (launchOver s id).hub.keys = s.hub.keys := by
  unfold launchOver
  split
  · split_ifs
    · exact dropLaunch_frame s id
    · exact ⟨rfl, rfl⟩
  · exact ⟨rfl, rfl⟩

/-! ## POINT_COMPLETE -/

section
variable (hr : s.run c = some r)
include hr

theorem pointComplete_rests (h : r.ready = false ∨ coreLive s c = false ∨ pointOver s c = false) : exec (.pointComplete c) s = .next s := by
  show execPointComplete c s = _
  simp only [execPointComplete, hr]
  exact if_pos (by simpa [or_assoc] using h)

variable (hy : r.ready = true) (hv : coreLive s c = true) (ho : pointOver s c = true)
include hy hv ho

theorem pointComplete_next (ht : r.t + 1 < r.held.body.t) : exec (.pointComplete c) s = .next ((giveBlocks s c (blocksOf (s.seqs c))).modArch c (fun a => { a with
    seqs := a.seqs.shrink, run := some { r with t := r.t + 1, ready := false, started := false } })) := by
  show execPointComplete c s = _
  simp only [execPointComplete, hr, hy, hv, ho]
  exact if_pos ht

theorem pointComplete_last (ht : r.held.body.t ≤ r.t + 1) :
    exec (.pointComplete c) s = .next (launchOver (freeCore (s.modLaunch r.launch (fun l => { l with completed := insertNat l.completed c })) c) r.launch) := by
  show execPointComplete c s = _
  simp only [execPointComplete, hr, hy, hv, ho]
  exact if_neg (Nat.not_lt.2 ht)

end

/-- A core between two points of its launch. -/
theorem nextPoint_spec (s : State) (c n : ℕ) (r : Running) :
    let t := (giveBlocks s c n).modArch c (fun a => { a with seqs := a.seqs.shrink, run := some r })
    t.run c = some r ∧ t.seqs c = (s.seqs c).shrink ∧ (t.cluster (clusterOf c)).pantry = (s.cluster (clusterOf c)).pantry + n ∧ SameMemory s t := by
  have harch := arch_modArch (giveBlocks s c n) c (fun a => { a with seqs := a.seqs.shrink, run := some r })
  exact ⟨congrArg Arch.run harch, congrArg Arch.seqs harch, giveBlocks_pantry s c n, sameMemory_trans (sameMemory_giveBlocks s c n) (sameMemory_modArch _ c _)⟩

/-- A core at the end of the last point of its launch. -/
theorem lastPoint_spec (hl : s.launch id = some l) :
    let t := launchOver (freeCore (s.modLaunch id (fun l => { l with completed := insertNat l.completed c })) c) id
    t.run c = none ∧ t.seqs c = {} ∧ (t.cluster (clusterOf c)).pantry = (s.cluster (clusterOf c)).pantry + blocksOf (s.seqs c)
    ∧ ((∀ p ∈ l.cohort, p.core = c ∨ p.core ∈ l.completed) → t.launch id = none ∧ (∀ p ∈ t.hub.holders, p.2 ≠ id)
        ∧ (∀ o ∈ t.hub.owners, o.2 ≠ id))
    ∧ ((∃ p ∈ l.cohort, p.core ≠ c ∧ p.core ∉ l.completed) →
        ∃ done, t.launch id = some { l with completed := done } ∧ ∀ x, x ∈ done ↔ x = c ∨ x ∈ l.completed)
    ∧ SameMemory s t := by
  obtain ⟨hrun, hseqs, hpantry, hhub, hmem⟩ := freeCore_spec (s.modLaunch id (fun l => { l with completed := insertNat l.completed c })) c
  generalize freeCore (s.modLaunch id (fun l => { l with completed := insertNat l.completed c })) c = u at hrun hseqs hpantry hhub hmem
  have hul : u.launch id = some { l with completed := insertNat l.completed c } := by
    rw [State.launch, hhub]
    exact launch_modLaunch (fun _ => rfl) hl
  have hmark : SameMemory s (s.modLaunch id (fun l => { l with completed := insertNat l.completed c })) := sameMemory_congr rfl rfl rfl rfl
  obtain ⟨honly, hkeys⟩ := launchOver_frame u id
  have hall : (l.cohort.all (fun p => (insertNat l.completed c).contains p.core)) = true ↔ ∀ p ∈ l.cohort, p.core = c ∨ p.core ∈ l.completed := by
    simp [mem_insertNat, or_comm]
  intro t
  have ht : t = u.modHub (fun _ => t.hub) := honly
  refine ⟨?_, ?_, ?_, fun hdone => ?_, fun hleft => ?_, sameMemory_trans (sameMemory_trans hmark hmem) ?_⟩
  · rw [ht]
    exact hrun
  · rw [ht]
    exact hseqs
  · rw [ht]
    exact hpantry
  · rw [show t = _ from launchOver_eq hul, if_pos (hall.2 hdone)]
    exact dropLaunch_spec u id
  · rw [show t = _ from launchOver_eq hul, if_neg fun h => by
      obtain ⟨p, hp, hc, hn⟩ := hleft
      exact (hall.1 h p hp).elim hc hn]
    exact ⟨_, hul, fun x => mem_insertNat.trans or_comm⟩
  · exact sameMemory_congr (by rw [ht]; rfl) (by rw [ht]; rfl) (by rw [ht]; rfl) hkeys

/-! ## LAUNCH_RESUME -/

section
variable {wheel : List (ℕ × ℕ)} (hl : s.launch id = some l)
include hl

theorem launchResume_rests (h : canResume s l = false) : exec (.launchResume id wheel) s = .next s := by
  show execLaunchResume id wheel s = _
  simp only [execLaunchResume, hl]
  exact if_pos (by simp [h])

variable (h : canResume s l = true) (hc : chosenOf s = none) (hw : l.held.hdr.wheel = 0)
include h hc hw

theorem launchResume_resumes (hu : unparkCores s id (sget 0 wheel) (coresLeft l) = (u, none)) :
    exec (.launchResume id wheel) s = .next (u.modLaunch id (fun l => { l with parked := false })) := by
  show execLaunchResume id wheel s = _
  simp only [execLaunchResume, hl, hc, hw]
  rw [if_neg (by simp [h])]
  rw [show (fun c => sget 0 wheel c) = sget 0 wheel from rfl, hu]

theorem launchResume_fails {f : FaultInfo} (hu : unparkCores s id (sget 0 wheel) (coresLeft l) = (u, some f)) :
    exec (.launchResume id wheel) s = .next (killLaunch (writeRecord u (lowestCore l) f.isw f.faddr 0 7 0 0 u.now) id) := by
  show execLaunchResume id wheel s = _
  simp only [execLaunchResume, hl, hc, hw]
  rw [if_neg (by simp [h])]
  rw [show (fun c => sget 0 wheel c) = sget 0 wheel from rfl, hu]

end

end Sys2Proof.Machine
end

section
open Sys2Proof.Machine in
/-- Settles O49: the cohorts that can host a record are those of `cohortOk_iff`, and `placeRecord_spec` says what a placement leaves; the launch that gives way is the first of `victimOf_spec`, and its cores stop as `settleLeaving_leaves` says; the steps of the loader, of a point and of a launch are `loaded_spec`, the facts about `startedArch`, `nextPoint_spec` and `lastPoint_spec`. -/
theorem placementAndPoints : Obligations.PlacementAndPoints := by
  unfold Obligations.PlacementAndPoints
  intro s c id src cohort wheel
  refine ⟨fun hc => ⟨recordPlace_none hc, preempt_none hc⟩, fun h hc => cohortOk_iff hc, fun pos level h hc => ?chosen, fun r l hr hl => ?loading,
    fun r hr => ?completion, fun l hl => launchResume_rests hl,
    fun l hl h hc hw => ⟨fun u => launchResume_resumes hl h hc hw, fun u f => launchResume_fails hl h hc hw⟩⟩
  case chosen =>
    refine ⟨fun hb hn hp ho hf => ?place, recordPlace_rests hc, fun l hv hl hid hn hno hroom => ?preempt, fun l => victimOk_iff, coreCandidate_iff,
      fun l => victimOf_spec, preempt_rests hc⟩
    case place =>
      obtain ⟨hplaced, hother, hlaunches, howners, hlast, hchosen, hqueue, hpool, hmem⟩ := placeRecord_spec s src level h cohort (cohortOk_nodup ho)
      refine ⟨_, (recordPlace_eq hc).trans (if_pos ⟨hb, hn, hp, ho, hf⟩), fun i p hi => ?_, hother, hlaunches, howners, hlast.trans hp, hchosen, hqueue,
        hpool, hmem⟩
      have harch := hplaced i p hi
      refine ⟨congrArg Arch.run harch, (congrArg Arch.csrs harch).trans ?_⟩
      simp [placedArch, porchPos]
    case preempt =>
      rw [hid] at hl
      have hstep := preempt_eq hc hv hid hn hno hroom
      rw [preempt_settles hv hl] at hstep
      refine ⟨fun hheld => hstep.trans (congrArg _ (if_pos (List.any_eq_true.2 hheld))), fun hheld => ⟨_, hstep.trans (congrArg _ (if_neg ?_)), _, rfl, rfl⟩⟩
      rw [Bool.not_eq_true, List.any_eq_false]
      exact fun c hc => Bool.not_eq_true _ ▸ hheld c hc
  case loading =>
    refine ⟨overlayLoad_rests hr hl, fun hn hv => ⟨fun t f hread => ?failed, fun t bs => overlayLoad_loads hr hl hn hv⟩,
      fun sc ld cp st data rings t ht hp hwf => ?loaded,
      fun v hv hn hall => hv ▸ loadedAll_spec hl hn hall, gangReady_iff hl, pointStart_rests hr hl, fun hn hy hv hg => ?started⟩
    case failed =>
      rw [overlayLoad_fails hr hl hn hv hread]
      exact ⟨fun q hs => congrArg _ (loadFailed_queue f hs),
        fun d j hs hj => congrArg _ (loadFailed_step f hs hj), fun d hs hj => congrArg _ (loadFailed_pool f hs hj)⟩
    case loaded =>
      rw [loadCore_eq r sc ld cp st data rings hp] at ht
      have hcore : t.core c = loadedCore r sc ld cp st data rings (s.core c) := ht ▸ core_modCore s c _
      obtain ⟨hsc, hld, hcp, hst, hspad, hvrf, hacc, harch⟩ := loaded_spec (s.core c) r.regs r.area r.spneed sc ld cp st data hwf
      rw [State.run, State.seqs, State.arch, hcore]
      refine ⟨hsc, hld, hcp, hst, hspad, hvrf, hacc, ⟨rfl, ?_⟩, ?_, ht ▸ onlyCore_modCore s c _⟩
      · simp only [loadedCore, harch]
        rfl
      · simp only [loadedCore, harch]
        rfl
    case started =>
      refine ⟨_, pointStart_starts hr hl hn hy hv hg, ?_⟩
      generalize ht : s.modArch c (startedArch l c r) = t
      replace ht := ht.symm
      obtain ⟨hx1, hx2, hx3, hx4, hx5, hx⟩ := regs_started ht
      refine ⟨congrArg Arch.run (arch_started ht), congrArg Arch.csrs (arch_started ht), congrArg Ctx.pc (ctx_zero_started ht), ?_, hx1, hx2, hx3, hx4, hx5, hx,
        flag_started ht, phases_started ht, congrArg (fun q => q.cp.pc) (seqs_started ht), fun q => ?_, congrArg Seqs.fq (seqs_started ht),
        congrArg Seqs.rings (seqs_started ht), fun e he => ?_, ht ▸ onlyCore_modArch s c _, ht ▸ sameMemory_modArch s c _⟩
      · refine (congrArg Ctx.status (ctx_zero_started ht)).trans ?_
        simp [Ctx.atPoint]
      · rw [tok_started ht]
        exact ⟨rfl, rfl⟩
      · rw [eng_started ht he]
        exact ⟨rfl, rfl, rfl, rfl, rfl, rfl, rfl, rfl⟩
  case completion =>
    refine ⟨pointComplete_rests hr, fun hy hv ho ht => ?next, fun l hy hv ho ht hl => ⟨_, pointComplete_last hr hy hv ho ht, lastPoint_spec hl⟩⟩
    obtain ⟨hrun, hseqs, hpantry, hmem⟩ := nextPoint_spec s c (blocksOf (s.seqs c)) { r with t := r.t + 1, ready := false, started := false }
    exact ⟨_, pointComplete_next hr hy hv ho ht, hrun, congrArg Seqs.fqCap hseqs, congrArg (fun q => q.ld.cap) hseqs, congrArg (fun q => q.st.cap) hseqs,
      congrArg (fun q => q.cp.mqCap) hseqs, hpantry, hmem⟩

end

section
/-! SC accesses at their homes (06 R104, 12 R181, R183, R189): what a load, a store, an atomic and LNTW leave, and the new values of the atomics. -/

namespace Sys2Proof.Machine

variable {s t u v : State} {a : Access} {i : ℕ} {n : ℕ}

/-! ## A read corrects what the ECC can (25 R353) -/

/-- What a word that the ECC corrects changes: the count of its die, and its mark. -/
def wordCorrected (s : State) (g : ℕ) : State := { (s.modDie (g / 2 ^ 33) (fun d => { d with hbmc := satInc d.hbmc })) with hbmSoft := s.hbmSoft.erase g }

theorem corrected_slice (s : State) (c off n : ℕ) : corrected s (.slice c off) n = s := rfl

theorem corrected_hbm (s : State) (pa key n : ℕ) :
    corrected s (.hbm pa key) n = (s.hbmSoft.filter (fun g => decide (g * 32 < pa + n) && decide (pa < g * 32 + 32))).foldl wordCorrected s := rfl

/-- A correction changes the counts of dies and the marks of what it corrects. -/
theorem corrected_frame (s : State) (l : Loc) (n : ℕ) : ∃ dies soft, corrected s l n = { s with dies := dies, hbmSoft := soft } := by
  have hfold (gs : List ℕ) (s : State) : ∃ dies soft, gs.foldl wordCorrected s = { s with dies := dies, hbmSoft := soft } := by
    induction gs generalizing s with
    | nil => exact ⟨_, _, rfl⟩
    | cons g gs ih => exact ih (wordCorrected s g)
  cases l with
  | slice c off => exact ⟨_, _, rfl⟩
  | hbm pa key => exact hfold _ s

theorem corrected_keeps (s : State) (l : Loc) (n : ℕ) : SameMemory s (corrected s l n) ∧ ContextsKeep s (corrected s l n)
    ∧ (corrected s l n).accesses = s.accesses ∧ (corrected s l n).replies = s.replies ∧ (HomeWf s l → HomeWf (corrected s l n) l) := by
  obtain ⟨dies, soft, he⟩ := corrected_frame s l n
  rw [he]
  exact ⟨sameMemory_congr rfl rfl rfl rfl, contextsKeep_congr rfl, rfl, rfl, fun h => by cases l <;> exact h⟩

/-- A read of HBM in which one word can be corrected corrects it, and its die counts it. -/
theorem corrected_word {pa key : ℕ} (h : s.hbmSoft.filter (fun g => decide (g * 32 < pa + n) && decide (pa < g * 32 + 32)) = [pa / 32]) :
    pa / 32 ∉ (corrected s (.hbm pa key) n).hbmSoft
    ∧ (corrected s (.hbm pa key) n).die (pa / 2 ^ 38) = { s.die (pa / 2 ^ 38) with hbmc := satInc (s.die (pa / 2 ^ 38)).hbmc } := by
  have hin : pa / 32 ∈ s.hbmSoft.filter (fun g => decide (g * 32 < pa + n) && decide (pa < g * 32 + 32)) := by simp [h]
  have hone : s.hbmSoft.count (pa / 32) = 1 := by
    have hcount := List.count_filter (l := s.hbmSoft) (p := fun g => decide (g * 32 < pa + n) && decide (pa < g * 32 + 32)) (List.mem_filter.1 hin).2
    rw [h, List.count_singleton_self] at hcount
    exact hcount.symm
  have hdie : pa / 2 ^ 38 = pa / 32 / 2 ^ 33 := by rw [Nat.div_div_eq_div_mul]; norm_num
  rw [corrected_hbm, h, hdie]
  refine ⟨List.count_eq_zero.1 ?_, die_modDie s _ (fun d => { d with hbmc := satInc d.hbmc })⟩
  exact (List.count_erase_self ..).trans (by rw [hone])

/-! ## The step, by what the access does -/

/-- An access that can be performed is performed, and what is noted of arrivals at slices is all that is forgotten besides. -/
theorem exec_accessPerform_sc (h : Performable s i a) : ∃ x, exec (.accessPerform (.sc i)) s = .next (performAt { s with arrived := x } a) :=
  ⟨_, congrArg Host.Outcome.next ((scPerform_eq h).trans (by rw [leaveSlice_frame]))⟩

/-- The bytes that an atomic leaves at its home. -/
def atomicBytes (u : State) (a : Access) (op : AtomicOp) (w e : Word) : List Byte :=
  natBytes a.size (atomicNew op (8 * a.size) (bytesNat (u.locRead a.loc a.size)) (w.toNat % 2 ^ (8 * a.size)) (e.toNat % 2 ^ (8 * a.size)))

/-- The state in which an atomic has been performed, its reply apart. -/
def atomicDone (u : State) (a : Access) (op : AtomicOp) (w e : Word) : State :=
  noteWrite ((corrected (retireAccess u a) a.loc a.size).locWrite a.loc (atomicBytes u a op w e)) a

/-- The tables of the core of an LNTW, with the 64 bytes in the shadow copy of table n. -/
def shadowed (u : State) (a : Access) (n : ℕ) (q : Seqs) : Seqs :=
  { q with lnts := sset q.lnts n { sget {} q.lnts n with shadow := BitVec.ofNat 512 (bytesNat (u.locRead a.loc a.size)) } }

section
variable (hr : homeRefuse u a.tctx a.loc a.size a.va = none)
include hr

theorem performAt_load {sg : Bool} (ho : a.op = .load sg) (hp : u.locPoison a.loc a.size = false) :
    performAt u a = reply (corrected (retireAccess u a) a.loc a.size) a
      (if sg then BitVec.ofInt 64 (sextNat (8 * a.size) (bytesNat (u.locRead a.loc a.size))) else BitVec.ofNat 64 (bytesNat (u.locRead a.loc a.size))) none := by
  simp [performAt, hr, ho, hp]

theorem performAt_store {w : Word} (ho : a.op = .store w) : performAt u a = noteWrite ((retireAccess u a).locWrite a.loc (natBytes a.size w.toNat)) a := by
  simp [performAt, hr, ho]

theorem performAt_atomic {op : AtomicOp} {w e : Word} {ret : Bool} (ho : a.op = .atomic op w e ret) (hp : ret = true → u.locPoison a.loc a.size = false) :
    performAt u a = if ret then reply (atomicDone u a op w e) a (BitVec.ofNat 64 (bytesNat (u.locRead a.loc a.size))) none else atomicDone u a op w e := by
  have hpoison : (ret && u.locPoison a.loc a.size) = false := by cases ret <;> simp_all
  simp [performAt, hr, ho, hpoison, atomicDone, atomicBytes]

theorem performAt_lntw (ho : a.op = .lntw n) (hp : u.locPoison a.loc a.size = false) :
    performAt u a = reply ((retireAccess u a).modSeqs a.core (shadowed u a n)) a 0 none := by
  simp [performAt, hr, ho, hp]; rfl

end

/-! ## What it leaves -/

/-- A write of bytes at the home of an access, noted for PFENCE. -/
theorem noteWrite_locWrite_spec (h : HomeWf v a.loc) (bs : List Byte) :
    (noteWrite (v.locWrite a.loc bs) a).accesses = v.accesses ∧ (noteWrite (v.locWrite a.loc bs) a).replies = v.replies
    ∧ ContextsKeep v (noteWrite (v.locWrite a.loc bs) a) ∧ Stored v (noteWrite (v.locWrite a.loc bs) a) a.loc bs := by
  obtain ⟨hstored, hctx, hacc, hrep⟩ := locWrite_spec h bs
  obtain ⟨hmem, hnote, hacc', hrep'⟩ := noteWrite_spec (v.locWrite a.loc bs) a
  exact ⟨hacc'.trans hacc, hrep'.trans hrep, contextsKeep_trans hctx hnote, stored_of_same hstored hmem⟩

theorem atomicDone_spec (h : HomeWf u a.loc) (op : AtomicOp) (w e : Word) :
    (atomicDone u a op w e).accesses = u.accesses.filter (fun x => x.seq != a.seq) ∧ (atomicDone u a op w e).replies = u.replies
    ∧ ContextsKeep u (atomicDone u a op w e) ∧ Stored u (atomicDone u a op w e) a.loc (atomicBytes u a op w e) := by
  obtain ⟨hmem, hctx, hacc, hrep⟩ := retireAccess_spec u a
  obtain ⟨hmem', hctx', hacc', hrep', hwf⟩ := corrected_keeps (retireAccess u a) a.loc a.size
  obtain ⟨wacc, wrep, wctx, wstored⟩ := noteWrite_locWrite_spec (hwf (homeWf_retire h a)) (atomicBytes u a op w e)
  exact ⟨wacc.trans (hacc'.trans hacc), wrep.trans (hrep'.trans hrep), contextsKeep_trans hctx (contextsKeep_trans hctx' wctx),
    same_stored (sameMemory_trans hmem hmem') wstored⟩

/-- A change of a core that leaves its contexts alone keeps the contexts of all cores. -/
theorem contextsKeep_modSeqs {c : ℕ} {f : Seqs → Seqs} (h : (f (s.seqs c)).ctxs = (s.seqs c).ctxs) : ContextsKeep s (s.modSeqs c f) :=
  fun d k => by rw [ctx_modSeqs h]

/-- What the tables of an LNTW's core hold after it, and that nothing else changes. -/
theorem modSeqs_shadowed_spec (ht : t = v.modSeqs a.core (shadowed u a n)) :
    (∀ m, sget {} (t.seqs a.core).lnts m
      = if m = n then { sget {} (v.seqs a.core).lnts n with shadow := BitVec.ofNat 512 (bytesNat (u.locRead a.loc a.size)) } else sget {} (v.seqs a.core).lnts m)
    ∧ t.arch a.core = { v.arch a.core with seqs := { v.seqs a.core with lnts := (t.seqs a.core).lnts } }
    ∧ SameMemory v t ∧ ContextsKeep v t ∧ ∀ d, d ≠ a.core → t.core d = v.core d := by
  have hseqs : t.seqs a.core = shadowed u a n (v.seqs a.core) := by rw [ht, seqs_modSeqs]
  refine ⟨fun m => ?_, ?_, ht ▸ sameMemory_modSeqs .., ht ▸ contextsKeep_modSeqs rfl, fun d hd => by rw [ht]; exact core_modCore_ne _ _ _ _ hd⟩
  · rw [hseqs]; exact sget_sset ..
  · rw [hseqs, ht]; exact arch_modArch ..

/-! ## The new values of the atomics (12 R183) -/

theorem atomicNew_extremes {n o v : ℕ} (hn : n ≠ 0) (e : ℕ) :
    atomicNew .max n o v e = (if (BitVec.ofNat n o).toInt < (BitVec.ofNat n v).toInt then v else o)
    ∧ atomicNew .min n o v e = (if (BitVec.ofNat n v).toInt < (BitVec.ofNat n o).toInt then v else o)
    ∧ atomicNew .maxu n o v e = (if o < v then v else o) ∧ atomicNew .minu n o v e = (if v < o then v else o) := by
  have hn : 0 < n := Nat.pos_of_ne_zero hn
  refine ⟨?_, ?_, ?_, ?_⟩
  · simp only [atomicNew, sextNat_toInt _ _ hn]
  · simp only [atomicNew, sextNat_toInt _ _ hn]
  · simp only [atomicNew]; split <;> omega
  · simp only [atomicNew]; split <;> omega

end Sys2Proof.Machine

open Sys2Proof.Machine in
/-- Settles O7: the access that is performed is `exec_accessPerform_sc`'s, the lemmas `performAt_load`, `_store`, `_atomic` and `_lntw` say what its performance is, and what that leaves is said by
`corrected_frame` and `corrected_word` of a read, `retire_write_spec` and `atomicDone_spec` of a write, and `modSeqs_shadowed_spec` of a table. -/
theorem accessesPerform : Obligations.AccessesPerform := by
  intro s i a hperf hr old gone
  obtain ⟨x, hexec⟩ := exec_accessPerform_sc hperf
  let u : State := { s with arrived := x }
  have hsame : SameMemory s u := sameMemory_congr rfl rfl rfl rfl
  refine ⟨fun sg ho hp => ?load, fun w ho hwf => ?store, fun op w e ret ho hp hwf => ?atomic, fun n ho hp => ?lntw, fun n o v e hn _ _ _ => ?values⟩
  case load =>
    obtain ⟨dies, soft, he⟩ := corrected_frame (retireAccess u a) a.loc a.size
    refine ⟨_, hexec.trans (congrArg _ ((performAt_load (u := u) hr ho hp).trans (congrArg (fun z => reply z a _ none) he))), rfl, rfl, rfl,
      sameMemory_congr rfl rfl rfl rfl, contextsKeep_congr rfl, fun c off hl => ?_, fun pa key hl hsoft => ?_⟩
    · rw [hl, corrected_slice] at he
      exact ⟨(congrArg State.dies he).symm, (congrArg State.hbmSoft he).symm⟩
    · have hword := corrected_word (s := retireAccess u a) (key := key) hsoft
      rwa [← hl, he] at hword
  case store =>
    obtain ⟨hacc, hrep, hctx, hstored⟩ := retire_write_spec (s := u) hwf (natBytes a.size w.toNat)
    exact ⟨_, hexec.trans (congrArg _ (performAt_store (u := u) hr ho)), hacc, hrep, hctx, same_stored hsame hstored⟩
  case atomic =>
    obtain ⟨hacc, hrep, hctx, hstored⟩ := atomicDone_spec (u := u) hwf op w e
    refine ⟨_, hexec.trans (congrArg _ (performAt_atomic (u := u) hr ho hp)), ?_⟩
    cases ret
    · exact ⟨hacc, hrep, hctx, same_stored hsame hstored⟩
    · exact ⟨hacc, congrArg (· ++ _) hrep, hctx, same_stored hsame hstored⟩
  case lntw =>
    obtain ⟨htable, harch, hmem, hctx, hcore⟩ := modSeqs_shadowed_spec (v := retireAccess u a) (u := u) (a := a) (n := n) rfl
    exact ⟨_, hexec.trans (congrArg _ (performAt_lntw (u := u) hr ho hp)), rfl, rfl, htable, harch, sameMemory_trans hsame hmem,
      contextsKeep_trans (contextsKeep_congr rfl) hctx, rfl, hcore⟩
  case values =>
    obtain ⟨hmax, hmin, hmaxu, hminu⟩ := atomicNew_extremes (n := n) (o := o) (v := v) (by omega) e
    exact ⟨rfl, rfl, rfl, rfl, rfl, hmax, hmin, hmaxu, hminu, rfl, rfl, rfl, rfl⟩
end

section
/-! Barriers (06 R108, 12 R198, R199): BARA and BARW, the arrivals that are at a barrier, and what one that is applied changes. -/

namespace Sys2Proof.Machine

variable {s u : State} {c d i k m n o q : ℕ} {p : BarArrival}

/-! ## BARA and BARW -/

/-- What BARA notes in its context: the phase, and its arrivals under the number of its issue. -/
def barred (s : State) (a n : ℕ) (t : Ctx) : Ctx := { t with
  phases := sset t.phases n (s.bar s.c n).phase
  barrivals := t.barrivals ++ (((List.range 8).filter (fun i => (s.x a).getLsbD i)).map (fun i => clusterOf s.c * 8 + i)).map (fun c => (s.seq, c, n)) }

theorem exec_bara (s : State) (a n : ℕ) : exec (.bara a n) s = .next (State.modMe { s with seq := s.seq + 1 } (barred s a n)).pass := rfl

theorem exec_barw_over (h : (s.bar s.c n).phase ≠ sget false s.me.phases n) :
    exec (.barw d n) s = .next ((s.modMe (fun t => { t with phases := sset t.phases n (s.bar s.c n).phase })).put d (if (s.bar s.c n).phase then 1 else 0)) := by
  show execBarw d n s = _
  simp only [execBarw]
  rw [if_pos (by simpa using h)]; rfl

/-- What a BARW that waits notes in its context: whether TARGET is 0, or has been since its wait began (23 R320). -/
def idleNoted (s : State) (n : ℕ) (t : Ctx) : Ctx := { t with barIdle := (s.bar s.c n).target == 0 || (s.me.wait == .barw n && s.me.barIdle) }

theorem exec_barw_waits (h : (s.bar s.c n).phase = sget false s.me.phases n) : exec (.barw d n) s = .next ((s.modMe (idleNoted s n)).block (.barw n)) := by
  show execBarw d n s = _
  simp only [execBarw]
  rw [if_neg (by simpa using h)]; rfl

/-- A word that changes its context and then waits. -/
theorem block_with (s : State) (f : Ctx → Ctx) (w : Wait) :
    ((s.modMe f).block w).me = { f s.me with wait := w, waitFrom := ((s.modMe f).block w).me.waitFrom }
    ∧ OnlyCtx s ((s.modMe f).block w) s.c s.k ∧ SameMemory s ((s.modMe f).block w) := by
  obtain ⟨hwait, -, hmem⟩ := block_waits (s.modMe f) w
  refine ⟨me_modMe s f ▸ hwait, ?_, sameMemory_trans (sameMemory_modMe s f) hmem⟩
  rw [State.block, modMe_modMe]; exact onlyCtx_modMe s _

/-! ## The arrivals that are at a barrier -/

theorem accessesPast_iff : accessesPast s o k q = true ↔ ∀ x ∈ ownAccesses s o k, q ≤ x.seq := by simp [accessesPast]

/-- An arrival of a BARA that is at its barrier: what is before it is performed, and neither its sender's core nor its own is gated. -/
def BaraArrived (s : State) (c : ℕ) (p : BarArrival) (k : ℕ) (e : ℕ × ℕ × ℕ) : Prop :=
  p.source = some (k, e) ∧ p.bar = e.2.2 ∧ e ∈ (s.ctx p.sender k).barrivals ∧ e.2.1 = c ∧ sliceUp s p.sender = true ∧ sliceUp s c = true ∧ accessesPast s p.sender k e.1 = true

theorem mem_readyArrivals : p ∈ readyArrivals s c ↔ clusterOf p.sender = clusterOf c ∧
    ((∃ k, k < 4 ∧ ∃ e, BaraArrived s c p k e) ∨ (p.source = none ∧ p.bar < 8 ∧ p.sender ∈ (s.bar c p.bar).queue)) := by
  simp only [readyArrivals, List.mem_flatMap, List.mem_append, List.mem_map, List.mem_filter, List.mem_range, Bool.and_eq_true, beq_iff_eq]
  constructor
  · rintro ⟨i, hi, ⟨k, hk, e, ⟨he, ⟨⟨hc, ho⟩, hu⟩, hp⟩, rfl⟩ | ⟨b, hb, x, ⟨hx, rfl⟩, rfl⟩⟩
    · have hk4 : k < 4 := by simp at hk; omega
      exact ⟨by simp only [clusterOf]; omega, .inl ⟨k, hk4, e, rfl, rfl, he, hc, ho, hu, hp⟩⟩
    · exact ⟨by simp only [clusterOf]; omega, .inr ⟨rfl, hb, hx⟩⟩
  · obtain ⟨o, b, source⟩ := p
    rintro ⟨hcl, h⟩
    have ho : clusterOf c * 8 + o % 8 = o := by simp only [clusterOf] at hcl ⊢; omega
    refine ⟨o % 8, Nat.mod_lt _ (by norm_num), ?_⟩
    rw [ho]
    rcases h with ⟨k, hk, e, rfl, rfl, he, hc, hso, hsc, hp⟩ | ⟨rfl, hb, hx⟩
    · have hk4 : k ∈ [0, 1, 2, 3] := by simp; omega
      exact .inl ⟨k, hk4, e, ⟨he, ⟨⟨hc, hso⟩, hsc⟩, hp⟩, rfl⟩
    · exact .inr ⟨b, hb, o, ⟨hx, rfl⟩, rfl⟩

/-! ## BARRIER_ARRIVAL -/

/-- No lower sender's arrival stands before the i-th at its barrier. -/
def LowestSender (s : State) (c i o m : ℕ) : Prop := ∀ p ∈ (readyArrivals s c).take i, p.bar = m → o ≤ p.sender

theorem barrierArrival_none (h : (readyArrivals s c)[i]? = none) : exec (.barrierArrival c i) s = .next s := by
  show execBarrierArrival c i s = _
  simp [execBarrierArrival, pickArrival, h]

theorem barrierArrival_behind (h : (readyArrivals s c)[i]? = some p) (hl : ¬ LowestSender s c i p.sender p.bar) : exec (.barrierArrival c i) s = .next s := by
  show execBarrierArrival c i s = _
  have hany : ((readyArrivals s c).take i).any (fun b => b.bar == p.bar && decide (b.sender < p.sender)) = true := by simpa [LowestSender] using hl
  simp only [execBarrierArrival, pickArrival, h, if_pos hany]

theorem barrierArrival_first (h : (readyArrivals s c)[i]? = some p) (hl : LowestSender s c i p.sender p.bar) :
    exec (.barrierArrival c i) s = .next (arrive (takeArrival s c p) c p.bar) := by
  show execBarrierArrival c i s = _
  have hany : ((readyArrivals s c).take i).any (fun b => b.bar == p.bar && decide (b.sender < p.sender)) = false := by simpa [LowestSender] using hl
  simp only [execBarrierArrival, pickArrival, h, hany]
  rfl

/-- Taking an arrival from where it waits is no change of memory. -/
theorem sameMemory_takeArrival (s : State) (c : ℕ) (p : BarArrival) : SameMemory s (takeArrival s c p) := by
  unfold takeArrival
  split
  · exact sameMemory_modCtx ..
  · exact sameMemory_modSeqs ..

theorem arrive_untargeted (h : (u.bar c m).target = 0) : arrive u c m = u.modBar c m (fun b => { b with count := if b.count = 65535 then b.count else b.count + 1 }) := if_pos h

theorem arrive_counts (h : (u.bar c m).target ≠ 0) (hn : (u.bar c m).count + 1 ≠ (u.bar c m).target) : arrive u c m = u.modBar c m (fun b => { b with count := b.count + 1 }) :=
  (if_neg h).trans (if_neg hn)

/-- The last arrival changes the phase and sets the event flags of its core, and changes nothing else. -/
theorem arrive_last (h : (u.bar c m).target ≠ 0) (hn : (u.bar c m).count + 1 = (u.bar c m).target) :
    (arrive u c m).bar c m = { u.bar c m with count := 0, phase := !(u.bar c m).phase } ∧ (∀ k, k < 4 → ((arrive u c m).ctx c k).flag = true)
    ∧ OnlyCore u (arrive u c m) c ∧ SameMemory u (arrive u c m) := by
  have he : arrive u c m = setFlags (u.modBar c m (fun b => { b with count := 0, phase := !b.phase })) c none := (if_neg h).trans (if_pos hn)
  obtain ⟨hctx, honly, hmem, harch⟩ := setFlags_spec (u.modBar c m (fun b => { b with count := 0, phase := !b.phase })) c none
  rw [he]
  refine ⟨?_, fun k hk => ?_, onlyCore_trans (onlyCore_modSeqs ..) honly, sameMemory_trans (sameMemory_modSeqs ..) hmem⟩
  · have hbars := congrArg (fun a => sget {} a.seqs.bars m) (harch c)
    exact hbars.trans (bar_modBar ..)
  · rw [hctx, if_pos ⟨rfl, hk, by simp⟩]

end Sys2Proof.Machine

open Sys2Proof.Machine in
/-- Settles O19: BARA and BARW are `exec_bara` and `exec_barw_over`; what is at a barrier is what `mem_readyArrivals` says; and the arrival that `barrierArrival_first` applies counts as `arrive_counts` and `arrive_last` say. -/
theorem barrierWords : Obligations.BarrierWords := by
  intro s d a n b
  refine ⟨⟨_, exec_bara s a n, rfl, pass_with rfl rfl⟩, fun h => ⟨_, exec_barw_waits h, ?waits⟩, fun h => ⟨_, exec_barw_over h, put_with rfl rfl⟩,
    fun c o k q m hk hcl he ho hc hp => mem_readyArrivals.2 ⟨hcl, .inl ⟨k, hk, _, rfl, rfl, he, rfl, ho, hc, accessesPast_iff.2 hp⟩⟩, ?early,
    fun c o m hm hcl hq => mem_readyArrivals.2 ⟨hcl, .inr ⟨rfl, hm, hq⟩⟩, fun c i => barrierArrival_none, ?applied⟩
  case waits =>
    obtain ⟨hme, hctx, hmem⟩ := block_with s (idleNoted s n) (.barw n)
    exact ⟨by rw [hme]; rfl, by rw [hme]; simp [idleNoted, b], hctx, hmem⟩
  case early =>
    intro c o k q m hearly hmem
    obtain ⟨-, ⟨j, -, e, hsource, -, -, -, ho, hc, hp⟩ | ⟨hnone, -⟩⟩ := mem_readyArrivals.1 hmem
    · obtain ⟨rfl, rfl⟩ := Prod.mk.inj (Option.some.inj hsource)
      rcases hearly with ⟨x, hx, hlt⟩ | hgated | hgated
      · exact absurd (accessesPast_iff.1 hp x hx) (by simpa using hlt)
      · exact absurd (hgated.symm.trans ho) (by simp)
      · exact absurd (hgated.symm.trans hc) (by simp)
    · exact absurd hnone (by simp)
  case applied =>
    intro c i o m from_ hi first u g
    have htake : takeArrival s c ⟨o, m, from_⟩ = u := by cases from_ <;> rfl
    have hfirst (hf : first) : exec (.barrierArrival c i) s = .next (arrive u c m) := (barrierArrival_first hi hf).trans (by rw [htake])
    refine ⟨barrierArrival_behind hi, fun hf h0 => ⟨_, hfirst hf, arrive_untargeted h0⟩, fun hf h0 hn => ⟨_, hfirst hf, arrive_counts h0 hn⟩, fun hf h0 hn => ⟨_, hfirst hf, ?_⟩⟩
    obtain ⟨hbar, hflag, honly, hmem⟩ := arrive_last h0 hn
    exact ⟨hbar, hflag, honly, sameMemory_trans (htake ▸ sameMemory_takeArrival s c _) hmem⟩
end

section
/-! The end of a residency slot's fill (06 R111, 15 R278) on a core that a freeze holds (23 R319). -/

namespace Sys2Proof.Machine

/-- The fill is installed once its PREF goes on; until then nothing happens. -/
theorem residencyFillDone_held {s : State} {c n : ℕ} {k : Cmd} (hk : fillingCmd s c n = some k) (hg : cmdGoes s c .ld k = false) :
    exec (.residencyFillDone c n) s = .next s := by
  show execResidencyFillDone c n s = _
  simp [execResidencyFillDone, hk, hg]

/-- A PREF of the page at 2^31 into slot 0, whose accesses are all made and whose fill is to be installed. -/
def filledPref : Cmd := { num := 1, op := .pref ⟨false, false, false, false⟩, args := [0x80000000, 0], pc := 0, started := true, pos := 2, accessed := true }

/-- Core 0 in a freeze, with a launch whose area holds the residency table and with that PREF in flight. -/
def frozenFill : State := State.reset.modArch 0 (fun a => { a with
  run := some fetchRun, freeze := some ⟨.sram, 0, 24⟩, seqs := { a.seqs with ld := { flight := [filledPref] } } })

end Sys2Proof.Machine

open Sys2Proof.Machine in
/-- Refutes O44, whose clause on the end of a fill does not ask that its PREF goes on (`cmdGoes`): it asks that the slot's entry become VALID also on a core in a freeze, where the model, by 23 R319, leaves byte 8 of the entry 0 until the freeze is over. -/
theorem not_ringsAndSlots : ¬ Obligations.RingsAndSlots := by
  intro h
  obtain ⟨-, -, -, -, -, -, -, hfill, -⟩ := h frozenFill 0 0 filledPref
  obtain ⟨-, -, hinstalls⟩ := hfill rfl (by decide) (by decide) (by decide) (by decide)
  obtain ⟨t, ht, ⟨hbytes, -⟩, -⟩ := hinstalls (by decide) (by decide) (by decide)
  obtain rfl : frozenFill = t := Host.Outcome.next.inj ((residencyFillDone_held (k := filledPref) rfl (by decide)).symm.trans ht)
  have hvalid : memByte (frozenFill.core 0).spad 8 = 2 := hbytes 0 8
  exact absurd hvalid (by decide)
end

section
/-! PFENCE (07 R114, R119, 12 R187): the cores that it covers, the cuts that it asks for, and the commits that it makes in one step. -/

namespace Sys2Proof.Machine

variable {s : State} {d c k : ℕ} {sc : Scope}

/-! ## The cores that PFENCE covers -/

theorem insertNat_sorted {l : List ℕ} (h : l.Pairwise (· < ·)) (n : ℕ) : (insertNat l n).Pairwise (· < ·) := by
  induction l with
  | nil => exact List.pairwise_singleton _ n
  | cons a l ih =>
    obtain ⟨ha, hl⟩ := List.pairwise_cons.1 h
    simp only [insertNat]
    split_ifs with hlt heq
    · exact List.pairwise_cons.2 ⟨fun x hx => (List.mem_cons.1 hx).elim (· ▸ hlt) fun hx => hlt.trans (ha x hx), h⟩
    · exact h
    · refine List.pairwise_cons.2 ⟨fun x hx => ?_, ih hl⟩
      rcases mem_insertNat.1 hx with hx | rfl
      · exact ha x hx
      · omega

theorem coveredCores_nodup (s : State) (c k : ℕ) (sc : Scope) : (coveredCores s c k sc).Nodup := by
  have hsorted (l : List (ℕ × ℕ)) (m : List ℕ) (hm : m.Pairwise (· < ·)) : (l.foldl (fun l p => insertNat l p.1) m).Pairwise (· < ·) := by
    induction l generalizing m with
    | nil => exact hm
    | cons p l ih => exact ih _ (insertNat_sorted hm p.1)
  exact (hsorted _ [c] (List.pairwise_singleton _ c)).imp Nat.ne_of_lt

/-- The cores that a PFENCE covers and can reach. -/
def reachedCores (s : State) (sc : Scope) : List ℕ := (coveredCores s s.c s.k sc).filter (fun o => !unreachable s s.c s.k o)

theorem reachedCores_nodup (s : State) (sc : Scope) : (reachedCores s sc).Nodup := (coveredCores_nodup s s.c s.k sc).filter _

/-! ## The cuts that it asks for (07 R114) -/

theorem foldl_askCut (l : List ℕ) (s : State) :
    (∀ o, (l.foldl askCut s).core o = { s.core o with cutting := if o ∈ l then true else (s.core o).cutting })
    ∧ l.foldl askCut s = { s with cores := (l.foldl askCut s).cores } := by
  induction l generalizing s with
  | nil => exact ⟨fun o => by simp, rfl⟩
  | cons a l ih =>
    obtain ⟨hcore, hframe⟩ := ih (askCut s a)
    refine ⟨fun o => ?_, hframe⟩
    rw [List.foldl_cons, hcore, askCut, core_modCore_cases]
    by_cases ho : o = a
    · subst ho; simp
    · simp [ho]

theorem arch_foldl_askCut (l : List ℕ) (s : State) (o : ℕ) : (l.foldl askCut s).arch o = s.arch o := by
  rw [State.arch, (foldl_askCut l s).1]; rfl

theorem ctx_foldl_askCut (l : List ℕ) (s : State) (o j : ℕ) : (l.foldl askCut s).ctx o j = s.ctx o j :=
  congrArg (fun a : Arch => sget ({} : Ctx) a.seqs.ctxs j) (arch_foldl_askCut l s o)

/-- Asking for cuts writes no slice and nothing of HBM. -/
theorem sameMemory_foldl_askCut (l : List ℕ) (s : State) : SameMemory s (l.foldl askCut s) := by
  obtain ⟨hcore, hframe⟩ := foldl_askCut l s
  exact ⟨fun o a => by rw [hcore], fun i a => by rw [hframe]; rfl⟩

/-! ## The commits that it makes (07 R114, 26 R354) -/

/-- What a commit at a cycle makes of core o. -/
def Committed (o cause now : ℕ) (k k' : Core) : Prop :=
  let g := k.cellar.cg + 1
  k'.cellar.cg = g ∧ k'.cellar.dirty = [] ∧ k'.cutting = false
  ∧ (let r := if g % 2 = 0 then k'.cellar.rec0 else k'.cellar.rec1
     r.gen = g ∧ r.core = o ∧ r.cause = cause ∧ r.cycle = now ∧ r.crcOk = true)

theorem commitCore_committed (s : State) (c cause : ℕ) : Committed c cause s.now (s.core c) ((commitCore s c cause).core c) := by
  obtain ⟨-, -, hcore, hcg, hdirty, hrec⟩ := commitCore_spec s c cause
  exact ⟨hcg, hdirty, by rw [hcore], hrec⟩

theorem commitCore_other {o : ℕ} (cause : ℕ) (h : o ≠ c) : (commitCore s c cause).core o = s.core o := core_modCore_ne _ _ _ _ h

/-- A commit leaves every context as it is. -/
theorem ctx_commitCore (s : State) (c cause o j : ℕ) : (commitCore s c cause).ctx o j = s.ctx o j := by
  obtain ⟨-, -, hcore, -⟩ := commitCore_spec s c cause
  by_cases h : o = c
  · subst h; rw [State.ctx, State.seqs, hcore]; rfl
  · rw [State.ctx, State.seqs, commitCore_other cause h]; rfl

/-- The commits of some cores, each once: each stands as its own commit makes it, and nothing else has changed. -/
theorem foldl_commitCore {l : List ℕ} (hl : l.Nodup) (cause : ℕ) (s : State) :
    let t := l.foldl (fun s o => commitCore s o cause) s
    (∀ o ∈ l, Committed o cause s.now (s.core o) (t.core o)) ∧ (∀ o, o ∉ l → t.core o = s.core o) ∧ (∀ o j, t.ctx o j = s.ctx o j)
    ∧ t = { s with cores := t.cores } ∧ SameMemory s t := by
  induction l generalizing s with
  | nil => exact ⟨fun o h => absurd h (List.not_mem_nil), fun _ _ => rfl, fun _ _ => rfl, rfl, sameMemory_refl s⟩
  | cons a l ih =>
    obtain ⟨ha, hl⟩ := List.nodup_cons.1 hl
    obtain ⟨hin, hout, hctx, hframe, hmem⟩ := ih hl (commitCore s a cause)
    obtain ⟨-, hmem', -⟩ := commitCore_spec s a cause
    refine ⟨fun o ho => ?_, fun o ho => ?_, fun o j => (hctx o j).trans (ctx_commitCore s a cause o j), hframe, sameMemory_trans hmem' hmem⟩
    · rcases List.mem_cons.1 ho with rfl | ho
      · rw [List.foldl_cons, hout o ha]; exact commitCore_committed s o cause
      · have hne : o ≠ a := fun h => ha (h ▸ ho)
        rw [← commitCore_other cause hne]; exact hin o ho
    · obtain ⟨hne, ho⟩ := not_or.1 (mt List.mem_cons.2 ho)
      exact (hout o ho).trans (commitCore_other cause hne)

/-- Changes of cores alone, one after another. -/
theorem coresFrame_trans {u t : State} (h : u = { s with cores := u.cores }) (g : t = { u with cores := t.cores }) : t = { s with cores := t.cores } := by
  rw [h] at g; exact g

/-! ## The three ends of the word -/

theorem pfence_stores (h : storesDone s s.c s.k s.seq = false) : exec (.pfence d sc) s = .next (s.block .stores) := by
  show execPfence d sc s = _
  simp [execPfence, h]

theorem pfence_asks (h : storesDone s s.c s.k s.seq = true) (hc : ∃ o ∈ reachedCores s sc, cutHeld s o = true) :
    exec (.pfence d sc) s = .next (((reachedCores s sc).foldl askCut s).block .commits) := by
  show execPfence d sc s = _
  have hany : (reachedCores s sc).any (fun o => cutHeld s o) = true := List.any_eq_true.2 hc
  simp only [execPfence, if_pos h]
  exact if_pos hany

/-- The context once it no longer has to follow what the PFENCE has committed or found lost. -/
def fencedCtx (s : State) (sc : Scope) (t : Ctx) : Ctx :=
  { t with written := t.written.filter (fun p => !(reachedCores s sc).contains p.1 && !(p.2 == lostGen && (coveredCores s s.c s.k sc).contains p.1)) }

/-- The machine with the PFENCE done and nothing committed yet: the issuing core commits with the word done. -/
def fenced (s : State) (d : ℕ) (sc : Scope) : State :=
  (s.modMe (fencedCtx s sc)).put d (pfenceStatus ((coveredCores s s.c s.k sc).length - (reachedCores s sc).length))

theorem pfence_commits (h : storesDone s s.c s.k s.seq = true) (hc : ∀ o ∈ reachedCores s sc, cutHeld s o = false) :
    exec (.pfence d sc) s = .next ((reachedCores s sc).foldl (fun s o => commitCore s o 1) (fenced s d sc)) := by
  show execPfence d sc s = _
  have hany : ¬ (reachedCores s sc).any (fun o => cutHeld s o) = true := by simpa using hc
  simp only [execPfence, if_pos h]
  exact if_neg hany

theorem pfenceStatus_eq (n : ℕ) : pfenceStatus n = if n = 0 then 0 else BitVec.ofNat 64 (256 * min 255 n + 3) := by
  rw [pfenceStatus, Nat.mul_comm]

theorem fenced_gives (s : State) (d : ℕ) (sc : Scope) :
    GivesXWith s d (pfenceStatus ((coveredCores s s.c s.k sc).length - (reachedCores s sc).length)) (fencedCtx s sc) (fenced s d sc) := put_with rfl rfl

/-- A change of a context is one of its core's small state alone. -/
theorem core_modCtx_arch (s : State) (c k o : ℕ) (f : Ctx → Ctx) : (s.modCtx c k f).core o = { s.core o with arch := (s.modCtx c k f).arch o } := by
  simp only [State.arch, State.modCtx, State.modSeqs, State.modArch, core_modCore_cases]
  split_ifs with h
  · subst h; rfl
  · rfl

theorem core_onlyCtx {t : State} (h : OnlyCtx s t c k) (o : ℕ) : t.core o = { s.core o with arch := t.arch o } := by
  rw [OnlyCtx] at h; rw [h]; exact core_modCtx_arch ..

/-- What a PFENCE that asks for cuts leaves: only the acting context waits, and only the cuts are asked for. -/
theorem askCuts_block (s : State) (l : List ℕ) :
    let t := (l.foldl askCut s).block .commits
    t.me = { s.me with wait := .commits, waitFrom := t.me.waitFrom } ∧ (∀ k, k ≠ s.k → t.ctx s.c k = s.ctx s.c k)
    ∧ (∀ o, t.core o = { s.core o with cutting := if o ∈ l then true else (s.core o).cutting, arch := (t.core o).arch })
    ∧ (∀ o, o ≠ s.c → t.arch o = s.arch o) ∧ t.arch s.c = { s.arch s.c with seqs := { s.seqs s.c with ctxs := (t.seqs s.c).ctxs } }
    ∧ t = { s with cores := t.cores } ∧ SameMemory s t := by
  intro t
  obtain ⟨hcore, hframe⟩ := foldl_askCut l s
  generalize hu : l.foldl askCut s = u at hcore hframe
  have harch (o : ℕ) : u.arch o = s.arch o := hu ▸ arch_foldl_askCut l s o
  have hctx (o j : ℕ) : u.ctx o j = s.ctx o j := hu ▸ ctx_foldl_askCut l s o j
  have hwho : u.who = s.who := by rw [hframe]
  have hc : u.c = s.c := congrArg Who.core hwho
  have hk : u.k = s.k := by simp only [State.k, hwho]
  obtain ⟨hme, honly, hmem⟩ := block_waits u .commits
  have ht : t = u.block .commits := by rw [← hu]
  rw [← ht] at hme honly hmem
  rw [hc, hk] at honly
  have hume : u.me = s.me := by simp only [State.me, hwho, hk, hctx]
  have htarch (o : ℕ) : t.arch o = { s.arch o with seqs := { s.seqs o with ctxs := (t.seqs o).ctxs } } := by
    have h := archCtxs_modCtx u s.c s.k o (fun _ => t.ctx s.c s.k)
    rw [← (show t = _ from honly), harch, show u.seqs o = s.seqs o from congrArg Arch.seqs (harch o)] at h
    exact h
  refine ⟨hume ▸ hme, fun j hj => ?_, fun o => ?_, fun o ho => ?_, htarch s.c, ?_, sameMemory_trans (hu ▸ sameMemory_foldl_askCut l s) hmem⟩
  · rw [honly, ctx_modCtx_ne _ _ _ _ _ _ (by simpa using hj), hctx]
  · rw [core_onlyCtx honly o, hcore]
  · rw [← harch o, honly]
    exact congrArg Core.arch (core_modCore_ne _ _ _ _ ho)
  · rw [honly, hframe]; rfl

/-- What a PFENCE that commits leaves. -/
theorem fenced_commits (s : State) (d : ℕ) (sc : Scope) :
    let t := (reachedCores s sc).foldl (fun s o => commitCore s o 1) (fenced s d sc)
    let lost := (coveredCores s s.c s.k sc).length - (reachedCores s sc).length
    OnlyX s t d (if lost = 0 then 0 else BitVec.ofNat 64 (256 * min 255 lost + 3)) ∧ t.me.pc = s.me.pc + 4 ∧ t.me.wait = .none
    ∧ (∀ o ∈ reachedCores s sc, Committed o 1 s.now (s.core o) (t.core o))
    ∧ (∀ o, o ∉ reachedCores s sc → o ≠ s.c → t.core o = s.core o) ∧ t = { s with cores := t.cores } ∧ SameMemory s t := by
  intro t lost
  obtain ⟨hx, hme, honly, hmem⟩ := fenced_gives s d sc
  obtain ⟨hin, hout, hctx, hframe, hmem'⟩ := foldl_commitCore (reachedCores_nodup s sc) 1 (fenced s d sc)
  have htme : t.me = (fenced s d sc).me := by
    have hwho : t.who = (fenced s d sc).who := (congrArg State.who hframe).trans rfl
    simp only [State.me, State.k, hwho]
    exact hctx _ _
  have hcellar (o : ℕ) : ((fenced s d sc).core o).cellar = (s.core o).cellar := by rw [core_onlyCtx honly o]
  refine ⟨fun r => ?_, by rw [htme, hme], by rw [htme, hme], fun o ho => ?_, fun o ho hne => ?_, ?_, sameMemory_trans hmem hmem'⟩
  · rw [← pfenceStatus_eq, State.x, htme]; exact hx r
  · have h := hin o ho
    unfold Committed at h ⊢
    rwa [hcellar, show (fenced s d sc).now = s.now by rw [honly]; rfl] at h
  · refine (hout o ho).trans ?_
    rw [honly]; exact core_modCore_ne _ _ _ _ hne
  · exact coresFrame_trans (by rw [honly]; rfl) hframe

end Sys2Proof.Machine

open Sys2Proof.Machine in
/-- Settles O12: the word ends as `pfence_stores`, `pfence_asks` or `pfence_commits`, which leave what `askCuts_block` and `fenced_commits` say; the cores that it covers are each listed once (`coveredCores_nodup`), so that each commits once. -/
theorem pfenceCommits : Obligations.PfenceCommits := by
  intro s d sc all go
  have hcommits (hs : storesDone s s.c s.k s.seq = true) (hc : ∀ o ∈ go, cutHeld s o = false) := pfence_commits (d := d) hs hc
  obtain ⟨hx, hpc, hwait, hgo, hrest, hframe, hmem⟩ := fenced_commits s d sc
  refine ⟨fun hs => ⟨_, pfence_stores hs, block_waits s .stores⟩, fun hs hc => ⟨_, pfence_asks hs hc, askCuts_block s go⟩,
    fun hs hc => ⟨_, hcommits hs hc, hx, hpc, hwait, hgo, hrest, hframe, hmem⟩, fun hs hall hr hstop hq => ?own⟩
  case own =>
    have hgo1 : reachedCores s sc = [s.c] := by simp [reachedCores, show coveredCores s s.c s.k sc = [s.c] from hall, hr]
    have hlost : (coveredCores s s.c s.k sc).length - (reachedCores s sc).length = 0 := by rw [hgo1, show coveredCores s s.c s.k sc = [s.c] from hall]; rfl
    obtain ⟨hcg, hdirty, -, hrec⟩ := hgo s.c (by simp [hgo1])
    refine ⟨_, hcommits hs fun o ho => ?_, by simpa only [hlost, if_true] using hx, hpc, hwait, hcg, hdirty, hrec, ?_, hmem⟩
    · obtain rfl : o = s.c := List.mem_singleton.1 (hgo1 ▸ ho)
      exact quiet_cut hq hstop
    · obtain ⟨honly, -⟩ := commitCore_spec (fenced s d sc) s.c 1
      obtain ⟨-, -, hctx, -⟩ := fenced_gives s d sc
      rw [hgo1]
      refine onlyCore_trans ?_ honly
      rw [OnlyCtx] at hctx; rw [hctx]; exact onlyCore_modCtx ..
end

section
/-! Copies of the cellar's blocks (07 R113, 26 R354): which copy a write goes to and what it leaves of the other blocks; the trickle's write of the lowest dirty block, and the block or record that an exhausted hold-up tears (26 R355). -/

namespace Sys2Proof.Machine

variable {s : State} {m m' : Cellar} {k : Core} {o : Other} {crc : BitVec 32} {b c g n now : ℕ} {l ns : List ℕ}

/-! ## Which copy a write goes to (07 R113) -/

theorem target_spec (m : Cellar) (b : ℕ) : m.target b < 2 ∧ m.chosen m.cg b ≠ some (m.target b) := by
  unfold Cellar.target
  split_ifs with h
  · exact ⟨Nat.one_lt_two, by rw [h]; simp⟩
  · exact ⟨Nat.two_pos, h⟩

/-- Two cellars of one CG that hold the same copies of a block. -/
def Cellar.Agrees (m m' : Cellar) (b : ℕ) : Prop := m'.cg = m.cg ∧ ∀ i, i < 2 → m'.copy b i = m.copy b i ∧ m'.otherCopy b i = m.otherCopy b i

theorem Cellar.Agrees.trans {m'' : Cellar} (h : m.Agrees m' b) (h' : m'.Agrees m'' b) : m.Agrees m'' b :=
  ⟨h'.1.trans h.1, fun i hi => ⟨(h'.2 i hi).1.trans (h.2 i hi).1, (h'.2 i hi).2.trans (h.2 i hi).2⟩⟩

theorem Cellar.Agrees.target (h : m.Agrees m' b) : m'.target b = m.target b := by
  obtain ⟨hcg, hcopies⟩ := h
  obtain ⟨hc0, ho0⟩ := hcopies 0 (by omega)
  obtain ⟨hc1, ho1⟩ := hcopies 1 (by omega)
  have hchosen : m'.chosen m'.cg b = m.chosen m.cg b := by rw [Cellar.chosen, hcg, hc0, hc1, ho0, ho1]; rfl
  rw [Cellar.target, hchosen]; rfl

theorem noteOther_agrees (k : Core) (o : Other) (b : ℕ) : k.cellar.Agrees (k.noteOther o).cellar b := by
  rw [k.noteOther_frame o]
  exact ⟨rfl, fun _ _ => ⟨rfl, rfl⟩⟩

/-! ## The write of a copy -/

/-- A copy written changes nothing but the tables of copies. -/
theorem Core.writeCopy_frame (k : Core) (o : Other) (crc : BitVec 32) (b : ℕ) : k.writeCopy o crc b =
    { k with cellar := { k.cellar with copies := (k.writeCopy o crc b).cellar.copies, others := (k.writeCopy o crc b).cellar.others } } := by
  unfold Core.writeCopy
  dsimp only
  split_ifs <;> rfl

theorem writeCopy_sram (hb : b < 32768) : (k.writeCopy o crc b).cellar.copy b (k.cellar.target b) = ⟨k.cellar.cg + 1, k.block b, k.blockPoison b, crc⟩ := by
  unfold Core.writeCopy
  dsimp only
  rw [if_pos (show b < archBlock from hb)]
  exact sget_sset_same ..

theorem writeCopy_other (hb : 32768 ≤ b) : (k.writeCopy o crc b).cellar.otherCopy b (k.cellar.target b) = ⟨k.cellar.cg + 1, o.data (b - 32768), crc⟩ := by
  unfold Core.writeCopy
  dsimp only
  rw [if_neg (show ¬ b < archBlock from Nat.not_lt.2 hb)]
  exact sget_sset_same ..

/-- A copy of one block is no copy of another. -/
theorem writeCopy_agrees (h : n ≠ b) : k.cellar.Agrees (k.writeCopy o crc b).cellar n := by
  obtain ⟨hlt, -⟩ := target_spec k.cellar b
  have hne (i : ℕ) (hi : i < 2) : 2 * n + i ≠ 2 * b + k.cellar.target b := by omega
  unfold Core.writeCopy
  dsimp only
  split_ifs
  · exact ⟨rfl, fun i hi => ⟨sget_sset_ne _ _ _ _ _ (hne i hi), rfl⟩⟩
  · exact ⟨rfl, fun i hi => ⟨rfl, sget_sset_ne _ _ _ _ _ (hne i hi)⟩⟩

theorem foldl_trickle_agrees (h : n ∉ l) : k.cellar.Agrees (l.foldl (Core.trickle o) k).cellar n := by
  induction l generalizing k with
  | nil => exact ⟨rfl, fun _ _ => ⟨rfl, rfl⟩⟩
  | cons b l ih =>
    obtain ⟨hne, hn⟩ := not_or.1 (mt List.mem_cons.2 h)
    have hb : k.cellar.Agrees (k.trickle o b).cellar n := writeCopy_agrees hne
    exact hb.trans (ih hn)

/-! ## TRICKLE_WRITE (07 R113, R115) -/

theorem noteOther_seen (k : Core) (o : Other) : (k.noteOther o).cellar.seen = o := by
  unfold Core.noteOther
  split_ifs with h
  · exact h
  · rfl

/-- Where the other state has been noted as it stands, the dirty blocks are those of the note. -/
theorem dirtyBlocks_of_seen (h : k.cellar.seen = k.other) : k.dirtyBlocks = k.cellar.dirty := by
  rw [Core.dirtyBlocks, show k.noteOther k.other = k from if_pos h]

/-- A freeze of the dirty cap does not outlast a thaw. -/
theorem thaw_freeze (a : Arch) (f : Freeze) (h : a.thaw.freeze = some f) : f.cause ≠ .dirtyCap := by
  unfold Arch.thaw at h
  dsimp only at h
  split at h
  · next f' hf' =>
    split_ifs at h with hc
    · unfold Freeze.over at h
      split_ifs at h
      obtain rfl := Option.some.inj h
      simp
    · obtain rfl := Option.some.inj h
      exact hc
  · cases h

/-- A core of which a block has been trickled, with its cap settled. -/
def trickledTo (k : Core) (b : ℕ) : Core := ((k.noteOther k.other).trickle k.other b).capSettle

theorem trickledTo_cellar (k : Core) (b : ℕ) : ∃ cap, trickledTo k b = { k with cellar := { ((k.noteOther k.other).writeCopy k.other 0 b).cellar with
    dirty := k.dirtyBlocks.erase b, drained := k.cellar.drained + 1, seen := k.other, cg := k.cellar.cg, cap := cap } } := by
  refine ⟨(trickledTo k b).cellar.cap, ?_⟩
  rw [trickledTo, Core.capSettle_spec, Core.trickle, Core.dirtyBlocks, Core.noteOther_frame, Core.writeCopy_frame]
  simp only [noteOther_seen]

/-- What the trickle of block b leaves in the cellar: the copy that did not hold the block at CG has what it holds now, and the block is clean. -/
theorem trickledTo_spec (k : Core) (b : ℕ) :
    let t := trickledTo k b
    t = { k with cellar := t.cellar } ∧ t.cellar.seen = k.other ∧ t.cellar.dirty = k.dirtyBlocks.erase b
    ∧ t.cellar.drained = k.cellar.drained + 1 ∧ t.cellar.cg = k.cellar.cg
    ∧ (b < 32768 → t.cellar.copy b (k.cellar.target b) = ⟨k.cellar.cg + 1, k.block b, k.blockPoison b, 0⟩)
    ∧ (32768 ≤ b → t.cellar.otherCopy b (k.cellar.target b) = ⟨k.cellar.cg + 1, k.other.data (b - 32768), 0⟩) := by
  intro t
  obtain ⟨cap, ht⟩ := trickledTo_cellar k b
  have hcg : (k.noteOther k.other).cellar.cg = k.cellar.cg := (noteOther_agrees k k.other b).1
  have hblock : (k.noteOther k.other).block b = k.block b ∧ (k.noteOther k.other).blockPoison b = k.blockPoison b := by
    rw [Core.noteOther_frame]; exact ⟨rfl, rfl⟩
  have htarget := (noteOther_agrees k k.other b).target
  rw [show t = _ from ht]
  refine ⟨rfl, rfl, rfl, rfl, rfl, fun hb => ?_, fun hb => ?_⟩
  · rw [← htarget, ← hcg, ← hblock.1, ← hblock.2]; exact writeCopy_sram hb
  · rw [← htarget, ← hcg]; exact writeCopy_other hb

/-- A core once the trickle has written a block: a freeze of the dirty cap is over where no more are dirty than the cap allows. -/
def trickledCore (b : ℕ) (k : Core) : Core :=
  if (trickledTo k b).cellar.cap < (trickledTo k b).dirtyCount then trickledTo k b else { trickledTo k b with arch := (trickledTo k b).arch.thaw }

theorem trickleWrite_rests (h : (s.core c).dirtyBlocks = [] ∨ (s.core c).gate ≠ .on ∨ (s.cluster (clusterOf c)).busy = true) :
    exec (.trickleWrite c) s = .next s := by
  show execTrickleWrite c s = _
  unfold execTrickleWrite
  split
  · rfl
  · next b l hd =>
    rw [hd] at h
    have hrests : ((s.core c).gate != .on || (s.cluster (clusterOf c)).busy) = true := by simpa using h
    exact if_pos hrests

theorem trickleWrite_writes (hd : (s.core c).dirtyBlocks = n :: ns) (hg : (s.core c).gate = .on) (hb : (s.cluster (clusterOf c)).busy = false) :
    exec (.trickleWrite c) s = .next (s.modCore c (trickledCore n)) := by
  show execTrickleWrite c s = _
  simp only [execTrickleWrite, hd, hg, hb]
  rfl

/-- What the trickle leaves of a core whose lowest dirty block it writes. -/
theorem trickledCore_spec (hd : k.dirtyBlocks = n :: ns) :
    let t := trickledCore n k
    (n < 32768 → t.cellar.copy n (k.cellar.target n) = ⟨k.cellar.cg + 1, k.block n, k.blockPoison n, 0⟩)
    ∧ (32768 ≤ n → t.cellar.otherCopy n (k.cellar.target n) = ⟨k.cellar.cg + 1, k.other.data (n - 32768), 0⟩)
    ∧ t.dirtyBlocks = ns ∧ t.cellar.drained = k.cellar.drained + 1 ∧ t.cellar.cg = k.cellar.cg
    ∧ (ns.length ≤ t.cellar.cap → ∀ f, t.arch.freeze = some f → f.cause ≠ .dirtyCap)
    ∧ (t.cellar.cap < ns.length → t.arch.freeze = k.arch.freeze) ∧ t.spad = k.spad := by
  obtain ⟨hframe, hseen, hdirty, hdrained, hcg, hsram, hother⟩ := trickledTo_spec k n
  have hns : (trickledTo k n).cellar.dirty = ns := by rw [hdirty, hd, List.erase_cons_head]
  have hsame : (trickledTo k n).other = k.other := by rw [hframe]; rfl
  have hblocks : (trickledTo k n).dirtyBlocks = ns := (dirtyBlocks_of_seen (hseen.trans hsame.symm)).trans hns
  have harch : (trickledTo k n).arch = k.arch := by rw [hframe]
  have hspad : (trickledTo k n).spad = k.spad := by rw [hframe]
  simp only [trickledCore, Core.dirtyCount, hblocks]
  split_ifs with hcap
  · exact ⟨hsram, hother, hblocks, hdrained, hcg, fun h => absurd h (Nat.not_le.2 hcap), fun _ => by rw [harch], hspad⟩
  · refine ⟨hsram, hother, ?_, hdrained, hcg, fun _ f hf => thaw_freeze _ f hf, fun h => absurd h hcap, hspad⟩
    exact (dirtyBlocks_of_seen (k := { trickledTo k n with arch := (trickledTo k n).arch.thaw }) (hseen.trans hsame.symm)).trans hns

/-! ## A hold-up that runs out (26 R355) -/

/-- A core whose dirty blocks below a block have drained. -/
def drainedBelow (k : Core) (o : Other) (g : ℕ) : Core :=
  ((k.noteOther o).cellar.dirty.filter (fun x => decide (x < g))).foldl (Core.trickle o) (k.noteOther o)

theorem drainedBelow_cg (k : Core) (o : Other) (g : ℕ) : (drainedBelow k o g).cellar.cg = k.cellar.cg :=
  (foldl_trickle o _ _).2.1.trans (noteOther_agrees k o 0).1

/-- The drain below a block writes no copy of a block from it on. -/
theorem drainedBelow_agrees (h : g ≤ n) : k.cellar.Agrees (drainedBelow k o g).cellar n :=
  (noteOther_agrees k o n).trans (foldl_trickle_agrees (by simp [h]))

/-- Where a dirty block is left, the first that is left is torn. -/
theorem tear_block (h : (k.noteOther o).cellar.dirty.find? (fun x => decide (g ≤ x)) = some n) : k.tear o g c now =
    let z := (drainedBelow k o g).writeCopy o tornCrc n
    { z with gate := .off, cellar := { z.cellar with dirty := [], drained := 0, exh := true } } := by
  simp only [Core.tear, h]; rfl

/-- Where none is left, the record is torn. -/
theorem tear_record (h : (k.noteOther o).cellar.dirty.find? (fun x => decide (g ≤ x)) = none) : k.tear o g c now =
    let z := drainedBelow k o g
    { z with gate := .off, cellar := { z.cellar.putRec ⟨z.cellar.cg + 1, c, 2, z.cellar.drained, now, tornCrc⟩ with dirty := [], drained := 0, exh := true } } := by
  simp only [Core.tear, h]; rfl

theorem putRec_cg (m : Cellar) (r : CommitRec) : (m.putRec r).cg = m.cg := by
  unfold Cellar.putRec; split_ifs <;> rfl

theorem tear_spec (k : Core) (o : Other) (g c now : ℕ) :
    (k.tear o g c now).gate = .off ∧ (k.tear o g c now).cellar.dirty = [] ∧ (k.tear o g c now).cellar.exh = true ∧ (k.tear o g c now).cellar.cg = k.cellar.cg := by
  have hcg := drainedBelow_cg k o g
  cases h : (k.noteOther o).cellar.dirty.find? (fun x => decide (g ≤ x)) with
  | some n =>
    rw [tear_block h]
    refine ⟨rfl, rfl, rfl, ?_⟩
    rw [Core.writeCopy_frame]; exact hcg
  | none =>
    rw [tear_record h]
    exact ⟨rfl, rfl, rfl, (putRec_cg ..).trans hcg⟩

theorem tear_record_crc (h : ∀ x ∈ (k.noteOther o).cellar.dirty, x < g) :
    (if (k.cellar.cg + 1) % 2 = 0 then (k.tear o g c now).cellar.rec0 else (k.tear o g c now).cellar.rec1).crcOk = false := by
  have hnone : (k.noteOther o).cellar.dirty.find? (fun x => decide (g ≤ x)) = none :=
    List.find?_eq_none.2 fun x hx => by simpa using h x hx
  rw [tear_record hnone, ← drainedBelow_cg k o g]
  unfold Cellar.putRec
  dsimp only
  split_ifs <;> rfl

theorem tear_block_crc (h : (k.noteOther o).cellar.dirty.find? (fun x => decide (g ≤ x)) = some n) :
    (if n < 32768 then ((k.tear o g c now).cellar.copy n (k.cellar.target n)).crcOk
      else ((k.tear o g c now).cellar.otherCopy n (k.cellar.target n)).crcOk) = false := by
  have hn : g ≤ n := by simpa using List.find?_some h
  have htarget := (drainedBelow_agrees (k := k) (o := o) hn).target
  rw [tear_block h, ← htarget]
  split_ifs with hlt
  · exact congrArg CellarCopy.crcOk (writeCopy_sram hlt)
  · exact congrArg OtherCopy.crcOk (writeCopy_other (Nat.not_lt.1 hlt))

end Sys2Proof.Machine
end

section
/-! Gates, wakes and rails (07 R117, R118, 01 R13): when a core is gated and what its gate leaves, what wakes it, and a cluster's switch from rail to rail. -/

namespace Sys2Proof.Machine

variable {s : State} {c k g q : ℕ} {v : Word} {rest : List CtxOp} {cause : WakeCause} {x : Cluster}

/-! ## CORE_GATE (07 R117, R114) -/

/-- A gate may be taken where the write asks for it, at a core that is on, stands in no stop and no KILL, and whose clocks run. -/
@[reducible] def MayGate (s : State) (c : ℕ) (v : Word) : Prop :=
  v.getLsbD 0 = true ∧ (s.core c).gate = .on ∧ s.stopFree c = true ∧ (s.core c).killing = false ∧ clocked s c = true

theorem coreGate_eq (ho : (s.ctx c k).ops = ⟨q, .csrw 0x02A v⟩ :: rest) (hd : storesDone s c k q = true) : exec (.coreGate c k) s =
    if MayGate s c v then (if gateHeld s c then .next (askCut s c) else .next (gateCore (popOp s c k) c)) else .next s := by
  have hready : readyCsrw s c k = some (0x02A, v) := by simp [readyCsrw, headOp, ho, hd]
  show execCoreGate c k s = _
  simp only [execCoreGate, hready, true_and]

theorem cellar_modCtx (s : State) (c k o : ℕ) (f : Ctx → Ctx) : ((s.modCtx c k f).core o).cellar = (s.core o).cellar := by rw [core_modCtx_arch]

/-- What a gate leaves: the core is committed and off, and none of its accesses is outstanding. -/
theorem gateCore_spec (s : State) (c : ℕ) :
    ((gateCore s c).core c).gate = .off ∧ ((gateCore s c).core c).cellar.cg = (s.core c).cellar.cg + 1 ∧ ((gateCore s c).core c).cellar.dirty = []
    ∧ (∀ a ∈ (gateCore s c).accesses, a.core ≠ c) ∧ SameMemory s (gateCore s c) := by
  obtain ⟨-, hmem, -, hcg, hdirty, -⟩ := commitCore_spec s c 0
  have hcore : (gateCore s c).core c = { (commitCore s c 0).core c with gate := .off } := core_modCore ..
  refine ⟨by rw [hcore], by rw [hcore]; exact hcg, by rw [hcore]; exact hdirty, fun a ha => ?_, ?_⟩
  · simpa using (List.mem_filter.1 ha).2
  · exact sameMemory_trans hmem (sameMemory_trans (sameMemory_congr rfl rfl rfl rfl) (sameMemory_modCore _ c _ rfl))

theorem gateHeld_iff : gateHeld s c = true ↔ cutHeld s c = true ∨ ∃ a ∈ s.accesses, a.core = c ∧ a.op.isStore = true := by
  simp [gateHeld]

/-! ## What wakes a gated core (07 R117) -/

/-- What holds of LD or of ST holds of an engine of the core. -/
theorem exists_engine {P : Eng → Prop} : (∃ e, e ≠ .cp ∧ P e) ↔ P .ld ∨ P .st := by
  constructor
  · rintro ⟨e, he, hP⟩
    cases e with
    | ld => exact .inl hP
    | cp => exact absurd rfl he
    | st => exact .inr hP
  · rintro (hP | hP)
    · exact ⟨.ld, by decide, hP⟩
    · exact ⟨.st, by decide, hP⟩

theorem accessCause_iff : wakeCause s c .access = true ↔ (∃ p ∈ s.arrived, p.1 = c ∧ (p.2 = .other ∨ partyWaits s p.2 = true)) ∨ (∃ a ∈ s.accesses, a.core ≠ c ∧ a.loc.home = c)
    ∨ ∃ p ∈ s.cores, p.1 ≠ c ∧ ((∃ e, e ≠ .cp ∧ ∃ j ∈ (s.eng p.1 e).flight, cmdHeads s p.1 c j = true) ∨ barrierHeads s p.1 c = true) := by
  simp only [exists_engine, wakeCause, accessWaits, Bool.or_eq_true, List.any_eq_true, Bool.and_eq_true, beq_iff_eq, bne_iff_ne, or_assoc]

theorem arrivalCause_iff : wakeCause s c .arrival = true ↔ ∃ x ∈ s.messages, x.dst / 4194304 = c := by
  simp [wakeCause, Config.sliceBytes]

theorem placementCause_iff {r : Running} (hr : s.run c = some r) : wakeCause s c .placement = true ↔ r.ready = false := by
  simp [wakeCause, placementWaits, hr]

theorem mayWake_iff : mayWake s c = true ↔ (s.die (dieOf c)).power = true ∧ s.hub.bootst = 1 := by simp [mayWake]

theorem coreWake_rests (h : (s.core c).gate ≠ .off ∨ ¬ ((s.die (dieOf c)).power = true ∧ s.hub.bootst = 1) ∨ wakeCause s c cause = false) :
    exec (.coreWake c cause) s = .next s := by
  refine if_neg fun hw => ?_
  obtain ⟨hoff, hmay, hcause⟩ := hw
  rcases h with h | h | h
  · exact h hoff
  · exact h (mayWake_iff.1 hmay)
  · simp [h] at hcause

theorem wakeComplete_rests {n : ℕ} (h : (s.core c).gate = .waking n) (hn : s.now < n) : exec (.wakeComplete c) s = .next s := by
  show execWakeComplete c s = _
  simp only [execWakeComplete, h]
  exact if_neg (Nat.not_le.2 hn)

/-- A core at the end of its wake: its newest complete commit, and the power on. -/
def wokenCore (k : Core) : Core := { k.select k.cellar.selectGen with gate := .on, cellar := { (k.select k.cellar.selectGen).cellar with state := k.cellar.state } }

theorem wakeComplete_wakes {n : ℕ} (h : (s.core c).gate = .waking n) (hn : n ≤ s.now) : exec (.wakeComplete c) s =
    .next { goOn (s.modCore c wokenCore) c with arrived := (goOn (s.modCore c wokenCore) c).arrived.filter (fun p => p != (c, .other)) } := by
  show execWakeComplete c s = _
  simp only [execWakeComplete, h]
  exact if_pos hn

theorem selectGen_eq (m : Cellar) : m.selectGen = max (if m.rec0.crc = 0 then m.rec0.gen else 0) (if m.rec1.crc = 0 then m.rec1.gen else 0) := by
  simp [Cellar.selectGen, CommitRec.crcOk]

/-! ## Rail switches (01 R13, 07 R118) -/

/-- RAIL_SWITCH_START: the write leaves its context's queue and, with it, asks for a rail. -/
theorem railSwitchStart_eq (ho : (s.ctx c k).ops = ⟨q, .csrw 0x100 v⟩ :: rest) (hd : storesDone s c k q = true) : exec (.railSwitchStart c k) s =
    .next (if (s.cluster (clusterOf c)).busy then (popOp s c k).modCluster (clusterOf c) (fun x => { x with waiting := some (v.getLsbD 0) })
      else if (s.cluster (clusterOf c)).sel = v.getLsbD 0 then popOp s c k else startSwitch (popOp s c k) (clusterOf c) (v.getLsbD 0)) := by
  show execRailSwitchStart c k s = _
  rw [execRailSwitchStart, csrwStep_ready _ ho hd rfl]
  rfl

theorem endSwitch_idle (h : (s.cluster g).busy = false) : endSwitch s g = s := by simp [endSwitch, h]

theorem endSwitch_done (hb : (s.cluster g).busy = true) (hw : (s.cluster g).waiting = none ∨ (s.cluster g).waiting = some (s.cluster g).sel) :
    endSwitch s g = s.modCluster g (fun x => { x with busy := false, waiting := none }) := by
  rcases hw with hw | hw
  · simp [endSwitch, hb, hw, State.modCluster]
  · simp [endSwitch, hb, hw]

theorem endSwitch_next (hb : (s.cluster g).busy = true) (hw : (s.cluster g).waiting = some (!(s.cluster g).sel)) :
    endSwitch s g = startSwitch s g (!(s.cluster g).sel) := by
  simp [endSwitch, hb, hw]

/-- What the end of a switch makes of a cluster. -/
def switchEnded (x : Cluster) (now : ℕ) : Cluster :=
  if x.busy = false then x
  else if x.waiting = some (!x.sel) then { x with sel := !x.sel, busy := true, switchAt := now, waiting := none }
  else { x with busy := false, waiting := none }

theorem endSwitch_spec (s : State) (g : ℕ) :
    (endSwitch s g).cluster g = switchEnded (s.cluster g) s.now ∧ (∀ h, h ≠ g → (endSwitch s g).cluster h = s.cluster h) ∧ (endSwitch s g).now = s.now := by
  have hother (f : Cluster → Cluster) (h : ℕ) (hne : h ≠ g) : (s.modCluster g f).cluster h = s.cluster h := sget_sset_ne _ _ _ _ _ hne
  cases hb : (s.cluster g).busy with
  | false =>
    rw [endSwitch_idle hb]
    exact ⟨by simp [switchEnded, hb], fun _ _ => rfl, rfl⟩
  | true =>
    by_cases hw : (s.cluster g).waiting = some (!(s.cluster g).sel)
    · rw [endSwitch_next hb hw]
      exact ⟨by simp [startSwitch, switchEnded, hb, hw], fun h hne => hother _ h hne, rfl⟩
    · have hw' : (s.cluster g).waiting = none ∨ (s.cluster g).waiting = some (s.cluster g).sel := by
        cases hv : (s.cluster g).waiting with
        | none => exact .inl rfl
        | some v => rw [hv] at hw; exact .inr (by simpa using hw)
      rw [endSwitch_done hb hw']
      exact ⟨by simp [switchEnded, hb, hw], fun h hne => hother _ h hne, rfl⟩

/-- A cluster whose switch has taken its 24 cycles. -/
def boundSwitch (s : State) (g : ℕ) : State := if (s.cluster g).busy && decide ((s.cluster g).switchAt + 24 ≤ s.now) then endSwitch s g else s

theorem boundSwitch_other {h : ℕ} (hne : h ≠ g) : (boundSwitch s g).cluster h = s.cluster h ∧ (boundSwitch s g).now = s.now := by
  unfold boundSwitch
  split_ifs
  · obtain ⟨-, hother, hnow⟩ := endSwitch_spec s g
    exact ⟨hother h hne, hnow⟩
  · exact ⟨rfl, rfl⟩

theorem foldl_boundSwitch_notMem {l : List ℕ} (h : g ∉ l) : (l.foldl boundSwitch s).cluster g = s.cluster g := by
  induction l generalizing s with
  | nil => rfl
  | cons a l ih =>
    obtain ⟨hne, hl⟩ := not_or.1 (mt List.mem_cons.2 h)
    exact (ih hl).trans (boundSwitch_other hne).1

/-- The end of a switch changes its own cluster alone, so each cluster of a list ends as it would by itself. -/
theorem foldl_boundSwitch_mem {l : List ℕ} (hl : l.Nodup) (h : g ∈ l) :
    (l.foldl boundSwitch s).cluster g = if (s.cluster g).busy = true ∧ (s.cluster g).switchAt + 24 ≤ s.now then switchEnded (s.cluster g) s.now else s.cluster g := by
  induction l generalizing s with
  | nil => exact absurd h List.not_mem_nil
  | cons a l ih =>
    obtain ⟨ha, hl⟩ := List.nodup_cons.1 hl
    rw [List.foldl_cons]
    by_cases hga : g = a
    · subst hga
      rw [foldl_boundSwitch_notMem ha, boundSwitch]
      simp only [Bool.and_eq_true, decide_eq_true_eq]
      split_ifs
      · exact (endSwitch_spec s g).1
      · rfl
    · obtain ⟨hcluster, hnow⟩ := boundSwitch_other (s := s) hga
      rw [ih hl ((List.mem_cons.1 h).resolve_left hga), hcluster, hnow]

/-- In a table without repeats an entry is what a read finds. -/
theorem sget_of_mem {α : Type} {d v : α} {l : Sparse α} {n : ℕ} (hl : (l.map (fun p => p.1)).Nodup) (h : (n, v) ∈ l) : sget d l n = v := by
  induction l with
  | nil => exact absurd h List.not_mem_nil
  | cons p l ih =>
    obtain ⟨k, w⟩ := p
    obtain ⟨hk, hl⟩ := List.nodup_cons.1 hl
    rw [sget_cons]
    rcases List.mem_cons.1 h with heq | h
    · obtain ⟨rfl, rfl⟩ := Prod.mk.inj heq; exact if_pos rfl
    · exact (if_neg fun hkn : k = n => hk (List.mem_map.2 ⟨_, h, hkn.symm⟩)).trans (ih hl h)

theorem boundSwitches_cluster (hl : (s.clusters.map (fun p => p.1)).Nodup) (h : (g, x) ∈ s.clusters) :
    (boundSwitches s).cluster g = if x.busy = true ∧ x.switchAt + 24 ≤ s.now then (endSwitch s g).cluster g else x := by
  have hx : s.cluster g = x := sget_of_mem hl h
  have hmem : g ∈ s.clusters.map (fun p => p.1) := List.mem_map_of_mem h
  rw [(endSwitch_spec s g).1, hx, ← hx]
  exact foldl_boundSwitch_mem hl hmem

end Sys2Proof.Machine
end

section
/-! The loss of a die's supply (26 R355): the start of its hold-up, its window and what misses it, the commit at its end and a hold-up that runs out. -/

namespace Sys2Proof.Machine

variable {s : State} {c d g n : ℕ} {a : Access}

/-! ## The start and the window -/

theorem powerLoss_rests (h : (s.die d).power = false ∨ (s.die d).holdup.isSome = true) : exec (.powerLoss d) s = .next s :=
  if_pos (by simpa using h)

/-- The clusters of a die on their high rail, with no switch under way. -/
def highRails (s : State) (d : ℕ) : State :=
  { s with clusters := s.clusters.map (fun p => if p.1 / 8 = d then (p.1, { p.2 with sel := false, busy := false, waiting := none }) else p) }

theorem powerLoss_begins (hp : (s.die d).power = true) (hh : (s.die d).holdup = none) : exec (.powerLoss d) s =
    .next (((coresOf d).foldl holdupStart (highRails s d)).modDie d (fun x => { x with holdup := some s.now })) :=
  if_neg (by simp [hp, hh])

/-- Something of the die's cores is on its way: an access, a reply, a message or what it waits to be sent again for, or a packet with no answer yet. -/
theorem dieInFlight_iff : dieInFlight s d = true ↔ (∃ a ∈ s.accesses, dieOf a.core = d) ∨ (∃ r ∈ s.replies, dieOf r.core = d) ∨ (∃ x ∈ s.messages, dieOf x.core = d)
    ∨ (∃ x ∈ s.retries, dieOf x.core = d) ∨ ∃ p ∈ s.cores, dieOf p.1 = d ∧ ∃ e, e ≠ .cp ∧ ∃ j ∈ (s.eng p.1 e).flight, j.acks ≠ [] := by
  simp only [exists_engine, dieInFlight, Bool.or_eq_true, List.any_eq_true, Bool.and_eq_true, beq_iff_eq, Bool.not_eq_true', List.isEmpty_eq_false_iff, or_assoc]

theorem holdupCycle_eq (hh : (s.die d).holdup = some n) (hp : (s.die d).power = true) :
    holdupCycle s d = if n + 2048 ≤ s.now ∨ dieInFlight s d = false then closeWindow s d else s := by
  simp only [holdupCycle, hh, hp, if_true]
  rfl

theorem foldl_releaseTag_messages (l : List ℕ) (s : State) : (l.foldl releaseTag s).messages = s.messages := by
  induction l generalizing s with
  | nil => rfl
  | cons _ l ih => exact ih _

/-- A die that loses its supply is as at reset but for its hold-up. -/
theorem loseDie_die (s : State) (d : ℕ) : (loseDie s d).die d = { power := false, holdup := some (((s.die d).pool.map (fun h => h.id)).foldl releaseTag s).now } := by
  unfold loseDie State.die
  exact sget_sset_same ..

theorem loseDie_hbm (s : State) (d : ℕ) : ∀ p ∈ (loseDie s d).hbm, p.1 / 2 ^ 38 ≠ d := by
  intro p hp
  have hkept : (!(p.1 / 2 ^ 38 == d)) = true := (List.mem_filter.1 (show p ∈ List.filter _ _ from hp)).2
  rwa [Bool.not_eq_true', beq_eq_false_iff_ne] at hkept

theorem loseDie_messages (s : State) (d : ℕ) : (loseDie s d).messages = s.messages := foldl_releaseTag_messages _ s

/-- A die that has lost its supply keeps none of its registers and queues, nothing in its stacks, and no message of its cores. -/
theorem closeWindow_spec (s : State) (d : ℕ) :
    let t := closeWindow s d
    (t.die d).power = false ∧ (t.die d).tlb = [] ∧ (t.die d).pool = [] ∧ (t.die d).landing = [] ∧ (∀ p ∈ t.hbm, p.1 / 2 ^ 38 ≠ d) ∧ ∀ a ∈ t.messages, dieOf a.core ≠ d := by
  simp only [closeWindow, loseDie_die, loseDie_messages]
  exact ⟨trivial, trivial, trivial, trivial, loseDie_hbm _ d, fun a ha => by simpa using List.of_mem_filter ha⟩

/-! ## An access that misses the window -/

/-- A context that is told of a store that was lost with a link (12 R185). -/
def storeLost (a : Access) (x : Ctx) : Ctx := { x with fails := x.fails ++ [⟨a.cls, a.loc.home, true⟩] }

/-- A context that is told of it by all ones in its register. -/
def resultLost (a : Access) (x : Ctx) : Ctx :=
  { (storeLost a x).setX a.xd 0xFFFFFFFFFFFFFFFF with busy := x.busy.erase a.xd, holds := if a.hold then x.holds - 1 else x.holds }

theorem resultLost_eq (a : Access) (x : Ctx) : resultLost a x =
    { x.setX a.xd (-1) with fails := x.fails ++ [⟨a.cls, a.loc.home, true⟩], busy := x.busy.erase a.xd, holds := if a.hold then x.holds - 1 else x.holds } := by
  unfold resultLost storeLost Ctx.setX
  split_ifs <;> rfl

section
variable (h : a.ctx < 4)
include h

theorem missWindow_store {w : Word} (ho : a.op = .store w) : missWindow s a = s.modCtx a.core a.ctx (storeLost a) := by
  simp only [missWindow, if_pos h, ho]; rfl

theorem missWindow_atomic {op : AtomicOp} {w e : Word} (ho : a.op = .atomic op w e true) : missWindow s a = s.modCtx a.core a.ctx (resultLost a) := by
  simp only [missWindow, if_pos h, ho]; rfl

theorem missWindow_load {sg : Bool} (ho : a.op = .load sg) : missWindow s a = s.modCtx a.core a.ctx (fun x => { x with reissue := x.reissue ++ [a] }) := by
  simp only [missWindow, if_pos h, ho]

theorem missWindow_onlyCtx : OnlyCtx s (missWindow s a) a.core a.ctx := by
  simp only [missWindow, if_pos h]
  split <;> exact onlyCtx_modCtx ..

end

/-! ## The commit of a hold-up, and one that runs out -/

theorem holdupCommit_spec (h : (s.core c).gate = .holdup) :
    ((holdupCommit s c).core c).gate = .off ∧ Committed c 2 s.now (s.core c) ((holdupCommit s c).core c) ∧ OnlyCore s (holdupCommit s c) c := by
  obtain ⟨honly, -⟩ := commitCore_spec s c 2
  have heq : holdupCommit s c = (commitCore s c 2).modCore c (fun k => { k with gate := .off }) := if_pos h
  have hcore : (holdupCommit s c).core c = { (commitCore s c 2).core c with gate := .off } := by rw [heq, core_modCore]
  refine ⟨by rw [hcore], ?_, by rw [heq]; exact onlyCore_trans honly (onlyCore_modCore ..)⟩
  rw [hcore]; exact commitCore_committed s c 2

theorem holdupExhausted_rests (h : (s.core c).gate ≠ .holdup ∨ (s.die (dieOf c)).power = true) : exec (.holdupExhausted c g) s = .next s :=
  if_neg fun hh => by
    obtain ⟨hg, hp⟩ := hh
    rcases h with h | h
    · exact h hg
    · simp [h] at hp

theorem holdupExhausted_tears (hg : (s.core c).gate = .holdup) (hp : (s.die (dieOf c)).power = false) :
    exec (.holdupExhausted c g) s = .next (s.modCore c (fun k => k.tear (cutOther s c) g c s.now)) := if_pos ⟨hg, hp⟩

end Sys2Proof.Machine
end

section
/-! The return of supplies (26 R354, R357) and the boot (17 R296-R298). -/

namespace Sys2Proof.Machine

variable {s : State} {c d o k n j : ℕ} {b : BootImage}

/-! ## POWER_RETURN (26 R357) -/

theorem moduleOff_iff : moduleOff s = true ↔ ∀ i, i < 8 → (s.die i).power = false := by simp [moduleOff]

theorem moduleOff_eq_false (h : ∃ i, i < 8 ∧ (s.die i).power = true) : moduleOff s = false := by
  obtain ⟨i, hi, hp⟩ := h
  refine Bool.eq_false_iff.2 fun hoff => ?_
  rw [moduleOff_iff.1 hoff i hi] at hp
  cases hp

theorem powerReturn_rests (h : (s.die d).power = true ∨ ∀ i, i < 8 → (s.die i).power = false) : exec (.powerReturn d) s = .next s :=
  if_pos (by simpa [moduleOff_iff] using h)

/-- The cores of a die at the return of its supply. -/
def returnedDie (s : State) (d : ℕ) : State := (coresOf d).foldl returnCore (s.modDie d (fun x => { x with power := true, holdup := none }))

theorem anyHeld_iff {t : State} : (coresOf d).any (fun c => (t.core c).gate == .held) = true ↔ ∃ i, i < 64 ∧ (t.core (64 * d + i)).gate = .held := by simp [coresOf]

theorem powerReturn_eq (hp : (s.die d).power = false) (hm : ∃ i, i < 8 ∧ (s.die i).power = true) : exec (.powerReturn d) s =
    .next (if (coresOf d).any (fun c => ((returnedDie s d).core c).gate == .held) then raiseVector (returnedDie s d) 4098 else returnedDie s d) := by
  refine (if_neg (by simp [hp, moduleOff_eq_false hm])).trans ?_
  simp only [returnDies, List.foldl_cons, List.foldl_nil, List.any_cons, List.any_nil, Bool.or_false]
  rfl

/-! ## WAKE and DROP (07 R117, 26 R357) -/

theorem wakeWrite_rests (h : ¬ ((s.die (dieOf c)).power = true ∧ s.hub.bootst = 1) ∨ (s.core c).gate = .on) : exec (.wakeWrite c) s = .next s := by
  show execWakeWrite c s = _
  unfold execWakeWrite
  split_ifs with hm
  · rfl
  · have hm' : mayWake s c = true := by simpa using hm
    rw [h.resolve_left (not_not_intro (mayWake_iff.1 hm'))]

section
variable (hm : (s.die (dieOf c)).power = true ∧ s.hub.bootst = 1)
include hm

theorem wakeWrite_off (hg : (s.core c).gate = .off) : exec (.wakeWrite c) s = .next (wakeCore s c) := by
  show execWakeWrite c s = _
  simp only [execWakeWrite, mayWake_iff.2 hm, hg]
  rfl

theorem wakeWrite_held (hg : (s.core c).gate = .held) : exec (.wakeWrite c) s = .next (wakeHeld s c) := by
  show execWakeWrite c s = _
  simp only [execWakeWrite, mayWake_iff.2 hm, hg]
  rfl

end

/-- A core whose other state is lost stays held (26 R354). -/
theorem wakeHeld_lost (h : (s.core c).cellar.archLost (s.core c).cellar.selectGen = true) : wakeHeld s c = s := if_pos h

/-- A held core with no launch at its newest complete commit, before it goes on. -/
def wokenHeld (s : State) (c : ℕ) : State :=
  ((loseStores s c (s.core c).cellar.selectGen).modCore c (fun k => { ((k.select (s.core c).cellar.selectGen).streams []) with gate := .on })).modArch c Arch.restamp

theorem wakeHeld_idle (h : (s.core c).cellar.archLost (s.core c).cellar.selectGen = false) (hr : s.run c = none) : wakeHeld s c =
    raiseVector (goOn ((wokenHeld s c).modCluster (clusterOf c) (fun y => { y with pantry := y.pantry - blocksOf ((wokenHeld s c).seqs c) })) c) 4099 := by
  simp only [wakeHeld, h, hr]
  rfl

theorem cellarDrop_drops (hg : (s.core c).gate = .held) (hs : (s.core c).cellar.state = 1) (hp : (s.die (dieOf c)).power = true) :
    exec (.cellarDrop c) s = .next (lostParts (loseStores (s.modCore c Core.fresh) c 0) c []) := if_pos ⟨hg, hs, hp⟩

theorem cellarDrop_rests (h : (s.core c).gate ≠ .held ∨ (s.core c).cellar.state ≠ 1 ∨ (s.die (dieOf c)).power = false) : exec (.cellarDrop c) s = .next s := by
  refine if_neg fun hd => ?_
  obtain ⟨hg, hs, hp⟩ := hd
  rcases h with h | h | h
  · exact h hg
  · exact h hs
  · simp [h] at hp

/-! ## Owners that have lost stores (07 R119, 16 R288) -/

/-- A read of a table after a change of every entry but one. -/
theorem sget_map_except {α : Type} {f : α → α} {d : α} (hf : f d = d) (h : o ≠ c) (l : Sparse α) :
    sget d (l.map (fun p => if p.1 = c then p else (p.1, f p.2))) o = f (sget d l o) := by
  induction l with
  | nil => exact hf.symm
  | cons p l ih =>
    obtain ⟨i, v⟩ := p
    by_cases hi : i = c
    · subst hi
      simpa [sget_cons, h.symm] using ih
    · simp only [List.map_cons, if_neg hi, sget_cons, ih, apply_ite f]

/-- A context's note of the homes it wrote, once an owner has lost what was written there after a generation. -/
def loseWritten (owner g : ℕ) (l : List (ℕ × ℕ)) : List (ℕ × ℕ) := l.map (fun w => if w.1 = owner ∧ g < w.2 then (owner, lostGen) else w)

/-- The sequencers of a core with these notes. -/
def loseSeqs (owner g : ℕ) (q : Seqs) : Seqs := { q with ctxs := q.ctxs.map (fun p => (p.1, { p.2 with written := loseWritten owner g p.2.written })) }

theorem loseStores_written (h : o ≠ c) : ((loseStores s c n).ctx o j).written = loseWritten c n (s.ctx o j).written := by
  have hcore : (loseStores s c n).core o = { s.core o with arch := { s.arch o with
      seqs := loseSeqs c n (s.seqs o), parked := (s.arch o).parked.map (fun k => { k with seqs := loseSeqs c n k.seqs }) } } :=
    sget_map_except (f := fun k : Core => { k with arch := { k.arch with
      seqs := loseSeqs c n k.arch.seqs, parked := k.arch.parked.map (fun k => { k with seqs := loseSeqs c n k.seqs }) } }) rfl h s.cores
  rw [State.ctx, State.seqs, hcore]
  exact congrArg Ctx.written (sget_map (fun x : Ctx => { x with written := loseWritten c n x.written }) {} (s.seqs o).ctxs j)

theorem unreachable_iff : unreachable s o k c = true ↔ (c, 2 ^ 64) ∈ (s.ctx o k).written ∨ (c ≠ o ∧ (pathIn s (dieOf o) (dieOf c) 3 = true ∨ (s.die (dieOf c)).power = false
    ∨ (s.core c).gate = .holdup ∨ (s.core c).gate = .held)) := by
  simp [unreachable, lostGen, or_assoc]

/-! ## POWER_ON_BOOT (17 R298) -/

theorem bootAccepted_iff : bootAccepted b = true ↔ b.firmwareOk = true ∧ b.blockOk = true ∧ b.minimum ≤ b.version := by simp [bootAccepted, and_assoc]

/-- The hub after a boot that is accepted. -/
def bootedHub (b : BootImage) (h : Hub) : Hub := { h with
  bootst := 1, moduleNumber := b.moduleNumber, firmware := b.firmware, block := b.block
  routes := b.routes.foldl (fun r p => sset r p.1 p.2) [], imports := b.imports.foldl (fun r p => sset r p.1 p.2) [] }

/-- The module after a boot that is refused. -/
def bootRefused (s : State) : State := { s.modHub (fun h => { h with bootst := 2, bootcode := Config.bootRefusal s.free }) with free := s.free + 1 }

section
variable (hm : ∃ i, i < 8 ∧ (s.die i).power = true)
include hm

theorem powerOnBoot_rests (hb : s.hub.bootst ≠ 0) : exec (.powerOnBoot b) s = .next s := if_pos ⟨hb, moduleOff_eq_false hm⟩

theorem powerOnBoot_eq (hb : s.hub.bootst = 0) : exec (.powerOnBoot b) s = .next (if bootAccepted b then s.modHub (bootedHub b) else bootRefused s) := by
  show execPowerOnBoot b s = _
  simp only [execPowerOnBoot, moduleOff_eq_false hm, hb, ne_eq, not_true_eq_false, false_and, if_false, Bool.false_eq_true]
  split_ifs <;> rfl

end

theorem powerOnBoot_returns (hoff : ∀ i, i < 8 → (s.die i).power = false) (hb : bootAccepted b = true) :
    exec (.powerOnBoot b) s = .next (returnDies ((powerOn s).modHub (bootedHub b)) (List.range 8)) := by
  show execPowerOnBoot b s = _
  simp only [execPowerOnBoot, moduleOff_iff.2 hoff, hb, Bool.true_eq_false, and_false, if_false, if_true]
  rfl

end Sys2Proof.Machine

open Sys2Proof.Machine in
/-- Settles O53: each clause is the lemma on its event. The trickle leaves what `trickledCore_spec` says and an exhausted hold-up what `tear_block_crc` and `tear_record_crc` say, since a write to one block is none to another's copies (`writeCopy_agrees`); a gate is `coreGate_eq` with `gateCore_spec`, the end of overdue switches `boundSwitches_cluster`, the close of a window `closeWindow_spec` and `missWindow_onlyCtx`, a return `powerReturn_eq` and `wakeHeld_idle`, and a boot `powerOnBoot_eq`. -/
theorem powerEvents : Obligations.PowerEvents := by
  intro s c k d g q cause v rest b u m awake
  refine ⟨trickleWrite_rests, ?trickle, fun n i hi => hi ▸ target_spec m n, ?gate, gateHeld_iff, coreWake_rests, fun hg hm hc => if_pos ⟨hg, mayWake_iff.2 hm, hc⟩,
    ⟨accessCause_iff, arrivalCause_iff, fun r => placementCause_iff⟩, fun n => wakeComplete_rests, fun n hg hn => ⟨_, wakeComplete_wakes hg hn, _, rfl, rfl⟩, selectGen_eq m, ?railStart, ?railDone,
    fun hl x => boundSwitches_cluster hl, powerLoss_rests, fun hp hh => ⟨_, powerLoss_begins hp hh, by simp, rfl⟩, ?window, ?missed, ?commit, holdupExhausted_rests, ?exhausted,
    powerReturn_rests, ?returned, wakeWrite_rests, fun hm => wakeWrite_off hm, fun hm hg hl => (wakeWrite_held hm hg).trans (congrArg _ (wakeHeld_lost hl)),
    fun hm hg hl hr => ⟨_, wakeWrite_held hm hg, wakeHeld_idle hl hr⟩, cellarDrop_drops, fun n o j => loseStores_written, fun o => unreachable_iff, cellarDrop_rests, ?boot⟩
  case trickle =>
    intro n ns hd hg hb
    obtain ⟨hsram, hother, hblocks, hdrained, hcg, hover, hstays, hspad⟩ := trickledCore_spec hd
    refine ⟨_, trickleWrite_writes hd hg hb, ?_⟩
    simp only [State.arch, core_modCore]
    exact ⟨hsram, hother, hblocks, hdrained, hcg, hover, hstays, onlyCore_modCore .., sameMemory_modCore s c _ hspad⟩
  case gate =>
    intro ho hd may
    have heq := coreGate_eq ho hd
    refine ⟨fun hn => heq.trans (if_neg hn), fun hy hh => heq.trans ((if_pos hy).trans (if_pos hh)), fun hy hh => ?_⟩
    obtain ⟨hoff, hcg, hdirty, hacc, hmem⟩ := gateCore_spec u c
    refine ⟨_, heq.trans ((if_pos hy).trans (if_neg (by simp [hh]))), rfl, hoff, ?_, hdirty, hacc, sameMemory_trans (sameMemory_modCtx ..) hmem⟩
    rw [hcg, show (u.core c).cellar = m from cellar_modCtx ..]
  case railStart =>
    intro ho hd x
    have heq := railSwitchStart_eq ho hd
    refine ⟨fun hb => heq.trans (congrArg _ (if_pos hb)), fun hb hs => ?_, fun hb hs => ?_⟩
    · exact heq.trans (congrArg _ ((if_neg (by simp [x, hb])).trans (if_pos hs)))
    · exact heq.trans (congrArg _ ((if_neg (by simp [x, hb])).trans (if_neg hs)))
  case railDone =>
    exact ⟨fun hb => congrArg _ (endSwitch_idle hb), fun hb hw => congrArg _ (endSwitch_done hb hw), fun hb hw => congrArg _ (endSwitch_next hb hw)⟩
  case window =>
    intro n hh hp inFlight
    have heq := holdupCycle_eq hh hp
    refine ⟨fun hc t ht => ?_, fun hn hf => ?_⟩
    · obtain rfl : t = closeWindow s d := ht.trans (heq.trans (if_pos (hc.imp_right fun hf => by simpa using mt dieInFlight_iff.1 hf)))
      exact closeWindow_spec s d
    · have hflight : dieInFlight s d = true := dieInFlight_iff.2 hf
      exact heq.trans (if_neg (by simp [hflight, hn]))
  case missed =>
    rintro a ha t rfl x fails
    refine ⟨fun w ho => ?_, fun op w e ho => ?_, fun sg ho => ?_, missWindow_onlyCtx ha⟩
    · rw [missWindow_store ha ho, ctx_modCtx]; rfl
    · rw [missWindow_atomic ha ho, ctx_modCtx, resultLost_eq]
    · rw [missWindow_load ha ho, ctx_modCtx]
  case commit =>
    rintro hg t rfl
    obtain ⟨hoff, ⟨hcg, hdirty, -, hrec⟩, honly⟩ := holdupCommit_spec hg
    exact ⟨hoff, hcg, hdirty, hrec, honly⟩
  case exhausted =>
    intro hg hp
    refine ⟨_, holdupExhausted_tears hg hp, ?_⟩
    simp only [core_modCore]
    obtain ⟨hoff, hdirty, hexh, hcg⟩ := tear_spec (s.core c) (cutOther s c) g c s.now
    exact ⟨hoff, hdirty, hexh, hcg, ⟨tear_record_crc, fun x => tear_block_crc⟩, trivial⟩
  case returned =>
    intro hp hm t
    have heq := powerReturn_eq hp hm
    refine ⟨fun hnone => heq.trans (congrArg _ (if_neg fun hany => ?_)), fun i hi hheld => heq.trans (congrArg _ (if_pos (anyHeld_iff.2 ⟨i, hi, hheld⟩)))⟩
    obtain ⟨i, hi, hheld⟩ := anyHeld_iff.1 hany
    exact hnone i hi hheld
  case boot =>
    intro good boots
    refine ⟨fun hb hm => powerOnBoot_rests hm hb, fun hb hm => ⟨fun hg => ?_, fun hg => ?_⟩, fun hoff hg => powerOnBoot_returns hoff (bootAccepted_iff.2 hg)⟩
    · exact (powerOnBoot_eq hm hb).trans (congrArg _ (if_pos (bootAccepted_iff.2 hg)))
    · exact ⟨_, (powerOnBoot_eq hm hb).trans (congrArg _ (if_neg (mt bootAccepted_iff.1 hg))), rfl, rfl⟩
end

section
/-! Accumulator elements, tiles and operand blocks as numbers (08 R127-R131, 14 R240, R241, R243, R248): rounding, a K-block added to an element, ANORM, an effect over all elements of a tile, and what each operand type's block holds. -/

namespace Sys2Proof.Machine

variable {e : AccElem} {a b : ℕ × ℤ × List ℤ} {k n : ℕ}

/-! ## Rounding to the nearest integer (08 R125) -/

theorem nearestEven_neg (P : ℤ) (k : ℕ) : nearestEven (-P) k = -nearestEven P k := by
  have hd : (0 : ℤ) < 2 ^ k := by positivity
  have hP := Int.emod_add_mul_ediv P (2 ^ k)
  have h0 := Int.emod_nonneg P hd.ne'
  have h1 := Int.emod_lt_of_pos P hd
  unfold nearestEven
  generalize P / 2 ^ k = q at hP
  generalize P % 2 ^ k = r at hP h0 h1
  generalize (2 : ℤ) ^ k = d at hd hP h1
  rcases h0.eq_or_lt with rfl | hr
  · obtain ⟨hq, hm⟩ : -P / d = -q ∧ -P % d = 0 := (Int.ediv_emod_unique hd).2 ⟨by rw [← hP]; ring, le_rfl, hd⟩
    simp [hq, hm, hd]
  · obtain ⟨hq, hm⟩ : -P / d = -q - 1 ∧ -P % d = d - r := (Int.ediv_emod_unique hd).2 ⟨by rw [← hP]; ring, by omega, by omega⟩
    simp only [hq, hm]
    split_ifs <;> omega

theorem nearestEven_natCast (n k : ℕ) (neg : Bool) : nearestEven n k = roundNat .rne neg n (2 ^ k) := by
  unfold nearestEven roundNat
  rw [show (2 : ℤ) ^ k = (2 ^ k : ℕ) by push_cast; rfl]
  generalize 2 ^ k = d
  simp only [← Int.natCast_ediv, ← Int.natCast_emod, Bool.or_eq_true, Bool.and_eq_true, decide_eq_true_eq, beq_iff_eq, Nat.cast_ite, Nat.cast_add, Nat.cast_one]
  generalize n / d = q
  generalize n % d = r
  split_ifs <;> omega

/-- The machine rounds a number of sign and magnitude as R125 rounds the integer. -/
theorem roundInt_rne (P : ℤ) (k : ℕ) : roundInt .rne (decide (P < 0)) P.natAbs (-(k : ℤ)) = nearestEven P k := by
  have hs : scale2 P.natAbs 1 (-(k : ℤ)) = (P.natAbs, 2 ^ k) := by
    unfold scale2
    split_ifs with h
    · obtain rfl : k = 0 := by omega
      simp
    · simp
  unfold roundInt
  simp only [hs, ← nearestEven_natCast, decide_eq_true_eq]
  split_ifs with h
  · rw [← nearestEven_neg]; congr 1; omega
  · congr 1; omega

theorem natAbs_mod_eq_zero_iff (P : ℤ) (k : ℕ) : P.natAbs % 2 ^ k = 0 ↔ P % 2 ^ k = 0 := by
  rw [← Nat.dvd_iff_mod_eq_zero, ← Int.dvd_iff_emod_eq_zero, ← Int.natAbs_dvd_natAbs]
  simp [Int.natAbs_pow]

/-! ## One K-block (08 R130) -/

/-- Writing A and X, each as the bits of its number. -/
theorem setAX_eq (e : AccElem) (A X : ℤ) (flags : BitVec 16) :
    (e.setAX A X).setF flags = { e.holds A flags with x := BitVec.ofInt 16 X } := by
  have hm : BitVec.ofNat 48 (wrapInt 64 A) = BitVec.ofInt 48 A := by
    apply BitVec.eq_of_toNat_eq; rw [BitVec.toNat_ofNat, BitVec.toNat_ofInt, wrapInt]; omega
  have hg : BitVec.ofNat 16 (wrapInt 64 A / 2 ^ 48) = BitVec.ofInt 16 (A / 2 ^ 48) := by
    apply BitVec.eq_of_toNat_eq; rw [BitVec.toNat_ofNat, BitVec.toNat_ofInt, wrapInt]; omega
  have hx : BitVec.ofNat 16 (wrapInt 16 X) = BitVec.ofInt 16 X := by
    apply BitVec.eq_of_toNat_eq; rw [BitVec.toNat_ofNat, BitVec.toNat_ofInt, wrapInt]; omega
  show (⟨BitVec.ofNat 48 (wrapInt 64 A), BitVec.ofNat 16 (wrapInt 64 A / 2 ^ 48), BitVec.ofNat 16 (wrapInt 16 X), e.f ||| flags⟩ : AccElem) = _
  rw [hm, hg, hx]
  rfl

theorem setAX_keeps_x (e : AccElem) (A : ℤ) (flags : BitVec 16) : (e.setAX A e.x.toInt).setF flags = e.holds A flags := by
  rw [setAX_eq, BitVec.ofInt_toInt]; rfl

/-- The partial of a block, term by term. -/
theorem foldl_zipWith_mul (p q : List ℤ) (hp : p.length = n) (hq : q.length = n) :
    (List.zipWith (· * ·) p q).foldl (· + ·) 0 = ((List.range n).map (fun k => p.getD k 0 * q.getD k 0)).sum := by
  rw [← List.sum_eq_foldl]
  congr 1
  apply List.ext_getElem
  · simp [hp, hq]
  · intro i h1 h2
    simp at h1
    simp [h1.1, h1.2]

theorem blockStep_eq_blockAdded (ha : a.2.2.length = 32) (hb : b.2.2.length = 32) : blockStep a b e = blockAdded e a b := by
  unfold blockStep blockAdded
  rw [foldl_zipWith_mul _ _ ha hb]
  generalize ((List.range 32).map (fun k => a.2.2.getD k 0 * b.2.2.getD k 0)).sum = P
  generalize a.2.1 + b.2.1 = f
  refine ite_congr rfl (fun _ => rfl) fun _ => ?_
  unfold accumulate
  refine ite_congr rfl (fun _ => rfl) fun _ => ?_
  simp only [xs_toInt, show e.a = e.mantissa from a_toInt e, setAX_keeps_x, clamp_eq _ _ _ (show -(2 : ℤ) ^ 63 ≤ 2 ^ 63 - 1 by norm_num), fOvf, fInx]
  rcases lt_or_ge 40 (f - e.x.toInt) with hfar | hnear
  · simp only [hfar, if_true, true_or, show ¬ f < e.x.toInt by omega, false_and, if_false]
    split_ifs <;> rfl
  · simp only [show ¬ 40 < f - e.x.toInt by omega, if_false, false_or]
    rcases le_or_gt e.x.toInt f with hle | hlt
    · simp only [hle, show 0 ≤ f - e.x.toInt by omega, show ¬ f < e.x.toInt by omega, if_true, if_false, false_and]
      rw [BitVec.or_comm]
    · have hr : roundInt .rne (decide (P < 0)) P.natAbs (f - e.x.toInt) = nearestEven P (e.x.toInt - f).toNat := by
        rw [← roundInt_rne]; congr 1; omega
      simp only [show ¬ 0 ≤ f - e.x.toInt by omega, show ¬ e.x.toInt ≤ f by omega, hlt, if_false, hr, neg_sub, natAbs_mod_eq_zero_iff, true_and, ne_eq, ite_not]
      rw [BitVec.or_comm]

/-! ## ANORM (08 R131) -/

/-- A shifted down by s fits 48 bits. -/
def Fits48 (A : ℤ) (s : ℕ) : Prop := -2 ^ 47 ≤ nearestEven A s ∧ nearestEven A s ≤ 2 ^ 47 - 1

/-- The search finds the least shift that fits, where one in its range does. -/
theorem normShift_spec (A : ℤ) (n s : ℕ) (h : ∃ j, s ≤ j ∧ j < s + n ∧ Fits48 A j) :
    Fits48 A (normShift A n s) ∧ ∀ j, s ≤ j → j < normShift A n s → ¬ Fits48 A j := by
  obtain ⟨j, hsj, hjn, hj⟩ := h
  induction n generalizing s with
  | zero => omega
  | succ n ih =>
    simp only [normShift, roundInt_rne]
    split_ifs with hs
    · exact ⟨hs, fun i hi hlt => absurd hi (by omega)⟩
    · have hne : j ≠ s := fun h => hs (h ▸ hj)
      obtain ⟨hf, hleast⟩ := ih (s + 1) (by omega) (by omega)
      refine ⟨hf, fun i hi hlt => ?_⟩
      rcases hi.eq_or_lt with rfl | hi'
      · exact hs
      · exact hleast i hi' hlt

/-- A shift by 17 makes any 64-bit A fit. -/
theorem fits48_mantissa (e : AccElem) : Fits48 e.mantissa 17 := by
  have hlo : -2 ^ 63 ≤ e.mantissa := BitVec.le_toInt (e.g ++ e.m)
  have hhi : e.mantissa < 2 ^ 63 := BitVec.toInt_lt (x := e.g ++ e.m)
  unfold Fits48 nearestEven
  generalize e.mantissa = A at hlo hhi
  simp only
  split_ifs <;> omega

theorem normalise_normalised (e : AccElem) : Normalised e (normalise e) := by
  obtain ⟨hfits, hleast⟩ := normShift_spec e.mantissa 18 0 ⟨17, by omega, by omega, fits48_mantissa e⟩
  have hn : normalise e = if 32767 < e.x.toInt + normShift e.mantissa 18 0 then e.setF fXr
      else { e.holds (nearestEven e.mantissa (normShift e.mantissa 18 0)) (if e.mantissa % 2 ^ normShift e.mantissa 18 0 = 0 then 0 else fInx) with
        x := BitVec.ofInt 16 (e.x.toInt + normShift e.mantissa 18 0) } := by
    simp only [normalise, setAX_eq, xs_toInt, show e.a = e.mantissa from a_toInt e, roundInt_rne, natAbs_mod_eq_zero_iff]
  refine ⟨normShift e.mantissa 18 0, hfits, fun j hj => hleast j (Nat.zero_le j) hj, fun h => ?_, fun h => ?_⟩
  · rw [hn, if_pos h]; rfl
  · rw [hn, if_neg (by omega), BitVec.ofInt_add, BitVec.ofInt_toInt]
    simp only [ne_eq, ite_not, fInx, BitVec.ofInt_natCast]

/-! ## The elements of a tile after an effect -/

theorem sget_nil_of_lt {l : Sparse AccElem} {x : ℕ} (h : ∀ p ∈ l, x < p.1) : sget {} l x = {} := by
  rcases sget_or l x with hmem | h0
  · exact absurd (h _ hmem) (lt_irrefl x)
  · exact h0

theorem sget_mapElems_of_lt (f : ℕ → AccElem → AccElem) (n i : ℕ) (l : Sparse AccElem) {x : ℕ} (h : x < i) : sget {} (mapElems f n i l) x = {} := by
  induction n generalizing i l with
  | zero => rfl
  | succ n ih =>
    have hx : i ≠ x := by omega
    have hrest (l : Sparse AccElem) : sget {} (mapElems f n (i + 1) l) x = {} := ih (i + 1) l (by omega)
    rcases l with _ | ⟨⟨k, v⟩, t⟩
    · simp only [mapElems]
      split_ifs <;> simp only [sget_cons, hx, if_false, hrest]
    · by_cases hk : k = i
      all_goals
        simp only [mapElems, hk, if_true, if_false]
        split_ifs <;> simp only [sget_cons, hx, if_false, hrest]

/-- What is left of a tile's entries once that of number i is taken. -/
def entriesAfter (i : ℕ) : Sparse AccElem → Sparse AccElem
  | (k, v) :: t => if k = i then t else (k, v) :: t
  | [] => []

section
variable {l : Sparse AccElem} {i : ℕ} (hl : (l.map (fun x => x.1)).Pairwise (· < ·)) (hi : ∀ p ∈ l, i ≤ p.1)
include hl hi

/-- The next element of a tile whose entries begin at number i or later. -/
theorem mapElems_succ (f : ℕ → AccElem → AccElem) (n : ℕ) :
    mapElems f (n + 1) i l = if f i (sget {} l i) = {} then mapElems f n (i + 1) (entriesAfter i l) else (i, f i (sget {} l i)) :: mapElems f n (i + 1) (entriesAfter i l) := by
  rcases l with _ | ⟨⟨k, v⟩, t⟩
  · rfl
  · by_cases hk : k = i
    · simp [mapElems, entriesAfter, sget_cons, hk]
    · have h0 : sget {} ((k, v) :: t) i = {} := by
        refine sget_nil_of_lt fun p hp => ?_
        have hki : i ≤ k := hi (k, v) (by simp)
        rcases List.mem_cons.1 hp with rfl | hp
        · show i < k; omega
        · have : k < p.1 := (List.pairwise_cons.1 hl).1 p.1 (List.mem_map_of_mem hp)
          omega
      rw [h0]
      simp [mapElems, entriesAfter, hk]

theorem entriesAfter_spec : ((entriesAfter i l).map (fun x => x.1)).Pairwise (· < ·) ∧ (∀ p ∈ entriesAfter i l, i + 1 ≤ p.1) ∧ ∀ x, i < x → sget {} (entriesAfter i l) x = sget {} l x := by
  rcases l with _ | ⟨⟨k, v⟩, t⟩
  · exact ⟨hl, fun p hp => absurd hp List.not_mem_nil, fun _ _ => rfl⟩
  · obtain ⟨hkt, ht⟩ := List.pairwise_cons.1 hl
    have hki : i ≤ k := hi (k, v) (by simp)
    have hbig : ∀ p ∈ t, k < p.1 := fun p hp => hkt p.1 (List.mem_map_of_mem hp)
    rw [show entriesAfter i ((k, v) :: t) = if k = i then t else (k, v) :: t from rfl]
    split_ifs with hk
    · exact ⟨ht, fun p hp => by have := hbig p hp; omega, fun x hx => by rw [sget_cons, if_neg (by omega)]⟩
    · refine ⟨hl, fun p hp => ?_, fun _ _ => rfl⟩
      rcases List.mem_cons.1 hp with rfl | hp
      · show i + 1 ≤ k; omega
      · have := hbig p hp; omega

theorem sget_mapElems (f : ℕ → AccElem → AccElem) (n : ℕ) {x : ℕ} (h1 : i ≤ x) (h2 : x < i + n) : sget {} (mapElems f n i l) x = f x (sget {} l x) := by
  induction n generalizing i l with
  | zero => omega
  | succ n ih =>
    obtain ⟨hsort, hge, hsame⟩ := entriesAfter_spec hl hi
    rw [mapElems_succ hl hi]
    rcases h1.eq_or_lt with rfl | hlt
    · split_ifs with h0
      · rw [sget_mapElems_of_lt _ _ _ _ (Nat.lt_succ_self i), h0]
      · simp [sget_cons]
    · have hrest := ih hsort hge (by omega) (by omega)
      rw [hsame x hlt] at hrest
      split_ifs with h0
      · exact hrest
      · rw [sget_cons, if_neg (by omega)]; exact hrest

end

section
variable {t : Tile} (ht : (t.elems.map (fun x => x.1)).Pairwise (· < ·))
include ht

theorem elem_map (f : ℕ → AccElem → AccElem) {x : ℕ} (hx : x < 4096) : sget {} (t.map f).elems x = f x (sget {} t.elems x) :=
  sget_mapElems ht (fun _ _ => Nat.zero_le _) f 4096 (Nat.zero_le x) (by omega)

theorem elem_map_at (f : ℕ → AccElem → AccElem) {i j : ℕ} (hi : i < 64) (hj : j < 64) :
    sget {} (t.map f).elems (64 * i + j) = f (64 * i + j) (sget {} t.elems (64 * i + j)) := elem_map ht f (by omega)

end

/-! ## Operand blocks (08 R127, R128, 14 R240, R241) -/

theorem operandBlock_length (c tile i b : ℕ) : (operandBlock c tile i b).2.2.length = 32 := by
  have hfeed (f : Fmt) (x : ℕ → ℕ) : (feed f ((List.range 32).map x)).2.length = 32 := (feed_feeds f x).1
  unfold operandBlock
  split <;> simp [hfeed]

theorem mxfp4_eq {x : ℕ} (h : x < 16) : mxfp4 x = (if 8 ≤ x then -1 else 1) * ([0, 1, 2, 3, 4, 6, 8, 12].getD (x % 8) 0 : ℤ) := by
  revert x; decide

theorem opBits_eq {code : ℕ} (h : code < 11) : opBits code = [4, 4, 8, 8, 4, 6, 8, 4, 8, 8, 16].getD code 0 := by
  interval_cases code <;> rfl

/-- The bits of element k of block b of row i, of m bits each. -/
def rawElem (m tile i b k : ℕ) : ℕ := tile / 2 ^ (m * (128 * i + 32 * b + k)) % 2 ^ m

/-- An element of a block whose elements stand for integers on their own. -/
theorem getD_raw {α : Type} (g : ℕ → α) (x : ℕ → ℕ) (d : α) (hk : k < 32) : (((List.range 32).map x).map g).getD k d = g (x k) := by
  simp [hk]

/-- Integer types have no scale. -/
theorem operandBlock_int {code : ℕ} (tile i b : ℕ) (hc : code ≤ 3) :
    (operandBlock code tile i b).1 = 0 ∧ (operandBlock code tile i b).2.1 = 0 ∧ ∀ k, k < 32 → (operandBlock code tile i b).2.2.getD k 0
      = if code % 2 = 1 then (rawElem (opBits code) tile i b k : ℤ) else (BitVec.ofNat (opBits code) (rawElem (opBits code) tile i b k)).toInt := by
  interval_cases code
  · exact ⟨rfl, rfl, fun k hk => (getD_raw (sextNat 4) (rawElem 4 tile i b) 0 hk).trans (sextNat_toInt 4 _ (by omega))⟩
  · exact ⟨rfl, rfl, fun k hk => getD_raw Int.ofNat (rawElem 4 tile i b) 0 hk⟩
  · exact ⟨rfl, rfl, fun k hk => (getD_raw (sextNat 8) (rawElem 8 tile i b) 0 hk).trans (sextNat_toInt 8 _ (by omega))⟩
  · exact ⟨rfl, rfl, fun k hk => getD_raw Int.ofNat (rawElem 8 tile i b) 0 hk⟩

/-- Types with a scale section: the scale is the block's byte of that section, the exponent is it without the type's bias. -/
theorem operandBlock_scaled {code : ℕ} (tile i b : ℕ) (hlo : 4 ≤ code) (hhi : code ≤ 7) :
    let S : ℕ := tile / 2 ^ (8 * (elemBytes code + 4 * i + b)) % 256
    (operandBlock code tile i b).1 = S ∧ (operandBlock code tile i b).2.1 = (S : ℤ) - [129, 131, 133, 128].getD (code - 4) 0
    ∧ ∀ k, k < 32 → (operandBlock code tile i b).2.2.getD k 0
      = if code = 7 then (if 8 ≤ rawElem (opBits code) tile i b k then -1 else 1) * ([0, 1, 2, 3, 4, 6, 8, 12].getD (rawElem (opBits code) tile i b k % 8) 0 : ℤ)
        else (BitVec.ofNat (opBits code) (rawElem (opBits code) tile i b k)).toInt := by
  interval_cases code
  · exact ⟨rfl, rfl, fun k hk => (getD_raw (sextNat 4) (rawElem 4 tile i b) 0 hk).trans (sextNat_toInt 4 _ (by omega))⟩
  · exact ⟨rfl, rfl, fun k hk => (getD_raw (sextNat 6) (rawElem 6 tile i b) 0 hk).trans (sextNat_toInt 6 _ (by omega))⟩
  · exact ⟨rfl, rfl, fun k hk => (getD_raw (sextNat 8) (rawElem 8 tile i b) 0 hk).trans (sextNat_toInt 8 _ (by omega))⟩
  · exact ⟨rfl, rfl, fun k hk => (getD_raw mxfp4 (rawElem 4 tile i b) 0 hk).trans (mxfp4_eq (Nat.mod_lt _ (by norm_num)))⟩

/-- Floating types go through the operand feeder. -/
theorem operandBlock_fed {code : ℕ} (tile i b : ℕ) (hlo : 8 ≤ code) (hhi : code < 11) :
    (operandBlock code tile i b).2.1 = ((operandBlock code tile i b).1 : ℤ) - 133
    ∧ Feeds (if code = 8 then fmtE4m3 else if code = 9 then fmtE5m2 else fmtBf16) (rawElem (opBits code) tile i b) (operandBlock code tile i b).1
        (fun k => (operandBlock code tile i b).2.2.getD k 0) := by
  have hfeeds (f : Fmt) (x : ℕ → ℕ) := (feed_feeds f x).2
  interval_cases code
  · exact ⟨rfl, hfeeds fmtE4m3 _⟩
  · exact ⟨rfl, hfeeds fmtE5m2 _⟩
  · exact ⟨rfl, hfeeds fmtBf16 _⟩

/-! ## An MMA over a tile (14 R243) -/

/-- An element after the four K-blocks of its row of A and its column of B. -/
def fourBlocks (ta tb A B i j : ℕ) (e : AccElem) : AccElem :=
  blockAdded (blockAdded (blockAdded (blockAdded e (operandBlock ta A i 0) (operandBlock tb B j 0)) (operandBlock ta A i 1) (operandBlock tb B j 1))
    (operandBlock ta A i 2) (operandBlock tb B j 2)) (operandBlock ta A i 3) (operandBlock tb B j 3)

theorem foldl_blockStep (ta tb A B i j : ℕ) (e : AccElem) :
    (List.zip ((List.range 4).map (fun k => operandBlock ta A i k)) ((List.range 4).map (fun k => operandBlock tb B j k))).foldl (fun e p => blockStep p.1 p.2 e) e
      = fourBlocks ta tb A B i j e := by
  have hstep (k : ℕ) (e : AccElem) : blockStep (operandBlock ta A i k) (operandBlock tb B j k) e = blockAdded e (operandBlock ta A i k) (operandBlock tb B j k) :=
    blockStep_eq_blockAdded (operandBlock_length _ _ _ _) (operandBlock_length _ _ _ _)
  simp only [List.range_succ, List.range_zero, List.nil_append, List.cons_append, List.map_cons, List.map_nil, List.zip_cons_cons, List.zip_nil_right, List.foldl_cons, List.foldl_nil, hstep]
  rfl

theorem mmaTile_elem {t : Tile} (ht : (t.elems.map (fun x => x.1)).Pairwise (· < ·)) (ta tb A B : ℕ) (pad : BitVec 64) (bad : List ℕ) {i j : ℕ} (hi : i < 64) (hj : j < 64) :
    sget {} (mmaTile ta tb A B pad bad t).elems (64 * i + j) =
      if pad.getLsbD i = false then sget {} t.elems (64 * i + j)
      else if 64 * i + j ∈ bad then (fourBlocks ta tb A B i j (sget {} t.elems (64 * i + j))).setF fPsn
      else fourBlocks ta tb A B i j (sget {} t.elems (64 * i + j)) := by
  have hrow : (64 * i + j) / 64 = i := by omega
  have hcol : (64 * i + j) % 64 = j := by omega
  have hblocks (c x n : ℕ) (hn : n < 64) : (((List.range 64).map (fun i => (List.range 4).map (fun k => operandBlock c x i k)))[n]?).getD [] = (List.range 4).map (fun k => operandBlock c x n k) := by
    simp [hn]
  unfold mmaTile
  dsimp only
  rw [elem_map_at ht _ hi hj]
  simp only [hrow, hcol, hblocks _ _ _ hi, hblocks _ _ _ hj, foldl_blockStep, Bool.not_eq_true', List.contains_eq_mem, decide_eq_true_eq]

theorem depthAfter_toNat (d : BitVec 16) (n : ℕ) : (depthAfter d n).toNat = min 65535 (d.toNat + n) := by
  rw [depthAfter, BitVec.toNat_ofNat, Nat.mod_eq_of_lt (by omega), min_comm]

/-! ## AWR (14 R248) -/

theorem awrElem_eq (sel : AccSel) (w : BitVec 64) (e : AccElem) : awrElem sel w.toNat e = match sel with
    | .m => { e with m := w.extractLsb' 0 48 }
    | .g => { e with g := w.extractLsb' 0 16 }
    | .x => { e with x := w.extractLsb' 0 16 }
    | .f => { e with f := (e.f &&& 0xFFF0) ||| (w.extractLsb' 0 4).setWidth 16 } := by
  have hlow (n : ℕ) : BitVec.ofNat n w.toNat = w.extractLsb' 0 n := by apply BitVec.eq_of_toNat_eq; simp
  have hf : BitVec.ofNat 16 (w.toNat % 16) = (w.extractLsb' 0 4).setWidth 16 := by apply BitVec.eq_of_toNat_eq; simp
  cases sel <;> simp only [awrElem, hlow, hf]

end Sys2Proof.Machine
end

section
/-! The matrix queue (14 R237, R243-R245, 25 R350): when its head starts, waits or faults, and what MATRIX_QUEUE_DEQUEUE leaves. -/

namespace Sys2Proof.Machine

variable {s t : State} {c n place ra rb q d pa pb : ℕ} {h : MqEntry} {rest : List MqEntry} {f : FaultInfo} {w word : Word} {fq : List Word}

/-! ## The oldest tile of a ring (06 R107) -/

theorem claim_eq_some_iff {r : Ring} {taken : List ℕ} {a : ℕ} : r.claim taken = some a ↔ Oldest r taken a := by
  unfold Ring.claim Oldest
  rw [← List.range'_eq_map_range, List.find?_range'_eq_some]
  simp only [List.mem_range'_1, Bool.and_eq_true, Bool.not_eq_true', List.contains_eq_mem, decide_eq_false_iff_not]
  constructor
  · rintro ⟨⟨hp, ht⟩, ⟨hh, hlt⟩, hbefore⟩
    refine ⟨hh, by omega, hp, ht, fun x h1 h2 => ?_⟩
    have := hbefore x h1 h2
    simp at this
    tauto
  · rintro ⟨hh, hlt, hp, ht, hbefore⟩
    refine ⟨⟨hp, ht⟩, ⟨hh, by omega⟩, fun x h1 h2 => ?_⟩
    have := hbefore x h1 h2
    simp
    tauto

theorem claim_eq_none_iff {r : Ring} {taken : List ℕ} : r.claim taken = none ↔ ∀ a, ¬ Oldest r taken a := by
  simp only [Option.eq_none_iff_forall_ne_some, ne_eq, claim_eq_some_iff]

/-! ## The time of the head -/

/-- The head's time has come: it entered a cycle ago, the pace allows it, and the entry before it leaves the array free (14 R237). -/
theorem mqTiming_iff : mqTiming s c h = true ↔ h.entered + 1 ≤ s.coreTime c ∧ gapPassed s c .cp (s.cp c).lastDequeue = true
    ∧ ∀ st occ, (s.cp c).mqLast = some (st, occ) → st + occ ≤ s.coreTime c + 2 := by
  cases hl : (s.cp c).mqLast with
  | none => simp [mqTiming, hl]
  | some p =>
    obtain ⟨st, occ⟩ := p
    simp [mqTiming, hl, and_assoc]

/-- The queue's head may start now. -/
def MayStart (s : State) (c : ℕ) (h : MqEntry) (rest : List MqEntry) : Prop :=
  coreLive s c = true ∧ (s.cp c).halted = false ∧ ((s.core c).dbg.halt && (s.core c).dbg.qhold) = false ∧ (s.cp c).mq = h :: rest
    ∧ h.entered + 1 ≤ s.coreTime c ∧ gapPassed s c .cp (s.cp c).lastDequeue = true
    ∧ ∀ st occ, (s.cp c).mqLast = some (st, occ) → st + occ ≤ s.coreTime c + 2

theorem MayStart.mq (hm : MayStart s c h rest) : (s.cp c).mq = h :: rest := by
  obtain ⟨-, -, -, hq, -⟩ := hm
  exact hq

theorem MayStart.timing (hm : MayStart s c h rest) : mqTiming s c h = true := by
  obtain ⟨-, -, -, -, htime⟩ := hm
  exact mqTiming_iff.2 htime

/-! ## The step by what the head answers -/

theorem dequeue_idle (ha : mqHead s c = .idle) : exec (.matrixQueueDequeue c) s = .next s := by
  show execMatrixQueueDequeue c s = _
  simp [execMatrixQueueDequeue, ha]

/-- Where the queue is empty, halted, held or too early, or its core is not live (in a freeze the model's choice, log 96), nothing happens. -/
theorem dequeue_rests (hr : (s.cp c).mq = [] ∨ (s.cp c).halted = true ∨ coreLive s c = false ∨ ((s.core c).dbg.halt = true ∧ (s.core c).dbg.qhold = true)
    ∨ ((s.cp c).mq = h :: rest ∧ (s.coreTime c ≤ h.entered ∨ gapPassed s c .cp (s.cp c).lastDequeue = false ∨ ∃ st occ, (s.cp c).mqLast = some (st, occ) ∧ s.coreTime c + 2 < st + occ))) :
    exec (.matrixQueueDequeue c) s = .next s := by
  rcases hr with hq | hhalt | hlive | ⟨hh, hqh⟩ | ⟨hq, hearly⟩
  · exact dequeue_idle (by simp [mqHead, hq])
  · exact if_pos (by simp [hhalt])
  · exact if_pos (by simp [hlive])
  · exact if_pos (by simp [hh, hqh])
  · have ht : ¬ mqTiming s c h = true := by
      rw [mqTiming_iff]
      rintro ⟨hent, hgap, hlast⟩
      rcases hearly with he | hg | ⟨st, occ, hl, hlt⟩
      · omega
      · simp [hg] at hgap
      · have := hlast st occ hl; omega
    exact dequeue_idle (by simp [mqHead, hq, ht])

/-- An entry has started: it left the queue for the array, where it runs from two cycles later on (14 R237). -/
def Started (s : State) (c : ℕ) (h : MqEntry) (rest : List MqEntry) (occ : ℕ) (word : BitVec 64) (pa pb : ℕ) (t : State) : Prop :=
  ∃ j, t.cp c = { s.cp c with mq := rest, lastDequeue := some (s.coreTime c), paced := false, mqLast := some (s.coreTime c + 2, occ)
                              mflight := (s.cp c).mflight ++ [⟨h, s.coreTime c + 2, occ, word, pa, pb, j⟩] }

/-- The head's fault stops the core at once, or is held until a halt ends (14 R244, 24 R337). -/
def HeadFaults (s : State) (c : ℕ) (h : MqEntry) (f : FaultInfo) : Prop :=
  ((s.core c).dbg.halt = false → exec (.matrixQueueDequeue c) s = .next (takeStop (s.modCp c (fun p => { p with halted := true })) c 5 f.isw f.faddr h.num 0 h.pc))
  ∧ ((s.core c).dbg.halt = true → Ends (.matrixQueueDequeue c) s (fun t => t.cp c = { s.cp c with halted := true, fault := some ⟨f, h.num, h.pc, s.now⟩ }
      ∧ (t.core c).dbg = { (s.core c).dbg with pend := true } ∧ OnlyCore s t c ∧ SameMemory s t))

theorem mqTrap_held {num pc : ℕ} (hh : (s.core c).dbg.halt = true) : mqTrap s c num pc f = s.modCore c (fun k => { k with
    arch := { k.arch with seqs := { k.arch.seqs with cp := { k.arch.seqs.cp with halted := true, fault := some ⟨f, num, pc, s.now⟩ } } }
    dbg := { k.dbg with pend := true } }) := by
  simp [mqTrap, hh, State.modCp, State.modSeqs, State.modArch]

section
variable (hm : MayStart s c h rest)
include hm

theorem dequeue_waits (ha : mqHead s c = .waitFq t) : exec (.matrixQueueDequeue c) s = .next t := by
  obtain ⟨hlive, hhalt, hhold, -⟩ := hm
  show execMatrixQueueDequeue c s = _
  simp [execMatrixQueueDequeue, ha, hlive, hhalt, hhold]

theorem dequeue_starts (ha : mqHead s c = .start t) : exec (.matrixQueueDequeue c) s
    = .next ((if (s.cp c).paced then countEvent t c 10 1 else t).modCp c (fun p => { p with paced := false })) := by
  obtain ⟨hlive, hhalt, hhold, -⟩ := hm
  show execMatrixQueueDequeue c s = _
  simp [execMatrixQueueDequeue, ha, hlive, hhalt, hhold]

theorem dequeue_faults (ha : mqHead s c = .fault f) : HeadFaults s c h f := by
  have he : exec (.matrixQueueDequeue c) s = .next (mqTrap s c h.num h.pc f) := by
    obtain ⟨hlive, hhalt, hhold, hq, -⟩ := hm
    show execMatrixQueueDequeue c s = _
    simp [execMatrixQueueDequeue, ha, hlive, hhalt, hhold, hq]
  refine ⟨fun hh => by rw [he, mqTrap_running hh], fun hh => ⟨_, he, ?_⟩⟩
  rw [mqTrap_held hh]
  exact ⟨by simp [State.cp, State.seqs], by simp, onlyCore_modCore s c _, sameMemory_modCore s c _ rfl⟩

end

/-! ## The start of an entry (14 R237, 05 R90) -/

/-- Counting an event leaves the sequencers. -/
theorem seqs_countEvent (s : State) (c code n : ℕ) : (countEvent s c code n).seqs c = s.seqs c := by
  obtain ⟨-, -, harch⟩ := countEvent_spec s c code n
  show ((countEvent s c code n).arch c).seqs = (s.arch c).seqs
  rw [harch]

theorem seqs_modRun (s : State) (c : ℕ) (f : Running → Running) : (s.modRun c f).seqs c = s.seqs c := by
  simp [State.seqs, State.modRun, State.modArch]

theorem seqs_journalWrite (s : State) (c idx num eng flags pc prog : ℕ) : (journalWrite s c idx num eng flags pc prog).seqs c = s.seqs c := by
  unfold journalWrite
  split
  · simp [State.spadWrite, State.seqs, spadWrite_arch]
  · rfl

/-- What the start of an entry leaves of the sequencers: an MMA alone pops its format word. -/
theorem seqs_mqStart (s : State) (c : ℕ) (h : MqEntry) (word : Word) (pa pb : ℕ) : ∃ j, (mqStart s c h word pa pb).seqs c = { s.seqs c with
    fq := if isMma h.op then (s.seqs c).fq.tail else (s.seqs c).fq
    cp := { s.cp c with mq := (s.cp c).mq.tail, lastDequeue := some (s.coreTime c), mqLast := some (s.coreTime c + 2, occupancy h.op word)
                        mflight := (s.cp c).mflight ++ [⟨h, s.coreTime c + 2, occupancy h.op word, word, pa, pb, j⟩] } } := by
  refine ⟨match s.run c with | some r => r.jcount | none => 0, ?_⟩
  by_cases hop : isMma h.op = true
  · simp only [mqStart, hop, if_true, State.modCp, seqs_modSeqs, seqs_modRun, seqs_journalWrite]; rfl
  · simp only [mqStart, hop, State.modCp, seqs_modSeqs]; rfl

/-- The step at a head that starts. -/
theorem dequeue_started (hm : MayStart s c h rest) (ha : mqHead s c = .start (mqStart s c h word pa pb)) :
    Ends (.matrixQueueDequeue c) s (fun t => Started s c h rest (occupancy h.op word) word pa pb t
      ∧ (t.seqs c).fq = if isMma h.op then (s.seqs c).fq.tail else (s.seqs c).fq) := by
  refine ⟨_, dequeue_starts hm ha, ?_⟩
  obtain ⟨j, hj⟩ := seqs_mqStart s c h word pa pb
  have hsame : ((if (s.cp c).paced then countEvent (mqStart s c h word pa pb) c 10 1 else mqStart s c h word pa pb)).seqs c = (mqStart s c h word pa pb).seqs c := by
    split
    · exact seqs_countEvent _ _ _ _
    · rfl
  refine ⟨⟨j, ?_⟩, ?_⟩
  · rw [cp_modCp, State.cp, hsame, hj, hm.mq]; rfl
  · rw [State.modCp, seqs_modSeqs, hsame, hj]

/-! ## What the head answers (14 R237, R244, R245) -/

section
variable (hm : MayStart s c h rest)
include hm

theorem mqHead_aclrImm {i : BitVec 16} (ho : h.op = .aclrImm q d i) : mqHead s c = .start (mqStart s c h 0 0 0) := by
  simp [mqHead, hm.mq, hm.timing, ho]

theorem mqHead_anorm (ho : h.op = .anorm q d) : mqHead s c = .start (mqStart s c h 0 0 0) := by
  simp [mqHead, hm.mq, hm.timing, ho]

theorem mqHead_awr {m a row : ℕ} {sel : AccSel} (ho : h.op = .awr q m sel d a row) : mqHead s c = .start (mqStart s c h 0 0 0) := by
  simp [mqHead, hm.mq, hm.timing, ho]

theorem mqHead_aclrPeek (ho : h.op = .aclrPeek q d) (hf : (s.seqs c).fq = w :: fq) : mqHead s c = .start (mqStart s c h w 0 0) := by
  simp [mqHead, hm.mq, hm.timing, ho, hf]

theorem mqHead_aclrPeek_waits (ho : h.op = .aclrPeek q d) (hf : (s.seqs c).fq = []) : mqHead s c = .waitFq s := by
  simp [mqHead, hm.mq, hm.timing, ho, hf]

variable (ho : h.op = .mma q d ra rb)
include ho

theorem mqHead_mma_faults (hf : mmaFault s c ra rb = some f) : mqHead s c = .fault f := by
  simp [mqHead, hm.mq, hm.timing, ho, hf]

variable (hn : mmaFault s c ra rb = none)
include hn

theorem mqHead_mma_waits (hf : (s.seqs c).fq = []) :
    mqHead s c = .waitFq (s.modCp c (fun p => { p with mq := { h with readyAt := some (h.readyAt.getD (s.coreTime c)) } :: p.mq.tail })) := by
  simp [mqHead, hm.mq, hm.timing, ho, hn, hf]

theorem mqHead_mma_noTile (hf : (s.seqs c).fq = w :: fq)
    (hnone : (s.ring c ra).claim (mqClaims (s.cp c) ra) = none ∨ (s.ring c rb).claim (mqClaims (s.cp c) rb) = none) : mqHead s c = .idle := by
  unfold mqHead
  simp only [hm.mq, hm.timing, ho, hn, hf]
  rcases hnone with h | h
  · rw [h]; rfl
  · rw [h]
    cases (s.ring c ra).claim (mqClaims (s.cp c) ra) <;> rfl

/-- With a tile of each ring at hand only poison holds an MMA back (25 R350). -/
theorem mqHead_mma_tiles {a b : ℕ} (hf : (s.seqs c).fq = w :: fq) (ha : Oldest (s.ring c ra) (mqClaims (s.cp c) ra) a) (hb : Oldest (s.ring c rb) (mqClaims (s.cp c) rb) b) :
    let badA := operandPoison s c ra a (spansA (w.toNat / 2 ^ 44 % 16) (padMask s c))
    let badB := operandPoison s c rb b (spansB (w.toNat / 2 ^ 40 % 16))
    (badA = true → mqHead s c = .fault (faultOf 0x08 8 (hallAddr c ((s.ring c ra).placeOff a))))
    ∧ (badA = false → badB = true → mqHead s c = .fault (faultOf 0x08 8 (hallAddr c ((s.ring c rb).placeOff b))))
    ∧ (badA = false → badB = false → mqHead s c = .start (mqStart s c h w a b)) := by
  intro badA badB
  unfold mqHead
  simp only [hm.mq, hm.timing, ho, hn, hf, claim_eq_some_iff.2 ha, claim_eq_some_iff.2 hb]
  refine ⟨fun hA => ?_, fun hA hB => ?_, fun hA hB => ?_⟩
  · rw [if_pos hA]; rfl
  · rw [if_neg (Bool.eq_false_iff.1 hA), if_pos hB]; rfl
  · rw [if_neg (Bool.eq_false_iff.1 hA), if_neg (Bool.eq_false_iff.1 hB)]; rfl

end

/-! ## The checks of an MMA (14 R244) -/

section
variable (s c ra rb)

theorem mmaFault_ringA (hv : (s.ring c ra).v = false) : mmaFault s c ra rb = some (ringFault s c ra) := by
  simp [mmaFault, hv]

variable (hva : (s.ring c ra).v = true)
include hva

theorem mmaFault_ringB (hv : (s.ring c rb).v = false) : mmaFault s c ra rb = some (ringFault s c rb) := by
  simp [mmaFault, hva, hv]

variable (hvb : (s.ring c rb).v = true)
include hvb

theorem mmaFault_noWord (hf : (s.seqs c).fq = []) : mmaFault s c ra rb = none := by
  simp [mmaFault, hva, hvb, hf]

/-- The checks of the format word, and of the tile sizes that its types ask for. -/
theorem mmaFault_word (hf : (s.seqs c).fq = w :: fq) :
    let ta := w.toNat / 2 ^ 44 % 16
    let tb := w.toNat / 2 ^ 40 % 16
    let sound : Prop := ta < 11 ∧ tb < 11 ∧ w.toNat % 2 ^ 38 = 0
    (¬ sound → mmaFault s c ra rb = some (faultOf 0x01 3 0))
    ∧ (sound → (s.ring c ra).tile < operandBytes ta → mmaFault s c ra rb = some (ringFault s c ra))
    ∧ (sound → operandBytes ta ≤ (s.ring c ra).tile → (s.ring c rb).tile < operandBytes tb → mmaFault s c ra rb = some (ringFault s c rb))
    ∧ (sound → operandBytes ta ≤ (s.ring c ra).tile → operandBytes tb ≤ (s.ring c rb).tile → mmaFault s c ra rb = none) := by
  intro ta tb sound
  have hs : (11 ≤ ta ∨ 11 ≤ tb ∨ w.toNat % 2 ^ 38 ≠ 0) ↔ ¬ sound := by simp only [sound]; omega
  have he : mmaFault s c ra rb = if ¬ sound then some (faultOf 0x01 3 0)
      else if (s.ring c ra).tile < operandBytes ta then some (ringFault s c ra)
      else if (s.ring c rb).tile < operandBytes tb then some (ringFault s c rb) else none := by
    rw [← if_congr hs rfl rfl]
    simp [mmaFault, hva, hvb, hf, ta, tb]
  rw [he]
  refine ⟨fun h => if_pos h, fun h ha => ?_, fun h ha hb => ?_, fun h ha hb => ?_⟩
  all_goals rw [if_neg (not_not.2 h)]
  · exact if_pos ha
  · rw [if_neg (by omega), if_pos hb]
  · rw [if_neg (by omega), if_neg (by omega)]

end

/-! ## Poison in the operands (25 R350, 03 R57) -/

theorem spadPoison_of_isEmpty (h0 : (s.core c).poisonSpad.isEmpty = true) (a n : ℕ) : s.spadPoison c a n = false := by
  simp [State.spadPoison, touches, List.isEmpty_iff.1 h0]

theorem operandPoison_iff {spans : List (ℕ × ℕ)} :
    operandPoison s c n place spans = true ↔ ∃ p ∈ spans, s.spadPoison c ((s.ring c n).placeOff place + p.1) p.2 = true := by
  unfold operandPoison
  by_cases h0 : (s.core c).poisonSpad.isEmpty = true
  · simp [h0, spadPoison_of_isEmpty h0]
  · simp [h0]

theorem operandPoison_spansB {code : ℕ} :
    operandPoison s c n place (spansB code) = true ↔ s.spadPoison c ((s.ring c n).placeOff place) (operandBytes code) = true := by
  simp [operandPoison_iff, spansB]

theorem operandPoison_spansA {code : ℕ} {pad : BitVec 64} :
    operandPoison s c n place (spansA code pad) = true ↔ ∃ i, i < 64 ∧ pad.getLsbD i = true ∧
      (s.spadPoison c ((s.ring c n).placeOff place + 16 * opBits code * i) (16 * opBits code) = true
        ∨ (hasScale code = true ∧ s.spadPoison c ((s.ring c n).placeOff place + (elemBytes code + 4 * i)) 4 = true)) := by
  simp only [operandPoison_iff, spansA, List.mem_flatMap, List.mem_filter, List.mem_range, List.mem_cons]
  constructor
  · rintro ⟨p, ⟨i, ⟨hi, hp⟩, rfl | hs⟩, hx⟩
    · exact ⟨i, hi, hp, .inl hx⟩
    · split_ifs at hs with hsc
      · obtain rfl := List.mem_singleton.1 hs
        exact ⟨i, hi, hp, .inr ⟨hsc, hx⟩⟩
      · simp at hs
  · rintro ⟨i, hi, hp, hx | ⟨hsc, hx⟩⟩
    · exact ⟨_, ⟨i, ⟨hi, hp⟩, .inl rfl⟩, hx⟩
    · exact ⟨(elemBytes code + 4 * i, 4), ⟨i, ⟨hi, hp⟩, .inr (by simp [hsc])⟩, hx⟩

end Sys2Proof.Machine
end

section
/-! The matrix array (14 R243, 25 R352): when its first entry retires, and what the retirement leaves of the tiles, the rings, the completion number and the count of retries. -/

namespace Sys2Proof.Machine

variable {s t u : State} {c n ra rb q d : ℕ} {r : MqRun} {runs : List MqRun} {err : ResidueErrors} {bad : List ℕ}

/-! ## What a retirement's ends leave -/

/-- The accumulators, the rings, the entries in the array, the CP's completion number and the dies are the same. -/
structure SameArray (s t : State) (c : ℕ) : Prop where
  acc : (t.core c).acc = (s.core c).acc
  rings : (t.seqs c).rings = (s.seqs c).rings
  mflight : (t.cp c).mflight = (s.cp c).mflight
  cn : (t.cp c).cn = (s.cp c).cn
  dies : t.dies = s.dies

theorem SameArray.refl : SameArray s s c := ⟨rfl, rfl, rfl, rfl, rfl⟩

theorem SameArray.trans (h : SameArray s t c) (h' : SameArray t u c) : SameArray s u c :=
  ⟨h'.acc.trans h.acc, h'.rings.trans h.rings, h'.mflight.trans h.mflight, h'.cn.trans h.cn, h'.dies.trans h.dies⟩

/-- A change that leaves the sequencers, the accumulators and the dies. -/
theorem SameArray.of_seqs (hacc : (t.core c).acc = (s.core c).acc) (hseqs : t.seqs c = s.seqs c) (hdies : t.dies = s.dies) : SameArray s t c :=
  ⟨hacc, congrArg Seqs.rings hseqs, congrArg (fun q : Seqs => q.cp.mflight) hseqs, congrArg (fun q : Seqs => q.cp.cn) hseqs, hdies⟩

theorem sameArray_modCore {f : Core → Core} (hacc : (f (s.core c)).acc = (s.core c).acc) (harch : (f (s.core c)).arch = (s.core c).arch) :
    SameArray s (s.modCore c f) c := by
  have hcore : (s.modCore c f).core c = f (s.core c) := core_modCore _ _ _
  exact .of_seqs ((congrArg Core.acc hcore).trans hacc) (congrArg Arch.seqs ((congrArg Core.arch hcore).trans harch)) rfl

theorem acc_modSeqs (s : State) (c : ℕ) (f : Seqs → Seqs) : ((s.modSeqs c f).core c).acc = (s.core c).acc := by
  simp [State.modSeqs, State.modArch]

theorem sameArray_modSeqs {f : Seqs → Seqs} (hr : (f (s.seqs c)).rings = (s.seqs c).rings) (hm : (f (s.seqs c)).cp.mflight = (s.cp c).mflight)
    (hn : (f (s.seqs c)).cp.cn = (s.cp c).cn) : SameArray s (s.modSeqs c f) c := by
  have hseqs : (s.modSeqs c f).seqs c = f (s.seqs c) := seqs_modSeqs _ _ _
  exact ⟨acc_modSeqs _ _ _, (congrArg Seqs.rings hseqs).trans hr, (congrArg (fun q : Seqs => q.cp.mflight) hseqs).trans hm,
    (congrArg (fun q : Seqs => q.cp.cn) hseqs).trans hn, rfl⟩

theorem sameArray_modCp {f : Cp → Cp} (hm : (f (s.cp c)).mflight = (s.cp c).mflight) (hn : (f (s.cp c)).cn = (s.cp c).cn) : SameArray s (s.modCp c f) c :=
  sameArray_modSeqs rfl hm hn

theorem spadWrite_acc (k : Core) (off : ℕ) (bs : List Byte) : (k.spadWrite off bs).acc = k.acc := rfl

theorem sameArray_journalWrite {idx num eng flags pc prog : ℕ} : SameArray s (journalWrite s c idx num eng flags pc prog) c := by
  unfold journalWrite
  split
  · exact sameArray_modCore (spadWrite_acc _ _ _) (spadWrite_arch _ _ _)
  · exact .refl

theorem sameArray_countEvent {code n : ℕ} : SameArray s (countEvent s c code n) c := by
  refine .of_seqs ?_ (seqs_countEvent s c code n) ?_
  all_goals unfold countEvent; split
  · simp [State.modCsrs, State.modArch]
  · rfl
  · rfl
  · rfl

theorem sameArray_setFlags {ex : Option ℕ} : SameArray s (setFlags s c ex) c :=
  List.foldlRecOn _ _ (motive := fun t => SameArray s t c) .refl fun t ht k _ => by
    split
    · exact ht
    · exact ht.trans (sameArray_modSeqs rfl rfl rfl)

theorem sameArray_pushToken {num q : ℕ} : SameArray s (pushToken s c .cp num q) c := by
  unfold pushToken
  split
  · exact sameArray_modSeqs rfl rfl rfl
  · rw [setPushes]; exact sameArray_modCp rfl rfl

theorem sameArray_pushTokens {num : ℕ} {su sd : Bool} : SameArray s (pushTokens s c .cp num su sd) c := by
  unfold pushTokens
  cases su <;> cases sd
  · exact .refl
  · exact sameArray_pushToken
  · exact sameArray_pushToken
  · exact sameArray_pushToken.trans sameArray_pushToken

theorem sameArray_settleBundles : SameArray s (settleBundles s c) c :=
  List.foldlRecOn _ _ (motive := fun t => SameArray s t c) (sameArray_modCp rfl rfl) fun _ ht _ _ => ht.trans sameArray_pushTokens

theorem sameArray_landWrite (w : CpWrite) : SameArray s (landWrite s c w) c := by
  cases w with
  | vec => rw [landWrite]; exact sameArray_modCore rfl rfl
  | k | m | q | h | ht | bank | hcfg | table => rw [landWrite]; exact sameArray_modCp rfl rfl

theorem sameArray_landAll : SameArray s (landAll s c) c :=
  List.foldlRecOn _ _ (motive := fun t => SameArray s t c) (sameArray_modCp rfl rfl) fun _ ht x _ => ht.trans (sameArray_landWrite x.write)

theorem sameArray_cpEnds : SameArray s (cpEnds s c) c := by
  unfold cpEnds
  dsimp only
  split
  · exact sameArray_landAll.trans (sameArray_modCp rfl rfl)
  · exact .refl

/-! ## The completion number (05 R90) -/

theorem le_advanceCn (ahead : List ℕ) (n cn : ℕ) : cn ≤ advanceCn ahead n cn := by
  induction n generalizing cn with
  | zero => exact le_rfl
  | succ n ih =>
    unfold advanceCn
    split
    · exact (Nat.le_succ cn).trans (ih (cn + 1))
    · exact le_rfl

/-- The number after the last one counted counts at once. -/
theorem lt_advanceCn {ahead : List ℕ} {cn : ℕ} (h : cn + 1 ∈ ahead) : cn + 1 ≤ advanceCn ahead ahead.length cn := by
  obtain ⟨n, hn⟩ : ∃ n, ahead.length = n + 1 := ⟨ahead.length - 1, by have := List.length_pos_of_mem h; omega⟩
  rw [hn, advanceCn, if_pos (by simpa using h)]
  exact le_advanceCn ahead n (cn + 1)

/-- A matrix command finishes: its number counts, and of the array nothing else changes. -/
theorem finishNumber_cp (s : State) (c n : ℕ) : (s.cp c).cn ≤ ((finishNumber s c .cp n).cp c).cn
    ∧ (n = (s.cp c).cn + 1 → n ≤ ((finishNumber s c .cp n).cp c).cn)
    ∧ ((finishNumber s c .cp n).core c).acc = (s.core c).acc ∧ ((finishNumber s c .cp n).seqs c).rings = (s.seqs c).rings
    ∧ ((finishNumber s c .cp n).cp c).mflight = (s.cp c).mflight ∧ (finishNumber s c .cp n).dies = s.dies := by
  have hflags : SameArray (s.modCp c (fun p => { p with cn := advanceCn (insertNat p.ahead n) (insertNat p.ahead n).length p.cn
                                                        ahead := (insertNat p.ahead n).filter (fun k => decide (advanceCn (insertNat p.ahead n) (insertNat p.ahead n).length p.cn < k)) }))
      (finishNumber s c .cp n) c := by
    unfold finishNumber
    dsimp only
    split
    · exact .refl
    · exact sameArray_setFlags
  rw [hflags.acc, hflags.rings, hflags.mflight, hflags.dies, hflags.cn, cp_modCp]
  refine ⟨le_advanceCn _ _ _, ?_, acc_modSeqs _ _ _, by rw [State.modCp, seqs_modSeqs], rfl, rfl⟩
  rintro rfl
  exact lt_advanceCn (mem_insertNat.2 (.inr rfl))

/-! ## The effect of the first entry -/

/-- The first entry has its effect on its tile and leaves the array. -/
def effected (s : State) (c : ℕ) (r : MqRun) (runs : List MqRun) (bad : List ℕ) : State :=
  (markTile (s.modCore c (fun k => { k with acc := sset k.acc (mqTile r.entry.op) (mqEffect s c r bad (sget {} k.acc (mqTile r.entry.op))) })) c (mqTile r.entry.op)).modCp c
    (fun p => { p with mflight := runs })

theorem core_effected : (effected s c r runs bad).core c = { (s.core c).mark (accBlock + 192 * mqTile r.entry.op) (accBlock + 192 * mqTile r.entry.op + 192) with
    acc := sset (s.core c).acc (mqTile r.entry.op) (mqEffect s c r bad (sget {} (s.core c).acc (mqTile r.entry.op)))
    arch := { (s.core c).arch with seqs := { s.seqs c with cp := { s.cp c with mflight := runs } } } } := by
  simp only [effected, markTile, State.modCp, State.modSeqs, State.modArch, core_modCore, modCore_modCore]
  rfl

theorem seqs_effected : (effected s c r runs bad).seqs c = { s.seqs c with cp := { s.cp c with mflight := runs } } := by
  rw [State.seqs, core_effected]

/-- The entry's tile alone changes. -/
theorem acc_effected (n : ℕ) : sget {} ((effected s c r runs bad).core c).acc n =
    if n = mqTile r.entry.op then mqEffect s c r bad (sget {} (s.core c).acc n) else sget {} (s.core c).acc n := by
  rw [core_effected]
  exact (sget_sset _ _ _ _ _).trans (by split_ifs with h <;> simp [h])

/-- An entry that is no MMA retires with its effect and its bundle's tokens. -/
theorem mqRetire_other (hf : (s.cp c).mflight = r :: runs) (ho : isMma r.entry.op = false) :
    mqRetire s c err = settleBundles (effected s c r runs []) c := by
  unfold mqRetire
  split
  next h => simp [h] at hf
  next r' rest h =>
    obtain ⟨rfl, rfl⟩ := List.cons.inj (h.symm.trans hf)
    rw [if_neg (Bool.eq_false_iff.1 ho)]
    split
    next hop => simp [hop, isMma] at ho
    next => rfl

/-- The rings after an MMA has popped the tiles that its word does not keep. -/
def popped (s : State) (c ra rb : ℕ) (r : MqRun) : State :=
  let s := if keepA r.word then s else s.modRing c ra (fun g => g.pop r.placeA)
  if keepB r.word then s else s.modRing c rb (fun g => g.pop r.placeB)

/-- Retries are counted in their die (25 R352). -/
def retried (s : State) (c n : ℕ) : State := s.modDie (dieOf c) (fun x => { x with resid := BitVec.ofNat 16 (min 65535 (x.resid.toNat + n)) })

/-- An MMA has finished: its retries, its journal entry, its number, its bundle's tokens and its event (05 R90, 17 R302). -/
def mmaFinished (s : State) (c : ℕ) (r : MqRun) (retries : ℕ) : State :=
  countEvent (settleBundles (finishNumber (journalWrite (retried s c retries) c r.jidx r.entry.num 5 1 (r.entry.pc % 8192) 0) c .cp r.entry.num) c) c 3 1

theorem mqRetire_mma (hf : (s.cp c).mflight = r :: runs) (ho : r.entry.op = .mma q d ra rb) :
    mqRetire s c err = mmaFinished (popped (effected s c r runs err.poisoned) c ra rb r) c r err.retries := by
  unfold mqRetire
  split
  next h => simp [h] at hf
  next r' rest h =>
    obtain ⟨rfl, rfl⟩ := List.cons.inj (h.symm.trans hf)
    rw [if_pos (by rw [ho]; rfl)]
    split
    next hop =>
      obtain ⟨-, -, rfl, rfl⟩ := Instr.mma.inj (hop.symm.trans ho)
      rfl
    next hno => exact absurd ho (hno _ _ _ _)

/-! ## What finishes with an MMA -/

/-- Ring g after the pops. -/
theorem ring_popped (s : State) (c ra rb g : ℕ) (r : MqRun) : (popped s c ra rb r).ring c g =
    let q := if g = ra ∧ keepA r.word = false then (s.ring c g).pop r.placeA else s.ring c g
    if g = rb ∧ keepB r.word = false then q.pop r.placeB else q := by
  have hpop (s : State) (n place : ℕ) : (s.modRing c n (fun g => g.pop place)).ring c g = if g = n then (s.ring c g).pop place else s.ring c g := by
    simp only [State.ring, State.modRing, seqs_modSeqs, sget_sset]
    split_ifs with h <;> simp [h]
  unfold popped
  cases keepA r.word <;> cases keepB r.word <;> simp [hpop]

/-- The pops leave all else of the array. -/
theorem popped_frame (s : State) (c ra rb : ℕ) (r : MqRun) : ((popped s c ra rb r).core c).acc = (s.core c).acc ∧ (popped s c ra rb r).cp c = s.cp c ∧ (popped s c ra rb r).dies = s.dies := by
  have hcp (s : State) (n : ℕ) (f : Ring → Ring) : (s.modRing c n f).cp c = s.cp c := by simp [State.cp, State.modRing]
  have hacc (s : State) (n : ℕ) (f : Ring → Ring) : ((s.modRing c n f).core c).acc = (s.core c).acc := acc_modSeqs _ _ _
  unfold popped
  cases keepA r.word <;> cases keepB r.word <;> simp [hcp, hacc]

theorem core_retried (s : State) (c n d : ℕ) : (retried s c n).core d = s.core d := rfl
theorem seqs_retried (s : State) (c n d : ℕ) : (retried s c n).seqs d = s.seqs d := rfl

theorem resid_retried (s : State) (c n : ℕ) : ((retried s c n).die (dieOf c)).resid.toNat = min 65535 ((s.die (dieOf c)).resid.toNat + n) := by
  rw [retried, die_modDie, BitVec.toNat_ofNat, Nat.mod_eq_of_lt (by omega)]

/-- What finishes with an MMA leaves the accumulators, the rings and the other entries. -/
theorem mmaFinished_spec (s : State) (c : ℕ) (r : MqRun) (retries : ℕ) :
    let t := cpEnds (mmaFinished s c r retries) c
    (t.core c).acc = (s.core c).acc ∧ (∀ g, t.ring c g = s.ring c g) ∧ (t.cp c).mflight = (s.cp c).mflight
    ∧ (s.cp c).cn ≤ (t.cp c).cn ∧ (r.entry.num = (s.cp c).cn + 1 → r.entry.num ≤ (t.cp c).cn)
    ∧ (t.die (dieOf c)).resid.toNat = min 65535 ((s.die (dieOf c)).resid.toNat + retries) := by
  have hj : SameArray (retried s c retries) (journalWrite (retried s c retries) c r.jidx r.entry.num 5 1 (r.entry.pc % 8192) 0) c := sameArray_journalWrite
  unfold mmaFinished
  generalize journalWrite (retried s c retries) c r.jidx r.entry.num 5 1 (r.entry.pc % 8192) 0 = j at hj ⊢
  obtain ⟨hcn, hnum, hacc, hrings, hmflight, hdies⟩ := finishNumber_cp j c r.entry.num
  intro t
  have ht : SameArray (finishNumber j c .cp r.entry.num) t c := sameArray_settleBundles.trans (sameArray_countEvent.trans sameArray_cpEnds)
  have hcp : (retried s c retries).cp c = s.cp c := congrArg Seqs.cp (seqs_retried s c retries c)
  rw [hj.cn, hcp, ← ht.cn] at hcn hnum
  refine ⟨?_, fun g => ?_, ?_, hcn, hnum, ?_⟩
  · rw [ht.acc, hacc, hj.acc, core_retried]
  · rw [State.ring, ht.rings, hrings, hj.rings, seqs_retried]; rfl
  · rw [ht.mflight, hmflight, hj.mflight, hcp]
  · rw [State.die, ht.dies, hdies, hj.dies]
    exact resid_retried s c retries

/-! ## The step MATRIX_ENTRY_RETIRE -/

/-- The mismatches fit: only an MMA meets any, an element is spoiled only where a block was computed again, and the next entry has not started before its time (25 R352). -/
def ErrorsFit (r : MqRun) (runs : List MqRun) (err : ResidueErrors) : Prop :=
  (isMma r.entry.op = true ∨ err.retries = 0) ∧ (err.poisoned = [] ∨ 0 < err.retries) ∧ ∀ m ms, runs = m :: ms → err.retries = 0 ∨ retireAt r err ≤ m.start

theorem errorsFit_iff (hf : (s.cp c).mflight = r :: runs) : errorsFit (s.cp c) err = true ↔ ErrorsFit r runs err := by
  unfold ErrorsFit
  cases runs with
  | nil => simp [errorsFit, hf]
  | cons m ms =>
    simp only [errorsFit, hf, Bool.and_eq_true, Bool.or_eq_true, decide_eq_true_eq, List.isEmpty_iff, List.cons.injEq, and_assoc]
    refine and_congr_right fun _ => and_congr_right fun _ => ⟨?_, fun h => (h m ms ⟨rfl, rfl⟩).symm⟩
    rintro h _ _ ⟨rfl, -⟩
    exact h.symm

/-- Where the array is empty, its first entry not due or its mismatches do not fit, nothing happens; nor in a freeze (the model's choice, log 96). -/
theorem retire_rests (hr : (s.cp c).mflight = [] ∨ ((s.cp c).mflight = r :: runs ∧ (s.coreTime c < retireAt r err ∨ ¬ ErrorsFit r runs err)) ∨ (s.core c).gate ≠ .on ∨ clocked s c = false) :
    exec (.matrixEntryRetire c err) s = .next s := by
  show execMatrixEntryRetire c err s = _
  unfold execMatrixEntryRetire
  rcases hr with hf | ⟨hf, hlate⟩ | hg | hc
  · simp [hf]
  · have hno : ¬ (errorsFit (s.cp c) err && decide (retireAt r err ≤ s.coreTime c)) = true := by
      rw [Bool.and_eq_true, errorsFit_iff hf, decide_eq_true_eq]
      rintro ⟨hfit, htime⟩
      rcases hlate with h | h
      · omega
      · exact h hfit
    simp [hf, hno]
  · simp [hg]
  · simp [hc]

section
variable (hg : (s.core c).gate = .on) (hc : clocked s c = true) (hf : (s.cp c).mflight = r :: runs) (ht : retireAt r err ≤ s.coreTime c) (hfit : ErrorsFit r runs err)
include hg hc hf ht hfit

theorem retire_eq : exec (.matrixEntryRetire c err) s = .next (cpEnds (mqRetire s c err) c) := by
  show execMatrixEntryRetire c err s = _
  unfold execMatrixEntryRetire
  simp [hg, hc, hf, ht, (errorsFit_iff hf).2 hfit]

/-- An entry that is no MMA retires: its tile takes the effect, and no other changes. -/
theorem retire_other (ho : isMma r.entry.op = false) : Ends (.matrixEntryRetire c err) s (fun t => (t.cp c).mflight = runs
    ∧ sget {} (t.core c).acc (mqTile r.entry.op) = mqEffect s c r [] (sget {} (s.core c).acc (mqTile r.entry.op))
    ∧ ∀ m, m ≠ mqTile r.entry.op → sget {} (t.core c).acc m = sget {} (s.core c).acc m) := by
  refine ⟨_, retire_eq hg hc hf ht hfit, ?_⟩
  rw [mqRetire_other hf ho]
  have hsame := (sameArray_settleBundles (s := effected s c r runs []) (c := c)).trans sameArray_cpEnds
  beta_reduce
  rw [hsame.acc, hsame.mflight, State.cp, seqs_effected]
  exact ⟨rfl, by rw [acc_effected, if_pos rfl], fun m hm => by rw [acc_effected, if_neg hm]⟩

/-- An MMA retires: its tile takes the effect, its rings are popped, its number counts, and so do its retries. -/
theorem retire_mma (ho : r.entry.op = .mma q n ra rb) : Ends (.matrixEntryRetire c err) s (fun t => (t.cp c).mflight = runs
    ∧ sget {} (t.core c).acc n = mqEffect s c r err.poisoned (sget {} (s.core c).acc n)
    ∧ (∀ m, m ≠ n → sget {} (t.core c).acc m = sget {} (s.core c).acc m)
    ∧ (∀ g, t.ring c g = (popped s c ra rb r).ring c g)
    ∧ (s.cp c).cn ≤ (t.cp c).cn ∧ (r.entry.num = (s.cp c).cn + 1 → r.entry.num ≤ (t.cp c).cn)
    ∧ (t.die (dieOf c)).resid.toNat = min 65535 ((s.die (dieOf c)).resid.toNat + err.retries)) := by
  have htile : mqTile r.entry.op = n := by rw [ho]; rfl
  refine ⟨_, retire_eq hg hc hf ht hfit, ?_⟩
  rw [mqRetire_mma hf ho]
  beta_reduce
  obtain ⟨haccP, hcpP, hdiesP⟩ := popped_frame (effected s c r runs err.poisoned) c ra rb r
  obtain ⟨hacc, hring, hmflight, hcn, hnum, hresid⟩ := mmaFinished_spec (popped (effected s c r runs err.poisoned) c ra rb r) c r err.retries
  have hcp : (popped (effected s c r runs err.poisoned) c ra rb r).cp c = { s.cp c with mflight := runs } := by rw [hcpP, State.cp, seqs_effected]
  have hsameRing (g : ℕ) : (effected s c r runs err.poisoned).ring c g = s.ring c g := by rw [State.ring, seqs_effected]; rfl
  have hdie : (popped (effected s c r runs err.poisoned) c ra rb r).die (dieOf c) = s.die (dieOf c) := by
    rw [State.die, hdiesP]; rfl
  rw [hcp] at hmflight hcn hnum
  rw [hdie] at hresid
  rw [hacc, haccP]
  refine ⟨hmflight, ?_, fun m hm => ?_, fun g => ?_, hcn, hnum, hresid⟩
  · rw [acc_effected, htile, if_pos rfl]
  · rw [acc_effected, htile, if_neg hm]
  · rw [hring, ring_popped, ring_popped, hsameRing]

end

end Sys2Proof.Machine
end

section
/-! The effects of the entries on their tile (14 R243, R245, R246, R248), and the matrix queue's statement. -/

namespace Sys2Proof.Machine

variable {s : State} {c n ra rb q m row : ℕ} {r : MqRun} {bad : List ℕ} {t : Tile} {sel : AccSel}

theorem mqEffect_mma (ho : r.entry.op = .mma q n ra rb) : mqEffect s c r bad t =
    mmaTile (r.word.toNat / 2 ^ 44 % 16) (r.word.toNat / 2 ^ 40 % 16) (bytesNat (s.spadRead c ((s.ring c ra).placeOff r.placeA) (s.ring c ra).tile))
      (bytesNat (s.spadRead c ((s.ring c rb).placeOff r.placeB) (s.ring c rb).tile)) (padMask s c) bad t := by
  unfold mqEffect
  rw [ho]

section
variable (ht : (t.elems.map (fun x => x.1)).Pairwise (· < ·))
include ht

/-- Every element of a tile is cleared. -/
theorem clear_elems (x : BitVec 16) : ∀ k, k < 4096 → sget {} (t.map (fun _ _ => clearElem x)).elems k = ⟨0, 0, x, 0⟩ := fun _ hk => elem_map ht _ hk

theorem mqEffect_aclrPeek (ho : r.entry.op = .aclrPeek q n) :
    (mqEffect s c r bad t).depth = 0 ∧ ∀ k, k < 4096 → sget {} (mqEffect s c r bad t).elems k = ⟨0, 0, r.word.extractLsb' 48 16, 0⟩ := by
  have hx : BitVec.ofNat 16 (r.word.toNat / 2 ^ 48) = r.word.extractLsb' 48 16 := by
    apply BitVec.eq_of_toNat_eq; rw [BitVec.extractLsb'_toNat, Nat.shiftRight_eq_div_pow, BitVec.toNat_ofNat]
  unfold mqEffect
  rw [ho, ← hx]
  exact ⟨rfl, clear_elems ht _⟩

theorem mqEffect_aclrImm {i : BitVec 16} (ho : r.entry.op = .aclrImm q n i) :
    (mqEffect s c r bad t).depth = 0 ∧ ∀ k, k < 4096 → sget {} (mqEffect s c r bad t).elems k = ⟨0, 0, i, 0⟩ := by
  unfold mqEffect
  rw [ho]
  exact ⟨rfl, clear_elems ht _⟩

theorem mqEffect_anorm (ho : r.entry.op = .anorm q n) :
    (mqEffect s c r bad t).depth = 0 ∧ ∀ k, k < 4096 → Normalised (sget {} t.elems k) (sget {} (mqEffect s c r bad t).elems k) := by
  unfold mqEffect
  rw [ho]
  refine ⟨rfl, fun k hk => ?_⟩
  dsimp only
  rw [elem_map ht _ hk]
  exact normalise_normalised _

theorem mqEffect_awr (ho : r.entry.op = .awr q m sel n ra row) :
    (mqEffect s c r bad t).depth = t.depth ∧ ∀ i j, i < 64 → j < 64 → sget {} (mqEffect s c r bad t).elems (64 * i + j) =
      if i = row ∧ r.entry.mask.getLsbD j = true then awrElem sel (r.entry.source.extractLsb' (64 * j) 64).toNat (sget {} t.elems (64 * i + j))
      else sget {} t.elems (64 * i + j) := by
  unfold mqEffect
  rw [ho]
  refine ⟨rfl, fun i j hi hj => ?_⟩
  dsimp only
  rw [elem_map_at ht _ hi hj, show (64 * i + j) / 64 = i by omega, show (64 * i + j) % 64 = j by omega, BitVec.extractLsb'_toNat, Nat.shiftRight_eq_div_pow]

end

end Sys2Proof.Machine

open Sys2Proof.Machine in
/-- Settles O35: the head of the matrix queue by the answer of each of its checks, the retirement by the effect of each entry, the operand blocks by their type. -/
theorem matrixQueue : Obligations.MatrixQueue := by
  intro s c h rest r runs err p dq now may starts faults badRing
  have started {occ : ℕ} (hm : may) (ha : mqHead s c = .start (mqStart s c h 0 0 0)) (hocc : occupancy h.op 0 = occ) : Ends dq s (starts occ 0 0 0) := by
    obtain ⟨t, he, hs, -⟩ := dequeue_started hm ha
    exact ⟨t, he, hocc ▸ hs⟩
  refine ⟨?aclrImm, ?anorm, ?awr, ?aclrPeek, ?aclrPeekWaits, ?mma, dequeue_rests, ?retire, ?blocks⟩
  case aclrImm =>
    rintro hm ⟨q, d, i, ho⟩
    exact started hm (mqHead_aclrImm hm ho) (by rw [ho]; rfl)
  case anorm =>
    rintro hm ⟨q, d, ho⟩
    exact started hm (mqHead_anorm hm ho) (by rw [ho]; rfl)
  case awr =>
    rintro hm ⟨q, m, sel, d, a, row, ho⟩
    exact started hm (mqHead_awr hm ho) (by rw [ho]; rfl)
  case aclrPeek =>
    rintro w fq hm ⟨q, d, ho⟩ hf
    obtain ⟨t, he, hs, hfq⟩ := dequeue_started hm (mqHead_aclrPeek hm ho hf)
    rw [ho] at hs hfq
    exact ⟨t, he, hs, hfq.trans hf⟩
  case aclrPeekWaits =>
    rintro hm ⟨q, d, ho⟩ hf
    exact dequeue_waits hm (mqHead_aclrPeek_waits hm ho hf)
  case mma =>
    intro q d ra rb hm ho
    have faulting {f : FaultInfo} (hf : mmaFault s c ra rb = some f) : faults f := dequeue_faults hm (mqHead_mma_faults hm ho hf)
    refine ⟨fun hva => faulting (mmaFault_ringA s c ra rb hva), fun hva hvb => faulting (mmaFault_ringB s c ra rb hva hvb), fun hva hvb hf => ?_, fun hva hvb w fq hf => ?_⟩
    · refine ⟨_, dequeue_waits hm (mqHead_mma_waits hm ho (mmaFault_noWord s c ra rb hva hvb hf) hf), ?_, onlyCp_modCp s c _, sameMemory_modCp s c _⟩
      rw [cp_modCp, MayStart.mq hm]; rfl
    · obtain ⟨hunsound, hsmallA, hsmallB, hnone⟩ := mmaFault_word s c ra rb hva hvb hf
      refine ⟨fun hs => faulting (hunsound hs), fun hs ha => faulting (hsmallA hs ha), fun hs ha hb => faulting (hsmallB hs ha hb), fun hs ha hb => ?_⟩
      have hn := hnone hs ha hb
      refine ⟨fun hno => dequeue_idle (mqHead_mma_noTile hm ho hn hf (hno.imp claim_eq_none_iff.2 claim_eq_none_iff.2)), fun a b hfa hfb => ?_⟩
      obtain ⟨hbadA, hbadB, hstart⟩ := mqHead_mma_tiles hm ho hn hf hfa hfb
      refine ⟨fun hA => dequeue_faults hm (hbadA (operandPoison_spansA.2 hA)),
        fun hA hB => dequeue_faults hm (hbadB (Bool.eq_false_iff.2 (mt operandPoison_spansA.1 hA)) (operandPoison_spansB.2 hB)), fun hA hB => ?_⟩
      obtain ⟨t, he, hs, hfq⟩ := dequeue_started hm (hstart (Bool.eq_false_iff.2 (mt operandPoison_spansA.1 hA)) (Bool.eq_false_iff.2 (mt operandPoison_spansB.1 hB)))
      rw [ho] at hs hfq
      exact ⟨t, he, hfq.trans (by rw [hf]; rfl), hs⟩
  case retire =>
    intro n old el at_ fits ends
    refine ⟨retire_rests, fun hg hc hf ht hfit hsort => ?_⟩
    have other := retire_other hg hc hf ht hfit
    refine ⟨fun q ra rb ho => ?_, fun q ho => ?_, fun q i ho => ?_, fun q ho => ?_, fun q m sel a row ho => ?_⟩
    · obtain ⟨t, he, hm, hacc, hrest, hring, hcn, hnum, hresid⟩ := retire_mma hg hc hf ht hfit ho
      rw [mqEffect_mma ho] at hacc
      refine ⟨t, he, hm, ⟨?_, fun i j hi hj => ?_, fun g => ?_, hcn, hnum, hresid⟩, hrest⟩
      · rw [hacc]; exact depthAfter_toNat _ _
      · rw [hacc]; exact mmaTile_elem hsort _ _ _ _ _ _ hi hj
      · rw [hring]; exact ring_popped s c ra rb g r
    · obtain ⟨t, he, hm, hacc, hrest⟩ := other (by rw [ho]; rfl)
      exact ⟨t, he, hm, by rw [hacc]; exact mqEffect_aclrPeek hsort ho, hrest⟩
    · obtain ⟨t, he, hm, hacc, hrest⟩ := other (by rw [ho]; rfl)
      exact ⟨t, he, hm, by rw [hacc]; exact mqEffect_aclrImm hsort ho, hrest⟩
    · obtain ⟨t, he, hm, hacc, hrest⟩ := other (by rw [ho]; rfl)
      exact ⟨t, he, hm, by rw [hacc]; exact mqEffect_anorm hsort ho, hrest⟩
    · obtain ⟨t, he, hm, hacc, hrest⟩ := other (by rw [ho]; rfl)
      obtain ⟨hdepth, helem⟩ := mqEffect_awr (s := s) (c := c) (bad := []) hsort ho
      refine ⟨t, he, hm, ?_, hrest⟩
      rw [hacc]
      exact ⟨hdepth, fun i j hi hj => (helem i j hi hj).trans (ite_congr rfl (fun _ => awrElem_eq sel _ _) fun _ => rfl)⟩
  case blocks =>
    intro code tile i b hcode m x S v q
    have hm : m = opBits code := (opBits_eq hcode).symm
    have hx : x = rawElem (opBits code) tile i b := by rw [← hm]; rfl
    refine ⟨operandBlock_length _ _ _ _, fun hint => ?_, fun hlo hhi => ?_, fun hfed => ?_⟩
    · obtain ⟨hscale, hexp, helem⟩ := operandBlock_int tile i b hint
      exact ⟨hscale, hexp, fun k hk => by rw [hm, hx]; exact helem k hk⟩
    · obtain ⟨hscale, hexp, helem⟩ := operandBlock_scaled tile i b hlo hhi
      have hS : S = tile / 2 ^ (8 * (elemBytes code + 4 * i + b)) % 256 := by rw [elemBytes, ← hm]
      rw [hS, hm, hx]
      exact ⟨hscale, hexp, helem⟩
    · rw [hx]
      exact operandBlock_fed tile i b hfed hcode
end

section
/-! The choice of a routing pass (10 R151): the order of a row's experts, the best k of them, and the slots that a row's lists hold. -/

namespace Sys2Proof.Machine

variable {sc : List (BitVec 32)} {out : List ℕ} {i j : ℕ}

/-! ## The order of a row's experts -/

/-- The score of an expert in a row. -/
def score (sc : List (BitVec 32)) (i : ℕ) : FVal := f32 ((sc[i]?).getD 0).toNat

/-- The experts of a row whose score is a number. -/
def numbered (sc : List (BitVec 32)) : List ℕ := (List.range sc.length).filter (fun i => !(score sc i).isNan)

theorem mem_numbered : i ∈ numbered sc ↔ i < sc.length ∧ (score sc i).isNan = false := by simp [numbered]

/-- The rank of a score: a NaN lowest, then by number, with -0 equal to +0. -/
def scoreRank : FVal → Rank
  | .nan => rank 0 0 0
  | .inf n => rank (if n then 1 else 3) 0 0
  | .fin n m e => rank 2 (FVal.fin n m e).number 0

theorem lt_iff_scoreRank {u v : FVal} (hu : u.isNan = false) (hv : v.isNan = false) : u.lt v = true ↔ scoreRank u < scoreRank v := by
  match u, v with
  | .inf a, .inf b => cases a <;> cases b <;> simp [FVal.lt, scoreRank, rank_lt]
  | .inf a, .fin n m e => cases a <;> simp [FVal.lt, scoreRank, rank_lt]
  | .fin n m e, .inf b => cases b <;> simp [FVal.lt, scoreRank, rank_lt]
  | .fin n m e, .fin n' m' e' => rw [lt_iff_number]; simp [scoreRank, rank_lt]

/-- The place of an expert in its row's order: by score, the highest first, and then by index. -/
def placeOf (sc : List (BitVec 32)) (i : ℕ) : Rankᵒᵈ ×ₗ ℕ := toLex (OrderDual.toDual (scoreRank (score sc i)), i)

theorem placeOf_injective (sc : List (BitVec 32)) : Function.Injective (placeOf sc) := fun _ _ h => congrArg (fun p => (ofLex p).2) h

/-- The better of two experts comes first. -/
theorem placeOf_lt (hi : i ∈ numbered sc) (hj : j ∈ numbered sc) :
    placeOf sc i < placeOf sc j ↔ (score sc j).lt (score sc i) = true ∨ ((score sc i).lt (score sc j) = false ∧ i < j) := by
  have hi := (mem_numbered.1 hi).2
  have hj := (mem_numbered.1 hj).2
  rw [← Bool.not_eq_true, lt_iff_scoreRank hi hj, lt_iff_scoreRank hj hi]
  simp only [placeOf, Prod.Lex.toLex_lt_toLex, OrderDual.toDual_lt_toDual, EmbeddingLike.apply_eq_iff_eq]
  constructor
  · rintro (h | ⟨h, hij⟩)
    · exact .inl h
    · exact .inr ⟨h.not_lt, hij⟩
  · rintro (h | ⟨h, hij⟩)
    · exact .inl h
    · exact (not_lt.1 h).lt_or_eq.imp_right fun h => ⟨h.symm, hij⟩

/-! ## The best expert that is left -/

/-- The experts below n that may still be chosen. -/
def Remains (sc : List (BitVec 32)) (out : List ℕ) (n i : ℕ) : Prop := i < n ∧ i ∉ out ∧ (score sc i).isNan = false

/-- What the search has found below n: the first in the order of those left, or none where none is left. -/
def Found (sc : List (BitVec 32)) (out : List ℕ) (n : ℕ) : Option ℕ → Prop
  | none => ∀ i, ¬ Remains sc out n i
  | some b => Remains sc out n b ∧ ∀ i, Remains sc out n i → placeOf sc b ≤ placeOf sc i

theorem remains_succ {n : ℕ} : Remains sc out (n + 1) i ↔ Remains sc out n i ∨ (i = n ∧ Remains sc out (n + 1) n) := by
  unfold Remains
  constructor
  · rintro ⟨h, hr⟩
    rcases Nat.lt_succ_iff_lt_or_eq.1 h with h | rfl
    · exact .inl ⟨h, hr⟩
    · exact .inr ⟨rfl, h, hr⟩
  · rintro (⟨h, hr⟩ | ⟨rfl, h⟩)
    · exact ⟨Nat.lt_succ_of_lt h, hr⟩
    · exact h

theorem betterOf_not_remains {n : ℕ} {best : Option ℕ} (h : ¬ Remains sc out (n + 1) n) : betterOf sc out best n = best := by
  refine if_pos ?_
  by_contra hn
  exact h ⟨Nat.lt_succ_self n, by simpa [score] using hn⟩

theorem betterOf_remains {n : ℕ} {best : Option ℕ} (h : Remains sc out (n + 1) n) :
    betterOf sc out best n = match best with | none => some n | some b => if (score sc b).lt (score sc n) then some n else best := by
  obtain ⟨-, hout, hnan⟩ := h
  refine if_neg ?_
  simp only [Bool.or_eq_true, not_or, Bool.not_eq_true]
  exact ⟨by simpa using hout, hnan⟩

/-- One more expert is looked at: it is taken where it is left and scores higher than the best before it. -/
theorem Found.succ {n : ℕ} {best : Option ℕ} (hn : n < sc.length) (h : Found sc out n best) : Found sc out (n + 1) (betterOf sc out best n) := by
  by_cases hl : Remains sc out (n + 1) n
  · have hcand {i : ℕ} (hi : Remains sc out (n + 1) i) : i ∈ numbered sc := mem_numbered.2 ⟨by have := hi.1; omega, hi.2.2⟩
    rw [betterOf_remains hl]
    cases best with
    | none => exact ⟨hl, fun i hi => (remains_succ.1 hi).elim (fun hi => absurd hi (h i)) fun hi => by rw [hi.1]⟩
    | some b =>
      obtain ⟨hb, hleast⟩ := h
      have hb' : Remains sc out (n + 1) b := remains_succ.2 (.inl hb)
      dsimp only
      split_ifs with hlt
      · have hfirst : placeOf sc n < placeOf sc b := (placeOf_lt (hcand hl) (hcand hb')).2 (.inl hlt)
        exact ⟨hl, fun i hi => (remains_succ.1 hi).elim (fun hi => hfirst.le.trans (hleast i hi)) fun hi => by rw [hi.1]⟩
      · have hfirst : placeOf sc b < placeOf sc n := (placeOf_lt (hcand hb') (hcand hl)).2 (.inr ⟨by simpa using hlt, hb.1⟩)
        exact ⟨hb', fun i hi => (remains_succ.1 hi).elim (hleast i) fun hi => by rw [hi.1]; exact hfirst.le⟩
  · have hsame {i : ℕ} : Remains sc out (n + 1) i ↔ Remains sc out n i := by rw [remains_succ]; tauto
    rw [betterOf_not_remains hl]
    cases best with
    | none => exact fun i hi => h i (hsame.1 hi)
    | some b => exact ⟨hsame.2 h.1, fun i hi => h.2 i (hsame.1 hi)⟩

theorem found_fold (sc : List (BitVec 32)) (out : List ℕ) : ∀ n, n ≤ sc.length → Found sc out n ((List.range n).foldl (betterOf sc out) none)
  | 0, _ => fun _ h => absurd h.1 (Nat.not_lt_zero _)
  | n + 1, hn => by
    rw [List.range_succ, List.foldl_append]
    exact (found_fold sc out n (by omega)).succ hn

/-! ## The best k -/

/-- The experts chosen so far: numbers, in their order, and before all that are not chosen. -/
structure Chosen (sc : List (BitVec 32)) (out : List ℕ) : Prop where
  numbers : ∀ i ∈ out, i ∈ numbered sc
  sorted : out.Pairwise (fun i j => placeOf sc i < placeOf sc j)
  first : ∀ i ∈ out, ∀ j ∈ numbered sc, j ∉ out → placeOf sc i < placeOf sc j

theorem Chosen.nodup (h : Chosen sc out) : out.Nodup := h.sorted.imp fun h e => absurd (e ▸ h) (lt_irrefl _)

theorem Chosen.length_le (h : Chosen sc out) : out.length ≤ (numbered sc).length := (h.nodup.subperm h.numbers).length_le

theorem remains_iff : Remains sc out sc.length i ↔ i ∈ numbered sc ∧ i ∉ out := by rw [mem_numbered]; unfold Remains; tauto

/-- Where none is left, every candidate is chosen. -/
theorem Chosen.length_of_none (h : Chosen sc out) (hf : Found sc out sc.length none) : out.length = (numbered sc).length :=
  h.length_le.antisymm ((List.nodup_range.filter _).subperm fun _ hi => by_contra fun ho => hf _ (remains_iff.2 ⟨hi, ho⟩)).length_le

theorem Chosen.append (h : Chosen sc out) {b : ℕ} (hf : Found sc out sc.length (some b)) : Chosen sc (out ++ [b]) where
  numbers i hi := (List.mem_append.1 hi).elim (h.numbers i) fun hi => by rw [List.mem_singleton.1 hi]; exact (remains_iff.1 hf.1).1
  sorted := List.pairwise_append.2 ⟨h.sorted, List.pairwise_singleton .., fun i hi j hj => by
    rw [List.mem_singleton.1 hj]; exact h.first i hi b (remains_iff.1 hf.1).1 (remains_iff.1 hf.1).2⟩
  first i hi j hj hout := by
    rw [List.mem_append, List.mem_singleton, not_or] at hout
    rcases List.mem_append.1 hi with hi | hi
    · exact h.first i hi j hj hout.1
    · rw [List.mem_singleton.1 hi]
      exact (hf.2 j (remains_iff.2 ⟨hj, hout.1⟩)).lt_of_ne fun e => hout.2 (placeOf_injective sc e).symm

/-- The search goes on until n more are chosen, or none is left. -/
theorem bestK_spec (n : ℕ) (h : Chosen sc out) : Chosen sc (bestK sc n out) ∧ (bestK sc n out).length = min (out.length + n) (numbered sc).length := by
  induction n generalizing out with
  | zero => exact ⟨h, (min_eq_left h.length_le).symm⟩
  | succ n ih =>
    have hf := found_fold sc out sc.length le_rfl
    rw [bestK]
    generalize (List.range sc.length).foldl (betterOf sc out) none = best at hf
    cases best with
    | none =>
      have hlen := h.length_of_none hf
      exact ⟨h, by dsimp only; omega⟩
    | some b =>
      obtain ⟨hc, hlen⟩ := ih (h.append hf)
      refine ⟨hc, hlen.trans ?_⟩
      rw [List.length_append, List.length_singleton]; omega

theorem chosen_nil (sc : List (BitVec 32)) : Chosen sc [] where
  numbers _ h := absurd h List.not_mem_nil
  sorted := .nil
  first _ h := absurd h List.not_mem_nil

/-! ## The slots of a row -/

/-- Patterns that differ in their sign alone stand for values that do. -/
theorem decodeF_neg {f : Fmt} {a b : ℕ} (hs : (a / 2 ^ (f.eb + f.fb) % 2 == 1) = !(b / 2 ^ (f.eb + f.fb) % 2 == 1))
    (he : a / 2 ^ f.fb % 2 ^ f.eb = b / 2 ^ f.fb % 2 ^ f.eb) (hf : a % 2 ^ f.fb = b % 2 ^ f.fb) : decodeF f a = (decodeF f b).neg := by
  unfold decodeF
  rw [hs, he, hf]
  simp only [apply_ite FVal.neg]
  rfl

/-- The other sign of an FP32 pattern is the other sign of its value. -/
theorem f32_flip (m : BitVec 32) : f32 (m ^^^ 0x80000000).toNat = (f32 m.toNat).neg := by
  have hm := m.isLt
  have hlow : (m ^^^ 0x80000000).toNat % 2 ^ 31 = m.toNat % 2 ^ 31 := by
    rw [BitVec.toNat_xor, Nat.xor_mod_two_pow]; simp
  have hhigh : (m ^^^ 0x80000000).toNat / 2 ^ 31 = m.toNat / 2 ^ 31 ^^^ 1 := by
    rw [BitVec.toNat_xor, Nat.xor_div_two_pow]; rfl
  have hsign : ((m ^^^ 0x80000000).toNat / 2 ^ 31 % 2 == 1) = !(m.toNat / 2 ^ 31 % 2 == 1) := by
    rw [hhigh]
    rcases (by omega : m.toNat / 2 ^ 31 = 0 ∨ m.toNat / 2 ^ 31 = 1) with h | h <;> rw [h] <;> rfl
  have hexp : (m ^^^ 0x80000000).toNat / 2 ^ 23 % 2 ^ 8 = m.toNat / 2 ^ 23 % 2 ^ 8 := by omega
  have hfrac : (m ^^^ 0x80000000).toNat % 2 ^ 23 = m.toNat % 2 ^ 23 := by omega
  exact decodeF_neg (f := fmtF32) hsign hexp hfrac

/-- The unscaled weight of a score beside the row's best (10 R151). -/
def routeWeight (m s : BitVec 32) : ℕ := match f32 m.toNat with
  | .inf true => 0x3F800000
  | .inf false => if f32 s.toNat = .inf false then 0x3F800000 else 0
  | _ => exp2F true (BitVec.ofNat 32 (toF32 .rne (FVal.mul (f32 (add32 .rne s.toNat (m ^^^ 0x80000000).toNat)) (f32 0x3FB8AA3B))))

theorem routeX_eq (m s : BitVec 32) : routeX m s = routeWeight m s := by
  unfold routeX routeWeight add32 l2e
  rw [f32_flip] <;> rfl

/-- The unscaled weight of an expert of a row beside the best of the k that the row chooses. -/
def rowWeight (sc : List (BitVec 32)) (k j : ℕ) : ℕ := routeWeight ((sc[(bestK sc k []).headD 0]?).getD 0) ((sc[j]?).getD 0)

/-- The sum of the weights of the experts that a row chooses, in ascending order of the experts. -/
def rowSum (sc : List (BitVec 32)) (k : ℕ) : ℕ :=
  ((numbered sc).filter (fun j => (bestK sc k []).contains j)).foldl (fun a j => add32 .rne a (rowWeight sc k j)) 0

/-- Only numbers are chosen. -/
theorem filter_chosen (h : Chosen sc out) : (numbered sc).filter (fun j => out.contains j) = (List.range sc.length).filter (fun j => out.contains j) := by
  rw [numbered, List.filter_filter]
  refine List.filter_congr fun j _ => ?_
  cases hj : out.contains j with
  | false => rfl
  | true => rw [(mem_numbered.1 (h.numbers j (by simpa using hj))).2]; rfl

/-- The experts that a row chooses, each with its share of the sum of their weights, and slots of no expert behind them (10 R151). -/
theorem routeRow_getElem? {k : ℕ} (hi : i < k) :
    (routeRow sc k)[i]? = some (match (bestK sc k [])[i]? with | some j => (j, div32 (rowWeight sc k j) (rowSum sc k)) | none => (0xFFFF, 0)) := by
  have hx : ∀ j, routeX ((sc[(bestK sc k []).head?.getD 0]?).getD 0) ((sc[j]?).getD 0) = rowWeight sc k j := fun j => by
    rw [routeX_eq, rowWeight, List.headD_eq_head?_getD]
  rw [rowSum, filter_chosen (bestK_spec k (chosen_nil sc)).1, routeRow, List.getElem?_map, List.getElem?_range hi]
  simp only [hx]
  rfl

theorem routeRow_length (sc : List (BitVec 32)) (k : ℕ) : (routeRow sc k).length = k := by simp [routeRow]

/-! ## The pieces of a row's lists -/

/-- Bytes in pieces of 8, each with its address. -/
def bytePieces (base : ℕ) (bs : List Byte) : List (ℕ × List Byte) := (List.range ((bs.length + 7) / 8)).map (fun j => (base + 8 * j, (bs.drop (8 * j)).take 8))

/-- Bytes are written in pieces of 8, one after another (16 R281). -/
theorem wordPieces_eq (n va : ℕ) (bs : List Byte) (h : bs.length ≤ 8 * n) :
    wordPieces n va bs = bytePieces va bs := by
  induction n generalizing va bs with
  | zero =>
    obtain rfl := List.length_eq_zero_iff.1 (by omega : bs.length = 0)
    rfl
  | succ n ih =>
    cases hb : bs with
    | nil => rfl
    | cons b t =>
      have hlen : bs.length = t.length + 1 := by rw [hb]; rfl
      rw [← hb, wordPieces, if_neg (by simp [hb]), ih _ _ (by rw [List.length_drop]; omega), bytePieces, bytePieces]
      rw [show (bs.length + 7) / 8 = ((bs.drop 8).length + 7) / 8 + 1 by rw [List.length_drop]; omega, List.range_succ_eq_map, List.map_cons, List.map_map]
      refine congrArg₂ List.cons rfl (List.map_congr_left fun j _ => ?_)
      rw [Function.comp_apply, List.drop_drop, show 8 + 8 * j = 8 * (j + 1) by omega, show va + 8 + 8 * j = va + 8 * (j + 1) by omega]

theorem flatMap_natBytes_length {α : Type} (n : ℕ) (f : α → ℕ) (row : List α) : (row.flatMap (fun p => natBytes n (f p))).length = row.length * n := by
  simp [List.length_flatMap]

/-- A row's lists, each in pieces from its place (10 R148). -/
theorem routeOuts_eq (e : BitVec 512) (r : ℕ) {row : List (ℕ × ℕ)} (h : row.length ≤ 8) :
    routeOuts e r row = bytePieces ((rtOidx e + 16 * r) % 2 ^ 64) (row.flatMap (fun p => natBytes 2 p.1))
      ++ bytePieces ((rtOwt e + 32 * r) % 2 ^ 64) (row.flatMap (fun p => natBytes 4 p.2)) := by
  rw [routeOuts, wordPieces_eq _ _ _ (by rw [flatMap_natBytes_length]; omega), wordPieces_eq _ _ _ (by rw [flatMap_natBytes_length]; omega)]

end Sys2Proof.Machine
end

section
/-! The accesses of a routing pass (10 R151, R152): a read, the write of a piece of a row's lists, and the counts, whose places are all found before the first is written. -/

namespace Sys2Proof.Machine

variable {s : State} {d tctx va n : ℕ} {w : Walker} {l m : Loc} {r : RouteRun} {f : FaultInfo} {write : Bool} {bs : List Byte}

/-! ## The pass that a die runs -/

theorem rrun_setRun (s : State) (d : ℕ) (r : RouteRun) : ((setRun s d r).die d).rrun = some r := by rw [setRun, die_modDie]

theorem sameMemory_modDie (s : State) (d : ℕ) (f : Die → Die) : SameMemory s (s.modDie d f) := sameMemory_congr rfl rfl rfl rfl

theorem sameMemory_setRun (s : State) (d : ℕ) (r : RouteRun) : SameMemory s (setRun s d r) := sameMemory_modDie s d _

/-- The step ends with a pass on the die, and no memory has changed. -/
def PassGoes (s : State) (d : ℕ) (j : RouteRun) : Prop := Ends (.accessPerform (.routing d)) s (fun t => (t.die d).rrun = some j ∧ SameMemory s t)

/-- The step ends with a pass on the die, and bytes are written. -/
def PassWrites (s : State) (d : ℕ) (l : Loc) (bs : List Byte) (j : RouteRun) : Prop :=
  Ends (.accessPerform (.routing d)) s (fun t => Stored s t l bs ∧ (t.die d).rrun = some j)

theorem passGoes_of_setRun {u : State} (h : routeAccessNext s d = setRun u d r) (hu : SameMemory s u) : PassGoes s d r :=
  ⟨_, congrArg Host.Outcome.next h, rrun_setRun u d r, sameMemory_trans hu (sameMemory_setRun u d r)⟩

/-! ## An access at its home -/

theorem dieLocate_fault (h : lookup s d tctx va write = .fault f) : dieLocate s d tctx w va n write = .fault s f := by simp only [dieLocate, h]

/-- An access that reaches its place is made there; what had arrived at slices is all that it changes. -/
theorem dieLocate_reaches (h : lookup s d tctx va write = .loc l) (hr : ReachesFrom s d tctx (.unit d) va n l) :
    ∃ x, dieLocate s d tctx w va n write = .ok { s with arrived := x } l := by
  obtain ⟨-, hhome, hreach, hpath, hup, hmay⟩ := hr
  simp only [dieLocate, h, arriveHome, hhome, hreach, hpath, Bool.false_eq_true, if_false]
  cases l with
  | hbm pa key => exact ⟨_, rfl⟩
  | slice c off =>
    have hup : sliceUp s c = true := hup
    have hmay : mayReach s c (.unit d) = true := hmay
    simp only [hup, hmay, Bool.not_true, Bool.false_eq_true, if_false, if_true]
    exact ⟨_, congrArg (VAns.ok · _) (leaveSlice_frame ..)⟩

theorem homeWf_arrived {x : List (ℕ × Arriver)} (h : HomeWf s l) : HomeWf { s with arrived := x } l := by cases l <;> exact h

theorem homeWf_locWrite (hm : HomeWf s m) (l : Loc) (bs : List Byte) : HomeWf (s.locWrite l bs) m := by
  match l, m with
  | .slice c off, .slice e _ =>
    show (((s.modCore c _).core e).spad).wf = true
    rw [core_modCore_cases]
    split_ifs with he
    · exact spadWrite_wf (he ▸ hm) off bs
    · exact hm
  | .slice c off, .hbm pa key => exact hm
  | .hbm pa key, .slice e _ =>
    show (((s.hbmWrite key pa bs).core e).spad).wf = true
    simp only [State.core, hbmWrite_cores]
    exact hm
  | .hbm pa key, .hbm _ _ => exact hbmWrite_wf hm key pa bs

/-- A read that reaches its place gives the pass what it has read. -/
theorem routeRead_ok {g : ℕ → RouteRun} (h : lookup s d r.pass.tctx va false = .loc l) (hr : ReachesFrom s d r.pass.tctx (.unit d) va n l)
    (hp : s.locPoison l n = false) : ∃ u, routeRead s d r va n g = setRun u d (g (bytesNat (s.locRead l n))) ∧ SameMemory s u := by
  obtain ⟨x, hx⟩ := dieLocate_reaches (w := .routing) h hr
  have hread : State.locRead { s with arrived := x } l n = s.locRead l n := by cases l <;> rfl
  have hp : State.locPoison { s with arrived := x } l n = false := by cases l <;> exact hp
  refine ⟨corrected { s with arrived := x } l n, ?_, sameMemory_trans (sameMemory_congr rfl rfl rfl rfl) (corrected_keeps _ l n).1⟩
  simp only [routeRead, hx, hp, hread, Bool.false_eq_true, if_false]

theorem routeRead_poisoned {g : ℕ → RouteRun} (h : lookup s d r.pass.tctx va false = .loc l) (hr : ReachesFrom s d r.pass.tctx (.unit d) va n l)
    (hp : s.locPoison l n = true) : ∃ u, routeRead s d r va n g = setRun u d { r with fault := some (r.row, 0x08) } ∧ SameMemory s u := by
  obtain ⟨x, hx⟩ := dieLocate_reaches (w := .routing) h hr
  have hp : State.locPoison { s with arrived := x } l n = true := by cases l <;> exact hp
  refine ⟨{ s with arrived := x }, ?_, sameMemory_congr rfl rfl rfl rfl⟩
  simp only [routeRead, hx, hp, if_true]

/-! ## The next access, by what the pass has come to -/

/-- The pass once it has read one more score: with its row's last, the row is placed. -/
def scoreRead (r : RouteRun) (b : ℕ) : RouteRun :=
  let sc := r.scores ++ [widenScore (rtStype r.pass.entry) b]
  if sc.length = rtNexp r.pass.entry then rowDone r sc else { r with scores := sc }

section
variable (hr : (s.die d).rrun = some r) (hf : r.fault = none)
include hr hf

/-- What the pass does that has no piece left to write. -/
theorem routeAccessNext_row (ho : r.outs = []) (hrow : r.row < rtRows r.pass.entry) : routeAccessNext s d = match r.valid with
    | none => if rtValid r.pass.entry = 0 then setRun s d { r with valid := some true }
      else routeRead s d r ((rtValid r.pass.entry + r.row / 8) % 2 ^ 64) 1 (fun b => { r with valid := some (b / 2 ^ (r.row % 8) % 2 == 1) })
    | some false => setRun s d { r with row := r.row + 1, valid := none }
    | some true => routeRead s d r (scoreAt r.pass.entry r.row r.scores.length) (rtSize r.pass.entry) (scoreRead r) := by
  cases r
  cases hf
  cases ho
  simp only [routeAccessNext, hr, Nat.not_le.2 hrow, Option.isSome_none, Bool.false_eq_true, if_false]
  rfl

theorem routeAccessNext_counts (ho : r.outs = []) (hrow : rtRows r.pass.entry ≤ r.row) (hh : r.histDone = false) : routeAccessNext s d = histNext s d r := by
  simp only [routeAccessNext, hr, hf, ho, hrow, hh, Option.isSome_none, Bool.false_eq_true, if_false, if_true]

theorem piece_faults {outs : List (ℕ × List Byte)} (ho : r.outs = (va, bs) :: outs) (h : lookup s d r.pass.tctx va true = .fault f) :
    PassGoes s d { r with fault := some (r.row - 1, f.code) } := by
  refine passGoes_of_setRun (u := s) ?_ (sameMemory_refl s)
  simp only [routeAccessNext, hr, hf, ho, dieLocate_fault h, Option.isSome_none, Bool.false_eq_true, if_false]

theorem piece_written {outs : List (ℕ × List Byte)} (ho : r.outs = (va, bs) :: outs) (h : lookup s d r.pass.tctx va true = .loc l)
    (hreach : ReachesFrom s d r.pass.tctx (.unit d) va bs.length l) (hwf : HomeWf s l) : PassWrites s d l bs { r with outs := outs } := by
  obtain ⟨x, hx⟩ := dieLocate_reaches (w := .routing) h hreach
  have he : routeAccessNext s d = setRun (State.locWrite { s with arrived := x } l bs) d { r with outs := outs } := by
    simp only [routeAccessNext, hr, hf, ho, hx, Option.isSome_none, Bool.false_eq_true, if_false]
  refine ⟨_, congrArg Host.Outcome.next he, ?_, rrun_setRun ..⟩
  have hstored := (locWrite_spec (homeWf_arrived (x := x) hwf) bs).1
  exact stored_of_same (same_stored (sameMemory_congr rfl rfl rfl rfl) hstored) (sameMemory_setRun ..)

/-! ## The counts -/

theorem place_faults (ho : r.outs = []) (hrow : rtRows r.pass.entry ≤ r.row) (hh : r.histDone = false) (hn : r.hlocs.length < rtNexp r.pass.entry)
    (h : lookup s d r.pass.tctx ((rtOhist r.pass.entry + 4 * r.hlocs.length) % 2 ^ 64) true = .fault f) : PassGoes s d { r with fault := some (r.row - 1, f.code) } := by
  refine passGoes_of_setRun (u := s) ?_ (sameMemory_refl s)
  rw [routeAccessNext_counts hr hf ho hrow hh]
  simp only [histNext, hn, if_true, dieLocate_fault h]

theorem place_found (ho : r.outs = []) (hrow : rtRows r.pass.entry ≤ r.row) (hh : r.histDone = false) (hn : r.hlocs.length < rtNexp r.pass.entry)
    (h : lookup s d r.pass.tctx ((rtOhist r.pass.entry + 4 * r.hlocs.length) % 2 ^ 64) true = .loc l)
    (hreach : ReachesFrom s d r.pass.tctx (.unit d) ((rtOhist r.pass.entry + 4 * r.hlocs.length) % 2 ^ 64) 4 l) : PassGoes s d { r with hlocs := r.hlocs ++ [l] } := by
  obtain ⟨x, hx⟩ := dieLocate_reaches (w := .routing) h hreach
  refine passGoes_of_setRun (u := { s with arrived := x }) ?_ (sameMemory_congr rfl rfl rfl rfl)
  rw [routeAccessNext_counts hr hf ho hrow hh]
  simp only [histNext, hn, if_true, hx]

end

/-- The counts that are still to be written, each with its place. -/
def countsLeft (r : RouteRun) : List (ℕ × Loc) := ((List.range (rtNexp r.pass.entry)).zip r.hlocs).drop r.counts

/-- A count of the histogram written at its place. -/
def writeCount (r : RouteRun) (s : State) (p : ℕ × Loc) : State := s.locWrite p.2 (natBytes 4 (sget 0 r.hist p.1))

/-- How many counts one access may write: those of one word (16 R281). -/
def countsTaken (r : RouteRun) : ℕ := if (rtOhist r.pass.entry + 4 * r.counts) % 8 = 0 then 2 else 1

theorem drop_zip_range {hl : List Loc} {k i : ℕ} (hi : i < k) (h : hl[i]? = some l) : ((List.range k).zip hl).drop i = (i, l) :: ((List.range k).zip hl).drop (i + 1) := by
  obtain ⟨hlen, rfl⟩ := List.getElem?_eq_some_iff.1 h
  rw [List.drop_eq_getElem_cons (by simp; omega)]
  simp

/-- With every place found, the counts of one more word are written. -/
theorem histNext_writes (hn : rtNexp r.pass.entry ≤ r.hlocs.length) : histNext s d r =
    setRun (((countsLeft r).take (countsTaken r)).foldl (writeCount r) s) d
      { r with counts := r.counts + countsTaken r, histDone := decide (rtNexp r.pass.entry ≤ r.counts + countsTaken r) } := by
  simp only [histNext, Nat.not_lt.2 hn, if_false]
  rfl

/-- One count alone is in its word, or is the last. -/
theorem countsLeft_take_one (hc : r.counts < rtNexp r.pass.entry) (hl : r.hlocs[r.counts]? = some l)
    (h1 : (rtOhist r.pass.entry + 4 * r.counts) % 8 ≠ 0 ∨ rtNexp r.pass.entry = r.counts + 1) : (countsLeft r).take (countsTaken r) = [(r.counts, l)] := by
  rw [countsLeft, drop_zip_range hc hl, countsTaken]
  rcases h1 with h1 | h1
  · rw [if_neg h1]; rfl
  · rw [h1, List.drop_eq_nil_of_le (by simp)]
    split_ifs <;> rfl

theorem countsLeft_take_two (hc : r.counts + 1 < rtNexp r.pass.entry) (hl : r.hlocs[r.counts]? = some l) (hm : r.hlocs[r.counts + 1]? = some m)
    (h2 : (rtOhist r.pass.entry + 4 * r.counts) % 8 = 0) : (countsLeft r).take (countsTaken r) = [(r.counts, l), (r.counts + 1, m)] := by
  rw [countsLeft, drop_zip_range (by omega) hl, drop_zip_range hc hm, countsTaken, if_pos h2]
  rfl

section
variable (hr : (s.die d).rrun = some r) (hf : r.fault = none) (ho : r.outs = []) (hrow : rtRows r.pass.entry ≤ r.row) (hh : r.histDone = false)
  (hn : rtNexp r.pass.entry ≤ r.hlocs.length)
include hr hf ho hrow hh hn

theorem count_written (hc : r.counts < rtNexp r.pass.entry) (hl : r.hlocs[r.counts]? = some l) (hwf : HomeWf s l)
    (h1 : (rtOhist r.pass.entry + 4 * r.counts) % 8 ≠ 0 ∨ rtNexp r.pass.entry = r.counts + 1) :
    PassWrites s d l (natBytes 4 (sget 0 r.hist r.counts)) { r with counts := r.counts + countsTaken r, histDone := decide (rtNexp r.pass.entry ≤ r.counts + countsTaken r) } := by
  refine ⟨_, congrArg Host.Outcome.next ((routeAccessNext_counts hr hf ho hrow hh).trans (histNext_writes hn)), ?_, rrun_setRun ..⟩
  rw [countsLeft_take_one hc hl h1]
  exact stored_of_same (locWrite_spec hwf _).1 (sameMemory_setRun ..)

theorem two_counts_written (h2 : (rtOhist r.pass.entry + 4 * r.counts) % 8 = 0) (hc : r.counts + 1 < rtNexp r.pass.entry) (hl : r.hlocs[r.counts]? = some l)
    (hm : r.hlocs[r.counts + 1]? = some m) (hwl : HomeWf s l) (hwm : HomeWf s m) : Ends (.accessPerform (.routing d)) s (fun t =>
      (t.die d).rrun = some { r with counts := r.counts + 2, histDone := decide (rtNexp r.pass.entry ≤ r.counts + 2) }
      ∧ ∃ z, Stored s z l (natBytes 4 (sget 0 r.hist r.counts)) ∧ Stored z t m (natBytes 4 (sget 0 r.hist (r.counts + 1)))) := by
  have htaken : countsTaken r = 2 := if_pos h2
  refine ⟨_, congrArg Host.Outcome.next ((routeAccessNext_counts hr hf ho hrow hh).trans (histNext_writes hn)), ?_, s.locWrite l (natBytes 4 (sget 0 r.hist r.counts)), ?_, ?_⟩
  · rw [rrun_setRun, htaken]
  · exact (locWrite_spec hwl _).1
  · rw [countsLeft_take_two hc hl hm h2]
    exact stored_of_same (locWrite_spec (homeWf_locWrite hwm ..) _).1 (sameMemory_setRun ..)

end

end Sys2Proof.Machine
end

section
/-! The start and the end of a routing pass (10 R150, R152), and a copy of an expert from its request to its updates (10 R156, R157). -/

namespace Sys2Proof.Machine

variable {s t : State} {d : ℕ} {r : RouteRun}

/-! ## The start of a pass -/

theorem routePassStart_waits (h : (s.die d).rrun.isSome = true ∨ (s.die d).rqueue = []) : exec (.routePassStart d) s = .next s := by
  show execRoutePassStart d s = _
  unfold execRoutePassStart
  split
  next hrun hqueue => simp [hrun, hqueue] at h
  next => rfl

theorem routePassStart_starts {p : RoutePass} {ps : List RoutePass} (hr : (s.die d).rrun = none) (hq : (s.die d).rqueue = p :: ps) :
    exec (.routePassStart d) s = .next (s.modDie d (fun x => { x with rqueue := ps, rrun := some ⟨p, 0, none, [], [], [], [], 0, false, none⟩ })) := by
  show execRoutePassStart d s = _
  simp only [execRoutePassStart, hr, hq]
  simp only [State.modDie, hq, List.tail_cons]

/-! ## The end of a pass -/

/-- A change of flags changes no die and no hub. -/
theorem FlagsOnly.frame {c : ℕ} (h : FlagsOnly s t c) : t.dies = s.dies ∧ t.hub = s.hub ∧ SameMemory s t := by
  obtain ⟨honly, hmem, -⟩ := h
  rw [OnlyCore] at honly
  exact ⟨by rw [honly]; rfl, by rw [honly]; rfl, hmem⟩

/-- The flags set on some cores of a die. -/
def flagsRaised (s : State) (d : ℕ) (l : List ℕ) : State := l.foldl (fun s i => setFlags s (64 * d + i) none) s

theorem flagsRaised_frame (s : State) (d : ℕ) (l : List ℕ) :
    (flagsRaised s d l).dies = s.dies ∧ (flagsRaised s d l).hub = s.hub ∧ SameMemory s (flagsRaised s d l) := by
  induction l generalizing s with
  | nil => exact ⟨rfl, rfl, sameMemory_refl s⟩
  | cons i l ih =>
    obtain ⟨hdies, hhub, hmem⟩ := (setFlags_spec s (64 * d + i) none).2.frame
    obtain ⟨hdies', hhub', hmem'⟩ := ih (setFlags s (64 * d + i) none)
    exact ⟨hdies'.trans hdies, hhub'.trans hhub, sameMemory_trans hmem hmem'⟩

/-- A flag stays set while others are set. -/
theorem flag_setFlags (c : ℕ) {e k : ℕ} (h : (s.ctx e k).flag = true) : ((setFlags s c none).ctx e k).flag = true := by
  rw [(setFlags_spec s c none).1 e k]
  split_ifs
  · rfl
  · exact h

theorem flag_flagsRaised (l : List ℕ) {e k : ℕ} (h : (s.ctx e k).flag = true) : ((flagsRaised s d l).ctx e k).flag = true := by
  induction l generalizing s with
  | nil => exact h
  | cons i l ih => exact ih (flag_setFlags _ h)

theorem flagsRaised_flag {l : List ℕ} {i k : ℕ} (hi : i ∈ l) (hk : k < 4) : ((flagsRaised s d l).ctx (64 * d + i) k).flag = true := by
  induction l generalizing s with
  | nil => exact absurd hi List.not_mem_nil
  | cons j l ih =>
    rcases List.mem_cons.1 hi with rfl | hi
    · refine flag_flagsRaised l ?_
      rw [(setFlags_spec s (64 * d + i) none).1, if_pos ⟨rfl, hk, nofun⟩]
    · exact ih hi

/-- A finished pass leaves its ticket, every event flag of the die's contexts set, and nothing else changed. -/
theorem passFinished_spec (s : State) (d : ℕ) (n : BitVec 32) :
    (passFinished s d n).die d = { s.die d with rtdone := n, rrun := none } ∧ (∀ i k, i < 64 → k < 4 → ((passFinished s d n).ctx (64 * d + i) k).flag = true)
    ∧ (passFinished s d n).hub = s.hub ∧ SameMemory s (passFinished s d n) := by
  obtain ⟨hdies, hhub, hmem⟩ := flagsRaised_frame (s.modDie d (fun x => { x with rtdone := n, rrun := none })) d (List.range 64)
  refine ⟨?_, fun i k hi hk => flagsRaised_flag (List.mem_range.2 hi) hk, hhub, sameMemory_trans (sameMemory_modDie ..) hmem⟩
  rw [State.die, show (passFinished s d n).dies = _ from hdies]
  exact die_modDie ..

theorem raiseVector_frame (s : State) (n : ℕ) : (raiseVector s n).dies = s.dies ∧ SameMemory s (raiseVector s n) := by
  refine ⟨rfl, sameMemory_congr rfl rfl rfl ?_⟩
  simp only [raiseVector, hub_modHub]
  split_ifs <;> rfl

/-- The state in which the fault of a pass is recorded. -/
def faultRecorded (s : State) (d : ℕ) (r : RouteRun) (row code : ℕ) : State :=
  s.modDie d (fun x => { x with rterr := BitVec.ofNat 64 (r.pass.ticket.toNat * 2 ^ 32 + row * 256 + code) })

theorem routePassFinish_idle (hr : (s.die d).rrun = none) : exec (.routePassFinish d) s = .next s := by
  show execRoutePassFinish d s = _
  simp only [execRoutePassFinish, hr]

section
variable (hr : (s.die d).rrun = some r)
include hr

theorem routePassFinish_faulted {row code : ℕ} (hf : r.fault = some (row, code)) :
    exec (.routePassFinish d) s = .next (passFinished (raiseVector (faultRecorded s d r row code) 4098) d r.pass.ticket) := by
  show execRoutePassFinish d s = _
  simp only [execRoutePassFinish, hr, hf]
  rfl

/-- A fault leaves its row and code with the ticket of its pass, and the host is told (10 R152, 25 R342). -/
theorem routePassFinish_records {row code : ℕ} (hf : r.fault = some (row, code)) : Ends (.routePassFinish d) s (fun t =>
    t.die d = { s.die d with rtdone := r.pass.ticket, rrun := none, rterr := BitVec.ofNat 64 (r.pass.ticket.toNat * 2 ^ 32 + row * 256 + code) }
    ∧ t.hub = (raiseVector s 4098).hub ∧ SameMemory s t) := by
  obtain ⟨hdies, hmem⟩ := raiseVector_frame (faultRecorded s d r row code) 4098
  obtain ⟨hdie, -, hhub, hmem'⟩ := passFinished_spec (raiseVector (faultRecorded s d r row code) 4098) d r.pass.ticket
  refine ⟨_, routePassFinish_faulted hr hf, hdie.trans ?_, hhub, sameMemory_trans (sameMemory_modDie ..) (sameMemory_trans hmem hmem')⟩
  rw [State.die, hdies, ← State.die, faultRecorded, die_modDie]

theorem routePassFinish_done (hf : r.fault = none) (ho : r.outs = []) (hh : r.histDone = true) :
    exec (.routePassFinish d) s = .next (passFinished s d r.pass.ticket) := by
  show execRoutePassFinish d s = _
  simp [execRoutePassFinish, hr, hf, ho, hh]

theorem routePassFinish_waits (hf : r.fault = none) (h : r.outs ≠ [] ∨ r.histDone = false) : exec (.routePassFinish d) s = .next s := by
  show execRoutePassFinish d s = _
  have hn : ¬ (r.outs.isEmpty && r.histDone) = true := by
    rw [Bool.and_eq_true, List.isEmpty_iff, not_and, Bool.not_eq_true]
    exact fun ho => h.resolve_left (not_not.2 ho)
  simp only [execRoutePassFinish, hr, hf, if_neg hn]

end

/-! ## The service of a request (10 R156) -/

section
variable {o e at_ : ℕ} {reqs : List (ℕ × ℕ × ℕ)}

theorem replicationServe_rests (h : s.hub.serving.isSome = true ∨ s.hub.repReqs = []) : exec .replicationServe s = .next s := by
  show execReplicationServe s = _
  unfold execReplicationServe
  split
  next hserve hreqs => simp [hserve, hreqs] at h
  next => rfl

theorem replicationServe_waits (hq : s.hub.repReqs = (o, e, at_) :: reqs) (h : s.now ≤ at_ ∨ ∃ i, i < 8 ∧ 64 ≤ (s.die i).updates.length) :
    exec .replicationServe s = .next s := by
  show execReplicationServe s = _
  cases hs : s.hub.serving with
  | some p => exact replicationServe_rests (.inl (by rw [hs]; rfl))
  | none =>
    simp only [execReplicationServe, hs, hq]
    exact if_pos (by simpa using h)

variable (hs : s.hub.serving = none) (hq : s.hub.repReqs = (o, e, at_) :: reqs) (hnow : at_ < s.now) (hroom : ∀ i, i < 8 → (s.die i).updates.length < 64)
include hs hq hnow hroom

/-- The oldest request is taken, by what the newest table says of its expert. -/
theorem replicationServe_takes : exec .replicationServe s = match newestDies s o e with
    | none => .next (s.modHub (fun h => { h with repReqs := reqs }))
    | some holds => match holds.head?, replicaTarget s holds with
      | some p, some t => if 8 ≤ holds.length then .next (s.modHub (fun h => { h with repReqs := reqs }))
        else .next ((s.modHub (fun h => { h with repReqs := reqs, serving := some (e, t) })).modDie t (fun x => { x with rcopy := some ⟨e, t, p, 0, []⟩, rcopyFault := false }))
      | _, _ => .next (s.modHub (fun h => { h with repReqs := reqs })) := by
  show execReplicationServe s = _
  have hbusy : ¬ (decide (s.now ≤ at_) || (List.range 8).any (fun i => decide (64 ≤ (s.die i).updates.length))) = true := by
    simpa using ⟨hnow, hroom⟩
  simp only [execReplicationServe, hs, hq, if_neg hbusy]
  rfl

theorem replicationServe_copies {p t : ℕ} {l : List ℕ} (hd : newestDies s o e = some (p :: l)) (hl : l.length < 7) (ht : replicaTarget s (p :: l) = some t) :
    exec .replicationServe s = .next ((s.modHub (fun h => { h with repReqs := reqs, serving := some (e, t) })).modDie t
      (fun x => { x with rcopy := some ⟨e, t, p, 0, []⟩, rcopyFault := false })) := by
  have hlen : ¬ 8 ≤ (p :: l).length := by rw [List.length_cons]; omega
  rw [replicationServe_takes hs hq hnow hroom, hd]
  simp only [List.head?_cons, ht, if_neg hlen]

end

/-! ## The end of a copy (10 R156 step 5) -/

theorem die_modDie_cases (s : State) (d i : ℕ) (f : Die → Die) : (s.modDie d f).die i = if i = d then f (s.die d) else s.die i := sget_sset ..

/-- The state in which the hub has no copy in service. -/
def copyCleared (s : State) (t : ℕ) : State := (s.modHub (fun h => { h with serving := none })).modDie t (fun x => { x with rcopy := none, rcopyFault := false })

theorem copyCleared_spec (s : State) (t : ℕ) : (copyCleared s t).hub = { s.hub with serving := none } ∧ (∀ d, ((copyCleared s t).die d).updates = (s.die d).updates)
    ∧ ((copyCleared s t).die t).rcopy = none ∧ SameMemory s (copyCleared s t) := by
  refine ⟨rfl, fun d => ?_, ?_, sameMemory_congr rfl rfl rfl rfl⟩
  · rw [copyCleared, die_modDie_cases]
    split_ifs with h
    · rw [h]; rfl
    · rfl
  · rw [copyCleared, die_modDie]

/-- The update given to some dies. -/
def updatesSent (s : State) (u : ℕ × ℕ) (l : List ℕ) : State := l.foldl (fun s d => s.modDie d (fun x => { x with updates := x.updates ++ [u] })) s

theorem updatesSent_spec {u : ℕ × ℕ} {l : List ℕ} (hl : l.Nodup) (s : State) : (updatesSent s u l).hub = s.hub ∧ SameMemory s (updatesSent s u l)
    ∧ ∀ d, (updatesSent s u l).die d = if d ∈ l then { s.die d with updates := (s.die d).updates ++ [u] } else s.die d := by
  induction l generalizing s with
  | nil => exact ⟨rfl, sameMemory_refl s, fun d => rfl⟩
  | cons i l ih =>
    obtain ⟨hi, hl⟩ := List.nodup_cons.1 hl
    obtain ⟨hhub, hmem, hdie⟩ := ih hl (s.modDie i (fun x => { x with updates := x.updates ++ [u] }))
    refine ⟨hhub, sameMemory_trans (sameMemory_modDie ..) hmem, fun d => (hdie d).trans ?_⟩
    rw [die_modDie_cases]
    by_cases hd : d = i
    · subst hd; simp [hi]
    · simp [hd]

theorem replicationCopyDone_idle (hs : s.hub.serving = none) : exec .replicationCopyDone s = .next s := by
  show execReplicationCopyDone s = _
  simp only [execReplicationCopyDone, hs]

section
variable {e t : ℕ} {r : ReplCopy} (hs : s.hub.serving = some (e, t)) (hc : (s.die t).rcopy = some r)
include hs hc

theorem replicationCopyDone_eq : exec .replicationCopyDone s = if (s.die t).rcopyFault then .next (copyCleared s t)
    else if r.pos < (s.die t).xsz.toNat then .next s else .next (updatesSent (copyCleared s t) (e, t) (List.range 8)) := by
  show execReplicationCopyDone s = _
  simp only [execReplicationCopyDone, hs, hc]
  rfl

theorem replicationCopyDone_waits (hf : (s.die t).rcopyFault = false) (hpos : r.pos < (s.die t).xsz.toNat) : exec .replicationCopyDone s = .next s :=
  (replicationCopyDone_eq hs hc).trans ((if_neg (by simp [hf])).trans (if_pos hpos))

theorem replicationCopyDone_faulted (hf : (s.die t).rcopyFault = true) : Ends .replicationCopyDone s (fun u =>
    u.hub = { s.hub with serving := none } ∧ (∀ d, (u.die d).updates = (s.die d).updates) ∧ SameMemory s u) := by
  obtain ⟨hhub, hupd, -, hmem⟩ := copyCleared_spec s t
  exact ⟨_, (replicationCopyDone_eq hs hc).trans (if_pos hf), hhub, hupd, hmem⟩

theorem replicationCopyDone_sends (hf : (s.die t).rcopyFault = false) (hpos : (s.die t).xsz.toNat ≤ r.pos) : Ends .replicationCopyDone s (fun u =>
    u.hub = { s.hub with serving := none } ∧ (∀ d, d < 8 → (u.die d).updates = (s.die d).updates ++ [(e, t)]) ∧ (u.die t).rcopy = none ∧ SameMemory s u) := by
  obtain ⟨hhub, hupd, hcopy, hmem⟩ := copyCleared_spec s t
  obtain ⟨hhub', hmem', hdie⟩ := updatesSent_spec (u := (e, t)) List.nodup_range (l := List.range 8) (copyCleared s t)
  refine ⟨_, (replicationCopyDone_eq hs hc).trans ((if_neg (by simp [hf])).trans (if_neg (Nat.not_lt.2 hpos))), hhub'.trans hhub, fun d hd => ?_, ?_, sameMemory_trans hmem hmem'⟩
  · rw [hdie, if_pos (List.mem_range.2 hd), hupd]
  · rw [hdie]
    split_ifs
    · exact hcopy
    · exact hcopy

end

/-! ## An update joins the table that no launch uses (10 R157) -/

theorem replicaUpdateApply_idle (hu : (s.die d).updates = []) : exec (.replicaUpdateApply d) s = .next s := by
  show execReplicaUpdateApply d s = _
  simp only [execReplicaUpdateApply, hu]

section
variable {e t : ℕ} {us : List (ℕ × ℕ)} (hu : (s.die d).updates = (e, t) :: us)
include hu

theorem replicaUpdateApply_held (h : (s.die d).oldCaptures.all (isComplete s) = false) : exec (.replicaUpdateApply d) s = .next s := by
  show execReplicaUpdateApply d s = _
  simp only [execReplicaUpdateApply, hu, h, Bool.not_false, if_true]

theorem replicaUpdateApply_joins {u w : State} {b : List Byte} (h : (s.die d).oldCaptures.all (isComplete s) = true) (happ : (s.die d).applied = true)
    (hread : readNow s d (s.die d).repctx.toNat ((s.die d).tableAt (!(s.die d).live) + 16 * e) 16 = (u, .ok b))
    (hwrite : writeNow u d (s.die d).repctx.toNat ((s.die d).tableAt (!(s.die d).live) + 16 * e)
      (BitVec.ofNat 8 (fieldAt b 0 1 + 1) :: ((b.set (2 + fieldAt b 0 1) (BitVec.ofNat 8 t)).drop 1)) = (w, none)) :
    exec (.replicaUpdateApply d) s = .next (w.modDie d (fun x => { x with updates := us, applied := true })) := by
  show execReplicaUpdateApply d s = _
  simp only [execReplicaUpdateApply, hu, h, happ, hread, hwrite, Bool.not_true, Bool.false_eq_true, if_false, if_true]

end

/-! ## RTLOAD (10 R148) -/

theorem rtload_ignored {c : ℕ} {v : Word} (h : v.toNat / 2 ^ 31 % 2 ^ 27 ≠ 0 ∨ v.toNat % 64 ≠ 0) : rtload c v s = s :=
  if_pos (h.imp_right fun h => by omega)

theorem rtload_copies {c : ℕ} {v : Word} {b : List Byte} (h : v.toNat / 2 ^ 31 % 2 ^ 27 = 0) (ha : v.toNat % 64 = 0)
    (hread : readNow s (dieOf c) (s.tctx c) (v.toNat % 2 ^ 31) 64 = (t, .ok b)) :
    rtload c v s = s.modDie (dieOf c) (fun d => { d with rtab := sset d.rtab (v.toNat / 2 ^ 58) (BitVec.ofNat 512 (bytesNat b)) }) := by
  have hbits : ¬ (v.toNat / 2 ^ 31 % 2 ^ 27 ≠ 0 ∨ v.toNat % 2 ^ 31 % 64 ≠ 0) := by omega
  simp only [rtload, if_neg hbits, hread]

end Sys2Proof.Machine
end

section
/-! Expert routing and replication: the next access of a pass by its clauses, and the statement on the events of the experts. -/

namespace Sys2Proof.Machine

variable {s : State} {d va n : ℕ} {l : Loc} {r : RouteRun}

/-- A read of a pass in which it reaches its place: what it has read goes to the pass, and poison stops it. -/
theorem passGoes_read {g : ℕ → RouteRun} (he : routeAccessNext s d = routeRead s d r va n g) (h : lookup s d r.pass.tctx va false = .loc l)
    (hr : ReachesFrom s d r.pass.tctx (.unit d) va n l) :
    (s.locPoison l n = false → PassGoes s d (g (bytesNat (s.locRead l n)))) ∧ (s.locPoison l n = true → PassGoes s d { r with fault := some (r.row, 0x08) }) := by
  refine ⟨fun hp => ?_, fun hp => ?_⟩
  · obtain ⟨u, hu, hmem⟩ := routeRead_ok h hr hp
    exact passGoes_of_setRun (he.trans hu) hmem
  · obtain ⟨u, hu, hmem⟩ := routeRead_poisoned h hr hp
    exact passGoes_of_setRun (he.trans hu) hmem

theorem testBit_eq_div (b i : ℕ) : b.testBit i = (b / 2 ^ i % 2 == 1) := by
  rw [Nat.testBit_eq_decide_div_mod_eq]; rfl

theorem scoreAt_eq (e : BitVec 512) (r x : ℕ) :
    scoreAt e r x = wrapInt 64 ((rtScores e : ℤ) + r * (BitVec.ofNat 32 (rtField e 0x10 4)).toInt + x * (BitVec.ofNat 32 (rtField e 0x14 4)).toInt) := by
  rw [scoreAt, rtRstride, rtEstride, sextNat_toInt _ _ (by norm_num), sextNat_toInt _ _ (by norm_num)]

end Sys2Proof.Machine

open Sys2Proof.Machine in
/-- Settles O52: each clause is the lemma on its event. A pass starts, goes on and ends as the lemmas `routePassStart_`, `piece_`, `passGoes_read`, `place_`, `count_written` and `routePassFinish_` say;
the row that it places is the one of `bestK_spec`, an induction whose invariant, `Chosen`, is that the experts taken so far come first in the row's order. A pass leaves its place of the queue as it
starts, and a misaligned score is read in one access: the model's choices (log 94). -/
theorem expertEvents : Obligations.ExpertEvents := by
  intro s c k q d v rest u x
  refine ⟨?csrws, ?startWaits, ?starts, ?finishIdle, ?finishWaits, ?finishes, ?faults, ?accesses, ?choice, ?pieces, ?widened,
    replicationServe_rests, ?serveWaits, ?serves, ?doneIdle, ?done, ?applyIdle, ?applyHeld, ?applies⟩
  case csrws =>
    intro n ho hd
    refine ⟨?_, ?_, ?_⟩
    · rintro rfl hbad
      exact congrArg Host.Outcome.next ((csrwStep_ready _ ho hd rfl).trans (rtload_ignored hbad))
    · rintro t b rfl hbits ha hread
      exact congrArg Host.Outcome.next ((csrwStep_ready _ ho hd rfl).trans (rtload_copies hbits ha hread))
    · rintro rfl
      exact congrArg Host.Outcome.next (csrwStep_ready _ ho hd rfl)
  case startWaits => exact routePassStart_waits
  case starts => exact fun p ps => routePassStart_starts
  case finishIdle => exact routePassFinish_idle
  case finishWaits => exact fun r hr => routePassFinish_waits hr
  case finishes =>
    intro r hr hf ho hh
    exact ⟨_, routePassFinish_done hr hf ho hh, passFinished_spec s d r.pass.ticket⟩
  case faults =>
    intro r row code hr hf
    exact routePassFinish_records hr hf
  case accesses =>
    intro r hr hf ev e field rows nexp size becomes score count reads
    refine ⟨fun va bs outs ho _ => ⟨fun f => piece_faults hr hf ho, fun l => piece_written hr hf ho⟩, fun ho hrow => ?_, fun ho hrow hh => ?_⟩
    · have hnext := routeAccessNext_row hr hf ho hrow
      refine ⟨fun hv h0 => ?_, fun hv h0 l h hreach => ?_, fun hv => ?_, fun hv l h hreach => ?_⟩
      · rw [hv] at hnext
        exact passGoes_of_setRun (hnext.trans (if_pos h0)) (sameMemory_refl s)
      · rw [hv] at hnext
        have hread := passGoes_read (hnext.trans (if_neg h0)) h hreach
        simp only [← testBit_eq_div] at hread
        exact hread
      · rw [hv] at hnext
        exact passGoes_of_setRun hnext (sameMemory_refl s)
      · rw [hv] at hnext
        dsimp only at hnext
        rw [scoreAt_eq] at hnext
        exact passGoes_read hnext h hreach
    · refine ⟨fun hn => ⟨fun f => place_faults hr hf ho hrow hh hn, fun l => place_found hr hf ho hrow hh hn⟩, fun hn l hc hl hwf h1 => ?_,
        fun hn l m h2 hc hl hm => two_counts_written hr hf ho hrow hh hn h2 hc hl hm⟩
      obtain ⟨t, he, hstored, hbecomes⟩ := count_written hr hf ho hrow hh hn hc hl hwf h1
      exact ⟨t, he, hstored, countsTaken r, hbecomes, fun hlast => if_neg (h1.resolve_right hlast)⟩
  case choice =>
    intro sc k v better cand sel m w sum
    obtain ⟨hc, hlen⟩ := bestK_spec k (chosen_nil sc)
    have hw : w = rowWeight sc k := rfl
    have hbetter {i j : ℕ} (hi : i ∈ cand) (hj : j ∈ cand) (h : placeOf sc i < placeOf sc j) : better i j := (placeOf_lt hi hj).1 h
    refine ⟨hlen.trans (by rw [List.length_nil, Nat.zero_add]; rfl), hc.nodup, hc.numbers, ?_, fun i hi j hj hout => hbetter (hc.numbers i hi) hj (hc.first i hi j hj hout),
      routeRow_length sc k, fun i => routeRow_getElem?⟩
    exact hc.sorted.imp_of_mem fun hi hj => hbetter (hc.numbers _ hi) (hc.numbers _ hj)
  case pieces =>
    intro e r row hrow piece
    exact routeOuts_eq e r hrow
  case widened => exact fun b => ⟨rfl, rfl, rfl⟩
  case serveWaits => exact fun o e at_ reqs => replicationServe_waits
  case serves =>
    intro o e at_ reqs hs hq hnow hroom
    refine ⟨fun hd => ?_, fun p l t => replicationServe_copies hs hq hnow hroom⟩
    rw [replicationServe_takes hs hq hnow hroom, hd]
  case doneIdle => exact replicationCopyDone_idle
  case done =>
    intro e t r hs hc
    exact ⟨replicationCopyDone_waits hs hc, replicationCopyDone_faulted hs hc, replicationCopyDone_sends hs hc⟩
  case applyIdle => exact replicaUpdateApply_idle
  case applyHeld => exact fun e t us => replicaUpdateApply_held
  case applies => exact fun e t us u b w hu h happ => replicaUpdateApply_joins hu h happ
end

section
/-! The ALU words, the immediate forms, jumps and branches (12 R177 to R180): their values as numbers, and the words that carry them. -/

namespace Sys2Proof.Machine

/-! ## Words by their fields (11 R160, R162) -/

/-- The fields of a word are read back. -/
theorem ScWord.ofNat_fields {op d a b fn : ℕ} (hop : op < 64) (hd : d < 64) (ha : a < 64) (hb : b < 64) (hfn : fn < 256) :
    ScWord.ofNat (op * 2 ^ 26 + d * 2 ^ 20 + a * 2 ^ 14 + b * 2 ^ 8 + fn) = ⟨op, d, a, b, fn⟩ := by
  simp only [ScWord.ofNat, ScWord.mk.injEq]
  omega

/-- A word of the ALU group is read by its fn8. -/
theorem decodeSc_alu {d a b fn : ℕ} (hd : d < 64) (ha : a < 64) (hb : b < 64) (hfn : fn < 256) :
    decodeSc (d * 2 ^ 20 + a * 2 ^ 14 + b * 2 ^ 8 + fn) = decodeAlu ⟨0, d, a, b, fn⟩ := by
  have hword := ScWord.ofNat_fields (op := 0) (by norm_num) hd ha hb hfn
  rw [zero_mul, zero_add] at hword
  exact congrArg decodeScWord hword

/-- The same of a word whose field b is 0. -/
theorem decodeSc_count {d a fn : ℕ} (hd : d < 64) (ha : a < 64) (hfn : fn < 256) : decodeSc (d * 2 ^ 20 + a * 2 ^ 14 + fn) = decodeAlu ⟨0, d, a, 0, fn⟩ := by
  have hword := decodeSc_alu (b := 0) hd ha (by norm_num) hfn
  rwa [zero_mul, add_zero] at hword

/-- A word with a 14-bit immediate is read by its major, the immediate from the low fields. -/
theorem decodeSc_imm14 {op d a : ℕ} (hop : op < 64) (hd : d < 64) (ha : a < 64) (i : BitVec 14) :
    ∃ w : ScWord, decodeSc (op * 2 ^ 26 + d * 2 ^ 20 + a * 2 ^ 14 + i.toNat) = decodeScWord w ∧ w.op = op ∧ w.d = d ∧ w.a = a ∧ w.i14 = i := by
  have hi := i.isLt
  have hword := ScWord.ofNat_fields (b := i.toNat / 256) (fn := i.toNat % 256) hop hd ha (by omega) (Nat.mod_lt _ (by norm_num))
  refine ⟨_, congrArg decodeScWord ((congrArg ScWord.ofNat ?_).trans hword), rfl, rfl, rfl, ?_⟩
  · omega
  · rw [ScWord.i14, Nat.div_add_mod', BitVec.ofNat_toNat, BitVec.setWidth_eq]

/-! ## Values that depend on a comparison (12 R177) -/

theorem aluDiv_eq (x y : Word) : aluDiv x y = if y = 0 then -1 else BitVec.ofInt 64 (Int.tdiv x.toInt y.toInt) := by rw [aluDiv, sdiv_int]
theorem aluDivu_eq (x y : Word) : aluDivu x y = if y = 0 then -1 else BitVec.ofNat 64 (x.toNat / y.toNat) := by rw [aluDivu, div_nat]
theorem aluRem_eq (x y : Word) : aluRem x y = if y = 0 then x else BitVec.ofInt 64 (Int.tmod x.toInt y.toInt) := by rw [aluRem, srem_int]
theorem aluRemu_eq (x y : Word) : aluRemu x y = if y = 0 then x else BitVec.ofNat 64 (x.toNat % y.toNat) := by rw [aluRemu, mod_nat]

/-- A choice by the signed order is one by the order of the signed numbers. -/
theorem ite_slt {α : Type} (x y : Word) (a b : α) : (if BitVec.slt x y then a else b) = if x.toInt < y.toInt then a else b := by
  simp only [BitVec.slt, decide_eq_true_eq]

theorem ite_ult {α : Type} (x y : Word) (a b : α) : (if BitVec.ult x y then a else b) = if x.toNat < y.toNat then a else b := by
  simp only [BitVec.ult, decide_eq_true_eq]

/-- An immediate keeps its signed value when it is extended. -/
theorem toInt_signExtend14 (i : BitVec 14) : (i.signExtend 64).toInt = i.toInt := BitVec.toInt_signExtend_of_le (by norm_num)

end Sys2Proof.Machine

open Sys2Proof Sys2Proof.Machine in
/-- Settles O1: each word is one `put` of its value (`ends_put`), and the value is the number of R177 by the lemmas of Laws/Scalar.lean. -/
theorem aluResults : Obligations.AluResults := by
  intro s d a b x y
  have hclz : ∃ n : ℕ, Ends (.clz d a) s (GivesX s d (BitVec.ofNat 64 n)) ∧ n ≤ 64 ∧ x.toNat < 2 ^ (64 - n) ∧ (n < 64 → 2 ^ (63 - n) ≤ x.toNat) := by
    obtain ⟨n, hn, hbound⟩ := aluClz_spec x
    exact ⟨n, ends_put rfl hn, hbound⟩
  refine ⟨ends_put rfl rfl, ends_put rfl rfl, ends_put rfl (mul_nat x y), ends_put rfl rfl, ends_put rfl rfl, ends_put rfl (aluDiv_eq x y), ends_put rfl (aluDivu_eq x y),
    ends_put rfl (aluRem_eq x y), ends_put rfl (aluRemu_eq x y), ends_put rfl rfl, ends_put rfl rfl, ends_put rfl rfl, ends_put rfl (shl_nat x _), ends_put rfl (shr_nat x _),
    ends_put rfl (sra_int x _), ends_put rfl (ite_slt x y x y), ends_put rfl (ite_slt x y y x), ends_put rfl (ite_ult x y x y), ends_put rfl (ite_ult x y y x),
    ends_put rfl (ite_slt x y 1 0), ends_put rfl (ite_ult x y 1 0), hclz, ends_put rfl (aluPopc_countP x), fun hd ha hb => ?words, fun hd ha => ⟨?clz, ?popc⟩⟩
  case words =>
    rw [← List.forall_iff_forall_mem]
    simp only [List.Forall, decodeSc_alu hd ha hb, Nat.reduceLT]
    exact ⟨rfl, rfl, rfl, rfl, rfl, rfl, rfl, rfl, rfl, rfl, rfl, rfl, rfl, rfl, rfl, rfl, rfl, rfl, rfl, rfl, rfl⟩
  case clz => exact decodeSc_count hd ha (by norm_num)
  case popc => exact decodeSc_count hd ha (by norm_num)

open Sys2Proof Sys2Proof.Machine in
/-- Settles O2: each word is one `put` of its value. -/
theorem immediateResults : Obligations.ImmediateResults := by
  intro s d a n i u x e
  have hslti : flagWord (BitVec.slt x e) = if x.toInt < i.toInt then 1 else 0 := by
    rw [← toInt_signExtend14 i]; exact ite_slt x e 1 0
  exact ⟨ends_put rfl rfl, ends_put rfl rfl, ends_put rfl rfl, ends_put rfl rfl, ends_put rfl hslti, ends_put rfl (shl_nat x n), ends_put rfl (shr_nat x n),
    ends_put rfl (sra_int x n), ends_put rfl (upper_int u), ends_put rfl (congrArg (s.me.pc + ·) (upper_int u))⟩

open Sys2Proof Sys2Proof.Machine in
/-- Settles O3: the jumps are `ends_jump`, the branches `ends_branch` with the condition of each as an order of numbers. -/
theorem jumpResults : Obligations.JumpResults := by
  intro s d a b i u x y pc there
  have hthere : s.me.pc + i.signExtend 64 <<< 2 = there := congrArg (s.me.pc + ·) (offset14 i)
  have hjal : s.me.pc + u.signExtend 64 <<< 2 = pc + BitVec.ofInt 64 (4 * u.toInt) := congrArg (s.me.pc + ·) (offset20 u)
  refine ⟨hjal ▸ ends_jump rfl, ends_jump rfl, ends_branch rfl ?_, ends_branch rfl ?_, ends_branch rfl ?_, ends_branch (cond := fun x y => !BitVec.slt x y) rfl ?_,
    ends_branch rfl ?_, ends_branch (cond := fun x y => !BitVec.ult x y) rfl ?_, fun ha hb => ?words⟩
  case words =>
    have hbranch {op : ℕ} {j : Instr} (hop : op < 64) (hj : ∀ w : ScWord, w.op = op → w.d = a → w.a = b → w.i14 = i → decodeScWord w = .ok j) :
        decodeSc (op * 2 ^ 26 + a * 2 ^ 20 + b * 2 ^ 14 + i.toNat) = .ok j := by
      obtain ⟨w, hw, h1, h2, h3, h4⟩ := decodeSc_imm14 hop ha hb i
      exact hw.trans (hj w h1 h2 h3 h4)
    rw [← List.forall_iff_forall_mem]
    refine ⟨hbranch (by norm_num) ?_, hbranch (by norm_num) ?_, hbranch (by norm_num) ?_, hbranch (by norm_num) ?_, hbranch (by norm_num) ?_, hbranch (by norm_num) ?_⟩
    all_goals
      rintro w hop rfl rfl rfl
      simp [decodeScWord, hop]
  all_goals rw [hthere]
  · simp [x, y, pc]
  · simp [x, y, pc]
  · exact ite_slt x y _ _
  · simp [x, y, pc, BitVec.slt]
  · exact ite_ult x y _ _
  · simp [x, y, pc, BitVec.ult]
end

section
/-! SC accesses as a program sees them (12 R176, R181 to R186, R196): their issue, their failure at the home, deque operations at theirs, replies, and the status of FENCE. -/

namespace Sys2Proof.Machine

variable {s t u v : State} {a : Access} {c d i off n tctx : ℕ}

/-! ## What a slice refuses (06 R98, 25 R339) -/

/-- The area of a launch holds the n bytes from an offset, under the translation context of the access. -/
def AreaHolds (tctx off n : ℕ) (r : Running) : Prop := r.tctx = tctx ∧ r.area ≤ off ∧ off + n ≤ r.area + r.spneed

/-- A launch that runs or is parked on the core holds the bytes. -/
def SliceHolds (s : State) (tctx c off n : ℕ) : Prop :=
  (∃ r, s.run c = some r ∧ AreaHolds tctx off n r) ∨ ∃ p ∈ (s.arch c).parked, AreaHolds tctx off n p.run

theorem sliceReserved_eq : Config.sliceReserved = 4063232 := rfl

theorem hallRefuse_reserved (h : 4063232 < off + n) : hallRefuse s tctx c off n = some 1 := by
  have hreserved : Config.sliceReserved < off + n := by rw [sliceReserved_eq]; exact h
  exact if_pos hreserved

open Classical in
/-- Below the reserved top of the slice it is the areas that decide. -/
theorem hallRefuse_below (h : off + n ≤ 4063232) : hallRefuse s tctx c off n = if SliceHolds s tctx c off n then none else some 2 := by
  unfold hallRefuse
  rw [sliceReserved_eq, if_neg (by omega)]
  refine ite_congr (propext ?_) (fun _ => rfl) (fun _ => rfl)
  rw [Bool.or_eq_true, List.any_eq_true, SliceHolds, State.run]
  refine or_congr ?_ (exists_congr fun p => and_congr_right fun _ => by simp [AreaHolds, and_assoc])
  cases (s.arch c).run <;> simp [AreaHolds, and_assoc]

/-! ## An access that fails (12 R186, 25 R339, R346, R350) -/

theorem scPerform_cut (ha : s.accesses[i]? = some a) (harr : a.arrived = false) (hfirst : classFirst s a = true)
    (hr : (reachFault s (dieOf a.core) a.loc a.va).isSome = true) : scPerform s i = failAccess s a 6 := by
  simp only [scPerform, ha, harr, hfirst, hr, Bool.not_true, Bool.or_self, Bool.false_eq_true, if_false, if_true]

theorem performAt_refused {f : FaultInfo} (hr : homeRefuse u a.tctx a.loc a.size a.va = some f) : performAt u a = failAccess u a f.detail := by
  simp only [performAt, hr]

theorem performAt_poisoned (hr : homeRefuse u a.tctx a.loc a.size a.va = none) (hp : u.locPoison a.loc a.size = true)
    (ho : (∃ sg, a.op = .load sg) ∨ ∃ op w e, a.op = .atomic op w e true) : performAt u a = failAccess u a 8 := by
  rcases ho with ⟨sg, ho⟩ | ⟨op, w, e, ho⟩ <;> simp [performAt, hr, hp, ho]

/-- What a failure leaves is the same whatever was noted of arrivals at slices before it. -/
theorem failAccess_arrived (s : State) (x : List (ℕ × Arriver)) (a : Access) (detail : ℕ) :
    let t := failAccess { s with arrived := x } a detail
    t.accesses = s.accesses.filter (fun x => x.seq != a.seq) ∧ SameMemory s t ∧ ContextsKeep s t
    ∧ (a.op.isStore = true → a.ctx < 4 → t.replies = s.replies
        ∧ (t.ctx a.core a.ctx).fails = (s.ctx a.core a.ctx).fails ++ [⟨a.cls, a.loc.home, detail == 5 || detail == 6⟩])
    ∧ (a.op.isStore = false → t.replies = s.replies ++ [replyTo a 0 (some (faultOf 0x08 detail a.va))]) := by
  obtain ⟨hacc, hmem, hctx, hstore, hother⟩ := failAccess_spec { s with arrived := x } a detail
  exact ⟨hacc, sameMemory_trans (sameMemory_congr rfl rfl rfl rfl) hmem, contextsKeep_trans (contextsKeep_congr rfl) hctx, hstore, hother⟩

/-! ## Deques at their home (12 R195, R196) -/

theorem Deque.size_eq (q : Deque) : (q.size : ℤ) = ((q.bot : ℤ) - q.top) % 2 ^ 64 := by
  rw [Deque.size, wrapInt, Int.toNat_of_nonneg (Int.emod_nonneg _ (by norm_num))]

theorem hallAddr_zero (c : ℕ) : hallAddr c 0 = 4194304 * c := by rw [hallAddr, Config.sliceBytes]; omega

theorem Deque.entry_eq (q : Deque) (c n : ℕ) : q.entry c n = q.buf + 8 * (n % 2 ^ q.log) - 4194304 * c := by rw [Deque.entry, hallAddr_zero, Deque.cap]

theorem Deque.bad_iff (q : Deque) (c : ℕ) : q.bad c = true ↔ q.log = 0 ∨ 16 < q.log ∨ q.buf % 8 ≠ 0 ∨ q.buf < 4194304 * c
    ∨ 4194304 * (c + 1) < q.buf + 8 * 2 ^ q.log ∨ 2 ^ q.log < q.size := by
  have hcap : 2 ^ q.log = q.cap := rfl
  rw [hcap]
  simp only [Deque.bad, hallAddr_zero, Bool.or_eq_true, decide_eq_true_eq, bne_iff_ne, Nat.lt_one_iff, or_assoc]

theorem contextsKeep_spadWrite (s : State) (c off : ℕ) (bs : List Byte) : ContextsKeep s (s.spadWrite c off bs) := contextsKeep_modCore rfl

/-- The operations of deques. -/
def AccOp.isDeque : AccOp → Prop
  | .dqpush _ | .dqtake | .dqsteal => True
  | _ => False

section
variable {va : ℕ} {q : Deque} (hq : dequeOf (s.spadRead c off 32) = q) (hp : s.spadPoison c off 32 = false)
include hq hp

theorem dequeAt_bad (op : AccOp) (hb : q.bad c = true) : dequeAt s tctx c off va op = (s, .ok dequeBad) := by
  unfold dequeAt
  rw [hq, if_neg (by rw [hp]; exact Bool.false_ne_true), if_pos hb]

theorem dequeAt_refused {w : Word} (hb : q.bad c = false) (hw : w.getLsbD 63 = true) : dequeAt s tctx c off va (.dqpush w) = (s, .ok dequeRefused) := by
  unfold dequeAt
  simp only [hq, hp, hb, hw, Bool.false_eq_true, if_false, if_true]

theorem dequeAt_full {w : Word} (hb : q.bad c = false) (hw : w.getLsbD 63 = false) (hf : q.size = q.cap) :
    dequeAt s tctx c off va (.dqpush w) = (s, .ok dequeFull) := by
  unfold dequeAt
  simp only [hq, hp, hb, hw, Bool.false_eq_true, if_false, if_pos hf]

theorem dequeAt_push {w : Word} (hb : q.bad c = false) (hw : w.getLsbD 63 = false) (hf : q.size ≠ q.cap)
    (hr : hallRefuse s tctx c (q.entry c q.bot) 8 = none) :
    dequeAt s tctx c off va (.dqpush w) = ((s.spadWrite c (q.entry c q.bot) (natBytes 8 w.toNat)).spadWrite c (off + 24) (natBytes 8 (q.bot + 1)), .ok 0) := by
  unfold dequeAt
  extract_lets d refuse last value
  have hd : d = q := hq
  clear_value last value refuse d
  subst hd
  rw [hp, hb]
  generalize d.size = size at *
  simp only [hw, hr, Bool.false_eq_true, if_false, if_neg hf]

theorem dequeAt_empty {op : AccOp} (ho : op = .dqtake ∨ op = .dqsteal) (hb : q.bad c = false) (he : q.size = 0) :
    dequeAt s tctx c off va op = (s, .ok dequeEmpty) := by
  unfold dequeAt
  extract_lets d refuse last value
  have hd : d = q := hq
  clear_value last value refuse d
  subst hd
  rw [if_neg (by rw [hp]; exact Bool.false_ne_true), if_neg (by rw [hb]; exact Bool.false_ne_true)]
  rcases ho with rfl | rfl
  · exact (if_pos he).trans rfl
  · exact (if_pos he).trans rfl

end

/-- A deque operation answers by a reply, and what it wrote may be noted for PFENCE besides. -/
theorem performAt_deque {w : Word} (hr : homeRefuse u a.tctx a.loc a.size a.va = none) (hl : a.loc = .slice c off) (ho : a.op.isDeque)
    (hd : dequeAt (retireAccess u a) a.tctx c off a.va a.op = (t, .ok w)) : ∃ v, (v = noteWrite t a ∨ v = t) ∧ performAt u a = reply v a w none := by
  refine ⟨if dequeActs (dequeOf (u.spadRead c off 32)) c a.op then noteWrite t a else t, ite_eq_or_eq _ _ _, ?_⟩
  generalize hacts : dequeActs (dequeOf (u.spadRead c off 32)) c a.op = acts
  unfold performAt
  rw [hr]
  dsimp only
  cases hop : a.op with
  | dqpush | dqtake | dqsteal =>
    rw [hop] at hd hacts
    simp only [hl, hd, hacts]
  | load | store | atomic | lntw => rw [hop] at ho; exact ho.elim

/-- What the answer of a deque operation leaves, where the operation itself has changed memory as from s to m and touched no context, access or reply. -/
theorem performAt_deque_gives {m : State} {w : Word} (hr : homeRefuse u a.tctx a.loc a.size a.va = none) (hl : a.loc = .slice c off) (ho : a.op.isDeque)
    (hd : dequeAt (retireAccess u a) a.tctx c off a.va a.op = (t, .ok w)) (hacc : t.accesses = (retireAccess u a).accesses) (hrep : t.replies = u.replies)
    (hmem : SameMemory m t) (hctx : ContextsKeep u t) :
    (performAt u a).accesses = u.accesses.filter (fun x => x.seq != a.seq) ∧ (performAt u a).replies = u.replies ++ [replyTo a w none]
    ∧ SameMemory m (performAt u a) ∧ ContextsKeep u (performAt u a) := by
  obtain ⟨v, hv, hperf⟩ := performAt_deque hr hl ho hd
  obtain ⟨nmem, nctx, nacc, nrep⟩ := noteWrite_spec t a
  have hkeep : SameMemory t v ∧ ContextsKeep t v ∧ v.accesses = t.accesses ∧ v.replies = t.replies := by
    rcases hv with rfl | rfl
    · exact ⟨nmem, nctx, nacc, nrep⟩
    · exact ⟨sameMemory_refl _, contextsKeep_refl _, rfl, rfl⟩
  obtain ⟨vmem, vctx, vacc, vrep⟩ := hkeep
  rw [hperf]
  exact ⟨vacc.trans hacc, congrArg (· ++ _) (vrep.trans hrep), sameMemory_trans hmem (sameMemory_trans vmem (sameMemory_congr rfl rfl rfl rfl)),
    contextsKeep_trans hctx (contextsKeep_trans vctx (contextsKeep_congr rfl))⟩

/-! ## Replies (12 R176) -/

theorem loadReply_held {p : Reply} (hp : s.replies[i]? = some p) (hstop : s.stopFree p.core = false) (hstep : (s.core p.core).dbg.stepping = false) :
    exec (.loadReply (.access i)) s = .next s := by
  show execLoadReply (.access i) s = _
  have hstopped : ((s.core p.core).stop.isSome || (s.core p.core).stopping.isSome) = true := by
    cases h1 : (s.core p.core).stop <;> cases h2 : (s.core p.core).stopping <;> simp_all [State.stopFree]
  simp only [execLoadReply, hp, hstopped, hstep, Bool.not_false, Bool.and_self, if_true]

theorem loadReply_delivers {p : Reply} (hp : s.replies[i]? = some p) (hgo : s.stopFree p.core = true ∨ (s.core p.core).dbg.stepping = true) :
    exec (.loadReply (.access i)) s = .next (deliver { s with replies := s.replies.eraseIdx i } p) := by
  show execLoadReply (.access i) s = _
  have hheld : (((s.core p.core).stop.isSome || (s.core p.core).stopping.isSome) && !(s.core p.core).dbg.stepping) = false := by
    cases h1 : (s.core p.core).stop <;> cases h2 : (s.core p.core).stopping <;> simp_all [State.stopFree]
  simp only [execLoadReply, hp, hheld, Bool.false_eq_true, if_false]

/-- What a reply does to its context: it writes the register, which is no longer busy, and lets the context go on. -/
def replied (p : Reply) (t : Ctx) : Ctx := { t.setX p.xd p.value with busy := t.busy.erase p.xd, holds := if p.hold then t.holds - 1 else t.holds }

theorem deliver_value {p : Reply} (hf : p.fault = none) : deliver u p = u.modCtx p.core p.ctx (replied p) := by
  simp only [deliver, hf]; rfl

theorem replied_frame (p : Reply) (t : Ctx) :
    replied p t = { t with regs := (replied p t).regs, busy := t.busy.erase p.xd, holds := t.holds - p.hold.toNat } := by
  unfold replied
  rw [Ctx.setX_frame]
  cases p.hold <;> rfl

theorem replied_x (p : Reply) (t : Ctx) (r : ℕ) : (replied p t).x r = if r = p.xd ∧ p.xd ≠ 0 then p.value else t.x r := Ctx.x_setX t p.xd r p.value

/-! ## FENCE (12 R185, R186) -/

/-- The classes of some failures, one bit for each. -/
def failClasses (l : List FailRec) : ℕ := l.foldl (fun m f => m ||| 2 ^ f.cls) 0

theorem testBit_failClasses (l : List FailRec) (j : ℕ) : (failClasses l).testBit j = l.any (fun f => f.cls == j) := by
  have hfold (l : List FailRec) (m : ℕ) : (l.foldl (fun m f => m ||| 2 ^ f.cls) m).testBit j = (m.testBit j || l.any (fun f => f.cls == j)) := by
    induction l generalizing m with
    | nil => simp
    | cons f l ih => rw [List.foldl_cons, ih, Nat.testBit_or, Nat.testBit_two_pow, List.any_cons, Bool.or_assoc]; rfl
  rw [failClasses, hfold, Nat.zero_testBit, Bool.false_or]

theorem failClasses_lt {l : List FailRec} (h : ∀ f ∈ l, f.cls < 16) : failClasses l < 2 ^ 16 := by
  refine Nat.lt_pow_two_of_testBit _ fun j hj => ?_
  rw [testBit_failClasses, List.any_eq_false]
  intro f hf
  have hcls := h f hf
  simp only [beq_iff_eq]
  omega

/-- The status word of failures, as a number. -/
theorem fenceStatus_toNat {l : List FailRec} (h : ∀ f ∈ l, f.cls < 16) :
    (fenceStatus l).toNat = failClasses l * 65536 + min 255 l.length * 256 + 4 * (l.any (fun f => !f.link)).toNat + 2 * (l.any (fun f => f.link)).toNat + (!l.isEmpty).toNat := by
  have hcls := failClasses_lt h
  have hr := Bool.toNat_le (l.any (fun f => !f.link))
  have hl := Bool.toNat_le (l.any (fun f => f.link))
  have he := Bool.toNat_le (!l.isEmpty)
  exact (BitVec.toNat_ofNat ..).trans (Nat.mod_eq_of_lt (by change failClasses l * 65536 + _ + _ + _ + _ < _; omega))

/-- The fields of the status word (12 R186). -/
theorem fenceStatus_spec {l : List FailRec} (h : ∀ f ∈ l, f.cls < 16) :
    let w := fenceStatus l
    (l = [] → w = 0) ∧ w.getLsbD 0 = !l.isEmpty ∧ w.getLsbD 1 = l.any (fun f => f.link) ∧ w.getLsbD 2 = l.any (fun f => !f.link)
    ∧ w.toNat / 8 % 32 = 0 ∧ w.toNat / 256 % 256 = min 255 l.length ∧ (∀ j, j < 16 → w.getLsbD (16 + j) = l.any (fun f => f.cls == j)) ∧ w.toNat / 2 ^ 32 = 0 := by
  have hcls := failClasses_lt h
  have hn := fenceStatus_toNat h
  have hr := Bool.toNat_le (l.any (fun f => !f.link))
  have hl := Bool.toNat_le (l.any (fun f => f.link))
  have he := Bool.toNat_le (!l.isEmpty)
  have hhigh : (fenceStatus l).toNat / 2 ^ 16 = failClasses l := by omega
  refine ⟨fun hl => by subst hl; rfl, ?_, ?_, ?_, by omega, by omega, fun j _ => ?_, by omega⟩
  · rw [BitVec.getLsbD, Nat.testBit_zero]
    cases hb : (!l.isEmpty) <;> simp only [hb, Bool.toNat_true, Bool.toNat_false] at hn <;> simp <;> omega
  · rw [BitVec.getLsbD, Nat.testBit_eq_decide_div_mod_eq]
    cases hb : l.any (fun f => f.link) <;> simp only [hb, Bool.toNat_true, Bool.toNat_false] at hn <;> simp <;> omega
  · rw [BitVec.getLsbD, Nat.testBit_eq_decide_div_mod_eq]
    cases hb : l.any (fun f => !f.link) <;> simp only [hb, Bool.toNat_true, Bool.toNat_false] at hn <;> simp <;> omega
  · rw [BitVec.getLsbD, Nat.add_comm, ← Nat.testBit_div_two_pow, hhigh, testBit_failClasses]

/-- FENCE waits while an access that it covers is outstanding. -/
theorem fence_waits {sc : Scope} {mask : BitVec 16} (h : ∃ x ∈ ownAccesses s s.c s.k, (mask.getLsbD x.cls && inScope sc s.c x.loc.home) = true) :
    exec (.fence d sc mask) s = .next (s.block (.fence sc mask)) := by
  show execFence d sc mask s = _
  have hover : waitOver s s.c s.k (.fence sc mask) = false := by
    obtain ⟨x, hx, hcov⟩ := h
    simp only [waitOver, List.all_eq_false]
    exact ⟨x, hx, by simpa [fenceCovers] using hcov⟩
  simp only [execFence, hover, Bool.false_eq_true, if_false]

theorem fence_reports {sc : Scope} {mask : BitVec 16} (h : ∀ x ∈ ownAccesses s s.c s.k, (mask.getLsbD x.cls && inScope sc s.c x.loc.home) = false) :
    exec (.fence d sc mask) s = .next ((s.modMe (fun t => { t with fails := t.fails.filter (fun f => !(mask.getLsbD f.cls && inScope sc s.c f.home)) })).put d
      (fenceStatus (s.me.fails.filter (fun f => mask.getLsbD f.cls && inScope sc s.c f.home)))) := by
  show execFence d sc mask s = _
  have hover : waitOver s s.c s.k (.fence sc mask) = true := by
    simp only [waitOver, List.all_eq_true]
    exact fun x hx => by simp [fenceCovers, h x hx]
  simp only [execFence, hover, if_true]
  rfl

end Sys2Proof.Machine

open Sys2Proof Sys2Proof.Machine in
/-- Settles O4: a load or store is an `scAccess`, which issues where it may (`scAccess_issues`). -/
theorem loadsStoresIssue : Obligations.LoadsStoresIssue := by
  intro s d a c i ea
  exact ⟨scAccess_issues rfl, scAccess_issues rfl, scAccess_issues rfl, scAccess_issues rfl, scAccess_issues rfl, scAccess_issues rfl, scAccess_issues rfl,
    scAccess_issues rfl, scAccess_issues rfl, scAccess_issues rfl, scAccess_issues rfl⟩

open Sys2Proof Sys2Proof.Machine in
/-- Settles O5: an atomic is an `scAccess`; a deque word issues on a descriptor in hall space, and LNTW there once no LNGO of its table waits. -/
theorem atomicsDequesIssue : Obligations.AtomicsDequesIssue := by
  intro s d a b c n nr w va size at_
  exact ⟨scAccess_issues rfl, scAccess_issues rfl, scAccess_issues rfl, scAccess_issues rfl, scAccess_issues rfl, scAccess_issues rfl, scAccess_issues rfl,
    scAccess_issues rfl, scAccess_issues rfl, scAccess_issues rfl, scAccess_issues rfl, scAccess_issues rfl, scAccess_issues rfl,
    fun hv => ⟨scDeque_issues rfl hv, scDeque_issues rfl hv, scDeque_issues rfl hv, lntw_issues hv⟩⟩

open Sys2Proof Sys2Proof.Machine in
/-- Settles O8: what fails does so by `failAccess`, and `failAccess_arrived` says what that leaves: a home that is cut off fails the access by itself (`scPerform_cut`), one that is reached by what it is asked
to perform (`performAt_refused`, `performAt_poisoned`). What a slice refuses is `hallRefuse_reserved` and `hallRefuse_below`. -/
theorem accessesFail : Obligations.AccessesFail := by
  intro s i a detail
  refine ⟨?fails, fun tctx c off n => ⟨hallRefuse_reserved, fun hlow hheld => ?held, fun hlow hheld => ?free⟩⟩
  case fails =>
    intro ha harr hfirst hcls open_ hfail gone
    have hopen (hreach : reachFault s (dieOf a.core) a.loc a.va = none ∧ pathIn s (dieOf a.core) a.loc.die 2 = false ∧ homeUp s a.loc = true
        ∧ mayReach s a.loc.home (.access a.seq) = true) : ∃ x, scPerform s i = performAt { s with arrived := x } a := by
      obtain ⟨hr, hpath, hup, hmay⟩ := hreach
      exact ⟨_, (scPerform_eq ⟨ha, harr, hfirst, hcls, hr, hpath, hup, hmay⟩).trans (by rw [leaveSlice_frame])⟩
    suffices hperf : ∃ x, scPerform s i = failAccess { s with arrived := x } a detail by
      obtain ⟨x, hx⟩ := hperf
      exact ⟨_, congrArg Host.Outcome.next hx, failAccess_arrived s x a detail⟩
    rcases hfail with ⟨f, hreach, hrefuse, rfl⟩ | ⟨hcut, rfl⟩ | ⟨hreach, hnone, hpoison, rfl, hop⟩
    · obtain ⟨x, hx⟩ := hopen hreach
      exact ⟨x, hx.trans (performAt_refused hrefuse)⟩
    · exact ⟨s.arrived, scPerform_cut ha harr hfirst hcut⟩
    · obtain ⟨x, hx⟩ := hopen hreach
      exact ⟨x, hx.trans (performAt_poisoned hnone hpoison hop)⟩
  case held => rw [hallRefuse_below hlow]; exact if_pos hheld
  case free => rw [hallRefuse_below hlow]; exact if_neg hheld

open Sys2Proof Sys2Proof.Machine in
/-- Settles O9: the access that is performed is `exec_accessPerform_sc`'s; what the operation answers and writes is the lemma `dequeAt_` of its case, and `performAt_deque_gives` says what is left then. -/
theorem dequesAtHome : Obligations.DequesAtHome := by
  intro s i c off a v
  refine ⟨fun b => rfl, fun q n => ⟨q.size_eq, rfl, q.entry_eq c n, q.bad_iff c⟩, ?_⟩
  intro hperf hr hl hp q last gives reaches value
  obtain ⟨x, hexec⟩ := exec_accessPerform_sc hperf
  let u : State := { s with arrived := x }
  have hq : dequeOf ((retireAccess u a).spadRead c off 32) = q := rfl
  have hgives {m t : State} {w : Word} (ho : a.op.isDeque) (hd : dequeAt (retireAccess u a) a.tctx c off a.va a.op = (t, .ok w))
      (hacc : t.accesses = (retireAccess u a).accesses) (hrep : t.replies = s.replies) (hmem : SameMemory m t) (hctx : ContextsKeep u t) :
      Ends (.accessPerform (.sc i)) s (gives m w) := by
    obtain ⟨gacc, grep, gmem, gctx⟩ := performAt_deque_gives (u := u) hr hl ho hd hacc hrep hmem hctx
    exact ⟨_, hexec, gacc, grep, gmem, contextsKeep_trans (contextsKeep_congr rfl) gctx⟩
  have hanswers {w : Word} (ho : a.op.isDeque) (hd : dequeAt (retireAccess u a) a.tctx c off a.va a.op = (retireAccess u a, .ok w)) :
      Ends (.accessPerform (.sc i)) s (gives s w) := hgives ho hd rfl rfl (sameMemory_congr rfl rfl rfl rfl) (contextsKeep_congr rfl)
  have hwrites {o : ℕ} {bs : List Byte} {w : Word} (ho : a.op.isDeque)
      (hd : dequeAt (retireAccess u a) a.tctx c off a.va a.op = ((retireAccess u a).spadWrite c o bs, .ok w)) :
      Ends (.accessPerform (.sc i)) s (gives (s.spadWrite c o bs) w) := hgives ho hd rfl rfl (sameMemory_congr rfl rfl rfl rfl) (contextsKeep_spadWrite _ _ _ _)
  have hdeque (ho : a.op = .dqtake ∨ a.op = .dqsteal) : a.op.isDeque := by rcases ho with ho | ho <;> rw [ho] <;> trivial
  refine ⟨fun ho hb => hanswers ?_ (dequeAt_bad hq hp _ hb), fun hb => ⟨fun ho hw => ?refused, fun ho hw hf => ?full, fun ho hw hf hentry => ?push,
    fun ho he => hanswers (hdeque ho) (dequeAt_empty hq hp ho hb he), fun ho he hreach => ?take, fun ho he hreach => ?steal⟩⟩
  · rcases ho with ho | ho
    · rw [ho]; trivial
    · exact hdeque ho
  case refused => exact hanswers (by rw [ho]; trivial) (ho ▸ dequeAt_refused hq hp hb hw)
  case full => exact hanswers (by rw [ho]; trivial) (ho ▸ dequeAt_full hq hp hb hw hf)
  case push =>
    have hd := dequeAt_push (tctx := a.tctx) (va := a.va) hq hp hb hw hf hentry
    rw [← ho] at hd
    exact hgives (by rw [ho]; trivial) hd rfl rfl (sameMemory_congr rfl rfl rfl rfl)
      (contextsKeep_trans (contextsKeep_trans (contextsKeep_congr rfl) (contextsKeep_spadWrite _ _ _ _)) (contextsKeep_spadWrite _ _ _ _))
  case take =>
    obtain ⟨hentry, hpoison⟩ := hreach
    exact hwrites (hdeque (.inl ho)) (ho ▸ dequeAt_take hq rfl hp hb he hentry hpoison)
  case steal =>
    obtain ⟨hentry, hpoison⟩ := hreach
    exact hwrites (hdeque (.inr ho)) (ho ▸ dequeAt_steal hq hp hb he hentry hpoison)

open Sys2Proof Sys2Proof.Machine in
/-- Settles O10: a reply that may be delivered is (`loadReply_delivers`), and without a fault it does to its context what `replied` says. -/
theorem repliesWriteRegisters : Obligations.RepliesWriteRegisters := by
  intro s i p hp left
  refine ⟨loadReply_held hp, fun hgo hf => ⟨_, (loadReply_delivers hp hgo).trans (congrArg _ (deliver_value hf)), ?_, ?_, onlyCtx_modCtx .., ?_⟩⟩
  · intro r
    rw [ctx_modCtx]; exact replied_x p _ r
  · rw [ctx_modCtx]; exact replied_frame p _
  · exact sameMemory_trans (sameMemory_congr rfl rfl rfl rfl) (sameMemory_modCtx _ _ _ _)

open Sys2Proof Sys2Proof.Machine in
/-- Settles O11: FENCE waits or reports (`fence_waits`, `fence_reports`), and its word is that of `fenceStatus_spec`, whose classes lie below 16 since the mask names them. -/
theorem fenceResults : Obligations.FenceResults := by
  intro s d sc mask covers hit
  refine ⟨fun h => ends_block (fence_waits h), fun h => ⟨_, fenceStatus hit, fence_reports h, put_with rfl rfl, fenceStatus_spec fun f hf => ?_⟩⟩
  have hbit : mask.getLsbD f.cls = true := (Bool.and_eq_true .. ▸ (List.mem_filter.1 hf).2).1
  exact BitVec.lt_of_getLsbD hbit
end

section
/-! The system words of the SC (12 R188, R189, R192, R202 to R205): control registers read and written, patch slots, landing words, traps and the ends of handlers. -/

namespace Sys2Proof.Machine

variable {s t u : State} {c k n d a : ℕ}

/-! ## Parts of the state under a change that comes to the same -/

theorem modCtx_congr {f g : Ctx → Ctx} (h : f (s.ctx c k) = g (s.ctx c k)) : s.modCtx c k f = s.modCtx c k g :=
  congrArg (fun x => s.modCtx c k (fun _ => x)) h

theorem modCsrs_congr {f g : Csrs → Csrs} (h : f (s.arch c).csrs = g (s.arch c).csrs) : s.modCsrs c f = s.modCsrs c g :=
  congrArg (fun x => s.modCsrs c (fun _ => x)) h

theorem modSeqs_congr {f g : Seqs → Seqs} (h : f (s.seqs c) = g (s.seqs c)) : s.modSeqs c f = s.modSeqs c g :=
  congrArg (fun x => s.modSeqs c (fun _ => x)) h

theorem OnlyCore.traffic (h : OnlyCore s t c) : t.accesses = s.accesses ∧ t.replies = s.replies := by
  unfold OnlyCore at h
  rw [h]; exact ⟨rfl, rfl⟩

/-! ## CSRR (12 R205, 11 R167) -/

theorem csrr_reads (h : s.me.ops = []) : exec (.csrr d n) s = .next ((csrReadEffect s s.c s.k n).put d (readCsr s s.c s.k n)) := by
  show execCsrr d n s = _
  simp [execCsrr, h]

theorem csrr_queues (h : s.me.ops ≠ []) : exec (.csrr d n) s = .next (s.queueOp (.csrr n d) (some d)) := by
  show execCsrr d n s = _
  simp [execCsrr, h]

/-- The registers that nothing is done by a read of, besides that it gives the value. -/
def PlainRead (n : ℕ) : Prop := ¬ (0x060 ≤ n ∧ n < 0x068) ∧ n ≠ 0x03E

theorem csrReadEffect_plain (hn : PlainRead n) : csrReadEffect s c k n = s := by
  obtain ⟨hbar, hload⟩ := hn
  simp [csrReadEffect, hbar, hload]

theorem csrReadEffect_bar (h : 0x060 ≤ n ∧ n < 0x068) :
    csrReadEffect s c k n = s.modCtx c k (fun t => { t with phases := sset t.phases (n - 0x060) (s.bar c (n - 0x060)).phase }) := if_pos h

theorem csrReadEffect_ldval (h : (s.ctx c k).ldsel.toNat < 1024) : csrReadEffect s c k 0x03E = s := by
  simp [csrReadEffect, h]

theorem csrr_plain {v : Word} (h : s.me.ops = []) (hn : PlainRead n) (hv : readCsr s s.c s.k n = v) : Ends (.csrr d n) s (GivesX s d v) :=
  ends_put ((csrr_reads h).trans (by rw [csrReadEffect_plain hn])) hv

theorem readCsr_bar (hlo : 0x060 ≤ n) (hhi : n < 0x068) : readCsr s c k n = (s.bar c (n - 0x060)).word := by
  interval_cases n <;> rfl

theorem readCsr_ldval (h : (s.ctx c k).ldsel.toNat < 1024) : readCsr s c k 0x03E = BitVec.ofNat 64 (sget 0 (s.die (dieOf c)).loadc (s.ctx c k).ldsel.toNat) := if_pos h

theorem readCsr_ring {j : ℕ} (hj : j < 16) : readCsr s c k (0x040 + j) = (s.ring c j).cfg ∧ readCsr s c k (0x050 + j) = (s.ring c j).ptr := by
  interval_cases j <;> exact ⟨rfl, rfl⟩

theorem readCsr_event {j : ℕ} (hj : j < 8) :
    readCsr s c k (0x070 + j) = sget 0 (s.arch c).csrs.evc j ∧ readCsr s c k (0x078 + j) = (sget 0 (s.arch c).csrs.evsel j).setWidth 64 := by
  interval_cases j <;> exact ⟨rfl, rfl⟩

theorem Die.dload_eq (x : Die) : x.dload = (x.loadc.map (fun e => e.2)).sum := by
  rw [Die.dload, List.sum_eq_foldl, List.foldl_map]

theorem whlpos_owned {r : Running} (hr : s.run c = some r) (hn : 0 < r.wheelN) : whlpos s c = BitVec.ofNat 64 (r.wheelN * 2 ^ 16 + r.wheelP % (4096 / r.wheelN)) := by
  simp only [whlpos, hr]
  rw [if_neg (by omega), Nat.add_comm]
  norm_num

theorem whlpos_none (h : ∀ r, s.run c = some r → r.wheelN = 0) : whlpos s c = 0 := by
  cases hr : s.run c with
  | none => simp only [whlpos, hr]
  | some r => simp only [whlpos, hr, h r hr, if_true]

/-- The fields of CELSTAT (07 R116). -/
theorem celstat_fields (x : Core) : (celstat x).toNat / 2 ^ 32 = x.cellar.cg % 2 ^ 32 ∧ (celstat x).toNat / 2 ^ 30 % 4 = x.cellar.res.toNat
    ∧ (celstat x).toNat / 2 ^ 12 % 2 ^ 18 = 0 ∧ (celstat x).toNat % 2 ^ 12 = x.dirtyCount % 2 ^ 12 := by
  have hres := x.cellar.res.isLt
  have hword : (celstat x).toNat = x.cellar.cg % 2 ^ 32 * 2 ^ 32 + x.cellar.res.toNat * 2 ^ 30 + x.dirtyCount % 4096 :=
    (BitVec.toNat_ofNat ..).trans (Nat.mod_eq_of_lt (by omega))
  refine ⟨?_, ?_, ?_, ?_⟩ <;> omega

/-! ## CSRW: REGISTER_WRITE (12 R205) -/

section
variable {q : ℕ} {v : Word} {rest : List CtxOp} (ho : (s.ctx c k).ops = ⟨q, .csrw n v⟩ :: rest)
include ho

/-- A write waits for the stores before it. -/
theorem registerWrite_waits (hd : storesDone s c k q = false) : exec (.registerWrite (.csr c k)) s = .next s := by
  show execRegisterWrite (.csr c k) s = _
  simp [execRegisterWrite, csrwPlain, csrwStep, readyCsrw, headOp, ho, hd]

theorem popOp_head : popOp s c k = s.modCtx c k (fun m => { m with ops := rest }) := modCtx_congr (by rw [ho]; rfl)

/-- A write whose register has no step of its own does what `writeCsr` says, once its turn has come. -/
theorem registerWrite_writes (hd : storesDone s c k q = true) (hn : ownStep s c n v = false) :
    exec (.registerWrite (.csr c k)) s = .next (writeCsr (s.modCtx c k (fun m => { m with ops := rest })) c k n v) := by
  show execRegisterWrite (.csr c k) s = _
  rw [execRegisterWrite, csrwPlain, csrwStep_ready _ ho hd (by rw [hn]; rfl), popOp_head ho]

/-- A write that changes the registers of its core alone. -/
theorem registerWrite_sets {f : Csrs → Csrs} (hd : storesDone s c k q = true) (hn : ownStep s c n v = false)
    (hw : ∀ u : State, (∀ j, (u.ctx c j).hook = (s.ctx c j).hook) → writeCsr u c k n v = u.modCsrs c f) :
    exec (.registerWrite (.csr c k)) s = .next ((s.modCtx c k (fun m => { m with ops := rest })).modCsrs c (fun _ => f (s.arch c).csrs)) := by
  have hhook (j : ℕ) : ((s.modCtx c k (fun m => { m with ops := rest })).ctx c j).hook = (s.ctx c j).hook := by
    rw [ctx_modCtx_cases]
    split_ifs with hj
    · rw [hj.2]
    · rfl
  rw [registerWrite_writes ho hd hn, hw _ hhook]
  exact congrArg Host.Outcome.next (modCsrs_congr (by rw [csrs_modCtx]))

end

theorem writeCsr_event {j : ℕ} (hj : j < 8) (v : Word) :
    ownStep s c (0x070 + j) v = false ∧ ownStep s c (0x078 + j) v = false
    ∧ writeCsr u c k (0x070 + j) v = u.modCsrs c (fun r => { r with evc := sset r.evc j v })
    ∧ writeCsr u c k (0x078 + j) v = u.modCsrs c (fun r => { r with evsel := sset r.evsel j (v.setWidth 9) }) := by
  interval_cases j <;> exact ⟨rfl, rfl, rfl, rfl⟩

theorem hookRuns_none (h : ∀ j, (s.ctx c j).hook = none) : hookRuns s c = false := by
  simp [hookRuns, h]

/-- The read-only registers of 11 R167. -/
def readOnlyCsrs : List ℕ := [0, 1, 2, 3, 0x00C, 0x00D, 0x00E, 0x011, 0x019, 0x029, 0x030, 0x032, 0x039, 0x03A, 0x03C, 0x03E, 0x211, 0x212, 0x21D]

/-- A read-only register ignores a write. -/
theorem writeCsr_readOnly (hn : n ∈ readOnlyCsrs) (v : Word) : ownStep s c n v = false ∧ writeCsr u c k n v = u := by
  simp only [readOnlyCsrs, List.mem_cons, List.not_mem_nil, or_false] at hn
  rcases hn with rfl | rfl | rfl | rfl | rfl | rfl | rfl | rfl | rfl | rfl | rfl | rfl | rfl | rfl | rfl | rfl | rfl | rfl | rfl <;> exact ⟨rfl, rfl⟩

/-! ## Patch slots (03 R37 to R44) -/

/-- A word that takes a patch slot is illegal where its number is above 63. -/
theorem slotOk_false {w : Word} (h : 64 ≤ w.toNat) : slotOk w = false := by simp only [slotOk, decide_eq_false_iff_not]; omega
theorem slotOk_true {w : Word} (h : w.toNat < 64) : slotOk w = true := decide_eq_true h

theorem exec_prd {p : PatchReg} (h : (s.x a).toNat < 64) : exec (.prd d a p) s = .next (s.put d ((s.slot s.c (s.x a).toNat).read p)) := if_pos (slotOk_true h)

theorem exec_pwr {b : ℕ} {p : PatchReg} (h : (s.x a).toNat < 64) : exec (.pwr d a b p) s
    = .next ((s.modSlot s.c (s.x a).toNat (fun _ => ((s.slot s.c (s.x a).toNat).write p (s.x b)).1)).put d ((s.slot s.c (s.x a).toNat).write p (s.x b)).2) :=
  if_pos (slotOk_true h)

/-- PF is read as its fields. -/
theorem PatchSlot.pf_word (q : PatchSlot) : q.pf.setWidth 64 = BitVec.ofNat 64 (q.endc.toNat * 64 + q.lcause.toNat * 16 + q.gen.toNat * 4 + q.state.toNat) := by
  have hend := q.endc.isLt
  have hcause := q.lcause.isLt
  have hgen := Bool.toNat_le q.gen
  have hstate := q.state.isLt
  apply BitVec.eq_of_toNat_eq
  rw [PatchSlot.pf, BitVec.toNat_setWidth, BitVec.toNat_ofNat, BitVec.toNat_ofNat]
  omega

theorem PatchSlot.read_eq (q : PatchSlot) (p : PatchReg) : q.read p = match p with
    | .pb => q.pb.setWidth 64 | .pp => q.pp.setWidth 64 | .ps => q.ps.setWidth 64 | .pl => q.pl.setWidth 64 | .pt => q.pt.setWidth 64 | .pm => q.pm.setWidth 64 | .pv => q.pv
    | .pf => BitVec.ofNat 64 (q.endc.toNat * 64 + q.lcause.toNat * 16 + q.gen.toNat * 4 + q.state.toNat) := by
  cases p with
  | pf => exact q.pf_word
  | _ => rfl

/-! ### PWR by the register it names (03 R38 to R40) -/

/-- The slot takes no bytes: it is closed or never opened. -/
def PatchSlot.Shut (q : PatchSlot) : Prop := q.state = 0 ∨ q.state = 3

theorem PatchSlot.shut_iff {q : PatchSlot} : (q.state == 0 || q.state == 3) = true ↔ q.Shut := by simp [PatchSlot.Shut]

section
variable (q : PatchSlot) (w : Word)

theorem PatchSlot.write_pt : q.write .pt w = if w.toNat < 2 ^ 16 then ({ q with pt := w.setWidth 16 }, 0) else (q, 2) := by
  simp only [PatchSlot.write, decide_eq_true_eq]
  by_cases h : w.toNat < 2 ^ 16
  · rw [if_pos h, if_neg (by simp only [patchWidth]; omega)]
  · rw [if_neg h, if_pos (by simp only [patchWidth]; omega)]

theorem PatchSlot.write_pm : q.write .pm w = if 0 < w.toNat ∧ q.pl.toNat ≤ w.toNat ∧ w.toNat < 256 then ({ q with pm := w.setWidth 8 }, 0) else (q, 2) := by
  have hzero : w = 0 ↔ w.toNat = 0 := by rw [← BitVec.toNat_inj]; rfl
  simp only [PatchSlot.write, Bool.or_eq_true, decide_eq_true_eq, beq_iff_eq, hzero]
  by_cases h : 0 < w.toNat ∧ q.pl.toNat ≤ w.toNat ∧ w.toNat < 256
  · rw [if_pos h, if_neg (by simp only [patchWidth]; omega)]
  · rw [if_neg h, if_pos (by simp only [patchWidth]; omega)]

end

section
variable {q : PatchSlot} {w : Word}

/-- The registers that a PWR sets only in a slot that is shut. -/
theorem PatchSlot.write_held {p : PatchReg} (hp : p = .pb ∨ p = .pp ∨ p = .ps ∨ p = .pl) (hs : ¬ q.Shut) : q.write p w = (q, 1) := by
  have hopen : (q.state == 0 || q.state == 3) = false := Bool.eq_false_iff.2 (mt PatchSlot.shut_iff.1 hs)
  rcases hp with rfl | rfl | rfl | rfl <;> simp only [PatchSlot.write, hopen, Bool.not_false, if_true]

theorem PatchSlot.write_wide {p : PatchReg} (hp : p = .pb ∨ p = .pp ∨ p = .ps) (hs : q.Shut) (hw : 2 ^ 32 ≤ w.toNat) : q.write p w = (q, 2) := by
  rcases hp with rfl | rfl | rfl <;>
    simp only [PatchSlot.write, PatchSlot.shut_iff.2 hs, Bool.not_true, Bool.false_eq_true, if_false, decide_eq_true_eq] <;> exact if_pos hw

theorem PatchSlot.write_base (hs : q.Shut) (hw : w.toNat < 2 ^ 32) : q.write .pb w = ({ q with pb := w.setWidth 32 }, 0)
    ∧ q.write .pp w = ({ q with pp := w.setWidth 32 }, 0) ∧ q.write .ps w = ({ q with ps := w.setWidth 32 }, 0) := by
  simp only [PatchSlot.write, PatchSlot.shut_iff.2 hs, Bool.not_true, Bool.false_eq_true, if_false, decide_eq_true_eq]
  exact ⟨if_neg (Nat.not_le.2 hw), if_neg (Nat.not_le.2 hw), if_neg (Nat.not_le.2 hw)⟩

theorem PatchSlot.write_pl (hs : q.Shut) : q.write .pl w = if w.toNat ≤ q.pm.toNat then ({ q with pl := w.setWidth 8 }, 0) else (q, 2) := by
  have hpm := q.pm.isLt
  simp only [PatchSlot.write, PatchSlot.shut_iff.2 hs, Bool.not_true, Bool.false_eq_true, if_false, Bool.or_eq_true, decide_eq_true_eq]
  by_cases h : w.toNat ≤ q.pm.toNat
  · rw [if_pos h, if_neg (by simp only [patchWidth]; omega)]
  · rw [if_neg h, if_pos (by simp only [patchWidth]; omega)]

/-- PF with the state that the slot has. -/
theorem PatchSlot.write_pf_same (h : w.setWidth 2 = q.state) :
    q.write .pf w = if w.toNat < 2 ^ 16 then ({ q with gen := w.getLsbD 2 }, 0) else (q, 2) := by
  simp only [PatchSlot.write, if_pos h, decide_eq_true_eq]
  by_cases hw : w.toNat < 2 ^ 16
  · rw [if_pos hw, if_neg (by simp only [patchWidth]; omega)]
  · rw [if_neg hw, if_pos (by simp only [patchWidth]; omega)]

/-- The moves of 03 R40: a slot opens, is given back, or is closed. -/
theorem pwrMove_iff {x y : BitVec 2} : pwrMove x y = true ↔ (x = 0 ∧ y = 1) ∨ (x = 3 ∧ y = 0) ∨ (¬ (x = 0 ∨ x = 3) ∧ y = 3) := by
  revert x y; decide

/-- PF with a state to which the slot may not move. -/
theorem PatchSlot.write_pf_refused (h : w.setWidth 2 ≠ q.state) (hm : pwrMove q.state (w.setWidth 2) = false) : q.write .pf w = (q, 1) := by
  simp only [PatchSlot.write, if_neg h, hm, Bool.not_false, if_true]

/-- PF with a state to which the slot may move: what it becomes, unless the value is refused. -/
theorem PatchSlot.write_pf_moves (h : w.setWidth 2 ≠ q.state) (hm : pwrMove q.state (w.setWidth 2) = true) :
    q.write .pf w = if 2 ^ 16 ≤ w.toNat then (q, 2)
      else if w.setWidth 2 = (1 : BitVec 2) then ({ q with state := 1, gen := w.getLsbD 2, pl := 0, ps := q.pb, endc := 0 }, 0)
      else if w.setWidth 2 = (3 : BitVec 2) then
        (if 2 ≤ w.toNat / 64 % 16 ∧ w.toNat / 64 % 16 ≤ 6 then ({ q with state := 3, gen := w.getLsbD 2, endc := BitVec.ofNat 4 (w.toNat / 64 % 16) }, 0) else (q, 2))
      else ({ q with state := w.setWidth 2, gen := w.getLsbD 2 }, 0) := by
  simp only [PatchSlot.write, if_neg h, hm, Bool.not_true, Bool.false_eq_true, if_false, decide_eq_true_eq]
  rfl

/-- PF of a slot that was never opened, or was given back, opens it. -/
theorem PatchSlot.write_pf_opens (h0 : q.state = 0) (hf : w.setWidth 2 = (1 : BitVec 2)) :
    q.write .pf w = if w.toNat < 2 ^ 16 then ({ q with state := 1, gen := w.getLsbD 2, pl := 0, ps := q.pb, endc := 0 }, 0) else (q, 2) := by
  rw [PatchSlot.write_pf_moves (by rw [h0, hf]; decide) (by rw [h0, hf]; decide), if_pos hf]
  by_cases hw : w.toNat < 2 ^ 16
  · rw [if_neg (Nat.not_le.2 hw), if_pos hw]
  · rw [if_pos (Nat.not_lt.1 hw), if_neg hw]

/-- PF of a closed slot gives it back. -/
theorem PatchSlot.write_pf_returns (h3 : q.state = 3) (hf : w.setWidth 2 = (0 : BitVec 2)) :
    q.write .pf w = if w.toNat < 2 ^ 16 then ({ q with state := 0, gen := w.getLsbD 2 }, 0) else (q, 2) := by
  rw [PatchSlot.write_pf_moves (by rw [h3, hf]; decide) (by rw [h3, hf]; decide), hf]
  by_cases hw : w.toNat < 2 ^ 16
  · rw [if_neg (Nat.not_le.2 hw), if_neg (by decide), if_neg (by decide), if_pos hw]
  · rw [if_pos (Nat.not_lt.1 hw), if_neg hw]

/-- PF of an open slot closes it, under an end code from 2 to 6. -/
theorem PatchSlot.write_pf_closes (hs : ¬ q.Shut) (hf : w.setWidth 2 = (3 : BitVec 2)) :
    q.write .pf w = if w.toNat < 2 ^ 16 ∧ 2 ≤ w.toNat / 64 % 16 ∧ w.toNat / 64 % 16 ≤ 6
      then ({ q with state := 3, gen := w.getLsbD 2, endc := BitVec.ofNat 4 (w.toNat / 64 % 16) }, 0) else (q, 2) := by
  rw [PatchSlot.write_pf_moves (fun h => hs (.inr (h.symm.trans hf))) (pwrMove_iff.2 (.inr (.inr ⟨hs, hf⟩))), hf]
  by_cases hw : w.toNat < 2 ^ 16
  · rw [if_neg (Nat.not_le.2 hw), if_neg (by decide), if_pos rfl]
    exact if_congr (and_iff_right hw).symm rfl rfl
  · rw [if_pos (Nat.not_lt.1 hw), if_neg fun h => hw h.1]

end

/-! ### PREL and PCLOSE (03 R44) -/

section
variable (hl : (s.x a).toNat < 64)
include hl

theorem exec_prel_releases (hq : (s.slot s.c (s.x a).toNat).state = 2) :
    exec (.prel d a) s = .next ((s.modSlot s.c (s.x a).toNat (fun q => { q with state := 1 })).put d 0) := by
  show execPrel d a s = _
  simp only [execPrel, slotOk_true hl, if_true, if_pos hq]

theorem exec_prel_refused (hq : (s.slot s.c (s.x a).toNat).state ≠ 2) : exec (.prel d a) s = .next (s.put d 1) := by
  show execPrel d a s = _
  simp only [execPrel, slotOk_true hl, if_true, if_neg hq]

theorem exec_pclose_shut (hq : (s.slot s.c (s.x a).toNat).Shut) : exec (.pclose d a) s = .next (s.put d 1) := by
  show execPclose d a s = _
  simp only [execPclose, slotOk_true hl, if_true]
  exact if_pos hq

/-- PCLOSE of an open slot that holds no bytes only closes it. -/
theorem exec_pclose_empty (hq : (s.slot s.c (s.x a).toNat).state = 1 ∨ (s.slot s.c (s.x a).toNat).state = 2) (hpl : (s.slot s.c (s.x a).toNat).pl = 0) :
    exec (.pclose d a) s = .next ((s.modSlot s.c (s.x a).toNat (fun q => { q with endc := 1, state := 3 })).put d 0) := by
  have hshut : ¬ (s.slot s.c (s.x a).toNat).Shut := by
    rintro (h | h) <;> rcases hq with hq | hq <;> exact absurd (h.symm.trans hq) (by decide)
  have hcloses : pcloseCloses (s.slot s.c (s.x a).toNat) = false := Bool.eq_false_iff.2 fun h => (pcloseCloses_iff.1 h).2 hpl
  have hslot : s.modSlot s.c (s.x a).toNat pcloseSlot = s.modSlot s.c (s.x a).toNat (fun q => { q with endc := 1, state := 3 }) :=
    congrArg (fun x => s.modSlot s.c (s.x a).toNat (fun _ => x)) (if_neg (Bool.eq_false_iff.1 hcloses))
  show execPclose d a s = _
  simp only [execPclose, slotOk_true hl, if_true, hcloses, Bool.false_eq_true, if_false]
  rw [hslot]
  exact if_neg hshut

end

end Sys2Proof.Machine

open Sys2Proof Sys2Proof.Machine in
/-- Settles O13: CSRR gives the value of `readCsr`, or is queued (`csrr_reads`, `csrr_queues`), and each value is that of the table of R167. -/
theorem csrWords : Obligations.CsrWords := by
  intro s d a n
  refine ⟨fun ho hbar hload => csrr_plain ho ⟨hbar, hload⟩ rfl, fun ho hlo hhi => ?bars, fun ho hsel => ?ldval, ?table,
    fun ho => ⟨_, csrr_queues ho, queueOp_queues s _ _⟩, ⟨_, rfl, queueOp_queues s _ _⟩⟩
  case bars =>
    refine ⟨_, csrr_reads ho, ?_⟩
    rw [csrReadEffect_bar ⟨hlo, hhi⟩, readCsr_bar hlo hhi]
    exact put_with rfl rfl
  case ldval =>
    have hsame : csrReadEffect s s.c s.k 0x03E = s := csrReadEffect_ldval hsel
    exact ends_put ((csrr_reads ho).trans (by rw [hsame])) (readCsr_ldval hsel)
  case table =>
    intro ho r die g m reads
    have hreads {n : ℕ} {v : Word} (hv : readCsr s s.c s.k n = v) (hn : PlainRead n := by simp [PlainRead]) : reads n v := csrr_plain ho hn hv
    have hring {j : ℕ} (hj : j < 16) : PlainRead (0x040 + j) ∧ PlainRead (0x050 + j) := by simp only [PlainRead]; omega
    have hevent {j : ℕ} (hj : j < 8) : PlainRead (0x070 + j) ∧ PlainRead (0x078 + j) := by simp only [PlainRead]; omega
    refine ⟨?plain, ⟨_, hreads rfl, celstat_fields _⟩, fun hg => hreads (if_pos hg), fun hg => hreads (if_neg hg), fun hi => hreads ?idle, fun hi => hreads ?busy,
      fun u hu hpos => hreads (whlpos_owned hu hpos), fun hu => hreads (whlpos_none hu), fun j hj => ?rings,
      fun j hj => ⟨hreads (readCsr_event hj).1 (hevent hj).1, hreads (readCsr_event hj).2 (hevent hj).2⟩⟩
    case plain =>
      rw [← List.forall_iff_forall_mem]
      simp only [List.Forall]
      exact ⟨hreads rfl, hreads rfl, hreads rfl, hreads rfl, hreads rfl, hreads rfl, hreads rfl, hreads rfl, hreads rfl, hreads rfl,
        hreads rfl, hreads rfl, hreads rfl, hreads rfl, hreads rfl, hreads rfl, hreads rfl, hreads rfl, hreads rfl, hreads rfl,
        hreads rfl, hreads rfl, hreads rfl, hreads rfl, hreads rfl, hreads rfl, hreads rfl, hreads rfl, hreads rfl, hreads rfl,
        hreads rfl, hreads rfl, hreads rfl, hreads rfl, hreads rfl, hreads rfl, hreads rfl, hreads rfl, hreads rfl, hreads rfl, hreads (congrArg (BitVec.ofNat 64) die.dload_eq), hreads rfl⟩
    case idle => exact if_pos (List.isEmpty_iff.2 hi)
    case busy => exact if_neg (by rw [List.isEmpty_iff]; exact hi)
    case rings =>
      obtain ⟨hcfg, hptr⟩ := readCsr_ring (s := s) (c := s.c) (k := s.k) hj
      intro o tile places
      have hplaces : o.places = places := by simp only [Ring.places, Ring.tile, places, tile, Nat.mul_comm]
      have htile : o.tile = tile := Nat.mul_comm ..
      exact ⟨hreads hcfg (hring hj).1, hreads (hptr.trans (by rw [Ring.ptr, hplaces, htile])) (hring hj).2⟩

open Sys2Proof Sys2Proof.Machine in
/-- Settles O14: REGISTER_WRITE waits, or writes what `writeCsr` says of the register (`registerWrite_waits`, `registerWrite_sets`); a read-only register ignores it (`writeCsr_readOnly`). -/
theorem csrWrites : Obligations.CsrWrites := by
  intro s c k n v q rest ho w left r sets
  refine ⟨registerWrite_waits ho, fun hd => ?_⟩
  have hsets {f : Csrs → Csrs} (hn : ownStep s c n v = false) (hw : ∀ u : State, writeCsr u c k n v = u.modCsrs c f) : sets (f r) :=
    registerWrite_sets ho hd hn (fun u _ => hw u)
  refine ⟨fun hn => ?_, fun hn => ?_, fun hn => ?_, fun hn => ?_, fun hn => ?_, fun hn => ?_, fun hn => ?_, fun hn hhook => ?hkz, fun j hj hn => ?_, fun j hj hn => ?_, fun hn => ?ldsel,
    fun hn => ?readOnly⟩
  case hkz =>
    subst hn
    refine registerWrite_sets (f := fun r => { r with hkz := v }) ho hd rfl fun u hu => if_neg ?_
    rw [hookRuns_none fun j => (hu j).trans (hhook j)]
    exact Bool.false_ne_true
  case ldsel =>
    subst hn
    exact (registerWrite_writes ho hd rfl).trans (congrArg Host.Outcome.next
      (modCtx_modCtx s c k (fun m => { m with ops := rest }) (fun m => { m with ldsel := v })))
  case readOnly =>
    have hmem : n ∈ readOnlyCsrs := by simp only [readOnlyCsrs, List.mem_cons]; omega
    obtain ⟨hown, hwrite⟩ := writeCsr_readOnly (s := s) (u := left) (c := c) (k := k) hmem v
    exact (registerWrite_writes ho hd hown).trans (congrArg Host.Outcome.next hwrite)
  all_goals subst hn
  · exact hsets (f := fun r => { r with paceLd := v.setWidth 16 }) rfl fun _ => rfl
  · exact hsets (f := fun r => { r with paceCp := v.setWidth 16 }) rfl fun _ => rfl
  · exact hsets (f := fun r => { r with paceSt := v.setWidth 16 }) rfl fun _ => rfl
  · exact hsets (f := fun r => { r with pmbase := v &&& 0x3FE000 }) rfl fun _ => rfl
  · exact hsets (f := fun r => { r with bhaddr := v }) rfl fun _ => rfl
  · exact hsets (f := fun r => { r with rtbase := v }) rfl fun _ => rfl
  · exact hsets (f := fun r => { r with rssize := v }) rfl fun _ => rfl
  · obtain ⟨hown, -, -, -⟩ := writeCsr_event (s := s) (u := s) (c := c) (k := k) hj v
    exact hsets hown fun u => (writeCsr_event (s := s) hj v).2.2.1
  · obtain ⟨-, hown, -, -⟩ := writeCsr_event (s := s) (u := s) (c := c) (k := k) hj v
    exact hsets hown fun u => (writeCsr_event (s := s) hj v).2.2.2

open Sys2Proof Sys2Proof.Machine in
/-- Settles O15: each word is illegal of a slot number above 63; else it changes its slot alone and writes xd (`slot_put`), PWR as `PatchSlot.write` says. -/
theorem patchWords : Obligations.PatchWords := by
  intro s d a b p l q
  refine ⟨fun hl => ⟨if_neg ?_, if_neg ?_, if_neg ?_, if_neg ?_⟩, fun hl => ends_put (exec_prd hl) (q.read_eq p), fun hl => ?pwr,
    fun hl h2 => ⟨_, exec_prel_releases hl h2, slot_put s d l 0 (fun q => { q with state := 1 })⟩, fun hl h2 => ends_put (exec_prel_refused hl h2) rfl,
    fun hl hq => ends_put (exec_pclose_shut hl hq) rfl, fun hl hq hpl => ⟨_, exec_pclose_empty hl hq hpl, slot_put s d l 0 (fun q => { q with endc := 1, state := 3 })⟩⟩
  case pwr =>
    intro w n f gen endc gives shut
    have hgives {r : PatchSlot} {st : Word} (h : q.write p w = (r, st)) : gives r st :=
      ⟨_, (exec_pwr hl).trans (congrArg (fun x => Host.Outcome.next ((s.modSlot s.c l (fun _ => x.1)).put d x.2)) h), slot_put s d l st (fun _ => r)⟩
    refine ⟨fun hp => hgives (by rw [hp]; rfl), fun hp => ⟨fun hw => hgives ?_, fun hw => hgives ?_⟩, fun hp => ⟨fun h1 h2 h3 => hgives ?_, fun hw => hgives ?_⟩,
      fun hp hs => hgives (PatchSlot.write_held hp hs), fun hs hp hw => hgives (PatchSlot.write_wide hp hs hw),
      fun hs hw => ⟨fun hp => hgives (by rw [hp]; exact (PatchSlot.write_base hs hw).1), fun hp => hgives (by rw [hp]; exact (PatchSlot.write_base hs hw).2.1),
        fun hp => hgives (by rw [hp]; exact (PatchSlot.write_base hs hw).2.2)⟩,
      fun hs hp => ⟨fun hw => hgives ?_, fun hw => hgives ?_⟩, fun hp hf => ⟨fun hw => hgives ?_, fun hw => hgives ?_⟩, fun hp h0 hf => ⟨fun hw => hgives ?_, fun hw => hgives ?_⟩,
      fun hp h3 hf => ⟨fun hw => hgives ?_, fun hw => hgives ?_⟩, fun hp hs hf => ⟨fun hw hlo hhi => hgives ?_, fun hw => hgives ?_⟩, fun hp hf h1 h2 h3 => hgives ?refused⟩
    case refused =>
      rw [hp]
      exact PatchSlot.write_pf_refused hf (Bool.eq_false_iff.2 (mt pwrMove_iff.1 (by tauto)))
    all_goals rw [hp]
    · rw [q.write_pt, if_pos hw]
    · rw [q.write_pt, if_neg (by omega)]
    · rw [q.write_pm, if_pos ⟨h1, h2, h3⟩]
    · rw [q.write_pm, if_neg (by omega)]
    · rw [PatchSlot.write_pl hs, if_pos hw]
    · rw [PatchSlot.write_pl hs, if_neg (by omega)]
    · rw [PatchSlot.write_pf_same hf, if_pos hw]
    · rw [PatchSlot.write_pf_same hf, if_neg (by omega)]
    · rw [PatchSlot.write_pf_opens h0 hf, if_pos hw]
    · rw [PatchSlot.write_pf_opens h0 hf, if_neg (by omega)]
    · rw [PatchSlot.write_pf_returns h3 hf, if_pos hw]
    · rw [PatchSlot.write_pf_returns h3 hf, if_neg (by omega)]
    · rw [PatchSlot.write_pf_closes hs hf, if_pos ⟨hw, hlo, hhi⟩]
    · rw [PatchSlot.write_pf_closes hs hf, if_neg (by omega)]
  all_goals rw [slotOk_false hl]; exact Bool.false_ne_true
end

section
/-! Landing words, traps and the ends of handlers (12 R188, R189, R202, R203): what a word that waits for quiet, or that ends a context's run, does to its core. -/

namespace Sys2Proof.Machine

variable {s t : State} {c k n m a : ℕ}

/-! ## FMTQ and LNGO (12 R188, R189) -/

/-- The format queue takes the FMTQ of a number where it has room and no older FMTQ of its core waits. -/
theorem fqOpen_iff : fqOpen s c n = true ↔ (s.seqs c).fq.length < (s.seqs c).fqCap ∧ ∀ k m, k < 4 → (s.ctx c k).wait = .fmtq m → n ≤ m := by
  simp only [fqOpen, Bool.and_eq_true, decide_eq_true_eq, List.all_eq_true]
  refine and_congr_right fun _ => ⟨fun h k m hk hw => ?_, fun h k hk => ?_⟩
  · have hall := h k (by simp only [List.mem_cons]; omega)
    rw [hw] at hall
    exact of_decide_eq_true hall
  · cases hw : (s.ctx c k).wait with
    | fmtq m => exact decide_eq_true (h k m (by simp only [List.mem_cons, List.not_mem_nil, or_false] at hk; omega) hw)
    | _ => rfl

theorem exec_fmtq_open (h : fqOpen s s.c (fmtqNumber s) = true) : exec (.fmtq a) s = .next (s.modSeqs s.c (fun q => { q with fq := q.fq ++ [s.x a] })).pass := if_pos h

/-- An FMTQ that waits keeps the number of its first issue. -/
theorem exec_fmtq_waits (h : fqOpen s s.c (fmtqNumber s) ≠ true) :
    exec (.fmtq a) s = .next (State.block { s with seq := max s.seq (fmtqNumber s + 1) } (.fmtq (fmtqNumber s))) := if_neg h

theorem exec_lngo : exec (.lngo n) s = .next (State.modMe { s with seq := s.seq + 1 } (fun t => { t with lngos := t.lngos ++ [(n, s.seq)] })).pass := rfl

/-- LNGO_TAKE_EFFECT acts for the first context whose oldest LNGO may act. -/
theorem lngoTakeEffect_first (hb : ∀ j, j < k → lngoReady s c j = none) (hk : k < 4) (hr : lngoReady s c k = some m) :
    exec (.lngoTakeEffect c) s = .next ((s.modCtx c k (fun t => { t with lngos := t.lngos.tail })).modSeqs c
      (fun q => { q with lnts := sset q.lnts m (sget {} q.lnts m).exchange })) := by
  have hfind : [0, 1, 2, 3].find? (fun j => (lngoReady s c j).isSome) = some k := by
    interval_cases k <;> simp [List.find?, hb, hr]
  show execLngoTakeEffect c s = _
  simp only [execLngoTakeEffect, hfind, hr, Option.getD_some]

theorem lngoTakeEffect_none (hb : ∀ j, j < 4 → lngoReady s c j = none) : exec (.lngoTakeEffect c) s = .next s := by
  show execLngoTakeEffect c s = _
  simp [execLngoTakeEffect, hb]

theorem lnts_modCtx {f : Ctx → Ctx} : ((s.modCtx c k f).seqs c).lnts = (s.seqs c).lnts := by simp [State.seqs, State.modCtx, State.modSeqs, State.modArch]

/-! ## Event flags, and the context that ended (12 R203, R204) -/

/-- What setting the flags of a core does to what the core's state is stated by. -/
theorem setFlags_keeps (s : State) (c : ℕ) (ex : Option ℕ) : OnlyCore s (setFlags s c ex) c ∧ SameMemory s (setFlags s c ex) ∧ ((setFlags s c ex).arch c).csrs = (s.arch c).csrs := by
  obtain ⟨-, hcore, hmem, harch⟩ := setFlags_spec s c ex
  exact ⟨hcore, hmem, by rw [harch c]⟩

theorem ctx_setFlags {ex : Option ℕ} (hk : k < 4) (he : ex ≠ some k) : (setFlags s c ex).ctx c k = { s.ctx c k with flag := true } := by
  rw [(setFlags_spec s c ex).1, if_pos ⟨rfl, hk, he⟩]

theorem ctx_setFlags_except : (setFlags s c (some k)).ctx c k = s.ctx c k := by
  rw [(setFlags_spec s c (some k)).1, if_neg fun h => h.2.2 rfl]

theorem onlyCore_modCsrs (s : State) (c : ℕ) (f : Csrs → Csrs) : OnlyCore s (s.modCsrs c f) c := onlyCore_modArch s c _
theorem sameMemory_modCsrs (s : State) (c : ℕ) (f : Csrs → Csrs) : SameMemory s (s.modCsrs c f) := sameMemory_modArch s c _

/-- A context of a core that ends its run: `f` says what of it changes, `g` what of the core's registers. -/
def endRun (s : State) (c k : ℕ) (f : Ctx → Ctx) (g : Csrs → Csrs) : State := (s.modCtx c k f).modCsrs c g

theorem endRun_keeps (s : State) (c k : ℕ) (f : Ctx → Ctx) (g : Csrs → Csrs) :
    OnlyCore s (endRun s c k f g) c ∧ SameMemory s (endRun s c k f g) ∧ ((endRun s c k f g).arch c).csrs = g (s.arch c).csrs ∧ (endRun s c k f g).ctx c k = f (s.ctx c k)
    ∧ ∀ j, j ≠ k → (endRun s c k f g).ctx c j = s.ctx c j := by
  refine ⟨onlyCore_trans (onlyCore_modCtx ..) (onlyCore_modCsrs ..), sameMemory_trans (sameMemory_modCtx ..) (sameMemory_modCsrs ..), ?_, ?_, fun j hj => ?_⟩
  · simp [endRun, State.modCsrs, csrs_modCtx]
  · rw [endRun, ctx_modCsrs, ctx_modCtx]
  · rw [endRun, ctx_modCsrs, ctx_modCtx_ne _ _ _ _ _ _ fun h => hj (congrArg Prod.snd h)]

/-- The end of a run, and then the flags of the core's contexts, all but an excepted one. -/
theorem endRun_flags (s : State) (hk : k < 4) (f : Ctx → Ctx) (g : Csrs → Csrs) (ex : Option ℕ) (he : ∀ j, j ≠ k → ex ≠ some j) :
    OnlyCore s (setFlags (endRun s c k f g) c ex) c ∧ SameMemory s (setFlags (endRun s c k f g) c ex) ∧ ((setFlags (endRun s c k f g) c ex).arch c).csrs = g (s.arch c).csrs
    ∧ (setFlags (endRun s c k f g) c ex).ctx c k = (if ex = some k then f (s.ctx c k) else { f (s.ctx c k) with flag := true })
    ∧ ∀ j, j < 4 → j ≠ k → (setFlags (endRun s c k f g) c ex).ctx c j = { s.ctx c j with flag := true } := by
  obtain ⟨hcore, hmem, hcsrs, hctx, hothers⟩ := endRun_keeps s c k f g
  obtain ⟨hcore', hmem', hcsrs'⟩ := setFlags_keeps (endRun s c k f g) c ex
  refine ⟨onlyCore_trans hcore hcore', sameMemory_trans hmem hmem', hcsrs'.trans hcsrs, ?_, fun j hj hne => ?_⟩
  · split_ifs with h
    · rw [h, ctx_setFlags_except, hctx]
    · rw [ctx_setFlags hk h, hctx]
  · rw [ctx_setFlags hj (he j hne), hothers j hne]

/-! ## HRET and RTE (12 R203, 24 R336) -/

theorem waitOver_quiet : waitOver s c k .quiet = true
    ↔ storesDone s c k s.seq = true ∧ (s.ctx c k).busy = [] ∧ (s.ctx c k).holds = 0 ∧ (s.ctx c k).ops = [] := by
  simp only [waitOver, Bool.and_eq_true, List.isEmpty_iff, beq_iff_eq, and_assoc]

/-- What HRET leaves of its context. -/
def Ctx.finish (t : Ctx) : Ctx := { t with status := .dormant, slot := none, hook := none, wait := .none }

theorem endHandler_hook (h : (s.ctx c k).hook.isSome = true) : endHandler s c k = setFlags (endRun s c k Ctx.finish (fun r => { r with hkst := 1 })) c none := if_pos h

theorem endHandler_handler (h : (s.ctx c k).hook.isSome = false) : endHandler s c k = setFlags (endRun s c k Ctx.finish id) c (some k) := by
  have hid : endRun s c k Ctx.finish id = s.modCtx c k Ctx.finish := by simp [endRun, State.modCtx, State.modSeqs, State.modCsrs]
  rw [hid]
  exact if_neg (by rw [h]; exact Bool.false_ne_true)

theorem exec_hret_ends (hk : s.k ≠ 0) (h : waitOver s s.c s.k .quiet = true) : exec .hret s = .next (endHandler s s.c s.k) := by
  show execHret s = _
  rw [execHret, if_neg hk, if_pos h]

theorem exec_hret_waits (hk : s.k ≠ 0) (h : waitOver s s.c s.k .quiet ≠ true) : exec .hret s = .next (s.block .quiet) := by
  show execHret s = _
  rw [execHret, if_neg hk, if_neg h]

section
variable (hi : (s.core s.c).dbg.injecting = true)
include hi

theorem exec_rte_waits (h : waitOver s s.c s.k .quiet ≠ true) : exec .rte s = .next (s.block .quiet) := by
  show execRte s = _
  rw [execRte, if_pos hi, if_pos (by rw [Bool.eq_false_iff.2 h]; rfl)]

theorem exec_rte_ends (h : waitOver s s.c s.k .quiet = true) :
    exec .rte s = .next ((s.modMe (fun m => { m with pc := (s.core s.c).dbg.savedPc, wait := .none })).modCore s.c
      (fun k => { k with dbg := { k.dbg with injV := false, injecting := false, stepping := false } })) := by
  show execRte s = _
  rw [execRte, if_pos hi, if_neg (by rw [h]; exact Bool.false_ne_true)]

end

/-! ## Faults in a hook (23 R314) -/

theorem exec_trap (hi : (s.core s.c).dbg.injecting = false) (code : ℕ) :
    exec (.trap code) s = .next (ctxTrap s.pass s.c s.k { code := 0x10, detail := code, faddr := 0 } s.me.pc.toNat) := by
  show execTrap code s = _
  rw [execTrap, hi]
  rfl

/-- A hook's run ends as a context whose loads were dropped. -/
theorem hookStop_eq (s : State) (c k : ℕ) (code : Word) :
    hookStop s c k code = setFlags (endRun (dropLoads s c k) c k (fun t => { t.abandon with status := .dormant, hook := none }) (fun r => { r with hkst := code })) c none := rfl

theorem ctxTrap_hook (h : (s.ctx c k).hook.isSome = true) (f : FaultInfo) (pc : ℕ) : ctxTrap s c k f pc = hookStop s c k 2 := if_pos h

/-- A muted operation writes no register, or is a write of a control register as before. -/
theorem abandon_ops (t : Ctx) : t.abandon.ops.map (fun o => o.seq) = t.ops.map (fun o => o.seq)
    ∧ ∀ o ∈ t.abandon.ops, match o.kind with | .csrr _ d | .launch d _ | .route d _ => d = 0 | .csrw n v => ∃ p ∈ t.ops, p.kind = .csrw n v := by
  refine ⟨?_, fun o ho => ?_⟩
  · simp [Ctx.abandon]
  · obtain ⟨p, hp, rfl⟩ := List.mem_map.1 ho
    obtain ⟨q, kind⟩ := p
    cases kind with
    | csrw n v => exact ⟨_, hp, rfl⟩
    | _ => rfl

end Sys2Proof.Machine

open Sys2Proof Sys2Proof.Machine in
/-- Settles O20: FMTQ acts where the queue is open to its number (`fqOpen_iff`), LNGO is noted, and LNGO_TAKE_EFFECT acts for the first context that may (`lngoTakeEffect_first`). -/
theorem landingWords : Obligations.LandingWords := by
  intro s a n mine first room
  have hopen : fqOpen s s.c (fmtqNumber s) = true ↔ room ∧ first := fqOpen_iff
  refine ⟨fun hr hf => ⟨_, exec_fmtq_open (hopen.2 ⟨hr, hf⟩), pass_seqs rfl⟩, fun h => ⟨_, exec_fmtq_waits (mt hopen.1 h), rfl, block_waits _ _⟩,
    ⟨_, exec_lngo, rfl, pass_with rfl rfl⟩, fun c k m hb hk hr => ?takes, fun c hb => lngoTakeEffect_none hb⟩
  refine ⟨_, lngoTakeEffect_first hb hk hr, modSeqs_congr ?_⟩
  rw [lnts_modCtx]
  rfl

open Sys2Proof Sys2Proof.Machine in
/-- Settles O21: both words wait for quiet (`waitOver_quiet`); HRET ends its context's run (`endRun_flags`), RTE resumes at the saved pc. -/
theorem handlerEnds : Obligations.HandlerEnds := by
  intro s dbg quiet
  have hquiet : waitOver s s.c s.k .quiet = true ↔ quiet := waitOver_quiet
  refine ⟨fun hk => if_pos hk, fun hk h => ⟨_, exec_hret_waits hk (mt hquiet.1 h), block_waits _ _⟩, fun hk h4 h => ⟨_, exec_hret_ends hk (hquiet.2 h), ?_⟩,
    fun hi => if_neg (by rw [hi]; exact Bool.false_ne_true), fun hi h => ⟨_, exec_rte_waits hi (mt hquiet.1 h), block_waits _ _⟩, fun hi h => ⟨_, exec_rte_ends hi (hquiet.2 h), rfl⟩⟩
  cases hh : s.me.hook.isSome with
  | true =>
    obtain ⟨hcore, hmem, hcsrs, hctx, hothers⟩ := endRun_flags (c := s.c) s h4 Ctx.finish (fun r => { r with hkst := 1 }) none nofun
    rw [endHandler_hook (c := s.c) hh]
    exact ⟨(me_onlyCore hcore).trans hctx, hothers, hcsrs, hcore, hmem⟩
  | false =>
    obtain ⟨hcore, hmem, hcsrs, hctx, hothers⟩ := endRun_flags (c := s.c) s h4 Ctx.finish id (some s.k) fun j hj he => hj (Option.some.inj he).symm
    rw [endHandler_handler (c := s.c) hh]
    exact ⟨((me_onlyCore hcore).trans hctx).trans (if_pos rfl), hothers, hcsrs, hcore, hmem⟩

open Sys2Proof Sys2Proof.Machine in
/-- Settles O23: TRAP faults behind its word (`exec_trap`); a fault in a hook drops its loads and ends its run (`hookStop_eq`), with its operations muted (`abandon_ops`). -/
theorem trapsAndHooks : Obligations.TrapsAndHooks := by
  intro s code c k pc f
  refine ⟨fun hi => ⟨_, pass_to s, exec_trap hi code⟩, fun hh hk => ?_⟩
  intro t
  have ht : t = hookStop s c k 2 := ctxTrap_hook hh f pc
  obtain ⟨hcore, hmem, hcsrs, hctx, hothers⟩ := endRun_flags (c := c) (dropLoads s c k) hk (fun t => { t.abandon with status := .dormant, hook := none }) (fun r => { r with hkst := 2 }) none nofun
  rw [← hookStop_eq, ← ht] at hcore hmem hcsrs hctx hothers
  rw [if_neg nofun] at hctx
  obtain ⟨hacc, hrep⟩ := hcore.traffic
  have hops : (t.ctx c k).ops = (s.ctx c k).abandon.ops := by rw [hctx]; rfl
  obtain ⟨hseqs, hkinds⟩ := abandon_ops (s.ctx c k)
  refine ⟨?_, by rw [hops]; exact hseqs, by rw [hops]; exact hkinds, hothers, hcsrs, hacc, hrep, ?_, hmem⟩
  · rw [hops]; exact hctx
  · rw [hacc, hrep]; exact hcore
end

section
/-! UTFCUT (12 R201) over the rows of well-formed UTF-8 (09 R146): what a row says of the bytes at a place, and how the loop divides its bytes into units. -/

namespace Sys2Proof.Machine

variable {byte : ℕ → ℕ} {p m n : ℕ}

/-! ## Rows (09 R146) -/

/-- The rows of well-formed UTF-8: the least and the greatest value of each byte. -/
def utfRows : List (List (ℕ × ℕ)) :=
  let more : ℕ × ℕ := (0x80, 0xBF)
  [[(0, 0x7F)], [(0xC2, 0xDF), more], [(0xE0, 0xE0), (0xA0, 0xBF), more], [(0xE1, 0xEC), more, more],
    [(0xED, 0xED), (0x80, 0x9F), more], [(0xEE, 0xEF), more, more], [(0xF0, 0xF0), (0x90, 0xBF), more, more], [(0xF1, 0xF3), more, more, more],
    [(0xF4, 0xF4), (0x80, 0x8F), more, more]]

/-- A byte is one that a row takes at a position. -/
def RowTakes (r : List (ℕ × ℕ)) (i b : ℕ) : Prop := (r.getD i (0, 0)).1 ≤ b ∧ b ≤ (r.getD i (0, 0)).2

/-- The m bytes from p on are the first of a row. -/
def RowBegins (byte : ℕ → ℕ) (p m : ℕ) (r : List (ℕ × ℕ)) : Prop := r ∈ utfRows ∧ m ≤ r.length ∧ ∀ i, i < m → RowTakes r i (byte (p + i))

/-- The m bytes from p on are a character. -/
def UtfWhole (byte : ℕ → ℕ) (p m : ℕ) : Prop := ∃ r, RowBegins byte p m r ∧ r.length = m

/-- The m bytes from p on are the beginning of a character that goes on. -/
def UtfPart (byte : ℕ → ℕ) (p m : ℕ) : Prop := 0 < m ∧ ∃ r, RowBegins byte p m r ∧ m < r.length

/-- The bytes behind a lead byte at p, up to the m-th, may stand there. -/
def UtfFollows (byte : ℕ → ℕ) (p m : ℕ) : Prop := ∀ i, 1 ≤ i → i < m → utfCont (byte p) i (byte (p + i)) = true

/-- A row whose lead byte is b is as long as `utfLen` says and takes the bytes that `utfCont` lets follow. -/
theorem utfRows_lead {r : List (ℕ × ℕ)} {b : ℕ} (hr : r ∈ utfRows) (hb : RowTakes r 0 b) :
    r.length = utfLen b ∧ ∀ k x, 1 ≤ k → k < r.length → (RowTakes r k x ↔ utfCont b k x = true) := by
  simp only [utfRows, List.mem_cons, List.not_mem_nil, or_false] at hr
  rcases hr with rfl | rfl | rfl | rfl | rfl | rfl | rfl | rfl | rfl
  all_goals
    simp only [RowTakes, List.getD_cons_zero] at hb
    refine ⟨?_, fun k x h1 hk => ?_⟩
    · simp only [utfLen, List.length_cons, List.length_nil]
      split_ifs <;> omega
    · simp only [List.length_cons, List.length_nil] at hk
      interval_cases k <;> simp only [RowTakes, List.getD_cons_zero, List.getD_cons_succ, utfCont, Bool.and_eq_true, decide_eq_true_eq] <;> split_ifs <;> omega

/-- A byte that `utfLen` gives a length is the lead byte of a row. -/
theorem utfRows_exists {b : ℕ} (h : utfLen b ≠ 0) : ∃ r ∈ utfRows, RowTakes r 0 b := by
  have hb : b ≤ 0x7F ∨ 0xC2 ≤ b ∧ b ≤ 0xF4 := by
    simp only [utfLen] at h
    split_ifs at h <;> omega
  simp only [utfRows, List.mem_cons, List.not_mem_nil, or_false, exists_eq_or_imp, exists_eq_left, RowTakes, List.getD_cons_zero]
  omega

theorem utfLen_le (b : ℕ) : utfLen b ≤ 4 := by
  simp only [utfLen]
  split_ifs <;> omega

/-- The first m bytes of a row, by its lead byte. -/
theorem rowBegins_iff (hm : 0 < m) (P : ℕ → Prop) :
    (∃ r, RowBegins byte p m r ∧ P r.length) ↔ m ≤ utfLen (byte p) ∧ UtfFollows byte p m ∧ P (utfLen (byte p)) := by
  constructor
  · rintro ⟨r, ⟨hr, hlen, htakes⟩, hP⟩
    obtain ⟨hl, hcont⟩ := utfRows_lead hr (htakes 0 hm)
    exact ⟨hl ▸ hlen, fun i h1 hi => (hcont i _ h1 (by omega)).1 (htakes i hi), hl ▸ hP⟩
  · rintro ⟨hlen, hfollows, hP⟩
    obtain ⟨r, hr, hlead⟩ := utfRows_exists (b := byte p) (by omega)
    obtain ⟨hl, hcont⟩ := utfRows_lead hr hlead
    refine ⟨r, ⟨hr, by omega, fun i hi => ?_⟩, hl ▸ hP⟩
    rcases Nat.eq_zero_or_pos i with rfl | h1
    · exact hlead
    · exact (hcont i _ h1 (by omega)).2 (hfollows i h1 hi)

theorem utfPart_iff : UtfPart byte p m ↔ 0 < m ∧ m < utfLen (byte p) ∧ UtfFollows byte p m := by
  refine and_congr_right fun hm => (rowBegins_iff hm (m < ·)).trans ⟨fun ⟨_, hf, hl⟩ => ⟨hl, hf⟩, fun ⟨hl, hf⟩ => ⟨hl.le, hf, hl⟩⟩

theorem utfWhole_iff (hm : 0 < m) : UtfWhole byte p m ↔ utfLen (byte p) = m ∧ UtfFollows byte p m :=
  (rowBegins_iff hm (· = m)).trans ⟨fun ⟨_, hf, hl⟩ => ⟨hl, hf⟩, fun ⟨hl, hf⟩ => ⟨hl.ge, hf, hl⟩⟩

/-! ## How far a row goes -/

/-- The m bytes from p on, as the list that the loop takes. -/
def bytesFrom (byte : ℕ → ℕ) (p m : ℕ) : List ℕ := (List.range' p m).map byte

theorem bytesFrom_succ : bytesFrom byte p (m + 1) = byte p :: bytesFrom byte (p + 1) m := rfl

theorem drop_bytesFrom (k : ℕ) : (bytesFrom byte p m).drop k = bytesFrom byte (p + k) (m - k) := by
  simp [bytesFrom, ← List.map_drop, List.drop_range']

theorem length_bytesFrom : (bytesFrom byte p m).length = m := by simp [bytesFrom]

/-- What `utfRun` answers of the bytes behind a lead byte at p: how far they follow it, up to the end of the row or of the bytes. -/
structure RunsTo (byte : ℕ → ℕ) (p len k m k' : ℕ) : Prop where
  ge : k ≤ k'
  le : k' ≤ k + m
  le_len : k ≤ len → k' ≤ len
  follows : ∀ i, k ≤ i → i < k' → utfCont (byte p) i (byte (p + i)) = true
  stops : k' < len → k' < k + m → utfCont (byte p) k' (byte (p + k')) = false

theorem utfRun_runsTo {len : ℕ} (fuel : ℕ) : ∀ k m, len ≤ k + fuel → RunsTo byte p len k m (utfRun (byte p) len fuel k (bytesFrom byte (p + k) m)) := by
  induction fuel with
  | zero => exact fun k m hf => ⟨le_rfl, by simp [utfRun], fun h => h, fun i h1 h2 => absurd h2 (Nat.not_lt.2 h1), fun h => absurd h (by simp only [utfRun]; omega)⟩
  | succ fuel ih =>
    intro k m hf
    cases m with
    | zero => exact ⟨le_rfl, le_rfl, fun h => h, fun i h1 h2 => absurd h2 (Nat.not_lt.2 h1), fun _ h => absurd h (lt_irrefl _)⟩
    | succ m =>
      rw [bytesFrom_succ, utfRun]
      by_cases hgo : k < len ∧ utfCont (byte p) k (byte (p + k)) = true
      · rw [if_pos (by simpa using hgo)]
        have hrest := ih (k + 1) m (by omega)
        rw [← Nat.add_assoc] at hrest
        obtain ⟨hge, hle, hlen, hfollows, hstops⟩ := hrest
        refine ⟨by omega, by omega, fun _ => hlen hgo.1, fun i h1 h2 => ?_, fun h1 h2 => hstops h1 (by omega)⟩
        rcases Nat.eq_or_lt_of_le h1 with rfl | h1
        · exact hgo.2
        · exact hfollows i h1 h2
      · rw [if_neg (by simpa using hgo)]
        exact ⟨le_rfl, by omega, fun h => h, fun i h1 h2 => absurd h2 (Nat.not_lt.2 h1), fun h _ => Bool.eq_false_iff.2 fun hc => hgo ⟨h, hc⟩⟩

/-! ## Units and their division -/

/-- The bytes from p up to q of n are a settled unit: a character, or, where it is bad, a byte of no row or the greatest beginning of one. -/
def UtfUnit (byte : ℕ → ℕ) (n p q : ℕ) (bad : Bool) : Prop :=
  (bad = false → UtfWhole byte p (q - p))
  ∧ (bad = true → (q = p + 1 ∧ ¬ UtfWhole byte p 1 ∧ ¬ UtfPart byte p 1)
      ∨ (UtfPart byte p (q - p) ∧ q < n ∧ ¬ UtfPart byte p (q - p + 1) ∧ ¬ UtfWhole byte p (q - p + 1)))

/-- A byte of no row. -/
theorem utfUnit_none (h : utfLen (byte p) = 0) : UtfUnit byte n p (p + 1) true :=
  ⟨nofun, fun _ => .inl ⟨rfl, fun hw => absurd ((utfWhole_iff one_pos).1 hw).1 (by omega), fun hp => absurd (utfPart_iff.1 hp).2.1 (by omega)⟩⟩

/-- A character. -/
theorem utfUnit_whole (h : utfLen (byte p) = m) (hm : 0 < m) (hf : UtfFollows byte p m) : UtfUnit byte n p (p + m) false :=
  ⟨fun _ => by rw [Nat.add_sub_cancel_left]; exact (utfWhole_iff hm).2 ⟨h, hf⟩, nofun⟩

/-- The greatest beginning of a row. -/
theorem utfUnit_cut (hm : 0 < m) (hl : m < utfLen (byte p)) (hf : UtfFollows byte p m) (hn : p + m < n) (hstop : utfCont (byte p) m (byte (p + m)) = false) :
    UtfUnit byte n p (p + m) true := by
  have hnot : ¬ UtfFollows byte p (m + 1) := fun h => absurd ((h m hm (Nat.lt_succ_self m)).symm.trans hstop) (by decide)
  refine ⟨nofun, fun _ => .inr ?_⟩
  rw [Nat.add_sub_cancel_left]
  exact ⟨utfPart_iff.2 ⟨hm, hl, hf⟩, hn, fun h => hnot (utfPart_iff.1 h).2.2, fun h => hnot ((utfWhole_iff (Nat.succ_pos m)).1 h).2⟩

/-- The first i of n bytes are divided: `st` marks where units begin, `bad` those that are bad. -/
structure UtfDivided (byte : ℕ → ℕ) (n i st bad : ℕ) : Prop where
  le : i ≤ n
  st_lt : st < 2 ^ i
  bad_lt : bad < 2 ^ i
  first : 0 < i → st.testBit 0 = true
  bad_start : ∀ p, bad.testBit p = true → st.testBit p = true
  units : ∀ p q, st.testBit p = true → p < q → (q = i ∨ st.testBit q = true) → (∀ j, p < j → j < q → st.testBit j = false) → UtfUnit byte n p q (bad.testBit p)

theorem utfDivided_nil : UtfDivided byte n 0 0 0 :=
  ⟨Nat.zero_le n, by decide, by decide, fun h => absurd h (lt_irrefl 0), fun p h => absurd h (by simp), fun p q h => absurd h (by simp)⟩

/-- A bit set above the bits of a number. -/
theorem testBit_add_two_pow {x i : ℕ} (h : x < 2 ^ i) (p : ℕ) : (x + 2 ^ i).testBit p = if p = i then true else x.testBit p := by
  have := Nat.testBit_two_pow_mul_add 1 h p
  rw [Nat.mul_one, Nat.add_comm] at this
  rw [this]
  rcases Nat.lt_trichotomy p i with hp | rfl | hp
  · rw [if_pos hp, if_neg (by omega)]
  · rw [if_neg (lt_irrefl _), if_pos rfl, Nat.sub_self]; rfl
  · rw [if_neg (by omega), if_neg (by omega), Nat.testBit_lt_two_pow (lt_of_lt_of_le h (Nat.pow_le_pow_right (by omega) hp.le)),
      Nat.testBit_lt_two_pow (Nat.one_lt_two_pow (by omega))]

section
variable {i st bad : ℕ} (hd : UtfDivided byte n i st bad)
include hd

theorem UtfDivided.not_start (hp : i ≤ p) : st.testBit p = false := Nat.testBit_lt_two_pow (lt_of_lt_of_le hd.st_lt (Nat.pow_le_pow_right (by omega) hp))
theorem UtfDivided.not_bad (hp : i ≤ p) : bad.testBit p = false := Nat.testBit_lt_two_pow (lt_of_lt_of_le hd.bad_lt (Nat.pow_le_pow_right (by omega) hp))

/-- One unit more. -/
theorem UtfDivided.extend {bad' : ℕ} {b : Bool} (hm : 0 < m) (hn : i + m ≤ n) (hlt : bad' < 2 ^ (i + 1)) (hbad : ∀ p, bad'.testBit p = if p = i then b else bad.testBit p)
    (hu : UtfUnit byte n i (i + m) b) : UtfDivided byte n (i + m) (st + 2 ^ i) bad' := by
  have hst (p : ℕ) : (st + 2 ^ i).testBit p = if p = i then true else st.testBit p := testBit_add_two_pow hd.st_lt p
  have hpow : 2 ^ (i + 1) ≤ 2 ^ (i + m) := Nat.pow_le_pow_right (by omega) (by omega)
  refine ⟨hn, ?_, lt_of_lt_of_le hlt hpow, fun _ => ?_, fun p hp => ?_, fun p q hp hpq hq hbetween => ?_⟩
  · have := hd.st_lt
    rw [pow_succ] at hpow
    omega
  · rw [hst]
    split_ifs with h
    · rfl
    · exact hd.first (by omega)
  · rw [hbad] at hp
    rw [hst]
    split_ifs at hp ⊢ with h
    · rfl
    · exact hd.bad_start p hp
  · have hle : ∀ j, (st + 2 ^ i).testBit j = true → j ≤ i := by
      intro j hj
      by_contra hlt
      rw [hst, if_neg (by omega), hd.not_start (by omega)] at hj
      exact Bool.false_ne_true hj
    rcases Nat.eq_or_lt_of_le (hle p hp) with rfl | hpi
    · obtain rfl : q = p + m := hq.resolve_right fun h => absurd (hle q h) (by omega)
      rw [hbad, if_pos rfl]
      exact hu
    · have hqi : q ≤ i := by
        by_contra hlt
        have := hbetween i hpi (by omega)
        rw [hst, if_pos rfl] at this
        exact Bool.false_ne_true this.symm
      rw [hbad, if_neg (by omega)]
      rw [hst, if_neg (by omega)] at hp
      refine hd.units p q hp hpq ?_ fun j h1 h2 => ?_
      · rcases Nat.eq_or_lt_of_le hqi with h | h
        · exact .inl h
        · have hbit := hq.resolve_left (by omega)
          rw [hst, if_neg (by omega)] at hbit
          exact .inr hbit
      · have := hbetween j h1 h2
        rwa [hst, if_neg (by omega)] at this

theorem UtfDivided.extend_bad (hm : 0 < m) (hn : i + m ≤ n) (hu : UtfUnit byte n i (i + m) true) : UtfDivided byte n (i + m) (st + 2 ^ i) (bad + 2 ^ i) := by
  refine hd.extend hm hn ?_ (testBit_add_two_pow hd.bad_lt) hu
  have := hd.bad_lt
  rw [pow_succ]
  omega

theorem UtfDivided.extend_good (hm : 0 < m) (hn : i + m ≤ n) (hu : UtfUnit byte n i (i + m) false) : UtfDivided byte n (i + m) (st + 2 ^ i) bad := by
  refine hd.extend hm hn (lt_trans hd.bad_lt (Nat.pow_lt_pow_right (by omega) (Nat.lt_succ_self i))) (fun p => ?_) hu
  split_ifs with h
  · rw [h, hd.not_bad le_rfl]
  · rfl

end

/-- The loop divides its bytes, but for a beginning of a character at their end. -/
theorem utfLoop_divides (fuel : ℕ) : ∀ i m st bad, i + m = n → m ≤ fuel → UtfDivided byte n i st bad → ∃ j st' bad',
    utfLoop fuel (bytesFrom byte i m) i st bad = (j, st', bad') ∧ UtfDivided byte n j st' bad' ∧ (j < n → UtfPart byte j (n - j)) := by
  induction fuel with
  | zero => exact fun i m st bad hn hm hd => ⟨i, st, bad, rfl, hd, fun h => absurd h (by omega)⟩
  | succ fuel ih =>
    intro i m st bad hn hm hd
    cases m with
    | zero => exact ⟨i, st, bad, rfl, hd, fun h => absurd h (by omega)⟩
    | succ m =>
      rw [bytesFrom_succ, utfLoop]
      by_cases hlen : utfLen (byte i) = 0
      · rw [if_pos hlen]
        exact ih (i + 1) m _ _ (by omega) (by omega) (hd.extend_bad one_pos (by omega) (utfUnit_none hlen))
      · rw [if_neg hlen]
        have hfour := utfLen_le (byte i)
        have hrun := utfRun_runsTo (byte := byte) (p := i) (len := utfLen (byte i)) 3 1 m (by omega)
        generalize utfRun (byte i) (utfLen (byte i)) 3 1 (bytesFrom byte (i + 1) m) = k at hrun ⊢
        obtain ⟨hge, hle, hle_len, hfollows, hstops⟩ := hrun
        have hkl := hle_len (by omega)
        dsimp only
        rw [← bytesFrom_succ, drop_bytesFrom, length_bytesFrom]
        by_cases hk : k = utfLen (byte i)
        · rw [if_pos hk, ← hk]
          exact ih (i + k) _ _ _ (by omega) (by omega) (hd.extend_good hge (by omega) (utfUnit_whole hk.symm hge hfollows))
        · rw [if_neg hk]
          by_cases hend : k = m + 1
          · rw [if_pos hend]
            refine ⟨i, st, bad, rfl, hd, fun _ => ?_⟩
            rw [show n - i = k by omega]
            exact utfPart_iff.2 ⟨hge, by omega, hfollows⟩
          · rw [if_neg hend]
            exact ih (i + k) _ _ _ (by omega) (by omega) (hd.extend_bad hge (by omega) (utfUnit_cut hge (by omega) hfollows (by omega) (hstops (by omega) (by omega))))

/-! ## The word of UTFCUT -/

theorem utfcut_over {x : Word} (h : 7 < x.toNat / 2 ^ 56) : utfcut x = -1 := by rw [utfcut, if_pos h]

/-- The word of UTFCUT: the settled count, STARTS and BAD. -/
theorem utfcut_divides {x : Word} (h : x.toNat / 2 ^ 56 ≤ 7) : ∃ j st bad, utfcut x = BitVec.ofNat 64 (bad * 65536 + st * 256 + j)
    ∧ UtfDivided (fun i => x.toNat / 2 ^ (8 * i) % 256) (x.toNat / 2 ^ 56) j st bad
    ∧ (j < x.toNat / 2 ^ 56 → UtfPart (fun i => x.toNat / 2 ^ (8 * i) % 256) j (x.toNat / 2 ^ 56 - j)) := by
  obtain ⟨j, st, bad, hloop, hd, hpart⟩ := utfLoop_divides (byte := fun i => x.toNat / 2 ^ (8 * i) % 256) (n := x.toNat / 2 ^ 56) 8 0 (x.toNat / 2 ^ 56) 0 0
    (Nat.zero_add _) (by omega) utfDivided_nil
  refine ⟨j, st, bad, ?_, hd, hpart⟩
  rw [bytesFrom, ← List.range_eq_range'] at hloop
  rw [utfcut, if_neg (Nat.not_lt.2 h), hloop]

section
variable {j st bad : ℕ} (hj : j < 2 ^ 8) (hs : st < 2 ^ 8) (hb : bad < 2 ^ 8)
include hj hs hb

/-- The fields of UTFCUT's word. -/
theorem utfWord_fields {w : Word} (hw : w = BitVec.ofNat 64 (bad * 65536 + st * 256 + j)) : w.toNat < 2 ^ 24 ∧ w.toNat % 256 = j
    ∧ (∀ p, (w.getLsbD (8 + p) && decide (p < 8)) = st.testBit p) ∧ ∀ p, (w.getLsbD (16 + p) && decide (p < 8)) = bad.testBit p := by
  have hnat : w.toNat = 2 ^ 8 * (2 ^ 8 * bad + st) + j := by
    rw [hw, BitVec.toNat_ofNat, Nat.mod_eq_of_lt (by omega)]
    omega
  have hhigh {x : ℕ} (hx : x < 2 ^ 8) {p : ℕ} (hp : ¬ p < 8) : x.testBit p = false :=
    Nat.testBit_lt_two_pow (lt_of_lt_of_le hx (Nat.pow_le_pow_right (by omega) (by omega)))
  refine ⟨by omega, by omega, fun p => ?_, fun p => ?_⟩
  · by_cases hp : p < 8
    · rw [BitVec.getLsbD, hnat, Nat.testBit_two_pow_mul_add _ hj, if_neg (by omega), Nat.add_sub_cancel_left, Nat.testBit_two_pow_mul_add _ hs, if_pos hp, decide_eq_true hp,
        Bool.and_true]
    · rw [decide_eq_false hp, Bool.and_false, hhigh hs hp]
  · by_cases hp : p < 8
    · rw [BitVec.getLsbD, hnat, Nat.testBit_two_pow_mul_add _ hj, if_neg (by omega), Nat.testBit_two_pow_mul_add _ hs, if_neg (by omega), show 16 + p - 8 - 8 = p by omega,
        decide_eq_true hp, Bool.and_true]
    · rw [decide_eq_false hp, Bool.and_false, hhigh hb hp]

end

end Sys2Proof.Machine
end

section
/-! What a context learns of its engines and its event flag, and the turn that it gives up (12 R190, R191, R194, R204, 04 R68). -/

namespace Sys2Proof.Machine

variable {s t : State} {c k j d a : ℕ} {e : Eng}

/-! ## WAITE and ENGST (12 R190, R191) -/

theorem exec_waite_reached (h : (s.x a).toNat ≤ cnOf s s.c e) : exec (.waite d a e) s = .next (s.put d (BitVec.ofNat 64 (cnOf s s.c e))) := if_pos h

section
variable (h : cnOf s s.c e < (s.x a).toNat)
include h

theorem exec_waite_waits (hr : engRunning s s.c e = true) : exec (.waite d a e) s = .next (s.block (.waite e (s.x a))) := by
  show execWaite d a e s = _
  rw [execWaite, if_neg (Nat.not_le.2 h), if_pos hr]

theorem exec_waite_ended (hr : engRunning s s.c e = false) : exec (.waite d a e) s = .next (s.put d (BitVec.ofNat 64 (cnOf s s.c e) ||| 0x8000000000000000)) := by
  show execWaite d a e s = _
  rw [execWaite, if_neg (Nat.not_le.2 h), if_neg (by rw [hr]; exact Bool.false_ne_true)]

end

/-- Bit 63 set in a word. -/
theorem bit63_set (w : Word) : (w ||| 0x8000000000000000).getLsbD 63 = true ∧ ∀ i, i < 63 → (w ||| 0x8000000000000000).getLsbD i = w.getLsbD i := by
  have hmask : ∀ i, i < 63 → (0x8000000000000000 : Word).getLsbD i = false := by decide
  exact ⟨by rw [BitVec.getLsbD_or, show (0x8000000000000000 : Word).getLsbD 63 = true by decide, Bool.or_true],
    fun i hi => by rw [BitVec.getLsbD_or, hmask i hi, Bool.or_false]⟩

theorem engState_lt : engState s c e < 4 := by
  simp only [engState]
  split_ifs
  · decide
  · cases engStatus s c e <;> decide

/-- What is queued at an engine, and what is in flight. -/
def engSizes (s : State) (c : ℕ) (e : Eng) : ℕ × ℕ := match e with
  | .cp => ((s.cp c).mq.length, (s.cp c).mflight.length)
  | e => ((s.eng c e).queue.length, (s.eng c e).flight.length)

/-- The fields of ENGST's word. -/
theorem engstWord_fields (s : State) (c : ℕ) (e : Eng) : (engstWord s c e).toNat / 2 ^ 32 = cnOf s c e % 2 ^ 32 ∧ (engstWord s c e).toNat / 2 ^ 24 % 256 = (engSizes s c e).1 % 256
    ∧ (engstWord s c e).toNat / 2 ^ 16 % 256 = (engSizes s c e).2 % 256 ∧ (engstWord s c e).toNat / 16 % 2 ^ 12 = 0 ∧ (engstWord s c e).getLsbD 3 = tokWaits s c e
    ∧ (engstWord s c e).getLsbD 2 = ringWaits s c e ∧ (engstWord s c e).toNat % 4 = engState s c e := by
  have hstate := engState_lt (s := s) (c := c) (e := e)
  have htok := Bool.toNat_le (tokWaits s c e)
  have hring := Bool.toNat_le (ringWaits s c e)
  have hword : (engstWord s c e).toNat = cnOf s c e % 2 ^ 32 * 2 ^ 32 + (engSizes s c e).1 % 256 * 2 ^ 24 + (engSizes s c e).2 % 256 * 65536 + 8 * (tokWaits s c e).toNat
      + 4 * (ringWaits s c e).toNat + engState s c e := by
    have hof : engstWord s c e = BitVec.ofNat 64 (cnOf s c e % 2 ^ 32 * 2 ^ 32 + (engSizes s c e).1 % 256 * 2 ^ 24 + (engSizes s c e).2 % 256 * 65536 + 8 * (tokWaits s c e).toNat
      + 4 * (ringWaits s c e).toNat + engState s c e) := by cases e <;> rfl
    rw [hof, BitVec.toNat_ofNat, Nat.mod_eq_of_lt (by omega)]
  have hbit (b : Bool) : decide (b.toNat = 1) = b := by cases b <;> rfl
  refine ⟨by omega, by omega, by omega, by omega, ?_, ?_, by omega⟩
  · rw [BitVec.getLsbD, Nat.testBit_eq_decide_div_mod_eq, show (engstWord s c e).toNat / 2 ^ 3 % 2 = (tokWaits s c e).toNat by omega, hbit]
  · rw [BitVec.getLsbD, Nat.testBit_eq_decide_div_mod_eq, show (engstWord s c e).toNat / 2 ^ 2 % 2 = (ringWaits s c e).toNat by omega, hbit]

theorem engState_eq : engState s c e = if (s.core c).dbg.pend = true ∧ (if e = .cp then (s.cp c).fault ≠ none else (s.eng c e).halted = true) then 3
    else match engStatus s c e with | .idle => 0 | .running => 1 | .ended => 2 := by
  cases e <;> simp [engState, Option.isSome_iff_ne_none] <;> rfl

/-! ## YIELD and the turn (12 R194, 04 R68) -/

/-- A context noted among those that yielded. -/
def Arch.noteYield (k : ℕ) (a : Arch) : Arch := { a with yielded := insertNat a.yielded k }

/-- YIELD goes on, with its context noted. -/
theorem exec_yield (s : State) : Ends .yield s (fun t => NoX s t ∧ CtxGoes s t (s.me.pc + 4) ∧ OnlyCore s t s.c ∧ SameMemory s t
    ∧ t.arch s.c = { s.arch s.c with yielded := insertNat (s.arch s.c).yielded s.k, seqs := { s.seqs s.c with ctxs := (t.seqs s.c).ctxs } }) := by
  have hme : (s.modArch s.c (Arch.noteYield s.k)).me = s.me := ctx_modArch rfl _ _
  have hcore : OnlyCore s (s.modArch s.c (Arch.noteYield s.k)) s.c := onlyCore_modArch s s.c _
  obtain ⟨hx, hgoes, -, hmem⟩ := pass_to (s.modArch s.c (Arch.noteYield s.k))
  have hpass : OnlyCore (s.modArch s.c (Arch.noteYield s.k)) (s.modArch s.c (Arch.noteYield s.k)).pass s.c := by
    rw [State.pass, State.modMe]
    exact onlyCore_modCtx ..
  refine ⟨(s.modArch s.c (Arch.noteYield s.k)).pass, rfl, fun r => (hx r).trans (by rw [State.x, hme]; rfl), ?_, onlyCore_trans hcore hpass,
    sameMemory_trans (sameMemory_modArch ..) hmem, ?_⟩
  · rw [CtxGoes, hme] at hgoes
    exact hgoes
  · have hseqs : (s.modArch s.c (Arch.noteYield s.k)).seqs s.c = s.seqs s.c := by simp [State.seqs, State.modArch, Arch.noteYield]
    rw [State.pass, State.modMe, archCtxs_modCtx, hseqs]
    simp [Arch.noteYield]

/-- The contexts of a core are all in its round robin, each once. -/
theorem mem_scOrder {last : ℕ} (h : j < 4) : j ∈ scOrder last := by
  simp only [scOrder, List.map_cons, List.map_nil, List.mem_cons]
  omega

theorem nodup_scOrder {last : ℕ} : (scOrder last).Nodup := by
  simp only [scOrder, List.map_cons, List.map_nil, List.nodup_cons, List.mem_cons, List.not_mem_nil, or_false, List.nodup_nil, not_false_eq_true, and_true]
  omega

theorem mem_scLine (h : j < 4) (hr : scReady s c j = true) : j ∈ scLine s c := List.mem_filter.2 ⟨mem_scOrder h, hr⟩
theorem ready_of_mem_scLine (h : j ∈ scLine s c) : scReady s c j = true := (List.mem_filter.1 h).2
theorem nodup_scLine : (scLine s c).Nodup := nodup_scOrder.filter _

section
variable {l : List ℕ}

/-- The head of the line yielded and passes its turn. -/
theorem scPick_passes (h : scLine s c = k :: j :: l) (hy : k ∈ (s.arch c).yielded) : scPick s c = some j := by
  simp [scPick, h, hy]

theorem scPick_head (h : scLine s c = k :: l) (hy : k ∉ (s.arch c).yielded) : scPick s c = some k := by
  cases l <;> simp [scPick, h, hy]

theorem scPick_alone (h : scLine s c = [k]) : scPick s c = some k := by simp [scPick, h]

/-- The turn that passes the head of the line takes it from those that yielded. -/
theorem takeSlot_head (h : scLine s c = k :: l) : k ∉ ((takeSlot s c j).arch c).yielded := by
  simp [takeSlot, h]

end

/-- A context that yielded alone is passed where another can issue. -/
theorem scPick_other (hy : (s.arch c).yielded = [k]) (hj : j < 4) (hne : j ≠ k) (hr : scReady s c j = true) : ∃ i, scPick s c = some i ∧ i ≠ k ∧ scReady s c i = true := by
  have hmem := mem_scLine hj hr
  have hready {i : ℕ} := ready_of_mem_scLine (s := s) (c := c) (j := i)
  have hnodup := nodup_scLine (s := s) (c := c)
  match hl : scLine s c with
  | [] => rw [hl] at hmem; exact absurd hmem List.not_mem_nil
  | i :: l =>
    rw [hl] at hmem hnodup hready
    by_cases hi : i = k
    · subst hi
      match l, (List.mem_cons.1 hmem).resolve_left hne with
      | i' :: l, _ =>
        refine ⟨i', scPick_passes hl (by rw [hy]; exact List.mem_singleton_self _), fun h => ?_, hready (by simp)⟩
        exact (List.nodup_cons.1 hnodup).1 (by simp [h])
    · exact ⟨i, scPick_head hl (by rw [hy, List.mem_singleton]; exact hi), hi, hready List.mem_cons_self⟩

end Sys2Proof.Machine

open Sys2Proof Sys2Proof.Machine in
/-- Settles O17: WAITE and ENGST by their words, WFE by its flag, YIELD and the pick behind it (`exec_yield`, `scPick_other`), UTFCUT by the division of its bytes (`utfcut_divides`). -/
theorem contextWords : Obligations.ContextWords := by
  intro s d a e x cn sizes
  refine ⟨fun h => ends_put (exec_waite_reached h) rfl, fun h hr => ⟨_, exec_waite_waits h hr, block_waits _ _⟩, fun h hr => ⟨_, ends_put (exec_waite_ended h hr) rfl, bit63_set _⟩, ?engst,
    fun hf => ⟨_, if_pos hf, pass_with rfl rfl⟩, fun hf => ⟨_, if_neg (by rw [hf]; exact Bool.false_ne_true), block_waits _ _⟩, ?yield,
    fun c k j hy hj hne hr => scPick_other hy hj hne hr, fun c k j l hl hy => ⟨scPick_passes hl hy, takeSlot_head hl⟩, fun c k hl => scPick_alone hl, fun c k l hl hy => scPick_head hl hy,
    fun h => ends_put rfl (utfcut_over h), fun h => ?utfcut⟩
  case engst =>
    obtain ⟨hcn, hqueued, hflight, hzero, htok, hring, hstate⟩ := engstWord_fields s s.c e
    exact ⟨_, ends_put rfl rfl, hcn, hqueued, hflight, hzero, htok, hring, hstate.trans engState_eq⟩
  case yield =>
    obtain ⟨t, ht, hx, hgoes, hcore, hmem, harch⟩ := exec_yield s
    exact ⟨t, ht, hx, hgoes, by rw [harch]; exact mem_insertNat.2 (.inr rfl), hcore, hmem, harch⟩
  case utfcut =>
    obtain ⟨j, st, bad, hw, hd, hpart⟩ := utfcut_divides h
    have hpow : 2 ^ j ≤ 2 ^ 8 := Nat.pow_le_pow_right (by omega) (by have := hd.le; omega)
    obtain ⟨hlt, hj, hst, hbad⟩ := utfWord_fields (by have := hd.le; omega) (lt_of_lt_of_le hd.st_lt hpow) (lt_of_lt_of_le hd.bad_lt hpow) hw
    refine ⟨_, ends_put rfl rfl, ?_⟩
    intro n byte more rows begins whole part j' start bad'
    have hj' : j' = j := hj
    have hstart : start = st.testBit := funext hst
    have hbad' : bad' = bad.testBit := funext hbad
    rw [hj', hstart, hbad']
    refine ⟨hlt, hd.le, ?_, hd.first, fun p hp => ?_, hd.bad_start, hpart, hd.units⟩
    · by_cases hjn : j < x.toNat / 2 ^ 56
      · have hl := (utfPart_iff.1 (hpart hjn)).2.1.trans_le (utfLen_le _)
        omega
      · omega
    · by_contra hlt
      exact Bool.false_ne_true ((hd.not_start (Nat.not_lt.1 hlt)).symm.trans hp)
end

section
/-! Slot C, the registers k and q, and the end of a bundle (13 R221, R228-R234). -/

namespace Sys2Proof.Machine

variable {s : State} {p : Cp}

/-- A slot that acts has the effect that the meaning of its instruction gives it. -/
theorem acts_by (r : Result) {i : Instr} {act : State → State} {P : State → Prop} (he : exec i s = r) (hr : r = cpSlot i act s) (hp : P (act s)) : Acts i s P :=
  acts_of (he.trans hr) hp

/-! ## Behind a bundle (13 R231-R233) -/

/-- A bundle at which no loop ends is followed by the next one. -/
theorem loopEnd_none {e : ℕ} {l : List CpLoop} (h : ∀ x ∈ l, x.close ≠ e) (p : Cp) : loopEnd e l p = { p with pc := e + 1 } := by
  induction l with
  | nil => rfl
  | cons x t ih =>
    rw [loopEnd, if_pos (h x List.mem_cons_self)]
    exact ih fun y hy => h y (List.mem_cons_of_mem _ hy)

/-- A loop at its end bundle: its counter goes down by one, and a rotating loop counts RRB on. -/
def endTurn (l : CpLoop) (p : Cp) : Cp :=
  { p with lc := sset p.lc l.level (sget 0 p.lc l.level - 1), rrb := if l.rot then p.rrb + 1 else p.rrb }

/-- At its end bundle a loop starts again while its counter is not 0, and else it is over. -/
theorem loopEnd_close {e : ℕ} {l : CpLoop} {t : List CpLoop} (h : l.close = e) (p : Cp) :
    loopEnd e (l :: t) p = if sget 0 p.lc l.level - 1 ≠ 0 then { endTurn l p with pc := l.start }
      else loopEnd e t { endTurn l p with loops := p.loops.filter (fun x => x.level != l.level) } := by
  rw [loopEnd, if_neg (not_not.2 h)]
  rfl

theorem bundleNext_seq (hc : p.ctl = .seq) (hr : p.rep = none) : bundleNext p = loopEnd p.pc p.loops p := by
  simp only [bundleNext, hc, hr]

theorem bundleNext_rep {r : RepRun} (hc : p.ctl = .seq) (hr : p.rep = some r) :
    bundleNext p = if 1 < p.repcnt then { p with repcnt := p.repcnt - 1 } else loopEnd p.pc p.loops { p with repcnt := 0, rep := none } := by
  simp only [bundleNext, hc, hr]

theorem bundleNext_skip (hc : p.ctl = .skip) : bundleNext p = loopEnd (p.pc + 1) p.loops p := by
  simp only [bundleNext, hc]

/-! ## Slot C (13 R229, R230, R233) -/

theorem beginLoop_zero {lv e : ℕ} {rot : Bool} : beginLoop lv e 0 rot s = s.modMyCp (fun p => { p with ctl := .jump (p.pc + e + 1) }) := rfl

theorem beginLoop_pos {lv e n : ℕ} {rot : Bool} (h : n ≠ 0) : beginLoop lv e n rot s = s.modMyCp (fun p => { p with
    lc := sset p.lc lv (BitVec.ofNat 32 n), loops := ⟨lv, p.pc + 1, p.pc + e, rot⟩ :: p.loops.filter (fun l => l.level != lv) }) := by
  simp only [beginLoop, if_neg h]

theorem beginRep_zero {st : Strides} : beginRep 0 st s = s.modMyCp (fun p => { p with ctl := .skip }) := rfl

theorem beginRep_pos {n : ℕ} {st : Strides} (h : n ≠ 0) :
    beginRep n st s = s.modMyCp (fun p => { p with rep := some ⟨n, st⟩, repcnt := BitVec.ofNat 16 n, ctl := .begin_ }) := by
  simp only [beginRep, if_neg h]

/-- A NOP passes every check and does nothing. -/
theorem exec_nop (s : State) : exec .nop s = .next s := by
  have hact : SlotActs .nop s := ⟨rfl, rfl, by simp [cpValue, vecPoison, vsrcs], rfl⟩
  exact cpSlot_acts hact (fun s => s)

/-- BRC branches where its condition holds, and else has no effect. -/
theorem exec_brc (q : ℕ) (cond : BrCond) (a b : ℕ) (off : BitVec 16) (s : State) :
    exec (.brc q cond a b off) s = cpSlot (.brc q cond a b off) (fun s => if brHolds cond (s.kreg a) (s.kreg b) then takeBranch off s else s) s := rfl

theorem brHolds_iff {cond : BrCond} {x y : Word} : brHolds cond x y = true ↔ match cond with
    | .eq => x = y | .ne => x ≠ y | .lt => x.toInt < y.toInt | .ge => y.toInt ≤ x.toInt | .ltu => x.toNat < y.toNat | .geu => y.toNat ≤ x.toNat := by
  cases cond <;> simp [brHolds, BitVec.slt, BitVec.ult]

end Sys2Proof.Machine

open Sys2Proof.Machine in
/-- Settles O28: each answer of `bundleNext` by its control state, the end of a bundle through `loopEnd_none` and `loopEnd_close`. -/
theorem bundlesEnd : Obligations.BundlesEnd := by
  intro p t
  refine ⟨?jump, ?stop, ?begins, ?seq, ?skip, ?again, ?done, ?loop⟩
  case jump => intro h; simp only [bundleNext, h]
  case stop => intro h; simp only [bundleNext, h]
  case begins => intro h; simp only [bundleNext, h]
  case seq => intro hc hr hl; rw [bundleNext_seq hc hr, loopEnd_none hl]
  case skip => intro hc hl; rw [bundleNext_skip hc, loopEnd_none hl]
  case again => intro r hc hr hn; rw [bundleNext_rep hc hr, if_pos hn]
  case done =>
    intro r hc hr hn hl
    rw [bundleNext_rep hc hr, if_neg (BitVec.not_lt.2 hn), loopEnd_none hl]
  case loop =>
    intro l rest hc hr hl hclose n rrb
    have hnext := bundleNext_seq hc hr
    rw [hl, loopEnd_close hclose] at hnext
    refine ⟨fun hn => hnext.trans (if_pos hn), fun hn hrest => hnext.trans ?_⟩
    have hfilter : (l :: rest).filter (fun x => x.level != l.level) = rest.filter (fun x => x.level != l.level) := by simp
    rw [if_neg (not_not.2 hn), loopEnd_none hrest, hl, hfilter]
    rfl

open Sys2Proof.Machine in
/-- Settles O25: each word changes the CP as `modMyCp` says. -/
theorem controlSlots : Obligations.ControlSlots := by
  intro s q lv e n k a b rot st cond off p x y target begins jumps repeats holds
  have hholds : holds ↔ brHolds cond x y = true := brHolds_iff.symm
  have branch : CpDoes s (jumps target) (takeBranch off s) := modMyCp_does s _
  have loops {n : ℕ} (hn : n ≠ 0) : CpDoes s (begins n) (beginLoop lv e n rot s) := by rw [beginLoop_pos hn]; exact modMyCp_does s _
  have passes {n : ℕ} (hn : n = 0) : CpDoes s (fun p => { p with ctl := .jump (p.pc + e + 1) }) (beginLoop lv e n rot s) := by
    rw [hn, beginLoop_zero]; exact modMyCp_does s _
  have reps {n : ℕ} (hn : n ≠ 0) : CpDoes s (repeats n) (beginRep n st s) := by rw [beginRep_pos hn]; exact modMyCp_does s _
  have skips {n : ℕ} (hn : n = 0) : CpDoes s (fun p => { p with ctl := .skip }) (beginRep n st s) := by rw [hn, beginRep_zero]; exact modMyCp_does s _
  have loopK {P : State → Prop} := acts_by (P := P) (execCpLoopK q lv e k rot s) rfl rfl
  have repK {P : State → Prop} := acts_by (P := P) (execRepK q k st s) rfl rfl
  refine ⟨exec_nop s, acts_of rfl branch, fun h => ?taken, fun h hact => ?untaken, acts_of rfl (passes rfl), fun hn => acts_of rfl (loops hn.ne'),
    fun hn => loopK (passes hn), fun hn => loopK (loops hn), acts_of rfl (skips rfl), fun hn => acts_of rfl (reps hn.ne'), fun hn => repK (skips hn),
    fun hn => repK (reps hn), acts_by (execRot q s) rfl rfl (modMyCp_does s _), acts_by (execEndk q s) rfl rfl (modMyCp_does s _)⟩
  case taken => exact acts_of (exec_brc q cond a b off s) (by rw [if_pos (hholds.1 h)]; exact branch)
  case untaken => rw [exec_brc, cpSlot_acts hact, if_neg (h ∘ hholds.2)]

open Sys2Proof.Machine in
/-- Settles O26: each word sends its value on its way (`give_gives`). -/
theorem scalarSlots : Obligations.ScalarSlots := by
  intro s q d a b k i kd qd
  have hadd : s.kreg a + s.kreg b = BitVec.ofNat 64 ((s.kreg a).toNat + (s.kreg b).toNat) := by simp [BitVec.ofNat_add]
  have haddi : s.kreg a + i.signExtend 64 = BitVec.ofInt 64 ((s.kreg a).toInt + i.toInt) := by
    rw [BitVec.ofInt_add, BitVec.ofInt_toInt, BitVec.signExtend]
  have hnz : (s.kreg k != 0) = decide ((s.kreg k).toNat ≠ 0) := by
    rw [Bool.eq_iff_iff, bne_iff_ne, decide_eq_true_iff, ne_eq, ne_eq, ← BitVec.toNat_inj]; rfl
  have gives (v : Sys2Proof.Word) : kd v (s.give 0 (.k d v)) := give_gives s 0 _
  have tells (v : Bool) : qd v (givePred d v s) := give_gives s 1 _
  exact ⟨acts_by (execKadd q d a b s) rfl rfl (hadd ▸ gives _), acts_by (execKaddi q d a i s) rfl rfl (haddi ▸ gives _), acts_by (execKmov q d a s) rfl rfl (gives _),
    acts_by (execKmovLc q d k s) rfl rfl (BitVec.ofNat_toNat 64 _ ▸ gives _), acts_by (execKmovRrb q d s) rfl rfl (BitVec.ofNat_toNat 64 _ ▸ gives _),
    acts_of rfl (tells _), acts_of rfl (tells _), acts_by (execQmovQ q d a s) rfl rfl (tells _), acts_by (execQmovK q d k s) rfl rfl (hnz ▸ tells _)⟩

end

section
/-! Vector arithmetic, bitwise words, comparisons and counts (13 R210-R213, R218, 08 R121-R126). -/

open Sys2Proof.Machine in
/-- Settles O30: each word gives its lanes (`giveLanes_gives`). -/
theorem vectorLogic : Obligations.VectorLogic := by
  intro s q m d a b mc k t rm n imm x y count gives
  have lanes (f : ℕ → ℕ) : gives f (lanesOp 2 t m d (fun _ => f) s) := giveLanes_gives s 2 t.width d (s.active m) f
  have hcount : shiftOf s t n = count := by cases n <;> rfl
  refine ⟨acts_of rfl (lanes _), acts_of rfl (lanes _), acts_of rfl (lanes _), acts_of rfl (lanes _), acts_of rfl (hcount ▸ lanes _), acts_of rfl (hcount ▸ lanes _),
    acts_of rfl (hcount ▸ lanes _), acts_of rfl (lanes _), acts_of rfl (lanes _), acts_of rfl (lanes _), fun h => acts_of rfl (givesLanes_congr (lanes _) fun i => congrArg (· % 2 ^ t.width) (if_pos h)),
    fun h => acts_of rfl (givesLanes_congr (lanes _) fun i => congrArg (· % 2 ^ t.width) (if_neg (by simp [h])))⟩

namespace Sys2Proof.Machine

/-! ## Integers and formats (08 R121, R122, R124-R126) -/

theorem width_pos (t : ElemType) : 0 < t.width := by cases t <;> decide

/-- An integer is read by its sign bit, or without one. -/
theorem readInt_toInt (t : ElemType) (n : ℕ) : readInt t n = if t.signed then (BitVec.ofNat t.width n).toInt else (BitVec.ofNat t.width n).toNat := by
  simp only [readInt, sextNat_toInt _ _ (width_pos t), BitVec.toNat_ofNat]

section
variable {t : ElemType} {f : Fmt} (h : fmtOf t = some f)
include h

theorem readVal_fmt (n : ℕ) : readVal t n = decodeF f n := by simp only [readVal, h]
theorem writeVal_fmt (rm : Rm) (sat : Bool) (v : FVal) : writeVal t rm sat v = encodeF f rm sat v := by simp only [writeVal, h]
theorem fb_pos : 1 ≤ f.fb := by cases t <;> cases h <;> decide

end

/-! ## Values (08 R125) -/

section
variable (u v : FVal)

theorem FVal.add_nan : FVal.add u .nan = .nan := by cases u <;> rfl
theorem FVal.mul_nan : FVal.mul u .nan = .nan := by cases u <;> rfl
theorem FVal.maxn_nan : FVal.maxn u .nan = u := by cases u <;> rfl
theorem FVal.minn_nan : FVal.minn u .nan = u := by cases u <;> rfl

end

section
variable (i j : Bool) (k : ℕ) (e : ℤ)

/-- Against an infinity the maximum is the other value where the infinity is negative. -/
theorem maxn_inf_left : FVal.maxn (.inf i) (.fin j k e) = if i then .fin j k e else .inf i := by cases i <;> cases j <;> rfl
theorem maxn_inf_right : FVal.maxn (.fin i k e) (.inf j) = if j then .fin i k e else .inf j := by cases i <;> cases j <;> rfl
theorem minn_inf_left : FVal.minn (.inf i) (.fin j k e) = if i then .inf i else .fin j k e := by cases i <;> cases j <;> rfl
theorem minn_inf_right : FVal.minn (.fin i k e) (.inf j) = if j then .inf j else .fin i k e := by cases i <;> cases j <;> rfl

end

end Sys2Proof.Machine

open Sys2Proof.Machine in
/-- Settles O29: the lanes are those of `arith`, and its parts are the laws of rounding and of exact arithmetic: `decodeF_nan`, `decodeF_number`, `encodeF_fin`, `number_add`, `number_mul`, `maxn_minn`. -/
theorem vectorArithmetic : Obligations.VectorArithmetic := by
  intro s q m d a b c t rm ai bi ci af bf cf gives
  have lanes (cls : ℕ) (rm : Sys2Proof.Rm) (a' b' c' : ℕ) (fi : ℤ → ℤ → ℤ → ℤ) (ff : FVal → FVal → FVal → FVal) :
      GivesLanes s (latOf s s.c cls) t.width d (s.active m) (fun i => arith t rm fi ff (elemOf s t a' i) (elemOf s t b' i) (elemOf s t c' i)) (arithOp cls t rm m d a' b' c' fi ff s) :=
    giveLanes_gives s cls t.width d (s.active m) _
  refine ⟨acts_of rfl (lanes ..), acts_of rfl (lanes ..), acts_of rfl (lanes ..), acts_of rfl (lanes ..), acts_of rfl (lanes ..), acts_of rfl (givesLanes_congr (lanes ..) fun i => ?min),
    acts_of rfl (givesLanes_congr (lanes ..) fun i => ?max), acts_of rfl (givesLanes_congr (lanes ..) fun i => ?abs), acts_of rfl (lanes ..), fun h => acts_of rfl (lanes ..), ?ints, ⟨rfl, rfl, rfl, rfl, rfl⟩,
    ?formats, ?nans, ?finite⟩
  case min => simp only [arith, Sys2Proof.wrapInt, min_def, ai, bi, af, bf]
  case max => simp only [arith, Sys2Proof.wrapInt, max_def, ai, bi, af, bf]
  case abs =>
    have habs (x : ℤ) : (x.natAbs : ℤ) = if x < 0 then -x else x := by omega
    simp only [arith, Sys2Proof.wrapInt, habs, ai, af]
  case ints => exact fun w n x hw => ⟨readInt_toInt w n, rfl⟩
  case formats =>
    intro w f hf
    refine ⟨fun n => ?_, fun rm sat => ⟨?_, fun b => ?_, fun b k e => ?_⟩⟩
    · rw [readVal_fmt hf]
      obtain ⟨hnan, hinf⟩ := decodeF_nan f n
      refine ⟨hnan, hinf, fun b k e h => ?_⟩
      rw [h]
      exact decodeF_number f n b k e h
    · rw [writeVal_fmt hf]; rfl
    · rw [writeVal_fmt hf]; rfl
    · rw [writeVal_fmt hf]; exact encodeF_fin f rm sat b k e (fb_pos hf)
  case nans => exact fun u v => ⟨rfl, FVal.add_nan u, rfl, FVal.mul_nan u, rfl, rfl, rfl, FVal.maxn_nan u, rfl, FVal.minn_nan u⟩
  case finite =>
    intro i j k l e g u v
    obtain ⟨o, n, h, hadd, hsum⟩ := number_add rm i j k l e g
    have hadd' : FVal.add u v = .fin o n h := hadd
    have hsum' : (FVal.add u v).number = u.number + v.number := by rw [hadd']; exact hsum
    refine ⟨rfl, rfl, rfl, ⟨o, n, h, hadd', hsum', fun hz => add_zero_sign i j k l e g o n h hadd' hz⟩, rfl, rfl, rfl, ⟨k * l, e + g, rfl, ?_⟩, rfl, rfl, rfl, rfl, ?_, maxn_inf_left i j l g,
      maxn_inf_right i j k e, ?_, minn_inf_left i j l g, minn_inf_right i j k e, maxn_minn i j k l e g⟩
    · obtain ⟨c, p, r, hmul, hprod⟩ := number_mul i j k l e g
      rw [show FVal.mul u v = .fin c p r from hmul]
      exact hprod
    · cases i <;> cases j <;> rfl
    · cases i <;> cases j <;> rfl

namespace Sys2Proof.Machine

/-! ## Comparisons and counts (13 R212, R218) -/

variable {cond : Cmp} {u v : FVal}

/-- A NaN makes NE and UN true, and no other condition (08 R126). -/
theorem cmpF_nan (h : u = .nan ∨ v = .nan) : cmpF cond u v = decide (cond = .ne ∨ cond = .un) := by
  have hnan : (u.isNan || v.isNan) = true := by simpa [isNan_iff] using h
  exact (if_pos hnan).trans (by cases cond <;> rfl)

theorem cmpF_number (h : ¬ (u = .nan ∨ v = .nan)) : cmpF cond u v = match cond with
    | .eq => !u.lt v && !v.lt u | .ne => u.lt v || v.lt u | .lt => u.lt v | .le => !v.lt u | .gt => v.lt u | .ge => !u.lt v | .un => false := by
  have hnan : ¬ (u.isNan || v.isNan) = true := by simpa [isNan_iff] using h
  exact if_neg hnan

theorem cmpElem_int {t : ElemType} (h : t.isInt = true) (x y : ℕ) : cmpElem t cond x y = cmpInt cond (readInt t x) (readInt t y) := if_pos h
theorem cmpElem_float {t : ElemType} (h : ¬ t.isInt = true) (x y : ℕ) : cmpElem t cond x y = cmpF cond (readVal t x) (readVal t y) := if_neg h

theorem bitCount_eq (n x : ℕ) : bitCount n x = (List.range n).countP (fun j => x.testBit j) := by
  induction n generalizing x with
  | zero => rfl
  | succ n ih =>
    have hlow : x % 2 = if x.testBit 0 = true then 1 else 0 := by rw [Nat.testBit_zero]; split <;> simp_all
    rw [bitCount, ih, List.range_succ_eq_map, List.countP_cons, List.countP_map, hlow, Nat.add_comm]
    simp only [Function.comp_def, Nat.testBit_succ]

/-- The register whose lowest n bits are set. -/
theorem lowBits_getLsbD {n : ℕ} (h : n ≤ 4096) (i : ℕ) : (BitVec.ofNat 4096 (2 ^ n - 1)).getLsbD i = decide (i < n) := by
  rw [BitVec.getLsbD_ofNat, Nat.testBit_two_pow_sub_one, ← Bool.decide_and]
  exact decide_eq_decide.2 (by omega)

theorem count_le (t : ElemType) : t.count ≤ 1024 := by cases t <;> decide

end Sys2Proof.Machine

open Sys2Proof.Machine in
/-- Settles O31: a comparison is that of `cmpElem`, case by case of its condition; the masks are those of `maskOf_getLsbD`, the counts those of `bitCount_eq`, and finite values compare by `lt_iff_number`. -/
theorem vectorMasks : Obligations.VectorMasks := by
  intro s q m d a b t cond holds
  have hcmp (i : ℕ) : cmpElem t cond (elemOf s t a i) (elemOf s t b i) = holds i := by
    by_cases ht : t.isInt = true
    · rw [cmpElem_int ht]; simp only [holds, if_pos ht]
      cases cond <;> simp [cmpInt, Bool.beq_eq_decide_eq, bne]
    · rw [cmpElem_float ht]; simp only [holds, if_neg ht]
      split
      · exact cmpF_nan ‹_›
      · exact (cmpF_number ‹_›).trans (by cases cond <;> rfl)
  refine ⟨⟨_, acts_by (execVcmpMask q m t cond d a b s) rfl rfl (give_gives s 1 _), fun i => ?mask⟩, acts_of rfl (givesLanes_congr (giveLanes_gives s 3 t.width d (s.active m) _) fun i => ?vec),
    acts_by (execVmovMaskMask q d a s) rfl rfl (give_gives s 2 _), ⟨_, acts_by (execVmovMaskVec q d a s) rfl rfl (give_gives s 2 _), fun i hi => ?maskVec⟩,
    ⟨_, _, acts_by (execVmovVecMask q d a s) rfl rfl (give_gives s 2 _), fun i => ⟨lowBits_getLsbD (by omega) i, fun hi => ?vecMask⟩⟩,
    acts_of rfl (givesLanes_congr (giveLanes_gives s 6 t.width d (s.active m) _) fun i => ?popc),
    ⟨_, _, acts_by (execVpopcMask q m t d s) rfl rfl (give_gives s 6 _), lowBits_getLsbD (by omega), ?popcMask⟩,
    fun i j k l e g => ⟨lt_iff_number i j k l e g, rfl, rfl, rfl⟩⟩
  case mask => rw [maskOf_getLsbD _ (count_le t), hcmp, Bool.and_assoc]
  case vec => simp only [hcmp]
  case maskVec => simp [hi]
  case vecMask => simp [BitVec.getLsbD_setWidth]; omega
  case popc => simp only [bitCount_eq]
  case popcMask =>
    have hlen := (List.length_filter_le (s.active m) (List.range t.count)).trans ((List.length_range).le.trans (count_le t))
    rw [List.countP_eq_length_filter, BitVec.toNat_ofNat]
    omega
end

section
/-! Conversions, permutations, reductions and the words around them (13 R214-R220, 08 R126, R132, R133). -/

namespace Sys2Proof.Machine

variable {s u : State}

/-! ## Several results of one word (13 R214) -/

/-- A change of the CP leaves the launch that runs, and so the latencies. -/
theorem latOf_onlyCp {c : ℕ} (h : OnlyCp s u c) (cls : ℕ) : latOf u c cls = latOf s c cls := by
  unfold latOf State.run
  rw [h]
  simp [State.modCp, State.modSeqs]

theorem c_onlyCp {c : ℕ} (h : OnlyCp s u c) : u.c = s.c := by rw [State.c, h]; rfl

theorem onlyCp_trans {t : State} {c : ℕ} (h : OnlyCp s t c) (g : OnlyCp t u c) : OnlyCp s u c := by
  unfold OnlyCp at *
  rw [g, h, modCp_modCp]
  simp

/-- What a computed result leaves of the CP. -/
theorem give_cp (s : State) (cls : ℕ) (w : CpWrite) : (s.give cls w).cp s.c = { s.cp s.c with
    pend := insertDue (s.cp s.c).pend ⟨(s.cp s.c).issued + latOf s s.c cls, w, false⟩, ready := max (s.cp s.c).ready ((s.cp s.c).clock + realLat cls) } :=
  cp_modCp s s.c _

/-- The results of a word that writes several registers, one after another, are all on their way. -/
theorem give_each (s : State) (cls : ℕ) (w : ℕ → CpWrite) (n : ℕ) :
    let u := (List.range (n + 1)).foldl (fun t r => t.give cls (w r)) s
    OnlyCp s u s.c ∧ u.cp s.c = { s.cp s.c with pend := (u.cp s.c).pend, ready := (u.cp s.c).ready } ∧ SameMemory s u
      ∧ ∀ x, x ∈ (u.cp s.c).pend ↔ x ∈ (s.cp s.c).pend ∨ ∃ r, r < n + 1 ∧ x = InFlight.mk ((s.cp s.c).issued + latOf s s.c cls) (w r) false := by
  induction n with
  | zero =>
    obtain ⟨honly, -, -, hmem, -⟩ := give_gives s cls (w 0)
    have hcp := give_cp s cls (w 0)
    rw [Nat.zero_add, show (List.range 1).foldl (fun t r => t.give cls (w r)) s = s.give cls (w 0) from rfl]
    refine ⟨honly, ?_, hmem, fun x => ?_⟩
    · rw [hcp]
    · simp only [hcp, mem_insertDue, Nat.lt_one_iff, exists_eq_left]
  | succ n ih =>
    intro u
    obtain ⟨honly, hcp, hmem, hpend⟩ := ih
    have hu : u = ((List.range (n + 1)).foldl (fun t r => t.give cls (w r)) s).give cls (w (n + 1)) := by
      simp only [u, List.range_succ (n := n + 1), List.foldl_append, List.foldl_cons, List.foldl_nil]
    generalize (List.range (n + 1)).foldl (fun t r => t.give cls (w r)) s = t at *
    have hstep := give_cp t cls (w (n + 1))
    obtain ⟨gonly, -, -, gmem, -⟩ := give_gives t cls (w (n + 1))
    rw [c_onlyCp honly] at hstep gonly
    rw [latOf_onlyCp honly] at hstep
    have hissued : (t.cp s.c).issued = (s.cp s.c).issued := by rw [hcp]
    rw [hu]
    refine ⟨onlyCp_trans honly gonly, ?_, sameMemory_trans hmem gmem, fun x => ?_⟩
    · rw [hstep, hcp]
    · simp only [hstep, mem_insertDue, hpend, hissued, Nat.lt_succ_iff_lt_or_eq (n := n + 1), or_and_right, exists_or, exists_eq_left, or_assoc]

/-! ## Conversions (08 R126) -/

theorem number_ofInt (z : ℤ) : (FVal.ofInt z).number = z := by
  have habs : ((z.natAbs : ℕ) : ℚ) = ((|z| : ℤ) : ℚ) := by rw [← Int.natCast_natAbs, Int.cast_natCast]
  rw [FVal.ofInt, number_fin, habs]
  by_cases h : z < 0
  · simp [h, abs_of_neg h]
  · simp [h, abs_of_nonneg (not_lt.1 h)]

theorem readVal_int {t : ElemType} (h : t.isInt = true) (x : ℕ) : readVal t x = FVal.ofInt (readInt t x) := by
  simp only [readVal, (fmtOf_int t).1 h]

theorem writeVal_int {t : ElemType} (h : t.isInt = true) (rm : Rm) (sat : Bool) (v : FVal) : writeVal t rm sat v = (toIntType t rm v % 2 ^ t.width).toNat := by
  simp only [writeVal, (fmtOf_int t).1 h, wrapInt]

theorem writeVal_nan {t : ElemType} (h : t.isInt = false) : writeVal t .rne false .nan = (fmtOf t).elim 0 (fun f => f.nan) := by
  cases hf : fmtOf t with
  | none => exact absurd ((fmtOf_int t).2 hf) (by simp [h])
  | some f => rw [writeVal_fmt hf]; rfl

theorem convertElem_eq (t sty : ElemType) (sat : Bool) (rm : Rm) (x : ℕ) : convertElem t sty sat rm x =
    if t.isInt then ((if sty.isInt then (if sat = true ∧ t.width ≤ sty.width then satInt t (readInt sty x) else readInt sty x) else toIntType t rm (readVal sty x)) % 2 ^ t.width).toNat
    else writeVal t rm false (readVal sty x) := by
  cases ht : t.isInt with
  | false => simp [convertElem, ht]
  | true =>
    cases hs : sty.isInt with
    | false => simp [convertElem, ht, hs, writeVal_int ht]
    | true =>
      simp only [convertElem, ht, hs, Bool.and_self, Bool.and_eq_true, decide_eq_true_iff, if_true, wrapInt]
      split <;> rfl

theorem cvtDstRegs_pos (t sty : ElemType) : 0 < cvtDstRegs t sty := by
  unfold cvtDstRegs
  split
  · exact Nat.div_pos (Nat.le_of_lt ‹_›) (width_pos sty)
  · exact Nat.one_pos

/-- The bits that VCVT writes of the r-th register of its destination group: those of the active logical elements that stand there (13 R214). -/
def cvtBits (s : State) (t sty : ElemType) (m r : ℕ) : Vec := laneBits t.width t.count (fun l => s.active m (l * cvtDstRegs t sty + r))

/-- What VCVT writes there. -/
def cvtValue (s : State) (t sty : ElemType) (sat : Bool) (rm : Rm) (m a r : ℕ) : Vec :=
  laneVec t.width t.count (fun l => s.active m (l * cvtDstRegs t sty + r)) (fun l =>
    let i := l * cvtDstRegs t sty + r
    convertElem t sty sat rm (lane sty.width (s.vreg (a + i % cvtSrcRegs t sty)) (i / cvtSrcRegs t sty)))

theorem cvt_lanes {t sty : ElemType} {sat : Bool} {rm : Rm} {m a r l : ℕ} (hl : l < t.count) :
    let i := l * cvtDstRegs t sty + r
    lane t.width (cvtBits s t sty m r) l = (if s.active m i then 2 ^ t.width - 1 else 0)
    ∧ (s.active m i = true → lane t.width (cvtValue s t sty sat rm m a r) l
        = convertElem t sty sat rm (lane sty.width (s.vreg (a + i % cvtSrcRegs t sty)) (i / cvtSrcRegs t sty)) % 2 ^ t.width) :=
  lanes_of t.width t.count _ _ (Nat.mul_div_le 4096 t.width) l hl

/-! ## The winner of VMAXI and VMINI (13 R217, 08 R133) -/

/-- The candidates of VMAXI and VMINI. -/
def extremeLeaves (s : State) (t : ElemType) (m a : ℕ) : List (Option (ℕ × ℕ)) :=
  (List.range t.count).map (fun i => if s.active m i then some (elemOf s t a i, i) else none)

/-- The index and the value that VMAXI or VMINI writes. -/
def extreme (s : State) (t : ElemType) (hi : Bool) (m a : ℕ) : ℕ × ℕ := winnerOf t hi t.count (tree (winner t hi) none 10 (extremeLeaves s t m a))

theorem extremeOp_eq (s : State) (t : ElemType) (hi : Bool) (m d a : ℕ) : extremeOp t hi m d a s = s.give 6 (.vec (s.vphys d) (BitVec.ofNat 4096 (2 ^ 32 - 1 + (2 ^ 64 - 1) * 2 ^ 64))
    (BitVec.ofNat 4096 ((extreme s t hi m a).1 + (extreme s t hi m a).2 * 2 ^ 64))) := rfl

theorem count_pos (t : ElemType) : 0 < t.count := by cases t <;> decide

variable {t : ElemType} {hi : Bool} {m a : ℕ}

theorem leaves_get {i : ℕ} {x : ℕ × ℕ} : (extremeLeaves s t m a)[i]? = some (some x) ↔ i < t.count ∧ s.active m i = true ∧ (elemOf s t a i, i) = x := by
  by_cases hi : i < t.count
  · by_cases hact : s.active m i = true
    · simp [extremeLeaves, hi, hact]
    · simp [extremeLeaves, hi, hact]
  · simp [extremeLeaves, hi]

/-- The tree keeps the first of the best active elements, or none where none is active. -/
theorem extreme_cases (s : State) (t : ElemType) (hi : Bool) (m a : ℕ) :
    (∃ i, extreme s t hi m a = winnerOf t hi t.count (some (elemOf s t a i, i)) ∧ s.active m i = true ∧ i < t.count
      ∧ (∀ j, j < t.count → s.active m j = true → rightWins t hi (elemOf s t a i) (elemOf s t a j) = false)
      ∧ ∀ j, j < i → s.active m j = true → rightWins t hi (elemOf s t a j) (elemOf s t a i) = true)
    ∨ (extreme s t hi m a = winnerOf t hi t.count none ∧ ∀ j, j < t.count → s.active m j = false) := by
  have hlen : (extremeLeaves s t m a).length = t.count := by simp [extremeLeaves]
  obtain ⟨hnone, hsome⟩ := best_leaves t hi (extremeLeaves s t m a) 10 (hlen ▸ count_pos t) (hlen ▸ count_le t)
  unfold extreme
  cases hr : tree (winner t hi) none 10 (extremeLeaves s t m a) with
  | none =>
    refine .inr ⟨rfl, fun j hj => ?_⟩
    by_contra hact
    have hget := (leaves_get (a := a)).2 ⟨hj, by simpa using hact, rfl⟩
    exact Option.some_ne_none _ (hnone hr _ (List.mem_of_getElem? hget))
  | some x =>
    obtain ⟨i, hget, hbest, hfirst⟩ := hsome x hr
    obtain ⟨hi, hact, rfl⟩ := leaves_get.1 hget
    exact .inl ⟨i, rfl, hact, hi, fun j hj hj' => hbest j (elemOf s t a j, j) (leaves_get.2 ⟨hj, hj', rfl⟩),
      fun j hj hj' => hfirst j (elemOf s t a j, j) hj (leaves_get.2 ⟨hj.trans hi, hj', rfl⟩)⟩

/-- The value written is the winner's, a NaN as the canonical one. -/
theorem winnerOf_value (i : ℕ) : (winnerOf t hi t.count (some (elemOf s t a i, i))).2
    = if t.isInt = false ∧ readVal t (elemOf s t a i) = .nan then (fmtOf t).elim 0 (fun f => f.nan) else elemOf s t a i := by
  by_cases ht : t.isInt = true
  · simp [winnerOf, ht]
  · have hf : t.isInt = false := by simpa using ht
    simp only [winnerOf, hf, true_and]
    by_cases hnan : readVal t (elemOf s t a i) = .nan
    · rw [if_pos hnan, hnan]
      exact writeVal_nan hf
    · rw [if_neg hnan]
      exact write_read t hf _ (elemOf_lt s t a i) hnan

theorem width_le (t : ElemType) : t.width ≤ 64 := by cases t <;> decide
theorem elemOf_lt_word (i : ℕ) : elemOf s t a i < 2 ^ 64 := (elemOf_lt s t a i).trans_le (Nat.pow_le_pow_right (by omega) (width_le t))
theorem nan_lt_word (t : ElemType) : (fmtOf t).elim 0 (fun f => f.nan) < 2 ^ 64 := by cases t <;> decide
theorem redIdentity_lt_word (t : ElemType) (op : RedOp) : redIdentity t op < 2 ^ 64 := by rw [identity_eq]; cases t <;> cases op <;> decide

/-- The index and the value fit in their words. -/
theorem extreme_lt (s : State) (t : ElemType) (hi : Bool) (m a : ℕ) : (extreme s t hi m a).1 ≤ 1024 ∧ (extreme s t hi m a).2 < 2 ^ 64 := by
  rcases extreme_cases s t hi m a with ⟨i, h, -, hlt, -⟩ | ⟨h, -⟩
  · rw [h, winnerOf_value]
    refine ⟨hlt.le.trans (count_le t), ?_⟩
    split
    · exact nan_lt_word t
    · exact elemOf_lt_word i
  · rw [h]
    exact ⟨count_le t, redIdentity_lt_word t _⟩

theorem toNat_ofNat_small {x : ℕ} (h : x < 2 ^ 128) : (BitVec.ofNat 4096 x).toNat = x := by
  rw [BitVec.toNat_ofNat]
  exact Nat.mod_eq_of_lt (h.trans_le (Nat.pow_le_pow_right Nat.two_pos (by omega)))

/-- The bits of bytes 0 to 3 and 8 to 15. -/
theorem extremeBits_getLsbD (i : ℕ) : (BitVec.ofNat 4096 (2 ^ 32 - 1 + (2 ^ 64 - 1) * 2 ^ 64)).getLsbD i = decide (i < 32 ∨ (64 ≤ i ∧ i < 128)) := by
  rw [BitVec.getLsbD_ofNat, Nat.add_comm, Nat.mul_comm, Nat.testBit_two_pow_mul_add _ (by omega), Nat.testBit_two_pow_sub_one, Nat.testBit_two_pow_sub_one, Bool.eq_iff_iff]
  split <;> simp only [Bool.and_eq_true, decide_eq_true_iff] <;> omega

end Sys2Proof.Machine

open Sys2Proof.Machine in
/-- Settles O32: the results of VCVT by `give_each`, its elements by `convertElem_eq`; the reductions by the laws of the tree, the winner by `extreme_cases`. -/
theorem vectorPermutes : Obligations.VectorPermutes := by
  intro s q m d a b k kb idx base t sty sat rm op n rs rd nan identity leaf node beats wins tells
  have hnode : redNode t op rm = node := funext₂ (node_eq t op rm)
  have hident (op : Sys2Proof.RedOp) : redIdentity t op = identity op := identity_eq t op
  have lanes (cls w d : ℕ) (act : ℕ → Bool) (f : ℕ → ℕ) := giveLanes_gives s cls w d act f
  have hbeats (hi : Bool) (i j : ℕ) : rightWins t hi (elemOf s t a j) (elemOf s t a i) = true ↔ beats hi i j := rightWins_iff t hi _ _
  have hwins (hi : Bool) : wins hi (extreme s t hi m a).1 (extreme s t hi m a).2 := by
    rcases extreme_cases s t hi m a with ⟨i, h, hact, hlt, hbest, hfirst⟩ | ⟨h, hnone⟩
    · rw [h]
      exact .inl ⟨hact, hlt, fun j hj hj' hb => Bool.false_ne_true ((hbest j hj hj').symm.trans ((hbeats hi j i).2 hb)), fun j hj hj' => (hbeats hi i j).1 (hfirst j hj hj'), winnerOf_value i⟩
    · rw [h]
      exact .inr ⟨hnone, rfl, hident _⟩
  have htells (hi : Bool) : tells hi (extremeOp t hi m d a s) := by
    obtain ⟨hidx, hval⟩ := extreme_lt s t hi m a
    refine ⟨_, _, extremeOp_eq s t hi m d a ▸ give_gives s 6 _, extremeBits_getLsbD, ?_⟩
    have hw := hwins hi
    generalize extreme s t hi m a = w at *
    have hbits : (BitVec.ofNat 4096 (w.1 + w.2 * 2 ^ 64)).toNat = w.1 + w.2 * 2 ^ 64 := toNat_ofNat_small (by omega)
    have hlow : (w.1 + w.2 * 2 ^ 64) % 2 ^ 32 = w.1 := by omega
    have hhigh : (w.1 + w.2 * 2 ^ 64) / 2 ^ 64 % 2 ^ 64 = w.2 := by omega
    rw [hbits, hlow, hhigh]
    exact hw
  refine ⟨acts_by (execVcvt q m t sty sat rm d a s) rfl rfl ?cvt, fun x => ⟨convertElem_eq t sty sat rm x, fun h => ⟨_, _, _, readVal_int h x, (congrArg FVal.number (readVal_int h x)).trans (number_ofInt _), rfl⟩⟩,
    fun ht => ⟨rfl, fun b => rfl, fun b k e => ⟨_, roundInt_rounds rm b k e, rfl⟩⟩, acts_of rfl (lanes ..), acts_of rfl (lanes ..), acts_by (execVreds q m t op rm d a s) rfl rfl ?sum,
    fun f z k j l r => ⟨fun x => tree_single f z x k, tree_append f z j k l r⟩, acts_of rfl (htells true), acts_of rfl (htells false), acts_by (execVrng q m d k kb base s) rfl rfl (lanes ..),
    fun h => acts_by (execKfromv q t d a idx s) rfl rfl ?signed, fun h => acts_by (execKfromv q t d a idx s) rfl rfl ?unsigned⟩
  case cvt =>
    obtain ⟨r, hr⟩ := Nat.exists_eq_add_of_le' (cvtDstRegs_pos t sty)
    have hfold := give_each s 5 (fun r => .vec (s.vphys (d + r)) (cvtBits s t sty m r) (cvtValue s t sty sat rm m a r)) r
    rw [← hr] at hfold
    obtain ⟨honly, hcp, hmem, hpend⟩ := hfold
    exact ⟨_, _, honly, hcp, hmem, hpend, fun r l _ hl => cvt_lanes hl⟩
  case sum => rw [hnode]; simp only [hident]; exact lanes ..
  case signed => rw [if_pos h]; exact give_gives s 5 _
  case unsigned => rw [if_neg (by simp [h])]; exact give_gives s 5 _
end

section
/-! The CP's memory words and the special functions (13 R222-R226, 08 R134, R135): a write of some bits of a register to the area, and the rows of the special functions that the spec states. -/

namespace Sys2Proof.Machine

variable {s t u : State}

/-! ## Bytes of a number -/

theorem natBytes_getD (n v j : ℕ) (h : j < n) : (natBytes n v).getD j 0 = BitVec.ofNat 8 (v / 256 ^ j) := by
  induction n generalizing v j with
  | zero => omega
  | succ n ih =>
    cases j with
    | zero => simp [natBytes]
    | succ j =>
      rw [pow_succ', ← Nat.div_div_eq_div_mul]
      exact ih (v / 256) j (by omega)

/-- Bit e of byte j of a number. -/
theorem natBytes_getLsbD (n v j e : ℕ) (hj : j < n) (he : e < 8) : ((natBytes n v).getD j 0).getLsbD e = v.testBit (8 * j + e) := by
  rw [natBytes_getD n v j hj, BitVec.getLsbD_ofNat, show (256 : ℕ) ^ j = 2 ^ (8 * j) by rw [pow_mul]; rfl, Nat.testBit_div_two_pow, Nat.add_comm e]
  simp [he]

/-! ## A write of some bits of the slice (13 R208, R224) -/

theorem arch_spadWrite (s : State) (c a : ℕ) (bs : List Byte) : (s.spadWrite c a bs).arch c = s.arch c := by
  simp only [State.arch, State.spadWrite, core_modCore, spadWrite_arch]

theorem onlyCore_spadWrite (s : State) (c a : ℕ) (bs : List Byte) : OnlyCore s (s.spadWrite c a bs) c := onlyCore_modCore s c _

theorem c_keepsRest {c : ℕ} (h : KeepsRest s t c) : t.c = s.c := by rw [State.c, h.1]; rfl

theorem areaOf_arch {c : ℕ} (h : t.arch c = s.arch c) : areaOf t c = areaOf s c := by simp only [areaOf, State.run, h]

/-- A write of the area is one of the slice at the area's place, also where other parts of the slice have been written before. -/
theorem areaWrite_eq (h : KeepsRest s t s.c) (ha : t.arch s.c = s.arch s.c) (off n v : ℕ) : t.areaWrite off n v = t.spadWrite s.c (areaOf s s.c + off) (natBytes n v) := by
  rw [State.areaWrite, c_keepsRest h, areaOf_arch ha]

theorem areaRead_byte (h : KeepsRest s t s.c) (ha : t.arch s.c = s.arch s.c) (off : ℕ) : t.areaRead off 1 = (memByte (t.core s.c).spad (areaOf s s.c + off)).toNat := by
  rw [State.areaRead, c_keepsRest h, areaOf_arch ha]
  simp [State.spadRead, memBytes, bytesNat]

/-- From s to t the n bytes at a place of core c's slice have received the bits that `bit` marks, from `val`, and nothing else has changed but what the core notes of a write. -/
structure BitsWritten (s t : State) (c a n : ℕ) (bit val : ℕ → Bool) : Prop where
  rest : KeepsRest s t c
  arch : t.arch c = s.arch c
  wf : (t.core c).spad.wf = true
  out : ∀ y, y < a ∨ a + n ≤ y → memByte (t.core c).spad y = memByte (s.core c).spad y
  bits : ∀ j e, j < n → e < 8 → (memByte (t.core c).spad (a + j)).getLsbD e = if bit (8 * j + e) then val (8 * j + e) else (memByte (s.core c).spad (a + j)).getLsbD e

section
variable {c a n : ℕ} {bit val : ℕ → Bool}

/-- Where no bit is marked nothing is written. -/
theorem BitsWritten.none (hwf : (s.core c).spad.wf = true) (h : ∀ i, i < 8 * n → bit i = false) : BitsWritten s s c a n bit val :=
  ⟨keepsRest_refl s c, rfl, hwf, fun _ _ => rfl, fun j e hj he => by rw [h (8 * j + e) (by omega)]; rfl⟩

/-- Bytes are written whole. -/
theorem BitsWritten.bytes (hwf : (s.core c).spad.wf = true) (bs : List Byte)
    (h : ∀ j e, j < bs.length → e < 8 → (bs.getD j 0).getLsbD e = if bit (8 * j + e) then val (8 * j + e) else (memByte (s.core c).spad (a + j)).getLsbD e) :
    BitsWritten s (s.spadWrite c a bs) c a bs.length bit val := by
  have hbyte (x : ℕ) := spadByte_spadWrite hwf a c x bs
  refine ⟨(onlyCore_spadWrite s c a bs).keepsRest, arch_spadWrite s c a bs, ?_, fun y hy => ?_, fun j e hj he => ?_⟩
  · simp only [State.spadWrite, core_modCore]; exact spadWrite_wf hwf a bs
  · rw [hbyte, if_neg (by omega)]
  · rw [hbyte, if_pos ⟨rfl, by omega, by omega⟩, Nat.add_sub_cancel_left]
    exact h j e hj he

/-- Bits written to some bytes, and then to those behind them. -/
theorem BitsWritten.append {m : ℕ} (h : BitsWritten s t c a n bit val) (g : BitsWritten t u c (a + n) m (fun i => bit (8 * n + i)) (fun i => val (8 * n + i))) :
    BitsWritten s u c a (n + m) bit val := by
  refine ⟨keepsRest_trans h.rest g.rest, g.arch.trans h.arch, g.wf, fun y hy => ?_, fun j e hj he => ?_⟩
  · rw [g.out y (by omega), h.out y (by omega)]
  · by_cases hn : j < n
    · rw [g.out (a + j) (by omega)]
      exact h.bits j e hn he
    · obtain ⟨i, rfl⟩ := Nat.exists_eq_add_of_le (Nat.not_lt.1 hn)
      have hgi := g.bits i e (by omega) he
      rw [Nat.add_assoc a n i, h.out (a + (n + i)) (by omega)] at hgi
      rw [hgi, show 8 * n + (8 * i + e) = 8 * (n + i) + e by ring]

end

/-- The state after one masked byte: where no bit is marked it stays, and else the marked bits are merged into it. -/
theorem areaMasked_succ (off bits value n : ℕ) (t : State) : areaMasked off bits value (n + 1) t =
    let u := areaMasked off bits value n t
    let m := bits / 256 ^ n % 256
    if m = 0 then u else u.areaWrite (off + n) 1 ((u.areaRead (off + n) 1 &&& (255 - m)) ||| (value / 256 ^ n % 256 &&& m)) := rfl

theorem testBit_byte (x n e : ℕ) (he : e < 8) : (x / 256 ^ n % 256).testBit e = x.testBit (8 * n + e) := by
  rw [show (256 : ℕ) ^ n = 2 ^ (8 * n) by rw [pow_mul]; rfl, show 256 = 2 ^ 8 from rfl, Nat.testBit_mod_two_pow, Nat.testBit_div_two_pow, Nat.add_comm e]
  simp [he]

/-- A merge of two bytes under a mask. -/
theorem merge_testBit {old value mask e : ℕ} (hm : mask < 256) (he : e < 8) :
    ((old &&& (255 - mask)) ||| (value &&& mask)).testBit e = if mask.testBit e then value.testBit e else old.testBit e := by
  have hnot : (255 - mask).testBit e = !mask.testBit e := by
    rw [show 255 - mask = 2 ^ 8 - (mask + 1) by omega, Nat.testBit_two_pow_sub_succ hm]
    simp [he]
  rw [Nat.testBit_or, Nat.testBit_and, Nat.testBit_and, hnot]
  cases mask.testBit e <;> simp

theorem areaMasked_writes (h : KeepsRest s t s.c) (ha : t.arch s.c = s.arch s.c) (hwf : (t.core s.c).spad.wf = true) (off bits value n : ℕ) :
    BitsWritten t (areaMasked off bits value n t) s.c (areaOf s s.c + off) n bits.testBit value.testBit := by
  induction n with
  | zero => exact .none hwf fun i hi => by omega
  | succ n ih =>
    refine ih.append ?_
    rw [areaMasked_succ]
    have hrest := keepsRest_trans h ih.rest
    have harch := ih.arch.trans ha
    have hwf' := ih.wf
    generalize areaMasked off bits value n t = u at *
    have hmask (e : ℕ) (he : e < 8) := testBit_byte bits n e he
    simp only
    split
    next h0 =>
      refine .none hwf' fun i hi => ?_
      rw [← hmask i (by omega), h0, Nat.zero_testBit]
    next =>
      rw [areaWrite_eq hrest harch, areaRead_byte hrest harch, ← Nat.add_assoc]
      refine .bytes (bs := natBytes 1 _) hwf' fun j e hj he => ?_
      obtain rfl : j = 0 := by simpa using hj
      rw [natBytes_getLsbD 1 _ 0 e Nat.one_pos he, Nat.mul_zero, Nat.zero_add, merge_testBit (Nat.mod_lt _ (by omega)) he, hmask e he, testBit_byte value n e he]
      rfl

/-- A masked write of one granule of a register: a granule with every bit marked is written whole (25 R350). -/
def storeGranule (off bits value : ℕ) (t : State) : State :=
  if bits = 0 then t else if bits = 2 ^ 512 - 1 then t.areaWrite off 64 value else areaMasked off bits value 64 t

theorem storeGranule_writes (h : KeepsRest s t s.c) (ha : t.arch s.c = s.arch s.c) (hwf : (t.core s.c).spad.wf = true) (off bits value : ℕ) :
    BitsWritten t (storeGranule off bits value t) s.c (areaOf s s.c + off) 64 bits.testBit value.testBit := by
  unfold storeGranule
  split
  next h0 => exact .none hwf fun i _ => by rw [h0, Nat.zero_testBit]
  next =>
    split
    next h1 =>
      rw [areaWrite_eq h ha]
      refine .bytes (bs := natBytes 64 value) hwf fun j e hj he => ?_
      rw [natBytes_length] at hj
      rw [natBytes_getLsbD 64 value j e hj he, h1, Nat.testBit_two_pow_sub_one]
      simp [show 8 * j + e < 512 by omega]
    next => exact areaMasked_writes h ha hwf off bits value 64

/-- The first n granules of a masked write of a register. -/
def storeGranules (off bits value n : ℕ) (s : State) : State :=
  (List.range n).foldl (fun t g => storeGranule (off + 64 * g) (bits / 2 ^ (512 * g) % 2 ^ 512) (value / 2 ^ (512 * g) % 2 ^ 512) t) s

theorem areaStore_eq (off bits value : ℕ) (s : State) : areaStore off bits value s = storeGranules off bits value 8 s := rfl

theorem storeGranules_succ (off bits value n : ℕ) (s : State) : storeGranules off bits value (n + 1) s =
    storeGranule (off + 64 * n) (bits / 2 ^ (512 * n) % 2 ^ 512) (value / 2 ^ (512 * n) % 2 ^ 512) (storeGranules off bits value n s) := by
  simp only [storeGranules, List.range_succ, List.foldl_append, List.foldl_cons, List.foldl_nil]

theorem testBit_granule (x g i : ℕ) (hi : i < 512) : (x / 2 ^ (512 * g) % 2 ^ 512).testBit i = x.testBit (512 * g + i) := by
  rw [Nat.testBit_mod_two_pow, Nat.testBit_div_two_pow, Nat.add_comm i]
  simp [hi]

theorem BitsWritten.congr {c a n : ℕ} {bit val bit' val' : ℕ → Bool} (h : BitsWritten s t c a n bit val) (hb : ∀ i, i < 8 * n → bit i = bit' i) (hv : ∀ i, i < 8 * n → val i = val' i) :
    BitsWritten s t c a n bit' val' :=
  ⟨h.rest, h.arch, h.wf, h.out, fun j e hj he => by rw [h.bits j e hj he, hb _ (by omega), hv _ (by omega)]⟩

theorem storeGranules_writes (hwf : (s.core s.c).spad.wf = true) (off bits value n : ℕ) :
    BitsWritten s (storeGranules off bits value n s) s.c (areaOf s s.c + off) (64 * n) bits.testBit value.testBit := by
  induction n with
  | zero => exact .none hwf fun i hi => by omega
  | succ n ih =>
    rw [storeGranules_succ]
    have hstep := storeGranule_writes ih.rest ih.arch ih.wf (off + 64 * n) (bits / 2 ^ (512 * n) % 2 ^ 512) (value / 2 ^ (512 * n) % 2 ^ 512)
    rw [← Nat.add_assoc] at hstep
    have hbits (x i : ℕ) (hi : i < 8 * 64) : (x / 2 ^ (512 * n) % 2 ^ 512).testBit i = x.testBit (8 * (64 * n) + i) := by
      rw [testBit_granule x n i hi, show 8 * (64 * n) = 512 * n by ring]
    exact ih.append (hstep.congr (hbits bits) (hbits value))

/-- The marked bits of a register are those of its active elements. -/
theorem laneBits_testBit (t : ElemType) (act : ℕ → Bool) (i : ℕ) (hi : i < 4096) : (laneBits t.width t.count act).toNat.testBit i = act (i / t.width) := by
  have hw := width_pos t
  have hcount : t.width * t.count = 4096 := by cases t <;> rfl
  have hlane := (lanes_of t.width t.count act (fun _ => 0) hcount.le (i / t.width) ((Nat.div_lt_iff_lt_mul hw).2 (by rw [Nat.mul_comm, hcount]; exact hi))).1
  have hmod : i % t.width < t.width := Nat.mod_lt i hw
  have hbit := congrArg (fun x => x.testBit (i % t.width)) hlane
  simp only [lane, Nat.testBit_mod_two_pow, Nat.testBit_div_two_pow, hmod, decide_true, Bool.true_and, Nat.mod_add_div] at hbit
  rw [hbit]
  cases act (i / t.width) <;> simp [Nat.testBit_two_pow_sub_one, hmod]

/-! ## Gathers and scatters (13 R226) -/

/-- The entry of an element in a list of elements with a value. -/
theorem find_filter_map {α : Type} (p : ℕ → Bool) (f : ℕ → α) (l : List ℕ) (i : ℕ) (hl : i ∈ l) (hp : p i = true) :
    ((l.filter p).map (fun j => (j, f j))).find? (fun x => x.1 == i) = some (i, f i) := by
  induction l with
  | nil => cases hl
  | cons x l ih =>
    by_cases hx : x = i
    · subst hx; simp [hp]
    · have hi : i ∈ l := (List.mem_cons.1 hl).resolve_left (Ne.symm hx)
      by_cases hpx : p x = true
      · simpa [hpx, hx] using ih hi
      · simpa [hpx] using ih hi

theorem gatherOffs_find (s : State) (m : ℕ) (t : ElemType) (k b i : ℕ) (hi : i < t.count) (hact : s.active m i = true) : (gatherOffs s m t k b).find? (fun p => p.1 == i) =
    some (i, (s.kreg k + BitVec.ofNat 64 (lane 32 (s.vreg (b + i % gathRegs t)) (i / gathRegs t) * (t.width / 8))).toInt) :=
  find_filter_map (s.active m) _ (List.range t.count) i (List.mem_range.2 hi) hact

/-- Writes of the area one after another are writes of the slice at the area's place. -/
theorem areaWrites_eq {α : Type} (off : α → ℕ) (n : ℕ) (val : α → ℕ) (l : List α) (h : KeepsRest s t s.c) (ha : t.arch s.c = s.arch s.c) :
    let u := l.foldl (fun v p => v.areaWrite (off p) n (val p)) t
    KeepsRest s u s.c ∧ u.arch s.c = s.arch s.c ∧ u = l.foldl (fun v p => v.spadWrite s.c (areaOf s s.c + off p) (natBytes n (val p))) t := by
  induction l generalizing t with
  | nil => exact ⟨h, ha, rfl⟩
  | cons p l ih =>
    simp only [List.foldl_cons, areaWrite_eq h ha]
    exact ih (keepsRest_trans h (onlyCore_spadWrite t s.c _ _).keepsRest) ((arch_spadWrite t s.c _ _).trans ha)

/-! ## Special functions (08 R134) -/

section
variable {acc : Bool} {rm : Rm} {x : BitVec 32}

/-- What the four special functions give of one operand, under a grade and a mode. -/
def SpecialRow (acc : Bool) (rm : Rm) (x : BitVec 32) (e l r q : ℕ) : Prop := exp2F acc x = e ∧ log2F acc x = l ∧ rcpF acc rm x = r ∧ rsqF acc rm x = q

theorem special_nan (h : flushIn acc x.toNat = .nan) : SpecialRow acc rm x 0x7FC00000 0x7FC00000 0x7FC00000 0x7FC00000 := by
  simp only [SpecialRow, exp2F, log2F, rcpF, rsqF, h, fmtF32, and_self]

theorem special_inf (h : flushIn acc x.toNat = .inf false) : SpecialRow acc rm x 0x7F800000 0x7F800000 0 0 := by
  simp only [SpecialRow, exp2F, log2F, rcpF, rsqF, h]
  exact ⟨rfl, rfl, rfl, rfl⟩

theorem special_negInf (h : flushIn acc x.toNat = .inf true) : SpecialRow acc rm x 0 0x7FC00000 0x80000000 0x7FC00000 := by
  simp only [SpecialRow, exp2F, log2F, rcpF, rsqF, h]
  exact ⟨rfl, rfl, rfl, rfl⟩

theorem special_zero {b : Bool} {e : ℤ} (h : flushIn acc x.toNat = .fin b 0 e) :
    SpecialRow acc rm x 0x3F800000 0xFF800000 ((if b then 0x80000000 else 0) + 0x7F800000) ((if b then 0x80000000 else 0) + 0x7F800000) := by
  cases b <;> simp [SpecialRow, exp2F, log2F, rcpF, rsqF, h, Fmt.sign, Fmt.infBits, fmtF32]

/-- No logarithm and no root of a negative number. -/
theorem special_negative {n : ℕ} {e : ℤ} (h : flushIn acc x.toNat = .fin true n e) (hn : n ≠ 0) : log2F acc x = 0x7FC00000 ∧ rsqF acc rm x = 0x7FC00000 := by
  simp only [log2F, rsqF, h, if_neg hn, if_true]
  exact ⟨rfl, rfl⟩

/-- A value with a number other than 0 is finite, and its sign is that of its number. -/
theorem fin_of_number {u : FVal} (h : u.number ≠ 0) : ∃ n e, n ≠ 0 ∧ u = .fin (decide (u.number < 0)) n e ∧ |1 / u.number| = 1 / (FVal.fin false n e).number := by
  cases u with
  | nan => exact absurd rfl h
  | inf => exact absurd rfl h
  | fin b n e =>
    have hn : n ≠ 0 := fun h0 => h (by rw [h0, number_fin]; simp)
    have hpos : (0 : ℚ) < n * (2 : ℚ) ^ e := by positivity
    have hnum : (FVal.fin b n e).number = if b then -(n * (2 : ℚ) ^ e) else n * (2 : ℚ) ^ e := by rw [number_fin]; cases b <;> simp
    have hpos' : (FVal.fin false n e).number = n * (2 : ℚ) ^ e := by rw [number_fin]; simp
    refine ⟨n, e, hn, ?_, ?_⟩
    · rw [hnum]; cases b <;> simp [hpos, hpos.le]
    · rw [hnum, hpos', abs_div, abs_one]
      cases b <;> simp [abs_of_pos hpos]

end

/-! ## The cubic unit (08 R135) -/

section
variable {rm : Rm} {table : BitVec 10240} {x : BitVec 32}

/-- The 32-bit word of the table at a byte. -/
def tableWord (table : BitVec 10240) (byte : ℕ) : ℕ := table.toNat / 2 ^ (8 * byte) % 2 ^ 32

/-- The breakpoint of segment j is a number not above x. -/
def segmentStarts (table : BitVec 10240) (x : BitVec 32) (j : ℕ) : Bool := !(f32 (tableWord table (4 * j))).isNan && !((f32 x.toNat).lt (f32 (tableWord table (4 * j))))

/-- The segment that VPWP evaluates. -/
def segment (table : BitVec 10240) (x : BitVec 32) : ℕ := (List.range 64).foldl (fun best j => if segmentStarts table x j then j else best) 0

theorem segmentStarts_iff {j : ℕ} : segmentStarts table x j = true ↔ readVal .f32 (tableWord table (4 * j)) ≠ .nan ∧ (readVal .f32 x.toNat).lt (readVal .f32 (tableWord table (4 * j))) = false := by
  have hnan := isNan_iff (f32 (tableWord table (4 * j)))
  rw [segmentStarts, Bool.and_eq_true, Bool.not_eq_true', Bool.not_eq_true', ← Bool.not_eq_true, hnan]
  rfl

theorem pwpF_nan (h : readVal .f32 x.toNat = .nan) : pwpF rm table x = 0x7FC00000 := if_pos ((isNan_iff (f32 x.toNat)).2 h)

/-- VPWP evaluates the cubic of its segment at the distance from the segment's breakpoint. -/
theorem pwpF_number (h : readVal .f32 x.toNat ≠ .nan) : pwpF rm table x =
    let k := segment table x
    let dx := toF32 rm (FVal.add (f32 x.toNat) (f32 (tableWord table (4 * k))).neg)
    let c (j : ℕ) := tableWord table (256 + 16 * k + 4 * j)
    fma32 rm (fma32 rm (fma32 rm (c 3) dx (c 2)) dx (c 1)) dx (c 0) := if_neg (mt (isNan_iff (f32 x.toNat)).1 h)

end

end Sys2Proof.Machine

open Sys2Proof.Machine in
/-- Settles O33: the masked write of VST is that of `storeGranules_writes`, the offsets of VGATH those of `gatherOffs_find`, and the special functions and the cubic unit give the rows of `SpecialRow` and the value of `pwpF_number`. -/
theorem vectorMemory : Obligations.VectorMemory := by
  intro s q m d a b c k rg ch t acc rm x cls f32 at_ load wf g
  have special (cls' : ℕ) (f : BitVec 32 → ℕ) : f32 f cls' (specialOp cls' m d a f s) := giveLanes_gives s cls' 32 d (s.active m) _
  have loaded (w : CpWrite) : GivesCp s (latOf s s.c 11) w (s.giveLoad 11 w) := giveLoad_gives s 11 w
  refine ⟨acts_of rfl (special _ _), acts_of rfl (special _ _), acts_of rfl (special _ _), acts_of rfl (special _ _), acts_by (execVpwp q m rm d a s) rfl rfl (special _ _),
    acts_by (execPwld q k x s) rfl rfl (loaded _), fun hwf => acts_by (execPwst q k x s) rfl rfl ⟨?pwst, onlyCore_spadWrite s s.c _ _, arch_spadWrite s s.c _ _⟩,
    acts_by (execVld q m t d k x s) rfl rfl ⟨_, _, loaded _, ?vldValue, fun i hi => ?vldBits⟩, acts_by (execKld q d k x s) rfl rfl (loaded _), acts_by (execVldr q d rg k ch false s) rfl rfl (loaded _),
    acts_by (execVldr q d rg k ch true s) rfl rfl ⟨_, loaded _, rfl⟩, acts_by (execVgath q m t d k b s) rfl rfl ⟨_, _, giveLoad_gives s 12 _, fun i hi => ?vgath⟩,
    fun hwf => acts_by (execVst q m t b k x s) rfl rfl ?vst, acts_by (execVscat q m t k b c s) rfl rfl ?vscat, ?special, ?cubic⟩
  case pwst => exact (locWrite_spec (l := .slice s.c (at_ 64)) hwf _).1
  case vldValue => exact BitVec.toNat_ofNat ..
  case vldBits => exact (lanes_of t.width t.count (s.active m) (fun _ => 0) (Nat.mul_div_le 4096 t.width) i hi).1
  case vgath =>
    have hlanes := lanes_of t.width t.count (s.active m) (fun i => match (gatherOffs s m t k b).find? (fun p => p.1 == i) with
      | some p => s.areaRead p.2.toNat (t.width / 8) | none => 0) (Nat.mul_div_le 4096 t.width) i hi
    refine ⟨hlanes.1, fun hact => (hlanes.2 hact).trans ?_⟩
    rw [gatherOffs_find s m t k b i hi hact]
    exact congrArg (· % 2 ^ t.width) (if_pos ⟨hact, hi⟩).symm
  case vst =>
    have hstore := storeGranules_writes hwf (s.areaOff k x 64).toNat (laneBits t.width t.count (s.active m)).toNat (s.vreg b).toNat 8
    rw [← areaStore_eq] at hstore
    refine ⟨hstore.rest, hstore.arch, hstore.out, fun j e hj he => ?_⟩
    rw [← laneBits_testBit t (s.active m) (8 * j + e) (by omega)]
    exact hstore.bits j e hj he
  case vscat => exact areaWrites_eq _ _ _ _ (keepsRest_refl s s.c) rfl
  case special =>
    intro acc x u seen all
    have hseen (h : seen) : flushIn acc x.toNat = u := flushIn_eq acc x h
    have hexp (h : x.toNat / 2 ^ 23 % 256 = 255) : seen := .inr (by omega)
    obtain ⟨hinf, hnan⟩ := f32_cases x
    refine ⟨fun h => special_nan ((hseen (hexp (hnan h))).trans h), fun h => special_inf ((hseen (hexp (hinf _ h).2)).trans h), fun h => special_negInf ((hseen (hexp (hinf _ h).2)).trans h),
      fun h => ?zero, fun hs hneg => ?negative, exp2_big acc x, fun n hn => ⟨fun h1 h2 hfin he => exp2_int acc x n h1 h2 hn hfin he, log2_pow acc x n hn⟩, fun h => ?recip⟩
    case zero =>
      have hsign : (if (x.toNat / 2 ^ 31 == 1) = true then 0x80000000 else 0) = x.toNat / 2 ^ 31 * 2 ^ 31 := by
        have hlt := x.isLt
        split
        next h1 => rw [beq_iff_eq] at h1; omega
        next h1 => rw [beq_iff_eq] at h1; omega
      have hrow := special_zero (rm := rm) (flush_zero' acc x h)
      rw [hsign] at hrow
      exact hrow
    case negative =>
      obtain ⟨n, e, hn, hu, -⟩ := fin_of_number hneg.ne
      rw [decide_eq_true hneg] at hu
      exact special_negative ((hseen hs).trans hu) hn
    case recip =>
      obtain ⟨n, e, hn, hu, habs⟩ := fin_of_number h
      rw [habs]
      exact rcp_rounds x rm _ n e hu hn
  case cubic =>
    intro table x k word v starts fma c dx
    refine ⟨pwpF_nan, fun hx hk hstart hlater => ?_⟩
    have hstarts (j : ℕ) : segmentStarts table x j = true ↔ starts j := segmentStarts_iff
    have hseg : segment table x = k := pwp_fold (segmentStarts table x) 64 k hk (hstart.imp_left (hstarts k).2) fun j hj hj' => by
      rw [← Bool.not_eq_true, hstarts]; exact hlater j hj hj'
    rw [pwpF_number hx, hseg]
    rfl
end

section
/-! The checks of a slot of the CP before its effect (27 R360): allotment, predicate, values, units that are not ready. -/

namespace Sys2Proof.Machine

variable {s : State} {i : Instr} {f : FaultInfo}

/-! ## The order of the checks -/

/-- Every instruction of the CP is a slot with an effect. -/
theorem exec_onCp (h : onCp i = true) (s : State) : ∃ act, exec i s = cpSlot i act s := by
  cases i with dsimp only [exec]
  | cpLoop | cpLoopK | rep | repK | br | brc | rot | qset | qclr | qmovQ | qmovK | endk | kadd | kaddi | kmov | kmovLc | kmovRrb
  | vadd | vsub | vmul | vfma | vfms | vmin | vmax | vabs | vneg | vand | vor | vxor | vnot | vshl | vshr | vsra | vadds | vcmpMask | vcmpVec | vsel | vmov | vmovMaskMask
  | vmovMaskVec | vmovVecMask | vbcastK | vbcastImm | vcvt | vshuf | vslide | vreds | vmaxi | vmini | vpopc | vpopcMask | vrng | kfromv | vexp2 | vlog2 | vrcp | vrsq | vpwp
  | pwld | pwst | vld | vst | kld | vldr | vgath | vscat | mma | aclrPeek | aclrImm | anorm | ard | awr | astat | astatDepth | hld | hst | hbind | hpermImm | hpermK | hbun | hclrb
  | hthr | hdist | hnear | hhash | hseed | hpop | hmov | hmovToHt | hmovFromHt | hcfg | pfeed | mldg => exact ⟨_, rfl⟩
  | _ => exact absurd h Bool.false_ne_true

section
variable (hon : onCp i = true)
include hon

theorem exec_unallotted (h : allotOk (allotOf s s.c) i = false) : exec i s = .next (cpTrap s s.c (faultOf 0x03 (slotCode s.who.slot) 0)) := by
  obtain ⟨act, he⟩ := exec_onCp hon s
  rw [he, cpSlot, h]; rfl

variable (ha : allotOk (allotOf s s.c) i = true)
include ha

theorem exec_unpredicated (hq : s.pred (predOf i) = false) : exec i s = .next s := by
  obtain ⟨act, he⟩ := exec_onCp hon s
  rw [he, cpSlot, ha, hq]; rfl

variable (hq : s.pred (predOf i) = true)
include hq

theorem exec_faults (hv : cpValue s i = some f) : exec i s = .next (cpTrap (repPrep s i) s.c f) := by
  obtain ⟨act, he⟩ := exec_onCp hon s
  rw [he, cpSlot, ha, hq, hv]; rfl

theorem exec_waits {w : EngWait} (hv : cpValue s i = none) (hw : cpHold s i = some w) : exec i s = .next (cpWaits s s.c w) := by
  obtain ⟨act, he⟩ := exec_onCp hon s
  rw [he, cpSlot, ha, hq, hv, hw]; rfl

end

/-! ## Waiting (04 R76) -/

theorem cp_countEvent (s : State) (c code n : ℕ) : (countEvent s c code n).cp c = s.cp c := by
  obtain ⟨-, -, harch⟩ := countEvent_spec s c code n
  show ((countEvent s c code n).arch c).seqs.cp = _
  rw [harch]; rfl

/-- The wait begins now, unless the CP waits so already. -/
theorem cpWaits_cp {c : ℕ} {w : EngWait} (h : (s.cp c).wait ≠ w) : (cpWaits s c w).cp c = { s.cp c with wait := w, waitFrom := s.coreTime c } := by
  simp only [cpWaits, if_neg h]
  split
  · rw [cp_countEvent, cp_modCp]
  · rw [cp_modCp]

/-! ## The value checks -/

/-- The answer of a slot's value checks: its own fault, or else the poison of a vector source (25 R350). -/
def checked (s : State) (i : Instr) (own : Option FaultInfo) : Option FaultInfo :=
  match own with
  | some f => some f
  | none => if vecPoison s i then some (faultOf 0x08 8 0) else none

/-- A slot of the CP raises its own fault. -/
theorem exec_raises {own : Option FaultInfo} (hon : onCp i = true) (hv : cpValue s i = checked s i own) (h : own = some f) :
    allotOk (allotOf s s.c) i = true → s.pred (predOf i) = true → exec i s = .next (cpTrap (repPrep s i) s.c f) :=
  fun ha hq => exec_faults hon ha hq (by rw [hv, h]; rfl)

/-- A slot without a fault of its own and without a poisoned vector source passes its value checks. -/
theorem value_passes {own : Option FaultInfo} (hv : cpValue s i = checked s i own) (h : own = none) : vecPoison s i = false → cpValue s i = none :=
  fun hp => by rw [hv, h, checked, hp]; rfl

/-! ### The area (13 R224) -/

section
variable {o : ℤ} {n al : ℕ} {reads : Bool}

/-- The bytes of an access lie in the area. -/
def InArea (s : State) (o : ℤ) (n : ℕ) : Prop := 0 ≤ o ∧ o + n ≤ (spneedOf s s.c : ℤ)

theorem not_inArea : ¬ InArea s o n ↔ o < 0 ∨ (spneedOf s s.c : ℤ) < o + n := by unfold InArea; omega

theorem areaFault_misaligned (h : o % 2 ^ al ≠ 0) : areaFault s s.c o n al reads = some (faultOf 0x06 al (areaAddr s s.c o)) := if_pos h

theorem areaFault_outside (h : o % 2 ^ al = 0) (hn : ¬ InArea s o n) : areaFault s s.c o n al reads = some (faultOf 0x08 9 (areaAddr s s.c o)) := by
  rw [areaFault, if_neg (not_not.2 h), if_pos (not_inArea.1 hn)]

theorem areaFault_inside (h : o % 2 ^ al = 0) (hn : InArea s o n) :
    areaFault s s.c o n al reads = if reads && s.spadPoison s.c (areaOf s s.c + o.toNat) n then some (faultOf 0x08 8 (areaAddr s s.c o)) else none := by
  rw [areaFault, if_neg (not_not.2 h), if_neg (mt not_inArea.2 (not_not.2 hn))]

/-- What an access of the area answers, as 27 R360 says it: alignment, then the area, then poison of what it reads. -/
theorem area_checks (hon : onCp i = true) (hv : cpValue s i = checked s i (areaFault s s.c o n al reads)) :
    let raises (f : FaultInfo) : Prop := allotOk (allotOf s s.c) i = true → s.pred (predOf i) = true → exec i s = .next (cpTrap (repPrep s i) s.c f)
    (o % 2 ^ al ≠ 0 → raises (faultOf 0x06 al (areaAddr s s.c o)))
    ∧ (o % 2 ^ al = 0 → ¬ InArea s o n → raises (faultOf 0x08 9 (areaAddr s s.c o)))
    ∧ (o % 2 ^ al = 0 → InArea s o n → reads = true ∧ s.spadPoison s.c (areaOf s s.c + o.toNat) n = true → raises (faultOf 0x08 8 (areaAddr s s.c o)))
    ∧ (o % 2 ^ al = 0 → InArea s o n → ¬ (reads = true ∧ s.spadPoison s.c (areaOf s s.c + o.toNat) n = true) → vecPoison s i = false → cpValue s i = none) :=
  ⟨fun h => exec_raises hon hv (areaFault_misaligned h), fun h hn => exec_raises hon hv (areaFault_outside h hn),
    fun h hn hp => exec_raises hon hv ((areaFault_inside h hn).trans (if_pos (by rwa [Bool.and_eq_true]))),
    fun h hn hp => value_passes hv ((areaFault_inside h hn).trans (if_neg (by rwa [Bool.and_eq_true])))⟩

end

/-! ### What the active elements touch (13 R208, R224, log 95) -/

theorem foldl_max_le (f : ℕ → ℕ) (l : List ℕ) (a b : ℕ) : l.foldl (fun n i => max n (f i)) a ≤ b ↔ a ≤ b ∧ ∀ i ∈ l, f i ≤ b := by
  induction l generalizing a with
  | nil => simp
  | cons x l ih => rw [List.foldl_cons, ih]; simp [and_assoc]

section
variable {o : ℤ} {t : ElemType} {m : ℕ}

/-- Where the bytes of element j end. -/
def elemEnd (t : ElemType) (j : ℕ) : ℕ := ((j + 1) * t.width + 7) / 8

theorem elemEnd_pos (j : ℕ) : 0 < elemEnd t j := by
  have hw : 0 < (j + 1) * t.width := Nat.mul_pos (by omega) (width_pos t)
  unfold elemEnd
  omega

theorem activeEnd_le (b : ℕ) : activeEnd s t m ≤ b ↔ ∀ j, j < t.count → s.active m j = true → elemEnd t j ≤ b := by
  show List.foldl (fun n i => max n (elemEnd t i)) 0 _ ≤ b ↔ _
  rw [foldl_max_le]
  simp [and_imp]

/-- The active elements lie in the area. -/
theorem activeEnd_inArea : (∀ j, j < t.count → s.active m j = true → InArea s o (elemEnd t j)) ↔ (0 < activeEnd s t m → InArea s o (activeEnd s t m)) := by
  constructor
  · intro h hpos
    have hex : ¬ ∀ j, j < t.count → s.active m j = true → elemEnd t j ≤ 0 := mt (activeEnd_le 0).2 (by omega)
    push Not at hex
    obtain ⟨j, hj, hact, -⟩ := hex
    obtain ⟨h0, hend⟩ := h j hj hact
    have hle : activeEnd s t m ≤ ((spneedOf s s.c : ℤ) - o).toNat := (activeEnd_le _).2 fun j hj hact => by
      obtain ⟨-, hend⟩ := h j hj hact
      omega
    exact ⟨h0, by omega⟩
  · intro h j hj hact
    have hle := (activeEnd_le (s := s) (m := m) _).1 le_rfl j hj hact
    obtain ⟨h0, hend⟩ := h ((elemEnd_pos j).trans_le hle)
    exact ⟨h0, by omega⟩

theorem laneFault_misaligned (h : o % 64 ≠ 0) : laneFault s o t m = some (faultOf 0x06 6 (areaAddr s s.c o)) := if_pos h

theorem laneFault_outside (h : o % 64 = 0) (hn : ¬ ∀ j, j < t.count → s.active m j = true → InArea s o (elemEnd t j)) : laneFault s o t m = some (faultOf 0x08 9 (areaAddr s s.c o)) := by
  rw [activeEnd_inArea, Classical.not_imp, not_inArea] at hn
  simp only [laneFault, if_neg (not_not.2 h), if_pos hn]

theorem laneFault_inside (h : o % 64 = 0) (hn : ∀ j, j < t.count → s.active m j = true → InArea s o (elemEnd t j)) : laneFault s o t m = none := by
  have hno : ¬ (0 < activeEnd s t m ∧ (o < 0 ∨ (spneedOf s s.c : ℤ) < o + activeEnd s t m)) := fun ⟨hpos, hout⟩ => not_inArea.2 hout (activeEnd_inArea.1 hn hpos)
  simp only [laneFault, if_neg (not_not.2 h), if_neg hno]

/-- What an access of the active elements answers, as 27 R360 says it: alignment, then the area, then poison of what it reads. -/
theorem lane_checks {own : Option FaultInfo} {poisoned : Prop} (hon : onCp i = true) (hv : cpValue s i = checked s i own)
    (hf : ∀ f, laneFault s o t m = some f → own = some f)
    (hbad : laneFault s o t m = none → poisoned → own = some (faultOf 0x08 8 (areaAddr s s.c o))) (hgood : laneFault s o t m = none → ¬ poisoned → own = none) :
    let raises (f : FaultInfo) : Prop := allotOk (allotOf s s.c) i = true → s.pred (predOf i) = true → exec i s = .next (cpTrap (repPrep s i) s.c f)
    let within : Prop := ∀ j, j < t.count → s.active m j = true → InArea s o (elemEnd t j)
    (o % 64 ≠ 0 → raises (faultOf 0x06 6 (areaAddr s s.c o)))
    ∧ (o % 64 = 0 → ¬ within → raises (faultOf 0x08 9 (areaAddr s s.c o)))
    ∧ (o % 64 = 0 → within → poisoned → raises (faultOf 0x08 8 (areaAddr s s.c o)))
    ∧ (o % 64 = 0 → within → ¬ poisoned → vecPoison s i = false → cpValue s i = none) :=
  ⟨fun h => exec_raises hon hv (hf _ (laneFault_misaligned h)), fun h hn => exec_raises hon hv (hf _ (laneFault_outside h hn)),
    fun h hn hp => exec_raises hon hv (hbad (laneFault_inside h hn) hp), fun h hn hp => value_passes hv (hgood (laneFault_inside h hn) hp)⟩

end

section
variable (q m k : ℕ) (t : ElemType) (x : BitVec 9)

theorem vst_checks (b : ℕ) : cpValue s (.vst q m t b k x) = checked s (.vst q m t b k x) (laneFault s (s.areaOff k x 64) t m) := rfl

/-- What VLD itself answers. -/
def loadFault (s : State) (o : ℤ) (t : ElemType) (m : ℕ) : Option FaultInfo :=
  match laneFault s o t m with
  | some f => some f
  | none => if maskedPoison s o t m then some (faultOf 0x08 8 (areaAddr s s.c o)) else none

theorem loadFault_lane {o : ℤ} (h : laneFault s o t m = some f) : loadFault s o t m = some f := by rw [loadFault, h]

theorem loadFault_noLane {o : ℤ} (h : laneFault s o t m = none) : loadFault s o t m = if maskedPoison s o t m then some (faultOf 0x08 8 (areaAddr s s.c o)) else none := by
  rw [loadFault, h]

theorem vld_checks (d : ℕ) : cpValue s (.vld q m t d k x) = checked s (.vld q m t d k x) (loadFault s (s.areaOff k x 64) t m) := rfl

end

/-! ### Gathers (13 R226) -/

/-- The first fault of a list is the one that no fault stands before. -/
theorem firstOf_get {l : List (Option FaultInfo)} {j : ℕ} (h : l[j]? = some (some f)) (hb : ∀ x ∈ l.take j, x = none) : firstOf l = some f := by
  induction l generalizing j with
  | nil => simp at h
  | cons x l ih =>
    cases j with
    | zero =>
      obtain rfl : x = some f := by simpa using h
      rfl
    | succ j =>
      obtain rfl : x = none := hb x (by simp)
      exact ih (by simpa using h) fun y hy => hb y (by simp [hy])

theorem gatherFault_misaligned {m k b : ℕ} {t : ElemType} {reads : Bool} (h : (s.kreg k).toInt % 2 ^ Nat.log2 (t.width / 8) ≠ 0) :
    gatherFault s m t k b reads = some (faultOf 0x06 (Nat.log2 (t.width / 8)) (areaAddr s s.c (s.kreg k).toInt)) := if_pos h

theorem scatterFault_outside {m k b j : ℕ} {t : ElemType} {p : ℕ × ℤ} (h : (s.kreg k).toInt % 2 ^ Nat.log2 (t.width / 8) = 0) (hj : (gatherOffs s m t k b)[j]? = some p)
    (hp : ¬ InArea s p.2 (t.width / 8)) (hb : ∀ x ∈ (gatherOffs s m t k b).take j, InArea s x.2 (t.width / 8)) :
    gatherFault s m t k b false = some (faultOf 0x08 9 (areaAddr s s.c p.2)) := by
  have hz (o : ℤ) : o % 2 ^ 0 = 0 := by omega
  refine (if_neg (not_not.2 h)).trans (firstOf_get (j := j) ?_ ?_)
  · rw [List.getElem?_map, hj]
    exact congrArg some (areaFault_outside (hz _) hp)
  · intro x hx
    rw [← List.map_take] at hx
    obtain ⟨y, hy, rfl⟩ := List.mem_map.1 hx
    exact areaFault_inside (hz _) (hb y hy)

/-! ### Rings, hypervectors, loops (13 R225, R230, R233, 14 R253) -/

/-- What VLDR itself answers for chunk n of the tile at the head of the ring. -/
def ringReadFault (s : State) (rg n : ℕ) : Option FaultInfo :=
  let g := s.ring s.c rg
  if g.tileu.toNat ≤ n then some s.badSlot
  else if !g.v then some (ringFault s s.c rg)
  else if g.tail ≤ g.head then none
  else if s.spadPoison s.c (g.placeOff g.head + 512 * n) 512 then some (faultOf 0x08 8 (hallAddr s.c (g.placeOff g.head + 512 * n)))
  else none

section
variable {rg n : ℕ}

theorem ringReadFault_beyond (h : (s.ring s.c rg).tileu.toNat ≤ n) : ringReadFault s rg n = some s.badSlot := if_pos h

theorem ringReadFault_notSet (h : n < (s.ring s.c rg).tileu.toNat) (hv : (s.ring s.c rg).v = false) : ringReadFault s rg n = some (ringFault s s.c rg) := by
  simp only [ringReadFault, if_neg (Nat.not_le.2 h), hv]; rfl

theorem ringReadFault_poison (h : n < (s.ring s.c rg).tileu.toNat) (hv : (s.ring s.c rg).v = true) (hh : (s.ring s.c rg).head < (s.ring s.c rg).tail)
    (hp : s.spadPoison s.c ((s.ring s.c rg).placeOff (s.ring s.c rg).head + 512 * n) 512 = true) :
    ringReadFault s rg n = some (faultOf 0x08 8 (hallAddr s.c ((s.ring s.c rg).placeOff (s.ring s.c rg).head + 512 * n))) := by
  simp only [ringReadFault, if_neg (Nat.not_le.2 h), hv, if_neg (Nat.not_le.2 hh), hp]; rfl

end

theorem vldr_checks (q d rg k ch : ℕ) (pop : Bool) : cpValue s (.vldr q d rg k ch pop) = checked s (.vldr q d rg k ch pop) (ringReadFault s rg (ch + (s.kreg k).toNat)) := rfl

theorem vldr_hold {q d rg k ch : ℕ} {pop : Bool} (h : (s.ring s.c rg).tail ≤ (s.ring s.c rg).head) : cpHold s (.vldr q d rg k ch pop) = some .ring := by
  simp only [cpHold, h, decide_true, Bool.true_or, if_true]

/-- A full matrix queue holds a slot that would enter it. -/
theorem hold_full {α : Type} {w : α} (h : (s.cp s.c).mqCap ≤ (s.cp s.c).mq.length) : (if decide ((s.cp s.c).mqCap ≤ (s.cp s.c).mq.length) then some w else none) = some w :=
  if_pos (decide_eq_true h)

/-- ARD waits while an operation on its accumulator is queued or in flight. -/
theorem ard_hold {q m d n row : ℕ} {t : ElemType} {rm : Rm} (h : (∃ e ∈ (s.cp s.c).mq, mqTile e.op = n) ∨ ∃ r ∈ (s.cp s.c).mflight, mqTile r.entry.op = n) :
    cpHold s (.ard q m t rm d n row) = some .other :=
  if_pos (by simpa [Bool.or_eq_true, List.any_eq_true] using h)

/-- A slot that raises its own fault under a condition, and passes its checks without it. -/
theorem checked_if {b : Bool} (hon : onCp i = true) (hv : cpValue s i = checked s i (if b then some f else none)) :
    (b = true → allotOk (allotOf s s.c) i = true → s.pred (predOf i) = true → exec i s = .next (cpTrap (repPrep s i) s.c f))
    ∧ (¬ b = true → vecPoison s i = false → cpValue s i = none) :=
  ⟨fun h => exec_raises hon hv (if_pos h), fun h => value_passes hv (if_neg h)⟩

theorem repBad_iff : repBad s = true ↔ ∃ l ∈ (s.cp s.c).loops, l.close = (s.cp s.c).pc := by simp [repBad]

theorem loopBad_iff {lv e : ℕ} {rot : Bool} : loopBad s lv e rot = true ↔
    ∃ l ∈ (s.cp s.c).loops, (l.start ≤ (s.cp s.c).pc ∧ (s.cp s.c).pc ≤ l.close ∧ l.close < (s.cp s.c).pc + e) ∨ (rot = true ∧ l.rot = true ∧ l.level ≠ lv) := by
  simp [loopBad, and_assoc]

end Sys2Proof.Machine

open Sys2Proof.Machine in
/-- Settles O24: the order of the checks is that of `exec_faults` and `exec_waits`; each slot's own fault is read from its equation, the area's by `area_checks` and `lane_checks`. -/
theorem slotChecks : Obligations.SlotChecks := by
  intro i s hon c p raises passes holds illegal off named inside area lanes bad
  have reads (i : Sys2Proof.Instr) (o : ℤ) (n al : ℕ) (hon : onCp i = true) (hv : cpValue s i = checked s i (areaFault s c o n al true)) : area i o n al (bad o n) := by
    obtain ⟨h1, h2, h3, h4⟩ := area_checks hon hv
    exact ⟨h1, h2, fun h hn hp => h3 h hn ⟨rfl, hp⟩, fun h hn hp => h4 h hn fun hc => hp hc.2⟩
  have writes (i : Sys2Proof.Instr) (o : ℤ) (n al : ℕ) (hon : onCp i = true) (hv : cpValue s i = checked s i (areaFault s c o n al false)) : area i o n al False := by
    obtain ⟨h1, h2, -, h4⟩ := area_checks hon hv
    exact ⟨h1, h2, fun _ _ hf => hf.elim, fun h hn _ => h4 h hn fun hc => Bool.false_ne_true hc.1⟩
  have waits (i : Sys2Proof.Instr) (w : EngWait) (hon : onCp i = true) (hw : cpHold s i = some w) : holds i w := fun ha hq hv => exec_waits hon ha hq hv hw
  refine ⟨exec_unallotted hon, exec_unpredicated hon, fun ha hq => ⟨fun f => exec_faults hon ha hq, fun w => exec_waits hon ha hq⟩, fun w => cpWaits_cp, fun w h => if_pos h, ?vld, ?vst,
    fun _ _ _ => ⟨reads _ _ _ _ rfl rfl, writes _ _ _ _ rfl rfl⟩, fun _ _ _ _ => ⟨reads _ _ _ _ rfl rfl, reads _ _ _ _ rfl rfl⟩, fun _ _ _ _ => ⟨reads _ _ _ _ rfl rfl, writes _ _ _ _ rfl rfl⟩,
    fun _ _ _ => reads _ _ _ _ rfl rfl, ?misaligned, ?scatter, ?vldr, ?hcfg, ?loop, ?rep,
    fun _ _ _ _ h => ⟨waits _ _ rfl (hold_full h), waits _ _ rfl (hold_full h), waits _ _ rfl (hold_full h)⟩, fun _ _ _ _ _ _ _ h => waits _ _ rfl (ard_hold h),
    fun _ _ _ _ h => waits _ _ rfl (if_pos (decide_eq_true h))⟩
  case vld =>
    intro q m t d k x
    exact lane_checks rfl (vld_checks q m k t x d) (fun f => loadFault_lane m t) (fun h hp => (loadFault_noLane m t h).trans (if_pos hp)) fun h hp => (loadFault_noLane m t h).trans (if_neg hp)
  case vst =>
    intro q m t b k x
    exact lane_checks rfl (vst_checks q m k t x b) (fun f h => h) (fun _ hp => hp.elim) fun h _ => h
  case misaligned =>
    intro q m t d k b h
    exact ⟨exec_raises (own := gatherFault s m t k b true) rfl rfl (gatherFault_misaligned h), exec_raises (own := gatherFault s m t k b false) rfl rfl (gatherFault_misaligned h)⟩
  case scatter =>
    intro q m t d k b h j o hj ho hb
    exact exec_raises (own := gatherFault s m t k b false) rfl rfl (scatterFault_outside h hj ho hb)
  case vldr =>
    intro q d rg k ch pop g n i
    have hv := vldr_checks (s := s) q d rg k ch pop
    exact ⟨fun h => exec_raises rfl hv (ringReadFault_beyond h), fun h hg => exec_raises rfl hv (ringReadFault_notSet h hg), fun _ _ h => waits i _ rfl (vldr_hold h),
      fun h hg hh hp => exec_raises rfl hv (ringReadFault_poison h hg hh hp)⟩
  case hcfg =>
    intro q a b x y
    have hv : cpValue s (.hcfg q a b) = checked s (.hcfg q a b) (if x < 0 ∨ x % 1024 ≠ 0 ∨ y < 0 ∨ 4096 < y then some s.badSlot else none) := rfl
    exact ⟨fun h => exec_raises rfl hv (if_pos h), fun h1 h2 h3 h4 => value_passes hv (if_neg (by omega))⟩
  case loop =>
    intro q lv e n k rot leaves
    have hi : cpValue s (.cpLoop q lv e n rot) = checked s (.cpLoop q lv e n rot) (if loopBad s lv e rot then some s.badSlot else none) := rfl
    have hk : cpValue s (.cpLoopK q lv e k rot) = checked s (.cpLoopK q lv e k rot) (if loopBad s lv e rot then some s.badSlot else none) := rfl
    obtain ⟨bi, gi⟩ := checked_if rfl hi
    obtain ⟨bk, gk⟩ := checked_if rfl hk
    exact ⟨fun h => ⟨bi (loopBad_iff.2 h), bk (loopBad_iff.2 h)⟩, fun h => ⟨gi (mt loopBad_iff.1 h), gk (mt loopBad_iff.1 h)⟩⟩
  case rep =>
    intro q n k st atEnd
    have hi : cpValue s (.rep q n st) = checked s (.rep q n st) (if repBad s then some s.badSlot else none) := rfl
    have hk : cpValue s (.repK q k st) = checked s (.repK q k st) (if repBad s then some s.badSlot else none) := rfl
    obtain ⟨bi, gi⟩ := checked_if rfl hi
    obtain ⟨bk, gk⟩ := checked_if rfl hk
    exact ⟨fun h => ⟨bi (repBad_iff.2 h), bk (repBad_iff.2 h)⟩, fun h => ⟨gi (mt repBad_iff.1 h), gk (mt repBad_iff.1 h)⟩⟩
end
